-- ==== Sys2Proof/Word.lean ====
section
/-!
DEFINITION. The word types of the TF940 and the sparse map that holds every numbered store of the model.
A store is a list of (number, value) pairs; its canonical form (numbers strictly rising, no pair that equals the
store's default) and its operations are in Machine/Maps.lean.
-/
namespace Sys2Proof

/-- One byte of memory. -/
abbrev Byte := BitVec 8

/-- A 32-bit register of one lane (R31). -/
abbrev W32 := BitVec 32

/-- A 64-bit register or pointer (R31, R168). -/
abbrev W64 := BitVec 64

/-- An instruction word (R54). -/
abbrev InstrWord := BitVec 128

/-- A set of lanes of one strand, lane 0 in bit 0. -/
abbrev Lanes := BitVec 64

/-- A numbered store, kept as data: see Machine/Maps.lean. -/
abbrev SMap (α : Type) := List (Nat × α)

end Sys2Proof
end

