-- ==== Sys2Proof/Syntax.lean ====
section
/-!
DEFINITION. The instruction type: one constructor per row of spec/opcode_table.json.  A program instruction carries its
control fields (R54) and the fields of its format (R62 to R72); the other rows are steps of the device itself (95), which
have no instruction word and carry what names them (a fragment, an operation, a core) or what the outside brings
(a command word, a beat, a sensor value).
-/
namespace Sys2Proof

/-! ### Operand fields (R12, R55 to R58) -/

/-- A 12-bit operand field.  A predicate, tile, coefficient or convergence register is kind 11 with its number (R56), that
is `imm n`; an unused field is 0x000, that is `vec 0`. -/
inductive Operand where
  /-- kind 00: `v n` -/
  | vec (n : BitVec 8)
  /-- kind 01: `s n` -/
  | uni (n : BitVec 6)
  /-- kind 10: `f d.k` -/
  | slot (d : BitVec 3) (k : BitVec 7)
  /-- kind 11, bit 9 = 0: a 9-bit immediate, or the number of a named register -/
  | imm (n : BitVec 9)
  /-- kind 11, bit 9 = 1: the value stands in IMM/MOD -/
  | immWord
deriving DecidableEq, Repr

/-- The four operand fields of a word, DST, SRCA, SRCB, SRCC (R54), and its IMM/MOD. -/
structure Ops where
  d : Operand
  a : Operand
  b : Operand
  c : Operand
  imm : W32
deriving DecidableEq, Repr

/-- The control fields of a word and its SITE field (R54, R16). -/
structure Ctl where
  stall : BitVec 4
  guard : BitVec 4
  wait : BitVec 4
  sett : BitVec 3
  yld : Bool
  q : Bool
  pin : Bool
  flips : BitVec 3
deriving DecidableEq, Repr

/-! ### Types, formats, orders and scopes (R63, R66, R70) -/

/-- TYPE and STYPE (R63). -/
inductive Ty where
  | i32 | u32 | i64 | u64 | f32 | f64 | f16x2 | bf16x2 | b32 | b64 | f16 | bf16 | e4m3x4 | e5m2x4 | i8x4 | i4x8
deriving DecidableEq, Repr

/-- Element formats (R66). -/
inductive Fmt where
  | raw32 | raw64 | int4 | int8 | int32 | int64 | fp16 | bf16 | fp32 | fp64 | e4m3 | e5m2 | sx3 | sx5 | sx8
deriving DecidableEq, Repr

/-- Memory orders (R70). -/
inductive Order where
  | rlx | acq | rel | ar | sc
deriving DecidableEq, Repr

/-- Scopes (R70, R236). -/
inductive Scope where
  | thr | blk | clu | dev | sys
deriving DecidableEq, Repr

/-! ### The formats (R62, R64, R67 to R72) -/

/-- Format C (R64). -/
structure CFmt where
  sub : BitVec 4
  depth : BitVec 3
  sel : BitVec 9
  ops : Ops
deriving DecidableEq, Repr

/-- Format A (R62). -/
structure AFmt where
  sub : BitVec 4
  ty : Ty
  sty : Ty
  modv : Bool
  ops : Ops
deriving DecidableEq, Repr

/-- Layout Ma, loads and stores (R67). -/
structure MaFmt where
  space : BitVec 3
  zx : Bool
  fmt : Fmt
  order : Order
  scope : Scope
  fwd : Bool
  ops : Ops
deriving DecidableEq, Repr

/-- Layout Mb, atomics and reductions (R68). -/
structure MbFmt where
  sub : BitVec 4
  ty : Ty
  ord : Bool
  order : Order
  scope : Scope
  clu : Bool
  ops : Ops
deriving DecidableEq, Repr

/-- Layout Mc, prefetch, copies and code modification (R69). -/
structure McFmt where
  sub : BitVec 4
  fmt : Fmt
  ops : Ops
deriving DecidableEq, Repr

/-- Format S (R71): `sd` is the scope code or the frame depth. -/
structure SFmt where
  sub : BitVec 4
  sd : BitVec 3
  order : Order
  ty : Ty
  ops : Ops
deriving DecidableEq, Repr

/-- Format T (R72). -/
structure TFmt where
  sub : BitVec 4
  fmt : Fmt
  add : Bool
  int : Bool
  ops : Ops
deriving DecidableEq, Repr

/-! ### What the device steps name -/

/-- A fragment, named by its block, its strand and any lane it holds (R43). -/
structure FragRef where
  blk : Nat
  strand : Nat
  lane : Nat
deriving DecidableEq, Repr

/-- The call sheet's effect for an emulated instruction (R128): what its handler writes, and where the fragment goes
(`none`: PC + 16); a write to memory names the lane that makes it; `none` as the pointer of a display register clears V; `trap` is what the handler finds: its cause, lanes, TADDR
and TCODE (R129, R316). -/
structure EmulEffect where
  vregs : List (Nat × Nat × W32)
  preds : List (Nat × Nat × Bool)
  disp : List (Nat × Nat × Option W64)
  toks : List (Nat × Nat × Nat)
  uregs : List (Nat × W64)
  fmode : Option W32
  mem : List (Nat × W64 × Byte)
  pc : Option W64
  trap : Option (Nat × Lanes × W64 × W32)
deriving DecidableEq, Repr, Inhabited

/-- Where a soft error strikes (R269 to R285). -/
inductive ErrLoc where
  | vreg (blk strand reg lane : Nat)
  | ureg (blk strand reg : Nat)
  | thread (blk strand lane : Nat)
  /-- a display register of a thread, in the display array (R268) -/
  | disp (blk strand reg lane : Nat)
  | plane (blk : Nat) (shadow : Bool) (cell : Nat)
  | tile (blk tile elem : Nat)
  | checksum (blk tile idx : Nat)
  | scratch (core addr : Nat)
  | l1 (quad line word : Nat)
  | slice (pa : Nat)
  /-- a die's copy of another die's line -/
  | copy (die pa : Nat)
  | memory (pa : Nat)
  /-- a convergence register, 8 for the internal one; FMODE; ISTAT; a coefficient register (R268) -/
  | conv (blk reg : Nat)
  | fmode (blk strand : Nat)
  | istat (blk : Nat)
  | kreg (blk n : Nat)
deriving DecidableEq, Repr

/-- The class under which a tile offers a flit (R336). -/
inductive FlitClass where
  | tenant (t : Nat)
  | service
deriving DecidableEq, Repr

/-- A request of a host or a peer module to device memory (R242, R333). -/
inductive MemReq where
  | read (bytes : Nat)
  | write (data : List Byte)
deriving DecidableEq, Repr

/-- What a host snoop asks of a host line held by a slice (R242). -/
inductive SnoopKind where
  | share
  | invalidate
deriving DecidableEq, Repr

/-- The message a sat-out NACK answers (R347). -/
inductive NackKind where
  | sharedInvalidation | recall | grant
deriving DecidableEq, Repr

/-- How a tile's core fails (R341, R342). -/
inductive CoreFailure where
  | stop
  | extraBeats (n : Nat)
  | badBeats (n : Nat)
  | testWillFail
deriving DecidableEq, Repr

/-- The access a walk is made for (R365). -/
inductive Access where
  | read | write | atomic | fetch
deriving DecidableEq, Repr

/-- A call-sheet image (R294): the ELF64 file that is signed, and its version. -/
structure SheetImage where
  bytes : List Byte
  version : Nat
deriving DecidableEq, Repr

/-! ### The instructions -/

/-- One constructor per row of spec/opcode_table.json. -/
inductive Instr where
  -- Format C: control and system
  | nop (c : Ctl) (f : CFmt)
  | bra (c : Ctl) (f : CFmt)
  | brxa (c : Ctl) (f : CFmt)
  | brx (c : Ctl) (f : CFmt)
  | call (c : Ctl) (f : CFmt)
  | ret (c : Ctl) (f : CFmt)
  | exit (c : Ctl) (f : CFmt)
  | trap (c : Ctl) (f : CFmt)
  | bkpt (c : Ctl) (f : CFmt)
  | tret (c : Ctl) (f : CFmt)
  | nap (c : Ctl) (f : CFmt)
  | srd (c : Ctl) (f : CFmt)
  | swr (c : Ctl) (f : CFmt)
  | spawn (c : Ctl) (f : CFmt)
  | trace (c : Ctl) (f : CFmt)
  -- Format A: integer, address, predicate
  | iadd (c : Ctl) (f : AFmt)
  | isub (c : Ctl) (f : AFmt)
  | imul (c : Ctl) (f : AFmt)
  | imulh (c : Ctl) (f : AFmt)
  | imad (c : Ctl) (f : AFmt)
  | imin (c : Ctl) (f : AFmt)
  | imax (c : Ctl) (f : AFmt)
  | land (c : Ctl) (f : AFmt)
  | lor (c : Ctl) (f : AFmt)
  | lxor (c : Ctl) (f : AFmt)
  | shl (c : Ctl) (f : AFmt)
  | shr (c : Ctl) (f : AFmt)
  | rot (c : Ctl) (f : AFmt)
  | bfx (c : Ctl) (f : AFmt)
  | bfi (c : Ctl) (f : AFmt)
  | popc (c : Ctl) (f : AFmt)
  | clz (c : Ctl) (f : AFmt)
  | brev (c : Ctl) (f : AFmt)
  | sel (c : Ctl) (f : AFmt)
  | icmp (c : Ctl) (f : AFmt)
  | lea (c : Ctl) (f : AFmt)
  | mov (c : Ctl) (f : AFmt)
  | movi (c : Ctl) (f : AFmt)
  | pand (c : Ctl) (f : AFmt)
  | pmov (c : Ctl) (f : AFmt)
  -- Format A: floating point
  | fadd (c : Ctl) (f : AFmt)
  | fmul (c : Ctl) (f : AFmt)
  | ffma (c : Ctl) (f : AFmt)
  | fmin (c : Ctl) (f : AFmt)
  | fmax (c : Ctl) (f : AFmt)
  | fcmp (c : Ctl) (f : AFmt)
  | fclass (c : Ctl) (f : AFmt)
  | frcp (c : Ctl) (f : AFmt)
  | frsq (c : Ctl) (f : AFmt)
  | fsqrt (c : Ctl) (f : AFmt)
  | fexp2 (c : Ctl) (f : AFmt)
  | flog2 (c : Ctl) (f : AFmt)
  | fsin (c : Ctl) (f : AFmt)
  | fcos (c : Ctl) (f : AFmt)
  | ftanh (c : Ctl) (f : AFmt)
  | frnd (c : Ctl) (f : AFmt)
  | fscale (c : Ctl) (f : AFmt)
  | fdot2 (c : Ctl) (f : AFmt)
  -- Format A: conversion
  | cvt (c : Ctl) (f : AFmt)
  | qsx (c : Ctl) (f : AFmt)
  | qscale (c : Ctl) (f : AFmt)
  | dqsx (c : Ctl) (f : AFmt)
  | pack (c : Ctl) (f : AFmt)
  | unpack (c : Ctl) (f : AFmt)
  -- Format A: cross-lane
  | shfl (c : Ctl) (f : AFmt)
  | matchAny (c : Ctl) (f : AFmt)
  | vote (c : Ctl) (f : AFmt)
  | redux (c : Ctl) (f : AFmt)
  | scan (c : Ctl) (f : AFmt)
  | bcast (c : Ctl) (f : AFmt)
  -- Layout Ma: loads and stores
  | lda (c : Ctl) (f : MaFmt)
  | sta (c : Ctl) (f : MaFmt)
  | ldg (c : Ctl) (f : MaFmt)
  | stg (c : Ctl) (f : MaFmt)
  | lds (c : Ctl) (f : MaFmt)
  | sts (c : Ctl) (f : MaFmt)
  | ldp (c : Ctl) (f : MaFmt)
  | stp (c : Ctl) (f : MaFmt)
  | ldk (c : Ctl) (f : MaFmt)
  | ldb (c : Ctl) (f : MaFmt)
  -- Layout Mc: prefetch, copies, code
  | pref (c : Ctl) (f : McFmt)
  | cpa (c : Ctl) (f : McFmt)
  | cpt (c : Ctl) (f : McFmt)
  | fetchb (c : Ctl) (f : McFmt)
  | codeinv (c : Ctl) (f : McFmt)
  | siteclr (c : Ctl) (f : McFmt)
  | siteclrPin (c : Ctl) (f : McFmt)
  -- Layout Mb: atomics
  | atoma (c : Ctl) (f : MbFmt)
  | reda (c : Ctl) (f : MbFmt)
  | atomg (c : Ctl) (f : MbFmt)
  | atoms (c : Ctl) (f : MbFmt)
  | redg (c : Ctl) (f : MbFmt)
  | reds (c : Ctl) (f : MbFmt)
  -- Format S: synchronisation, frames, context
  | cvset (c : Ctl) (f : SFmt)
  | barinit (c : Ctl) (f : SFmt)
  | barexpect (c : Ctl) (f : SFmt)
  | bararrive (c : Ctl) (f : SFmt)
  | barwait (c : Ctl) (f : SFmt)
  | bartry (c : Ctl) (f : SFmt)
  | stginit (c : Ctl) (f : SFmt)
  | stgwait (c : Ctl) (f : SFmt)
  | stgarrive (c : Ctl) (f : SFmt)
  | fence (c : Ctl) (f : SFmt)
  | ctxst (c : Ctl) (f : SFmt)
  | ctxld (c : Ctl) (f : SFmt)
  | svdone (c : Ctl) (f : SFmt)
  | fenter (c : Ctl) (f : SFmt)
  | fleave (c : Ctl) (f : SFmt)
  | bfenter (c : Ctl) (f : SFmt)
  | bfleave (c : Ctl) (f : SFmt)
  | cfenter (c : Ctl) (f : SFmt)
  | cfleave (c : Ctl) (f : SFmt)
  | fsync (c : Ctl) (f : SFmt)
  | fatom (c : Ctl) (f : SFmt)
  | dspr (c : Ctl) (f : SFmt)
  | dspw (c : Ctl) (f : SFmt)
  -- Format T: matrix engine
  | mzero (c : Ctl) (f : TFmt)
  | ldstat (c : Ctl) (f : TFmt)
  | pswap (c : Ctl) (f : TFmt)
  | mstream (c : Ctl) (f : TFmt)
  | accld (c : Ctl) (f : TFmt)
  | accst (c : Ctl) (f : TFmt)
  | accchk (c : Ctl) (f : TFmt)
  | accmov (c : Ctl) (f : TFmt)
  | accplane (c : Ctl) (f : TFmt)
  | miter (c : Ctl) (f : TFmt)
  | kld (c : Ctl) (f : TFmt)
  | kmov (c : Ctl) (f : TFmt)
  -- Steps of the device itself
  | illegalWord (w : InstrWord)
  | laterLevelOpcode (w : InstrWord)
  | instructionFetch (f : FragRef)
  | pendingTrapDelivery (f : FragRef)
  | resultWriteback (blk strand id : Nat)
  | stallExpiry (f : FragRef)
  | napExpiry (f : FragRef)
  | siteResolve (core id : Nat)
  | loadDataReturn (blk op : Nat)
  | storePerformed (blk op : Nat)
  | atomicHomeStep (blk op : Nat)
  | copyGranule (blk op : Nat)
  | barwaitRelease (f : FragRef)
  | stgwaitRelease (f : FragRef)
  | fenceComplete (f : FragRef)
  | engineOpComplete (blk : Nat)
  | miterIteration (blk : Nat)
  | blockEnd (blk : Nat)
  | fatalTrap (blk : Nat)
  | csReset
  | csDoorbell (ten queue : Nat)
  | csSpawn (blk op : Nat)
  | csBlkend (core quad slot : Nat)
  | csLost (core quad slot : Nat)
  | csSaved (core quad slot kind : Nat)
  | csEmul (f : FragRef) (e : EmulEffect)
  | csSitout (core : Nat)
  | csTick (ten : Nat)
  | placementDecision
  | stopDecision (blk reason : Nat)
  | drainTimeout (blk : Nat)
  | saveBudgetExpiry (blk : Nat)
  | forcedSave (blk : Nat)
  | restore (saved core quad : Nat)
  | queuePortWrite (fn port : Nat) (pasid : Option Nat) (dmwr : Bool) (data : List Byte)
  | callSheetLoad (image : SheetImage)
  | qsync (word : W64)
  | vfstop (word : W64)
  | vfresume (word : W64)
  | attestationRequest (word : W64)
  | attestationSigned
  | stop (word : W64)
  | step (word : W64)
  | resume (word : W64)
  | kill (word : W64)
  | setout (word : W64)
  | readmit (word : W64)
  | retire (word : W64)
  | logringWrite (v : W64)
  | calctlLoad
  | calendarCommit
  | qtctlLoad
  | invTenant (fn : Nat)
  | invPasid (fn : Nat)
  | invPasidRange (fn : Nat)
  | invStage2Range (fn : Nat)
  | invTables (fn : Nat)
  | invalidationDone (fn : Nat)
  | scrubOrder (stack : Nat)
  | scrubStep (stack region port : Nat)
  | spownWrite (core : Nat) (v : W64)
  | bankZeroDone (core bank : Nat)
  | powctlWrite (v : W64)
  | registerWrite (fn offset width : Nat) (v : W64)
  | powerSample (pnow throt : Nat)
  | sensorUpdate (core : Nat) (temp droop : BitVec 16) (alarm : Bool)
  | wearUpdate (i : Nat) (stress remain : W32)
  | tokenRefill
  | tlbWalk (core quad ten pasid : Nat) (va : W64) (acc : Access)
  | dirtyLogPoll (ten : Nat)
  | flitInject (core : Nat) (cls : FlitClass) (blk op : Nat)
  | flitReplay (blk op : Nat) (again : Bool)
  | requestAccept (slice : Nat)
  | ownershipGrant (quad line : Nat)
  | recallLine (line : Nat)
  | mergingFill (quad line : Nat)
  | l1Writeback (quad line : Nat)
  | tileUpdateLock (blk : Nat)
  | tileUpdateApply (blk : Nat)
  | beatSend (core : Nat)
  | beatReceive (core dir : Nat) (beat : W64)
  | windowEnd (core dir : Nat)
  | suspicionExpiry (core dir : Nat)
  | sitOutNotice (slice core : Nat)
  | satOutNack (kind : NackKind) (line core : Nat)
  | selftestDone (core : Nat) (pass : Bool)
  | hostMemRequest (pa : Nat) (req : MemReq)
  | hostSnoop (pa : Nat) (kind : SnoopKind) (data : List Byte)
  | peerRequest (peer pa : Nat) (req : MemReq)
  | deviceReset
  | vfFlr (vf : Nat)
  | powerLoss
  | softError (loc : ErrLoc) (correctable : Bool)
  | coreStopped (core : Nat) (how : CoreFailure)
  | hostLinkDown (link : Nat)
  | hostLinkUp (link : Nat)
  | linkRetrainComplete (dieA dieB : Nat)
  | bankUpdateDone (blk op : Nat)
  | codeinvDone (blk op : Nat)
  | siteclrWordHandled (blk op : Nat)
  | prefDone (blk op : Nat)
  | traceRecordDone (blk op : Nat)
deriving DecidableEq, Repr

end Sys2Proof
end

