-- ==== Sys2Proof/Machine/Fields.lean ====
section
/-!
DEFINITION. Small predicates on operand fields, types and formats (R12, R13, R56, R63, R66), shared by the admission rules,
the operand usage and the meanings.
-/
namespace Sys2Proof

/-! ### Types and positions -/

/-- Types that name 64-bit values (R63). -/
def Ty.wide : Ty → Bool
  | .i64 | .u64 | .f64 | .b64 => true
  | _ => false

/-- Element formats whose register is a pair in a native word (R170, R172). -/
def Fmt.wide : Fmt → Bool
  | .raw64 | .int64 | .fp64 => true
  | _ => false

def Operand.isVec : Operand → Bool
  | .vec _ => true
  | _ => false

def Operand.isUni : Operand → Bool
  | .uni _ => true
  | _ => false

def Operand.isSlot : Operand → Bool
  | .slot _ _ => true
  | _ => false

/-- kind 11 in a value position -/
def Operand.isImm : Operand → Bool
  | .imm _ => true
  | .immWord => true
  | _ => false

/-- 0x000, the field of an operand that is not used (R11, R58). -/
def Operand.unused (o : Operand) : Bool := o == .vec 0

/-- A named register below the bound (R56). -/
def Operand.named (bound : Nat) : Operand → Bool
  | .imm n => n.toNat < bound
  | _ => false

def Operand.isPred (o : Operand) : Bool := o.named 8
def Operand.isTile (o : Operand) : Bool := o.named 4
def Operand.isCoef (o : Operand) : Bool := o.named 16
def Operand.isCv (o : Operand) : Bool := o.named 8

/-- A 64-bit operand names an even vector register or slot (R13, R58). -/
def Operand.evenPair : Operand → Bool
  | .vec n => n.toNat % 2 == 0
  | .slot _ k => k.toNat % 2 == 0
  | _ => true

/-- A source of the width: any kind that takes a value. -/
def Operand.src (wide : Bool) (o : Operand) : Bool := !wide || o.evenPair

/-- A destination or a pair: kind 00, 01 or 10. -/
def Operand.place (wide : Bool) (o : Operand) : Bool := !o.isImm && o.src wide

/-- A 64-bit pair of kind 00, 01 or 10 (R71, R132). -/
def Operand.pair (o : Operand) : Bool := o.place true

/-- A place that lanes own: kind 00 or 10. -/
def Operand.laneplace (wide : Bool) (o : Operand) : Bool := o.place wide && !o.isUni

/-- A source the uniform datapath may read: no vector register, no private frame slot (R62). -/
def Operand.uniformSource : Operand → Bool
  | .vec _ => false
  | .slot d _ => d.toNat < 3
  | _ => true

/-- A named register's number (R56). -/
def Operand.num : Operand → Nat
  | .vec n => n.toNat
  | .uni n => n.toNat
  | .slot _ k => k.toNat
  | .imm n => n.toNat
  | .immWord => 0

def Ty.isInt : Ty → Bool
  | .i32 | .u32 | .i64 | .u64 => true
  | _ => false

/-- Signed types (R130). -/
def Ty.signed : Ty → Bool
  | .i32 | .i64 => true
  | _ => false

/-- Width of a type in bits (R130). -/
def Ty.bits (t : Ty) : Nat := if t.wide then 64 else 32

/-- Elements of a packed type (R91). -/
def Ty.elems : Ty → Nat
  | .f16x2 | .bf16x2 => 2
  | .e4m3x4 | .e5m2x4 | .i8x4 => 4
  | .i4x8 => 8
  | _ => 1

def Ty.packedFloat : Ty → Bool
  | .f16x2 | .bf16x2 | .e4m3x4 | .e5m2x4 => true
  | _ => false

def Fmt.subByteInt : Fmt → Bool
  | .int4 | .int8 => true
  | _ => false

def Fmt.isSx : Fmt → Bool
  | .sx3 | .sx5 | .sx8 => true
  | _ => false

end Sys2Proof
end

