-- ==== Sys2Proof/Machine/Flags.lean ====
section
/-!
DEFINITION. The sticky floating-point flags and the other fields of %fmode (R37).
-/
namespace Sys2Proof

/-- The five flags (R37, bits 7 to 3). -/
structure Flags where
  nv : Bool
  dz : Bool
  of : Bool
  uf : Bool
  nx : Bool
deriving DecidableEq, Repr

def Flags.none : Flags := { nv := false, dz := false, of := false, uf := false, nx := false }
def Flags.NV : Flags := { Flags.none with nv := true }
def Flags.DZ : Flags := { Flags.none with dz := true }
def Flags.OF : Flags := { Flags.none with of := true }
def Flags.UF : Flags := { Flags.none with uf := true }
def Flags.NX : Flags := { Flags.none with nx := true }

/-- The union of two sets of flags (R91, R130). -/
def Flags.or (a b : Flags) : Flags :=
  { nv := a.nv || b.nv, dz := a.dz || b.dz, of := a.of || b.of, uf := a.uf || b.uf, nx := a.nx || b.nx }

def Flags.when (b : Bool) (f : Flags) : Flags := if b then f else Flags.none

def Flags.union (l : List Flags) : Flags := l.foldl Flags.or Flags.none

/-- The flags in their places in %fmode (R37). -/
def Flags.word (f : Flags) : W32 :=
  (if f.nv then 0x80#32 else 0) ||| (if f.dz then 0x40#32 else 0) ||| (if f.of then 0x20#32 else 0) |||
  (if f.uf then 0x10#32 else 0) ||| (if f.nx then 0x08#32 else 0)

/-- A raised flag sticks (R37). -/
def fmodeRaise (fmode : W32) (f : Flags) : W32 := fmode ||| f.word

/-- %fmode.CHK (R37, R80). -/
def fmodeChk (fmode : W32) : Bool := fmode.getLsbD 15

/-- %fmode.FTZ (R37, R95). -/
def fmodeFtz (fmode : W32) : Bool := fmode.getLsbD 14

/-- What an SWR may write: the reserved bits zero, RM at most 4 (R37). -/
def fmodeLegal (v : W32) : Bool :=
  v.extractLsb' 16 16 == 0 && v.extractLsb' 8 6 == 0 && (v.extractLsb' 0 3).toNat ≤ 4

/-- Rounding modes (R92). -/
inductive RMode where
  | rne | rtz | rup | rdn | rna
deriving DecidableEq, Repr

/-- A mode by its code in FMODE.RM (R37). -/
def RMode.ofCode : Nat → RMode
  | 0 => .rne
  | 1 => .rtz
  | 2 => .rup
  | 3 => .rdn
  | _ => .rna

/-- RoundSel (R59): RND 0 is the mode of FMODE.RM, RND n + 1 the mode n. -/
def roundSel (rnd : Nat) (fmode : W32) : RMode :=
  if rnd = 0 then RMode.ofCode (fmode.extractLsb' 0 3).toNat else RMode.ofCode (rnd - 1)

end Sys2Proof
end

