-- ==== Sys2Proof/Machine/Maps.lean ====
section
/-!
DEFINITION. Numbered stores: lists of (number, value) pairs with the numbers strictly rising.  A store with a default value
lists no pair equal to it, so that equal stores are equal data.
-/
namespace Sys2Proof.SMap

/-- The numbers rise strictly, each above `lo` where one is given. -/
def sortedFrom {α : Type} (lo : Option Nat) : SMap α → Bool
  | [] => true
  | (k, _) :: m => (match lo with | none => true | some l => decide (l < k)) && sortedFrom (some k) m

def sorted {α : Type} (m : SMap α) : Bool := sortedFrom none m

/-- The canonical form for the default `d`. -/
def wf {α : Type} [DecidableEq α] (d : α) (m : SMap α) : Bool := m.sorted && m.all fun kv => kv.2 != d

def find {α : Type} : SMap α → Nat → Option α
  | [], _ => none
  | (k, v) :: m, i => if i = k then some v else find m i

def get {α : Type} (d : α) (m : SMap α) (i : Nat) : α := (m.find i).getD d

/-- Store `v` at number `i`, whatever the default. -/
def put {α : Type} : SMap α → Nat → α → SMap α
  | [], i, v => [(i, v)]
  | (k, w) :: m, i, v =>
    if i < k then (i, v) :: (k, w) :: m else if i = k then (i, v) :: m else (k, w) :: put m i v

/-- Drop number `i`. -/
def erase {α : Type} (m : SMap α) (i : Nat) : SMap α := m.filter fun kv => kv.1 != i

/-- Store `v` at number `i`; the default is not listed. -/
def set {α : Type} [DecidableEq α] (d : α) (m : SMap α) (i : Nat) (v : α) : SMap α :=
  if v = d then m.erase i else m.put i v

/-- Change the value at `i`. -/
def upd {α : Type} [DecidableEq α] (d : α) (m : SMap α) (i : Nat) (f : α → α) : SMap α :=
  m.set d i (f (m.get d i))

/-- The values at numbers at or above `lo` and below `hi` dropped. -/
def dropRange {α : Type} (m : SMap α) (lo hi : Nat) : SMap α :=
  m.filter fun kv => !(decide (lo ≤ kv.1) && decide (kv.1 < hi))

end Sys2Proof.SMap
end

