-- ==== Sys2Proof/Config.lean ====
section
/-!
DEFINITION. What an implementation fixes (R2, R3, R268 to R290, R331 to R344) and the FREE VALUES of the model: constants
with no body, so that no proof can lean on one of their values.
-/
namespace Sys2Proof.Config

/-- Cores of the module: 4 dies of 64 (R2). -/
abbrev cores : Nat := 256
/-- Quadrants of one core (R2). -/
abbrev quads : Nat := 4
/-- Period of the watch mesh, the sensors and the rate limiters, in cycles (R341, R370, R381). -/
abbrev period : Nat := 4096
/-- Slots of the calendar (R334). -/
abbrev slots : Nat := 512
/-- Cycles of a self-test (R350). -/
abbrev selfTestCycles : Nat := 2 ^ 24
/-- Copies that one core holds in flight (R184). -/
abbrev copySlots : Nat := 64
/-- Site requests that one core holds in flight (R116). -/
abbrev siteSlots : Nat := 8
/-- Miss registers and write-back entries of one slice (R283). -/
abbrev missRegs : Nat := 64
abbrev wbEntries : Nat := 32

/-- A number that no strand of a block has (R2). -/
abbrev noStrand : Nat := 64

/-! ### Free values (each named in a log entry) -/

/-- FREE VALUE: the `n`-th value that the spec leaves open, as 64 bits (log 2, DESIGN CHOICE). -/
opaque freeWord : Nat → W64

/-- FREE VALUE: the choice of R80, old (`false`) or delivered (`true`), for the `n`-th read of a pending
variable-latency write with CHK = 0 (log 10, DESIGN CHOICE). -/
opaque freeChoice : Nat → Bool

/-- FREE FUNCTION: the checksum that the engine keeps, within the bound of R221: of the instruction's FUNC, its operands, the
line as it stood with its checksum, and the line's number (R109; log 20, DESIGN CHOICE). -/
opaque freeChecksum : List Nat → List W64 → List W64 → W64 → Nat → W64

/-- FREE FUNCTION: SHAKE256 with a 32-byte output (R377, R380); the spec names it and does not describe it (log 43, DESIGN CHOICE). -/
opaque shake256 : List Byte → List Byte

/-- FREE FUNCTION: whether an image carries a good XMSS signature under the fused key digest (R377) (log 43, DESIGN CHOICE). -/
opaque xmssVerify : List Byte → List Byte → Bool

/-- FREE FUNCTION: the XMSS signature of a message under the device key with a leaf index (R380) (log 43, DESIGN CHOICE). -/
opaque xmssSign : Nat → List Byte → List Byte

/-- FREE FUNCTION: the public root of the device identity key (R379) (log 43, DESIGN CHOICE). -/
opaque identityRoot : Nat → Byte

/-- FREE FUNCTION: what the call sheet's entry does for an emulated word, at the `n`-th such step (R128) (log 42, DESIGN CHOICE). -/
opaque emulEffect : InstrWord → Nat → EmulEffect

end Sys2Proof.Config
end

