-- ==== Sys2Proof/Machine/State.lean ====
section
/-!
DEFINITION. The state of the module, as plain data: every piece of state the spec names (INVENTORY.md, '## State', lists
them with their rules and reset values), and the model's own few fields (the agenda, the issuing context, two counters).
`State.reset` is the module right after device reset and a good boot (R377, R384).
-/
namespace Sys2Proof.Machine

/-! ### Reasons to stop -/

/-- Why the model stops with a fault. -/
inductive Fault where
  /-- Raised by HOST_MEM_REQUEST and PEER_REQUEST for an address at or above 2^39, where the device has no memory (R280,
  R352).  Safe: the spec says no such address exists. -/
  | noDeviceMemory
deriving DecidableEq, Repr

/-- Why the model refuses a step. -/
inductive Refusal where
  /-- Raised only by an arm of `exec` that has no meaning yet.  Safe. -/
  | notModelled (mnemonic : String)
deriving DecidableEq, Repr

/-! ### Places and traps -/

/-- The home of a byte (R237): a physical address, or a byte of a core's scratchpad (bank * 32 KiB + row * 16 + byte). -/
inductive Loc where
  | phys (pa : Nat)
  | spad (core addr : Nat)
deriving DecidableEq, Repr

/-- Trap causes (R316). -/
inductive Cause where
  | illegal | role | uniform | align | access | format | stack | frame
  | stallchk | diverge | accchk | ecc | lost | bkpt | trap | preempt
deriving DecidableEq, Repr

/-- What a trap reports (R316, R319): its cause, its lanes, TADDR, TCODE, and for ILLEGAL the word. -/
structure Trap where
  cause : Cause
  lanes : Lanes
  addr : W64
  code : W32
  word : InstrWord
deriving DecidableEq, Repr

/-- A trap left pending on a fragment by the engine or the copy engine (R83, R182, R214). -/
structure PendTrap where
  trap : Trap
  pc : W64
  /-- an engine trap: RPC is the fragment's next PC; else a precise one that came late (R178; log 18, DEDUCED) -/
  engine : Bool
  /-- delivered at once even to a held fragment: the engine's (R214) -/
  now : Bool
deriving DecidableEq, Repr

/-- A trap record (R319). -/
structure TrapRec where
  cause : Cause
  tpc : W64
  engine : Bool
  step : Bool
  debug : Bool
  fatal : Bool
  rpc : W64
  info : InstrWord
  tlanes : Lanes
  tfrag : Lanes
  tsibs : Lanes
  tblk : W32
  tstrand : Nat
  tquad : Nat
  tten : Nat
  tcore : Nat
deriving DecidableEq, Repr

/-! ### Strands -/

/-- A fence that some lanes of a fragment wait for: the lanes that count its token, the active ones among them, its place in
issue order, the scope, and the token (R197, R211). -/
structure FenceWait where
  lanes : Lanes
  active : Lanes
  before : Nat
  scope : Scope
  tok : BitVec 3
deriving DecidableEq, Repr

/-- What holds a fragment after its instruction has issued (R194, R195, R197, R207, R128). -/
inductive Hold where
  | free
  | barwait (addr : W64) (ph : W32) (tok : BitVec 3)
  | stgwait (slot : W64) (ph : Bool) (inv : Bool) (tok : BitVec 3)
  /-- the fences of its lanes (R45) -/
  | fence (waits : List FenceWait)
  /-- signed at BFENTER, BFLEAVE, CFENTER or CFLEAVE -/
  | shared
  /-- parked for emulation (R128) -/
  | emul (w : InstrWord)
  /-- parked by a fatal trap (R322) -/
  | parked
deriving DecidableEq, Repr

/-- A fragment (R43, R44). -/
structure Frag where
  lanes : Lanes
  pc : W64
  age : Nat
  /-- the cycle at which the STALL of the last issued word ends (R76) -/
  stall : Option Nat
  /-- the cycle at which a NAP ends (R139) -/
  nap : Option Nat
  hold : Hold
  pend : List PendTrap
deriving DecidableEq, Repr

/-- A destination of a result, per lane where lanes own it (R81). -/
inductive Tgt where
  | vreg (r lane : Nat)
  | ureg (r : Nat)
  | pred (n lane : Nat)
  | slot (lane : Nat) (loc : Loc)
deriving DecidableEq, Repr

/-- One destination of a result: its place and its value (R76, R81). -/
inductive PWrite where
  | vreg (r lane : Nat) (v : W32)
  | ureg (r : Nat) (v : W64)
  | pred (n lane : Nat) (v : Bool)
  | slot (lane : Nat) (loc : Loc) (v : W32)
deriving DecidableEq, Repr

/-- A fixed-latency result that has not been written yet. -/
structure PendWrite where
  id : Nat
  due : Nat
  tok : BitVec 3
  lanes : Lanes
  writes : List PWrite
deriving DecidableEq, Repr

/-- A display register (R35). -/
structure Disp where
  ptr : W64
  valid : Bool
deriving DecidableEq, Repr

/-- The state a thread owns beside its registers (R36, R135, R202, R39). -/
structure Lane where
  live : Bool
  t0 : Nat
  t1 : Nat
  t2 : Nat
  t3 : Nat
  cd : BitVec 3
  fp : W32
  top : BitVec 3
  tnest : BitVec 16
  nest : BitVec 16
  traprec : W64
deriving DecidableEq, Repr

/-- Roles (R41). -/
inductive Role where
  | A | V | M | C
deriving DecidableEq, Repr

structure Strand where
  role : Role
  /-- register v, lane L at number 64 v + L; 0 by default -/
  vregs : SMap W32
  uregs : SMap W64
  /-- predicate n as the set of lanes that hold 1; p7 is not stored (R34) -/
  preds : SMap Lanes
  /-- register d n of lane L at number 64 n + L -/
  disp : SMap Disp
  lanes : SMap Lane
  fmode : W32
  frags : List Frag
  pendw : List PendWrite
  /-- words fetched and not yet issued, by PC (R199) -/
  fetched : List (W64 × InstrWord)
  issued : Nat
  /-- the cycle of the last issue, or of becoming resident (R47) -/
  last : Nat
  /-- SVDONE executed: the label and the lanes live then (R234) -/
  svdone : Option (W64 × Lanes)
deriving DecidableEq, Repr

/-- A translation (R365): the physical base of the smaller leaf, its size, and the leaf attributes. -/
structure Xlate where
  ten : Nat
  pasid : Nat
  vbase : Nat
  ibase : Nat
  pbase : Nat
  logSize : Nat
  r : Bool
  w : Bool
  x : Bool
  sw : Bool
  fmt : BitVec 5
  geom : BitVec 3
  /-- size of the stage-1 leaf: an SX block counts from its page (R170) -/
  s1log : Nat
  /-- stage-2 leaf: its entry's address, its size, and D -/
  s2at : Nat
  s2log : Nat
  dirty : Bool
deriving DecidableEq, Repr

/-! ### Operations in flight -/

/-- How far a request has come on its way to its home (R336, R337). -/
inductive Stage where
  | waiting
  /-- under way since the cycle `sent`, in its slot; at its slice from the cycle `at_` on -/
  | injected (slot sent at_ : Nat)
  /-- a read that its slice passed on to the memory port -/
  | atPort (at_ : Nat)
  | accepted
deriving DecidableEq, Repr

/-- One lane's access of a load, a store or an atomic, with its operands as read at issue (R79).  `pieces` are the bytes
it touches, in address order; `elem` is the element of a byte or block that R171 selects; `data` are the bytes that a
store brings, and `group` the lanes it stands for (those of a whole block in a store of SX elements, else the one). -/
structure LaneAcc where
  lane : Nat
  group : Lanes
  addr : W64
  pieces : List (Loc × Nat)
  fmt : Fmt
  elem : Nat
  b : W64
  c : W64
  data : List Byte
deriving DecidableEq, Repr

/-- A barrier or ring update (R193, R195), done at the bank. -/
inductive BarOp where
  | init (n : Nat)
  | expect (bytes : Nat)
  | arrive (n : Nat)
  | ringInit (n : Nat) (slots : List Loc)
  | ringArrive (bytes n : Nat)
deriving DecidableEq, Repr

/-- A map descriptor (R180). -/
structure Desc where
  base : W64
  rows : Nat
  cols : Nat
  pitch : Nat
  spitch : Nat
  dfmt : Fmt
  trans : Bool
  swz : Nat
deriving DecidableEq, Repr

/-- A copy in flight (R181 to R184); `step` counts the granules, elements or blocks done. -/
structure CopyRec where
  tensor : Bool
  dst : W64
  src : W64
  count : W64
  bar : W64
  imm : W32
  fmt : Fmt
  lane : Nat
  credited : Nat
  step : Nat
  desc : Option Desc
  /-- the copies that one instruction started share a number: their token falls with the last (R36, R184) -/
  group : Nat
deriving DecidableEq, Repr

/-- The state class of CTXST and CTXLD (R233) and its range. -/
structure CtxRange where
  cls : BitVec 4
  first : Nat
  count : Nat
deriving DecidableEq, Repr

/-- Where a lane's result goes, fixed at issue: the lane, which part of the result (0 the low 32 bits or the whole of a
uniform register, 1 the high 32 bits, 2 the predicate), and the destination. -/
abbrev Dst := List (Nat × Nat × Tgt)

/-- What a block asks of the fabric beside its lanes' accesses: a line that it reads, or 64 bytes that it writes, by the first
address; for which operation, 0 for fetches and frame slots; and whether it goes on under LOW (R374). -/
structure Ask where
  owner : Nat
  goesOn : Bool
  write : Bool
  pa : Nat
deriving DecidableEq, Repr

/-- What an operation in flight does when it is performed.  `done` holds the lanes already bound, with their results. -/
inductive OpKind where
  | load (dst : Dst) (zx : Bool) (todo : List LaneAcc) (done : List (Nat × W64))
  | store (fwd : Bool) (todo : List LaneAcc)
  | atomic (sub : BitVec 4) (ty : Ty) (dst : Dst) (todo : List LaneAcc) (done : List (Nat × W64 × Bool))
  | copy (c : CopyRec)
  | bar (u : BarOp) (addr : W64) (loc : Loc)
  | bartry (dst : Dst) (ph : W32) (addr : W64) (loc : Loc)
  | spawn (dst : Dst) (todo : List (Nat × W64 × W32)) (done : List (Nat × Bool))
  | trace (record : List Byte)
  | pref (llcOnly : Bool) (pa : Option Nat)
  | codeinv (lines : List Nat)
  | siteclr (pin : Bool) (words : List (Nat × Xlate))
  | ctxst (bytes : List (Loc × Byte))
  | ctxld (range : CtxRange) (tgts : List Tgt) (locs : List (Loc × W64))
  /-- a request beside those of lanes' accesses -/
  | request (a : Ask)
deriving DecidableEq, Repr

/-- An operation in flight.  Its number is its place in issue order. -/
structure Op where
  id : Nat
  strand : Nat
  lanes : Lanes
  /-- lanes whose guard was true -/
  active : Lanes
  tok : BitVec 3
  pc : W64
  order : Order
  scope : Scope
  ord : Bool
  stage : Stage
  /-- destinations that a later-issued write has taken (R81) -/
  dropped : List Tgt
  kind : OpKind
deriving DecidableEq, Repr

/-! ### Convergence and the matrix engine -/

/-- A fragment's signature: its strand, its place in issue order, the lanes that signed, all lanes of the fragment, the SETT
that counts in them. -/
structure Signer where
  strand : Nat
  seq : Nat
  lanes : Lanes
  all : Lanes
  tok : BitVec 3
deriving DecidableEq, Repr

/-- What the first signer left (R49, R50, R216): the instruction, the must-be-uniform values in operand order, the counts,
the reference lane; the destinations that a later-issued write of a strand has taken (R81). -/
structure Capture where
  instr : Instr
  vals : List W64
  counts : W32
  lane : Nat
  pc : W64
  signers : List Signer
  dropped : List (Nat × Tgt)
deriving DecidableEq, Repr

/-- A convergence register (R49): thread numbers as bits. -/
structure Conv where
  decl : BitVec 1024
  sig : BitVec 1024
  cap : Option Capture
deriving DecidableEq, Repr

/-- An accumulator tile (R213): element (i, j) at number 64 i + j. -/
structure Tile where
  int : Bool
  ovf : Bool
  elems : SMap W64
  sumrow : SMap W64
  sumcol : SMap W64
deriving DecidableEq, Repr

/-- A plane (R213, R326): weight (k, j) at number 64 k + j, as the 32 bits of its cell. -/
structure Plane where
  pf : Fmt
  k : Nat
  cells : SMap W32
deriving DecidableEq, Repr

/-- An engine operation in its queue (R213): a convergent one with its capture, or ACCLD, CTXST and CTXLD of an engine
class with the issuing fragment's data (the value bound for each lane, or addresses). -/
structure EngOp where
  id : Nat
  cap : Capture
  /-- threads of DECL at issue: the lanes that MITER's status reaches (R229) -/
  decl : BitVec 1024
  bound : List (Nat × W64)
  dst : Dst
  locs : List Loc
  /-- a MITER that has set ISTAT (R230) -/
  started : Bool
deriving DecidableEq, Repr

structure Engine where
  need : Nat
  tiles : SMap Tile
  active : Plane
  shadow : Plane
  /-- k0 to k15 as FP64 bits (R31) -/
  ks : SMap W64
  istat : W64
  rprev : W64
  queue : List EngOp
deriving DecidableEq, Repr

/-! ### Blocks -/

/-- A kernel header (R86). -/
structure KHeader where
  isalvl : Nat
  entry : Nat
  codelen : Nat
  vgran : Nat
  sgran : Nat
  atiles : Nat
  width : Nat
  strands : Nat
  cluster : Nat
  osc : Nat
  idem : Bool
  fuse : Bool
  roles : W32
  scratch : Nat
  priv : Nat
  bframe : Nat
  cframe : Nat
  saveoff : Nat
  savebud : Nat
  weight : Nat
deriving DecidableEq, Repr

/-- What a resident block is doing (R308, R322 to R329). -/
inductive Mode where
  | running
  /-- over, with nothing outstanding: `cs_blkend` comes (R138, R322) -/
  | ended
  /-- reported LOST, for a reason of R311: `cs_lost` comes (R309) -/
  | lost (reason : Nat)
  /-- saved, in the way given (0 forced, 1 cooperative, 2 debug), or restarted (3): `cs_saved` comes (R294) -/
  | leaving (kind : Nat)
  /-- a save with a cooperative handler is decided; its strands come to rest (R323): slots, reason -/
  | preempt (slot second reason : Nat)
  /-- draining since the cycle, for the reason -/
  | draining (since reason : Nat)
  /-- in its cooperative phase: slots, deadline (`none`: no budget), reason -/
  | coop (slot second : Nat) (deadline : Option Nat) (reason : Nat)
  /-- the forced save comes next: its slot, the open phase's first slot, reason -/
  | saving (slot : Nat) (first : Option Nat) (reason : Nat)
  /-- a BKPT under ATTACH: the debug save comes next (R320, R328) -/
  | breakpoint (rec : Option TrapRec)
  /-- stopped by the debugger, image in the slot (R328) -/
  | debug (slot : Nat)
  /-- a STEP of the fragment that holds a lane of a strand, at a PC: the slot, whether the one instruction has issued, and
  whether the fragment was not ready (R329) -/
  | stepping (sid lane slot : Nat) (rec : TrapRec) (fired held : Bool)
  /-- ended, or gone from a fused cluster: it keeps its place, window and L1 until its cluster has left (R208, R279) -/
  | husk
  /-- a member that has ended, to be saved in the slot once the others' handlers are done with its window (R208, R308) -/
  | parting (slot : Nat)
deriving DecidableEq, Repr

structure Block where
  uid : Nat
  ten : Nat
  qnum : Nat
  gseq : Nat
  idx : Nat
  bx : Nat
  by_ : Nat
  bz : Nat
  gx : Nat
  gy : Nat
  gz : Nat
  core : Nat
  quad : Nat
  slot : Nat
  cluster : Nat
  rank : Nat
  pasid : Nat
  code : W64
  koff : Nat
  arg : W64
  hdr : KHeader
  window : Nat
  grant : Nat
  pb0 : W64
  trapArea : W64
  strands : List Strand
  cvs : SMap Conv
  inner : Conv
  flight : List Op
  eng : Option Engine
  mode : Mode
  /-- the drain under way, since when and for what reason: a debug stop does not end it (R308, R328) -/
  drain : Option (Nat × Nat)
  fatal : Option TrapRec
  /-- cycle at which it became resident, and cycles and instructions kept across saves (R308) -/
  since : Nat
  cyclesBefore : Nat
  instrs : Nat
deriving DecidableEq, Repr

/-- A resident cluster (R26): the internal register of CFENTER and CFLEAVE over threads 1,024 r + n of rank r. -/
structure Cluster where
  id : Nat
  size : Nat
  decl : BitVec 4096
  sig : BitVec 4096
  cap : Option Instr
  lane : Nat
  signers : List (Nat × Signer)
  /-- instructions of the members that have ended and left (R308) -/
  instrs : Nat
deriving DecidableEq, Repr

/-! ### Memory, caches, translation -/

/-- A line of a quadrant's L1 (R276): the valid words with their dirty bit. -/
structure L1Line where
  quad : Nat
  line : Nat
  owned : Bool
  words : SMap (W32 × Bool)
deriving DecidableEq, Repr

/-- A directory entry (R281): cores whose L1s may hold a copy, and the quadrant that owns the line. -/
structure DirEntry where
  sharers : List Nat
  owner : Option Nat
deriving DecidableEq, Repr

/-- The tag of a forwarded line (R282). -/
structure FwdTag where
  ten : Nat
  blk : Nat
deriving DecidableEq, Repr

/-- A copy of another die's line in a die's LLC (R281). -/
structure LlcCopy where
  die : Nat
  line : Nat
  data : SMap Byte
deriving DecidableEq, Repr

/-- A code line in an instruction cache (R123). -/
structure ICLine where
  core : Nat
  line : Nat
  data : SMap Byte
deriving DecidableEq, Repr

/-- A region under scrub (R289): WM per port, and the touched lines (port, line). -/
structure Scrub where
  stack : Nat
  region : Nat
  wm : SMap Nat
  touched : List (Nat × Nat)
deriving DecidableEq, Repr

/-- SCRUBORD and SCRUBSTAT of one stack (R290). -/
structure ScrubReg where
  region : Nat
  refused : Bool
deriving DecidableEq, Repr

structure MemSys where
  /-- memory behind the ports, host memory and peer memory, by 56-bit physical address (R362) -/
  mem : SMap Byte
  /-- bytes dirty in a home slice and not yet written back (R281); here a listed 0 is a byte -/
  llc : SMap Byte
  fwd : SMap FwdTag
  /-- the tagged lines, oldest first (R282) -/
  fwdOrder : List Nat
  dir : SMap DirEntry
  /-- the lines that slices hold, oldest first: slice and line (R281) -/
  held : List (Nat × Nat)
  /-- held lines of which the slice has only the bytes written there: a read of the others goes to the port (R283, R287) -/
  thin : List Nat
  l1 : List L1Line
  /-- poisoned dirty words of L1s: quadrant and word address (R278) -/
  l1bad : List (Nat × Nat)
  copies : List LlcCopy
  /-- cores whose gate is closed: nothing reaches their L1s, and nothing leaves them (R343, R347) -/
  cut : List Nat
  /-- host lines held by a slice (R242), `true` when owned (Exclusive or Modified) -/
  hostLines : SMap Bool
  /-- device lines of which the host may hold a copy, and the back-invalidations sent (R242) -/
  hostCopies : List Nat
  backInv : List Nat
  icache : List ICLine
  /-- per slice: lines with a busy miss register, and the write-back queue (R283) -/
  misses : SMap (List Nat)
  wbq : SMap (List Nat)
  /-- lines locked by a tile update, with its block (R288) -/
  locks : List (Nat × Nat)
  /-- 8-byte units with a poison mark in memory, and poisoned units of dirty lines in slices (R285) -/
  poison : List Nat
  lpoison : List Nat
  /-- scratchpads: core * 2^20 + address -/
  spad : SMap Byte
  spoison : List Nat
  tlb1 : List (Nat × Xlate)
  tlb2 : List (Nat × Xlate)
  scrubs : List Scrub
  scrubRegs : SMap ScrubReg
  /-- soft errors not yet found, `true` when correctable (R269) -/
  errs : List (ErrLoc × Bool)
  /-- counter c of quadrant q of the module at number 8 q + c (R271) -/
  quadCtr : SMap W32
deriving DecidableEq, Repr

/-! ### Cores and the watch mesh -/

/-- A site request in flight (R115, R116). -/
structure SiteReq where
  id : Nat
  pa : Nat
  expected : InstrWord
  new : InstrWord
  widening : Bool
  /-- the translation that granted the rewrite (R110, R115) -/
  via : Xlate
  /-- on its way to the home slice (R336, R370) -/
  stage : Stage
deriving DecidableEq, Repr

/-- Vote states of a tile (R344). -/
inductive Vote where
  | live | suspect | out | selftest | rejoin | probation | retired
deriving DecidableEq, Repr

/-- What a tile knows of its neighbour in one direction (R342, R343, R350); under number 8 the gate unit's own judgement of
its tile (R346). -/
structure Nbr where
  /-- SUSP bit, and the period of the last evidence -/
  susp : Bool
  evidence : Nat
  /-- consecutive windows with no good beat; whether the current window has one -/
  missed : Nat
  seen : Bool
  /-- beats received in the period `inPeriod` -/
  beats : Nat
  inPeriod : Nat
  /-- periods of the bad beats of the last 16 periods -/
  bad : List Nat
  /-- consecutive good rejoin beats, and the ADMIT bit -/
  good : Nat
  admitBit : Bool
  /-- latest good beat: its period, SUSP and ADMIT fields -/
  beatAt : Option Nat
  beatSusp : BitVec 8
  beatAdmit : BitVec 8
deriving DecidableEq, Repr

/-- A tile of the watch mesh with its gate unit (R340 to R350). -/
structure TileVote where
  state : Vote
  socnt : Nat
  cause : Nat
  since : Nat
  stopped : Bool
  extra : Nat
  badNext : Nat
  willFail : Bool
  passed : Bool
  rejoinBeats : Nat
  /-- HEALTH of the last beat, as passed on to the caller, and the uncorrectable errors counted by then (R341) -/
  health : BitVec 12
  uncAt : Nat
  /-- evidence of the gate unit against its own tile: kind and period (R346) -/
  own : List (Nat × Nat)
  nbrs : SMap Nbr
deriving DecidableEq, Repr

/-- A core. -/
structure Core where
  spown : W64
  /-- banks in handover, not yet zeroed (R274) -/
  zeroing : List Nat
  siteCtr : SMap W32
  siteReqs : List SiteReq
  temp : BitVec 16
  droop : BitVec 16
  /-- the two alarms of HEALTH (R341) -/
  thermal : Bool
  droopAlarm : Bool
  /-- rate-limiter tokens per tenant (R370) -/
  buckets : SMap Nat
  /-- last issue cycle of each quadrant -/
  lastIssue : SMap Nat
  tile : TileVote
deriving DecidableEq, Repr

/-! ### The fabric -/

structure Fabric where
  /-- the calendar in force, the shadow table, the table that waits for slot 0 (R334, R335) -/
  table : SMap Byte
  shadow : SMap Byte
  pending : Option (SMap Byte)
  refused : Bool
  /-- flits to be sent again: block, operation, cycle (R332) -/
  replays : List (Nat × Nat × Nat)
  /-- die pairs whose link retrains (R332) -/
  linkDown : List (Nat × Nat)
  /-- sit-out notices that wait for a service slot: slice and core (R336, R347) -/
  notices : List (Nat × Nat)
deriving DecidableEq, Repr

/-! ### The caller -/

/-- A started grid (R296 to R310). -/
structure Grid where
  ten : Nat
  qnum : Nat
  seq : Nat
  hdr : KHeader
  code : W64
  koff : Nat
  gx : Nat
  gy : Nat
  gz : Nat
  trav : BitVec 8
  prio : Nat
  lflags : BitVec 8
  arg : W64
  ltag : W32
  cva : W64
  ended : Nat
  /-- CSTAT so far (R310) -/
  status : Nat
  clost : Nat
  cstart : Nat
  /-- first block index of each cluster to place again, with `true` for a re-launch after LOST (R309) -/
  again : List (Nat × Bool)
deriving DecidableEq, Repr

/-- A saved block (R308, R326): its slots and what the caller keeps of it. -/
structure Saved where
  key : Nat
  ten : Nat
  qnum : Nat
  gseq : Nat
  idx : Nat
  slot : Nat
  /-- the first slot of an open cooperative phase (R324) -/
  first : Option Nat
  cycles : Nat
  cluster : Nat
  /-- its part of the private pool, which stays its own (R286, R318): PB0 and the length -/
  pb0 : Nat
  poolLen : Nat
  /-- strands that have executed SVDONE in an open phase: label, lanes live then (R234) -/
  marks : List (Nat × W64 × Lanes)
  /-- open captures by register number, 8 for the internal one: what the image does not hold of them (log 45, DEDUCED) -/
  caps : List (Nat × Capture)
  /-- the MITER at the engine's head, as it was issued (log 45, DEDUCED) -/
  miter : Option EngOp
  /-- of each copy in the image: its group, its fragment's lanes, the PC of its instruction -/
  copies : List (Nat × Lanes × W64)
  /-- a member that had ended when its cluster was saved (R308) -/
  ended : Bool
  /-- a debug-stopped block that has left its quadrant comes back by RESUME alone: the core, quadrant and slot that name it (R328) -/
  debugAt : Option (Nat × Nat × Nat)
deriving DecidableEq, Repr

/-- The register CALLCFG (R312). -/
structure CallCfg where
  drainbud : Nat
  drainlim : Nat
  rstthr : Nat
  d : Nat
  sensw : Nat
  logstall : Bool
  sensor : Bool
  halt : Bool
deriving DecidableEq, Repr

/-- The call sheet that runs: its image, its entry points in the order of R294, its emulation table. -/
structure Sheet where
  bytes : List Byte
  version : Nat
  entries : List W64
  emul : List Byte
deriving DecidableEq, Repr

/-- A hart of the caller (R7): its pc and x1 to x31. -/
structure Hart where
  pc : W64
  x : SMap W64
deriving DecidableEq, Repr

structure Caller where
  /-- the four harts, and their 512 KiB of SRAM (R7, R294) -/
  harts : List Hart
  sram : SMap Byte
  /-- the harts' event queue, as the steps it will cause (R293, R294) -/
  events : List Instr
  dseq : W32
  cfg : CallCfg
  logbase : Nat
  logsize : Nat
  loghead : W32
  logtail : W32
  cserr : W32
  drops : W32
  /-- records of decisions that wait for log space (LOGSTALL) -/
  logwait : List (List Byte)
  /-- round-robin pointer per tenant, 1,023 by default (R306) -/
  rr : SMap Nat
  grids : List Grid
  saved : List Saved
  /-- the images of blocks that the debugger has stopped (R328) -/
  debugs : List Saved
  /-- blocks to be stopped, with the stop reason (R308) -/
  stops : List (Nat × Nat)
  /-- ready queues to examine (cs_doorbell) -/
  doorbells : List (Nat × Nat)
  sheet : Sheet
  /-- a sheet that is being loaded, and HALT as it stood before (R295) -/
  loading : Option (SheetImage × Bool)
  outCores : List Nat
  /-- link faults that the caller has been told of: die pairs (R332) -/
  linkFaults : List (Nat × Nat)
  /-- the sliced tenant in turn, and the end of its slice (R358) -/
  slice : Option (Nat × Nat)
  stopped : List Nat
  /-- VFSTOP commands and function-level resets under way (R355, R385) -/
  vfstops : List Nat
  flrs : List Nat
  busy : Bool
  cmdRefused : Bool
  cmdDone : W32
  /-- queues stopped after an error and not yet read again, by (tenant, queue) (R298) -/
  dropped : List (Nat × Nat)
  /-- of these, queues whose REFUSE decision has still to be taken, under HALT or with a full log (R298, R312) -/
  owed : List (Nat × Nat)
  /-- grids started, and grids that ended otherwise than DONE, by (tenant, queue, sequence number) (R296, R300) -/
  started : List (Nat × Nat × Nat)
  failed : List (Nat × Nat × Nat)
deriving DecidableEq, Repr

/-! ### Tenants and host -/

/-- A quota entry (R356). -/
structure QEntry where
  enable : Bool
  sliced : Bool
  s2on : Bool
  logon : Bool
  stackSet : BitVec 8
  calslots : Nat
  tlbways : Nat
  walkers : Nat
  nq : Nat
  slice : Nat
  s2root : Nat
  qlist : Nat
  rate : Nat
  burst : Nat
  spasid : Nat
  trapdesc : W64
  tracedesc : W64
  ppool : W64
  ppoolmb : Nat
  dlog : Nat
  quads : BitVec 1024
deriving DecidableEq, Repr

/-- Invalidation registers of one function (R367). -/
structure InvReg where
  scope : Nat
  ten : Nat
  pasid : Nat
  rlog : Nat
  addr : W64
  busy : Bool
  refused : Bool
  done : W32
  /-- operations numbered below it may still use a dropped translation (R368) -/
  upto : Nat
deriving DecidableEq, Repr

/-- What leaves the device. -/
inductive Output where
  /-- an MSI-X vector of a function (R369) -/
  | msix (fn vec : Nat)
  /-- the completion of a queue-port write: 0 success, 1 retry, 2 unsupported (R360) -/
  | portStatus (status : Nat)
  /-- data returned to a host or peer read -/
  | data (bytes : List Byte)
deriving DecidableEq, Repr

structure HostIf where
  qtbase : Nat
  qtRefused : Bool
  /-- a table read by LOAD that waits until the departing quadrants are empty (R357) -/
  quotaNext : Option (SMap QEntry)
  /-- the banks of the quadrants that leave have been handed over (R315, R357) -/
  quotaHanded : Bool
  /-- the quota table in force -/
  quota : SMap QEntry
  pasidctl : W64
  /-- cached PASID entries: S1ROOT, tenant, V (R359) -/
  pasidCache : SMap (Nat × Nat × Bool)
  irtbase : Nat
  /-- cached interrupt remap entries (R367) -/
  irtCache : SMap W64
  inv : SMap InvReg
  herrbase : W64
  herrhead : W32
  herrtail : W32
  herrdrop : W32
  /-- the functions' MSI-X tables: vectors whose mask bit is 0, and vectors whose pending bit is 1, by (function, vector) (R369) -/
  unmasked : List (Nat × Nat)
  vecPend : List (Nat × Nat)
  link0 : Bool
  link1 : Bool
  /-- tenants whose dirty log is LOW (R374) -/
  low : List Nat
  /-- tenants whose dirty log overflowed and is not yet re-armed by an invalidation (R374) -/
  dlOvf : List Nat
  out : List Output
deriving DecidableEq, Repr

/-! ### Management -/

structure Mgmt where
  boot : Nat
  fwver : Nat
  leaf : Nat
  firmware : List Byte
  rootDigest : List Byte
  floor : Nat
  attaddr : Nat
  /-- the attestations under way: tenant, the leaf once advanced, the message at the start -/
  attest : List (Nat × Option Nat × List Byte)
  plim : Nat
  pnow : Nat
  throt : Nat
  wear : SMap (W32 × W32)
  /-- hours counted for each entry of the wear window (R383) -/
  hours : SMap Nat
deriving DecidableEq, Repr

/-! ### The module -/

/-- The instruction that is issuing: its fragment and the word it was decoded from (R43, R54). -/
structure Issue where
  ref : FragRef
  word : InstrWord
deriving DecidableEq, Repr

structure State where
  /-- the asynchronous steps that happen next, in order: the model's own field (log 1, DESIGN CHOICE) -/
  agenda : List Instr
  /-- the issuing fragment, set by `step` around `exec`: the model's own field (log 1, DESIGN CHOICE) -/
  cur : Option Issue
  /-- how many free values have been drawn: the model's own field (log 2, DESIGN CHOICE) -/
  fresh : Nat
  /-- next number for an operation, block or request: the model's own field -/
  nextId : Nat
  cycle : Nat
  blocks : List Block
  clusters : List Cluster
  cores : SMap Core
  mem : MemSys
  fab : Fabric
  caller : Caller
  host : HostIf
  mgmt : Mgmt
deriving DecidableEq, Repr

/-! ### Reset values -/

/-- The state after reset of a neighbour's record: nothing seen. -/
def Nbr.reset : Nbr :=
  { susp := false, evidence := 0, missed := 0, seen := false, beats := 0, inPeriod := 0, bad := [], good := 0,
    admitBit := false, beatAt := none, beatSusp := 0, beatAdmit := 0 }

/-- R344, R346: LIVE, SOCNT 0, CAUSE 0. -/
def TileVote.reset : TileVote :=
  { state := .live, socnt := 0, cause := 0, since := 0, stopped := false, extra := 0, badNext := 0, willFail := false,
    passed := false, rejoinBeats := 0, health := 0, uncAt := 0, own := [], nbrs := [] }

/-- R272: bank b is owned by quadrant b div 8. -/
def Core.spownReset : W64 := 0xFFFFAAAA55550000#64

def Core.reset : Core :=
  { spown := Core.spownReset, zeroing := [], siteCtr := [], siteReqs := [], temp := 0, droop := 0,
    thermal := false, droopAlarm := false, buckets := [], lastIssue := [], tile := TileVote.reset }

def Lane.start : Lane :=
  { live := true, t0 := 0, t1 := 0, t2 := 0, t3 := 0, cd := 2, fp := 0, top := 0, tnest := 0, nest := 0, traprec := 0 }

/-- A lane that holds no live thread. -/
def Lane.dead : Lane := { Lane.start with live := false }

def Disp.none : Disp := { ptr := 0, valid := false }

def Conv.empty : Conv := { decl := 0, sig := 0, cap := none }

/-- R31, R213: FP64 mode, every element +0.0, checksums zero. -/
def Tile.start : Tile := { int := false, ovf := false, elems := [], sumrow := [], sumcol := [] }

/-- R213: zero, PF = BF16, K = 64. -/
def Plane.start : Plane := { pf := .bf16, k := 64, cells := [] }

/-- R312. -/
def CallCfg.reset : CallCfg :=
  { drainbud := 94, drainlim := 376, rstthr := 64, d := 0, sensw := 4, logstall := false, sensor := false, halt := false }

/-- R367. -/
def InvReg.reset : InvReg :=
  { scope := 0, ten := 0, pasid := 0, rlog := 16, addr := 0, busy := false, refused := false, done := 0, upto := 0 }

/-- A quota entry with every byte zero: not enabled. -/
def QEntry.zero : QEntry :=
  { enable := false, sliced := false, s2on := false, logon := false, stackSet := 0, calslots := 0, tlbways := 0,
    walkers := 0, nq := 0, slice := 0, s2root := 0, qlist := 0, rate := 0, burst := 0, spasid := 0, trapdesc := 0,
    tracedesc := 0, ppool := 0, ppoolmb := 0, dlog := 0, quads := 0 }

/-- The default call sheet: EMULISA 1 and no handler (R294); its image and its entry points are not the spec's to say (log 60,
DESIGN CHOICE). -/
def Sheet.default : Sheet :=
  { bytes := [], version := 0, entries := List.replicate 10 0, emul := (1#8) :: List.replicate 127 0 }

def Hart.reset : Hart := { pc := 0, x := [] }

def MemSys.reset : MemSys :=
  { mem := [], llc := [], fwd := [], fwdOrder := [], dir := [], held := [], thin := [], l1 := [], l1bad := [], copies := [], cut := [],
    hostLines := [], hostCopies := [], backInv := [], icache := [], misses := [], wbq := [], locks := [], poison := [],
    lpoison := [], spad := [], spoison := [], tlb1 := [], tlb2 := [], scrubs := [], scrubRegs := [], errs := [],
    quadCtr := [] }

/-- The calendar after reset: not yet built (log 34, DESIGN CHOICE). -/
def Fabric.reset : Fabric :=
  { table := [], shadow := [], pending := none, refused := false, replays := [], linkDown := [], notices := [] }

/-- The harts start at `cs_reset` (R377). -/
def Caller.reset : Caller :=
  { harts := List.replicate 4 Hart.reset, sram := [], events := [.csReset], dseq := 0, cfg := CallCfg.reset, logbase := 0, logsize := 8, loghead := 0, logtail := 0,
    cserr := 0, drops := 0, logwait := [], rr := [], grids := [], saved := [], debugs := [], stops := [], doorbells := [],
    sheet := Sheet.default, loading := none, outCores := [], linkFaults := [], slice := none, stopped := [], vfstops := [], flrs := [],
    busy := false, cmdRefused := false, cmdDone := 0, dropped := [], owed := [], started := [], failed := [] }

def HostIf.reset : HostIf :=
  { qtbase := 0, qtRefused := false, quotaNext := none, quotaHanded := false, quota := [], pasidctl := 0, pasidCache := [], irtbase := 0,
    irtCache := [], inv := [], herrbase := 0, herrhead := 0, herrtail := 0, herrdrop := 0, unmasked := [], vecPend := [], link0 := true,
    link1 := true, low := [], dlOvf := [], out := [] }

/-- R378, R382: BOOT 0, PLIM 2,200. -/
def Mgmt.reset : Mgmt :=
  { boot := 0, fwver := 0, leaf := 0, firmware := [], rootDigest := [], floor := 0, attaddr := 0, attest := [],
    plim := 2200, pnow := 0, throt := 0, wear := [], hours := [] }

/-- The module right after device reset (R384) with a good boot (R377): no resident block, nothing listed in memory, the
harts about to enter `cs_reset`. -/
def State.reset : State :=
  { agenda := [], cur := none, fresh := 0, nextId := 0, cycle := 0, blocks := [], clusters := [], cores := [],
    mem := MemSys.reset, fab := Fabric.reset, caller := Caller.reset, host := HostIf.reset, mgmt := Mgmt.reset }

end Sys2Proof.Machine
end

