-- ==== Sys2Proof/Machine/Memory.lean ====
section
/-!
DEFINITION. The memories as one coherent store (R237, R240, R241, R272 to R289): homes, ports with scrubbing, slices with
dirty bytes and forward tags, L1 lines by words, copies of other dies' lines, scratchpad banks.
-/
namespace Sys2Proof.Machine

/-! ### Physical addresses (R280, R362) -/

abbrev lineBytes : Nat := 128

def lineOf (pa : Nat) : Nat := pa / lineBytes

/-- The space of a physical address: 0 device HBM, 1 host, 2 peer (R362). -/
def paSpace (pa : Nat) : Nat := pa / 2 ^ 52

def isHbm (pa : Nat) : Bool := pa < 2 ^ 39

def stackOf (pa : Nat) : Nat := pa / 2 ^ 36 % 8

def homeDie (pa : Nat) : Nat := stackOf pa / 2

/-- The channel within the stack (R280). -/
def channelOf (pa : Nat) : Nat :=
  (pa / 2 ^ 7 % 32) ^^^ (pa / 2 ^ 12 % 32) ^^^ (pa / 2 ^ 17 % 32) ^^^ (pa / 2 ^ 22 % 32) ^^^ (pa / 2 ^ 27 % 32)

/-- The home slice, numbered 32 * die + channel. -/
def sliceOf (pa : Nat) : Nat := 32 * homeDie pa + channelOf pa

/-- The memory port, numbered 32 * stack + channel. -/
def portOf (pa : Nat) : Nat := 32 * stackOf pa + channelOf pa

/-- The region of a stack and the line within a port's share of it (R289). -/
def regionOf (pa : Nat) : Nat := pa / 2 ^ 26 % 1024
def portLine (pa : Nat) : Nat := pa / 2 ^ 12 % 16384

def dieOfCore (core : Nat) : Nat := core / 64

/-- A quadrant of the module: 4 * %core + %quad. -/
def quadId (core quad : Nat) : Nat := 4 * core + quad

def dieOfQuad (q : Nat) : Nat := dieOfCore (q / 4)

/-! ### Memory behind the ports (R287, R289) -/

/-- What an unlisted byte of memory or scratchpad reads as (log 3, DESIGN CHOICE). -/
abbrev blankByte : Byte := 0

/-- A line that a scrub hides: below WM and not touched (R289). -/
def MemSys.scrubbed (m : MemSys) (pa : Nat) : Bool :=
  isHbm pa && m.scrubs.any fun sc =>
    sc.stack == stackOf pa && sc.region == regionOf pa &&
    decide (portLine pa < sc.wm.get 0 (channelOf pa)) && !sc.touched.contains (channelOf pa, portLine pa)

/-- A byte behind its port. -/
def MemSys.portByte (m : MemSys) (pa : Nat) : Byte :=
  if m.scrubbed pa then 0 else m.mem.get blankByte pa

/-- The canonical form of a memory: addresses strictly rising, no byte listed that equals the blank one. -/
def Memory.wf (m : SMap Byte) : Bool := m.wf blankByte

/-- An L1 line: the numbers of its words rise, below 32 (R276); an owned one is homed on the L1's die (R240). -/
def L1Line.ok (l : L1Line) : Bool :=
  l.words.sorted && l.words.all (fun kv => decide (kv.1 < 32)) && (!l.owned || homeDie (l.line * lineBytes) == dieOfQuad l.quad)

/-- A quadrant's L1 holds a line once, and a line has one owner (R240). -/
def L1Line.apart (l k : L1Line) : Bool := l.line != k.line || (l.quad != k.quad && !(l.owned && k.owned))

/-- Lines of L1s that can stand together. -/
def linesOk : List L1Line → Bool
  | [] => true
  | l :: ls => l.ok && ls.all l.apart && linesOk ls

/-- The invariant of the memories: memory, scratchpad and the slices' dirty bytes in canonical form, the lines of the L1s apart. -/
def MemSys.wf (m : MemSys) : Bool := Memory.wf m.mem && Memory.wf m.spad && m.llc.sorted && linesOk m.l1

/-- A soft error that lies in memory at a line. -/
def inMemory (line : Nat) (e : ErrLoc) : Bool :=
  match e with
  | .memory pa => lineOf pa == line
  | _ => false

/-- A line written whole with zeros, at the port: its poison marks and its errors are gone. -/
def MemSys.zeroLine (m : MemSys) (line : Nat) : MemSys :=
  { m with mem := (List.range lineBytes).foldl (fun mm i => mm.set blankByte (line * lineBytes + i) 0) m.mem
           poison := m.poison.filter fun u => u / 16 != line
           errs := m.errs.filter fun e => !inMemory line e.1 }

/-- The first write to a line under scrub zeroes the rest of it and marks it touched (R289). -/
def MemSys.touchScrub (m : MemSys) (pa : Nat) : MemSys :=
  if m.scrubbed pa then
    { m.zeroLine (lineOf pa) with
      scrubs := m.scrubs.map fun sc =>
        if sc.stack == stackOf pa && sc.region == regionOf pa then
          { sc with touched := (channelOf pa, portLine pa) :: sc.touched }
        else sc }
  else m

/-- One byte written at its port. -/
def MemSys.portWrite (m : MemSys) (pa : Nat) (b : Byte) : MemSys :=
  let m := m.touchScrub pa
  { m with mem := m.mem.set blankByte pa b }

/-! ### Counters of soft errors (R271) -/

/-- Add to counter c of a quadrant of the module. -/
def MemSys.countErrs (m : MemSys) (quad c n : Nat) : MemSys :=
  { m with quadCtr := m.quadCtr.upd 0 (8 * quad + c) (· + BitVec.ofNat 32 n) }

def MemSys.countErr (m : MemSys) (quad c : Nat) : MemSys := m.countErrs quad c 1

/-! ### Slices (R281 to R284) -/

/-- A byte at its home slice: dirty there, or behind the port. -/
def MemSys.sliceByte (m : MemSys) (pa : Nat) : Byte := (m.llc.find pa).getD (m.portByte pa)

/-- A dirty byte of a line stands in the slice: SECDED protects the line, else parity (R285). -/
def MemSys.lineDirty (m : MemSys) (line : Nat) : Bool := m.llc.any fun kv => lineOf kv.1 == line

/-- Soft errors of a line in its home slice. -/
def inSlice (line : Nat) (e : ErrLoc) : Bool :=
  match e with
  | .slice pa => lineOf pa == line
  | _ => false

/-- The slice writes its dirty bytes of a line back to the port, poisoned units under a poison mark (R285). -/
def MemSys.writeBack (m : MemSys) (line : Nat) : MemSys :=
  let bytes := m.llc.filter fun kv => kv.1 / lineBytes == line
  let bad := m.lpoison.filter (fun u => u / 16 == line) ++ m.errs.filterMap fun e => match e.1 with
    | .slice pa => if lineOf pa == line && !e.2 && m.lineDirty line then some (pa / 8) else none
    | _ => none
  -- a poison mark is written like a byte: it touches a line under scrub (R289)
  let m := if bad.isEmpty then m else m.touchScrub (line * lineBytes)
  let m := bytes.foldl (fun m kv => m.portWrite kv.1 kv.2) m
  { m with
    llc := m.llc.dropRange (line * lineBytes) ((line + 1) * lineBytes)
    poison := m.poison ++ bad
    lpoison := m.lpoison.filter fun u => u / 16 != line
    errs := m.errs.filter fun e => !inSlice line e.1 }

/-- The line's forward tag is dropped, after a write-back (R282). -/
def MemSys.dropTag (m : MemSys) (line : Nat) : MemSys :=
  match m.fwd.find line with
  | none => m
  | some _ =>
    let m := m.writeBack line
    { m with fwd := m.fwd.erase line, fwdOrder := m.fwdOrder.filter (· != line) }

/-! ### What a slice holds (R281) -/

/-- Ways of a slice's set, ways of it that may hold tagged lines, and its sets. -/
abbrev sliceWays : Nat := 16
abbrev tagWays : Nat := 4
abbrev sliceSets : Nat := 2048

/-- The set of a line in a slice (log 40, DESIGN CHOICE). -/
def setOf (line : Nat) : Nat := line / 32 % sliceSets

/-- The slice of a die that holds a copy of a line (log 40, DESIGN CHOICE). -/
def sliceOn (die line : Nat) : Nat := 32 * die + channelOf (line * lineBytes)

/-- The lines of a slice in the set of a line, oldest first. -/
def MemSys.setHeld (m : MemSys) (slice line : Nat) : List Nat :=
  (m.held.filter fun h => h.1 == slice && setOf h.2 == setOf line).map (·.2)

def MemSys.unhold (m : MemSys) (slice line : Nat) : MemSys :=
  { m with held := m.held.filter fun h => h != (slice, line)
           thin := if slice = sliceOf (line * lineBytes) then m.thin.filter (· != line) else m.thin }

/-- The oldest tagged line of a slice's set, when there is one. -/
def MemSys.oldestTag (m : MemSys) (slice line : Nat) : Option Nat :=
  m.fwdOrder.find? fun l => sliceOf (l * lineBytes) == slice && setOf l == setOf line

/-- The head of a slice's write-back queue is written at its port. -/
def MemSys.drainWb (m : MemSys) (slice : Nat) : MemSys :=
  match m.wbq.get [] slice with
  | [] => m
  | l :: rest =>
    let m := m.writeBack l
    { m with wbq := m.wbq.set [] slice rest }

/-- A line's dirty bytes enter the write-back queue, whose head leaves when it is full (R283). -/
def MemSys.queueWb (m : MemSys) (slice line : Nat) : MemSys :=
  let m := if Config.wbEntries ≤ (m.wbq.get [] slice).length then m.drainWb slice else m
  { m with wbq := m.wbq.set [] slice (m.wbq.get [] slice ++ [line]) }

/-- A line leaves a slice: a host line or a copy is given up, a tagged line written back, dirty bytes queued (R281 to R283). -/
def MemSys.sliceEvict (m : MemSys) (slice line : Nat) : MemSys :=
  let m := m.unhold slice line
  if !isHbm (line * lineBytes) then
    let m := m.dropTag line
    { m with hostLines := m.hostLines.erase line }
  else if sliceOf (line * lineBytes) != slice then
    { m with copies := m.copies.filter fun c => !(c.die == slice / 32 && c.line == line) }
  else if (m.fwd.find line).isSome then m.dropTag line
  else if m.lineDirty line && !(m.wbq.get [] slice).contains line then m.queueWb slice line
  else m

/-- Room for a line in its set: the line held longest leaves; in its place, if it is tagged, the oldest tagged one (R282;
log 40, DESIGN CHOICE). -/
def MemSys.sliceRoom (m : MemSys) (slice line : Nat) : MemSys :=
  let set := m.setHeld slice line
  match set with
  | l :: _ =>
    if sliceWays ≤ set.length then
      m.sliceEvict slice (if (m.fwd.find l).isSome then (m.oldestTag slice line).getD l else l)
    else m
  | [] => m

/-- A slice holds a line. -/
def MemSys.hold (m : MemSys) (slice line : Nat) : MemSys :=
  if m.held.contains (slice, line) then m
  else
    let m := m.sliceRoom slice line
    { m with held := m.held ++ [(slice, line)] }

/-- The home slice holds a line, as its port brought it. -/
def MemSys.holdHome (m : MemSys) (line : Nat) : MemSys :=
  let m := m.hold (sliceOf (line * lineBytes)) line
  { m with thin := m.thin.filter (· != line) }

/-- The home slice takes written bytes of a line; one that it did not hold it does not fetch (R276, R281). -/
def MemSys.holdWritten (m : MemSys) (line : Nat) : MemSys :=
  if m.held.contains (sliceOf (line * lineBytes), line) then m
  else
    let m := m.hold (sliceOf (line * lineBytes)) line
    { m with thin := line :: m.thin }

/-! ### L1 lines (R276, R277) -/

def MemSys.l1Line (m : MemSys) (quad line : Nat) : Option L1Line :=
  m.l1.find? fun l => l.quad == quad && l.line == line

def MemSys.setL1 (m : MemSys) (l : L1Line) : MemSys :=
  { m with l1 := m.l1.filter (fun x => !(x.quad == l.quad && x.line == l.line)) ++ [l] }

/-- A word of an L1, if it is valid. -/
def MemSys.l1Word (m : MemSys) (quad line w : Nat) : Option (W32 × Bool) :=
  match m.l1Line quad line with
  | some l => l.words.find w
  | none => none

/-- Soft errors of words of an L1 line. -/
def onL1 (quad line : Nat) (word : Nat → Bool) (e : ErrLoc) : Bool :=
  match e with
  | .l1 q l w => q == quad && l == line && word w
  | _ => false

/-- Soft errors and poison of words of an L1 line forgotten: the words are written or gone. -/
def MemSys.clearL1Errs (m : MemSys) (quad line : Nat) (word : Nat → Bool) : MemSys :=
  { m with errs := m.errs.filter (fun e => !onL1 quad line word e.1)
           l1bad := m.l1bad.filter fun b => !(b.1 == quad && b.2 / 32 == line && word (b.2 % 32)) }

def MemSys.dropL1 (m : MemSys) (quad line : Nat) : MemSys :=
  ({ m with l1 := m.l1.filter fun x => !(x.quad == quad && x.line == line) } : MemSys).clearL1Errs quad line fun _ => true

/-- The dirty bytes of an L1 line. -/
def L1Line.dirtyBytes (l : L1Line) : List (Nat × Byte) :=
  l.words.foldr (fun kv acc =>
    if kv.2.2 then
      (List.range 4).map (fun i => (l.line * lineBytes + 4 * kv.1 + i, kv.2.1.extractLsb' (8 * i) 8)) ++ acc
    else acc) []

def L1Line.hasDirty (l : L1Line) : Bool := l.words.any fun kv => kv.2.2

def L1Line.wordDirty (l : L1Line) (w : Nat) : Bool :=
  match l.words.find w with
  | some (_, d) => d
  | none => false

/-- The 8-byte units that a write covers whole. -/
def coveredUnits (bytes : List (Nat × Byte)) : List Nat :=
  (bytes.map fun kv => kv.1 / 8).filter fun u => (List.range 8).all fun i => bytes.any fun kv => kv.1 == 8 * u + i

/-- Errors of memory or of a slice in the units. -/
def inUnits (units : List Nat) (e : ErrLoc) : Bool :=
  match e with
  | .slice pa => units.contains (pa / 8)
  | .memory pa => units.contains (pa / 8)
  | _ => false

/-- A write at the home clears the poison, and the errors, of the 8-byte units it covers (R269, R285). -/
def MemSys.clearPoison (m : MemSys) (bytes : List (Nat × Byte)) : MemSys :=
  if m.poison = [] ∧ m.lpoison = [] ∧ m.errs = [] then m
  else
    let units := coveredUnits bytes
    { m with poison := m.poison.filter (fun u => !units.contains u), lpoison := m.lpoison.filter (fun u => !units.contains u)
             errs := m.errs.filter fun e => !inUnits units e.1 }

/-- What the dirty words of an L1 line bring home beside their bytes: errors found in them are counted, and an uncorrectable
one, like a poisoned word, poisons the home line (R271, R278). -/
def MemSys.l1Errors (m : MemSys) (l : L1Line) : MemSys :=
  let found := m.errs.filter fun e => onL1 l.quad l.line l.wordDirty e.1
  let bad := (m.l1bad.filter fun b => b.1 == l.quad && b.2 / 32 == l.line).map (·.2) ++ found.filterMap fun e => match e.1 with
    | .l1 _ ln w => if e.2 then none else some (32 * ln + w)
    | _ => none
  let m := found.foldl (fun m e => m.countErr l.quad (if e.2 then 6 else 7)) m
  let m := m.clearL1Errs l.quad l.line l.wordDirty
  { m with lpoison := m.lpoison ++ bad.map (· / 2) }

/-- A line poisoned whole in its slice (R348). -/
def MemSys.poisonLine (m : MemSys) (line : Nat) : MemSys :=
  { m with lpoison := m.lpoison.filter (fun u => u / 16 != line) ++ (List.range 16).map fun i => 16 * line + i }

/-- An L1 line's dirty words go to the home slice under a word mask; the words stay, clean (R277).  Behind a closed gate the
request is answered by a NACK: the words are lost, and a line that the L1 owned is poisoned (R347). -/
def MemSys.l1Flush (m : MemSys) (quad line : Nat) : MemSys :=
  match m.l1Line quad line with
  | none => m
  | some l =>
    if m.cut.contains (quad / 4) then (if l.owned then m.poisonLine line else m).dropL1 quad line
    else if !l.hasDirty then m.setL1 { l with owned := false }
    else
      let m := ((m.holdWritten line).clearPoison l.dirtyBytes).l1Errors l
      { m.setL1 { l with owned := false, words := l.words.map fun kv => (kv.1, (kv.2.1, false)) } with
        llc := l.dirtyBytes.foldl (fun c kv => c.put kv.1 kv.2) m.llc }

/-- Recall with invalidation: the dirty words go home, the line leaves the L1. -/
def MemSys.l1Out (m : MemSys) (quad line : Nat) : MemSys := (m.l1Flush quad line).dropL1 quad line

/-- The quadrants whose L1 the home's recalls reach: those of its die with a copy of the line.  Copies on other dies are not
tracked (R241, R281). -/
def MemSys.holders (m : MemSys) (line : Nat) : List Nat :=
  (m.l1.filter fun l => l.line == line && dieOfQuad l.quad == homeDie (line * lineBytes)).map (·.quad)

/-- The host's copy of a device line is back-invalidated (R238, R242). -/
def MemSys.loseHost (m : MemSys) (line : Nat) : MemSys :=
  if m.hostCopies.contains line then
    { m with hostCopies := m.hostCopies.filter (· != line), backInv := m.backInv ++ [line] }
  else m

/-- The home grants a quadrant's L1 ownership of a line of its die: the host's and the other L1s' copies go first, with their
dirty words written back, and what the L1 holds clean gives way to those (R238, R240, R277). -/
def MemSys.grant (m : MemSys) (quad line : Nat) : MemSys :=
  match m.l1Line quad line with
  | none => m
  | some l =>
    if homeDie (line * lineBytes) != dieOfQuad quad then m
    else if m.cut.contains (quad / 4) then (m.poisonLine line).dropL1 quad line
    else
      let others := (m.holders line).filter (· != quad)
      let stale := m.l1.any fun x => x.line == line && x.quad != quad && x.hasDirty
      let m := others.foldl (fun m q => m.l1Out q line) (m.loseHost line)
      { m.setL1 { l with owned := true, words := l.words.filter fun kv => kv.2.2 || !stale } with
        dir := m.dir.put line { sharers := [quad / 4], owner := some quad } }

/-- An L1 line with stored words that its home has not granted yet (R240). -/
def L1Line.pending (l : L1Line) : Bool := !l.owned && l.hasDirty

/-- Eviction: the line's ownership comes first, so that no other L1 keeps an older copy (R240), then its dirty words go home. -/
def MemSys.l1Evict (m : MemSys) (quad line : Nat) : MemSys :=
  match m.l1Line quad line with
  | none => m
  | some l => (if l.pending && !m.cut.contains (quad / 4) then m.grant quad line else m).l1Out quad line

/-- The home recalls the dirty bytes of an owning L1, which keeps a clean copy (R240). -/
def MemSys.recallLine (m : MemSys) (line : Nat) : MemSys :=
  let m := ((m.l1.filter fun l => l.line == line && l.owned).map (·.quad)).foldl (fun m q => m.l1Flush q line) m
  { m with dir := match m.dir.find line with
      | none => m.dir
      | some e => m.dir.put line { e with owner := none } }

/-- A line that a tile update has locked (R288). -/
def MemSys.locked (m : MemSys) (line : Nat) : Bool := m.locks.any fun k => k.1 == line

/-- Every L1 copy is recalled and invalidated, and the host's, before a write at the home (R240, R242, R284). -/
def MemSys.takeLine (m : MemSys) (line : Nat) : MemSys :=
  let m := (m.holders line).foldl (fun m q => m.l1Out q line) (m.loseHost line)
  { m with dir := m.dir.erase line }

/-- A byte as the home sees it: an owner's dirty word, the slice, or memory (log 36, DEDUCED).  What an owner behind a closed
gate holds does not come home (R347, R351). -/
def MemSys.homeByte (m : MemSys) (pa : Nat) : Byte :=
  let line := lineOf pa
  match m.l1.find? fun l => l.line == line && l.owned && !m.cut.contains (l.quad / 4) with
  | some l =>
    match l.words.find (pa % lineBytes / 4) with
    | some (w, true) => w.extractLsb' (8 * (pa % 4)) 8
    | _ => m.sliceByte pa
  | none => m.sliceByte pa

/-- A masked write, an atomic's write or a rewrite, performed at the home (R276, R281).  Host and peer memory have their
home outside the device and hold the bytes at once, a host line once the slice owns it (R237, R238). -/
def MemSys.homeWrite (m : MemSys) (bytes : List (Nat × Byte)) : MemSys :=
  let m := bytes.foldl (fun m kv =>
    let line := lineOf kv.1
    if isHbm kv.1 then
      let m := ((m.takeLine line).dropTag line).holdWritten line
      { m with llc := m.llc.put kv.1 kv.2 }
    else if paSpace kv.1 = 1 then
      let m := (m.dropTag line).holdHome line
      { m with mem := m.mem.set blankByte kv.1 kv.2, hostLines := m.hostLines.put line true }
    else
      let m := m.dropTag line
      { m with mem := m.mem.set blankByte kv.1 kv.2 }) m
  m.clearPoison bytes

/-- A poisoned line as its home meets it: in the slice, in memory unless a scrub hides it, in a word that its owner would
bring, or owned behind a closed gate (R178, R285, R289, R347). -/
def MemSys.poisoned (m : MemSys) (pa : Nat) : Bool :=
  m.lpoison.any (fun u => u / 16 == lineOf pa) || (m.poison.any (fun u => u / 16 == lineOf pa) && !m.scrubbed pa) ||
  (m.l1bad.any fun b => b.2 / 32 == lineOf pa && (match m.l1Line b.1 (lineOf pa) with
    | some l => l.owned
    | none => false)) ||
  m.l1.any fun l => l.line == lineOf pa && l.owned && m.cut.contains (l.quad / 4)

/-! ### Copies of other dies' lines (R241) -/

def MemSys.dieCopy (m : MemSys) (die line : Nat) : Option LlcCopy :=
  m.copies.find? fun c => c.die == die && c.line == line

/-- Copies in dies' LLCs given up. -/
def MemSys.dropCopies (m : MemSys) (p : Nat → Nat → Bool) : MemSys :=
  { m with
    copies := m.copies.filter fun c => !p c.die c.line
    held := m.held.filter fun h => !(isHbm (h.2 * lineBytes) && sliceOf (h.2 * lineBytes) != h.1 && p (h.1 / 32) h.2)
    errs := m.errs.filter fun e => match e.1 with
      | .copy die pa => !p die (lineOf pa)
      | _ => true }

/-- An acquire beyond the block, on a core: the core's L1s and the die's LLC drop their copies of other dies' lines (R239). -/
def MemSys.acquire (m : MemSys) (core : Nat) : MemSys :=
  ({ m with l1 := m.l1.filter fun l => !(l.quad / 4 == core && homeDie (l.line * lineBytes) != dieOfCore core) } : MemSys).dropCopies
    fun die _ => die == dieOfCore core

/-- A store of a quadrant to another die's line: the line leaves its L1 and the die's LLC whole (R241, R253). -/
def MemSys.dropRemote (m : MemSys) (quad line : Nat) : MemSys :=
  if homeDie (line * lineBytes) == dieOfQuad quad then m
  else
    ({ m with l1 := m.l1.filter fun l => !(l.quad == quad && l.line == line) } : MemSys).dropCopies
      fun die l => die == dieOfQuad quad && l == line

/-- A line that is to be tagged leaves every cache of other dies: its bytes must have no copy that outlives them (R256, R282). -/
def MemSys.dropAbroad (m : MemSys) (line : Nat) : MemSys :=
  ({ m with l1 := m.l1.filter fun l => !(l.line == line && dieOfQuad l.quad != homeDie (line * lineBytes)) } : MemSys).dropCopies
    fun _ l => l == line

/-- The bytes a fill brings for a line: from the home, or on another die from the die's copy. -/
def MemSys.fillByte (m : MemSys) (die pa : Nat) : Byte :=
  if homeDie pa == die then m.homeByte pa
  else match m.dieCopy die (lineOf pa) with
    | some c => (c.data.find pa).getD (m.homeByte pa)
    | none => m.homeByte pa

/-- A line that no cache may hold: host or peer memory, a forward-tagged line (R242, R282). -/
def MemSys.uncached (m : MemSys) (line : Nat) : Bool :=
  !isHbm (line * lineBytes) || (m.fwd.find line).isSome

/-- Ways of an L1 set (R276). -/
abbrev l1Ways : Nat := 8

/-- The set of a line in an L1: its number modulo 64 (log 40, DESIGN CHOICE). -/
def l1Set (line : Nat) : Nat := line % 64

/-- The line that makes room for a new one in its set, when the set is full: the one held longest (log 40, DESIGN CHOICE). -/
def MemSys.l1Victim (m : MemSys) (quad line : Nat) : Option L1Line :=
  let set := m.l1.filter fun l => l.quad == quad && l1Set l.line == l1Set line
  if l1Ways ≤ set.length then set.head? else none

/-- Room for a new line in its set. -/
def MemSys.l1Room (m : MemSys) (quad line : Nat) : MemSys :=
  match m.l1Victim quad line with
  | some l => m.l1Evict quad l.line
  | none => m

/-- What a fill of a die takes from the home: an owner's words recalled, and on another die the die's own copy (R241). -/
def MemSys.fetchFor (m : MemSys) (die line : Nat) : MemSys :=
  let base := line * lineBytes
  if homeDie base == die then m.recallLine line
  else if m.uncached line || (m.dieCopy die line).isSome then m
  else
    let m := (m.recallLine line).hold (sliceOn die line) line
    let data := (List.range lineBytes).map fun i => (base + i, m.homeByte (base + i))
    { m with copies := m.copies ++ [{ die := die, line := line, data := data }] }

/-- The words of a line after a fill: those that are valid stay, the others come clean (R277). -/
def MemSys.fillWords (m : MemSys) (die line : Nat) (old : SMap (W32 × Bool)) : SMap (W32 × Bool) :=
  (List.range 32).map fun w =>
    (w, (old.find w).getD
      (((List.range 4).foldl (fun acc i =>
        acc ||| (BitVec.zeroExtend 32 (m.fillByte die (line * lineBytes + 4 * w + i)) <<< (8 * i))) 0#32), false))

/-- The home's directory notes a core whose L1 holds a copy of a line homed on its die. -/
def MemSys.addSharer (m : MemSys) (quad line : Nat) : MemSys :=
  if homeDie (line * lineBytes) == dieOfQuad quad then
    let e := (m.dir.find line).getD { sharers := [], owner := none }
    let c := quad / 4
    { m with dir := m.dir.put line { e with sharers := if e.sharers.contains c then e.sharers else c :: e.sharers } }
  else m

/-- A quadrant's L1 with room for a line: the line it holds, or else an empty one. -/
def MemSys.openL1 (m : MemSys) (quad line : Nat) : MemSys × L1Line :=
  let m := if (m.l1Line quad line).isSome then m else m.l1Room quad line
  (m, (m.l1Line quad line).getD { quad := quad, line := line, owned := false, words := [] })

/-- A merging fill: only the words that are not valid (R277).  A poisoned line fills nothing: its words stay at its home, where a
load meets the poison (R178). -/
def MemSys.fill (m : MemSys) (quad line : Nat) : MemSys :=
  if m.uncached line || m.poisoned (line * lineBytes) then m
  else
    let r := (m.fetchFor (dieOfQuad quad) line).openL1 quad line
    (r.1.setL1 { r.2 with words := r.1.fillWords (dieOfQuad quad) line r.2.words }).addSharer quad line

/-- Whether a load through a quadrant's L1 is served there (R277). -/
def MemSys.l1Valid (m : MemSys) (quad pa : Nat) : Bool :=
  !m.uncached (lineOf pa) && (m.l1Word quad (lineOf pa) (pa % lineBytes / 4)).isSome

/-- A byte as a load through a quadrant's L1 binds it (R240, R241, R277). -/
def MemSys.loadByte (m : MemSys) (quad pa : Nat) : Byte :=
  if m.uncached (lineOf pa) then m.homeByte pa
  else
    match m.l1Word quad (lineOf pa) (pa % lineBytes / 4) with
    | some (w, _) => w.extractLsb' (8 * (pa % 4)) 8
    | none => m.fillByte (dieOfQuad quad) pa

/-- A word that a run of bytes covers only in part. -/
def partWords (pa len : Nat) : List Nat := (if pa % 4 = 0 then [] else [pa]) ++ (if (pa + len) % 4 = 0 then [] else [pa + len - 1])

/-- Whether a store writes the L1: 4 bytes or more to lines homed on the quadrant's die (R276).  A run that covers a word in
part needs the rest of the word, which a poisoned line does not give (log 81, DEDUCED). -/
def MemSys.l1Store (m : MemSys) (quad pa len : Nat) : Bool :=
  isHbm pa && homeDie pa == dieOfQuad quad && homeDie (pa + len - 1) == dieOfQuad quad && decide (4 ≤ len) &&
  !m.uncached (lineOf pa) && !m.uncached (lineOf (pa + len - 1)) && !((partWords pa len).any m.poisoned)

/-- The bytes of a word, the old ones where the store does not cover them. -/
def storeWord (old : W32) (w : Nat) (bytes : List (Nat × Byte)) : W32 :=
  (List.range 4).foldl (fun acc i =>
    let b := match bytes.find? fun kv => kv.1 % lineBytes == 4 * w + i with
      | some kv => kv.2
      | none => old.extractLsb' (8 * i) 8
    acc ||| (BitVec.zeroExtend 32 b <<< (8 * i))) 0#32

/-- Bytes of one line written into the L1, their words valid and dirty (R276); what a word held is gone where they cover it whole
(R269, R278). -/
def MemSys.l1Write (m : MemSys) (quad line : Nat) (bytes : List (Nat × Byte)) : MemSys :=
  let r := m.openL1 quad line
  let ws := (bytes.map fun kv => kv.1 % lineBytes / 4).eraseDups
  let words := ws.foldl (fun words w =>
    words.put w (storeWord (match r.2.words.find w with | some x => x.1 | none => 0) w bytes, true)) r.2.words
  (r.1.setL1 { r.2 with words := words }).clearL1Errs quad line fun w =>
    (List.range 4).all fun i => bytes.any fun kv => kv.1 % lineBytes == 4 * w + i

/-- Consecutive bytes stored: into the L1 that serves each line, or as a masked write at the home (R276, R279).  Words that the L1
must complete are filled first; a run over two lines takes both at once, as one write (R249). -/
def MemSys.storeRun (m : MemSys) (quadOf : Nat → Nat) (bytes : List (Nat × Byte)) : MemSys :=
  match bytes with
  | [] => m
  | (pa, _) :: _ =>
    let lines := (bytes.map fun kv => lineOf kv.1).eraseDups
    let at_ := fun (line : Nat) => quadOf (line * lineBytes)
    if m.l1Store (quadOf pa) pa bytes.length then
      let m := (partWords pa bytes.length).foldl (fun m p =>
        if m.l1Valid (at_ (lineOf p)) p then m else m.fill (at_ (lineOf p)) (lineOf p)) m
      let m := lines.foldl (fun m line => m.l1Write (at_ line) line (bytes.filter fun kv => lineOf kv.1 == line)) m
      if 1 < lines.length then lines.foldl (fun m line => m.grant (at_ line) line) m else m
    else (lines.foldl (fun m line => m.dropRemote (at_ line) line) m).homeWrite bytes

/-- Bytes cut into runs of consecutive addresses: the two words of a private access lie apart (R173). -/
def byteRuns : List (Nat × Byte) → List (List (Nat × Byte))
  | [] => []
  | kv :: rest => match byteRuns rest with
    | (x :: xs) :: more => if x.1 = kv.1 + 1 then (kv :: x :: xs) :: more else [kv] :: (x :: xs) :: more
    | more => [kv] :: more

/-- A store's bytes, run by run, through the L1 that serves each line. -/
def MemSys.storeBytes (m : MemSys) (quadOf : Nat → Nat) (bytes : List (Nat × Byte)) : MemSys :=
  (byteRuns bytes).foldl (fun m run => m.storeRun quadOf run) m

/-- A line is tagged: other bytes of it are written back, and no cache keeps it; a fifth tag in its set drops the oldest
(R282). -/
def MemSys.tagLine (m : MemSys) (tag : FwdTag) (line : Nat) : MemSys :=
  if m.fwd.find line == some tag then m
  else
    let m := ((m.dropTag line).writeBack line).dropAbroad line
    let tags := m.fwdOrder.filter fun l => sliceOf (l * lineBytes) == sliceOf (line * lineBytes) && setOf l == setOf line
    let m := match tags with
      | l :: _ => if tagWays ≤ tags.length then m.dropTag l else m
      | [] => m
    { m with fwd := m.fwd.put line tag, fwdOrder := m.fwdOrder ++ [line] }

/-- An STG.fwd at the home slice (R282). -/
def MemSys.fwdWrite (m : MemSys) (tag : FwdTag) (bytes : List (Nat × Byte)) : MemSys :=
  let m := bytes.foldl (fun m kv =>
    let line := lineOf kv.1
    let m := ((m.takeLine line).holdWritten line).tagLine tag line
    { m with llc := m.llc.put kv.1 kv.2 }) m
  m.clearPoison bytes

/-- The named consumer's read: the slice invalidates the line without writing it back, and a copy that the host took of it goes too
(R177, R256, R282). -/
def MemSys.consume (m : MemSys) (line : Nat) : MemSys :=
  let m := m.loseHost line
  ({ m with
    fwd := m.fwd.erase line, fwdOrder := m.fwdOrder.filter (· != line)
    llc := m.llc.dropRange (line * lineBytes) ((line + 1) * lineBytes)
    lpoison := m.lpoison.filter (fun u => u / 16 != line)
    errs := m.errs.filter fun e => !inSlice line e.1
    hostLines := m.hostLines.erase line } : MemSys).unhold (sliceOf (line * lineBytes)) line

/-! ### Scratchpad (R272, R273) -/

abbrev spadSize : Nat := 2 ^ 20

/-- The banks a quadrant owns, ascending. -/
def ownBanks (spown : W64) (quad : Nat) : List Nat :=
  (List.range 32).filter fun b => (spown.extractLsb' (2 * b) 2).toNat == quad

/-- A quadrant address as a byte of the core's scratchpad; `none` beyond the banks the quadrant owns. -/
def spadAddr (spown : W64) (quad q : Nat) : Option Nat :=
  let own := ownBanks spown quad
  let b := own.length
  if q < b * 32768 then
    some (own.getD (q / 16 % b) 0 * 32768 + q / 16 / b * 16 + q % 16)
  else none

def MemSys.spadByte (m : MemSys) (core addr : Nat) : Byte := m.spad.get blankByte (core * spadSize + addr)

def MemSys.spadWrite (m : MemSys) (core : Nat) (bytes : List (Nat × Byte)) : MemSys :=
  let units := fun (_ : Unit) => coveredUnits (bytes.map fun kv => (core * spadSize + kv.1, kv.2))
  { m with
    spad := bytes.foldl (fun sp kv => sp.set blankByte (core * spadSize + kv.1) kv.2) m.spad
    spoison := if m.spoison = [] then m.spoison else m.spoison.filter fun u => !(units ()).contains u
    errs := if m.errs = [] then m.errs else m.errs.filter fun e => match e.1 with
      | .scratch c a => !(units ()).contains ((c * spadSize + a) / 8)
      | _ => true }

/-- A poisoned 8-byte unit of scratchpad (R275). -/
def MemSys.spadPoisoned (m : MemSys) (core addr : Nat) : Bool := m.spoison.contains ((core * spadSize + addr) / 8)

/-! ### Places -/

/-- A byte as a load of a quadrant binds it. -/
def MemSys.readLoc (m : MemSys) (quad : Nat) : Loc → Byte
  | .phys pa => m.loadByte quad pa
  | .spad core a => m.spadByte core a

/-- A byte as its home holds it (an atomic's read, the copy engine after a release, the caller). -/
def MemSys.homeRead (m : MemSys) : Loc → Byte
  | .phys pa => m.homeByte pa
  | .spad core a => m.spadByte core a

/-- Bytes written at their homes. -/
def MemSys.homePut (m : MemSys) (bytes : List (Loc × Byte)) : MemSys :=
  let m := m.homeWrite (bytes.filterMap fun lb => match lb.1 with | .phys pa => some (pa, lb.2) | _ => none)
  let spad := bytes.filterMap fun lb => match lb.1 with
    | .spad core a => some (core * spadSize + a, lb.2)
    | .phys _ => none
  m.spadWrite 0 spad

/-! ### Finding soft errors (R269, R271, R275, R278, R285, R287) -/

/-- Every clean word of an L1 line discarded after a parity error, and counted (R271, R278). -/
def MemSys.discardClean (m : MemSys) (quad line : Nat) : MemSys :=
  let n := match m.l1Line quad line with
    | some l => (l.words.filter fun kv => !kv.2.2).length
    | none => 0
  { m.countErrs quad 5 n with l1 := m.l1.map fun l =>
      if l.quad == quad && l.line == line then { l with words := l.words.filter fun kv => kv.2.2 } else l }

/-- The owner of a scratchpad bank. -/
def bankOwner (spown : W64) (bank : Nat) : Nat := (spown.extractLsb' (2 * bank) 2).toNat

/-- The L1 that a read goes through, when it does; else it is made at the home. -/
abbrev Via := Nat → Option Nat

def atHome : Via := fun _ => none

/-- A read of an address meets the line's home: no word of its L1 serves it, nor a copy in its die's LLC. -/
def MemSys.meetsHome (m : MemSys) (via : Via) (pa : Nat) : Bool :=
  match via pa with
  | none => true
  | some q => !m.l1Valid q pa && (homeDie pa == dieOfQuad q || (m.dieCopy (dieOfQuad q) (lineOf pa)).isNone)

/-- A read at the home reads the line at its port: the slice does not hold it, has only bytes written there, or is still filling
it (R283, R287). -/
def MemSys.readsPort (m : MemSys) (line : Nat) : Bool :=
  let slice := sliceOf (line * lineBytes)
  !m.held.contains (slice, line) || m.thin.contains line || (m.misses.get [] slice).contains line

/-- Bytes of an 8-byte unit that the port brings: not all of them stand dirty in the slice. -/
def MemSys.unitFromPort (m : MemSys) (pa : Nat) : Bool := (List.range 8).any fun i => (m.llc.find (pa / 8 * 8 + i)).isNone

/-- Whether a read of places finds an error. -/
def MemSys.finds (m : MemSys) (via : Via) (locs : List Loc) (e : ErrLoc) : Bool :=
  let phys := fun (p : Nat → Bool) => locs.any fun l => match l with
    | .phys pa => p pa
    | .spad _ _ => false
  match e with
  | .scratch c a => locs.any fun l => match l with
    | .spad c' a' => c' == c && a' / 8 == a / 8
    | .phys _ => false
  | .slice pa => phys fun p => p / 8 == pa / 8 && m.meetsHome via p
  | .memory pa => m.readsPort (lineOf pa) && !m.scrubbed pa && m.unitFromPort pa &&
      phys fun p => lineOf p == lineOf pa && m.meetsHome via p
  | .copy die pa => phys fun p => p / 8 == pa / 8 && (match via p with
      | some q => dieOfQuad q == die && homeDie p != die && !m.l1Valid q p
      | none => false)
  | .l1 q line w => phys fun p => lineOf p == line && p % lineBytes / 4 == w &&
      (via p == some q || ((match m.l1Line q line with | some x => x.owned | none => false) && m.meetsHome via p))
  | _ => false

/-- An uncorrectable error that a read meets: not in a clean line, which is fetched again (R278, R285). -/
def MemSys.badErr (m : MemSys) (via : Via) (locs : List Loc) (e : ErrLoc × Bool) : Bool :=
  !e.2 && m.finds via locs e.1 && (match e.1 with
    | .slice pa => m.lineDirty (lineOf pa)
    | .l1 q line w => (match m.l1Word q line w with | some (_, d) => d | none => false)
    | .copy _ _ => false
    | _ => true)

/-- Whether a read of a place meets poison: of the word that its L1 serves, else of the line at the home. -/
def MemSys.poisonAt (m : MemSys) (via : Via) (l : Loc) : Bool :=
  match l with
  | .spad core a => m.spadPoisoned core a
  | .phys pa =>
    if m.meetsHome via pa then m.poisoned pa
    else match via pa with
      | some q => m.l1bad.contains (q, pa / 4)
      | none => false

/-- Something is poisoned, holds an error not found before, or is lost behind a closed gate. -/
def MemSys.anyBad (m : MemSys) : Bool :=
  !(m.poison.isEmpty && m.lpoison.isEmpty && m.l1bad.isEmpty && m.spoison.isEmpty && m.errs.isEmpty && m.cut.isEmpty)

/-- Whether a read of the places meets poison, or an uncorrectable error not found before (R178, R269, R275). -/
def MemSys.badVia (m : MemSys) (via : Via) (locs : List Loc) : Bool :=
  m.anyBad && (locs.any (m.poisonAt via) || m.errs.any (m.badErr via locs))

/-- The same of a read at the homes. -/
def MemSys.anyPoison (m : MemSys) (locs : List Loc) : Bool := m.badVia atHome locs

/-- What finding an error does: its poison, the word or the line given up, and the quadrant counter that rises. -/
def MemSys.found (m : MemSys) (spown : Nat → W64) (e : ErrLoc × Bool) : MemSys :=
  let m := { m with errs := m.errs.filter fun x => x != e }
  match e.1 with
  | .scratch c a =>
    let q := quadId c (bankOwner (spown c) (a / 32768))
    if e.2 then m.countErr q 3 else { m.countErr q 4 with spoison := m.spoison ++ [(c * spadSize + a) / 8] }
  | .memory pa => if e.2 then m else { m with poison := m.poison ++ [pa / 8] }
  | .slice pa => if e.2 || !m.lineDirty (lineOf pa) then m else { m with lpoison := m.lpoison ++ [pa / 8] }
  | .copy die pa => m.dropCopies fun d l => d == die && l == lineOf pa
  | .l1 q line w =>
    match m.l1Word q line w with
    | none => m
    | some (_, false) => m.discardClean q line
    | some (_, true) => if e.2 then m.countErr q 6 else { m.countErr q 7 with l1bad := m.l1bad ++ [(q, 32 * line + w)] }
  | _ => m

/-! ### Little-endian numbers -/

/-- Bytes as a number, least significant first (R22). -/
def leNum (bs : List Byte) : Nat := bs.foldr (fun b acc => b.toNat + 256 * acc) 0

/-- The `n` low bytes of a number. -/
def leBytes (n v : Nat) : List Byte := (List.range n).map fun i => BitVec.ofNat 8 (v / 256 ^ i)

end Sys2Proof.Machine
end

