-- ==== Sys2Proof/Machine/Translate.lean ====
section
/-!
DEFINITION. Translation (R359, R362 to R366) and the dirty log (R372 to R374): page walks over the tables in memory, TLBs,
and reads and writes of a tenant's virtual memory by the device itself.
-/
namespace Sys2Proof.Machine

/-! ### Reading and writing physical memory -/

def MemSys.readPa (m : MemSys) (pa n : Nat) : List Byte := (List.range n).map fun i => m.homeRead (.phys (pa + i))

def MemSys.numPa (m : MemSys) (pa n : Nat) : Nat := leNum (m.readPa pa n)

/-- Number a list of bytes from an address on. -/
def fromAddr (a : Nat) (bs : List Byte) : List (Nat × Byte) := bs.mapIdx fun i b => (a + i, b)

def MemSys.writePa (m : MemSys) (pa : Nat) (bs : List Byte) : MemSys := m.homeWrite (fromAddr pa bs)

def State.setMem (s : State) (m : MemSys) : State := { s with mem := m }
def State.setHost (s : State) (h : HostIf) : State := { s with host := h }
def State.setCaller (s : State) (c : Caller) : State := { s with caller := c }

def State.writePa (s : State) (pa : Nat) (bs : List Byte) : State := s.setMem (s.mem.writePa pa bs)

/-! ### Quotas and PASIDs -/

/-- The compute dies and the harts run (R377, R379): the boot found no fault. -/
def Mgmt.booted (m : Mgmt) : Bool := m.boot == 0 || m.boot == 4

/-- The quota entry in force (R356). -/
def State.quota (s : State) (ten : Nat) : QEntry := s.host.quota.get QEntry.zero ten

/-- A PASID-table entry: S1ROOT, tenant, V (R359): the cached one, else the one in memory; `none` at or beyond 2^L. -/
def State.pasidEntry (s : State) (pasid : Nat) : Option (Nat × Nat × Bool) :=
  let l := (s.host.pasidctl.extractLsb' 0 5).toNat
  if !(decide (4 ≤ l) && decide (l ≤ 20) && decide (pasid < 2 ^ l)) then none
  else
    match s.host.pasidCache.find pasid with
    | some e => some e
    | none =>
      let e := s.mem.numPa ((s.host.pasidctl.extractLsb' 12 27).toNat * 4096 + 16 * pasid) 8
      some (e / 4096 * 4096, e / 2 % 32, e % 2 == 1)

/-! ### Entries (R364) -/

def bitN (e i : Nat) : Bool := e / 2 ^ i % 2 == 1

/-- A well-formed table pointer: its reserved bits zero, the next table aligned (R364). -/
def pointerOk (e level : Nat) : Bool :=
  e / 2 ^ 56 == 0 && e / 4 % 64 == 0 && (level ≤ 1 || (e / 256 * 256) % 4096 == 0)

/-- The next table, or the page. -/
def entryAddr (e : Nat) : Nat := e / 256 % 2 ^ 48 * 256

/-- log2 of the page a leaf of the level maps (R363). -/
def leafLog (level : Nat) : Nat := 16 + (if level = 0 then 0 else if level = 1 then 5 else 14)

/-- The index of a level (R363). -/
def levelIndex (a level : Nat) : Nat :=
  match level with
  | 0 => a / 2 ^ 16 % 32
  | 1 => a / 2 ^ 21 % 512
  | 2 => a / 2 ^ 30 % 512
  | 3 => a / 2 ^ 39 % 512
  | _ => a / 2 ^ 48 % 256

/-- A leaf as either stage gives it. -/
structure Leaf where
  base : Nat
  log : Nat
  r : Bool
  w : Bool
  x : Bool
  sw : Bool
  fmt : Nat
  geom : Nat
  entryAt : Nat
  d : Bool
deriving DecidableEq, Repr

/-- A leaf entry of a level; `stage2` says which fields must be zero (R364). -/
def leafOf (stage2 : Bool) (e level at_ : Nat) : Option Leaf :=
  let base := entryAddr e
  if level ≤ 2 && !bitN e 6 && base % 2 ^ leafLog level == 0 &&
      (if stage2 then !bitN e 5 && e / 2 ^ 56 == 0 else !bitN e 7 && decide (base < 2 ^ 48)) then
    some { base := base, log := leafLog level, r := bitN e 2, w := bitN e 3, x := bitN e 4, sw := bitN e 5,
           fmt := e / 2 ^ 56 % 32, geom := e / 2 ^ 61 % 8, entryAt := at_, d := bitN e 7 }
  else none

/-- PAs that R362 admits for a tenant. -/
def paAdmitted (q : QEntry) (pa : Nat) : Bool :=
  match paSpace pa with
  | 0 => isHbm pa && q.stackSet.getLsbD (stackOf pa)
  | 1 => true
  | 2 => true
  | _ => false

/-- The stage-2 walk from a table at a level (R363). -/
def s2walk (m : MemSys) (ipa : Nat) : Nat → Nat → Option Leaf
  | level, table =>
    let at_ := table + 8 * levelIndex ipa level
    let e := m.numPa at_ 8
    if !bitN e 0 then none
    else if bitN e 1 then
      match level with
      | 0 => none
      | l + 1 => if pointerOk e (l + 1) then s2walk m ipa l (entryAddr e) else none
    else leafOf true e level at_

/-- Stage 2 of a tenant (R363, R365): identity where S2ON is 0. -/
def State.stage2 (s : State) (ten ipa : Nat) : Option Leaf :=
  let q := s.quota ten
  if 2 ^ 48 ≤ ipa then none
  else if q.s2on then
    match s2walk s.mem ipa 3 q.s2root with
    | some l => if paAdmitted q (l.base + ipa % 2 ^ l.log) then some l else none
    | none => none
  else if paAdmitted q ipa then
    some { base := 0, log := 48, r := true, w := true, x := true, sw := false, fmt := 0, geom := 0, entryAt := 0, d := true }
  else none

/-- An IPA's physical address under a leaf. -/
def Leaf.addr (l : Leaf) (a : Nat) : Nat := l.base + a % 2 ^ l.log

/-- The stage-1 walk from a table (an IPA) at a level; every table read passes stage 2 with read permission (R363). -/
def s1walk (s : State) (ten va : Nat) : Nat → Nat → Option Leaf
  | level, table =>
    match s.stage2 ten (table + 8 * levelIndex va level) with
    | none => none
    | some t =>
      if !t.r then none
      else
        let at_ := t.addr (table + 8 * levelIndex va level)
        let e := s.mem.numPa at_ 8
        if !bitN e 0 then none
        else if bitN e 1 then
          match level with
          | 0 => none
          | l + 1 => if pointerOk e (l + 1) && decide (entryAddr e < 2 ^ 48) then s1walk s ten va l (entryAddr e) else none
        else leafOf false e level at_

/-- A whole walk (R365): the permissions of both leaves, FMT, GEOM and SW of the stage-1 leaf, the smaller size. -/
def State.walk (s : State) (ten pasid va : Nat) : Option Xlate :=
  match s.pasidEntry pasid with
  | none => none
  | some (root, owner, valid) =>
    if !valid || owner != ten then none
    else
      match s1walk s ten va 4 root with
      | none => none
      | some l1 =>
        let ipa := l1.addr va
        match s.stage2 ten ipa with
        | none => none
        | some l2 =>
          let log := min l1.log l2.log
          some { ten := ten, pasid := pasid, vbase := va / 2 ^ log * 2 ^ log, ibase := ipa / 2 ^ log * 2 ^ log,
                 pbase := l2.addr ipa / 2 ^ log * 2 ^ log, logSize := log, r := l1.r && l2.r, w := l1.w && l2.w,
                 x := l1.x && l2.x, sw := l1.sw && l2.w, fmt := BitVec.ofNat 5 l1.fmt, geom := BitVec.ofNat 3 l1.geom,
                 s1log := l1.log, s2at := l2.entryAt, s2log := l2.log, dirty := l2.d }

/-- What an access asks for (R365). -/
def Xlate.grants (x : Xlate) : Access → Bool
  | .read => x.r
  | .write => x.w
  | .atomic => x.r && x.w
  | .fetch => x.x

def isWriteAcc : Access → Bool
  | .write | .atomic => true
  | _ => false

def Xlate.covers (x : Xlate) (ten pasid va : Nat) : Bool :=
  x.ten == ten && x.pasid == pasid && decide (x.vbase ≤ va) && decide (va < x.vbase + 2 ^ x.logSize)

/-- The physical address of a VA under a translation. -/
def Xlate.pa (x : Xlate) (va : Nat) : Nat := x.pbase + (va - x.vbase)

/-- The TLB entries that a quadrant can use: its own and its die's. -/
def State.tlbHits (s : State) (quad : Option Nat) : List Xlate :=
  match quad with
  | none => []
  | some q =>
    ((s.mem.tlb1.filter fun e => e.1 == q).map (·.2)) ++ ((s.mem.tlb2.filter fun e => e.1 == dieOfQuad q).map (·.2))

/-- The translation of a mapped VA, whatever it grants. -/
def State.mapped (s : State) (quad : Option Nat) (ten pasid va : Nat) : Option Xlate :=
  if 2 ^ 56 ≤ va then none
  else ((s.tlbHits quad).find? fun x => x.covers ten pasid va).orElse fun _ => s.walk ten pasid va

/-- A write meets a leaf whose D the log still wants set (R373). -/
def State.wantsLog (s : State) (x : Xlate) (acc : Access) : Bool :=
  isWriteAcc acc && (s.quota x.ten).s2on && (s.quota x.ten).logon && !x.dirty

/-- Translate a 56-bit VA for an access (R365, R366): a TLB entry that grants it, else a walk; under LOGON an entry grants write
only with D = 1 (R373). -/
def State.translate (s : State) (quad : Option Nat) (ten pasid va : Nat) (acc : Access) : Option Xlate :=
  if 2 ^ 56 ≤ va then none
  else
    match (s.tlbHits quad).find? fun x => x.covers ten pasid va && x.grants acc && !s.wantsLog x acc with
    | some x => some x
    | none =>
      match s.walk ten pasid va with
      | some x => if x.grants acc then some x else none
      | none => none

/-! ### Dirty log (R372 to R374) -/

/-- Fields of a tenant's dirty-log descriptor. -/
def State.dlogNum (s : State) (ten off n : Nat) : Nat := s.mem.numPa ((s.quota ten).dlog + off) n

def State.dlogFree (s : State) (ten : Nat) : Nat :=
  2 ^ s.dlogNum ten 8 1 - (s.dlogNum ten 0x10 4 + 2 ^ 32 - s.dlogNum ten 0x14 4) % 2 ^ 32

/-- The log entry of a leaf (R372). -/
def dlogEntry (ten : Nat) (x : Xlate) : Nat :=
  ten * 2 ^ 59 + x.ibase / 2 ^ x.s2log * 2 ^ x.s2log % 2 ^ 48 / 2 ^ 16 * 2 ^ 16 +
  (if x.s2log ≤ 16 then 0 else if x.s2log ≤ 21 then 1 else 2)

/-- The walker sets D and appends an entry; a full ring sets OVF and appends nothing more (R373, R374). -/
def State.logDirty (s : State) (ten : Nat) (x : Xlate) : State :=
  let e := s.mem.numPa x.s2at 1
  let s := s.writePa x.s2at (leBytes 1 (if bitN e 7 then e else e + 128))
  if s.host.dlOvf.contains ten then s
  else if s.dlogFree ten = 0 then
    let fl := s.dlogNum ten 9 1
    (s.writePa ((s.quota ten).dlog + 9) (leBytes 1 (if bitN fl 0 then fl else fl + 1))).setHost
      { s.host with dlOvf := ten :: s.host.dlOvf }
  else
    let head := s.dlogNum ten 0x10 4
    let s := s.writePa (s.dlogNum ten 0 8 + 8 * (head % 2 ^ s.dlogNum ten 8 1)) (leBytes 8 (dlogEntry ten x))
    let s := s.writePa ((s.quota ten).dlog + 0x10) (leBytes 4 (head + 1))
    if s.dlogFree ten ≤ 1024 ∧ !s.host.low.contains ten then { s with agenda := s.agenda ++ [.dirtyLogPoll ten] } else s

/-- Whether a write through a translation must be logged first (R373): its leaf is clean, as walked and as it stands. -/
def State.mustLog (s : State) (x : Xlate) (acc : Access) : Bool := s.wantsLog x acc && !bitN (s.mem.numPa x.s2at 1) 7

/-! ### Writes by physical address (R373; log 51, DEDUCED) -/

/-- The first stage-2 leaf, by IPA, that maps a physical address, from a table at a level on: its IPA. -/
def s2find (m : MemSys) (pa : Nat) : Nat → Nat → Nat → Option (Nat × Leaf)
  | level, table, ipa =>
    (List.range (if level = 0 then 32 else 512)).findSome? fun i =>
      let at_ := table + 8 * i
      let here := ipa + i * (if level = 0 then 2 ^ 16 else if level = 1 then 2 ^ 21 else if level = 2 then 2 ^ 30 else 2 ^ 39)
      let e := m.numPa at_ 8
      if !bitN e 0 then none
      else if bitN e 1 then
        match level with
        | 0 => none
        | l + 1 => if pointerOk e (l + 1) then s2find m pa l (entryAddr e) here else none
      else
        match leafOf true e level at_ with
        | some l => if l.base ≤ pa ∧ pa < l.base + 2 ^ l.log then some (here, l) else none
        | none => none

/-- What the caller writes for a tenant by physical address is logged as the leaf that maps it. -/
def State.logPa (s : State) (ten pa : Nat) : State :=
  let q := s.quota ten
  if !(q.s2on && q.logon) then s
  else
    match s2find s.mem pa 3 q.s2root 0 with
    | some (ipa, l) =>
      if l.d then s
      else
        s.logDirty ten { ten := ten, pasid := 0, vbase := 0, ibase := ipa, pbase := l.base, logSize := l.log, r := l.r, w := l.w,
                         x := l.x, sw := l.sw, fmt := 0, geom := 0, s1log := l.log, s2at := l.entryAt, s2log := l.log, dirty := false }
    | none => s

/-! ### Ownership (R291, R356, R358) -/

/-- The pool that sliced tenants share: quadrants that no enabled, unsliced tenant owns. -/
def inPool (qt : SMap QEntry) (q : Nat) : Bool := qt.all fun kv => !(kv.2.enable && !kv.2.sliced && kv.2.quads.getLsbD q)

/-- Quadrants that a table gives a tenant: its own, or with the other sliced tenants the pool. -/
def givenTo (qt : SMap QEntry) (ten q : Nat) : Bool :=
  let e := qt.get QEntry.zero ten
  e.enable && (if e.sliced then inPool qt q else e.quads.getLsbD q)

/-- A tenant owns a quadrant under a table, with the slice that runs. -/
def ownsUnder (qt : SMap QEntry) (slice : Option (Nat × Nat)) (ten q : Nat) : Bool :=
  givenTo qt ten q && (!(qt.get QEntry.zero ten).sliced || (match slice with
    | some (t, _) => t == ten
    | none => false))

def State.owns (s : State) (ten q : Nat) : Bool := ownsUnder s.host.quota s.caller.slice ten q

/-- The first-level entries that do not serve the owner of their quadrant are dropped (R366). -/
def State.trimTlb1 (s : State) : State :=
  s.setMem { s.mem with tlb1 := s.mem.tlb1.filter fun e => s.owns e.2.ten e.1 }

/-! ### Invalidation commands (R367, R368) -/

/-- The tenant a function's command acts on. -/
def InvReg.tenant (r : InvReg) (fn : Nat) : Nat := if fn = 0 then r.ten else fn

/-- The range of a command, aligned to its size. -/
def InvReg.base (r : InvReg) : Nat := r.addr.toNat / 2 ^ r.rlog * 2 ^ r.rlog

/-- Two ranges of addresses have a byte in common. -/
def meetRange (a n b m : Nat) : Bool := decide (a < b + m) && decide (b < a + n)

/-- A translation that a command drops. -/
def InvReg.hits (r : InvReg) (ten : Nat) (x : Xlate) : Bool :=
  match r.scope with
  | 0 => x.ten == ten
  | 1 => x.pasid == r.pasid
  | 2 => x.pasid == r.pasid && meetRange r.base (2 ^ r.rlog) x.vbase (2 ^ x.logSize)
  | 3 => x.ten == ten && meetRange r.base (2 ^ r.rlog) x.ibase (2 ^ x.logSize)
  | _ => false

/-- A command in progress that a predicate picks out. -/
def State.invUnder (s : State) (p : InvReg → Nat → Bool) : Bool := s.host.inv.any fun kv => kv.2.busy && p kv.2 (kv.2.tenant kv.1)

/-! ### Filling a TLB (R366) -/

/-- Entries of one quadrant's first-level TLB, and ways of a second-level set that a tenant fills (R366). -/
abbrev tlb1Size : Nat := 64

def State.tlbWays (s : State) (ten : Nat) : Nat :=
  let own := (s.quota ten).tlbways
  if 0 < own then own
  else 16 - (s.host.quota.filter fun kv => kv.2.enable).foldl (fun n kv => n + kv.2.tlbways) 0

/-- The oldest entry that matches leaves when `cap` entries match (log 40, DESIGN CHOICE). -/
def dropOldest {α : Type} (p : α → Bool) (cap : Nat) (l : List α) : List α :=
  if (l.filter p).length < cap then l else l.eraseP p

/-- The set of a second-level TLB that holds a page: the number of its first 64 KiB, modulo 1,024 (log 40, DESIGN CHOICE). -/
def tlbSet (vbase : Nat) : Nat := vbase / 2 ^ 16 % 1024

/-- Two entries compete for the same ways of a second-level set: one tenant's own, or the shared ones (R366). -/
def State.sameWays (s : State) (e f : Nat × Xlate) : Bool :=
  let shares := fun (t : Nat) => (s.quota t).tlbways == 0
  e.1 == f.1 && tlbSet e.2.vbase == tlbSet f.2.vbase && (e.2.ten == f.2.ten || (shares e.2.ten && shares f.2.ten))

/-- The second-level entries that fit the ways of the table in force: of each tenant that is enabled the newest (R357, R366). -/
def State.trimTlb2 (s : State) : State :=
  s.setMem { s.mem with tlb2 := s.mem.tlb2.foldr (fun e kept =>
    if (s.quota e.2.ten).enable && decide ((kept.filter (s.sameWays e)).length < s.tlbWays e.2.ten) then e :: kept else kept) [] }

/-- A walk's result enters the TLBs of its quadrant and die, the quadrant's while the tenant owns it; an entry for the same page
is replaced (R366).  What a command in progress drops enters none (R368). -/
def State.fillTlb (s : State) (quad : Nat) (x : Xlate) : State :=
  if s.invUnder fun r ten => r.hits ten x then s
  else
    let same := fun (y : Xlate) => y.ten == x.ten && y.pasid == x.pasid && y.vbase == x.vbase && y.logSize == x.logSize
    let t1 := s.mem.tlb1.filter fun e => !(e.1 == quad && same e.2)
    let t1 := if s.owns x.ten quad then dropOldest (fun e => e.1 == quad) tlb1Size t1 ++ [(quad, x)] else t1
    let die := dieOfQuad quad
    let t2 := s.mem.tlb2.filter fun e => !(e.1 == die && same e.2)
    let t2 := if s.tlbWays x.ten = 0 then t2 else dropOldest (s.sameWays (die, x)) (s.tlbWays x.ten) t2 ++ [(die, x)]
    s.setMem { s.mem with tlb1 := t1, tlb2 := t2 }

/-- A translation is used: a write through a clean leaf is logged first, and the entry enters the TLBs (R366, R373). -/
def State.useXlate (s : State) (quad : Option Nat) (x : Xlate) (acc : Access) : State :=
  let log := s.mustLog x acc
  let s := if log then s.logDirty x.ten x else s
  let x := if log then { x with dirty := true } else x
  match quad with
  | none => s
  | some q => if (s.tlbHits quad).contains x then s else s.fillTlb q x

/-! ### A tenant's virtual memory -/

/-- The generic address of a pointer: its tag, and its low 56 bits where bits 59:56 are zero. -/
def tagOf (a : W64) : Nat := (a.extractLsb' 60 4).toNat

def va56 (a : W64) : Option Nat := if a.extractLsb' 56 4 = 0 then some (a.extractLsb' 0 56).toNat else none

/-- `n` bytes from a VA on as physical places, for an access; the translation of the byte before serves where it covers the
next, so that a page is walked once.  `none` at the first byte that does not translate. -/
def State.locsFrom (s : State) (quad : Option Nat) (ten pasid : Nat) (acc : Access) (x : Option Xlate) : Nat → Nat →
    Option (List Nat)
  | _, 0 => some []
  | va, n + 1 =>
    let here := match x with
      | some x => if x.covers ten pasid va then some x else s.translate quad ten pasid va acc
      | none => s.translate quad ten pasid va acc
    match here with
    | some y => (s.locsFrom quad ten pasid acc (some y) (va + 1) n).map fun l => y.pa va :: l
    | none => none

def State.vaLocs (s : State) (quad : Option Nat) (ten pasid va n : Nat) (acc : Access) : Option (List Nat) :=
  s.locsFrom quad ten pasid acc none va n

/-- Every translation of a range put to use. -/
def State.useRange (s : State) (quad : Option Nat) (ten pasid va n : Nat) (acc : Access) : State :=
  (List.range n).foldl (fun s i =>
    if i = 0 ∨ (va + i) % 2 ^ 16 = 0 then
      match s.translate quad ten pasid (va + i) acc with
      | some x => s.useXlate quad x acc
      | none => s
    else s) s

/-- A read of a tenant's memory by the device. -/
def State.vaRead (s : State) (ten pasid va n : Nat) : Option (List Byte) :=
  match s.vaLocs none ten pasid va n .read with
  | some l => some (l.map fun pa => s.mem.homeRead (.phys pa))
  | none => none

def State.vaNum (s : State) (ten pasid va n : Nat) : Option Nat := (s.vaRead ten pasid va n).map leNum

/-- A write of a tenant's memory by the device, logged as R373 says; without a translation nothing is written. -/
def State.vaWrite (s : State) (ten pasid va : Nat) (bs : List Byte) : State :=
  match s.vaLocs none ten pasid va bs.length .write with
  | none => s
  | some l =>
    let s := s.useRange none ten pasid va bs.length .write
    s.setMem (s.mem.homeWrite (l.zip bs))

end Sys2Proof.Machine
end

