-- ==== Sys2Proof/Machine/Ops.lean ====
section
/-!
DEFINITION. Named operations over the state: blocks, strands, fragments and lanes; registers; results that wait to be
written; tokens; the movement of fragments (R43 to R46); and taking a trap and returning from one (R316 to R321).
-/
namespace Sys2Proof.Machine

/-! ### Lanes -/

/-- The lanes of a set, ascending. -/
def lanesOf (m : Lanes) : List Nat := (List.range 64).filter fun i => m.getLsbD i

/-- The set of the lanes below 64 that satisfy `p`. -/
def laneSet (p : Nat → Bool) : Lanes := (List.range 64).foldl (fun m i => if p i then m ||| (1#64 <<< i) else m) 0#64

def oneLane (i : Nat) : Lanes := 1#64 <<< i

def lowest (m : Lanes) : Nat := (lanesOf m).headD 0

def countLanes (m : Lanes) : Nat := (lanesOf m).length

/-! ### Blocks, strands, fragments -/

def State.core (s : State) (c : Nat) : Core := s.cores.get Core.reset c

def State.setCore (s : State) (c : Nat) (k : Core) : State := { s with cores := s.cores.set Core.reset c k }

/-- The tile is in placement: its gate is open to tenant work (R344). -/
def TileVote.inPlay (t : TileVote) : Bool := t.state == .live || t.state == .suspect

/-- A core that issues nothing: it failed, or its tile sits out (R341, R348). -/
def TileVote.halts (t : TileVote) : Bool := t.stopped || !t.inPlay

def State.block (s : State) (uid : Nat) : Option Block := s.blocks.find? fun b => b.uid == uid

/-- Replace a resident block. -/
def State.putBlock (s : State) (b : Block) : State :=
  { s with blocks := s.blocks.map fun x => if x.uid == b.uid then b else x }

def State.updBlock (s : State) (uid : Nat) (f : Block → Block) : State :=
  { s with blocks := s.blocks.map fun x => if x.uid == uid then f x else x }

def Strand.none : Strand :=
  { role := .A, vregs := [], uregs := [], preds := [], disp := [], lanes := [], fmode := 0, frags := [], pendw := [],
    fetched := [], issued := 0, last := 0, svdone := Option.none }

def Block.strand (b : Block) (sid : Nat) : Strand := b.strands.getD sid Strand.none

def Block.setStrand (b : Block) (sid : Nat) (st : Strand) : Block := { b with strands := b.strands.set sid st }

def Block.updStrand (b : Block) (sid : Nat) (f : Strand → Strand) : Block := b.setStrand sid (f (b.strand sid))

def State.updStrand (s : State) (uid sid : Nat) (f : Strand → Strand) : State := s.updBlock uid fun b => b.updStrand sid f

def State.strand (s : State) (uid sid : Nat) : Strand :=
  match s.block uid with
  | some b => b.strand sid
  | none => Strand.none

/-- The fragment that holds a lane (R43). -/
def Strand.fragOf (st : Strand) (lane : Nat) : Option Frag := st.frags.find? fun f => f.lanes.getLsbD lane

def Strand.updFrag (st : Strand) (lanes : Lanes) (f : Frag → Frag) : Strand :=
  { st with frags := st.frags.map fun g => if g.lanes == lanes then f g else g }

def Strand.lane (st : Strand) (L : Nat) : Lane := st.lanes.get Lane.dead L

def Strand.setLane (st : Strand) (L : Nat) (x : Lane) : Strand := { st with lanes := st.lanes.set Lane.dead L x }

def Strand.updLanes (st : Strand) (m : Lanes) (f : Nat → Lane → Lane) : Strand :=
  { st with lanes := (lanesOf m).foldl (fun ls L => ls.set Lane.dead L (f L (ls.get Lane.dead L))) st.lanes }

/-- The live lanes of a strand. -/
def Strand.live (st : Strand) : Lanes := laneSet fun L => (st.lane L).live

def Block.width (b : Block) : Nat := b.hdr.width

/-- The quadrant of the module that a block stands on. -/
def Block.quadId (b : Block) : Nat := Machine.quadId b.core b.quad

/-- %privlim (R39). -/
def Block.privlim (b : Block) : Nat := 64 * b.hdr.priv

def roundUp (n k : Nat) : Nat := (n + k - 1) / k * k

/-- The private base of a strand: consecutive windows, each rounded up to 64 KiB (R286). -/
def Block.privBase (b : Block) (sid : Nat) : Nat :=
  b.pb0.toNat + sid * roundUp (64 * b.hdr.priv * b.width) 65536

/-- The trap area of a strand (R318, R326). -/
def Block.trapVa (b : Block) (sid : Nat) : Nat := b.trapArea.toNat + 8192 * sid

/-- The tenant's own PASID (R356). -/
def State.spasid (s : State) (b : Block) : Nat := (s.quota b.ten).spasid

/-- The blocks of a block's cluster, with itself. -/
def State.clusterBlocks (s : State) (b : Block) : List Block := s.blocks.filter fun x => x.cluster == b.cluster

/-- The block of a rank in a block's cluster (R30, R168). -/
def State.rankBlock (s : State) (b : Block) (rank : Nat) : Option Block :=
  (s.clusterBlocks b).find? fun x => x.rank == rank

/-- The quadrant whose L1 serves a line for a block: its own, or in a fused cluster the one of rank n mod c (R279). -/
def State.l1Quad (s : State) (b : Block) (pa : Nat) : Nat :=
  if b.hdr.fuse && decide (2 ≤ b.hdr.cluster) then
    match s.rankBlock b (pa / 128 % 2 ^ 32 % b.hdr.cluster) with
    | some x => x.quadId
    | none => b.quadId
  else b.quadId

/-! ### Registers (R31 to R34) -/

def vIndex (n lane : Nat) : Nat := 64 * n + lane

def Strand.vreg (st : Strand) (n lane : Nat) : W32 := st.vregs.get 0 (vIndex n lane)
def Strand.setVreg (st : Strand) (n lane : Nat) (v : W32) : Strand := { st with vregs := st.vregs.set 0 (vIndex n lane) v }
def Strand.ureg (st : Strand) (n : Nat) : W64 := st.uregs.get 0 n
def Strand.setUreg (st : Strand) (n : Nat) (v : W64) : Strand := { st with uregs := st.uregs.set 0 n v }

/-- Predicate n of a lane; p7 reads as one (R34). -/
def Strand.pred (st : Strand) (n lane : Nat) : Bool := if n = 7 then true else (st.preds.get 0 n).getLsbD lane

/-- A write to p7 is discarded (R34). -/
def Strand.setPred (st : Strand) (n lane : Nat) (v : Bool) : Strand :=
  if n = 7 then st
  else
    let old := st.preds.get 0 n
    { st with preds := st.preds.set 0 n (if v then old ||| oneLane lane else old &&& ~~~(oneLane lane)) }

def Strand.dispReg (st : Strand) (n lane : Nat) : Disp := st.disp.get Disp.none (vIndex n lane)
def Strand.setDisp (st : Strand) (n lane : Nat) (d : Disp) : Strand :=
  { st with disp := st.disp.set Disp.none (vIndex n lane) d }

/-! ### Results that wait (R76 to R81) -/

def PWrite.tgt : PWrite → Tgt
  | .vreg r L _ => .vreg r L
  | .ureg r _ => .ureg r
  | .pred n L _ => .pred n L
  | .slot L loc _ => .slot L loc

/-- A write that goes to the register file of a strand; a slot write goes to memory instead. -/
def Strand.applyWrite (st : Strand) : PWrite → Strand
  | .vreg r L v => st.setVreg r L v
  | .ureg r v => st.setUreg r v
  | .pred n L v => st.setPred n L v
  | .slot _ _ _ => st

def Loc.add : Loc → Nat → Loc
  | .phys pa, i => .phys (pa + i)
  | .spad c a, i => .spad c (a + i)

/-- `n` consecutive bytes from a place. -/
def Loc.span (l : Loc) (n : Nat) : List Loc := (List.range n).map l.add

/-- Bytes stored through a block's L1, each run of them through the one that serves its line, or in scratchpad (R276, R279). -/
def State.storeLocs (s : State) (b : Block) (bytes : List (Loc × Byte)) : State :=
  let phys := bytes.filterMap fun lb => match lb.1 with | .phys pa => some (pa, lb.2) | _ => none
  let spad := bytes.filterMap fun lb => match lb.1 with | .spad c a => some (c * spadSize + a, lb.2) | _ => none
  let m := s.mem.storeBytes (s.l1Quad b) phys
  s.setMem (if spad = [] then m else m.spadWrite 0 spad)

/-- Where a soft error in a register lies (R269). -/
def errOf (uid sid : Nat) : Tgt → ErrLoc
  | .vreg r L => .vreg uid sid r L
  | .ureg r => .ureg uid sid r
  | .pred _ L => .thread uid sid L
  | .slot L _ => .thread uid sid L

/-- Errors in the state of a block: its registers, state words, convergence registers and engine (R268). -/
def blockErr (uid : Nat) : ErrLoc → Bool
  | .vreg u _ _ _ | .ureg u _ _ | .thread u _ _ | .disp u _ _ _ | .plane u _ _ | .tile u _ _ | .checksum u _ _ => u == uid
  | .conv u _ | .fmode u _ | .istat u | .kreg u _ => u == uid
  | _ => false

/-- A write that covers a register's word clears its error (R269). -/
def MemSys.clearErrs (m : MemSys) (uid sid : Nat) (ws : List PWrite) : MemSys :=
  if m.errs.isEmpty then m
  else
    let hit := ws.filterMap fun w => match w with
      | .vreg r L _ => some (ErrLoc.vreg uid sid r L)
      | .ureg r _ => some (ErrLoc.ureg uid sid r)
      | _ => none
    { m with errs := m.errs.filter fun e => !hit.contains e.1 }

/-- Words written whole lose their errors (R269). -/
def State.errsGone (s : State) (p : ErrLoc → Bool) : State :=
  if s.mem.errs.isEmpty then s else s.setMem { s.mem with errs := s.mem.errs.filter fun e => !p e.1 }

/-- Display registers of a strand written whole: pairs of a register and a lane (R268, R269). -/
def State.dispGone (s : State) (uid sid : Nat) (p : Nat → Nat → Bool) : State :=
  s.errsGone fun e => match e with
    | .disp u t n L => u == uid && t == sid && p n L
    | _ => false

/-- A read of places finds the soft errors in them (R269, R275, R278, R285). -/
def State.scanErrs (s : State) (via : Via) (locs : List Loc) : State :=
  if s.mem.errs.isEmpty then s
  else
    s.setMem ((s.mem.errs.filter fun e => s.mem.finds via locs e.1).foldl
      (fun m e => m.found (fun c => (s.core c).spown) e) s.mem)

/-- The L1s that a block's loads go through (R279). -/
def State.via (s : State) (b : Block) : Via := fun pa => some (s.l1Quad b pa)

/-- A load by a block finds errors, and whether it meets poison. -/
def State.scanLoad (s : State) (b : Block) (locs : List Loc) : State := s.scanErrs (s.via b) locs
def State.loadBad (s : State) (b : Block) (locs : List Loc) : Bool := s.mem.badVia (s.via b) locs

/-- The places of a line. -/
def lineLocs (line : Nat) : List Loc := (List.range lineBytes).map fun i => .phys (line * lineBytes + i)

/-- A read at the homes. -/
def State.scanHome (s : State) (locs : List Loc) : State := s.scanErrs atHome locs

/-- The bytes that slot writes store: a lane's slot or slot pair at a time (R209). -/
def slotStores : List PWrite → List (Nat × List (Loc × Byte))
  | [] => []
  | .slot L loc v :: ws =>
    let bs := (loc.span 4).zip (leBytes 4 v.toNat)
    match slotStores ws with
    | (M, cs) :: rest => if M = L then (L, bs ++ cs) :: rest else (L, bs) :: (M, cs) :: rest
    | [] => [(L, bs)]
  | _ :: ws => slotStores ws

/-- Perform writes of one strand: registers, then slots in the order given (R209). -/
def State.applyWrites (s : State) (b : Block) (sid : Nat) (ws : List PWrite) : State :=
  let s := (s.updStrand b.uid sid fun st => ws.foldl Strand.applyWrite st).setMem (s.mem.clearErrs b.uid sid ws)
  (slotStores ws).foldl (fun s r => s.storeLocs b r.2) s

/-- Whether a destination belongs to lanes: a uniform register to any. -/
def Tgt.inLanes (t : Tgt) (m : Lanes) : Bool :=
  match t with
  | .vreg _ L => m.getLsbD L
  | .ureg _ => true
  | .pred _ L => m.getLsbD L
  | .slot L _ => m.getLsbD L

/-- A convergent write that a strand's lanes signed before place k of the issue order loses its destinations. -/
def Capture.overtaken (c : Capture) (sid k : Nat) (ts : List Tgt) : Capture :=
  { c with
    dropped := c.dropped ++ (ts.filter fun t =>
      c.signers.any fun g => g.strand == sid && decide (g.seq < k) && t.inLanes g.lanes).map fun t => (sid, t) }

/-- A write at place k of the issue order has been performed: whatever an earlier-issued write still in flight brings for
the same destinations is discarded when it arrives (R46, R81). -/
def Block.overtake (b : Block) (sid k : Nat) (ts : List Tgt) : Block :=
  let b := b.updStrand sid fun st =>
    { st with pendw := st.pendw.map fun p =>
        if p.id < k then { p with writes := p.writes.filter fun w => !ts.contains w.tgt } else p }
  { b with
    flight := b.flight.map fun o =>
      if o.strand == sid && decide (o.id < k) then { o with dropped := o.dropped ++ ts } else o
    eng := b.eng.map fun e => { e with queue := e.queue.map fun o => { o with cap := o.cap.overtaken sid k ts } }
    cvs := b.cvs.map fun kv => (kv.1, { kv.2 with cap := kv.2.cap.map fun c => c.overtaken sid k ts }) }

/-- The result of the instruction at place k of the issue order is written (R76, R81). -/
def State.writeResult (s : State) (b : Block) (sid k : Nat) (ws : List PWrite) : State :=
  (s.updBlock b.uid fun x => x.overtake sid k (ws.map PWrite.tgt)).applyWrites b sid ws

/-! ### Tokens (R36) -/

/-- Count of a token by the value of SETT, 1 to 4. -/
def Lane.tok (l : Lane) (sett : Nat) : Nat :=
  match sett with
  | 1 => l.t0
  | 2 => l.t1
  | 3 => l.t2
  | 4 => l.t3
  | _ => 0

def Lane.setTok (l : Lane) (sett v : Nat) : Lane :=
  match sett with
  | 1 => { l with t0 := v }
  | 2 => { l with t1 := v }
  | 3 => { l with t2 := v }
  | 4 => { l with t3 := v }
  | _ => l

/-- A token rises by one in every lane named. -/
def Strand.tokUp (st : Strand) (m : Lanes) (sett : Nat) : Strand :=
  if sett = 0 then st else st.updLanes m fun _ l => l.setTok sett (l.tok sett + 1)

/-- A token falls by one in every lane named that still lives. -/
def Strand.tokDown (st : Strand) (m : Lanes) (sett : Nat) : Strand :=
  if sett = 0 then st
  else st.updLanes m fun _ l => if l.live then l.setTok sett (l.tok sett - 1) else l

/-! ### Movement of fragments (R43 to R46, R76) -/

def maxOpt (a b : Option Nat) : Option Nat :=
  match a, b with
  | none, b => b
  | a, none => a
  | some x, some y => some (max x y)

/-- A fragment that a trap or an emulation has parked (R128, R320). -/
def Hold.parks : Hold → Bool
  | .emul _ => true
  | .parked => true
  | _ => false

/-- What holds a merged fragment: every fence of its lanes.  A wait, or a signature of a shared frame, is at the instruction
itself, which the merged fragment issues again (log 15, DEDUCED). -/
def Hold.join : Hold → Hold → Hold
  | .fence a, .fence b => .fence (a ++ b)
  | .fence a, _ => .fence a
  | _, .fence b => .fence b
  | _, _ => .free

/-- The merge of two fragments at one PC: the larger age, the longer STALL (R45); the longer NAP (log 15, DEDUCED). -/
def Frag.merge (f g : Frag) : Frag :=
  { lanes := f.lanes ||| g.lanes, pc := f.pc, age := max f.age g.age, stall := maxOpt f.stall g.stall,
    nap := maxOpt f.nap g.nap, hold := f.hold.join g.hold, pend := f.pend ++ g.pend }

/-- Whether two fragments merge: one PC, and neither parked (R45, R320). -/
def Frag.meets (f g : Frag) : Bool := f.pc == g.pc && !f.hold.parks && !g.hold.parks

/-- The token of a wait that its fragment will issue again falls. -/
def Strand.unwait (st : Strand) (f : Frag) : Strand :=
  match f.hold with
  | .barwait _ _ tok => st.tokDown f.lanes tok.toNat
  | .stgwait _ _ _ tok => st.tokDown f.lanes tok.toNat
  | _ => st

/-- The tokens of a held instruction that is given up fall. -/
def Strand.giveUp (st : Strand) (f : Frag) : Strand :=
  match f.hold with
  | .fence ws => ws.foldl (fun st w => st.tokDown w.lanes w.tok.toNat) st
  | _ => st.unwait f

/-- A fragment joins the strand's fragments: it merges with the one at its PC, if there is one (R45). -/
def Strand.join (st : Strand) (f : Frag) : Strand :=
  match st.frags.find? fun g => f.meets g with
  | some g => { (st.unwait f).unwait g with frags := f.merge g :: st.frags.filter fun x => x.lanes != g.lanes }
  | .none => { st with frags := f :: st.frags }

/-- Where the lanes of a fragment go: each lane's PC, grouped. -/
def groupByPc (lanes : Lanes) (pcOf : Nat → W64) : List (W64 × Lanes) :=
  ((lanesOf lanes).map pcOf).eraseDups.map fun pc => (pc, laneSet fun L => lanes.getLsbD L && pcOf L == pc)

/-- After an issue of `f`: its lanes but for `gone` stand at the PCs given, with age 0; every other fragment ages (R43 to
R45).  `stall` and `nap` are inherited by every piece (R76). -/
def Strand.move (st : Strand) (f : Frag) (gone : Lanes) (pcOf : Nat → W64) (stall nap : Option Nat) (hold : Hold) : Strand :=
  let rest := (st.frags.filter fun g => g.lanes != f.lanes).map fun g => { g with age := g.age + 1 }
  let pieces := (groupByPc (f.lanes &&& ~~~gone) pcOf).map fun p =>
    { lanes := p.2, pc := p.1, age := 0, stall := stall, nap := nap, hold := hold, pend := f.pend : Frag }
  pieces.foldl Strand.join { st with frags := rest }

/-- The fragment becomes free at a PC and may merge. -/
def Strand.release (st : Strand) (f : Frag) (pc : W64) : Strand :=
  ({ st with frags := st.frags.filter fun g => g.lanes != f.lanes } : Strand).join { f with pc := pc, hold := .free }

/-! ### Taking a trap (R316 to R322) -/

def Cause.code : Cause → Nat
  | .illegal => 0
  | .role => 1
  | .uniform => 2
  | .align => 3
  | .access => 4
  | .format => 5
  | .stack => 6
  | .frame => 7
  | .stallchk => 8
  | .diverge => 9
  | .accchk => 10
  | .ecc => 11
  | .lost => 12
  | .bkpt => 13
  | .trap => 14
  | .preempt => 15

def Trap.of (c : Cause) (lanes : Lanes) (addr : W64) (code : W32) : Trap :=
  { cause := c, lanes := lanes, addr := addr, code := code, word := 0 }

/-- R319, R316: an ILLEGAL reports the word. -/
def Trap.illegalWord (lanes : Lanes) (w : InstrWord) : Trap :=
  { cause := .illegal, lanes := lanes, addr := 0, code := 0, word := w }

/-- Bytes 0x10 to 0x1F of a record (R319). -/
def Trap.info (t : Trap) : InstrWord :=
  if t.cause = .illegal then t.word else BitVec.ofNat 128 (t.addr.toNat + t.code.toNat * 2 ^ 64)

def b2n (b : Bool) : Nat := if b then 1 else 0

/-- The 64 bytes of a record (R319). -/
def TrapRec.bytes (r : TrapRec) : List Byte :=
  leBytes 8 (r.tpc.toNat % 2 ^ 56 + r.cause.code * 2 ^ 56 + b2n r.engine * 2 ^ 60 + b2n r.step * 2 ^ 61 +
    b2n r.debug * 2 ^ 62 + b2n r.fatal * 2 ^ 63) ++
  leBytes 8 r.rpc.toNat ++ leBytes 16 r.info.toNat ++ leBytes 8 r.tlanes.toNat ++ leBytes 8 r.tfrag.toNat ++
  leBytes 8 r.tsibs.toNat ++ leBytes 4 r.tblk.toNat ++ leBytes 1 r.tstrand ++ leBytes 1 (r.tquad + 4 * r.tten) ++
  leBytes 2 r.tcore

/-- The resume PC (R319) (log 29, DEDUCED). -/
def resumePc (c : Cause) (engine : Bool) (tpc next : W64) : W64 :=
  match c with
  | .trap | .bkpt => tpc + 16
  | .preempt => 0
  | _ => if engine then next else BitVec.ofNat 64 (tpc.toNat % 2 ^ 56)

/-- The record of a trap in a fragment (R316, R319). -/
def trapRecord (b : Block) (sid : Nat) (f : Frag) (t : Trap) (tpc : W64) (engine : Bool) : TrapRec :=
  { cause := t.cause, tpc := tpc, engine := engine, step := false, debug := false, fatal := false,
    rpc := resumePc t.cause engine tpc f.pc, info := t.info, tlanes := t.lanes, tfrag := f.lanes,
    tsibs := (b.strand sid).live &&& ~~~f.lanes, tblk := BitVec.ofNat 32 b.idx, tstrand := sid, tquad := b.quad,
    tten := b.ten, tcore := b.core }

/-- Fields of a tenant's trap descriptor (R317); a descriptor that cannot be read counts as zeros (log 16, DESIGN CHOICE). -/
def State.trapDesc (s : State) (ten off n : Nat) : Nat :=
  let q := s.quota ten
  match va56 q.trapdesc with
  | some va => if q.trapdesc = 0 then 0 else (s.vaNum ten q.spasid (va + off) n).getD 0
  | none => 0

/-- A write of a field of the descriptor. -/
def State.setTrapDesc (s : State) (ten off n v : Nat) : State :=
  let q := s.quota ten
  match va56 q.trapdesc with
  | some va => if q.trapdesc = 0 then s else s.vaWrite ten q.spasid (va + off) (leBytes n v)
  | none => s

/-- How a trap goes on once its record is written (R320). -/
inductive Delivery where
  | fatal | debug | handler (pc : W64) | skip
deriving DecidableEq, Repr

/-- R320: a trap in a handler is fatal, then BKPT under ATTACH, the handler, a BKPT that is counted, else fatal.  The handler stands at
the low 56 bits of HANDVA, whatever its other bits and its alignment (log 95, DESIGN CHOICE). -/
def State.delivery (s : State) (b : Block) (sid : Nat) (f : Frag) (c : Cause) : Delivery :=
  let inHandler := (lanesOf f.lanes).any fun L => ((b.strand sid).lane L).traprec != 0
  let hand := s.trapDesc b.ten 0 8
  if inHandler then .fatal
  else if c = .bkpt ∧ s.trapDesc b.ten 0x0B 1 % 2 = 1 then .debug
  else if hand ≠ 0 ∧ s.trapDesc b.ten 8 2 / 2 ^ c.code % 2 = 1 then .handler (BitVec.ofNat 64 (hand % 2 ^ 56))
  else if c = .bkpt then .skip
  else .fatal

/-- The fragment leaves its place for a PC, its STALL and NAP running on (R76); the delivery counts as an issue of the strand (R44). -/
def State.trapMove (s : State) (b : Block) (sid : Nat) (f : Frag) (pc : W64) (hold : Hold) (traprec : Option W64) : State :=
  s.updStrand b.uid sid fun st =>
    let st := match traprec with
      | some va => st.updLanes f.lanes fun _ l => { l with traprec := va }
      | none => st
    { st.move f 0 (fun _ => pc) f.stall f.nap hold with last := s.cycle }

/-- The one instruction of a STEP has issued (R329). -/
def Mode.fire : Mode → Mode
  | .stepping sid lane slot rec _ held => .stepping sid lane slot rec true held
  | m => m

/-- A BKPT under ATTACH: the debug save comes, with the record of the BKPT; a STEP's comes anyway (R320, R328). -/
def Mode.brk (rec : TrapRec) : Mode → Mode
  | .stepping sid lane slot r fired held => .stepping sid lane slot r fired held
  | _ => .breakpoint (some rec)

/-- The issue of a quadrant is spent (R47), and with it that of a STEP. -/
def State.spendIssue (s : State) (b : Block) : State :=
  let c := s.core b.core
  (s.setCore b.core { c with lastIssue := c.lastIssue.put b.quad s.cycle }).updBlock b.uid fun x =>
    { x with mode := x.mode.fire }

/-- The trap record of a fragment written to its slot: a device write, before which the block's own copies of those lines go, so
that a handler's next load reads the record (R318, R320; log 84, DEDUCED). -/
def State.putRecord (s : State) (b : Block) (va : Nat) (bs : List Byte) : State :=
  let s := s.vaWrite b.ten (s.spasid b) va bs
  match s.vaLocs none b.ten (s.spasid b) va bs.length .write with
  | none => s
  | some l => s.setMem (l.foldl (fun m pa => m.dropRemote (s.l1Quad b pa) (lineOf pa)) s.mem)

/-- TAKING A TRAP (R320): the record is written to the fragment's slot of the trap area, and the fragment goes to the
handler, to the debugger, past a BKPT that nobody takes, or ends its block.  After a BKPT under ATTACH it stands at its resume PC, past
the BKPT (log 98, DESIGN CHOICE). -/
def State.deliverTrap (s : State) (b : Block) (sid : Nat) (f : Frag) (t : Trap) (tpc : W64) (engine : Bool) : State :=
  let rec0 := trapRecord b sid f t tpc engine
  let va := b.trapVa sid + 64 * lowest f.lanes
  let s := (s.putRecord b va rec0.bytes).spendIssue b
  match s.delivery b sid f t.cause with
  | .fatal =>
    (s.trapMove b sid f f.pc .parked none).updBlock b.uid fun x =>
      { x with fatal := x.fatal.orElse fun _ => some { rec0 with fatal := true } }
  | .debug =>
    (s.trapMove b sid f rec0.rpc .free none).updBlock b.uid fun x => { x with mode := x.mode.brk rec0 }
  | .handler pc => s.trapMove b sid f pc .free (some (BitVec.ofNat 64 va))
  | .skip =>
    (s.setTrapDesc b.ten 0x24 4 (s.trapDesc b.ten 0x24 4 + 1)).trapMove b sid f rec0.rpc .free none

/-- The physical bytes of RPC in the record at a lane's %traprec (R318, R321). -/
def State.rpcPlaces (s : State) (b : Block) (sid L : Nat) : List Nat :=
  match va56 (((b.strand sid).lane L).traprec) with
  | some va => (s.vaLocs (some b.quadId) b.ten (s.spasid b) (va + 8) 8 .read).getD []
  | none => []

/-- RETURNING FROM A TRAP (R321): where TRET sends a lane, as a load of RPC in the record at its %traprec binds it (a handler
may have rewritten it). -/
def State.trapReturn (s : State) (b : Block) (sid L : Nat) : W64 :=
  BitVec.ofNat 64 (leNum ((s.rpcPlaces b sid L).map fun pa => s.mem.readLoc (s.l1Quad b pa) (.phys pa)))

/-! ### Operations in flight -/

/-- Append an operation; its number is its place in issue order. -/
def State.pushOp (s : State) (uid : Nat) (o : Op) : State :=
  { s.updBlock uid fun b => { b with flight := b.flight ++ [{ o with id := s.nextId }] } with nextId := s.nextId + 1 }

def Block.op (b : Block) (id : Nat) : Option Op := b.flight.find? fun o => o.id == id

def Block.putOp (b : Block) (o : Op) : Block := { b with flight := b.flight.map fun x => if x.id == o.id then o else x }

def Block.dropOp (b : Block) (id : Nat) : Block := { b with flight := b.flight.filter fun o => o.id != id }

/-- An operation completes: it leaves, and its token falls in its lanes (R36). -/
def State.completeOp (s : State) (uid : Nat) (o : Op) : State :=
  s.updBlock uid fun b => (b.dropOp o.id).updStrand o.strand fun st => st.tokDown o.lanes o.tok.toNat

/-- Add to a wrapping 32-bit event counter of a core (R127). -/
def State.countSite (s : State) (core idx : Nat) : State :=
  let c := s.core core
  s.setCore core { c with siteCtr := c.siteCtr.upd 0 idx (· + 1) }

/-- Add to a wrapping 32-bit counter of a quadrant (R271). -/
def State.countQuad (s : State) (core quad idx : Nat) : State := s.setMem (s.mem.countErr (quadId core quad) idx)

end Sys2Proof.Machine
end

