-- ==== Sys2Proof/Machine/Route.lean ====
section
/-!
DEFINITION. What a request meets on its way to a home: the slot of the calendar, its tenant's rate limiter, the link between
two dies (R332, R334, R336, R338, R370).
-/
namespace Sys2Proof
open Machine

namespace Machine

/-! ### The calendar (R334, R335) -/

def slotOf (cycle : Nat) : Nat := cycle % Config.slots

def entryClass (e : Byte) : Nat := e.toNat / 64
def entryTenant (e : Byte) : Nat := e.toNat % 32

/-- An idle entry: what an unlisted slot of a table holds (log 34, DESIGN CHOICE). -/
abbrev idleEntry : Byte := 0x80

def tableEntry (t : SMap Byte) (slot : Nat) : Byte := t.get idleEntry slot

def enabledTenants (q : SMap QEntry) : List Nat := (q.filter fun kv => kv.2.enable).map (·.1)

/-- Calendar mode: two or more tenants are enabled. -/
def State.calendarMode (s : State) : Bool := decide (2 ≤ (enabledTenants s.host.quota).length)

/-- Whether a class may use the slot of a cycle; outside calendar mode every slot serves. -/
def State.slotAllows (s : State) (c : FlitClass) : Bool :=
  let e := tableEntry s.fab.table (slotOf s.cycle)
  !s.calendarMode ||
  (match c with
    | .tenant t => entryClass e == 0 && entryTenant e == t
    | .service => entryClass e == 1)

/-! ### Rate limiters (R338, R370) -/

/-- The tokens of a tenant at a core: full until it has spent some. -/
def Core.tokens (c : Core) (ten burst : Nat) : Nat := (c.buckets.find ten).getD burst

/-- A new request of the tenant may be injected: the limiter has a token, and the dirty log is not low; copies already started and
engine operations already issued go on under LOW (R374). -/
def State.mayInject (s : State) (core ten : Nat) (goesOn : Bool) : Bool :=
  let q := s.quota ten
  (q.rate == 0 || decide (0 < (s.core core).tokens ten q.burst)) && (goesOn || !s.host.low.contains ten)

def State.takeToken (s : State) (core ten : Nat) : State :=
  let q := s.quota ten
  if q.rate = 0 then s
  else
    let c := s.core core
    s.setCore core { c with buckets := c.buckets.put ten (c.tokens ten q.burst - 1) }

/-! ### Links between dies (R332) -/

/-- The pair of dies that a request crosses, in ascending order; `none` on one die or outside the module. -/
def crossing (core pa : Nat) : Option (Nat × Nat) :=
  let a := dieOfCore core
  let b := homeDie pa
  if !isHbm pa || a == b then none else some (min a b, max a b)

def State.linkIsDown (s : State) (x : Option (Nat × Nat)) : Bool :=
  match x with
  | some p => s.fab.linkDown.contains p
  | none => false

def Op.isReplaying (s : State) (uid : Nat) (o : Op) : Bool := s.fab.replays.any fun r => r.1 == uid && r.2.1 == o.id

/-- The link of a device request to host memory, by host physical address (R353). -/
def HostIf.linkOf (h : HostIf) (pa : Nat) : Nat := if h.link0 && h.link1 then pa / 4096 % 2 else if h.link1 then 1 else 0

/-- That link is up. -/
def HostIf.linkUp (h : HostIf) (pa : Nat) : Bool := if h.linkOf pa = 0 then h.link0 else h.link1

/-- The link of a host address is up; other addresses need none (R353). -/
def State.hostUp (s : State) (pa : Nat) : Bool := paSpace pa != 1 || s.host.linkUp pa

/-- The slice holds a host line, owned for a write, and its link is up (R238, R242, R353). -/
def State.hostHas (s : State) (write : Bool) (pa : Nat) : Bool :=
  paSpace pa != 1 || s.host.linkUp pa && (match s.mem.hostLines.find (lineOf pa) with
    | some owned => owned || !write
    | none => false)

def Stage.isAccepted : Stage → Bool
  | .accepted => true
  | _ => false

/-! ### A request that is sent and answered in one step -/

/-- Nothing bounds a tenant's requests: no calendar, no limiter, no link that retrains. -/
def State.openRoad (s : State) (ten : Nat) : Bool :=
  !s.calendarMode && s.fab.linkDown.isEmpty && (s.quota ten).rate == 0 && !s.host.low.contains ten

/-- A new request of a tenant to an address may enter the fabric in this cycle. -/
def State.maySend (s : State) (core ten pa : Nat) (goesOn : Bool) : Bool :=
  s.slotAllows (.tenant ten) && s.mayInject core ten goesOn && !s.linkIsDown (crossing core pa)

/-! ### Requests beside those of lanes' accesses (R336, R337, R370; log 55, DEDUCED) -/

/-- The request for a byte: of the line that holds it, or of its 64 bytes. -/
def Ask.of (owner : Nat) (goesOn write : Bool) (pa : Nat) : Ask :=
  { owner := owner, goesOn := goesOn, write := write, pa := if write then pa / 64 * 64 else pa / lineBytes * lineBytes }

def OpKind.ask : OpKind → Option Ask
  | .request a => some a
  | _ => none

def Op.isRequest (o : Op) : Bool := o.kind.ask.isSome

/-- The operations in flight of the block's instructions. -/
def Block.work (b : Block) : List Op := b.flight.filter fun o => !o.isRequest

/-- The home answers a request now: nothing bounds the tenant's requests to it, or it has accepted it and the reply rides a service
slot and is not being sent again. -/
def State.reached (s : State) (b : Block) (a : Ask) : Bool :=
  (isHbm a.pa && s.openRoad b.ten) ||
  (s.slotAllows .service && s.hostHas a.write a.pa && b.flight.any fun o =>
    o.kind.ask == some a && o.stage.isAccepted && !o.isReplaying s b.uid)

/-- The request has been sent. -/
def Block.asked (b : Block) (a : Ask) : Bool := b.flight.any fun o => o.kind.ask == some a

/-- Requests that have been answered leave. -/
def Block.answered (b : Block) (as : List Ask) : Block :=
  { b with flight := b.flight.filter fun o => match o.kind.ask with
      | some a => !as.contains a
      | none => true }

def State.closeAsks (s : State) (uid : Nat) (as : List Ask) : State := if as.isEmpty then s else s.updBlock uid fun b => b.answered as

/-- The requests for places in memory. -/
def asksFor (owner : Nat) (goesOn write : Bool) (locs : List Loc) : List Ask :=
  (locs.filterMap fun l => match l with
    | .phys pa => some (Ask.of owner goesOn write pa)
    | .spad _ _ => none).eraseDups

/-- The requests for words of frame slots, or of a trap record, that no L1 of the block serves or takes (R173, R276). -/
def State.slotAsks (s : State) (b : Block) (write : Bool) (locs : List Loc) : List Ask :=
  asksFor 0 false write (locs.filter fun l => match l with
    | .phys pa => !(if write then s.mem.l1Store (s.l1Quad b pa) pa 4 else s.mem.l1Valid (s.l1Quad b pa) pa)
    | .spad _ _ => false)

end Machine
end Sys2Proof
end

