-- ==== Sys2Proof/Machine/Usage.lean ====
section
/-!
DEFINITION. Which operands each instruction reads and writes, with their widths: one table, from which the allocation check
(R33), the display check (R35), the frame interlock (R78), the early-read check (R80), the role groups (R41) and the rule of
uniform destinations (R62) are derived.
-/
namespace Sys2Proof

/-- An operand in a value position, whether it is 64 bits wide, and whether only the lowest active lane's value is read. -/
structure Opd where
  op : Operand
  wide : Bool
  lead : Bool
deriving DecidableEq, Repr

/-- An operand read in every active lane. -/
def Opd.each (o : Operand) (wide : Bool) : Opd := ⟨o, wide, false⟩

/-- An operand read in the lowest active lane alone. -/
def Opd.one (o : Operand) (wide : Bool) : Opd := ⟨o, wide, true⟩

/-- What an instruction reads and writes: value operands, and predicates by number (the guard apart); `leadPreds` where it
reads predicates in the lowest active lane alone. -/
structure Use where
  reads : List Opd
  writes : List Opd
  predReads : List Nat
  predWrites : List Nat
  leadPreds : Bool
deriving DecidableEq, Repr

def Use.none : Use := { reads := [], writes := [], predReads := [], predWrites := [], leadPreds := false }

/-- Every value and predicate is read in the lowest active lane alone. -/
def Use.byLead (u : Use) : Use := { u with reads := u.reads.map fun o => { o with lead := true }, leadPreds := true }

/-- Values `rs` into the place `d`. -/
def Use.val (d : Opd) (rs : List Opd) : Use := { Use.none with reads := rs, writes := [d] }

/-- Values `rs` into predicate `p`. -/
def Use.toPred (p : Operand) (rs : List Opd) : Use := { Use.none with reads := rs, predWrites := [p.num] }

/-- Values only read. -/
def Use.only (rs : List Opd) : Use := { Use.none with reads := rs }

def Use.writesUniform (u : Use) : Bool := u.writes.any fun w => w.op.isUni

/-- All eight predicates (R147). -/
def allPreds : List Nat := [0, 1, 2, 3, 4, 5, 6, 7]

/-- Operands of format A whose sources all have the TYPE's width. -/
def AFmt.useN (f : AFmt) (n : Nat) : Use :=
  let w := f.ty.wide
  Use.val (.each f.ops.d w) ([.each f.ops.a w, .each f.ops.b w, .each f.ops.c w].take n)

/-- A load: its base pair and its data register (R67, R172). -/
def MaFmt.useLoad (f : MaFmt) (q : Bool) : Use := Use.val (.each f.ops.d (!q && f.fmt.wide)) [.each f.ops.a true]

/-- A store: its base pair, its data, the block number of STG.fwd (R67, R177). -/
def MaFmt.useStore (f : MaFmt) (q : Bool) : Use :=
  Use.only (.each f.ops.d true :: .each f.ops.a (!q && f.fmt.wide) :: (if f.fwd then [.each f.ops.b false] else []))

/-- The operands of an atomic's sub-operation (R185). -/
def MbFmt.values (f : MbFmt) : List Opd :=
  let w := f.ty.wide
  match f.sub.toNat with
  | 7 | 10 => [.each f.ops.b w, .each f.ops.c w]
  | 8 | 9 => [.each f.ops.c w]
  | _ => [.each f.ops.b w]

def MbFmt.useAtom (f : MbFmt) : Use :=
  let rs : List Opd := .each f.ops.a true :: f.values
  if f.sub == 10 then { Use.none with reads := rs, writes := [.each f.ops.c (f.ty.wide)], predWrites := [f.ops.d.num] }
  else Use.val (.each f.ops.d (f.ty.wide)) rs

def MbFmt.useRed (f : MbFmt) : Use := Use.only (.each f.ops.a true :: f.values)

/-- The control fields of a program instruction. -/
def Instr.ctl : Instr → Option Ctl
  | .nop c _ => some c
  | .bra c _ => some c
  | .brxa c _ => some c
  | .brx c _ => some c
  | .call c _ => some c
  | .ret c _ => some c
  | .exit c _ => some c
  | .trap c _ => some c
  | .bkpt c _ => some c
  | .tret c _ => some c
  | .nap c _ => some c
  | .srd c _ => some c
  | .swr c _ => some c
  | .spawn c _ => some c
  | .trace c _ => some c
  | .iadd c _ => some c
  | .isub c _ => some c
  | .imul c _ => some c
  | .imulh c _ => some c
  | .imad c _ => some c
  | .imin c _ => some c
  | .imax c _ => some c
  | .land c _ => some c
  | .lor c _ => some c
  | .lxor c _ => some c
  | .shl c _ => some c
  | .shr c _ => some c
  | .rot c _ => some c
  | .bfx c _ => some c
  | .bfi c _ => some c
  | .popc c _ => some c
  | .clz c _ => some c
  | .brev c _ => some c
  | .sel c _ => some c
  | .icmp c _ => some c
  | .lea c _ => some c
  | .mov c _ => some c
  | .movi c _ => some c
  | .pand c _ => some c
  | .pmov c _ => some c
  | .fadd c _ => some c
  | .fmul c _ => some c
  | .ffma c _ => some c
  | .fmin c _ => some c
  | .fmax c _ => some c
  | .fcmp c _ => some c
  | .fclass c _ => some c
  | .frcp c _ => some c
  | .frsq c _ => some c
  | .fsqrt c _ => some c
  | .fexp2 c _ => some c
  | .flog2 c _ => some c
  | .fsin c _ => some c
  | .fcos c _ => some c
  | .ftanh c _ => some c
  | .frnd c _ => some c
  | .fscale c _ => some c
  | .fdot2 c _ => some c
  | .cvt c _ => some c
  | .qsx c _ => some c
  | .qscale c _ => some c
  | .dqsx c _ => some c
  | .pack c _ => some c
  | .unpack c _ => some c
  | .shfl c _ => some c
  | .matchAny c _ => some c
  | .vote c _ => some c
  | .redux c _ => some c
  | .scan c _ => some c
  | .bcast c _ => some c
  | .lda c _ => some c
  | .sta c _ => some c
  | .ldg c _ => some c
  | .stg c _ => some c
  | .lds c _ => some c
  | .sts c _ => some c
  | .ldp c _ => some c
  | .stp c _ => some c
  | .ldk c _ => some c
  | .ldb c _ => some c
  | .pref c _ => some c
  | .cpa c _ => some c
  | .cpt c _ => some c
  | .fetchb c _ => some c
  | .codeinv c _ => some c
  | .siteclr c _ => some c
  | .siteclrPin c _ => some c
  | .atoma c _ => some c
  | .reda c _ => some c
  | .atomg c _ => some c
  | .atoms c _ => some c
  | .redg c _ => some c
  | .reds c _ => some c
  | .cvset c _ => some c
  | .barinit c _ => some c
  | .barexpect c _ => some c
  | .bararrive c _ => some c
  | .barwait c _ => some c
  | .bartry c _ => some c
  | .stginit c _ => some c
  | .stgwait c _ => some c
  | .stgarrive c _ => some c
  | .fence c _ => some c
  | .ctxst c _ => some c
  | .ctxld c _ => some c
  | .svdone c _ => some c
  | .fenter c _ => some c
  | .fleave c _ => some c
  | .bfenter c _ => some c
  | .bfleave c _ => some c
  | .cfenter c _ => some c
  | .cfleave c _ => some c
  | .fsync c _ => some c
  | .fatom c _ => some c
  | .dspr c _ => some c
  | .dspw c _ => some c
  | .mzero c _ => some c
  | .ldstat c _ => some c
  | .pswap c _ => some c
  | .mstream c _ => some c
  | .accld c _ => some c
  | .accst c _ => some c
  | .accchk c _ => some c
  | .accmov c _ => some c
  | .accplane c _ => some c
  | .miter c _ => some c
  | .kld c _ => some c
  | .kmov c _ => some c
  | _ => none

/-- Whether the instruction is of format A (R61). -/
def Instr.isFormatA : Instr → Bool
  | .iadd .. | .isub .. | .imul .. | .imulh .. | .imad .. | .imin .. | .imax .. | .land .. | .lor ..
  | .lxor .. | .shl .. | .shr .. | .rot .. | .bfx .. | .bfi .. | .popc .. | .clz .. | .brev ..
  | .sel .. | .icmp .. | .lea .. | .mov .. | .movi .. | .pand .. | .pmov .. | .fadd .. | .fmul ..
  | .ffma .. | .fmin .. | .fmax .. | .fcmp .. | .fclass .. | .frcp .. | .frsq .. | .fsqrt .. | .fexp2 ..
  | .flog2 .. | .fsin .. | .fcos .. | .ftanh .. | .frnd .. | .fscale .. | .fdot2 .. | .cvt .. | .qsx ..
  | .qscale .. | .dqsx .. | .pack .. | .unpack .. | .shfl .. | .matchAny .. | .vote .. | .redux .. | .scan ..
  | .bcast .. => true
  | _ => false

/-- The operands of each instruction, as its entry lists them. -/
def Instr.operands : Instr → Use
  | .brxa _ f | .brx _ f => Use.only [.each f.ops.a true]
  | .call _ f => Use.val (.each f.ops.d true) (if f.sub == 0 then [] else [.each f.ops.a true])
  | .ret _ f => Use.only [.each f.ops.a true]
  | .nap _ f | .swr _ f => Use.only [.each f.ops.a false]
  | .trace _ f => Use.only [.one f.ops.a false]
  | .srd _ f => Use.val (.each f.ops.d ([0x0F, 0x10, 0x12].contains f.sel.toNat)) []
  | .spawn _ f => Use.toPred f.ops.d [.each f.ops.a true, .each f.ops.b false]
  | .iadd _ f | .isub _ f | .imul _ f | .imulh _ f | .imin _ f | .imax _ f | .land _ f | .lor _ f | .lxor _ f => f.useN 2
  | .imad _ f | .ffma _ f => f.useN 3
  | .shl _ f | .shr _ f | .rot _ f | .bfx _ f | .fscale _ f =>
    Use.val (.each f.ops.d (f.ty.wide)) [.each f.ops.a (f.ty.wide), .each f.ops.b false]
  | .bfi _ f => Use.val (.each f.ops.d (f.ty.wide)) [.each f.ops.a (f.ty.wide), .each f.ops.b (f.ty.wide), .each f.ops.c false]
  | .popc _ f | .clz _ f | .fclass _ f => Use.val (.each f.ops.d false) [.each f.ops.a (f.ty.wide)]
  | .brev _ f | .mov _ f => f.useN 1
  | .sel _ f => { f.useN 2 with predReads := [f.ops.c.num] }
  | .icmp _ f | .fcmp _ f => Use.toPred f.ops.d [.each f.ops.a (f.ty.wide), .each f.ops.b (f.ty.wide)]
  | .lea _ f => Use.val (.each f.ops.d true) [.each f.ops.a true, .each f.ops.b false, .each f.ops.c false]
  -- a uniform register is read and written whole; of a pair only one half is written (R146)
  | .movi _ f => Use.val (.each f.ops.d true) ((if f.ops.d.isUni then [.each f.ops.d true] else []) ++ [.each f.ops.a false])
  | .pand _ f => { Use.none with predReads := [f.ops.a.num, f.ops.b.num], predWrites := [f.ops.d.num] }
  | .pmov _ f =>
    match f.sub.toNat with
    | 0 => { Use.none with predReads := [f.ops.a.num], predWrites := [f.ops.d.num] }
    | 1 => { Use.val (.each f.ops.d false) [] with predReads := allPreds }
    | _ => { Use.only [.each f.ops.a false] with predWrites := [0, 1, 2, 3, 4, 5, 6] }
  | .fadd _ f | .fmul _ f | .fmin _ f | .fmax _ f => f.useN 2
  | .frcp _ f | .frsq _ f | .fsqrt _ f | .fexp2 _ f | .flog2 _ f | .fsin _ f | .fcos _ f | .ftanh _ f | .frnd _ f =>
    f.useN 1
  | .fdot2 _ f => Use.val (.each f.ops.d false) [.each f.ops.a false, .each f.ops.b false, .each f.ops.c false]
  | .cvt _ f => Use.val (.each f.ops.d (f.ty.wide)) [.each f.ops.a (f.sty.wide)]
  | .qscale _ f => Use.val (.each f.ops.d false) [.each f.ops.a (f.sty.wide)]
  | .qsx _ f =>
    Use.val (.each f.ops.d false) (.each f.ops.a (f.sty.wide) :: (if f.sub.getLsbD 2 then [.each f.ops.b false] else []))
  | .dqsx _ f => Use.val (.each f.ops.d (f.ty.wide)) [.each f.ops.a false]
  | .pack _ f =>
    Use.val (.each f.ops.d false) ([.each f.ops.a false, .each f.ops.b false] ++ (if f.ty.elems == 2 then [] else [.each f.ops.c false]))
  | .unpack _ f => Use.val (.each f.ops.d false) [.each f.ops.a false]
  | .shfl _ f | .bcast _ f =>
    Use.val (.each f.ops.d (f.ty.wide)) [.each f.ops.a (f.ty.wide), .each f.ops.b false, .each f.ops.c (f.ty.wide)]
  | .matchAny _ f => Use.val (.each f.ops.d true) [.each f.ops.a (f.ty.wide)]
  | .vote _ f =>
    if f.sub == 3 then { Use.val (.each f.ops.d true) [] with predReads := [f.ops.a.num] }
    else { Use.none with predReads := [f.ops.a.num], predWrites := [f.ops.d.num] }
  | .redux _ f | .scan _ f => f.useN 1
  | .lda c f | .ldg c f | .lds c f | .ldp c f | .ldk c f => f.useLoad c.q
  -- with Q = 0 one address serves every lane (R176)
  | .ldb c f => if c.q then f.useLoad true else { f.useLoad false with reads := [.one f.ops.a true] }
  | .sta c f | .stg c f | .sts c f | .stp c f => f.useStore c.q
  | .pref _ f | .codeinv _ f | .siteclr _ f | .siteclrPin _ f => Use.only [.each f.ops.d true]
  | .cpa _ f =>
    Use.only ([.each f.ops.d true, .each f.ops.a true, .each f.ops.b false] ++ (if f.ops.c.unused then [] else [.each f.ops.c true]))
  | .cpt _ f =>
    Use.only ([.each f.ops.d true, .each f.ops.a true, .each f.ops.b true] ++ (if f.ops.c.unused then [] else [.each f.ops.c true]))
  | .atoma _ f | .atomg _ f | .atoms _ f => f.useAtom
  | .reda _ f | .redg _ f | .reds _ f => f.useRed
  | .cvset _ f => Use.only (if f.sub == 0 then [.one f.ops.a true, .one f.ops.b false] else [])
  | .barinit _ f | .barexpect _ f => Use.only [.each f.ops.a true, .one f.ops.b false]
  | .barwait _ f => Use.only [.each f.ops.a true, .each f.ops.b false]
  | .bararrive _ f => Use.only [.each f.ops.a true]
  | .bartry _ f => Use.toPred f.ops.d [.each f.ops.a true, .each f.ops.b false]
  | .stginit _ f => Use.only [.each f.ops.a true, .one f.ops.b false, .one f.ops.c false]
  | .stgwait _ f => Use.only [.each f.ops.a true, .each f.ops.b false]
  | .stgarrive _ f =>
    Use.only ([.each f.ops.a true, .each f.ops.b false] ++ (if f.ops.c.unused then [] else [.one f.ops.c false]))
  -- classes 0, 2 and 3 move lanes, the others the state once (R233)
  | .ctxst _ f | .ctxld _ f =>
    let u := Use.only [.each f.ops.a true, .each f.ops.b false, .each f.ops.c false]
    if f.sub == 0 || f.sub == 2 || f.sub == 3 then u else u.byLead
  | .fenter _ f => Use.only [.each f.ops.a false]
  | .fatom _ f =>
    let rs : List Opd := [.each f.ops.a (f.ty.wide), .each f.ops.b (f.ty.wide)]
    if f.ops.d.unused then Use.only rs else Use.val (.each f.ops.d (f.ty.wide)) rs
  | .dspr _ f => Use.val (.each f.ops.d true) (if f.sub == 0 then [] else [.each f.ops.a false])
  | .dspw _ f => Use.only (.each f.ops.a true :: (if f.sub == 0 then [] else [.each f.ops.b false]))
  | .ldstat _ f => Use.only [.each f.ops.a true]
  | .mstream _ f | .accst _ f | .kld _ f => Use.only [.each f.ops.a true, .one f.ops.b false]
  | .accmov _ f => Use.only [.one f.ops.b false]
  | .accld _ f => Use.val (.each f.ops.d (f.fmt.wide)) [.each f.ops.b false]
  | .kmov _ f => Use.only [.each f.ops.a true]
  | .miter _ f => { Use.none with predWrites := [f.ops.b.num] }
  | _ => Use.none

/-- The convergence register that a convergent engine instruction signs (R49, R216). -/
def Instr.convReg : Instr → Option Nat
  | .mzero _ f | .pswap _ f | .accchk _ f | .accplane _ f | .ldstat _ f | .mstream _ f | .accst _ f | .accmov _ f | .miter _ f
  | .kld _ f | .kmov _ f => some f.ops.c.num
  | _ => none

/-- Instructions whose values follow the strand's FMODE, or that read it (R37). -/
def Instr.readsFmode : Instr → Bool
  | .fadd .. | .fmul .. | .ffma .. | .fmin .. | .fmax .. | .fcmp .. | .frcp .. | .frsq .. | .fsqrt .. | .fexp2 ..
  | .flog2 .. | .fsin .. | .fcos .. | .ftanh .. | .frnd .. | .fscale .. | .fdot2 .. | .cvt .. => true
  | .srd _ f => f.sel == 0x00E
  | _ => false

/-- VOTE.ballot into a uniform register reads its predicate in every member (R164). -/
def Instr.isBallot : Instr → Bool
  | .vote _ f => f.sub == 3
  | _ => false

/-- The operands of each instruction: on the uniform datapath the lowest active lane's alone are read (R130). -/
def Instr.use (i : Instr) : Use :=
  if i.isFormatA && i.operands.writesUniform && !i.isBallot then i.operands.byLead else i.operands

end Sys2Proof
end

