-- ==== Sys2Proof/Machine/Admit.lean ====
section
/-!
DEFINITION. Which instructions the spec admits, as far as the word alone decides it (R56 to R61, R67 to R72, R82 and the
entries' tables).  What depends on the running block (allocation, engine need, strand width) is checked at issue, in
Machine/Issue.lean.
-/
namespace Sys2Proof

/-! ### IMM/MOD -/

def Ops.immWords (o : Ops) : Nat :=
  [o.d, o.a, o.b, o.c].countP (· == .immWord)

/-- IMM/MOD is free for one operand, and zero when no operand takes it, also beside a small immediate (R57, R58, R82; log 75,
DESIGN CHOICE). -/
def Ops.immFree (o : Ops) : Bool :=
  o.immWords ≤ 1 && (o.immWords == 1 || o.imm == 0)

/-- IMM/MOD holds an offset, packed operands or a modifier block (R58). -/
def Ops.immTaken (o : Ops) : Bool := o.immWords == 0

/-- The modifier block (R59). -/
structure Mods where
  rnd : BitVec 3
  scale : BitVec 4
  clamp : BitVec 2
  absC : Bool
  negC : Bool
  absB : Bool
  negB : Bool
  absA : Bool
  negA : Bool
deriving DecidableEq, Repr

/-- No modifiers (R59). -/
def Mods.none : Mods :=
  { rnd := 0, scale := 0, clamp := 0, absC := false, negC := false, absB := false, negB := false, absA := false,
    negA := false }

def Mods.ofWord (w : W32) : Mods :=
  { rnd := w.extractLsb' 29 3, scale := w.extractLsb' 25 4, clamp := w.extractLsb' 23 2, absC := w.getLsbD 22,
    negC := w.getLsbD 21, absB := w.getLsbD 20, negB := w.getLsbD 19, absA := w.getLsbD 18, negA := w.getLsbD 17 }

/-- Which modifiers an entry admits (R60, R148). -/
structure ModSet where
  a : Bool
  b : Bool
  c : Bool
  rnd : Bool
  scale : Bool
  clamp : Bool
deriving DecidableEq, Repr

def ModSet.nothing : ModSet := { a := false, b := false, c := false, rnd := false, scale := false, clamp := false }
def ModSet.two : ModSet := { a := true, b := true, c := false, rnd := true, scale := true, clamp := true }
def ModSet.all : ModSet := { a := true, b := true, c := true, rnd := true, scale := true, clamp := true }
def ModSet.one : ModSet := { a := true, b := false, c := false, rnd := true, scale := true, clamp := true }
def ModSet.srcs : ModSet := { a := true, b := true, c := false, rnd := false, scale := false, clamp := false }

/-- The modifier word is one the entry admits: no reserved RND, no bit in 16:0, nothing the entry does not list. -/
def ModSet.admits (s : ModSet) (w : W32) : Bool :=
  let m := Mods.ofWord w
  m.rnd.toNat ≤ 5 && w.extractLsb' 0 17 == 0 &&
  (s.a || (!m.absA && !m.negA)) && (s.b || (!m.absB && !m.negB)) && (s.c || (!m.absC && !m.negC)) &&
  (s.rnd || m.rnd == 0) && (s.scale || m.scale == 0) && (s.clamp || m.clamp == 0)

/-- The IMM/MOD rule of format A: the modifier block with MODV = 1, an immediate without (R59, R60). -/
def AFmt.modOk (f : AFmt) (s : ModSet) : Bool :=
  if f.modv then s != .nothing && f.ops.immTaken && s.admits f.ops.imm else f.ops.immFree

/-- What format A always asks for. -/
def AFmt.base (f : AFmt) (subs : List Nat) (tys : List Ty) (stys : List Ty) (s : ModSet) : Bool :=
  subs.contains f.sub.toNat && tys.contains f.ty && stys.contains f.sty && f.modOk s

def intTys : List Ty := [.i32, .u32, .i64, .u64]
def bitTys : List Ty := [.b32, .b64]
def fpTys : List Ty := [.f64, .f32, .f16x2, .bf16x2]
def fp3Tys : List Ty := [.f32, .f16x2, .bf16x2]
def scalarTys : List Ty := [.f64, .f32, .f16, .bf16]
/-- STYPE code zero (R62). -/
def noSty : List Ty := [.i32]

/-- d, a, b, c of the TYPE's width, the last `n` of them unused. -/
def AFmt.regs (f : AFmt) (used : Nat) : Bool :=
  let w := f.ty.wide
  f.ops.d.place w && f.ops.a.src w &&
  (if used ≥ 2 then f.ops.b.src w else f.ops.b.unused) && (if used ≥ 3 then f.ops.c.src w else f.ops.c.unused)

/-- R143's three-operand form. -/
def AFmt.intBin (f : AFmt) (subs : List Nat) (tys : List Ty) : Bool :=
  f.base subs tys noSty .nothing && f.regs 2

/-- R148's one-source form. -/
def AFmt.fpUn (f : AFmt) (tys : List Ty) (s : ModSet) : Bool :=
  f.base [0] tys noSty s && f.regs 1

/-- The modifiers of a conversion (R155). -/
def cvtMods (t s : Ty) : ModSet :=
  match t.isInt, s.isInt with
  | true, true => .nothing
  | true, false => { ModSet.one with clamp := false }
  | false, true => { ModSet.one with a := false }
  | false, false => .one

def AFmt.shiftOk (f : AFmt) (subs : List Nat) (tys : List Ty) : Bool :=
  f.base subs tys noSty .nothing && f.ops.d.place f.ty.wide && f.ops.a.src f.ty.wide && f.ops.c.unused

/-! ### Format C, M, S and T -/

def CFmt.zero (f : CFmt) : Bool := f.depth == 0 && f.sel == 0

/-- SRCC, and the listed fields, hold 0x000 (R132). -/
def CFmt.noOps (f : CFmt) : Bool :=
  f.ops.d.unused && f.ops.a.unused && f.ops.b.unused && f.ops.c.unused && f.ops.imm == 0

/-- A direct target: SRCA = 0xE00 and a multiple of 16 in IMM (R65). -/
def Ops.direct (o : Ops) : Bool :=
  o.a == .immWord && o.immWords == 1 && o.imm.extractLsb' 0 4 == 0

/-- Orders that loads, stores and atomics admit (R70). -/
def Order.load : Order → Bool
  | .rlx | .acq | .sc => true
  | _ => false
def Order.store : Order → Bool
  | .rlx | .rel | .sc => true
  | _ => false

/-- Whether the data register of a load or store is a pair (R172). -/
def MaFmt.wide (q : Bool) (f : MaFmt) : Bool := !q && f.fmt.wide

/-- A load's operands (R67, R174): a uniform destination needs a uniform base. -/
def MaFmt.loadOk (f : MaFmt) (q : Bool) (zxOk : Bool) : Bool :=
  f.order.load && !f.fwd && (!f.zx || q || zxOk) && f.ops.immTaken && f.ops.a.pair &&
  f.ops.d.place (f.wide q) && (!f.ops.d.isUni || f.ops.a.isUni) && f.ops.b.unused && f.ops.c.unused

/-- A store's operands (R67, R174); SRCB names the consumer block of STG.fwd (R177). -/
def MaFmt.storeOk (f : MaFmt) (q : Bool) : Bool :=
  f.order.store && !f.zx && f.ops.immTaken && f.ops.d.pair && f.ops.a.src (f.wide q) && f.ops.c.unused &&
  (if f.fwd then f.order != .sc else f.ops.b.unused)

def MaFmt.scratchFmt (f : MaFmt) : Bool := f.fmt == .raw32 || f.fmt == .raw64
def MaFmt.privFmt (f : MaFmt) : Bool :=
  [Fmt.raw32, .raw64, .int32, .int64, .fp32, .fp64].contains f.fmt

/-- Types of an atomic's sub-operation (R185). -/
def atomTys (sub : Nat) : List Ty :=
  match sub with
  | 0 | 1 | 2 => [.i32, .u32, .i64, .u64, .f32, .f64]
  | 3 | 4 | 5 => intTys
  | 6 | 7 => [.i32, .u32, .i64, .u64, .f32, .f64]
  | 8 | 9 | 10 => [.u32, .u64]
  | _ => []

/-- SRCB and SRCC of an atomic (R185). -/
def MbFmt.valuesOk (f : MbFmt) : Bool :=
  let w := f.ty.wide
  match f.sub.toNat with
  | 7 => f.ops.b.src w && f.ops.c.src w
  | 8 | 9 => f.ops.b.unused && f.ops.c.src w
  | 10 => f.ops.b.src w && f.ops.c.laneplace w
  | _ => f.ops.b.src w && f.ops.c.unused

def MbFmt.atomOk (f : MbFmt) (clu : Bool) : Bool :=
  (atomTys f.sub.toNat).contains f.ty && (clu || !f.clu) && f.ops.immTaken && f.ops.a.pair && f.valuesOk &&
  (if f.sub == 10 then f.ops.d.isPred else f.ops.d.laneplace f.ty.wide)

def MbFmt.redOk (f : MbFmt) (clu : Bool) : Bool :=
  (atomTys f.sub.toNat).contains f.ty && !([6, 7, 10].contains f.sub.toNat) && f.order.store && (clu || !f.clu) &&
  f.ops.immTaken && f.ops.a.pair && f.valuesOk && f.ops.d.unused

/-- A barrier operand of a copy: a pair, or 0x000 for none (R181). -/
def Operand.barrier (o : Operand) : Bool := o.unused || o.pair

def SFmt.plain (f : SFmt) : Bool := f.order == .rlx && f.ty == .i32
def SFmt.zero (f : SFmt) : Bool := f.plain && f.sd == 0
def SFmt.noOps (f : SFmt) : Bool :=
  f.ops.d.unused && f.ops.a.unused && f.ops.b.unused && f.ops.c.unused && f.ops.imm == 0

/-- Plane formats (R217). -/
def planeFmts : List Fmt := [.fp32, .fp16, .bf16, .e4m3, .e5m2, .int8, .sx5, .sx8, .int4, .sx3]
/-- Streamed formats (R217). -/
def streamFmts : List Fmt := [.fp64, .fp32, .fp16, .bf16, .e4m3, .e5m2, .int8, .int4, .sx3, .sx5, .sx8]

/-- What format T always asks for: SRCC names the convergence register of a convergent instruction (R216). -/
def TFmt.conv (f : TFmt) (subs : List Nat) : Bool :=
  subs.contains f.sub.toNat && f.ops.c.isCv && f.ops.immFree

def TFmt.noFlags (f : TFmt) : Bool := !f.add && !f.int

/-! ### Each instruction -/

/-- The rules of SITE (R82): nonzero only in a family; Q = 1 only on a native member; PIN = 1 only on a generic word. -/
def Ctl.siteOk (c : Ctl) (generic native : Bool) : Bool :=
  if generic then !c.q else if native then !c.pin else !c.q && !c.pin && c.flips == 0

def Ctl.settOk (c : Ctl) : Bool := c.sett.toNat ≤ 4

/-- Whether the opcode is the generic word of a family, or a native member (R74). -/
def Instr.isGeneric : Instr → Bool
  | .lda .. | .sta .. | .atoma .. | .reda .. | .brxa .. => true
  | _ => false

def Instr.isNative : Instr → Bool
  | .ldg .. | .ldk .. | .lds .. | .ldp .. | .ldb .. | .stg .. | .sts .. | .stp .. | .atomg .. | .atoms .. | .redg ..
  | .reds .. | .brx .. => true
  | _ => false

/-- What the entry of each instruction admits in its fields.  The device steps have no word and admit everything. -/
def Instr.entryOk : Instr → Bool
  -- R132
  | .nop _ f | .exit _ f | .tret _ f => f.sub == 0 && f.zero && f.noOps
  | .bra _ f => f.sub == 0 && f.zero && f.ops.d.unused && f.ops.direct && f.ops.b.unused && f.ops.c.unused
  | .brxa _ f | .brx _ f =>
    f.sub == 0 && f.zero && f.ops.d.unused && f.ops.a.pair && f.ops.b.unused && f.ops.c.unused && f.ops.imm == 0
  | .call _ f =>
    (f.sub == 0 || f.sub == 1) && 3 ≤ f.depth.toNat && f.sel == 0 && f.ops.d.laneplace true &&
    (if f.sub == 0 then f.ops.direct else f.ops.a.pair && f.ops.imm == 0) && f.ops.b.unused && f.ops.c.unused
  | .ret _ f =>
    f.sub == 0 && f.zero && f.ops.d.unused && f.ops.a.laneplace true && f.ops.b.unused && f.ops.c.unused &&
    f.ops.imm == 0
  | .trap _ f | .bkpt _ f =>
    f.sub == 0 && f.zero && f.ops.d.unused && f.ops.a.unused && f.ops.b.unused && f.ops.c.unused &&
    f.ops.imm.extractLsb' 16 16 == 0
  | .nap _ f =>
    f.sub == 0 && f.zero && f.ops.d.unused && (f.ops.a.isUni || f.ops.a.isImm) && f.ops.b.unused && f.ops.c.unused &&
    f.ops.immFree
  | .srd _ f =>
    let wide := [0x0F, 0x10, 0x12].contains f.sel.toNat
    f.sub == 0 && f.depth == 0 && f.sel.toNat ≤ 0x12 && (f.ops.d.isVec || f.ops.d.isUni) && f.ops.d.src wide &&
    !(f.ops.d.isUni && (f.sel == 0 || f.sel == 3)) && f.ops.a.unused && f.ops.b.unused && f.ops.c.unused &&
    f.ops.imm == 0
  | .swr _ f =>
    f.sub == 0 && f.depth == 0 && f.sel == 0x0E && f.ops.d.unused && (f.ops.a.isUni || f.ops.a.isImm) &&
    f.ops.b.unused && f.ops.c.unused && f.ops.immFree
  | .spawn _ f => f.sub == 0 && f.zero && f.ops.d.isPred && f.ops.a.pair && f.ops.c.unused &&
    f.ops.imm == 0
  | .trace _ f =>
    f.sub == 0 && f.zero && f.ops.d.unused && f.ops.immTaken && f.ops.b.unused && f.ops.c.unused &&
    f.ops.imm.extractLsb' 16 16 == 0
  -- R143 to R147
  | .iadd _ f | .isub _ f => f.intBin [0, 1] intTys
  | .imul _ f | .imulh _ f | .imin _ f | .imax _ f => f.intBin [0] intTys
  | .imad _ f => f.base [0] intTys noSty .nothing && f.regs 3
  | .land _ f | .lor _ f | .lxor _ f => f.intBin [0, 1] bitTys
  | .shl _ f => f.shiftOk [0] bitTys
  | .shr _ f => f.shiftOk [0] intTys
  | .rot _ f => f.shiftOk [0, 1] bitTys
  | .bfx _ f => f.shiftOk [0] intTys
  | .bfi _ f =>
    f.base [0] bitTys noSty .nothing && f.ops.d.place f.ty.wide && f.ops.a.src f.ty.wide && f.ops.b.src f.ty.wide
  | .popc _ f | .clz _ f =>
    f.base [0] bitTys noSty .nothing && f.ops.d.place false && f.ops.a.src f.ty.wide && f.ops.b.unused && f.ops.c.unused
  | .brev _ f | .mov _ f => f.base [0] bitTys noSty .nothing && f.regs 1
  | .sel _ f => f.base [0] bitTys noSty .nothing && f.ops.d.place f.ty.wide && f.ops.a.src f.ty.wide &&
    f.ops.b.src f.ty.wide && f.ops.c.isPred
  | .icmp _ f => f.base [0, 1, 2, 3, 4, 5] intTys noSty .nothing && f.ops.d.isPred && f.ops.a.src f.ty.wide &&
    f.ops.b.src f.ty.wide && f.ops.c.unused
  | .lea _ f => f.base [0] [.i64, .u64] noSty .nothing && f.ops.d.place true && f.ops.a.src true
  | .movi _ f => f.base [0, 1] [.b64] noSty .nothing && f.ops.d.place true && f.ops.a.isImm && f.ops.b.unused &&
    f.ops.c.unused
  | .pand _ f => f.base [0, 1, 2, 3, 4] [.b32] noSty .nothing && f.ops.d.isPred && f.ops.a.isPred && f.ops.b.isPred &&
    f.ops.c.unused
  | .pmov _ f =>
    f.base [0, 1, 2] [.b32] noSty .nothing && f.ops.b.unused && f.ops.c.unused &&
    (match f.sub.toNat with
      | 0 => f.ops.d.isPred && f.ops.a.isPred
      | 1 => f.ops.d.place false && f.ops.a.unused
      | _ => f.ops.d.unused)
  -- R148 to R154
  | .fadd _ f | .fmul _ f => f.base [0] fpTys noSty .two && f.regs 2
  | .ffma _ f => f.base [0] fpTys noSty .all && f.regs 3
  | .fmin _ f | .fmax _ f => f.base [0] fpTys noSty .srcs && f.regs 2
  | .fcmp _ f =>
    f.base [0, 1, 2, 3, 4, 5, 6, 7] scalarTys noSty .srcs && f.ops.d.isPred && f.ops.a.src f.ty.wide &&
    f.ops.b.src f.ty.wide && f.ops.c.unused
  | .fclass _ f => f.base [0] scalarTys noSty .nothing && f.ops.d.place false && f.ops.a.src f.ty.wide &&
    f.ops.b.unused && f.ops.c.unused
  | .frcp _ f | .fsqrt _ f => f.fpUn fpTys .one
  | .frsq _ f | .fexp2 _ f | .flog2 _ f | .fsin _ f | .fcos _ f | .ftanh _ f => f.fpUn fp3Tys .one
  | .frnd _ f => f.fpUn fpTys { ModSet.one with scale := false }
  | .fscale _ f => f.base [0] fpTys noSty .one && f.ops.d.place f.ty.wide && f.ops.a.src f.ty.wide && f.ops.c.unused
  | .fdot2 _ f => f.base [0] [.f32] [.f16x2, .bf16x2] .all && f.ops.d.place false
  -- R155 to R160
  | .cvt _ f =>
    f.base [0, 1] (intTys ++ scalarTys) (intTys ++ scalarTys) (cvtMods f.ty f.sty) &&
    (f.sub == 0 || (f.ty.isInt && f.sty.isInt)) && f.ops.d.place f.ty.wide && f.ops.a.src f.sty.wide &&
    f.ops.b.unused && f.ops.c.unused
  | .qsx _ f =>
    f.base [0, 1, 2, 4, 5, 6] [.b32] scalarTys .nothing && f.ops.d.place false && f.ops.a.src f.sty.wide &&
    (f.sub.getLsbD 2 || f.ops.b.unused) && f.ops.c.unused
  | .qscale _ f => f.base [0, 1, 2] [.b32] scalarTys .nothing && f.ops.d.place false && f.ops.a.src f.sty.wide &&
    f.ops.b.unused && f.ops.c.unused
  | .dqsx _ f => f.base [0, 1, 2] scalarTys [.b32] .one && f.ops.d.place f.ty.wide && f.ops.b.unused && f.ops.c.unused
  | .pack _ f =>
    f.base [0, 1, 2, 3] [.f16x2, .bf16x2, .e4m3x4, .e5m2x4, .i8x4, .i4x8] [.f32, .i32]
      (if f.ty.packedFloat then .two else .nothing) &&
    f.sty == (if f.ty.packedFloat then .f32 else .i32) && 2 * f.sub.toNat < f.ty.elems && f.ops.d.place false &&
    (f.ty.elems != 2 || f.ops.c.unused)
  | .unpack _ f =>
    (if f.sty.packedFloat then f.ty == .f32 else f.ty == .i32 || f.ty == .u32) &&
    f.base [0, 1, 2, 3, 4, 5, 6, 7] [.f32, .i32, .u32] [.f16x2, .bf16x2, .e4m3x4, .e5m2x4, .i8x4, .i4x8] .nothing &&
    f.sub.toNat < f.sty.elems && f.ops.d.place false && f.ops.b.unused && f.ops.c.unused
  -- R162 to R167
  | .shfl _ f => f.base [0, 1, 2, 3] bitTys noSty .nothing && f.ops.d.laneplace f.ty.wide && f.ops.a.src f.ty.wide &&
    f.ops.c.src f.ty.wide
  | .matchAny _ f => f.base [0] bitTys noSty .nothing && f.ops.d.laneplace true && f.ops.a.src f.ty.wide &&
    f.ops.b.unused && f.ops.c.unused
  | .vote _ f =>
    f.base [0, 1, 2, 3] bitTys noSty .nothing && f.ops.a.isPred && f.ops.b.unused && f.ops.c.unused &&
    (if f.sub == 3 then f.ty == .b64 && f.ops.d.place true else f.ty == .b32 && f.ops.d.isPred)
  | .redux _ f =>
    (if f.sub.toNat ≤ 2 then f.ty == .f32 || f.ty.isInt else bitTys.contains f.ty) &&
    f.base [0, 1, 2, 3, 4, 5] (.f32 :: intTys ++ bitTys) noSty
      (if f.ty == .f32 && f.sub == 0 then { ModSet.nothing with rnd := true } else .nothing) &&
    f.ops.d.laneplace f.ty.wide && f.ops.a.src f.ty.wide && f.ops.b.unused && f.ops.c.unused
  | .scan _ f =>
    (if f.sub.toNat % 8 ≤ 2 then f.ty == .f32 || f.ty.isInt else bitTys.contains f.ty) &&
    f.base [0, 1, 2, 3, 4, 5, 8, 9, 10, 11, 12, 13] (.f32 :: intTys ++ bitTys) noSty .nothing &&
    f.ops.d.laneplace f.ty.wide && f.ops.a.src f.ty.wide && f.ops.b.unused && f.ops.c.unused
  | .bcast _ f => f.base [0] bitTys noSty .nothing && f.ops.d.laneplace f.ty.wide && f.ops.a.src f.ty.wide &&
    (f.ops.b.isUni || f.ops.b.isImm) && f.ops.c.src f.ty.wide
  -- R174
  | .lda c f => f.space == 0 && f.fmt == .raw32 && f.loadOk c.q true
  | .sta c f => f.space == 0 && f.fmt == .raw32 && f.storeOk c.q && !f.fwd
  | .ldg c f => f.space == 0 && f.loadOk c.q f.fmt.subByteInt
  | .stg c f => f.space == 0 && f.storeOk c.q
  | .lds c f => (f.space == 2 || f.space == 3) && f.scratchFmt && f.loadOk c.q false
  | .sts c f => (f.space == 2 || f.space == 3) && f.scratchFmt && f.storeOk c.q && !f.fwd
  | .ldp c f => f.space == 4 && f.privFmt && f.loadOk c.q false
  | .stp c f => f.space == 4 && f.privFmt && f.storeOk c.q && !f.fwd
  | .ldk c f => f.space == 1 && f.loadOk c.q f.fmt.subByteInt
  | .ldb c f => f.space.toNat ≤ 4 && (!(f.space == 2 || f.space == 3) || f.scratchFmt) && f.loadOk c.q f.fmt.subByteInt
  -- R179, R181, R198, R199, R126
  | .pref _ f => (f.sub == 0 || f.sub == 1) && f.fmt == .raw32 && f.ops.immTaken && f.ops.d.pair && f.ops.a.unused &&
    f.ops.b.unused && f.ops.c.unused
  | .cpa _ f => f.sub == 0 && f.fmt == .raw32 && f.ops.immFree && f.ops.d.pair && f.ops.a.pair && f.ops.c.barrier
  | .cpt _ f =>
    let rows := (f.ops.imm.extractLsb' 16 16).toNat
    let cols := (f.ops.imm.extractLsb' 0 16).toNat
    f.sub == 0 && f.ops.immTaken && f.ops.d.pair && f.ops.a.pair && f.ops.b.pair && f.ops.c.barrier &&
    1 ≤ rows && rows ≤ 256 && 1 ≤ cols && cols ≤ 4096
  | .fetchb _ f => f.sub == 0 && f.fmt == .raw32 && f.ops.d.unused && f.ops.a.unused && f.ops.b.unused &&
    f.ops.c.unused && f.ops.imm == 0
  | .codeinv _ f => f.sub == 0 && f.fmt == .raw32 && f.ops.d.pair && f.ops.a.unused && f.ops.b.unused && f.ops.c.unused
  | .siteclr _ f => f.sub == 0 && f.fmt == .raw32 && f.ops.d.pair && f.ops.a.unused && f.ops.b.unused && f.ops.c.unused
  | .siteclrPin _ f =>
    f.sub == 1 && f.fmt == .raw32 && f.ops.d.pair && f.ops.a.unused && f.ops.b.unused && f.ops.c.unused
  -- R185
  | .atoma _ f | .atomg _ f => f.atomOk false
  | .atoms _ f => f.atomOk true
  | .reda _ f | .redg _ f => f.redOk false
  | .reds _ f => f.redOk true
  -- R192
  | .cvset _ f =>
    f.zero && f.ops.d.isCv && f.ops.c.unused && f.ops.immFree &&
    (if f.sub == 0 then f.ops.a.src true else f.sub == 1 && f.ops.a.unused && f.ops.b.unused)
  | .barinit _ f | .barexpect _ f | .barwait _ f =>
    f.sub == 0 && f.zero && f.ops.d.unused && f.ops.a.pair && f.ops.c.unused && f.ops.immFree
  | .bararrive _ f => (f.sub == 0 || f.sub == 1) && f.zero && f.ops.d.unused && f.ops.a.pair && f.ops.b.unused &&
    f.ops.c.unused && f.ops.imm == 0
  | .bartry _ f => f.sub == 0 && f.zero && f.ops.d.isPred && f.ops.a.pair && f.ops.c.unused && f.ops.immFree
  | .stginit _ f => f.sub == 0 && f.zero && f.ops.d.unused && f.ops.a.pair && f.ops.immFree
  | .stgwait _ f => (f.sub == 0 || f.sub == 1) && f.zero && f.ops.d.unused && f.ops.a.pair && f.ops.c.unused &&
    f.ops.immFree
  | .stgarrive _ f => (f.sub == 0 || f.sub == 1) && f.zero && f.ops.d.unused && f.ops.a.pair && f.ops.immFree
  | .fence _ f => (f.sub == 0 || f.sub == 1) && f.plain && f.sd.toNat ≤ 4 && f.noOps
  -- R233, R234
  | .ctxst _ f | .ctxld _ f => f.sub.toNat ≤ 8 && f.zero && f.ops.d.unused && f.ops.a.pair && f.ops.immFree
  | .svdone _ f =>
    f.zero && f.ops.d.unused && f.ops.b.unused && f.ops.c.unused &&
    (if f.sub == 0 then f.ops.direct else f.sub == 1 && f.ops.a.unused && f.ops.imm == 0)
  -- R204
  | .fenter _ f => f.sub == 0 && f.zero && f.ops.d.unused && (f.ops.a.isUni || f.ops.a.isImm) && f.ops.b.unused &&
    f.ops.c.unused && f.ops.immFree
  | .fleave _ f | .bfenter _ f | .bfleave _ f | .cfenter _ f | .cfleave _ f => f.sub == 0 && f.zero && f.noOps
  | .fsync _ f => f.sub == 0 && f.plain && f.noOps
  | .fatom _ f =>
    f.sub.toNat ≤ 3 && f.order != .sc && [Ty.i32, .u32, .i64, .u64, .f32, .f64].contains f.ty &&
    (f.ops.d.unused || f.ops.d.laneplace f.ty.wide) &&
    (match f.ops.a with
      | .slot d _ => d == f.sd && f.ops.a.src f.ty.wide
      | _ => false) &&
    f.ops.b.src f.ty.wide && f.ops.c.unused && f.ops.immFree
  | .dspr _ f =>
    f.plain && f.ops.d.pair && f.ops.b.unused && f.ops.c.unused && f.ops.immFree &&
    (if f.sub == 0 then f.ops.a.unused else f.sub == 1 && f.sd == 0)
  | .dspw _ f =>
    f.plain && f.ops.d.unused && f.ops.a.pair && f.ops.c.unused && f.ops.immFree &&
    (if f.sub == 0 then 3 ≤ f.sd.toNat && f.ops.b.unused else f.sub == 1 && f.sd == 0)
  -- R216
  | .mzero _ f => f.conv [0] && f.fmt == .raw32 && !f.add && f.ops.d.isTile && f.ops.a.unused && f.ops.b.unused &&
    f.ops.imm == 0
  | .ldstat _ f => f.conv [0] && planeFmts.contains f.fmt && f.noFlags && f.ops.d.unused && f.ops.a.pair &&
    f.ops.b.unused && f.ops.imm == 0
  | .pswap _ f => f.conv [0] && f.fmt == .raw32 && f.noFlags && f.ops.d.unused && f.ops.a.unused && f.ops.b.unused &&
    f.ops.imm == 0
  | .mstream _ f => f.conv [0] && streamFmts.contains f.fmt && f.noFlags && f.ops.d.isTile && f.ops.a.pair
  | .accld _ f =>
    f.sub == 0 && [Fmt.int32, .int64, .fp16, .bf16, .fp32, .fp64].contains f.fmt && f.noFlags && f.ops.d.isVec &&
    f.ops.d.src f.fmt.wide && f.ops.a.isTile && f.ops.c.unused && f.ops.immFree
  | .accst _ f => f.conv [0] && f.fmt != .raw32 && f.fmt != .raw64 && !f.int && f.ops.d.isTile && f.ops.a.pair
  | .accchk _ f => f.conv [0] && f.fmt == .raw32 && f.noFlags && f.ops.d.isTile && f.ops.a.unused && f.ops.b.unused &&
    f.ops.imm == 0
  | .accmov _ f => f.conv [0, 1, 2] && f.fmt == .raw32 && f.noFlags && f.ops.d.isTile && f.ops.a.isTile
  | .accplane _ f => f.conv [0, 1] && [Fmt.fp32, .fp16, .bf16].contains f.fmt && f.noFlags && f.ops.d.isTile &&
    f.ops.a.unused && f.ops.b.unused && f.ops.imm == 0
  | .miter _ f =>
    let cap := f.ops.imm.toNat
    [0, 1, 2].contains f.sub.toNat && [Fmt.bf16, .fp32].contains f.fmt && f.noFlags && f.ops.immTaken &&
    f.ops.d.isTile && f.ops.b.isPred && f.ops.c.isCv && 1 ≤ cap && cap ≤ (if f.sub == 0 then 15 else 63) &&
    (if f.sub == 2 then
      f.ops.a.isTile && (match f.ops.d, f.ops.a with
        | .imm x, .imm y => y != x && y != x ^^^ 1
        | _, _ => false)
     else f.ops.a.unused)
  | .kld _ f => f.conv [0] && [Fmt.fp64, .fp32].contains f.fmt && f.noFlags && f.ops.d.isCoef && f.ops.a.pair
  | .kmov _ f => f.conv [0] && f.fmt == .raw32 && f.noFlags && f.ops.d.isCoef && (f.ops.a.isUni || f.ops.a.isImm) &&
    f.ops.b.unused
  -- words that are no instruction of this level (R73, R82)
  | .laterLevelOpcode w => 0xF0 ≤ (w.extractLsb' 120 8).toNat && (w.extractLsb' 120 8).toNat ≤ 0xFE
  | _ => true

/-- A uniform destination of format A takes no lane values (R62). -/
def Instr.uniformOk (i : Instr) : Bool :=
  !i.isFormatA || !i.use.writesUniform || i.use.reads.all fun r => r.op.uniformSource

/-- R56 to R61, R82: what the word alone decides. -/
def Instr.admitted (i : Instr) : Bool :=
  i.entryOk && i.uniformOk &&
  (match i.ctl with
    | some c => c.settOk && c.siteOk i.isGeneric i.isNative
    | none => true)

end Sys2Proof
end

