-- ==== Sys2Proof/WellFormed.lean ====
section
/-!
DEFINITION. Well-formed instructions: those the spec admits (Machine/Admit.lean holds the rules).
-/
namespace Sys2Proof

/-- An instruction that a word of the spec can hold; a device step has no word and is always well-formed. -/
def Instr.wf (i : Instr) : Bool := i.admitted

end Sys2Proof
end

