-- ==== Sys2Proof/Decode.lean ====
section
/-!
DEFINITION. The decoder, total on any 128-bit word and refusing by name (R54 to R73, R82), and the encoder, from the same
tables of the spec.
-/
namespace Sys2Proof

/-! ### Codes -/

/-- R63. -/
def Ty.code : Ty → BitVec 4
  | .i32 => 0x0 | .u32 => 0x1 | .i64 => 0x2 | .u64 => 0x3 | .f32 => 0x4 | .f64 => 0x5 | .f16x2 => 0x6 | .bf16x2 => 0x7
  | .b32 => 0x8 | .b64 => 0x9 | .f16 => 0xA | .bf16 => 0xB | .e4m3x4 => 0xC | .e5m2x4 => 0xD | .i8x4 => 0xE | .i4x8 => 0xF

def Ty.ofCode (c : BitVec 4) : Ty :=
  match c.toNat with
  | 0x0 => .i32 | 0x1 => .u32 | 0x2 => .i64 | 0x3 => .u64 | 0x4 => .f32 | 0x5 => .f64 | 0x6 => .f16x2 | 0x7 => .bf16x2
  | 0x8 => .b32 | 0x9 => .b64 | 0xA => .f16 | 0xB => .bf16 | 0xC => .e4m3x4 | 0xD => .e5m2x4 | 0xE => .i8x4 | _ => .i4x8

/-- R66. -/
def Fmt.code : Fmt → BitVec 5
  | .raw32 => 0x00 | .raw64 => 0x01 | .int4 => 0x02 | .int8 => 0x03 | .int32 => 0x04 | .int64 => 0x05 | .fp16 => 0x08
  | .bf16 => 0x09 | .fp32 => 0x0A | .fp64 => 0x0B | .e4m3 => 0x0C | .e5m2 => 0x0D | .sx3 => 0x10 | .sx5 => 0x11
  | .sx8 => 0x12

def Fmt.ofCode (c : BitVec 5) : Option Fmt :=
  match c.toNat with
  | 0x00 => some .raw32 | 0x01 => some .raw64 | 0x02 => some .int4 | 0x03 => some .int8 | 0x04 => some .int32
  | 0x05 => some .int64 | 0x08 => some .fp16 | 0x09 => some .bf16 | 0x0A => some .fp32 | 0x0B => some .fp64
  | 0x0C => some .e4m3 | 0x0D => some .e5m2 | 0x10 => some .sx3 | 0x11 => some .sx5 | 0x12 => some .sx8
  | _ => none

/-- R70. -/
def Order.code : Order → BitVec 3
  | .rlx => 0 | .acq => 1 | .rel => 2 | .ar => 3 | .sc => 4

def Order.ofCode (c : BitVec 3) : Option Order :=
  match c.toNat with
  | 0 => some .rlx | 1 => some .acq | 2 => some .rel | 3 => some .ar | 4 => some .sc
  | _ => none

def Scope.code : Scope → BitVec 3
  | .thr => 0 | .blk => 1 | .clu => 2 | .dev => 3 | .sys => 4

def Scope.ofCode (c : BitVec 3) : Option Scope :=
  match c.toNat with
  | 0 => some .thr | 1 => some .blk | 2 => some .clu | 3 => some .dev | 4 => some .sys
  | _ => none

/-- The 12-bit field of an operand (R12). -/
def Operand.field : Operand → BitVec 12
  | .vec n => 0#2 ++ 0#2 ++ n
  | .uni n => 1#2 ++ 0#4 ++ n
  | .slot d k => 2#2 ++ d ++ k
  | .imm n => 3#2 ++ 0#1 ++ n
  | .immWord => 0xE00

/-- The operand of a 12-bit field; no operand where R57 and R58 make the word illegal. -/
def Operand.ofField (f : BitVec 12) : Option Operand :=
  match (f.extractLsb' 10 2).toNat with
  | 0 => if f.extractLsb' 8 2 = 0 then some (.vec (f.extractLsb' 0 8)) else none
  | 1 => if f.extractLsb' 6 4 = 0 then some (.uni (f.extractLsb' 0 6)) else none
  | 2 => some (.slot (f.extractLsb' 7 3) (f.extractLsb' 0 7))
  | _ =>
    if f.getLsbD 9 then (if f.extractLsb' 0 9 = 0 then some .immWord else none)
    else some (.imm (f.extractLsb' 0 9))

/-! ### Fields of the word (R54) -/

def Ctl.ofWord (w : InstrWord) : Ctl :=
  { stall := w.extractLsb' 116 4, guard := w.extractLsb' 112 4, wait := w.extractLsb' 108 4, sett := w.extractLsb' 105 3,
    yld := w.getLsbD 104, q := w.getLsbD 103, pin := w.getLsbD 102, flips := w.extractLsb' 99 3 }

def Ops.ofWord (w : InstrWord) : Option Ops := do
  let d ← Operand.ofField (w.extractLsb' 84 12)
  let a ← Operand.ofField (w.extractLsb' 72 12)
  let b ← Operand.ofField (w.extractLsb' 60 12)
  let c ← Operand.ofField (w.extractLsb' 48 12)
  return { d := d, a := a, b := b, c := c, imm := w.extractLsb' 0 32 }

/-- The formats read their fields from FUNC (R62 to R72); a marked bit that is not zero makes no format. -/
def CFmt.ofFunc (x : BitVec 16) (o : Ops) : Option CFmt :=
  some { sub := x.extractLsb' 12 4, depth := x.extractLsb' 9 3, sel := x.extractLsb' 0 9, ops := o }

def AFmt.ofFunc (x : BitVec 16) (o : Ops) : Option AFmt :=
  if x.extractLsb' 0 3 = 0 then
    some { sub := x.extractLsb' 12 4, ty := Ty.ofCode (x.extractLsb' 8 4), sty := Ty.ofCode (x.extractLsb' 4 4),
           modv := x.getLsbD 3, ops := o }
  else none

def MaFmt.ofFunc (x : BitVec 16) (o : Ops) : Option MaFmt := do
  let fmt ← Fmt.ofCode (x.extractLsb' 7 5)
  let order ← Order.ofCode (x.extractLsb' 4 3)
  let scope ← Scope.ofCode (x.extractLsb' 1 3)
  return { space := x.extractLsb' 13 3, zx := x.getLsbD 12, fmt := fmt, order := order, scope := scope,
           fwd := x.getLsbD 0, ops := o }

def MbFmt.ofFunc (x : BitVec 16) (o : Ops) : Option MbFmt := do
  let order ← Order.ofCode (x.extractLsb' 4 3)
  let scope ← Scope.ofCode (x.extractLsb' 1 3)
  return { sub := x.extractLsb' 12 4, ty := Ty.ofCode (x.extractLsb' 8 4), ord := x.getLsbD 7, order := order,
           scope := scope, clu := x.getLsbD 0, ops := o }

def McFmt.ofFunc (x : BitVec 16) (o : Ops) : Option McFmt := do
  let fmt ← Fmt.ofCode (x.extractLsb' 7 5)
  if x.extractLsb' 0 7 = 0 then return { sub := x.extractLsb' 12 4, fmt := fmt, ops := o } else none

def SFmt.ofFunc (x : BitVec 16) (o : Ops) : Option SFmt := do
  let order ← Order.ofCode (x.extractLsb' 6 3)
  if x.extractLsb' 0 2 = 0 then
    return { sub := x.extractLsb' 12 4, sd := x.extractLsb' 9 3, order := order, ty := Ty.ofCode (x.extractLsb' 2 4),
             ops := o }
  else none

def TFmt.ofFunc (x : BitVec 16) (o : Ops) : Option TFmt := do
  let fmt ← Fmt.ofCode (x.extractLsb' 7 5)
  if x.extractLsb' 0 5 = 0 then
    return { sub := x.extractLsb' 12 4, fmt := fmt, add := x.getLsbD 6, int := x.getLsbD 5, ops := o }
  else none

/-- FUNC of each format. -/
def CFmt.func (f : CFmt) : BitVec 16 := f.sub ++ f.depth ++ f.sel
def AFmt.func (f : AFmt) : BitVec 16 := f.sub ++ f.ty.code ++ f.sty.code ++ BitVec.ofBool f.modv ++ 0#3
def MaFmt.func (f : MaFmt) : BitVec 16 :=
  f.space ++ BitVec.ofBool f.zx ++ f.fmt.code ++ f.order.code ++ f.scope.code ++ BitVec.ofBool f.fwd
def MbFmt.func (f : MbFmt) : BitVec 16 :=
  f.sub ++ f.ty.code ++ BitVec.ofBool f.ord ++ f.order.code ++ f.scope.code ++ BitVec.ofBool f.clu
def McFmt.func (f : McFmt) : BitVec 16 := f.sub ++ f.fmt.code ++ 0#7
def SFmt.func (f : SFmt) : BitVec 16 := f.sub ++ f.sd ++ f.order.code ++ f.ty.code ++ 0#2
def TFmt.func (f : TFmt) : BitVec 16 := f.sub ++ f.fmt.code ++ BitVec.ofBool f.add ++ BitVec.ofBool f.int ++ 0#5

/-! ### The opcode map (R73) -/

def decodeC (opc : Nat) (c : Ctl) (f : CFmt) : Option Instr :=
  match opc with
  | 0x01 => some (.nop c f)
  | 0x02 => some (.bra c f)
  | 0x03 => some (.brxa c f)
  | 0x04 => some (.brx c f)
  | 0x05 => some (.call c f)
  | 0x06 => some (.ret c f)
  | 0x07 => some (.exit c f)
  | 0x08 => some (.trap c f)
  | 0x09 => some (.bkpt c f)
  | 0x0A => some (.tret c f)
  | 0x0B => some (.nap c f)
  | 0x0C => some (.srd c f)
  | 0x0D => some (.swr c f)
  | 0x0E => some (.spawn c f)
  | 0x0F => some (.trace c f)
  | _ => none

def decodeA (opc : Nat) (c : Ctl) (f : AFmt) : Option Instr :=
  match opc with
  | 0x10 => some (.iadd c f)
  | 0x11 => some (.isub c f)
  | 0x12 => some (.imul c f)
  | 0x13 => some (.imulh c f)
  | 0x14 => some (.imad c f)
  | 0x15 => some (.imin c f)
  | 0x16 => some (.imax c f)
  | 0x17 => some (.land c f)
  | 0x18 => some (.lor c f)
  | 0x19 => some (.lxor c f)
  | 0x1A => some (.shl c f)
  | 0x1B => some (.shr c f)
  | 0x1C => some (.rot c f)
  | 0x1D => some (.bfx c f)
  | 0x1E => some (.bfi c f)
  | 0x1F => some (.popc c f)
  | 0x20 => some (.clz c f)
  | 0x21 => some (.brev c f)
  | 0x22 => some (.sel c f)
  | 0x23 => some (.icmp c f)
  | 0x24 => some (.lea c f)
  | 0x25 => some (.mov c f)
  | 0x26 => some (.movi c f)
  | 0x27 => some (.pand c f)
  | 0x28 => some (.pmov c f)
  | 0x40 => some (.fadd c f)
  | 0x41 => some (.fmul c f)
  | 0x42 => some (.ffma c f)
  | 0x43 => some (.fmin c f)
  | 0x44 => some (.fmax c f)
  | 0x45 => some (.fcmp c f)
  | 0x46 => some (.fclass c f)
  | 0x47 => some (.frcp c f)
  | 0x48 => some (.frsq c f)
  | 0x49 => some (.fsqrt c f)
  | 0x4A => some (.fexp2 c f)
  | 0x4B => some (.flog2 c f)
  | 0x4C => some (.fsin c f)
  | 0x4D => some (.fcos c f)
  | 0x4E => some (.ftanh c f)
  | 0x4F => some (.frnd c f)
  | 0x50 => some (.fscale c f)
  | 0x51 => some (.fdot2 c f)
  | 0x70 => some (.cvt c f)
  | 0x71 => some (.qsx c f)
  | 0x72 => some (.qscale c f)
  | 0x73 => some (.dqsx c f)
  | 0x74 => some (.pack c f)
  | 0x75 => some (.unpack c f)
  | 0x80 => some (.shfl c f)
  | 0x81 => some (.matchAny c f)
  | 0x82 => some (.vote c f)
  | 0x83 => some (.redux c f)
  | 0x84 => some (.scan c f)
  | 0x85 => some (.bcast c f)
  | _ => none

def decodeMa (opc : Nat) (c : Ctl) (f : MaFmt) : Option Instr :=
  match opc with
  | 0x90 => some (.lda c f)
  | 0x91 => some (.sta c f)
  | 0x92 => some (.ldg c f)
  | 0x93 => some (.stg c f)
  | 0x94 => some (.lds c f)
  | 0x95 => some (.sts c f)
  | 0x96 => some (.ldp c f)
  | 0x97 => some (.stp c f)
  | 0x98 => some (.ldk c f)
  | 0x99 => some (.ldb c f)
  | _ => none

def decodeMb (opc : Nat) (c : Ctl) (f : MbFmt) : Option Instr :=
  match opc with
  | 0xB0 => some (.atoma c f)
  | 0xB1 => some (.reda c f)
  | 0xB2 => some (.atomg c f)
  | 0xB3 => some (.atoms c f)
  | 0xB4 => some (.redg c f)
  | 0xB5 => some (.reds c f)
  | _ => none

def decodeMc (opc : Nat) (c : Ctl) (f : McFmt) : Option Instr :=
  match opc with
  | 0x9A => some (.pref c f)
  | 0x9B => some (.cpa c f)
  | 0x9C => some (.cpt c f)
  | 0x9D => some (.fetchb c f)
  | 0x9E => some (.codeinv c f)
  | 0x9F => some (if f.sub = 1 then .siteclrPin c f else .siteclr c f)
  | _ => none

def decodeS (opc : Nat) (c : Ctl) (f : SFmt) : Option Instr :=
  match opc with
  | 0xC0 => some (.cvset c f)
  | 0xC1 => some (.barinit c f)
  | 0xC2 => some (.barexpect c f)
  | 0xC3 => some (.bararrive c f)
  | 0xC4 => some (.barwait c f)
  | 0xC5 => some (.bartry c f)
  | 0xC6 => some (.stginit c f)
  | 0xC7 => some (.stgwait c f)
  | 0xC8 => some (.stgarrive c f)
  | 0xC9 => some (.fence c f)
  | 0xCA => some (.ctxst c f)
  | 0xCB => some (.ctxld c f)
  | 0xCC => some (.svdone c f)
  | 0xD0 => some (.fenter c f)
  | 0xD1 => some (.fleave c f)
  | 0xD2 => some (.bfenter c f)
  | 0xD3 => some (.bfleave c f)
  | 0xD4 => some (.cfenter c f)
  | 0xD5 => some (.cfleave c f)
  | 0xD6 => some (.fsync c f)
  | 0xD7 => some (.fatom c f)
  | 0xD8 => some (.dspr c f)
  | 0xD9 => some (.dspw c f)
  | _ => none

def decodeT (opc : Nat) (c : Ctl) (f : TFmt) : Option Instr :=
  match opc with
  | 0xE0 => some (.mzero c f)
  | 0xE1 => some (.ldstat c f)
  | 0xE2 => some (.pswap c f)
  | 0xE3 => some (.mstream c f)
  | 0xE4 => some (.accld c f)
  | 0xE5 => some (.accst c f)
  | 0xE6 => some (.accchk c f)
  | 0xE7 => some (.accmov c f)
  | 0xE8 => some (.accplane c f)
  | 0xE9 => some (.miter c f)
  | 0xEA => some (.kld c f)
  | 0xEB => some (.kmov c f)
  | _ => none

/-- The opcode of a program instruction. -/
def Instr.opc : Instr → BitVec 8
  | .nop .. => 0x01
  | .bra .. => 0x02
  | .brxa .. => 0x03
  | .brx .. => 0x04
  | .call .. => 0x05
  | .ret .. => 0x06
  | .exit .. => 0x07
  | .trap .. => 0x08
  | .bkpt .. => 0x09
  | .tret .. => 0x0A
  | .nap .. => 0x0B
  | .srd .. => 0x0C
  | .swr .. => 0x0D
  | .spawn .. => 0x0E
  | .trace .. => 0x0F
  | .iadd .. => 0x10
  | .isub .. => 0x11
  | .imul .. => 0x12
  | .imulh .. => 0x13
  | .imad .. => 0x14
  | .imin .. => 0x15
  | .imax .. => 0x16
  | .land .. => 0x17
  | .lor .. => 0x18
  | .lxor .. => 0x19
  | .shl .. => 0x1A
  | .shr .. => 0x1B
  | .rot .. => 0x1C
  | .bfx .. => 0x1D
  | .bfi .. => 0x1E
  | .popc .. => 0x1F
  | .clz .. => 0x20
  | .brev .. => 0x21
  | .sel .. => 0x22
  | .icmp .. => 0x23
  | .lea .. => 0x24
  | .mov .. => 0x25
  | .movi .. => 0x26
  | .pand .. => 0x27
  | .pmov .. => 0x28
  | .fadd .. => 0x40
  | .fmul .. => 0x41
  | .ffma .. => 0x42
  | .fmin .. => 0x43
  | .fmax .. => 0x44
  | .fcmp .. => 0x45
  | .fclass .. => 0x46
  | .frcp .. => 0x47
  | .frsq .. => 0x48
  | .fsqrt .. => 0x49
  | .fexp2 .. => 0x4A
  | .flog2 .. => 0x4B
  | .fsin .. => 0x4C
  | .fcos .. => 0x4D
  | .ftanh .. => 0x4E
  | .frnd .. => 0x4F
  | .fscale .. => 0x50
  | .fdot2 .. => 0x51
  | .cvt .. => 0x70
  | .qsx .. => 0x71
  | .qscale .. => 0x72
  | .dqsx .. => 0x73
  | .pack .. => 0x74
  | .unpack .. => 0x75
  | .shfl .. => 0x80
  | .matchAny .. => 0x81
  | .vote .. => 0x82
  | .redux .. => 0x83
  | .scan .. => 0x84
  | .bcast .. => 0x85
  | .lda .. => 0x90
  | .sta .. => 0x91
  | .ldg .. => 0x92
  | .stg .. => 0x93
  | .lds .. => 0x94
  | .sts .. => 0x95
  | .ldp .. => 0x96
  | .stp .. => 0x97
  | .ldk .. => 0x98
  | .ldb .. => 0x99
  | .pref .. => 0x9A
  | .cpa .. => 0x9B
  | .cpt .. => 0x9C
  | .fetchb .. => 0x9D
  | .codeinv .. => 0x9E
  | .siteclr .. => 0x9F
  | .siteclrPin .. => 0x9F
  | .atoma .. => 0xB0
  | .reda .. => 0xB1
  | .atomg .. => 0xB2
  | .atoms .. => 0xB3
  | .redg .. => 0xB4
  | .reds .. => 0xB5
  | .cvset .. => 0xC0
  | .barinit .. => 0xC1
  | .barexpect .. => 0xC2
  | .bararrive .. => 0xC3
  | .barwait .. => 0xC4
  | .bartry .. => 0xC5
  | .stginit .. => 0xC6
  | .stgwait .. => 0xC7
  | .stgarrive .. => 0xC8
  | .fence .. => 0xC9
  | .ctxst .. => 0xCA
  | .ctxld .. => 0xCB
  | .svdone .. => 0xCC
  | .fenter .. => 0xD0
  | .fleave .. => 0xD1
  | .bfenter .. => 0xD2
  | .bfleave .. => 0xD3
  | .cfenter .. => 0xD4
  | .cfleave .. => 0xD5
  | .fsync .. => 0xD6
  | .fatom .. => 0xD7
  | .dspr .. => 0xD8
  | .dspw .. => 0xD9
  | .mzero .. => 0xE0
  | .ldstat .. => 0xE1
  | .pswap .. => 0xE2
  | .mstream .. => 0xE3
  | .accld .. => 0xE4
  | .accst .. => 0xE5
  | .accchk .. => 0xE6
  | .accmov .. => 0xE7
  | .accplane .. => 0xE8
  | .miter .. => 0xE9
  | .kld .. => 0xEA
  | .kmov .. => 0xEB
  | _ => 0

/-- FUNC and operands of a program instruction. -/
def Instr.funcOps : Instr → Option (BitVec 16 × Ops)
  | .nop _ f => some (f.func, f.ops)
  | .bra _ f => some (f.func, f.ops)
  | .brxa _ f => some (f.func, f.ops)
  | .brx _ f => some (f.func, f.ops)
  | .call _ f => some (f.func, f.ops)
  | .ret _ f => some (f.func, f.ops)
  | .exit _ f => some (f.func, f.ops)
  | .trap _ f => some (f.func, f.ops)
  | .bkpt _ f => some (f.func, f.ops)
  | .tret _ f => some (f.func, f.ops)
  | .nap _ f => some (f.func, f.ops)
  | .srd _ f => some (f.func, f.ops)
  | .swr _ f => some (f.func, f.ops)
  | .spawn _ f => some (f.func, f.ops)
  | .trace _ f => some (f.func, f.ops)
  | .iadd _ f => some (f.func, f.ops)
  | .isub _ f => some (f.func, f.ops)
  | .imul _ f => some (f.func, f.ops)
  | .imulh _ f => some (f.func, f.ops)
  | .imad _ f => some (f.func, f.ops)
  | .imin _ f => some (f.func, f.ops)
  | .imax _ f => some (f.func, f.ops)
  | .land _ f => some (f.func, f.ops)
  | .lor _ f => some (f.func, f.ops)
  | .lxor _ f => some (f.func, f.ops)
  | .shl _ f => some (f.func, f.ops)
  | .shr _ f => some (f.func, f.ops)
  | .rot _ f => some (f.func, f.ops)
  | .bfx _ f => some (f.func, f.ops)
  | .bfi _ f => some (f.func, f.ops)
  | .popc _ f => some (f.func, f.ops)
  | .clz _ f => some (f.func, f.ops)
  | .brev _ f => some (f.func, f.ops)
  | .sel _ f => some (f.func, f.ops)
  | .icmp _ f => some (f.func, f.ops)
  | .lea _ f => some (f.func, f.ops)
  | .mov _ f => some (f.func, f.ops)
  | .movi _ f => some (f.func, f.ops)
  | .pand _ f => some (f.func, f.ops)
  | .pmov _ f => some (f.func, f.ops)
  | .fadd _ f => some (f.func, f.ops)
  | .fmul _ f => some (f.func, f.ops)
  | .ffma _ f => some (f.func, f.ops)
  | .fmin _ f => some (f.func, f.ops)
  | .fmax _ f => some (f.func, f.ops)
  | .fcmp _ f => some (f.func, f.ops)
  | .fclass _ f => some (f.func, f.ops)
  | .frcp _ f => some (f.func, f.ops)
  | .frsq _ f => some (f.func, f.ops)
  | .fsqrt _ f => some (f.func, f.ops)
  | .fexp2 _ f => some (f.func, f.ops)
  | .flog2 _ f => some (f.func, f.ops)
  | .fsin _ f => some (f.func, f.ops)
  | .fcos _ f => some (f.func, f.ops)
  | .ftanh _ f => some (f.func, f.ops)
  | .frnd _ f => some (f.func, f.ops)
  | .fscale _ f => some (f.func, f.ops)
  | .fdot2 _ f => some (f.func, f.ops)
  | .cvt _ f => some (f.func, f.ops)
  | .qsx _ f => some (f.func, f.ops)
  | .qscale _ f => some (f.func, f.ops)
  | .dqsx _ f => some (f.func, f.ops)
  | .pack _ f => some (f.func, f.ops)
  | .unpack _ f => some (f.func, f.ops)
  | .shfl _ f => some (f.func, f.ops)
  | .matchAny _ f => some (f.func, f.ops)
  | .vote _ f => some (f.func, f.ops)
  | .redux _ f => some (f.func, f.ops)
  | .scan _ f => some (f.func, f.ops)
  | .bcast _ f => some (f.func, f.ops)
  | .lda _ f => some (f.func, f.ops)
  | .sta _ f => some (f.func, f.ops)
  | .ldg _ f => some (f.func, f.ops)
  | .stg _ f => some (f.func, f.ops)
  | .lds _ f => some (f.func, f.ops)
  | .sts _ f => some (f.func, f.ops)
  | .ldp _ f => some (f.func, f.ops)
  | .stp _ f => some (f.func, f.ops)
  | .ldk _ f => some (f.func, f.ops)
  | .ldb _ f => some (f.func, f.ops)
  | .pref _ f => some (f.func, f.ops)
  | .cpa _ f => some (f.func, f.ops)
  | .cpt _ f => some (f.func, f.ops)
  | .fetchb _ f => some (f.func, f.ops)
  | .codeinv _ f => some (f.func, f.ops)
  | .siteclr _ f => some (f.func, f.ops)
  | .siteclrPin _ f => some (f.func, f.ops)
  | .atoma _ f => some (f.func, f.ops)
  | .reda _ f => some (f.func, f.ops)
  | .atomg _ f => some (f.func, f.ops)
  | .atoms _ f => some (f.func, f.ops)
  | .redg _ f => some (f.func, f.ops)
  | .reds _ f => some (f.func, f.ops)
  | .cvset _ f => some (f.func, f.ops)
  | .barinit _ f => some (f.func, f.ops)
  | .barexpect _ f => some (f.func, f.ops)
  | .bararrive _ f => some (f.func, f.ops)
  | .barwait _ f => some (f.func, f.ops)
  | .bartry _ f => some (f.func, f.ops)
  | .stginit _ f => some (f.func, f.ops)
  | .stgwait _ f => some (f.func, f.ops)
  | .stgarrive _ f => some (f.func, f.ops)
  | .fence _ f => some (f.func, f.ops)
  | .ctxst _ f => some (f.func, f.ops)
  | .ctxld _ f => some (f.func, f.ops)
  | .svdone _ f => some (f.func, f.ops)
  | .fenter _ f => some (f.func, f.ops)
  | .fleave _ f => some (f.func, f.ops)
  | .bfenter _ f => some (f.func, f.ops)
  | .bfleave _ f => some (f.func, f.ops)
  | .cfenter _ f => some (f.func, f.ops)
  | .cfleave _ f => some (f.func, f.ops)
  | .fsync _ f => some (f.func, f.ops)
  | .fatom _ f => some (f.func, f.ops)
  | .dspr _ f => some (f.func, f.ops)
  | .dspw _ f => some (f.func, f.ops)
  | .mzero _ f => some (f.func, f.ops)
  | .ldstat _ f => some (f.func, f.ops)
  | .pswap _ f => some (f.func, f.ops)
  | .mstream _ f => some (f.func, f.ops)
  | .accld _ f => some (f.func, f.ops)
  | .accst _ f => some (f.func, f.ops)
  | .accchk _ f => some (f.func, f.ops)
  | .accmov _ f => some (f.func, f.ops)
  | .accplane _ f => some (f.func, f.ops)
  | .miter _ f => some (f.func, f.ops)
  | .kld _ f => some (f.func, f.ops)
  | .kmov _ f => some (f.func, f.ops)
  | _ => none

/-! ### Decoding -/

/-- Why a word is no instruction (R82); each of them traps ILLEGAL. -/
inductive WordFault where
  /-- OPC 0x00 or a cell marked unassigned -/
  | unassigned
  /-- OPC 0xFF -/
  | invalid
  /-- SITE bits 98:96 nonzero -/
  | reservedSite
  /-- an operand field that R57 or R58 forbids -/
  | operand
  /-- a FUNC field with a reserved code, or a marked bit set -/
  | func
  /-- a field value the instruction's entry does not admit -/
  | notAdmitted
deriving DecidableEq, Repr

/-- The instruction by opcode and format (R61). -/
def decodeFormat (w : InstrWord) (o : Ops) : Option Instr :=
  let opc := (w.extractLsb' 120 8).toNat
  let c := Ctl.ofWord w
  let x : BitVec 16 := w.extractLsb' 32 16
  if opc < 0x10 then (CFmt.ofFunc x o).bind (decodeC opc c)
  else if opc < 0x90 then (AFmt.ofFunc x o).bind (decodeA opc c)
  else if opc < 0x9A then (MaFmt.ofFunc x o).bind (decodeMa opc c)
  else if opc < 0xA0 then (McFmt.ofFunc x o).bind (decodeMc opc c)
  else if opc < 0xC0 then (MbFmt.ofFunc x o).bind (decodeMb opc c)
  else if opc < 0xE0 then (SFmt.ofFunc x o).bind (decodeS opc c)
  else (TFmt.ofFunc x o).bind (decodeT opc c)

/-- Whether the opcode is assigned at level 1 (R73). -/
def assigned (opc : Nat) : Bool :=
  (0x01 ≤ opc && opc ≤ 0x28) || (0x40 ≤ opc && opc ≤ 0x51) || (0x70 ≤ opc && opc ≤ 0x75) || (0x80 ≤ opc && opc ≤ 0x85) ||
  (0x90 ≤ opc && opc ≤ 0x9F) || (0xB0 ≤ opc && opc ≤ 0xB5) || (0xC0 ≤ opc && opc ≤ 0xCC) || (0xD0 ≤ opc && opc ≤ 0xD9) ||
  (0xE0 ≤ opc && opc ≤ 0xEB)

/-- Decode a word: an instruction, a later-level opcode (R128), or the reason it is neither. -/
def decode (w : InstrWord) : Except WordFault Instr :=
  let opc := (w.extractLsb' 120 8).toNat
  if opc = 0xFF then .error .invalid
  else if 0xF0 ≤ opc then .ok (.laterLevelOpcode w)
  else if !assigned opc then .error .unassigned
  else if w.extractLsb' 96 3 ≠ 0 then .error .reservedSite
  else
    match Ops.ofWord w with
    | none => .error .operand
    | some o =>
      match decodeFormat w o with
      | none => .error .func
      | some i => if i.wf then .ok i else .error .notAdmitted

/-- What the machine issues for a word: a word that is no instruction is the step ILLEGAL_WORD (R82). -/
def decodeInstr (w : InstrWord) : Instr :=
  match decode w with
  | .ok i => i
  | .error _ => .illegalWord w

/-! ### Encoding -/

/-- The control fields and SITE, bits 119:96 (R54). -/
def Ctl.bits (c : Ctl) : BitVec 24 :=
  c.stall ++ c.guard ++ c.wait ++ c.sett ++ BitVec.ofBool c.yld ++ BitVec.ofBool c.q ++ BitVec.ofBool c.pin ++ c.flips ++ 0#3

/-- A word from its fields (R54). -/
def assemble (opc : BitVec 8) (c : Ctl) (x : BitVec 16) (o : Ops) : InstrWord :=
  opc ++ c.bits ++ o.d.field ++ o.a.field ++ o.b.field ++ o.c.field ++ x ++ o.imm

/-- The word of a program instruction; a device step has none. -/
def encode (i : Instr) : Option InstrWord :=
  match i with
  | .laterLevelOpcode w => some w
  | i =>
    match i.ctl, i.funcOps with
    | some c, some (x, o) => some (assemble i.opc c x o)
    | _, _ => none

/-! ### Words as bytes (R55) -/

/-- The 16 bytes of a word, lowest address first. -/
def wordBytes (w : InstrWord) : List Byte :=
  (List.range 16).map fun i => w.extractLsb' (8 * i) 8

/-- The number that little-endian bytes stand for. -/
def leNat : List Byte → Nat
  | [] => 0
  | b :: bs => b.toNat + 256 * leNat bs

/-- The word of its bytes. -/
def bytesWord (bs : List Byte) : InstrWord := BitVec.ofNat 128 (leNat (bs.take 16))

/-- Decode the first instruction of a byte list, with the rest of the list: every instruction is one 128-bit word. -/
def decodeBytes (bs : List Byte) : Except WordFault Instr × List Byte :=
  (decode (bytesWord bs), bs.drop 16)

/-- The instruction read from a word given as a number, bit 0 the least significant bit of the word; bits at and above
`nbits` are zero.  `none` where the decoder refuses. -/
def decodeTableWord (nbits w : Nat) : Option Instr :=
  match (decodeBytes (wordBytes (BitVec.ofNat 128 (w % 2 ^ nbits)))).1 with
  | .ok i => some i
  | .error _ => none

end Sys2Proof
end

