-- ==== Sys2Proof/Machine/Numbers.lean ====
section
/-!
DEFINITION. Number formats and exact arithmetic (R88 to R98, R103): the exact value of a bit pattern, the one rounding
`fpResult`, conversions to integers, and the exact sums and products that the arithmetic entries round.
-/
namespace Sys2Proof

/-! ### Formats and exact values -/

/-- The floating-point element formats (R88). -/
inductive FF where
  | f64 | f32 | f16 | bf16 | e4m3 | e5m2
deriving DecidableEq, Repr

/-- Mantissa bits p. -/
def FF.p : FF → Nat
  | .f64 => 52 | .f32 => 23 | .f16 => 10 | .bf16 => 7 | .e4m3 => 3 | .e5m2 => 2

/-- Exponent bits. -/
def FF.ebits : FF → Nat
  | .f64 => 11 | .f32 => 8 | .f16 => 5 | .bf16 => 8 | .e4m3 => 4 | .e5m2 => 5

def FF.width (t : FF) : Nat := 1 + t.ebits + t.p

/-- The bias, 2^(ebits - 1) - 1 in every format. -/
def FF.bias (t : FF) : Nat := 2 ^ (t.ebits - 1) - 1

/-- 2^k, exactly. -/
def pow2 (k : Int) : Rat := if 0 ≤ k then ((2 ^ k.toNat : Nat) : Rat) else mkRat 1 (2 ^ (-k).toNat)

/-- An exact value: a NaN (signalling or not), an infinity, or a signed magnitude, so that zero has a sign (R88, R90). -/
inductive FP where
  | nan (signalling : Bool)
  | inf (neg : Bool)
  | fin (neg : Bool) (mag : Rat)
deriving DecidableEq, Repr

def FP.zero : FP := .fin false 0

/-- The exact value of a rational number; zero is +0. -/
def FP.ofRat (q : Rat) : FP := if q < 0 then .fin true (-q) else .fin false q

def FP.ofInt (n : Int) : FP := .fin (decide (n < 0)) (n.natAbs : Rat)

def FP.isNan : FP → Bool
  | .nan _ => true
  | _ => false

def FP.isSnan : FP → Bool
  | .nan s => s
  | _ => false

def FP.isInf : FP → Bool
  | .inf _ => true
  | _ => false

def FP.isZero : FP → Bool
  | .fin _ m => m == 0
  | _ => false

def FP.neg? : FP → Bool
  | .nan _ => false
  | .inf s => s
  | .fin s _ => s

/-- The number itself, for a finite value. -/
def FP.toRat : FP → Rat
  | .fin s m => if s then -m else m
  | _ => 0

/-- The largest exponent field that stands for a number (R88). -/
def FF.emaxField (t : FF) : Nat := if t = .e4m3 then 15 else 2 ^ t.ebits - 2

/-- The value a pattern stands for (R88, R90). -/
def FF.val (t : FF) (bits : Nat) : FP :=
  let f := bits % 2 ^ t.p
  let e := bits / 2 ^ t.p % 2 ^ t.ebits
  let s := bits / 2 ^ (t.p + t.ebits) % 2 == 1
  if t = .e4m3 ∧ e = 15 ∧ f = 7 then .nan false
  else if t ≠ .e4m3 ∧ e = 2 ^ t.ebits - 1 then
    if f = 0 then .inf s else .nan (f / 2 ^ (t.p - 1) % 2 == 0)
  else if e = 0 then .fin s ((f : Rat) * pow2 (1 - (t.bias : Int) - t.p))
  else .fin s (((2 ^ t.p + f : Nat) : Rat) * pow2 ((e : Int) - t.bias - t.p))

/-- The canonical NaN (R89). -/
def FF.canonNaN (t : FF) : Nat :=
  if t = .e4m3 then 0x7F else (2 ^ t.ebits - 1) * 2 ^ t.p + 2 ^ (t.p - 1)

def FF.signBit (t : FF) (neg : Bool) : Nat := if neg then 2 ^ (t.width - 1) else 0

/-- Infinity of a sign; in E4M3 the NaN of that sign (R93, R94). -/
def FF.infBits (t : FF) (neg : Bool) : Nat :=
  t.signBit neg + (if t = .e4m3 then 0x7F else (2 ^ t.ebits - 1) * 2 ^ t.p)

/-- MaxF (R89). -/
def FF.maxF (t : FF) : Rat :=
  if t = .e4m3 then 448
  else ((2 ^ (t.p + 1) - 1 : Nat) : Rat) * pow2 ((t.emaxField : Int) - t.bias - t.p)

/-- MinN, the smallest normal value (R89). -/
def FF.minN (t : FF) : Rat := pow2 (1 - (t.bias : Int))

/-! ### Rounding (R92) -/

/-- The greatest k with 2^k at most m, for m > 0. -/
def floorLog2 (m : Rat) : Int :=
  let l : Int := (Nat.log2 m.num.natAbs : Int) - (Nat.log2 m.den : Int)
  if pow2 l ≤ m then (if pow2 (l + 1) ≤ m then l + 1 else l) else l - 1

/-- Whether the neighbour of larger magnitude is chosen, for a remainder `r` of the spacing, 0 < r < 1 (R92). -/
def RMode.away (mode : RMode) (neg odd : Bool) (r : Rat) : Bool :=
  match mode with
  | .rne => decide (mkRat 1 2 < r) || (r == mkRat 1 2 && odd)
  | .rna => decide (mkRat 1 2 ≤ r)
  | .rtz => false
  | .rup => !neg
  | .rdn => neg

/-- A magnitude rounded to a whole number (R92). -/
def roundNat (q : Rat) (neg : Bool) (mode : RMode) : Nat :=
  let n := q.floor.toNat
  let r := q - (n : Rat)
  if r = 0 then n else if mode.away neg (n % 2 == 1) r then n + 1 else n

/-- The exponent at which a magnitude is rounded: unbounded above, the subnormal spacing below (R92). -/
def FF.expOf (t : FF) (m : Rat) : Int := max (floorLog2 m) (1 - (t.bias : Int))

/-- A magnitude rounded at the format's precision (R92). -/
def FF.round (t : FF) (m : Rat) (neg : Bool) (mode : RMode) : Rat :=
  if m = 0 then 0
  else
    let u := pow2 (t.expOf m - t.p)
    (roundNat (m / u) neg mode : Rat) * u

/-- The pattern of a representable magnitude. -/
def FF.encode (t : FF) (neg : Bool) (m : Rat) : Nat :=
  if m = 0 then t.signBit neg
  else
    let e := t.expOf m
    let n := (m / pow2 (e - t.p)).floor.toNat
    if n < 2 ^ t.p then t.signBit neg + n
    else t.signBit neg + (e + t.bias).toNat * 2 ^ t.p + (n - 2 ^ t.p)

/-- R94. -/
def FF.overflow (t : FF) (mode : RMode) (neg : Bool) : Nat :=
  let toInf := match mode with
    | .rne | .rna => true
    | .rtz => false
    | .rup => !neg
    | .rdn => neg
  if toInf then t.infBits neg else t.encode neg t.maxF

/-- What FPResult takes beside the value: mode, SCALE, CLAMP and FMODE.FTZ (R59, R93). -/
structure FPMod where
  mode : RMode
  scale : Int
  clamp : Nat
  ftz : Bool
deriving DecidableEq, Repr

/-- Round to nearest even, nothing else (R98, R188). -/
def FPMod.rne : FPMod := { mode := .rne, scale := 0, clamp := 0, ftz := false }

/-- The element conversion of a store: RNE and CLAMP 3 (R98, R170). -/
def FPMod.store : FPMod := { FPMod.rne with clamp := 3 }

def FP.scale (v : FP) (k : Int) : FP :=
  match v with
  | .fin s m => .fin s (m * pow2 k)
  | v => v

/-- A number limited to [lo, hi]; a value in range keeps its form, the sign of a zero with it (log 11, DEDUCED). -/
def FP.limit (v : FP) (lo hi : Rat) : FP :=
  match v with
  | .nan s => .nan s
  | .inf s => FP.ofRat (if s then lo else hi)
  | .fin s m =>
    let q := if s then -m else m
    if q < lo then FP.ofRat lo else if hi < q then FP.ofRat hi else .fin s m

/-- CLAMP (R93). -/
def FF.clamp (t : FF) (c : Nat) (v : FP) : FP :=
  match c with
  | 1 => if v.isNan then FP.zero else v.limit 0 1
  | 2 => if v.isNan then FP.zero else v.limit (-1) 1
  | 3 => v.limit (-t.maxF) t.maxF
  | _ => v

/-- FPResult (R93). -/
def fpResult (t : FF) (v : FP) (md : FPMod) : Nat × Flags :=
  let v := v.scale md.scale
  let w := t.clamp md.clamp v
  let fl := Flags.when (md.clamp != 0 && !v.isNan && w != v) .NX
  match w with
  | .nan _ => (t.canonNaN, fl)
  | .inf s => if t = .e4m3 then (t.infBits s, fl.or .NV) else (t.infBits s, fl)
  | .fin s m =>
    let x := t.round m s md.mode
    if t.maxF < x then (t.overflow md.mode s, fl.or (Flags.or .OF .NX))
    else
      let fl := fl.or (Flags.when (x != m) .NX)
      let fl := fl.or (Flags.when (m != 0 && x != m && decide (m < t.minN)) .UF)
      if md.ftz && t == .f32 && x != 0 && decide (x < t.minN) then (t.signBit s, fl.or (Flags.or .UF .NX))
      else (t.encode s x, fl)

/-- Val under FTZ: an FP32 subnormal source counts as a zero of its sign (R95). -/
def FP.flush (v : FP) (t : FF) (ftz : Bool) : FP :=
  match v with
  | .fin s m => if ftz && t == .f32 && decide (m < t.minN) then .fin s 0 else .fin s m
  | v => v

/-! ### Exact sums and products -/

/-- A product, and whether it is 0 times infinity (R96, R149). -/
def FP.mul (a b : FP) : FP × Bool :=
  match a, b with
  | .nan _, _ => (.nan false, false)
  | _, .nan _ => (.nan false, false)
  | .inf s, .inf t => (.inf (s != t), false)
  | .inf s, .fin t m => if m = 0 then (.nan false, true) else (.inf (s != t), false)
  | .fin s m, .inf t => if m = 0 then (.nan false, true) else (.inf (s != t), false)
  | .fin s m, .fin t n => (.fin (s != t) (m * n), false)

/-- An exact sum, and whether infinities of both signs meet (R96, R149).  A sum that is zero without its terms being zeros
of one sign is +0, and -0 under RDN. -/
def FP.sum (mode : RMode) (l : List FP) : FP × Bool :=
  if l.any FP.isNan then (.nan false, false)
  else
    let pos := l.contains (.inf false)
    let neg := l.contains (.inf true)
    if pos && neg then (.nan false, true)
    else if pos then (.inf false, false)
    else if neg then (.inf true, false)
    else
      let q := l.foldl (fun acc v => acc + v.toRat) 0
      if q = 0 then
        if !l.isEmpty && l.all (fun v => v == .fin true 0) then (.fin true 0, false)
        else if l.all (fun v => v == .fin false 0) then (.fin false 0, false)
        else (.fin (mode == .rdn) 0, false)
      else (FP.ofRat q, false)

def FP.negate (v : FP) : FP :=
  match v with
  | .nan s => .nan s
  | .inf s => .inf (!s)
  | .fin s m => .fin (!s) m

/-- NV for a signalling NaN among the operands (R90). -/
def snanFlag (l : List FP) : Flags := Flags.when (l.any FP.isSnan) .NV

/-! ### Order -/

/-- Strictly less; a NaN is not less than anything, -0 is not less than +0. -/
def FP.lt (a b : FP) : Bool :=
  match a, b with
  | .nan _, _ => false
  | _, .nan _ => false
  | .inf s, .inf t => s && !t
  | .inf s, .fin _ _ => s
  | .fin _ _, .inf t => !t
  | .fin _ _, .fin _ _ => decide (a.toRat < b.toRat)

/-- Equal as numbers: -0 equals +0. -/
def FP.eq (a b : FP) : Bool :=
  match a, b with
  | .nan _, _ => false
  | _, .nan _ => false
  | .inf s, .inf t => s == t
  | .fin _ _, .fin _ _ => decide (a.toRat = b.toRat)
  | _, _ => false

/-- Less in the order of R150, in which -0 is less than +0. -/
def FP.ltZ (a b : FP) : Bool :=
  a.lt b || (a.isZero && b.isZero && a.neg? && !b.neg?)

/-- minimumNumber and maximumNumber over bits (R150, R188): the chosen bits and whether NV is raised. -/
def FF.minmax (t : FF) (isMax : Bool) (ftz : Bool) (a b : Nat) : Nat × Flags :=
  let x := (t.val a).flush t ftz
  let y := (t.val b).flush t ftz
  let keep := fun (bits : Nat) (v : FP) =>
    if ftz && t == .f32 && v.isZero then t.signBit v.neg? else bits
  let fl := snanFlag [x, y]
  if x.isNan && y.isNan then (t.canonNaN, fl)
  else if x.isNan then (keep b y, fl)
  else if y.isNan then (keep a x, fl)
  else
    let takeB := if isMax then x.ltZ y else y.ltZ x
    (if takeB then keep b y else keep a x, fl)

/-! ### Integers -/

/-- A value's pattern read as a number: two's complement where signed (R91, R130). -/
def readInt (signed : Bool) (w : Nat) (bits : Nat) : Int :=
  if signed && decide (2 ^ (w - 1) ≤ bits % 2 ^ w) then (bits % 2 ^ w : Nat) - (2 ^ w : Nat) else (bits % 2 ^ w : Nat)

/-- WrapW. -/
def wrapInt (w : Nat) (n : Int) : Nat := (n % (2 ^ w : Nat)).toNat

def intMin (signed : Bool) (w : Nat) : Int := if signed then -(2 ^ (w - 1) : Nat) else 0
def intMax (signed : Bool) (w : Nat) : Int := if signed then (2 ^ (w - 1) : Nat) - 1 else (2 ^ w : Nat) - 1

/-- Sat to a range. -/
def satInt (signed : Bool) (w : Nat) (n : Int) : Int :=
  if n < intMin signed w then intMin signed w else if intMax signed w < n then intMax signed w else n

/-- A conversion from a floating-point value to an integer type (R97). -/
def fpToInt (signed : Bool) (w : Nat) (v : FP) (mode : RMode) : Int × Flags :=
  match v with
  | .nan _ => (0, .NV)
  | .inf s => (if s then intMin signed w else intMax signed w, .NV)
  | .fin s m =>
    let n := roundNat m s mode
    let x : Int := if s then -(n : Int) else n
    if x < intMin signed w then (intMin signed w, .NV)
    else if intMax signed w < x then (intMax signed w, .NV)
    else (x, Flags.when ((n : Rat) != m) .NX)

/-! ### Element formats (R66, R170) -/

/-- The floating-point format of an element format. -/
def Fmt.ff? : Fmt → Option FF
  | .fp64 => some .f64
  | .fp32 => some .f32
  | .fp16 => some .f16
  | .bf16 => some .bf16
  | .e4m3 => some .e4m3
  | .e5m2 => some .e5m2
  | _ => none

/-- The format of each element of a floating-point type (R63, R91). -/
def Ty.ff : Ty → FF
  | .f64 => .f64
  | .f16 | .f16x2 => .f16
  | .bf16 | .bf16x2 => .bf16
  | .e4m3x4 => .e4m3
  | .e5m2x4 => .e5m2
  | _ => .f32

/-- Exact conversion of FP bits between formats, canonical NaN for a NaN (R90, R170). -/
def convertBits (src dst : FF) (md : FPMod) (bits : Nat) : Nat := (fpResult dst (src.val bits) md).1

end Sys2Proof
end

