-- ==== Sys2Proof/Machine/Sx.lean ====
section
/-!
DEFINITION. Shared-exponent blocks (R99 to R102), the SX lane word (R156), and the element conversions of loads and stores
(R98, R170).
-/
namespace Sys2Proof

/-- Mantissa width w (R99). -/
def Fmt.sxW : Fmt → Nat
  | .sx3 => 2
  | .sx5 => 4
  | _ => 7

/-- Block size S in bytes (R99). -/
def Fmt.sxSize : Fmt → Nat
  | .sx3 => 8
  | .sx5 => 12
  | _ => 18

/-- The value of an element field (R100). -/
def sxVal (w e m field : Nat) : FP :=
  if e = 255 then .nan false
  else .fin (field / 2 ^ w % 2 == 1) (((field % 2 ^ w : Nat) : Rat) * pow2 ((e : Int) - 127 - m - w))

/-- Fmax (R102). -/
def sxFmax (w : Nat) : Rat := mkRat (2 ^ w - 1 : Nat) (2 ^ w)

/-- A magnitude is at most Fmax * 2^k. -/
def FP.within (v : FP) (w : Nat) (k : Int) : Bool :=
  match v with
  | .fin _ m => decide (m ≤ sxFmax w * pow2 k)
  | _ => false

/-- The scales of a block: E and the micro-exponents of the four quads. -/
structure SxScale where
  e : Nat
  m : List Nat
deriving DecidableEq, Repr

/-- The choice of E and m(0..3) for 16 values (R102). -/
def sxChoose (w : Nat) (xs : List FP) : SxScale :=
  if xs.any FP.isNan then { e := 255, m := [0, 0, 0, 0] }
  else
    let e := ((List.range 255).find? fun (e : Nat) => xs.all fun x => x.within w ((e : Int) - 127)).getD 254
    let quad := fun (j : Nat) => (xs.drop (4 * j)).take 4
    let m := fun (j : Nat) =>
      if (quad j).all FP.isZero then 0
      else ([3, 2, 1].find? fun (m : Nat) => (quad j).all fun x => x.within w ((e : Int) - m - 127)).getD 0
    { e := e, m := [m 0, m 1, m 2, m 3] }

/-- The element field of a value under a scale, with its flags (R102, R157). -/
def sxElem (w e m : Nat) (x : FP) : Nat × Flags :=
  match x with
  | .nan s => (0, Flags.when s .NV)
  | .inf s => if e = 255 then (0, .none) else ((if s then 2 ^ w else 0) + (2 ^ w - 1), Flags.or .OF .NX)
  | .fin s q0 =>
    if e = 255 then (0, .none)
    else
      let q := q0 * pow2 ((w : Int) - ((e : Int) - 127 - m))
      let n := roundNat q s .rne
      let big := decide (2 ^ w - 1 < n)
      let n' := if big then 2 ^ w - 1 else n
      ((if s then 2 ^ w else 0) + n',
        ((Flags.when big .OF).or (Flags.when ((n' : Rat) != q) .NX)).or (Flags.when (q0 != 0 && n' == 0) .UF))

/-- Elements under their scales, as fields and flags; under E = 0xFF only a signalling NaN raises a flag. -/
def sxFields (w : Nat) (sc : SxScale) (xs : List FP) : List (Nat × Flags) :=
  xs.mapIdx fun i x => sxElem w sc.e (sc.m.getD (i / 4) 0) x

/-- The bytes of a block from its scales and fields (R99). -/
def sxPack (fmt : Fmt) (sc : SxScale) (fields : List Nat) : List Nat :=
  let w := fmt.sxW
  let area := (fields.mapIdx fun i f => f * 2 ^ ((w + 1) * i)).foldl (· + ·) 0
  let micro := (sc.m.mapIdx fun j m => m * 4 ^ j).foldl (· + ·) 0
  sc.e :: micro :: (List.range (fmt.sxSize - 2)).map fun k => area / 256 ^ k % 256

/-- A block encoded from 16 values (R102); a block with a NaN is 0xFF and zeros. -/
def sxEncode (fmt : Fmt) (xs : List FP) : List Nat :=
  let sc := sxChoose fmt.sxW xs
  sxPack fmt sc (if sc.e = 255 then [] else (sxFields fmt.sxW sc xs).map (·.1))

/-- Element i of a block (R99, R100). -/
def sxDecode (fmt : Fmt) (block : List Nat) (i : Nat) : FP :=
  let w := fmt.sxW
  let area := ((block.drop 2).mapIdx fun k b => b * 256 ^ k).foldl (· + ·) 0
  sxVal w (block.getD 0 0) (block.getD 1 0 / 4 ^ (i / 4) % 4) (area / 2 ^ ((w + 1) * i) % 2 ^ (w + 1))

/-! ### The SX lane word (R156) -/

def sxWordE (x : W32) : Nat := (x.extractLsb' 16 8).toNat
def sxWordM (x : W32) : Nat := (x.extractLsb' 8 2).toNat
def sxWord (e m el : Nat) : W32 := BitVec.ofNat 32 (e * 65536 + m * 256 + el)

/-! ### Loads and stores of elements (R98, R170) -/

/-- Bytes of an element, other than INT4 and SX, that an access touches (R170). -/
def Fmt.bytes : Fmt → Nat
  | .raw32 | .int32 | .fp32 => 4
  | .raw64 | .int64 | .fp64 => 8
  | .int8 | .int4 | .e4m3 | .e5m2 => 1
  | .fp16 | .bf16 => 2
  | f => f.sxSize

/-- The bits that a load writes from the bits of memory (R170): `raw` holds the element's own bytes, or the byte of an INT4
element, or the block of an SX element, least significant first; `elem` selects within it (R171). -/
def Fmt.loadBits (fmt : Fmt) (zx : Bool) (elem raw : Nat) : Nat :=
  match fmt with
  | .int8 => wrapInt 32 (readInt (!zx) 8 raw)
  | .int4 => wrapInt 32 (readInt (!zx) 4 (raw / 16 ^ elem))
  | .fp16 => convertBits .f16 .f32 .rne raw
  | .bf16 => convertBits .bf16 .f32 .rne raw
  | .e4m3 => convertBits .e4m3 .f32 .rne raw
  | .e5m2 => convertBits .e5m2 .f32 .rne raw
  | .sx3 | .sx5 | .sx8 =>
    (fpResult .f32 (sxDecode fmt ((List.range fmt.sxSize).map fun k => raw / 256 ^ k % 256) elem) .rne).1
  | _ => raw

/-- The bits that a store writes for a register value, other than an SX block (R170). -/
def Fmt.storeBits (fmt : Fmt) (x : Nat) : Nat :=
  match fmt with
  | .int8 => wrapInt 8 (satInt true 8 (readInt true 32 x))
  | .int4 => wrapInt 4 (satInt true 4 (readInt true 32 x))
  | .fp16 => convertBits .f32 .f16 .store x
  | .bf16 => convertBits .f32 .bf16 .store x
  | .e4m3 => convertBits .f32 .e4m3 .store x
  | .e5m2 => convertBits .f32 .e5m2 .store x
  | _ => x

end Sys2Proof
end

