-- ==== Sys2Proof/Machine/Operands.lean ====
section
/-!
DEFINITION. Every operand form (R12, R13, R22, R56, R57): immediates, registers with the reads of R80, frame slots (R201),
and the places that results go to.
-/
namespace Sys2Proof

/-! ### Immediates (R57) -/

/-- The 9-bit value of a small immediate, or the word of IMM/MOD, with `true` for the latter. -/
def Operand.immParts (o : Operand) (imm : W32) : Int × Bool :=
  match o with
  | .imm n => (n.toInt, false)
  | _ => (imm.toNat, true)

/-- The bits of an element repeated through a 32-bit register. -/
def spread (width n : Nat) : Nat := ((List.range (32 / width)).map fun i => n * 2 ^ (width * i)).foldl (· + ·) 0

/-- An immediate's value as the row of its type gives it (R57). -/
def immBits (t : Ty) (o : Operand) (imm : W32) : W64 :=
  let p := o.immParts imm
  let asFloat := fun (ff : FF) =>
    if p.2 then (if ff = .f32 then imm.toNat else convertBits .f32 ff .rne imm.toNat)
    else (fpResult ff (FP.ofInt p.1) .rne).1
  let n := match t with
    | .i32 | .u32 | .b32 => if p.2 then imm.toNat else wrapInt 32 p.1
    | .i64 | .u64 | .b64 => if p.2 then wrapInt 64 imm.toInt else wrapInt 64 p.1
    | .f32 => asFloat .f32
    | .f64 => asFloat .f64
    | .f16 => asFloat .f16
    | .bf16 => asFloat .bf16
    | .f16x2 => spread 16 (asFloat .f16)
    | .bf16x2 => spread 16 (asFloat .bf16)
    | .e4m3x4 | .e5m2x4 | .i8x4 => if p.2 then imm.toNat else spread 8 (wrapInt 8 p.1)
    | .i4x8 => if p.2 then imm.toNat else spread 4 (wrapInt 4 p.1)
  BitVec.ofNat 64 n

/-- The 12-bit field of an operand (R12), as a trap record names it. -/
def Operand.code (o : Operand) : W32 :=
  match o with
  | .vec n => BitVec.ofNat 32 n.toNat
  | .uni n => BitVec.ofNat 32 (0x400 + n.toNat)
  | .slot d k => BitVec.ofNat 32 (0x800 + 128 * d.toNat + k.toNat)
  | .imm n => BitVec.ofNat 32 (0xC00 + n.toNat)
  | .immWord => 0xE00

def joinWords (lo hi : W32) : W64 := (hi.zeroExtend 64 <<< 32) ||| lo.zeroExtend 64

def loWord (v : W64) : W32 := v.extractLsb' 0 32
def hiWord (v : W64) : W32 := v.extractLsb' 32 32

namespace Machine

/-! ### The issuing instruction -/

/-- What an issuing instruction sees: its fragment, control fields, word, active lanes (N21), and the free-value counter. -/
structure Ctx where
  blk : Block
  sid : Nat
  st : Strand
  fr : Frag
  ctl : Ctl
  word : InstrWord
  active : Lanes
  fresh : Nat
deriving DecidableEq, Repr

def Ctx.lanes (x : Ctx) : List Nat := lanesOf x.active

/-- The lowest-numbered active lane. -/
def Ctx.lead (x : Ctx) : Nat := lowest x.active

/-! ### Results that have arrived and are not written (R80) -/

/-- The part of a result that goes to a destination. -/
def partOf (part : Nat) (t : Tgt) (v : W64) (ap : Bool) : PWrite :=
  match t with
  | .vreg r L => .vreg r L (if part = 1 then hiWord v else loWord v)
  | .ureg r => .ureg r v
  | .pred n L => .pred n L ap
  | .slot L loc => .slot L loc (if part = 1 then hiWord v else loWord v)

/-- The writes of bound lanes. -/
def dstWrites (dst : Dst) (done : List (Nat × W64 × Bool)) : List PWrite :=
  dst.filterMap fun d =>
    match done.find? fun r => r.1 == d.1 with
    | some r => some (partOf d.2.1 d.2.2 r.2.1 r.2.2)
    | none => none

def OpKind.dst : OpKind → Dst
  | .load d _ _ _ => d
  | .atomic _ _ d _ _ => d
  | .bartry d _ _ _ => d
  | .spawn d _ _ => d
  | .ctxld _ ts _ => ts.map fun t => (0, 0, t)
  | _ => []

/-- The results an operation holds so far. -/
def OpKind.results : OpKind → List PWrite
  | .load d _ _ done => dstWrites d (done.map fun r => (r.1, r.2, false))
  | .atomic _ _ d _ done => dstWrites d done
  | .spawn d _ done => dstWrites d (done.map fun r => (r.1, 0, r.2))
  | _ => []

/-- The writes that an operation still has to make. -/
def Op.pending (o : Op) : List Tgt := (o.kind.dst.map fun d => d.2.2).filter fun t => !o.dropped.contains t

def Op.writes (o : Op) : List PWrite := o.kind.results.filter fun w => !o.dropped.contains w.tgt

/-- Targets of the strand's fixed-latency results that wait. -/
def Strand.waiting (st : Strand) : List Tgt := st.pendw.flatMap fun p => p.writes.map PWrite.tgt

/-- The predicates of a strand that a signed MITER will write (R229). -/
def Capture.preds (c : Capture) (sid : Nat) : List Tgt :=
  match c.instr with
  -- a write to p7 is discarded (R34)
  | .miter _ f =>
    if f.ops.b.num = 7 then [] else (c.signers.filter fun g => g.strand == sid).flatMap fun g =>
      ((lanesOf g.lanes).map fun L => Tgt.pred f.ops.b.num L).filter fun t => !c.dropped.contains (sid, t)
  | _ => []

/-- The destinations of an engine operation in a strand. -/
def EngOp.pending (o : EngOp) (sid : Nat) : List Tgt :=
  if o.cap.signers.any fun g => g.strand == sid then
    ((o.dst.map fun d => d.2.2).filter fun t => !o.cap.dropped.contains (sid, t)) ++ o.cap.preds sid
  else []

/-- Every destination of the strand with a write still in flight: fixed and variable latency, the engine's among them. -/
def Block.inFlight (b : Block) (sid : Nat) : List Tgt :=
  (b.strand sid).waiting ++ ((b.flight.filter fun o => o.strand == sid).flatMap Op.pending) ++
  (match b.eng with
   | some e => e.queue.flatMap fun o => o.pending sid
   | none => []) ++
  b.cvs.flatMap fun kv => match kv.2.cap with
    | some c => c.preds sid
    | none => []

/-- The values that ACCLD has bound and not yet written. -/
def EngOp.writes (o : EngOp) (sid : Nat) : List PWrite :=
  if o.cap.signers.any fun g => g.strand == sid then
    (dstWrites o.dst (o.bound.map fun r => (r.1, r.2, false))).filter fun w => !o.cap.dropped.contains (sid, w.tgt)
  else []

/-- The value that an in-flight variable-latency write has brought for a destination and not yet written: that of the
latest of them in issue order. -/
def Block.arrived (b : Block) (sid : Nat) (t : Tgt) : Option PWrite :=
  let ws := ((b.flight.filter fun o => o.strand == sid).flatMap fun o => o.writes.map fun w => (o.id, w)) ++
    (match b.eng with
     | some e => e.queue.flatMap fun o => (o.writes sid).map fun w => (o.id, w)
     | none => [])
  (ws.foldl (fun acc w => if w.2.tgt = t ∧ acc.all (fun a => decide (a.1 ≤ w.1)) then some w else acc) none).map (·.2)

/-! ### Registers as an instruction reads them (R22, R80) -/

/-- The free choice of R80, one for each register read of an issue (log 10, DESIGN CHOICE). -/
def Ctx.choice (x : Ctx) (key : Nat) : Bool := Config.freeChoice (x.fresh * 2 ^ 20 + key)

def Ctx.vreg (x : Ctx) (n L : Nat) : W32 :=
  match x.blk.arrived x.sid (.vreg n L) with
  | some (.vreg _ _ v) => if x.choice (vIndex n L) then v else x.st.vreg n L
  | _ => x.st.vreg n L

/-- Each half of a uniform register chooses for itself. -/
def Ctx.ureg (x : Ctx) (n : Nat) : W64 :=
  match x.blk.arrived x.sid (.ureg n) with
  | some (.ureg _ v) =>
    let old := x.st.ureg n
    joinWords (if x.choice (2 ^ 15 + 2 * n) then loWord v else loWord old)
      (if x.choice (2 ^ 15 + 2 * n + 1) then hiWord v else hiWord old)
  | _ => x.st.ureg n

def Ctx.pred (x : Ctx) (n L : Nat) : Bool :=
  if n = 7 then true
  else
    match x.blk.arrived x.sid (.pred n L) with
    | some (.pred _ _ v) => if x.choice (2 ^ 16 + vIndex n L) then v else x.st.pred n L
    | _ => x.st.pred n L

/-- The guard of a lane (R15, R54). -/
def Ctx.guardTrue (x : Ctx) (L : Nat) : Bool :=
  x.pred (x.ctl.guard.toNat % 8) L != x.ctl.guard.getLsbD 3

/-! ### Frame slots (R173, R201, R209) -/

/-- A byte of a block's scratchpad window (R201, R273). -/
def State.scratchLoc (s : State) (b : Block) (off : Nat) : Option Loc :=
  if off < b.grant then
    match spadAddr (s.core b.core).spown b.quad (b.window + off) with
    | some a => some (.spad b.core a)
    | none => none
  else none

/-- The block whose scratchpad a pointer of tag 2 or 3 names, and the offset; `none` where its address bits are not zero. -/
def State.scratchBase (s : State) (b : Block) (a : W64) : Option (Block × Nat) :=
  if tagOf a = 2 then
    if a.extractLsb' 20 40 = 0 then some (b, (a.extractLsb' 0 20).toNat) else none
  else if tagOf a = 3 then
    if a.extractLsb' 22 38 = 0 then
      match s.rankBlock b (a.extractLsb' 20 2).toNat with
      | some r => if (a.extractLsb' 20 2).toNat < b.hdr.cluster then some (r, (a.extractLsb' 0 20).toNat) else none
      | none => none
    else none
  else none

/-- `n` bytes of scratchpad at a pointer; `none` out of bounds (R168). -/
def State.scratchLocs (s : State) (b : Block) (a : W64) (n : Nat) : Option (List Loc) :=
  match s.scratchBase b a with
  | none => none
  | some (r, off) =>
    if off + n ≤ r.grant then
      (List.range n).foldr (fun i acc => match acc, s.scratchLoc r (off + i) with
        | some l, some x => some (x :: l)
        | _, _ => none) (some [])
    else none

/-- The VA of the word that holds private byte p of a lane (R173). -/
def Block.privVa (b : Block) (sid L p : Nat) : Nat :=
  b.privBase sid + ((p / 4) * b.width + L) * 4 + p % 4

/-- Formats that a private page may carry (R173). -/
def privFmtOk (code : Nat) : Bool := code == 0x00 || code == 0x04 || code == 0x0A

/-- Why a slot or an address cannot be reached; `no` is the place of the check in its order (R24, R169). -/
structure Miss where
  no : Nat
  cause : Cause
  addr : W64
deriving DecidableEq, Repr

/-- The words of `n` bytes at private offset p of a lane (R173, R201); `a` is the address that a fault reports. -/
def State.privSlots (s : State) (x : Ctx) (p n : Nat) (a : W64) (write : Bool) (L : Nat) : Except Miss (List Loc) :=
  if p + n ≤ x.blk.privlim then
    (List.range (n / 4)).foldr (fun i acc =>
      let va := x.blk.privVa x.sid L (p + 4 * i)
      match s.translate (some x.blk.quadId) x.blk.ten (s.spasid x.blk) va (if write then .write else .read) with
      | none => .error ⟨4, .access, a⟩
      | some t =>
        match acc with
        | .error e => .error e
        | .ok l => if privFmtOk t.fmt.toNat then .ok (.phys (t.pa va) :: l) else .error ⟨5, .format, a⟩) (.ok [])
  else .error ⟨2, .stack, 0x4000000000000000#64 + BitVec.ofNat 64 x.blk.privlim⟩

/-- The words of a slot or slot pair as a lane sees them (R201): at most two places of four bytes. -/
def State.slotWords (s : State) (x : Ctx) (d k : Nat) (wide write : Bool) (L : Nat) : Except Miss (List Loc) :=
  let ptr := (x.st.dispReg d L).ptr
  let a := ptr + BitVec.ofNat 64 (4 * k)
  let n := if wide then 8 else 4
  let q := s.l1Quad x.blk
  match d with
  | 0 =>
    if write then .error ⟨2, .access, a⟩
    else
      match va56 (a &&& 0x0FFFFFFFFFFFFFFF#64) with
      | none => .error ⟨2, .access, a⟩
      | some va =>
        match s.vaLocs (some (q 0)) x.blk.ten x.blk.pasid va n .read with
        | some l => .ok ((List.range (n / 4)).map fun i => .phys (l.getD (4 * i) 0))
        | none => .error ⟨2, .access, a⟩
  | 1 | 2 =>
    if 4 * k + n ≤ (if d = 1 then x.blk.hdr.cframe else x.blk.hdr.bframe) then
      match s.scratchLocs x.blk a n with
      | some l => .ok ((List.range (n / 4)).map fun i => l.getD (4 * i) (.phys 0))
      | none => .error ⟨2, .access, a⟩
    else .error ⟨2, .access, a⟩
  | _ => s.privSlots x ((ptr.extractLsb' 0 32).toNat + 4 * k) n a write L

/-- A slot's value: the places' bytes, as a load binds them; 0 where the slot cannot be reached (log 13, DESIGN CHOICE). -/
def State.slotVal (s : State) (x : Ctx) (d k : Nat) (wide : Bool) (L : Nat) : W64 :=
  match s.slotWords x d k wide false L with
  | .ok ws =>
    BitVec.ofNat 64 (leNum ((ws.flatMap fun l => l.span 4).map fun l => match l with
      | .phys pa => s.mem.readLoc (s.l1Quad x.blk pa) l
      | l => s.mem.readLoc 0 l))
  | .error _ => 0

/-! ### Values (R22) -/

/-- Read32 or Read64 of an operand in a lane; `t` chooses the row of R57 for an immediate. -/
def State.operand (s : State) (x : Ctx) (t : Ty) (wide : Bool) (o : Operand) (imm : W32) (L : Nat) : W64 :=
  match o with
  | .vec n => if wide then joinWords (x.vreg n.toNat L) (x.vreg (n.toNat + 1) L) else (x.vreg n.toNat L).zeroExtend 64
  | .uni n => if wide then x.ureg n.toNat else (loWord (x.ureg n.toNat)).zeroExtend 64
  | .slot d k => s.slotVal x d.toNat k.toNat wide L
  | o => if wide then immBits t o imm else (loWord (immBits t o imm)).zeroExtend 64

/-- An operand read at its type's width. -/
def State.opTy (s : State) (x : Ctx) (t : Ty) (o : Operand) (imm : W32) (L : Nat) : W64 := s.operand x t t.wide o imm L

/-- An operand read as a 32-bit integer (R57). -/
def State.op32 (s : State) (x : Ctx) (o : Operand) (imm : W32) (L : Nat) : Nat := (s.operand x .u32 false o imm L).toNat

/-- A 64-bit operand: a pointer, a mask, a link (R13). -/
def State.op64 (s : State) (x : Ctx) (o : Operand) (L : Nat) : W64 := s.operand x .u64 true o 0 L

/-! ### Destinations -/

/-- The destinations of one lane of an operand that lanes own, or of the uniform register (R22, R130). -/
def State.placeOf (s : State) (x : Ctx) (o : Operand) (wide : Bool) (L : Nat) : Dst :=
  match o with
  | .vec n => if wide then [(L, 0, .vreg n.toNat L), (L, 1, .vreg (n.toNat + 1) L)] else [(L, 0, .vreg n.toNat L)]
  | .uni n => [(L, 0, .ureg n.toNat)]
  | .slot d k =>
    match s.slotWords x d.toNat k.toNat wide true L with
    | .ok ws => ws.mapIdx fun i l => (L, i, .slot L l)
    | .error _ => []
  | _ => []

/-- A predicate of a lane as a destination; p7 takes none (R34). -/
def predPlace (o : Operand) (L : Nat) : Dst := if o.num = 7 then [] else [(L, 2, .pred o.num L)]

/-- The writes of values to an operand: for each active lane, or once for a uniform register (R130). -/
def State.writesTo (s : State) (x : Ctx) (o : Operand) (wide : Bool) (v : Nat → W64) : List PWrite :=
  match o with
  | .uni n => if x.active = 0 then [] else [.ureg n.toNat (if wide then v x.lead else (loWord (v x.lead)).zeroExtend 64)]
  | _ => x.lanes.flatMap fun L => (s.placeOf x o wide L).map fun d => partOf d.2.1 d.2.2 (v L) false

/-- The writes of a predicate in every active lane. -/
def predWrites (x : Ctx) (o : Operand) (v : Nat → Bool) : List PWrite :=
  if o.num = 7 then [] else x.lanes.map fun L => .pred o.num L (v L)

end Machine
end Sys2Proof
end

