-- ==== Sys2Proof/Machine/Checks.lean ====
section
/-!
DEFINITION. The checks at issue, in the order of R83: what a word reads, early reads and register errors (R80, R269), display
registers (R35), must-be-uniform operands (R53), slots (R201), and what an instruction's own entry adds.
-/
namespace Sys2Proof
open Machine

/-! ### The issuing context -/

/-- The context of the instruction that `State.cur` says is issuing. -/
def Machine.State.ctx (s : State) (c : Ctl) : Option Ctx :=
  match s.cur with
  | none => none
  | some is =>
    match s.block is.ref.blk with
    | none => none
    | some b =>
      let st := b.strand is.ref.strand
      match st.fragOf is.ref.lane with
      | none => none
      | some f =>
        let x0 : Ctx :=
          { blk := b, sid := is.ref.strand, st := st, fr := f, ctl := c, word := is.word, active := 0, fresh := s.fresh }
        some { x0 with active := laneSet fun L => f.lanes.getLsbD L && x0.guardTrue L }

/-- Thread numbers of the active lanes, as bits of the block (R30). -/
def threadSet (b : Block) (sid : Nat) (m : Lanes) : BitVec 1024 :=
  (lanesOf m).foldl (fun acc L => acc ||| (1#1024 <<< (sid * b.width + L))) 0#1024

def Machine.Block.cv (b : Block) (n : Nat) : Conv := b.cvs.get Conv.empty n

/-- The slot operands of an instruction, `true` for a destination. -/
def Use.slots (u : Use) : List (Opd × Bool) :=
  (u.reads.filterMap fun o => if o.op.isSlot then some (o, false) else Option.none) ++
  (u.writes.filterMap fun o => if o.op.isSlot then some (o, true) else Option.none)

def slotWordsOf (s : State) (x : Ctx) (o : Opd) (write : Bool) (L : Nat) : Except Miss (List Loc) :=
  match o.op with
  | .slot d k => s.slotWords x d.toNat k.toNat o.wide write L
  | _ => .ok []

/-- The lanes for which an operand is read: the active ones, or the lowest of them (R130). -/
def Opd.lanes (o : Opd) (x : Ctx) : List Nat :=
  if o.lead then (if x.active = 0 then [] else [x.lead]) else x.lanes

/-- The words of the slots that an issue reads. -/
def Instr.slotReads (i : Instr) (s : State) (x : Ctx) : List Loc :=
  i.use.slots.flatMap fun ow => if ow.2 then [] else (ow.1.lanes x).flatMap fun L =>
    match slotWordsOf s x ow.1 false L with
    | .ok ws => ws
    | .error _ => []

/-- The slots that an issue reads are searched for soft errors (R275). -/
def Instr.scanSlots (i : Instr) (s : State) (x : Ctx) : State :=
  if s.mem.errs.isEmpty then s else s.scanLoad x.blk ((i.slotReads s x).flatMap fun w => w.span 4)

/-! ### The checks, in the order of R83 -/

/-- A register operand within the strand's allocation (R33). -/
def Opd.allocated (h : KHeader) (o : Opd) : Bool :=
  match o.op with
  | .vec n => decide (n.toNat + (if o.wide then 1 else 0) < 8 * h.vgran)
  | .uni n => decide (n.toNat < 8 * h.sgran)
  | _ => true

/-- Tiles, planes and coefficient registers within the block's engine need (R32). -/
def Instr.engineOk (i : Instr) (h : KHeader) : Bool :=
  let tile := fun (o : Operand) => decide (o.num < h.atiles)
  match i with
  | .mzero _ f | .mstream _ f | .accst _ f | .accchk _ f | .accplane _ f => tile f.ops.d
  | .accld _ f => tile f.ops.a
  | .accmov _ f => tile f.ops.d && tile f.ops.a
  -- MITER works on tile y and its partner (R227); `.poly` reads another
  | .miter _ f => tile f.ops.d && decide (f.ops.d.num ^^^ 1 < h.atiles) && (f.sub != 2 || tile f.ops.a) && h.atiles != 0
  | .ldstat _ _ | .pswap _ _ | .kld _ _ | .kmov _ _ => h.atiles != 0
  | _ => true

/-- The ILLEGAL conditions of R82: the word, the allocation, the engine. -/
def Instr.illegal (i : Instr) (x : Ctx) : Bool :=
  !i.wf || !((i.use.reads ++ i.use.writes).all fun o => o.allocated x.blk.hdr) || !i.engineOk x.blk.hdr

/-- The groups of R41. -/
def Instr.roleOk (i : Instr) (r : Role) : Bool :=
  let o := i.opc.toNat
  let av := r == .A || r == .V
  if o == 0x0E then r == .A
  else if o < 0x10 then true
  else if o < 0x90 then
    let u := i.use
    u.writesUniform ||
    ([0x23, 0x45, 0x27, 0x28].contains o && u.writes.isEmpty &&
      u.reads.all fun p => p.op.isUni || p.op.isImm) || av
  else if o == 0x9B || o == 0x9C then r == .C
  else if o ≤ 0x9A then av
  else if o ≤ 0x9F then r == .A
  else if o ≤ 0xB5 then av
  else if o ≤ 0xCC then true
  else if o == 0xD0 || o == 0xD1 || o == 0xD9 then r == .A
  else if o ≤ 0xD8 then true
  else if o == 0xE4 || o == 0xE5 || o == 0xE6 then r != .C
  else r == .M

/-- A register that an instruction reads, with its destination form and the operand field that a record names. -/
structure Reading where
  tgt : Tgt
  code : W32
  lane : Nat
deriving DecidableEq, Repr

def Opd.readings (o : Opd) (L : Nat) : List Reading :=
  match o.op with
  | .vec n =>
    ⟨.vreg n.toNat L, BitVec.ofNat 32 n.toNat, L⟩ ::
      (if o.wide then [⟨.vreg (n.toNat + 1) L, BitVec.ofNat 32 (n.toNat + 1), L⟩] else [])
  | .uni n => [⟨.ureg n.toNat, BitVec.ofNat 32 (0x400 + n.toNat), L⟩]
  | _ => []

/-- Every register and predicate that an issue reads: the guard in every lane, the rest in the active lanes, or in the
lowest of them alone (R80, R130). -/
def Instr.readings (i : Instr) (x : Ctx) : List Reading :=
  let u := i.use
  ((lanesOf x.fr.lanes).map fun L => ⟨.pred (x.ctl.guard.toNat % 8) L, BitVec.ofNat 32 (0xC00 + x.ctl.guard.toNat % 8), L⟩) ++
  x.lanes.flatMap fun L =>
    (u.reads.flatMap fun o => if o.lead && L != x.lead then [] else o.readings L) ++
    if u.leadPreds && L != x.lead then []
    else u.predReads.map fun n => ⟨.pred n L, BitVec.ofNat 32 (0xC00 + n), L⟩

/-- A trap for the lanes of the readings that satisfy `p`; the code is that of the first (R316). -/
def readTrap (c : Cause) (rs : List Reading) (p : Reading → Bool) : Option Trap :=
  match rs.filter p with
  | [] => none
  | r :: rest => some (Trap.of c (laneSet fun L => (r :: rest).any fun q => q.lane == L) 0 r.code)

/-- R80 under CHK = 1. -/
def Instr.stallTrap (i : Instr) (x : Ctx) : Option Trap :=
  if !fmodeChk x.st.fmode then none
  else
    let fl := x.blk.inFlight x.sid
    if fl.isEmpty then none else readTrap .stallchk (i.readings x) fun r => fl.contains r.tgt

/-- A word of a protected array that an issue reads for a lane, with the operand field that a record names (R268, R316). -/
structure ErrRead where
  loc : ErrLoc
  code : W32
  lane : Nat
deriving DecidableEq, Repr

def Machine.Ctx.errRead (x : Ctx) (r : Reading) : ErrRead := ⟨errOf x.blk.uid x.sid r.tgt, r.code, r.lane⟩

/-- The number of DSPR and DSPW: DEPTH, or with `.x` the low bits of an operand, which must be uniform (R212). -/
def Machine.State.dispNum (s : State) (x : Ctx) (f : SFmt) (o : Operand) (L : Nat) : Nat :=
  if f.sub == 1 then s.op32 x o f.ops.imm L % 8 else f.sd.toNat

/-- The display registers that an instruction's own effect reads in a lane (R203 to R208, R212). -/
def Instr.dispReads (i : Instr) (s : State) (x : Ctx) (L : Nat) : List Nat :=
  match i with
  | .dspr _ f => [s.dispNum x f f.ops.a L]
  | .fenter _ _ => [(x.st.lane L).cd.toNat]
  | .fleave _ _ => [(x.st.lane L).cd.toNat, (x.st.lane L).top.toNat]
  | .bfenter _ _ | .bfleave _ _ => [2]
  | .cfenter _ _ | .cfleave _ _ => [1]
  | _ => []

/-- The words beside registers that an issue reads: the convergence register that it signs, the internal one of BFENTER and
BFLEAVE, FMODE, ISTAT under SRD, and display registers.  TCODE is the number of the word's operand or special register, the slot's
operand field, or where the word has none of these 0 (which words: log 67, DEDUCED; the TCODE: log 93, DESIGN CHOICE). -/
def Instr.wordReads (i : Instr) (s : State) (x : Ctx) : List ErrRead :=
  let u := x.blk.uid
  let conv := match i with
    | .bfenter _ _ | .bfleave _ _ => [(ErrLoc.conv u 8, 0)]
    | i => (i.convReg.toList).map fun n => (ErrLoc.conv u n, 0xC00 + n)
  let own := (if i.readsFmode then [(ErrLoc.fmode u x.sid, 0x00E)] else []) ++
    (match i with
      | .srd _ f => if f.sel == 0x00F then [(ErrLoc.istat u, 0x00F)] else []
      | _ => [])
  x.lanes.flatMap fun L =>
    ((conv ++ own).map fun p => ⟨p.1, BitVec.ofNat 32 p.2, L⟩) ++
    ((i.use.slots.filter fun ow => (ow.1.lanes x).contains L).filterMap fun ow => match ow.1.op with
      | .slot d _ => some ⟨.disp u x.sid d.toNat L, ow.1.op.field.zeroExtend 32, L⟩
      | _ => none) ++
    (i.dispReads s x L).map fun n => ⟨.disp u x.sid n L, 0, L⟩

def Instr.errReads (i : Instr) (s : State) (x : Ctx) : List ErrRead := (i.readings x).map x.errRead ++ i.wordReads s x

/-- ECC for the lanes of the reads that meet an uncorrectable error; the code is that of the first (R269, R316). -/
def errTrap (s : State) (rs : List ErrRead) : Option Trap :=
  match rs.filter fun r => s.mem.errs.contains (r.loc, false) with
  | [] => none
  | r :: rest => some (Trap.of .ecc (laneSet fun L => (r :: rest).any fun q => q.lane == L) 0 r.code)

/-- A read that finds an uncorrectable error in a register or a state word (R269). -/
def Instr.eccTrap (i : Instr) (s : State) (x : Ctx) : Option Trap :=
  if s.mem.errs.isEmpty then none else errTrap s (i.errReads s x)

/-- Errors corrected by reads are written back and counted (R269). -/
def Machine.State.corrected (s : State) (core quad : Nat) (p : ErrLoc → Bool) : State :=
  if s.mem.errs.isEmpty then s
  else
    let found := s.mem.errs.filter fun e => e.2 && p e.1
    let s := s.setMem { s.mem with errs := s.mem.errs.filter fun e => !found.contains e }
    found.foldl (fun s _ => s.countQuad core quad 0) s

/-- R35: a slot operand whose display register is not valid in an active lane. -/
def Instr.frameTrap (i : Instr) (x : Ctx) : Option Trap :=
  let bad := fun (o : Operand) (L : Nat) => match o with
    | .slot d _ => !(x.st.dispReg d.toNat L).valid
    | _ => false
  let ops := i.use.slots.map fun ow => ow.1.op
  match ops.filter fun o => x.lanes.any (bad o) with
  | [] => none
  | o :: rest =>
    let depth := match o with | .slot d _ => d.toNat | _ => 0
    some (Trap.of .frame (laneSet fun L => x.active.getLsbD L && (o :: rest).any fun q => bad q L) 0 (BitVec.ofNat 32 depth))

/-- A trap for the lowest lane of which `p` gives an address (R24, R316). -/
def laneTrap (c : Cause) (lanes : List Nat) (p : Nat → Option W64) : Option Trap :=
  match lanes.findSome? fun L => (p L).map fun a => (L, a) with
  | some (L, a) => some (Trap.of c (oneLane L) a 0)
  | none => none

/-- The first of the failures that the earliest check gives, for the lowest lane (R24): each lane's own first failure with
the number of its check. -/
def firstFail (fs : List (Nat × Nat × Trap)) : Option Trap :=
  match fs with
  | [] => none
  | f :: rest => some (rest.foldl (fun b r => if r.2.1 < b.2.1 then r else b) f).2.2

/-- The bounds of slot operands (R201): of the conditions of one operand that any lane fails, the first (R24). -/
def Instr.slotBounds (i : Instr) (s : State) (x : Ctx) : Option Trap :=
  i.use.slots.findSome? fun ow =>
    firstFail ((ow.1.lanes x).filterMap fun L =>
      match slotWordsOf s x ow.1 ow.2 L with
      | .error m => some (L, m.no, Trap.of m.cause (oneLane L) m.addr 0)
      | .ok _ => none)

/-- ECC in memory for every lane that meets it, with the lowest one's address (R24, R316). -/
def eccLanes (lanes : List Nat) (bad : Nat → Bool) (addr : Nat → W64) : Option Trap :=
  match lanes.filter bad with
  | [] => none
  | L :: rest => some (Trap.of .ecc (laneSet fun M => (L :: rest).contains M) (addr L) 0xFFFFFFFF#32)

/-- Poison in the slots read (R275). -/
def Instr.slotPoison (i : Instr) (s : State) (x : Ctx) : Option Trap :=
  if !s.mem.anyBad then none
  else i.use.slots.findSome? fun ow =>
    if ow.2 then none
    else eccLanes (ow.1.lanes x) (fun L => match slotWordsOf s x ow.1 false L with
        | .ok ws => s.loadBad x.blk (ws.flatMap fun w => w.span 4)
        | .error _ => false)
      fun L => match ow.1.op with
        | .slot d k => (x.st.dispReg d.toNat L).ptr + BitVec.ofNat 64 (4 * k.toNat)
        | _ => 0

def Instr.slotTrap (i : Instr) (s : State) (x : Ctx) : Option Trap :=
  (i.slotBounds s x).orElse fun _ => i.slotPoison s x

/-- R53: the lanes that differ from the lowest active lane in any must-be-uniform value. -/
def uniformTrap (x : Ctx) (vals : List (Nat → W64)) : Option Trap :=
  let diff := laneSet fun L => x.active.getLsbD L && vals.any fun v => v L != v x.lead
  if diff = 0 then none else some (Trap.of .uniform diff 0 (BitVec.ofNat 32 x.lead))

/-- What an instruction's own entry adds to the common checks. -/
structure Entry where
  /-- ILLEGAL conditions that depend on the running block -/
  illegal : State → Ctx → Bool
  /-- must-be-uniform operands (R52) -/
  uniform : State → Ctx → List (Nat → W64)
  /-- the checks of a signature (R50) -/
  sign : State → Ctx → Option Trap
  /-- what the issue leaves even when the entry's own faults end it (a failed guard's count, R117) -/
  before : State → Ctx → State

def Entry.plain : Entry :=
  { illegal := fun _ _ => false, uniform := fun _ _ => [], sign := fun _ _ => none, before := fun s _ => s }

/-- An entry with must-be-uniform operands. -/
def Entry.same (vals : State → Ctx → List (Nat → W64)) : Entry := { Entry.plain with uniform := vals }

/-- What an issue reads, it searches for soft errors (R178, R269). -/
def Entry.scans (e : Entry) (scan : State → Ctx → State) : Entry :=
  { e with before := fun s x => let s := e.before s x; if s.mem.errs.isEmpty then s else scan s x }

/-- The checks in the order of R83, up to the slots that the instruction reads: they have no effect (R82). -/
def Instr.early (i : Instr) (e : Entry) (s : State) (x : Ctx) : Option Trap :=
  if i.illegal x || e.illegal s x then some (Trap.illegalWord x.active x.word)
  else if !i.roleOk x.st.role then some (Trap.of .role x.fr.lanes 0 0)
  else
    (i.stallTrap x).orElse fun _ => (i.eccTrap s x).orElse fun _ => (i.frameTrap x).orElse fun _ =>
      (uniformTrap x (e.uniform s x)).orElse fun _ => e.sign s x

/-- The checks in the order of R83, up to the entry's own faults. -/
def Instr.check (i : Instr) (e : Entry) (s : State) (x : Ctx) : Option Trap :=
  (i.early e s x).orElse fun _ => i.slotTrap (i.scanSlots s x) x

/-- The state once the checks have been made: the slots have been read, unless an earlier check failed. -/
def Instr.looked (i : Instr) (e : Entry) (s : State) (x : Ctx) : State :=
  if (i.early e s x).isSome then s else i.scanSlots s x

end Sys2Proof
end

