-- ==== Sys2Proof/Machine/Signing.lean ====
section
/-!
DEFINITION. The checks of a signature (R49, R50, R53, R216): what each convergent instruction compares with the open
generation's capture, and the hold of a lane that has signed it.
-/
namespace Sys2Proof
open Machine

def countRows (v : W32) : Nat := (v.extractLsb' 0 7).toNat
def countCols (v : W32) : Nat := (v.extractLsb' 8 7).toNat

def countsOk (v : W32) : Bool :=
  decide (1 ≤ countRows v) && decide (countRows v ≤ 64) && decide (1 ≤ countCols v) && decide (countCols v ≤ 64)

namespace Machine

/-! ### The cluster's internal register -/

def Cluster.none (id : Nat) : Cluster :=
  { id := id, size := 1, decl := 0, sig := 0, cap := Option.none, lane := 0, signers := [], instrs := 0 }

def State.cluster (s : State) (id : Nat) : Cluster := (s.clusters.find? fun c => c.id == id).getD (Cluster.none id)

def State.putCluster (s : State) (c : Cluster) : State :=
  { s with clusters := (s.clusters.filter fun x => x.id != c.id) ++ [c] }

/-- A block's threads among those of its cluster: thread n of rank r at 1,024 r + n. -/
def clusterBits (rank : Nat) (m : BitVec 1024) : BitVec 4096 := m.zeroExtend 4096 <<< (1024 * rank)

/-! ### Must-be-uniform values and counts (R52, R216) -/

/-- A slot operand that can be read: its counts are judged only then (R83). -/
def State.slotReadable (s : State) (x : Ctx) (o : Operand) (L : Nat) : Bool :=
  match o with
  | .slot d k => (x.st.dispReg d.toNat L).valid && (match s.slotWords x d.toNat k.toNat false false L with
    | .ok _ => true
    | .error _ => false)
  | _ => true

/-- The counts of the signing fragment: its lowest active lane's. -/
def State.countsOf (s : State) (x : Ctx) (f : TFmt) : W32 := BitVec.ofNat 32 (s.op32 x f.ops.b f.ops.imm x.lead)

def countsBad (f : TFmt) (s : State) (x : Ctx) : Bool :=
  x.active != 0 && s.slotReadable x f.ops.b x.lead && !countsOk (s.countsOf x f)

def noCounts (_ : State) (_ : Ctx) : W32 := 0
def neverBad (_ : State) (_ : Ctx) : Bool := false
def noVals (_ : State) (_ : Ctx) : List (Nat → W64) := []

/-- The descriptor's address, which must be uniform. -/
def descVals (f : TFmt) (s : State) (x : Ctx) : List (Nat → W64) := [fun L => s.op64 x f.ops.a L]

/-- The values of KLD: the first register, the address. -/
def kldVals (f : TFmt) (s : State) (x : Ctx) : List (Nat → W64) :=
  [fun _ => BitVec.ofNat 64 f.ops.d.num, fun L => s.op64 x f.ops.a L]

/-- A count of KLD outside 1 to 16, or registers beyond k15 (R226). -/
def kldBad (f : TFmt) (s : State) (x : Ctx) : Bool :=
  let n := (s.countsOf x f).toNat
  x.active != 0 && s.slotReadable x f.ops.b x.lead &&
    (n == 0 || decide (16 < n) || decide (16 < f.ops.d.num + n))

def kmovVals (f : TFmt) (s : State) (x : Ctx) : List (Nat → W64) :=
  [fun _ => BitVec.ofNat 64 f.ops.d.num, fun L => s.operand x .f64 true f.ops.a f.ops.imm L]

/-- POLY's coefficient registers are k0 to k n (R52, R227). -/
def miterVals (f : TFmt) (_ : State) (_ : Ctx) : List (Nat → W64) :=
  if f.sub == 0 then [fun _ => f.ops.imm.zeroExtend 64] else []

/-! ### The checks of R50 -/

/-- Opcode and FUNC of two convergent instructions agree (R50). -/
def sameFunc (i j : Instr) : Bool := i.opc == j.opc && (i.funcOps.map (·.1)) == (j.funcOps.map (·.1))

/-- The checks of a signature (R50): DECL, and the capture of an open generation. -/
def signTrap (i : Instr) (vals : List (Nat → W64)) (cv : Conv) (x : Ctx) : Option Trap :=
  if x.active = 0 then none
  else
    let outside := laneSet fun L => x.active.getLsbD L && !(cv.decl.getLsbD (x.sid * x.blk.width + L))
    if outside ≠ 0 then
      some (Trap.of .uniform outside 0 (BitVec.ofNat 32 x.lead))
    else if cv.sig = 0 then none
    else
      match cv.cap with
      | none => none
      | some c =>
        let diff := if !sameFunc i c.instr then x.active
          else laneSet fun L => x.active.getLsbD L && (vals.map fun v => v L) != c.vals
        if diff = 0 then none else some (Trap.of .uniform diff 0 (BitVec.ofNat 32 c.lane))

/-- A convergent engine instruction: no active lane signs nothing and traps nothing.  The first signer's lanes are compared
with its lowest active lane, a later signer's with the capture (R53). -/
def convEntry (i : Instr) (n : Nat) (vals : State → Ctx → List (Nat → W64)) (bad : State → Ctx → Bool) : Entry :=
  { Entry.plain with
    illegal := bad
    uniform := fun s x => if (x.blk.cv n).sig = 0 then vals s x else []
    sign := fun s x => signTrap i (vals s x) (x.blk.cv n) x }

/-- The signers of an open generation with another instruction differ from it (R50). -/
def otherTrap (i : Instr) (sig : Bool) (cap : Option Instr) (lane : Nat) (x : Ctx) : Option Trap :=
  match cap with
  | some j => if sig && !sameFunc i j then some (Trap.of .uniform x.active 0 (BitVec.ofNat 32 lane)) else none
  | none => none

def blockSignTrap (i : Instr) (_ : State) (x : Ctx) : Option Trap :=
  if x.active = 0 then none
  else otherTrap i (x.blk.inner.sig != 0) (x.blk.inner.cap.map (·.instr)) ((x.blk.inner.cap.map (·.lane)).getD 0) x

def clusterSignTrap (i : Instr) (s : State) (x : Ctx) : Option Trap :=
  if x.active = 0 then none
  else
    let cl := s.cluster x.blk.cluster
    otherTrap i (cl.sig != 0) cl.cap cl.lane x

/-- The entries of BFENTER and BFLEAVE, and of CFENTER and CFLEAVE. -/
def blockEntry (i : Instr) : Entry := { Entry.plain with sign := blockSignTrap i }
def clusterEntry (i : Instr) : Entry := { Entry.plain with sign := clusterSignTrap i }

/-! ### The hold of a lane that has signed (R50, R207) -/

/-- The convergence register that an engine instruction signs, with its entry's checks (R49, R216). -/
def engineEntry (i : Instr) : Option (Nat × Entry) :=
  match i with
  | .mzero _ f | .pswap _ f | .accchk _ f | .accplane _ f => some (f.ops.c.num, convEntry i f.ops.c.num noVals neverBad)
  | .ldstat _ f => some (f.ops.c.num, convEntry i f.ops.c.num (descVals f) neverBad)
  | .mstream _ f | .accst _ f => some (f.ops.c.num, convEntry i f.ops.c.num (descVals f) (countsBad f))
  | .accmov _ f => some (f.ops.c.num, convEntry i f.ops.c.num noVals (countsBad f))
  | .miter _ f => some (f.ops.c.num, convEntry i f.ops.c.num (miterVals f) neverBad)
  | .kld _ f => some (f.ops.c.num, convEntry i f.ops.c.num (kldVals f) (kldBad f))
  | .kmov _ f => some (f.ops.c.num, convEntry i f.ops.c.num (kmovVals f) neverBad)
  | _ => none

/-- Active lanes whose signature of the block's, or the cluster's, open generation stands. -/
def Ctx.innerSigned (x : Ctx) : Lanes :=
  laneSet fun L => x.active.getLsbD L && x.blk.inner.sig.getLsbD (x.sid * x.blk.width + L)
def State.clusterMarks (s : State) (x : Ctx) : Lanes :=
  laneSet fun L => x.active.getLsbD L &&
    (s.cluster x.blk.cluster).sig.getLsbD (1024 * x.blk.rank + x.sid * x.blk.width + L)

end Machine

/-- A convergent instruction that none of R50's traps stops holds while a lane of it has signed the open generation; one of
the four of R49 while each of its lanes has, since a merged fragment signs for the lanes that have not (log 15, DEDUCED). -/
def Instr.signHeld (i : Instr) (s : State) (x : Ctx) : Bool :=
  match i with
  | .bfenter _ _ | .bfleave _ _ => x.active != 0 && x.innerSigned == x.active && (i.check (blockEntry i) s x).isNone
  | .cfenter _ _ | .cfleave _ _ => x.active != 0 && s.clusterMarks x == x.active && (i.check (clusterEntry i) s x).isNone
  | _ =>
    match engineEntry i with
    | some (n, e) => threadSet x.blk x.sid x.active &&& (x.blk.cv n).sig != 0 && (i.check e s x).isNone
    | none => false


end Sys2Proof
end

