-- ==== Sys2Proof/Machine/Issue.lean ====
section
/-!
DEFINITION. Issue (R36, R43 to R47, R76 to R81): when a fragment's instruction may issue, and what every issue does around the
instruction's own effect.
-/
namespace Sys2Proof
open Machine

/-! ### Orders and scopes (R238, R239) -/

def Order.acquires : Order → Bool
  | .acq | .ar | .sc => true
  | _ => false

def Order.releases : Order → Bool
  | .rel | .ar | .sc => true
  | _ => false

/-- Scopes at which a release waits for L1 ownership (R238, R240) and an acquire drops copies of other dies' lines: at .clu as
at .dev, since a mate on another quadrant must see what was released (R194, R250; log 62, DEDUCED). -/
def Scope.beyondBlock : Scope → Bool
  | .thr | .blk => false
  | _ => true

/-! ### Holds at issue (R44) -/

/-- Whether a lane of the set has the token at or above a count. -/
def Machine.Strand.tokAbove (st : Strand) (m : Lanes) (sett n : Nat) : Bool := (lanesOf m).any fun L => n ≤ (st.lane L).tok sett

/-- WAIT: every named token is zero in every lane (R36). -/
def Machine.Ctx.waitDone (x : Ctx) : Bool :=
  (List.range 4).all fun i => !x.ctl.wait.getLsbD i || !(x.st.tokAbove x.fr.lanes (i + 1) 1)

/-- SETT: no lane's count stands at 15 (R36). -/
def Machine.Ctx.tokenRoom (x : Ctx) : Bool := x.ctl.sett == 0 || !(x.st.tokAbove x.fr.lanes x.ctl.sett.toNat 15)

/-- The places an operation has still to touch for a lane. -/
def Machine.OpKind.places : OpKind → Nat → List (Loc × Nat)
  | .load _ _ todo _, L => ((todo.filter fun a => a.group.getLsbD L).flatMap (·.pieces))
  | .store _ todo, L => ((todo.filter fun a => a.group.getLsbD L).flatMap (·.pieces))
  | .atomic _ _ _ todo _, L => ((todo.filter fun a => a.group.getLsbD L).flatMap (·.pieces))
  | _, _ => []

def Machine.OpKind.isWrite : OpKind → Bool
  | .store .. => true
  | .atomic .. => true
  | _ => false

def Machine.Loc.overlaps (a : Loc) (n : Nat) (b : Loc) (m : Nat) : Bool :=
  match a, b with
  | .phys x, .phys y => decide (x < y + m) && decide (y < x + n)
  | .spad c x, .spad d y => c == d && decide (x < y + m) && decide (y < x + n)
  | _, _ => false

/-- An earlier write of the lane to a slot's bytes is not performed yet, or for a write an earlier read (R78, R246). -/
def Machine.Ctx.slotBusy (x : Ctx) (write : Bool) (L : Nat) (w : Loc) : Bool :=
  (x.blk.inFlight x.sid).any (fun t => match t with
    | .slot L' loc => L' == L && loc.overlaps 4 w 4
    | _ => false) ||
  x.blk.flight.any fun o =>
    o.strand == x.sid && (write || o.kind.isWrite) && (o.kind.places L).any fun p => p.1.overlaps p.2 w 4

/-- The accesses of an operation that are still to be performed, lowest lane first. -/
def Machine.OpKind.todo : OpKind → List LaneAcc
  | .load _ _ todo _ => todo
  | .store _ todo => todo
  | .atomic _ _ _ todo _ => todo
  | _ => []

/-- The places of an access, byte by byte. -/
def Machine.LaneAcc.locs (a : LaneAcc) : List Loc := a.pieces.flatMap fun p => p.1.span p.2

/-- A store of a core to another die's line is on its path to the home: the core's later accesses to the line follow it (R238,
R241). -/
def Machine.State.pathBusy (s : State) (core before pa : Nat) : Bool :=
  isHbm pa && homeDie pa != dieOfCore core && s.blocks.any fun c => c.core == core && c.flight.any fun p =>
    decide (p.id < before) && p.kind.isWrite && p.stage != .waiting && (p.kind.todo.take 1).any fun a => a.locs.any fun l =>
      match l with
      | .phys q => lineOf q == lineOf pa
      | .spad _ _ => false

/-- The frame interlock (R78). -/
def Instr.slotsFree (i : Instr) (s : State) (x : Ctx) : Bool :=
  i.use.slots.all fun ow => (ow.1.lanes x).all fun L =>
    match slotWordsOf s x ow.1 ow.2 L with
    | .ok ws => ow.2 || ws.all fun w => !x.slotBusy false L w && (match w with
      | .phys pa => !s.pathBusy x.blk.core s.nextId pa
      | .spad _ _ => true)
    | .error _ => true

/-- Instructions that make accesses of their lanes: none issues while an .sc access of a lane is outstanding (R239). -/
def Instr.isAccess (i : Instr) : Bool :=
  match i.ctl with
  | none => false
  | some _ =>
    let o := i.opc.toNat
    (0x90 ≤ o && o ≤ 0x9F) || (0xB0 ≤ o && o ≤ 0xB5) || o == 0xCA || o == 0xCB || o == 0x0E || o == 0xD0 || o == 0xD1 || o == 0xD7 || !i.use.slots.isEmpty

def Machine.Ctx.scPending (x : Ctx) : Bool :=
  x.blk.flight.any fun o => o.strand == x.sid && o.order == .sc && o.active &&& x.fr.lanes != 0

/-- An instruction whose accesses are made, or begin, at its issue. -/
def Instr.readsNow (i : Instr) : Bool :=
  match i with
  | .fenter _ _ | .fleave _ _ | .barwait _ _ | .stgwait _ _ | .stgarrive _ _ | .tret _ _ | .cpt _ _ => true
  | .ctxst _ f => f.sub == 8
  | .call _ f => f.ops.d.isSlot
  | i => i.use.slots.any fun ow => !ow.2

/-- A fragment whose instruction has issued and not completed: a wait, a fence, a shared frame, an emulation (R38). -/
def Machine.Hold.waits : Hold → Bool
  | .free => false
  | .parked => false
  | _ => true

/-- Nothing that the strand issued before is outstanding (R38). -/
def Machine.Block.strandIdle (b : Block) (sid : Nat) : Bool :=
  (b.strand sid).pendw.isEmpty && !(b.flight.any fun o => o.strand == sid) &&
  (match b.eng with
    | some e => !(e.queue.any fun o => o.cap.signers.any fun g => g.strand == sid)
    | none => true) &&
  (b.cvs.all fun kv => match kv.2.cap with
    | some c => !(c.signers.any fun g => g.strand == sid)
    | none => true) &&
  (b.strand sid).frags.all fun f => !f.hold.waits

/-- Every instruction that the strand issued before has completed, the shared frames that its lanes have signed among them (R38). -/
def Machine.State.serial (s : State) (x : Ctx) : Bool :=
  x.blk.strandIdle x.sid && (match x.blk.inner.cap with
    | some c => !(c.signers.any fun g => g.strand == x.sid)
    | none => true) &&
  !((s.cluster x.blk.cluster).signers.any fun g => g.1 == x.blk.uid && g.2.strand == x.sid)

/-- Number of copies in flight on a core (R184). -/
def Machine.State.copiesOn (s : State) (core : Nat) : Nat :=
  (s.blocks.filter fun b => b.core == core).foldl (fun n b =>
    n + (b.flight.filter fun o => match o.kind with | .copy _ => true | _ => false).length) 0

/-- The active lanes' copies find no free slots on the core (R184). -/
def Machine.State.copySlotsFull (s : State) (x : Ctx) : Bool :=
  decide (Config.copySlots < s.copiesOn x.blk.core + countLanes x.active)

/-- Operations that make their lanes' accesses in one step: barrier updates, context moves. -/
def Machine.OpKind.whole : OpKind → Bool
  | .bar .. => true
  | .bartry .. => true
  | .ctxst _ => true
  | .ctxld .. => true
  | _ => false

/-- The barrier objects, or the header and slots of a ring, that an update works on: 16 bytes each. -/
def Machine.OpKind.objects : OpKind → List Loc
  | .bar (.ringInit _ slots) _ loc => loc :: slots
  | .bar _ _ loc => [loc]
  | .bartry _ _ _ loc => [loc]
  | _ => []

/-- Places of a block's scratchpad, from an offset on. -/
def Machine.State.windowPlaces (s : State) (b : Block) (off n : Nat) : List Loc :=
  (List.range n).filterMap fun i => s.scratchLoc b (off + i)

/-- The bytes that a context move has still to move, in memory and in scratchpad (R233). -/
def Machine.State.moved (s : State) (b : Block) : OpKind → List Loc
  | .ctxst bytes => bytes.map (·.1)
  | .ctxld r _ locs =>
    locs.map (·.1) ++ (if r.cls == 8 then s.windowPlaces b (1024 * r.first) (1024 * r.count) else [])
  | _ => []

/-- What an operation is still to touch for the lanes meets places: its accesses, the objects of an update, the bytes of a move. -/
def Machine.State.touches (s : State) (b : Block) (o : Op) (m : Lanes) (hit : Loc → Nat → Bool) : Bool :=
  (o.kind.todo.any fun a => a.group &&& m != 0 && a.pieces.any fun p => hit p.1 p.2) ||
  (o.kind.objects.any fun w => hit w 16) || (s.moved b o.kind).any fun l => hit l 1

/-- A context move in the engine's queue (R213, R233). -/
def Machine.EngOp.moves (o : EngOp) : Bool :=
  match o.cap.instr with
  | .ctxst _ _ => true
  | .ctxld _ _ => true
  | _ => false

/-- The context moves that the lanes issued before to the engine. -/
def Machine.Block.engMoves (b : Block) (sid before : Nat) (m : Lanes) : List EngOp :=
  match b.eng with
  | some e => e.queue.filter fun o => o.moves && decide (o.id < before) &&
      o.cap.signers.any fun g => g.strand == sid && g.lanes &&& m != 0
  | none => []

/-- A slot write of the lanes that issued before and is not written yet: a result's, or a load's or an atomic's. -/
def Machine.Block.slotPending (b : Block) (sid before : Nat) (m : Lanes) (hit : Loc → Bool) : Bool :=
  let meets := fun (t : Tgt) => match t with
    | .slot L loc => m.getLsbD L && hit loc
    | _ => false
  ((b.strand sid).pendw.any fun p => decide (p.id < before) && p.writes.any fun w => meets w.tgt) ||
  b.flight.any fun o => o.strand == sid && decide (o.id < before) && o.pending.any meets

/-- Whether an operation still has an access of a lane to perform. -/
def Machine.Op.leaves (o : Op) (m : Lanes) : Bool :=
  (o.kind.todo.any fun a => a.group &&& m != 0) || (o.kind.whole && o.active &&& m != 0)

/-- An earlier acquire of the lanes has not been bound: no later access may be performed (R239). -/
def Machine.Ctx.acqPending (x : Ctx) : Bool :=
  x.blk.flight.any fun o => o.strand == x.sid && o.order.acquires && o.leaves x.active

/-- Nothing that the lanes issued before place `before` is in the way of an access to places: no acquire is unbound, and no
earlier access to those places is left to be performed (R239, R246). -/
def Machine.State.clear (s : State) (b : Block) (sid before : Nat) (m : Lanes) (hit : Loc → Nat → Bool) : Bool :=
  (b.flight.all fun p =>
    !(p.strand == sid && decide (p.id < before) && p.leaves m) || (!p.order.acquires && !s.touches b p m hit)) &&
  !(b.engMoves sid before m).any (fun o => o.locs.any fun l => hit l 1) &&
  !b.slotPending sid before m (fun loc => hit loc 4)

/-- An access of the active lanes to bytes of scratchpad is still in flight (R246). -/
def Machine.State.objectBusy (s : State) (x : Ctx) (a : W64) (n : Nat) : Bool :=
  match s.scratchLocs x.blk a n with
  | some ls => !s.clear x.blk x.sid s.nextId x.active fun w k => ls.any fun l => l.overlaps 1 w k
  | none => false

/-- A load or an atomic of the fragment that is under way meets an uncorrectable error: nothing of the fragment issues before its
trap (R178; log 18, DEDUCED). -/
def Machine.State.loadFails (s : State) (x : Ctx) : Bool :=
  s.mem.anyBad && x.blk.flight.any fun o => o.strand == x.sid && o.active &&& x.fr.lanes != 0 && (match o.kind with
    | .load _ _ todo _ => todo.any fun a => s.loadBad x.blk a.locs
    | .atomic _ _ _ todo _ => todo.any fun a => s.mem.anyPoison a.locs
    | _ => false)

/-- The places of a lane's link words: at the display registers of its private frames, or where FENTER will put the next
(R203). -/
def Machine.State.linkPlaces (s : State) (x : Ctx) (enter : Bool) (L : Nat) : List Loc :=
  let at_ := fun (p : Nat) => match s.privSlots x p 8 0 enter L with
    | .ok l => l
    | .error _ => []
  if enter then at_ (x.st.lane L).fp.toNat
  else [3, 4, 5, 6, 7].flatMap fun n =>
    let d := x.st.dispReg n L
    if d.valid then at_ (d.ptr.extractLsb' 0 32).toNat else []

/-- FENTER and FLEAVE make their private accesses at issue, after the lane's earlier accesses to those words (R78). -/
def Machine.State.linkBusy (s : State) (x : Ctx) (enter : Bool) : Bool :=
  x.lanes.any fun L => (s.linkPlaces x enter L).any fun w => x.slotBusy enter L w

/-- A store or atomic of a lane to the RPC that TRET is to read is still in flight (R246, R321). -/
def Machine.State.rpcBusy (s : State) (x : Ctx) : Bool :=
  x.lanes.any fun L => (s.rpcPlaces x.blk x.sid L).any fun pa => x.slotBusy false L (.phys (pa / 4 * 4))

/-- What an issue asks of the fabric: the slots that it reads, the link words of FENTER and FLEAVE, the slot of a CALL's link, the RPC
of TRET (R78, R203, R321, R336; log 55, DEDUCED). -/
def Instr.farAsks (i : Instr) (s : State) (x : Ctx) : List Ask :=
  s.slotAsks x.blk false (i.slotReads s x) ++
  (match i with
    | .fenter _ _ => s.slotAsks x.blk true (x.lanes.flatMap (s.linkPlaces x true))
    | .fleave _ _ => s.slotAsks x.blk false (x.lanes.flatMap (s.linkPlaces x false))
    | .tret _ _ => s.slotAsks x.blk false ((x.lanes.flatMap (s.rpcPlaces x.blk x.sid)).map .phys)
    | .call _ f => (match f.ops.d with
      | .slot d k => s.slotAsks x.blk true (x.lanes.flatMap fun L => match s.slotWords x d.toNat k.toNat true true L with
        | .ok ws => ws
        | .error _ => [])
      | _ => [])
    | _ => [])

/-- What holds an instruction at issue on its own account: %fmode (R38), an open generation (R49, R50), copy slots (R184). -/
def Instr.held (i : Instr) (s : State) (x : Ctx) : Bool :=
  match i with
  | .swr _ _ => !s.serial x
  | .srd _ f => f.sel == 0x00E && !s.serial x
  | .cvset _ f => x.active != 0 && (x.blk.cv f.ops.d.num).sig != 0
  | .barwait _ f | .stgwait _ f | .stgarrive _ f =>
    x.active != 0 && s.objectBusy x (s.op64 x f.ops.a x.lead) 16
  | .fenter _ _ => s.linkBusy x true
  | .fleave _ _ => s.linkBusy x false
  | .tret _ _ => s.rpcBusy x
  -- its trap is precise, so the tile must be final at issue (R221; log 21, DEDUCED)
  | .accld _ _ => x.active != 0 && x.blk.eng.any fun e => !e.queue.isEmpty
  -- CTXST of class 8 reads the scratchpad, and CPT its descriptor, at issue (R180, R246)
  | .ctxst _ f => f.sub == 8 && !s.clear x.blk x.sid s.nextId x.active fun _ _ => true
  | .cpa _ _ => s.copySlotsFull x
  | .cpt _ f => s.copySlotsFull x || (x.active != 0 && s.objectBusy x (s.op64 x f.ops.a x.lead) 32)
  -- the link is written at issue, after the lane's earlier accesses to its slots (R78)
  | .call _ f => match f.ops.d with
    | .slot d k => x.lanes.any fun L => match s.slotWords x d.toNat k.toNat true true L with
      | .ok ws => ws.any fun w => x.slotBusy true L w
      | .error _ => false
    | _ => false
  | i => i.signHeld s x

/-- Nothing holds the fragment (R44): STALL and NAP have run out, no blocking hold, tokens, interlocks. -/
def Machine.Frag.awake (f : Frag) (cycle : Nat) : Bool :=
  f.hold == .free && (match f.stall with | some t => decide (t ≤ cycle) | none => true) &&
  (match f.nap with | some t => decide (t ≤ cycle) | none => true)

/-- The block lets its strands issue: it runs or is in its cooperative phase, and no trap of it was fatal (R322 to R325). -/
def Machine.Block.issues (b : Block) : Bool :=
  b.fatal.isNone && (match b.mode with
    | .running => true
    | .draining _ _ => true
    | .coop .. => true
    | _ => false)

/-- Whether a fragment of the block may issue: while the block issues, any; in a STEP the one chosen, once (R329). -/
def Machine.Block.lets (b : Block) (sid : Nat) (f : Frag) : Bool :=
  b.issues || (b.fatal.isNone && (match b.mode with
    | .stepping sid' lane _ _ false _ => sid' == sid && f.lanes.getLsbD lane
    | _ => false))

/-- A cooperative save runs (R324). -/
def Machine.Block.inCoop (b : Block) : Bool :=
  match b.mode with
  | .coop .. => true
  | _ => false

/-- Display registers that a CTXLD still restores are interlocked (R78, R233). -/
def Machine.Ctx.dispBusy (x : Ctx) : Bool :=
  x.blk.flight.any fun o => o.strand == x.sid && o.active &&& x.fr.lanes != 0 && (match o.kind with
    | .ctxld r _ _ => r.cls == 3
    | _ => false)

/-- Everything but the fabric lets the fragment issue its instruction.  A strand that has executed SVDONE issues nothing more
(R234). -/
def Machine.Ctx.nearIssue (i : Instr) (s : State) (x : Ctx) : Bool :=
  x.blk.lets x.sid x.fr && x.fr.awake s.cycle && x.fr.pend.isEmpty && x.st.svdone.isNone && !(s.core x.blk.core).tile.halts &&
  x.waitDone && x.tokenRoom && i.slotsFree s x && !(i.isAccess && x.scPending) && !(i.readsNow && x.acqPending) && !x.dispBusy &&
  !s.loadFails x && !i.held s x

/-- The instruction may issue, the homes answering what it asks (R336). -/
def Machine.Ctx.canIssue (i : Instr) (s : State) (x : Ctx) : Bool := x.nearIssue i s && (i.farAsks s x).all (s.reached x.blk)

/-! ### What an issue does -/

/-- What an instruction's effect leaves: the state, where its lanes go, which of them end, a NAP, a hold, and whether its
token still counts an operation. -/
structure Done where
  st : State
  pcOf : Nat → W64
  gone : Lanes
  nap : Option Nat
  hold : Hold
  counts : Bool

/-- The lanes go to the next word; the operation has completed at issue. -/
def Done.now (x : Ctx) (s : State) : Done :=
  { st := s, pcOf := fun _ => x.fr.pc + 16, gone := 0, nap := none, hold := .free, counts := false }

/-- The lanes go to the next word; the operation stays outstanding. -/
def Done.later (x : Ctx) (s : State) : Done := { Done.now x s with counts := true }

/-- What the issue reads is corrected, written back and counted (R269). -/
def Instr.correct (i : Instr) (s : State) (x : Ctx) : State :=
  s.corrected x.blk.core x.blk.quad ((i.errReads s x).map (·.loc)).contains

/-- An uncorrectable register error that traps is counted (R271). -/
def Machine.State.countUnc (s : State) (x : Ctx) (t : Trap) : State :=
  if t.cause = .ecc ∧ t.code ≠ 0xFFFFFFFF#32 then s.countQuad x.blk.core x.blk.quad 1 else s

/-- An instruction traps at its issue: the next word of the fragment waits for its STALL (R76). -/
def Machine.State.trapIssue (s : State) (x : Ctx) (t : Trap) : State :=
  s.deliverTrap x.blk x.sid { x.fr with stall := some (s.cycle + max x.ctl.stall.toNat 1) } t x.fr.pc false

/-- Around the effect: the token, the move of the fragment, STALL, ages, and the counts of issues (R36, R43 to R47, R76). -/
def Machine.State.commit (s : State) (x : Ctx) (d : Done) : State :=
  let stall := some (s.cycle + max x.ctl.stall.toNat 1)
  let s' := d.st.updBlock x.blk.uid fun b =>
    { b.updStrand x.sid fun st =>
        let st := if d.counts then st.tokUp x.fr.lanes x.ctl.sett.toNat else st
        let st := st.move x.fr d.gone d.pcOf stall d.nap d.hold
        { st with issued := st.issued + 1, last := s.cycle, fetched := st.fetched.filter fun w => w.1 != x.fr.pc }
      with instrs := b.instrs + 1 }
  { s'.spendIssue x.blk with fresh := s.fresh + 1 }

/-- The named consumer of a forwarded line reads a place of it: the slice invalidates the line (R177, R256, R282). -/
def Machine.State.consumeAt (s : State) (b : Block) (locs : List Loc) : State :=
  if s.mem.fwd.isEmpty then s
  else locs.foldl (fun s l => match l with
    | .phys pa => match s.mem.fwd.find (lineOf pa) with
      | some t => if t.ten = b.ten ∧ t.blk = b.idx then s.setMem (s.mem.consume (lineOf pa)) else s
      | none => s
    | .spad _ _ => s) s

/-- After an issue: lines forwarded to the block that its slots were read from are consumed, and its requests are answered; places
and requests are those of the state that the operands were read from. -/
def Instr.settle (i : Instr) (s : State) (x : Ctx) (t : State) : State :=
  (t.consumeAt x.blk (i.slotReads s x)).closeAsks x.blk.uid (i.farAsks s x)

/-- THE ISSUE OF AN INSTRUCTION: nothing happens while nothing is issuing or the fragment is held (R44); otherwise the
checks of R83, and then the entry's own faults or its effect (log 7, DESIGN CHOICE). -/
def issue (i : Instr) (c : Ctl) (e : Entry) (body : State → Ctx → Except Trap Done) (s : State) :
    Host.Outcome State Fault Refusal :=
  match s.ctx c with
  | none => .next s
  | some x =>
    if !x.canIssue i s then .next s
    else
      match i.check e s x with
      | some t => .next (((i.looked e s x).countUnc x t).trapIssue x t)
      | none =>
        let s := i.scanSlots s x
        let s' := e.before (i.correct s x) x
        match body s' x with
        | .error t => .next (s'.trapIssue x t)
        | .ok d => .next (i.settle s x (s.commit x d))

/-! ### Fixed-latency results -/

/-- A result that is written after its latency, and the flags stick (R37, R76). -/
def Machine.State.result (s : State) (x : Ctx) (lat : Nat) (ws : List PWrite) (fl : Flags) : State :=
  let p : PendWrite :=
    { id := s.nextId, due := s.cycle + lat, tok := x.ctl.sett, lanes := x.fr.lanes, writes := ws }
  let s := s.updStrand x.blk.uid x.sid fun st =>
      { st with pendw := st.pendw ++ [p], fmode := fmodeRaise st.fmode fl }
  { s with nextId := s.nextId + 1 }

/-- The effect of a fixed-latency instruction: its writes and flags, computed from operands read at issue (R23, R79). -/
def fixedBody (lat : Nat) (f : State → Ctx → List PWrite × Flags) (s : State) (x : Ctx) : Except Trap Done :=
  let r := f s x
  .ok (Done.later x (s.result x lat r.1 r.2))

/-- A fixed-latency instruction (R77). -/
def fixed (i : Instr) (c : Ctl) (lat : Nat) (f : State → Ctx → List PWrite × Flags) :
    State → Host.Outcome State Fault Refusal :=
  issue i c Entry.plain (fixedBody lat f)

end Sys2Proof
end

