-- ==== Sys2Proof/Machine/Sites.lean ====
section
/-!
DEFINITION. Sites (R74, R75, R110 to R122): what a rewrite writes, the requests a core sends, the resolver at the home slice,
and SITECLR's new word.
-/
namespace Sys2Proof
open Machine

/-! ### Rewrites of a word (R74, R75) -/

/-- A field of a word replaced. -/
def setField (w : InstrWord) (lo n v : Nat) : InstrWord :=
  let mask : InstrWord := BitVec.ofNat 128 ((2 ^ n - 1) * 2 ^ lo)
  (w &&& ~~~mask) ||| BitVec.ofNat 128 (v % 2 ^ n * 2 ^ lo)

def wordOpc (w : InstrWord) : Nat := (w.extractLsb' 120 8).toNat
def wordQ (w : InstrWord) : Bool := w.getLsbD 103
def wordFlips (w : InstrWord) : Nat := (w.extractLsb' 99 3).toNat

/-- A native form to ask for: its opcode, and the fields R74 names. -/
structure Native where
  opc : Nat
  space : Option Nat
  fmt : Option Nat
  clu : Option Nat
deriving DecidableEq, Repr

/-- A native load or store. -/
def Native.mem (opc space fmt : Nat) : Native := { opc := opc, space := some space, fmt := some fmt, clu := none }

/-- A native atomic or reduction. -/
def Native.atom (opc clu : Nat) : Native := { opc := opc, space := none, fmt := none, clu := some clu }

def Native.brx : Native := { opc := 0x04, space := none, fmt := none, clu := none }

def setOpt (w : InstrWord) (lo n : Nat) (v : Option Nat) : InstrWord :=
  match v with
  | some v => setField w lo n v
  | none => w

/-- The quickened word (R75). -/
def quickened (w : InstrWord) (k : Native) : InstrWord :=
  let w := setField (setField (setField w 120 8 k.opc) 103 1 1) 102 1 0
  setOpt (setOpt (setOpt w 45 3 k.space) 39 5 k.fmt) 32 1 k.clu

/-- The generic opcode of the family that an opcode belongs to (R74), and which of SPACE and FMT, or CLU, it clears. -/
def familyOf (opc : Nat) : Option Nat :=
  if opc = 0x03 ∨ opc = 0x04 then some 0x03
  else if opc = 0x90 ∨ opc = 0x92 ∨ opc = 0x94 ∨ opc = 0x96 ∨ opc = 0x98 ∨ opc = 0x99 then some 0x90
  else if opc = 0x91 ∨ opc = 0x93 ∨ opc = 0x95 ∨ opc = 0x97 then some 0x91
  else if opc = 0xB0 ∨ opc = 0xB2 ∨ opc = 0xB3 then some 0xB0
  else if opc = 0xB1 ∨ opc = 0xB4 ∨ opc = 0xB5 then some 0xB1
  else none

/-- The generic word of a family member: SPACE 0, CLU 0, FMT 0, Q 0 (R75). -/
def generalised (w : InstrWord) : InstrWord :=
  match familyOf (wordOpc w) with
  | none => w
  | some g =>
    let w := setField (setField w 120 8 g) 103 1 0
    if g = 0x90 ∨ g = 0x91 then setField (setField w 45 3 0) 39 5 0
    else if g = 0xB0 ∨ g = 0xB1 then setField w 32 1 0
    else w

/-- The widened word under a limit (R118). -/
def widened (w : InstrWord) (limit : Nat) : InstrWord :=
  let f2 := min (wordFlips w + 1) 7
  setField (setField (generalised w) 99 3 f2) 102 1 (if limit ≤ f2 then 1 else 0)

/-- SITECLR's word: `none` where the word is no site (R126). -/
def clearedSite (w : InstrWord) (pin : Bool) : Option InstrWord :=
  match familyOf (wordOpc w) with
  | none => none
  | some g =>
    if wordOpc w ≠ g ∧ !wordQ w then none
    else
      let n := generalised w
      some (if pin then setField n 102 1 1 else setField (setField n 99 3 0) 102 1 0)

namespace Machine

/-! ### Requests (R113, R116, R118) -/

/-- The translation that the fetch of the issuing word has. -/
def State.fetchXlate (s : State) (x : Ctx) : Option Xlate :=
  match va56 x.fr.pc with
  | some va => s.translate (some x.blk.quadId) x.blk.ten x.blk.pasid va .fetch
  | none => none

/-- A request is sent, or dropped for want of a slot; a second one for the same word is not made (R116). -/
def State.siteRequest (s : State) (core : Nat) (r : SiteReq) : State :=
  let c := s.core core
  if c.siteReqs.any fun q => q.pa == r.pa then s
  else if Config.siteSlots ≤ c.siteReqs.length then s.countSite core 6
  else
    let s := s.setCore core { c with siteReqs := c.siteReqs ++ [{ r with id := s.nextId }] }
    { s.countSite core (if r.widening then 3 else 0) with nextId := s.nextId + 1 }

/-- A request for the word that is issuing, where its page grants SW (R120, R121). -/
def State.askRewrite (s : State) (x : Ctx) (new : InstrWord) (widening : Bool) : State :=
  match s.fetchXlate x with
  | some v =>
    if v.sw then
      s.siteRequest x.blk.core
        { id := 0, pa := v.pa (x.fr.pc.extractLsb' 0 56).toNat, expected := x.word, new := new, widening := widening,
          via := v, stage := .waiting }
    else s
  | none => s

/-- After a generic execution that completed: the request of R113 for the form of R114. -/
def State.quicken (s : State) (x : Ctx) (form : Option Native) : State :=
  match form with
  | none => s
  | some k =>
    if x.ctl.pin || x.ctl.q || x.active == 0 || decide (x.blk.hdr.osc ≤ x.ctl.flips.toNat) then s
    else s.askRewrite x (quickened x.word k) false

/-- After a replay that completed: the request of R118. -/
def State.widen (s : State) (x : Ctx) : State := s.askRewrite x (widened x.word x.blk.hdr.osc) true

/-! ### The resolver (R115, R122) -/

/-- A code line leaves every instruction cache of a die (R115, R123). -/
def MemSys.dropCode (m : MemSys) (die line : Nat) : MemSys :=
  { m with icache := m.icache.filter fun l => !(l.line == line && dieOfCore l.core == die) }

/-- The word at a physical address, as its home holds it once the L1s' words of the line have come home (R122). -/
def MemSys.wordAt (m : MemSys) (pa : Nat) : InstrWord := BitVec.ofNat 128 ((m.takeLine (lineOf pa)).numPa pa 16)

/-- A rewrite at the home slice: 16 bytes at once, and the die's instruction caches lose the line. -/
def State.rewrite (s : State) (pa : Nat) (w : InstrWord) : State :=
  let s := (s.setMem (s.mem.takeLine (lineOf pa))).writePa pa (wordBytes w)
  s.setMem (s.mem.dropCode (homeDie pa) (lineOf pa))

/-- A site request has come to its home slice: nothing bounds the tenant's requests, or it is under way and the slot is its tenant's
(R336, R337, R370). -/
def State.siteArrived (s : State) (r : SiteReq) : Bool :=
  (isHbm r.pa && s.openRoad r.via.ten) || (r.stage != .waiting && s.slotAllows (.tenant r.via.ten) && s.hostUp r.pa)

/-- SITE_RESOLVE: the request of a number at a core; it waits while a tile update holds the line (R288). -/
def execSiteResolve (core id : Nat) (s : State) : Host.Outcome State Fault Refusal :=
  let c := s.core core
  match c.siteReqs.find? fun r => r.id == id with
  | none => .next s
  | some r =>
    if s.mem.locked (lineOf r.pa) || !s.siteArrived r then .next s else
    let s := s.setCore core { c with siteReqs := c.siteReqs.filter fun q => q.id != id }
    if s.mem.wordAt r.pa ≠ r.expected then .next s
    else
      -- a resolver write marks the page in the dirty log, as a store would (R122)
      let s := if s.mustLog r.via .write then s.logDirty r.via.ten r.via else s
      let s := (s.rewrite r.pa r.new).countSite core (if r.widening then 4 else 1)
      .next (if r.widening && r.new.getLsbD 102 then s.countSite core 5 else s)

end Machine
end Sys2Proof
end

