-- ==== Sys2Proof/Machine/LoadStore.lean ====
section
/-!
DEFINITION. Loads and stores (R168 to R178): the checks of R169 for every active lane, the guards and replays of quickened
words, and the operation that an issue leaves in flight.
-/
namespace Sys2Proof
open Machine

/-- Alignment granule in bytes; `narrow` for a word that moves one 32-bit register (R170, R172). -/
def Fmt.granule (f : Fmt) (narrow : Bool) : Nat := if narrow && f.wide then 4 else f.bytes

/-- Formats whose bits RAW words move (R105). -/
def Fmt.rawLike : Fmt → Bool
  | .raw32 | .raw64 | .int32 | .int64 | .fp32 | .fp64 => true
  | _ => false

namespace Machine

/-! ### One lane's access (R168 to R173) -/

/-- What a memory instruction asks of each lane: the tags of check 1, the access, the format of a native word, whether one
32-bit register moves, and the size of an atomic (0 for a load or store). -/
structure MemForm where
  tags : List Nat
  acc : Access
  fixed : Option Fmt
  narrow : Bool
  atom : Nat
deriving DecidableEq, Repr

/-- Where an access goes: its tag, its element format in memory, the page's FMT code (0 in scratchpad), the places it
touches, the element that R171 selects, and the translations it used. -/
structure Reach where
  tag : Nat
  fmt : Fmt
  page : Nat
  pieces : List (Loc × Nat)
  elem : Nat
  via : List Xlate
deriving DecidableEq, Repr

/-- A failed check: its place in the order of R169, and the cause. -/
structure Fail where
  no : Nat
  cause : Cause
deriving DecidableEq, Repr

def failTag : Fail := ⟨1, .access⟩
def failBounds : Fail := ⟨2, .access⟩
def failAlign : Fail := ⟨3, .align⟩
def failXlate : Fail := ⟨4, .access⟩
def failFormat : Fail := ⟨5, .format⟩

/-- The element of a byte or block that lane L takes (R171). -/
def elemOf (f : Fmt) (L : Nat) : Nat := if f.isSx then L % 16 else if f = .int4 then L % 2 else 0

/-- Blocks that an SX page of a size and GEOM holds (R104) (log 22, DEDUCED). -/
def sxBlocks (f : Fmt) (geom : Nat) (logSize : Nat) : Nat :=
  if geom = 0 then 2 ^ logSize / f.sxSize
  else
    let perRow := 2 ^ (geom + 3) / 4
    2 ^ logSize / (perRow * f.sxSize) * perRow

/-- The size that an access aligns to and touches. -/
def MemForm.size (m : MemForm) (f : Fmt) : Nat := if m.atom ≠ 0 then m.atom else f.granule m.narrow

/-- The page FMT against a native word's (R105), or against an atomic (R185). -/
def MemForm.fmtOk (m : MemForm) (page : Fmt) : Bool :=
  if m.atom ≠ 0 then page.rawLike
  else match m.fixed with
    | none => true
    | some f => f == page || ((f == .raw32 || f == .raw64) && page.rawLike)

/-- Bytes of an access that may cross into a second translation: at most two pieces. -/
def State.pieces (s : State) (x : Ctx) (v : Xlate) (va n : Nat) (acc : Access) : Option (List (Loc × Nat) × List Xlate) :=
  let room := v.vbase + 2 ^ v.logSize - va
  if n ≤ room then some ([(.phys (v.pa va), n)], [v])
  else
    match s.translate (some x.blk.quadId) x.blk.ten x.blk.pasid (va + room) acc with
    | some v' => some ([(.phys (v.pa va), room), (.phys (v'.pa (va + room)), n - room)], [v, v'])
    | none => none

/-- An access to global or constant space. -/
def State.reachGlobal (s : State) (x : Ctx) (m : MemForm) (L : Nat) (a : W64) : Except Fail Reach :=
  match va56 a with
  | none => .error failBounds
  | some va =>
    let misaligned := fun (f : Fmt) => !f.isSx && va % m.size f != 0
    let format := fun (page : Option Fmt) => match m.fixed with
      | some f => some f
      | none => if m.atom ≠ 0 then some .raw32 else page
    let here := fun (v : Xlate) (f : Fmt) =>
      misaligned f || (f.isSx && (va - va / 2 ^ v.s1log * 2 ^ v.s1log) % f.sxSize != 0)
    match s.translate (some x.blk.quadId) x.blk.ten x.blk.pasid va m.acc with
    | none =>
      -- the alignment comes first, by the page's FMT where a page that lacks the permission gives one (R169)
      let bad := match s.mapped (some x.blk.quadId) x.blk.ten x.blk.pasid va with
        | some v => (format (Fmt.ofCode v.fmt)).any (here v)
        | none => (format none).any misaligned
      .error (if bad then failAlign else failXlate)
    | some v =>
      match format (Fmt.ofCode v.fmt) with
      | none => .error failFormat
      | some f =>
        let base := va / 2 ^ v.s1log * 2 ^ v.s1log
        if here v f then .error failAlign
        else if f.isSx && decide (sxBlocks f v.geom.toNat v.s1log ≤ (va - base) / f.sxSize) then .error failXlate
        else
          match s.pieces x v va (m.size f) m.acc with
          | none => .error failXlate
          | some (ps, vs) =>
            match Fmt.ofCode v.fmt with
            | none => .error failFormat
            | some page =>
              if (v.geom != 0 && !page.isSx) || !m.fmtOk page then .error failFormat
              else .ok { tag := tagOf a, fmt := if m.atom ≠ 0 then page else f, page := v.fmt.toNat, pieces := ps,
                         elem := elemOf f L, via := vs }

/-- An access to block or cluster scratchpad: RAW32 for every generic word (R66). -/
def State.reachScratch (s : State) (x : Ctx) (m : MemForm) (a : W64) : Except Fail Reach :=
  let f := m.fixed.getD .raw32
  let n := m.size f
  match s.scratchLocs x.blk a n with
  | none => .error failBounds
  | some l =>
    if a.toNat % n ≠ 0 then .error failAlign
    else .ok { tag := tagOf a, fmt := f, page := 0, pieces := [(l.getD 0 (.spad 0 0), n)], elem := 0, via := [] }

/-- Translation of the words of a private access, each at its own place (R173). -/
def State.privWords (s : State) (x : Ctx) (p n L : Nat) (acc : Access) : Option (List (Loc × Nat) × List Xlate) :=
  (List.range ((n + 3) / 4)).foldr (fun i out =>
    match out with
    | none => none
    | some (ps, vs) =>
      let va := x.blk.privVa x.sid L (p + 4 * i)
      match s.translate (some x.blk.quadId) x.blk.ten (s.spasid x.blk) va acc with
      | some v => some ((.phys (v.pa va), min 4 n) :: ps, v :: vs)
      | none => none) (some ([], []))

/-- The element format of a lane's private access: a native word's, or the page's where one is mapped (R170). -/
def State.privFmt (s : State) (x : Ctx) (m : MemForm) (p L : Nat) : Fmt :=
  m.fixed.getD (((s.mapped (some x.blk.quadId) x.blk.ten (s.spasid x.blk) (x.blk.privVa x.sid L p)).bind fun v =>
    Fmt.ofCode v.fmt).getD .raw32)

/-- An access to private space. -/
def State.reachPrivate (s : State) (x : Ctx) (m : MemForm) (L : Nat) (a : W64) : Except Fail Reach :=
  let p := (a.extractLsb' 0 32).toNat
  let f := s.privFmt x m p L
  let n := m.size f
  if a.extractLsb' 32 28 ≠ 0 ∨ x.blk.privlim < p + n then .error failBounds
  else if !f.isSx && p % n != 0 then .error failAlign
  else
    match s.privWords x p n L m.acc with
    | none => .error failXlate
    | some (ps, vs) =>
      match vs with
      | [] => .error failXlate
      | v :: _ =>
        match Fmt.ofCode v.fmt with
        | none => .error failFormat
        | some page =>
          if !vs.all (fun v => privFmtOk v.fmt.toNat && v.geom == 0) || !m.fmtOk page then .error failFormat
          else .ok { tag := 4, fmt := m.fixed.getD page, page := v.fmt.toNat, pieces := ps, elem := 0, via := vs }

/-- The checks of R169 for one lane. -/
def State.reach (s : State) (x : Ctx) (m : MemForm) (L : Nat) (a : W64) : Except Fail Reach :=
  if !m.tags.contains (tagOf a) then .error failTag
  else if tagOf a = 4 then s.reachPrivate x m L a
  else if 2 ≤ tagOf a then s.reachScratch x m a
  else s.reachGlobal x m L a

/-- The lane's access is a store of an SX element, and its address (R171). -/
def State.sxAt (s : State) (x : Ctx) (m : MemForm) (a : W64) : Bool :=
  m.acc == .write && decide (tagOf a < 2) && m.tags.contains (tagOf a) &&
  (match m.fixed with
    | some f => f.isSx
    | none => match va56 a with
      | none => false
      | some va => match s.mapped (some x.blk.quadId) x.blk.ten x.blk.pasid va with
        | some v => match Fmt.ofCode v.fmt with
          | some f => f.isSx
          | none => false
        | none => false)

/-- The lanes of group g. -/
def groupMask (g : Nat) : Lanes := laneSet fun L => L / 16 == g

/-- An SX store needs a whole group at its block's address (R171). -/
def State.sxGroupOk (s : State) (x : Ctx) (m : MemForm) (addr : Nat → W64) (L : Nat) : Bool :=
  let at_ := laneSet fun M => x.active.getLsbD M && addr M == addr L && s.sxAt x m (addr M)
  16 ≤ x.blk.width && at_ == groupMask (L / 16)

/-- The first failed check of a lane. -/
def State.laneFail (s : State) (x : Ctx) (m : MemForm) (addr : Nat → W64) (L : Nat) : Option Fail :=
  let own := match s.reach x m L (addr L) with
    | .error e => some e
    | .ok _ => none
  if (own.all fun e => 3 < e.no) && s.sxAt x m (addr L) && !s.sxGroupOk x m addr L then some failAlign else own

/-- R169: the earliest check that any lane fails, for the lowest lane that fails it. -/
def State.memTrap (s : State) (x : Ctx) (m : MemForm) (lanes : List Nat) (addr : Nat → W64) : Option Trap :=
  let fails := lanes.filterMap fun L => (s.laneFail x m addr L).map fun e => (L, e)
  match fails with
  | [] => none
  | (L0, e0) :: rest =>
    let best := rest.foldl (fun b r => if r.2.no < b.2.no then r else b) (L0, e0)
    some (Trap.of best.2.cause (oneLane best.1) (addr best.1) 0)

/-! ### Guards (R74, R117) -/

/-- The guard of a native opcode: the tag, the page FMT outside scratchpad, one address for all lanes. -/
structure Guard where
  tags : List Nat
  fmt : Option Nat
  same : Bool
  acc : Access
deriving DecidableEq, Repr

/-- The translation of a lane's address, where it has a page. -/
def State.pageOf (s : State) (x : Ctx) (acc : Access) (L : Nat) (a : W64) : Option Xlate :=
  if tagOf a = 4 then
    let p := (a.extractLsb' 0 32).toNat
    if a.extractLsb' 32 28 ≠ 0 ∨ x.blk.privlim < p + 4 then none
    else s.translate (some x.blk.quadId) x.blk.ten (s.spasid x.blk) (x.blk.privVa x.sid L (p / 4 * 4)) acc
  else
    match va56 a with
    | some va => s.translate (some x.blk.quadId) x.blk.ten x.blk.pasid va acc
    | none => none

/-- Every byte of the element at an address of a page translates: a block may cross into a second translation (R365). -/
def State.blockMapped (s : State) (x : Ctx) (v : Xlate) (acc : Access) (a : W64) : Bool :=
  match va56 a, Fmt.ofCode v.fmt with
  | some va, some f => tagOf a = 4 || !f.isSx || (s.pieces x v va f.sxSize acc).isSome
  | _, _ => true

/-- A lane passes the guard; one whose translation faults fails it, whatever the reason (R117). -/
def State.guardPass (s : State) (x : Ctx) (g : Guard) (addr : Nat → W64) (L : Nat) : Bool :=
  g.tags.contains (tagOf (addr L)) && (!g.same || addr L == addr x.lead) &&
  (if tagOf (addr L) = 2 ∨ tagOf (addr L) = 3 then true
    else match s.pageOf x g.acc L (addr L) with
      | some v => (match g.fmt with | some c => v.fmt.toNat == c | none => true) && s.blockMapped x v g.acc (addr L)
      | none => false)

/-- Whether a word with Q = 1 replays as its generic word. -/
def State.replays (s : State) (x : Ctx) (g : Guard) (addr : Nat → W64) : Bool :=
  x.ctl.q && x.lanes.any fun L => !s.guardPass x g addr L

/-- A failed guard is counted, whatever follows (R117, R127). -/
def guardEntry (g : Guard) (addr : State → Ctx → Nat → W64) : Entry :=
  { Entry.plain with before := fun s x => if s.replays x g (addr s x) then s.countSite x.blk.core 2 else s }

/-- What follows a completed issue of a family's word: a request to widen after a replay, to quicken after a generic
execution (R113, R118). -/
def State.siteAfter (s : State) (x : Ctx) (generic replay : Bool) (form : Option Native) : State :=
  if replay then s.widen x else if generic then s.quicken x form else s

/-- One value for every lane, if they agree. -/
def agreed (vs : List Nat) : Option Nat :=
  match vs with
  | [] => none
  | v :: rest => if rest.all (· == v) then some v else none

/-- The native form of LDA (R114). -/
def loadForm (rs : List (W64 × Reach)) : Option Native :=
  match agreed (rs.map fun r => r.2.tag) with
  | none => none
  | some t =>
    let scratch := decide (t = 2 ∨ t = 3)
    match rs with
    | [] => none
    | r0 :: rest =>
      if !rest.isEmpty && rest.all (fun r => r.1 == r0.1) && (scratch || (agreed (rs.map fun r => r.2.page)).isSome) then
        some (Native.mem 0x99 t r0.2.page)
      else if scratch then some (Native.mem 0x94 t 0)
      else match agreed (rs.map fun r => r.2.page) with
        | some p => some (Native.mem (if t = 0 then 0x92 else if t = 1 then 0x98 else 0x96) t p)
        | none => none

/-- The native form of STA (R114). -/
def storeForm (rs : List (W64 × Reach)) : Option Native :=
  match agreed (rs.map fun r => r.2.tag) with
  | none => none
  | some t =>
    if t = 2 ∨ t = 3 then some (Native.mem 0x95 t 0)
    else match agreed (rs.map fun r => r.2.page) with
      | some p => some (Native.mem (if t = 0 then 0x93 else 0x97) t p)
      | none => none

/-! ### The operation -/

/-- The effective address of a lane (R168). -/
def State.effAddr (s : State) (x : Ctx) (base : Operand) (imm : W32) (L : Nat) : W64 :=
  s.op64 x base L + imm.signExtend 64

/-- Translations put to use: TLB entries, and the dirty log for writes (R366, R373). -/
def State.useVia (s : State) (x : Ctx) (vs : List Xlate) (acc : Access) : State :=
  vs.foldl (fun s v => s.useXlate (some x.blk.quadId) v acc) s

/-- The reach of every lane, once the checks have passed. -/
def State.reaches (s : State) (x : Ctx) (m : MemForm) (lanes : List Nat) (addr : Nat → W64) : List (Nat × Reach) :=
  lanes.filterMap fun L => match s.reach x m L (addr L) with
    | .ok r => some (L, r)
    | .error _ => none

/-- An operation as it enters flight. -/
def State.startOp (s : State) (x : Ctx) (order : Order) (scope : Scope) (ord : Bool) (k : OpKind) : State :=
  s.pushOp x.blk.uid
    { id := 0, strand := x.sid, lanes := x.fr.lanes, active := x.active, tok := x.ctl.sett, pc := x.fr.pc, order := order,
      scope := scope, ord := ord, stage := .waiting, dropped := [], kind := k }

/-- The bytes of a lane's access. -/
def Reach.locs (r : Reach) : List Loc := r.pieces.flatMap fun p => p.1.span p.2

/-- The places that the lanes of an access read, once its checks have passed. -/
def State.readLocs (s : State) (x : Ctx) (m : MemForm) (addr : Nat → W64) : List Loc :=
  if (s.memTrap x m x.lanes addr).isSome then [] else (s.reaches x m x.lanes addr).flatMap fun r => r.2.locs

/-- Poison under a load, or under an atomic at its homes, traps ECC precisely (R178, R275). -/
def State.poisonTrap (s : State) (via : Via) (rs : List (Nat × Reach)) (addr : Nat → W64) : Option Trap :=
  eccLanes (rs.map (·.1)) (fun L => rs.any fun r => r.1 == L && s.mem.badVia via r.2.locs) addr

/-- Registers of a load of 64-bit elements come in pairs (R172). -/
def loadWide (f : MaFmt) (narrow : Bool) : Bool := !narrow && f.fmt.wide

/-- The address of a lane's load: its own, or the lowest lane's. -/
def loadAddr (f : MaFmt) (bcast : Bool) (s : State) (x : Ctx) (L : Nat) : W64 :=
  s.effAddr x f.ops.a f.ops.imm (if bcast then x.lead else L)

/-- The accesses of a load: one for each lane, or one request for all of them (R176). -/
def loadAccs (one : Bool) (x : Ctx) (rs : List (Nat × Reach)) (addr : Nat → W64) : List LaneAcc :=
  let accs := rs.map fun r =>
    { lane := r.1, group := oneLane r.1, addr := addr r.1, pieces := r.2.pieces, fmt := r.2.fmt, elem := r.2.elem,
      b := 0, c := 0, data := [] : LaneAcc }
  if one then (accs.take 1).map fun a => { a with group := x.active } else accs

/-- A load: its checks, its operation in flight, and what its site asks for (log 25, DEDUCED).  `ldb` is LDB's one request,
`bcast` its Q = 0 form. -/
def loadBody (f : MaFmt) (m : MemForm) (g : Guard) (ldb bcast generic : Bool) (s : State) (x : Ctx) : Except Trap Done :=
  let addr := loadAddr f bcast s x
  if x.active = 0 then .ok (Done.now x s)
  else
    match s.memTrap x m x.lanes addr with
    | some t => .error t
    | none =>
      let uni := f.ops.d.isUni
      let lanes := if uni then [x.lead] else x.lanes
      let all := s.reaches x m x.lanes addr
      let rs := if uni then all.take 1 else all
      match s.poisonTrap (s.via x.blk) rs addr with
      | some t => .error t
      | none =>
        let replay := s.replays x g addr
        -- a private address names a place of each lane's own (R173)
        let todo := loadAccs (ldb && !replay && !uni && tagOf (addr x.lead) != 4) x rs addr
        let dst := lanes.flatMap fun L => s.placeOf x f.ops.d (loadWide f m.narrow) L
        let after := s.useVia x (rs.flatMap fun r => r.2.via) .read
        let after := after.siteAfter x generic replay (loadForm (all.map fun r => (addr r.1, r.2)))
        .ok (Done.later x (after.startOp x f.order f.scope false (.load dst f.zx todo [])))

/-- The bytes that a lane's store brings; a nibble of an INT4 element stands alone in its byte (R170, R171). -/
def storeData (r : Reach) (n : Nat) (v : W64) : List Byte := leBytes n (r.fmt.storeBits v.toNat)

/-- The accesses of a store, one per lane, or one per group for SX elements (R171); `b` is the consumer's block number
(R177). -/
def storeAccs (rs : List (Nat × Reach)) (addr val who : Nat → W64) : List LaneAcc :=
  rs.filterMap fun r =>
    let n := (r.2.pieces.map (·.2)).foldl (· + ·) 0
    if r.2.fmt.isSx then
      if r.1 % 16 = 0 then
        let xs := (List.range 16).map fun i => FF.f32.val (val (r.1 + i)).toNat
        some { lane := r.1, group := groupMask (r.1 / 16), addr := addr r.1, pieces := r.2.pieces, fmt := r.2.fmt, elem := 0,
               b := who r.1, c := 0, data := (sxEncode r.2.fmt xs).map fun k => BitVec.ofNat 8 k }
      else none
    else
      some { lane := r.1, group := oneLane r.1, addr := addr r.1, pieces := r.2.pieces, fmt := r.2.fmt, elem := r.2.elem,
             b := who r.1, c := 0, data := storeData r.2 n (val r.1) }

/-- A store: its checks, its operation in flight, and what its site asks for. -/
def storeBody (f : MaFmt) (m : MemForm) (g : Guard) (generic : Bool) (s : State) (x : Ctx) : Except Trap Done :=
  let addr := fun L => s.effAddr x f.ops.d f.ops.imm L
  if x.active = 0 then .ok (Done.now x s)
  else
    match s.memTrap x m x.lanes addr with
    | some t => .error t
    | none =>
      let rs := s.reaches x m x.lanes addr
      let wide := loadWide f m.narrow
      let val := fun L => s.operand x (if wide then .b64 else .b32) wide f.ops.a f.ops.imm L
      let after := s.useVia x (rs.flatMap fun r => r.2.via) .write
      let after := after.siteAfter x generic (s.replays x g addr) (storeForm (rs.map fun r => (addr r.1, r.2)))
      let who := fun L => if f.fwd then s.operand x .u32 false f.ops.b f.ops.imm L else 0
      .ok (Done.later x (after.startOp x f.order f.scope false (.store f.fwd (storeAccs rs addr val who))))

/-! ### The forms of each opcode (R74, R174) -/

/-- The generic form that LDA and every quickened load execute as (R111, R117). -/
def MemForm.lda : MemForm := { tags := [0, 1, 2, 3, 4], acc := .read, fixed := none, narrow := true, atom := 0 }
def MemForm.sta : MemForm := { tags := [0, 2, 3, 4], acc := .write, fixed := none, narrow := true, atom := 0 }

/-- A native word: its own tag and format with Q = 0, its family's form with Q = 1. -/
def nativeForm (f : MaFmt) (q : Bool) (acc : Access) : MemForm :=
  if q then (if acc == .read then MemForm.lda else MemForm.sta)
  else { tags := [f.space.toNat], acc := acc, fixed := some f.fmt, narrow := false, atom := 0 }

/-- The guard of R74; LDS and STS test the tag alone. -/
def nativeGuard (f : MaFmt) (same : Bool) (acc : Access) : Guard :=
  { tags := [f.space.toNat], fmt := some f.fmt.code.toNat, same := same, acc := acc }

/-- No guard: the generic words. -/
def Guard.none : Guard := { tags := [], fmt := Option.none, same := false, acc := .read }

/-- A native load of the LDA family. -/
def nativeLoad (i : Instr) (c : Ctl) (f : MaFmt) (ldb : Bool) : State → Host.Outcome State Fault Refusal :=
  let g := nativeGuard f ldb .read
  let m := nativeForm f c.q .read
  let bcast := ldb && !c.q
  issue i c ((guardEntry g fun s x L => s.effAddr x f.ops.a f.ops.imm L).scans fun s x =>
      s.scanLoad x.blk (s.readLocs x m (loadAddr f bcast s x)))
    (loadBody f m g ldb bcast false)

/-- A native store of the STA family. -/
def nativeStore (i : Instr) (c : Ctl) (f : MaFmt) : State → Host.Outcome State Fault Refusal :=
  let g := nativeGuard f false .write
  issue i c (guardEntry g fun s x L => s.effAddr x f.ops.d f.ops.imm L) (storeBody f (nativeForm f c.q .write) g false)

def execLda (c : Ctl) (f : MaFmt) : State → Host.Outcome State Fault Refusal :=
  issue (.lda c f) c (Entry.plain.scans fun s x => s.scanLoad x.blk (s.readLocs x MemForm.lda (loadAddr f false s x)))
    (loadBody f MemForm.lda Guard.none false false true)

def execSta (c : Ctl) (f : MaFmt) : State → Host.Outcome State Fault Refusal :=
  issue (.sta c f) c Entry.plain (storeBody f MemForm.sta Guard.none true)

def execLdg (c : Ctl) (f : MaFmt) : State → Host.Outcome State Fault Refusal := nativeLoad (.ldg c f) c f false
def execLds (c : Ctl) (f : MaFmt) : State → Host.Outcome State Fault Refusal := nativeLoad (.lds c f) c f false
def execLdp (c : Ctl) (f : MaFmt) : State → Host.Outcome State Fault Refusal := nativeLoad (.ldp c f) c f false
def execLdk (c : Ctl) (f : MaFmt) : State → Host.Outcome State Fault Refusal := nativeLoad (.ldk c f) c f false
/-- One request for the fragment: with Q = 0 every lane uses the lowest lane's address (R176). -/
def execLdb (c : Ctl) (f : MaFmt) : State → Host.Outcome State Fault Refusal := nativeLoad (.ldb c f) c f true
def execStg (c : Ctl) (f : MaFmt) : State → Host.Outcome State Fault Refusal := nativeStore (.stg c f) c f
def execSts (c : Ctl) (f : MaFmt) : State → Host.Outcome State Fault Refusal := nativeStore (.sts c f) c f
def execStp (c : Ctl) (f : MaFmt) : State → Host.Outcome State Fault Refusal := nativeStore (.stp c f) c f

end Machine
end Sys2Proof
end

