-- ==== Sys2Proof/Machine/Atomic.lean ====
section
/-!
DEFINITION. Atomics and reductions (R185 to R190) and FATOM (R210): what each operation makes of the old value, and the
operation that an issue leaves in flight; the step at the home stands in Perform.lean.
-/
namespace Sys2Proof
open Machine

/-! ### Op (R187, R188) -/

/-- What an operation at the home gives: the new bits, whether they are written, and faddb's predicate. -/
structure AtomResult where
  new : Nat
  write : Bool
  applied : Bool
deriving DecidableEq, Repr

def AtomResult.put (n : Nat) : AtomResult := { new := n, write := true, applied := true }

/-- Op on bits of the type's width (R187); f32 and f64 work on values, and FMODE does not apply (R188). -/
def atomOp (sub : Nat) (t : Ty) (old b c : Nat) : AtomResult :=
  let w := t.bits
  let old := old % 2 ^ w
  let b := b % 2 ^ w
  let c := c % 2 ^ w
  let float := t == .f32 || t == .f64
  let i := fun (v : Nat) => readInt t.signed w v
  match sub with
  | 0 =>
    if float then .put (fpResult t.ff (FP.sum .rne [t.ff.val old, t.ff.val b]).1 .rne).1
    else .put ((old + b) % 2 ^ w)
  | 1 => if float then .put (t.ff.minmax false false old b).1 else .put (if i b < i old then b else old)
  | 2 => if float then .put (t.ff.minmax true false old b).1 else .put (if i old < i b then b else old)
  | 3 => .put (old &&& b)
  | 4 => .put (old ||| b)
  | 5 => .put (old ^^^ b)
  | 6 => .put b
  | 7 => { new := b, write := old == c, applied := old == c }
  | 8 => .put (if c ≤ old then 0 else old + 1)
  | 9 => .put (if old = 0 ∨ c < old then c else old - 1)
  | _ =>
    let ok := decide (old + b < 2 ^ w) && decide (old + b ≤ c)
    { new := old + b, write := ok, applied := ok }

namespace Machine

/-! ### Issue (R186) -/

/-- The form of an atomic with the tags that check 1 admits. -/
def atomForm (t : Ty) (tags : List Nat) : MemForm :=
  { tags := tags, acc := .atomic, fixed := none, narrow := false, atom := if t.wide then 8 else 4 }

/-- The guard of a native atomic: its tag alone, and a translation that does not fault (R74, R117). -/
def atomGuard (tags : List Nat) : Guard := { tags := tags, fmt := none, same := false, acc := .atomic }

/-- Destinations of an ATOM form: the old value to DST, or for faddb the predicate to DST and the old value to SRCC. -/
def State.atomDst (s : State) (x : Ctx) (f : MbFmt) : Dst :=
  x.lanes.flatMap fun L =>
    if f.sub == 10 then predPlace f.ops.d L ++ s.placeOf x f.ops.c f.ty.wide L else s.placeOf x f.ops.d f.ty.wide L

/-- The native form that a generic atomic or reduction asks for (R114). -/
def atomNative (red : Bool) (rs : List (Nat × Reach)) : Option Native :=
  match agreed (rs.map fun r => r.2.tag) with
  | none => none
  | some t =>
    if t = 0 then some (Native.atom (if red then 0xB4 else 0xB2) 0)
    else some (Native.atom (if red then 0xB5 else 0xB3) (t - 2))

/-- An atomic or reduction: its checks, its operation in flight, and what its site asks for. -/
def atomBody (f : MbFmt) (m : MemForm) (g : Guard) (red generic : Bool) (s : State) (x : Ctx) : Except Trap Done :=
  let addr := fun L => s.effAddr x f.ops.a f.ops.imm L
  if x.active = 0 then .ok (Done.now x s)
  else
    match s.memTrap x m x.lanes addr with
    | some t => .error t
    | none =>
      let rs := s.reaches x m x.lanes addr
      match s.poisonTrap atHome rs addr with
      | some t => .error t
      | none =>
        let todo := rs.map fun r =>
          { lane := r.1, group := oneLane r.1, addr := addr r.1, pieces := r.2.pieces, fmt := r.2.fmt, elem := 0,
            b := s.operand x f.ty f.ty.wide f.ops.b 0 r.1, c := s.operand x f.ty f.ty.wide f.ops.c 0 r.1,
            data := [] : LaneAcc }
        let dst := if red then [] else s.atomDst x f
        let after := s.useVia x (rs.flatMap fun r => r.2.via) .atomic
        let after := after.siteAfter x generic (s.replays x g addr) (atomNative red rs)
        .ok (Done.later x (after.startOp x f.order f.scope f.ord (.atomic f.sub f.ty dst todo [])))

/-- An atomic reads at its homes. -/
def atomScan (f : MbFmt) (m : MemForm) (s : State) (x : Ctx) : State :=
  s.scanHome (s.readLocs x m fun L => s.effAddr x f.ops.a f.ops.imm L)

/-- The tags of a generic atomic (R185). -/
def atomTags : List Nat := [0, 2, 3]

/-- A native atomic or reduction, by its tag; with Q = 1 behind its guard. -/
def nativeAtom (i : Instr) (c : Ctl) (f : MbFmt) (tag : Nat) (red : Bool) : State → Host.Outcome State Fault Refusal :=
  let g := atomGuard [tag]
  let m := atomForm f.ty (if c.q then atomTags else [tag])
  issue i c ((guardEntry g fun s x L => s.effAddr x f.ops.a f.ops.imm L).scans (atomScan f m)) (atomBody f m g red false)

def genericAtom (i : Instr) (c : Ctl) (f : MbFmt) (red : Bool) : State → Host.Outcome State Fault Refusal :=
  let m := atomForm f.ty atomTags
  issue i c (Entry.plain.scans (atomScan f m)) (atomBody f m Guard.none red true)

/-- The tag of ATOMS and REDS (R185). -/
def cluTag (f : MbFmt) : Nat := if f.clu then 3 else 2

def execAtoma (c : Ctl) (f : MbFmt) : State → Host.Outcome State Fault Refusal := genericAtom (.atoma c f) c f false
def execReda (c : Ctl) (f : MbFmt) : State → Host.Outcome State Fault Refusal := genericAtom (.reda c f) c f true
def execAtomg (c : Ctl) (f : MbFmt) : State → Host.Outcome State Fault Refusal := nativeAtom (.atomg c f) c f 0 false
def execAtoms (c : Ctl) (f : MbFmt) : State → Host.Outcome State Fault Refusal := nativeAtom (.atoms c f) c f (cluTag f) false
def execRedg (c : Ctl) (f : MbFmt) : State → Host.Outcome State Fault Refusal := nativeAtom (.redg c f) c f 0 true
def execReds (c : Ctl) (f : MbFmt) : State → Host.Outcome State Fault Refusal := nativeAtom (.reds c f) c f (cluTag f) true

/-! ### FATOM (R210) -/

/-- The operation of R187 that a SUB of FATOM names (R204). -/
def fatomSub (sub : BitVec 4) : BitVec 4 := if sub == 3 then 6 else sub

/-- The scope of a frame depth (R209, R211). -/
def depthScope (d : Nat) : Scope :=
  match d with
  | 1 => .clu
  | 2 => .blk
  | _ => .thr

/-- The slot of a lane as a place to update. -/
def State.fatomReach (s : State) (x : Ctx) (f : SFmt) (L : Nat) : Except Miss (List Loc) :=
  match f.ops.a with
  | .slot d k => s.slotWords x d.toNat k.toNat f.ty.wide true L
  | _ => .ok []

/-- The address of a lane's slot. -/
def fatomAddr (x : Ctx) (f : SFmt) (L : Nat) : W64 :=
  match f.ops.a with
  | .slot d k => (x.st.dispReg d.toNat L).ptr + BitVec.ofNat 64 (4 * k.toNat)
  | _ => 0

/-- The bytes of a lane's slot. -/
def State.fatomLocs (s : State) (x : Ctx) (f : SFmt) (L : Nat) : List Loc :=
  match s.fatomReach x f L with
  | .ok ws => ws.flatMap fun w => w.span 4
  | .error _ => []

/-- The fault of a slot that cannot be updated: the first condition that a lane fails, for the lowest such lane (R24); DEPTH 0
is ACCESS.  An uncorrectable error in a slot traps ECC (R275). -/
def State.fatomTrap (s : State) (x : Ctx) (f : SFmt) : Option Trap :=
  (firstFail (x.lanes.filterMap fun L => match s.fatomReach x f L with
    | .error m => some (L, m.no, Trap.of m.cause (oneLane L) m.addr 0)
    | .ok _ => none)).orElse fun _ =>
  eccLanes x.lanes (fun L => s.mem.anyPoison (s.fatomLocs x f L)) (fatomAddr x f)

/-- The lanes' accesses to their slots. -/
def State.fatomAccs (s : State) (x : Ctx) (f : SFmt) : List LaneAcc :=
  x.lanes.filterMap fun L => match s.fatomReach x f L with
    | .ok ws => some
        { lane := L, group := oneLane L, addr := fatomAddr x f L, pieces := ws.map fun w => (w, 4), fmt := .raw32, elem := 0,
          b := s.operand x f.ty f.ty.wide f.ops.b f.ops.imm L, c := 0, data := [] }
    | .error _ => none

def fatomBody (f : SFmt) (s : State) (x : Ctx) : Except Trap Done :=
  if x.active = 0 then .ok (Done.now x s)
  else
    match s.fatomTrap x f with
    | some t => .error t
    | none =>
      let dst := if f.ops.d.unused then [] else x.lanes.flatMap fun L => s.placeOf x f.ops.d f.ty.wide L
      .ok (Done.later x (s.startOp x f.order (depthScope f.sd.toNat) false (.atomic (fatomSub f.sub) f.ty dst (s.fatomAccs x f) [])))

def execFatom (c : Ctl) (f : SFmt) : State → Host.Outcome State Fault Refusal :=
  issue (.fatom c f) c (Entry.plain.scans fun s x => s.scanHome (x.lanes.flatMap (s.fatomLocs x f))) (fatomBody f)

end Machine
end Sys2Proof
end

