-- ==== Sys2Proof/Machine/Conv.lean ====
section
/-!
DEFINITION. Convergence (R49 to R53): signing a register, the operation that issues at the last signature, the exits of
R51; and the shared frames of a block and a cluster, which are convergent over internal registers (R201, R207, R208).
-/
namespace Sys2Proof
open Machine

namespace Machine

/-! ### Tokens of signers -/

/-- The tokens of signers fall: their operation has completed, or has been discarded (R36, R50). -/
def Block.releaseSigners (b : Block) (gs : List Signer) : Block :=
  gs.foldl (fun b g => b.updStrand g.strand fun st => st.tokDown g.all g.tok.toNat) b

/-! ### Frames in scratchpad (R201) -/

/-- Offset of the block frame in the window. -/
def Block.frameOff (b : Block) : Nat := 1024 * b.hdr.scratch

/-- Offset of the cluster frame in the window of rank 0. -/
def Block.clusterOff (b : Block) : Nat := b.frameOff + roundUp b.hdr.bframe 8

/-- d2 of a live block frame, d1 of a live cluster frame. -/
def Block.framePtr (b : Block) (cluster : Bool) : W64 :=
  if cluster then 0x3000000000000000#64 + BitVec.ofNat 64 b.clusterOff
  else 0x2000000000000000#64 + BitVec.ofNat 64 b.frameOff

/-- Display register n of every live thread of the block. -/
def Block.setDispAll (b : Block) (n : Nat) (d : Disp) : Block :=
  { b with strands := b.strands.map fun st => (lanesOf st.live).foldl (fun st L => st.setDisp n L d) st }

/-- The same of a block of the module, its registers written whole (R269). -/
def State.setDisps (s : State) (uid n : Nat) (d : Disp) : State :=
  (s.updBlock uid fun x => x.setDispAll n d).errsGone fun e => match e with
    | .disp u _ m _ => u == uid && m == n
    | _ => false

/-- Bytes of a block's window filled with zeros. -/
def State.zeroWindow (s : State) (b : Block) (off n : Nat) : State :=
  (List.range n).foldl (fun s i => match s.scratchLoc b (off + i) with
    | some (.spad c a) => s.setMem (s.mem.spadWrite c [(a, 0)])
    | _ => s) s

/-! ### Held signers of a shared-frame instruction -/

/-- The signers go on at the next word (R207, R208). -/
def Block.freeShared (b : Block) (gs : List Signer) : Block :=
  gs.foldl (fun b g =>
    let b := b.updStrand g.strand fun st => st.tokDown g.all g.tok.toNat
    match (b.strand g.strand).frags.find? fun f => f.hold == .shared && f.lanes &&& g.lanes != 0 with
    | some f => b.updStrand g.strand fun st => st.release f (f.pc + 16)
    | none => b) b

/-- Every live thread of the block (R49). -/
def Block.liveThreads (b : Block) : BitVec 1024 :=
  (List.range b.strands.length).foldl (fun acc sid => acc ||| threadSet b sid (b.strand sid).live) 0

/-- BFENTER and BFLEAVE take effect: the frame is zeroed and d2 set, or d2 is cleared, in every live thread. -/
def State.blockFrameOp (s : State) (b : Block) (i : Instr) : State :=
  match i with
  | .bfenter _ _ =>
    (s.zeroWindow b b.frameOff (roundUp b.hdr.bframe 8)).setDisps b.uid 2 { ptr := b.framePtr false, valid := true }
  | .bfleave _ _ => s.setDisps b.uid 2 Disp.none
  | _ => s

/-- The block's internal generation closes when every live thread has signed (R51, R207). -/
def State.innerClose (s : State) (uid : Nat) : State :=
  match s.block uid with
  | none => s
  | some b =>
    match b.inner.cap with
    | none => s
    | some c =>
      let live := b.liveThreads
      if live = 0 then s.updBlock uid fun x => { x.releaseSigners c.signers with inner := Conv.empty }
      else if live &&& ~~~b.inner.sig = 0 then
        (s.blockFrameOp b c.instr).updBlock uid fun x => { x.freeShared c.signers with inner := Conv.empty }
      else s

/-! ### The cluster's internal register -/

def State.clusterLive (s : State) (b : Block) : BitVec 4096 :=
  (s.clusterBlocks b).foldl (fun acc x => acc ||| clusterBits x.rank x.liveThreads) 0

/-- CFENTER and CFLEAVE take effect in every live thread of the cluster; only rank 0 holds the frame's bytes (R201). -/
def State.clusterFrameOp (s : State) (b : Block) (i : Instr) : State :=
  let blocks := s.clusterBlocks b
  match i with
  | .cfenter _ _ =>
    let s := match s.rankBlock b 0 with
      | some r => s.zeroWindow r r.clusterOff (roundUp r.hdr.cframe 8)
      | none => s
    blocks.foldl (fun s x => s.setDisps x.uid 1 { ptr := b.framePtr true, valid := true }) s
  | .cfleave _ _ => blocks.foldl (fun s x => s.setDisps x.uid 1 Disp.none) s
  | _ => s

def State.clusterClose (s : State) (uid : Nat) : State :=
  match s.block uid with
  | none => s
  | some b =>
    let cl := s.cluster b.cluster
    match cl.cap with
    | none => s
    | some i =>
      let live := s.clusterLive b
      let clear := { cl with sig := 0, cap := none, signers := [] }
      if live = 0 then s.putCluster clear
      else if live &&& ~~~cl.sig = 0 then
        let s := s.clusterFrameOp b i
        let s := cl.signers.foldl (fun s g => s.updBlock g.1 fun x => x.freeShared [g.2]) s
        s.putCluster clear
      else s

/-! ### Convergence registers -/

def Block.setCv (b : Block) (n : Nat) (c : Conv) : Block := { b with cvs := b.cvs.set Conv.empty n c }

/-- The convergent operation issues at the engine: it takes its place in the engine's order (R50, R213). -/
def State.engineIssue (s : State) (uid : Nat) (c : Capture) (decl : BitVec 1024) : State :=
  let o : EngOp :=
    { id := s.nextId, cap := c, decl := decl, bound := [], dst := [], locs := [], started := false }
  { s.updBlock uid fun b => { b with eng := b.eng.map fun e => { e with queue := e.queue ++ [o] } } with
    nextId := s.nextId + 1 }

/-- A generation of register n: discarded when nobody is declared, issued when every declared thread has signed
(R50, R51). -/
def State.cvClose (s : State) (uid n : Nat) : State :=
  match s.block uid with
  | none => s
  | some b =>
    let cv := b.cv n
    match cv.cap with
    | none => s
    | some c =>
      if cv.decl = 0 then s.updBlock uid fun x => (x.releaseSigners c.signers).setCv n Conv.empty
      else if cv.decl &&& ~~~cv.sig = 0 then
        (s.engineIssue uid c cv.decl).updBlock uid fun x => x.setCv n { decl := cv.decl, sig := 0, cap := none }
      else s

/-- Threads leave DECL, and the signatures they gave with it; generations close (R51). -/
def State.leaveConv (s : State) (uid : Nat) (gone : BitVec 1024) : State :=
  let s := s.updBlock uid fun b =>
    { b with
      cvs := (b.cvs.map fun kv =>
        (kv.1, { kv.2 with decl := kv.2.decl &&& ~~~gone, sig := kv.2.sig &&& ~~~gone })).filter fun kv => kv.2 != Conv.empty
      inner := { b.inner with sig := b.inner.sig &&& ~~~gone } }
  (List.range 8).foldl (fun s n => s.cvClose uid n) s

/-! ### Signing -/

/-- What a fragment leaves as the first signer, and how it counts as a signer. -/
def Ctx.signer (x : Ctx) (seq : Nat) : Signer :=
  { strand := x.sid, seq := seq, lanes := x.active, all := x.fr.lanes, tok := x.ctl.sett }

/-- The capture after a signature: the first signer's values stay (R50). -/
def Conv.captured (cv : Conv) (i : Instr) (vals : List W64) (counts : W32) (x : Ctx) (g : Signer) : Capture :=
  let old := match cv.cap with
    | some c => c.signers
    | none => []
  match cv.cap with
  | some c =>
    if cv.sig = 0 then
      { instr := i, vals := vals, counts := counts, lane := x.lead, pc := x.fr.pc, signers := old ++ [g],
        dropped := [] }
    else { c with signers := old ++ [g] }
  | none =>
    { instr := i, vals := vals, counts := counts, lane := x.lead, pc := x.fr.pc, signers := [g], dropped := [] }

/-- SIGN register n (R50): the active lanes sign, and the last signature issues the operation.  A MITER's predicate counts
as a write in flight of each signing lane, at the signature's place in issue order (R81). -/
def State.signCv (s : State) (x : Ctx) (i : Instr) (n : Nat) (vals : List W64) (counts : W32) : State :=
  if x.active = 0 then s
  else
    let s' := s.updBlock x.blk.uid fun b =>
      let cv := b.cv n
      b.setCv n { cv with
        sig := cv.sig ||| threadSet b x.sid x.active, cap := some (cv.captured i vals counts x (x.signer s.nextId)) }
    ({ s' with nextId := s.nextId + 1 } : State).cvClose x.blk.uid n

/-- The effect of signing; the token counts the operation in the fragment's lanes (R50). -/
def convBody (i : Instr) (n : Nat) (vals : State → Ctx → List (Nat → W64)) (counts : State → Ctx → W32)
    (s : State) (x : Ctx) : Except Trap Done :=
  if x.active = 0 then .ok (Done.now x s)
  else .ok (Done.later x (s.signCv x i n ((vals s x).map fun v => v x.lead) (counts s x)))

/-! ### Shared-frame instructions -/

/-- Lanes of the strand for which an open generation's signatures count a token. -/
def Ctx.signedFor (x : Ctx) (gs : List Signer) : Lanes :=
  gs.foldl (fun m g => if g.strand == x.sid then m ||| g.all else m) 0#64

/-- The signature of a shared frame: a merged fragment signs for the lanes that have not (log 15, DEDUCED). -/
def Ctx.sharedSigner (x : Ctx) (seq : Nat) (m : Lanes) (gs : List Signer) : Signer :=
  { x.signer seq with lanes := m, all := x.fr.lanes &&& ~~~(x.signedFor gs) }

/-- The tokens that earlier signatures count in a merged fragment: its new hold counts every lane again. -/
def State.uncount (s : State) (x : Ctx) (gs : List Signer) : State :=
  s.updStrand x.blk.uid x.sid fun st => st.tokDown (x.fr.lanes &&& x.signedFor gs) x.ctl.sett.toNat

/-- A signing lane that the entry refuses traps FRAME (R207, R208): of the two conditions of a leave the first that a lane fails
(R24). -/
def sharedTrap (x : Ctx) (m : Lanes) (depth : Nat) (enter : Bool) : Option Trap :=
  let frame := fun (p : Nat → Bool) =>
    let bad := laneSet fun L => m.getLsbD L && p L
    if bad = 0 then none else some (Trap.of .frame bad 0 (BitVec.ofNat 32 depth))
  if enter then frame fun L => (x.st.dispReg depth L).valid
  else (frame fun L => (x.st.lane L).top != 0).orElse fun _ => frame fun L => !(x.st.dispReg depth L).valid

/-- The last signature, or a hold at the instruction until it comes (R207). -/
def sharedDone (x : Ctx) (before after : State) (closed : Bool) : Done :=
  if closed then Done.now x after
  else { st := before, pcOf := fun _ => x.fr.pc, gone := 0, nap := none, hold := .shared, counts := true }

/-- Sign the block's internal register. -/
def blockSignBody (i : Instr) (enter : Bool) (s : State) (x : Ctx) : Except Trap Done :=
  if x.active = 0 then .ok (Done.now x s)
  else
    let m := x.active &&& ~~~x.innerSigned
    match sharedTrap x m 2 enter with
    | some t => .error t
    | none =>
      let others := match x.blk.inner.cap with
        | some c => c.signers
        | none => []
      let sig := x.blk.inner.sig ||| threadSet x.blk x.sid m
      let live := x.blk.liveThreads
      let signed := (s.uncount x others).updBlock x.blk.uid fun b =>
        { b with inner :=
          { decl := live, sig := sig, cap := some (b.inner.captured i [] 0 x (x.sharedSigner s.nextId m others)) } }
      let closed := (s.blockFrameOp x.blk i).updBlock x.blk.uid fun b => { b.freeShared others with inner := Conv.empty }
      .ok (sharedDone x signed closed (decide (live &&& ~~~sig = 0)))

/-- Sign the cluster's internal register. -/
def clusterSignBody (i : Instr) (enter : Bool) (s : State) (x : Ctx) : Except Trap Done :=
  if x.active = 0 then .ok (Done.now x s)
  else
    let m := x.active &&& ~~~(s.clusterMarks x)
    match sharedTrap x m 1 enter with
    | some t => .error t
    | none =>
      let cl := s.cluster x.blk.cluster
      let others := (cl.signers.filter fun g => g.1 == x.blk.uid).map (·.2)
      let sig := cl.sig ||| clusterBits x.blk.rank (threadSet x.blk x.sid m)
      let live := s.clusterLive x.blk
      let signed := (s.uncount x others).putCluster
        { cl with decl := live, sig := sig, cap := some (cl.cap.getD i), lane := if cl.sig = 0 then x.lead else cl.lane,
                  signers := cl.signers ++ [(x.blk.uid, x.sharedSigner s.nextId m others)] }
      let s' := s.clusterFrameOp x.blk i
      let s' := cl.signers.foldl (fun s g => s.updBlock g.1 fun b => b.freeShared [g.2]) s'
      let closed := s'.putCluster { cl with sig := 0, cap := none, signers := [] }
      .ok (sharedDone x signed closed (decide (live &&& ~~~sig = 0)))

end Machine
end Sys2Proof
end

