-- ==== Sys2Proof/Machine/Control.lean ====
section
/-!
DEFINITION. Control instructions (R132 to R142) and the trap instructions (R232).
-/
namespace Sys2Proof
open Machine

namespace Machine

/-! ### Where lanes go -/

/-- The word's offset, as a branch adds it (R65). -/
def Ctx.direct (x : Ctx) (imm : W32) : W64 := x.fr.pc + imm.signExtend 64

/-- The active lanes go where `t` says, the others to the next word. -/
def Ctx.goto (x : Ctx) (t : Nat → W64) (L : Nat) : W64 := if x.active.getLsbD L then t L else x.fr.pc + 16

/-- The instruction completes at issue, with its lanes sent to their targets. -/
def Done.jump (x : Ctx) (s : State) (t : Nat → W64) : Done := { Done.now x s with pcOf := x.goto t }

/-- A target that is not a multiple of 16 (R55). -/
def unaligned (t : W64) : Bool := t.extractLsb' 0 4 != 0

def targetTrap (x : Ctx) (t : Nat → W64) : Option Trap :=
  laneTrap .align x.lanes fun L => if unaligned (t L) then some (t L) else none

/-- A trap for every active lane that satisfies `p`, with a code taken from the lowest of them (R24, R316). -/
def lanesTrap (c : Cause) (x : Ctx) (p : Nat → Bool) (code : Nat → W32) : Option Trap :=
  match x.lanes.filter p with
  | [] => none
  | L :: rest => some (Trap.of c (laneSet fun M => (L :: rest).contains M) 0 (code L))

/-- Faults in their order; the effect when there is none. -/
def orTraps (ts : List (Option Trap)) (d : Done) : Except Trap Done :=
  match ts.findSome? id with
  | some t => .error t
  | none => .ok d

def execNop (c : Ctl) (f : CFmt) : State → Host.Outcome State Fault Refusal :=
  issue (.nop c f) c Entry.plain fun s x => .ok (Done.now x s)

def execBra (c : Ctl) (f : CFmt) : State → Host.Outcome State Fault Refusal :=
  issue (.bra c f) c Entry.plain fun s x => .ok (Done.jump x s fun _ => x.direct f.ops.imm)

/-! ### BRXA and BRX (R134) -/

/-- Every lane's own target. -/
def State.targets (s : State) (x : Ctx) (f : CFmt) (L : Nat) : W64 := s.op64 x f.ops.a L

def Ctx.oneTarget (x : Ctx) (t : Nat → W64) : Bool := x.lanes.all fun L => t L == t x.lead

def execBrxa (c : Ctl) (f : CFmt) : State → Host.Outcome State Fault Refusal :=
  issue (.brxa c f) c Entry.plain fun s x =>
    let t := s.targets x f
    orTraps [targetTrap x t]
      (Done.jump x (s.siteAfter x true false (if x.oneTarget t then some Native.brx else none)) t)

/-- Whether a BRX with Q = 1 replays as BRXA. -/
def State.brxReplays (s : State) (x : Ctx) (f : CFmt) : Bool := x.ctl.q && !x.oneTarget (s.targets x f)

def execBrx (c : Ctl) (f : CFmt) : State → Host.Outcome State Fault Refusal :=
  issue (.brx c f) c
    { Entry.plain with before := fun s x => if s.brxReplays x f then s.countSite x.blk.core 2 else s } fun s x =>
    let t := s.targets x f
    let replay := s.brxReplays x f
    orTraps [targetTrap x t]
      (Done.jump x (s.siteAfter x false replay none) (if replay then t else fun _ => t x.lead))

/-! ### CALL and RET (R135 to R137, R202) -/

/-- Writes performed at once, in place of any in flight. -/
def State.writeNow (s : State) (x : Ctx) (ws : List PWrite) : State := s.writeResult x.blk x.sid s.nextId ws

/-- The lanes' hidden state changed. -/
def State.updLanes (s : State) (x : Ctx) (m : Lanes) (g : Nat → Lane → Lane) : State :=
  s.updStrand x.blk.uid x.sid fun st => st.updLanes m g

/-- The link that CALL writes: PC + 16 with the caller's CD in bits 2:0 (R135). -/
def Ctx.link (x : Ctx) (L : Nat) : W64 := (x.fr.pc + 16) ||| (x.st.lane L).cd.zeroExtend 64

def callBody (f : CFmt) (s : State) (x : Ctx) : Except Trap Done :=
  let n := f.depth.toNat
  let t := fun L => if f.sub == 0 then x.direct f.ops.imm else s.op64 x f.ops.a L
  let s' := (s.writeNow x (s.writesTo x f.ops.d true x.link)).updLanes x x.active fun _ l =>
    { l with cd := f.depth, nest := l.nest + 1 }
  orTraps
    [lanesTrap .frame x (fun L => decide ((x.st.lane L).cd.toNat + 1 < n)) (fun _ => BitVec.ofNat 32 n), targetTrap x t]
    (Done.jump x s' t)

def execCall (c : Ctl) (f : CFmt) : State → Host.Outcome State Fault Refusal :=
  issue (.call c f) c Entry.plain (callBody f)

/-- A live private frame entered at the current depth (R137, R202). -/
def Lane.frameLive (l : Lane) : Bool := l.top == l.cd && l.tnest == l.nest

def retBody (f : CFmt) (s : State) (x : Ctx) : Except Trap Done :=
  let l := fun L => s.op64 x f.ops.a L
  let cd := fun L => ((l L).extractLsb' 0 3 : BitVec 3)
  let s' := s.updLanes x x.active fun L a => { a with cd := cd L, nest := a.nest - 1 }
  orTraps
    [laneTrap .align x.lanes (fun L => if (l L).getLsbD 3 then some (l L) else none),
     lanesTrap .frame x (fun L => decide ((cd L).toNat < 2)) (fun L => (cd L).zeroExtend 32),
     lanesTrap .frame x (fun L => (x.st.lane L).frameLive) (fun L => (x.st.lane L).cd.zeroExtend 32)]
    (Done.jump x s' fun L => l L &&& ~~~0xF#64)

def execRet (c : Ctl) (f : CFmt) : State → Host.Outcome State Fault Refusal :=
  issue (.ret c f) c Entry.plain (retBody f)

/-! ### EXIT (R138, R51) -/

/-- Lanes end: they leave every register's DECL, and generations may close. -/
def State.endLanes (s : State) (x : Ctx) : State :=
  let s := s.updLanes x x.active fun _ l => { l with live := false }
  ((s.leaveConv x.blk.uid (threadSet x.blk x.sid x.active)).innerClose x.blk.uid).clusterClose x.blk.uid

def execExit (c : Ctl) (f : CFmt) : State → Host.Outcome State Fault Refusal :=
  issue (.exit c f) c Entry.plain fun s x =>
    .ok { Done.now x (if x.active = 0 then s else s.endLanes x) with gone := x.active }

/-! ### NAP (R139) -/

/-- The cycle before which the fragment's next word does not issue. -/
def napUntil (cycle n stall : Nat) : Nat := cycle + max (max (min n 0xFFFFFF) stall) 1

def execNap (c : Ctl) (f : CFmt) : State → Host.Outcome State Fault Refusal :=
  issue (.nap c f) c Entry.plain fun s x =>
    let n := s.op32 x f.ops.a f.ops.imm x.lead
    .ok { Done.now x s with nap := if x.active = 0 then none else some (napUntil s.cycle n c.stall.toNat) }

/-! ### Special registers (R39, R40, R140) -/

/-- %istat of the block's engine; zero without one (R39, R230). -/
def Block.istat (b : Block) : W64 :=
  match b.eng with
  | some e => e.istat
  | none => 0

/-- The value of a special register in a lane (R39). -/
def State.special (s : State) (x : Ctx) (sel L : Nat) : W64 :=
  let b := x.blk
  let n := fun (k : Nat) => BitVec.ofNat 64 k
  match sel with
  | 0x00 => n L
  | 0x01 => n b.width
  | 0x02 => n x.sid
  | 0x03 => n (x.sid * b.width + L)
  | 0x04 => n b.bx
  | 0x05 => n b.by_
  | 0x06 => n b.bz
  | 0x07 => n b.gx
  | 0x08 => n b.gy
  | 0x09 => n b.gz
  | 0x0A => n ((b.hdr.cluster - 1) * 4 + b.rank)
  | 0x0B => n b.quad
  | 0x0C => n b.core
  | 0x0D => n b.ten
  | 0x0E => x.st.fmode.zeroExtend 64
  | 0x0F => b.istat
  | 0x10 => n s.cycle
  | 0x11 => n b.privlim
  | _ => (x.st.lane L).traprec

/-- Latency of SRD of any register other than %fmode (R77). -/
abbrev srdLatency : Nat := 4

def specialWide (sel : Nat) : Bool := sel == 0x0F || sel == 0x10 || sel == 0x12

/-- SRD: a fixed latency, but %fmode is read with the strand idle and completes at issue (R38, R77). -/
def srdBody (f : CFmt) (s : State) (x : Ctx) : Except Trap Done :=
  let sel := f.sel.toNat
  let ws := s.writesTo x f.ops.d (specialWide sel) fun L => s.special x sel L
  if sel = 0x0E then .ok (Done.now x (s.writeNow x ws))
  else .ok (Done.later x (s.result x srdLatency ws Flags.none))

def execSrd (c : Ctl) (f : CFmt) : State → Host.Outcome State Fault Refusal :=
  issue (.srd c f) c Entry.plain (srdBody f)

/-- SWR of %fmode; reserved bits and reserved modes are refused (R37). -/
def swrBody (f : CFmt) (s : State) (x : Ctx) : Except Trap Done :=
  if x.active = 0 then .ok (Done.now x s)
  else
    let v := loWord (s.operand x .b32 false f.ops.a f.ops.imm x.lead)
    if !fmodeLegal v then .error (Trap.illegalWord x.active x.word)
    else .ok (Done.now x ((s.updStrand x.blk.uid x.sid fun st => { st with fmode := v }).errsGone
      (· == .fmode x.blk.uid x.sid)))

def execSwr (c : Ctl) (f : CFmt) : State → Host.Outcome State Fault Refusal :=
  issue (.swr c f) c Entry.plain (swrBody f)

/-! ### SPAWN and TRACE (R141, R142) -/

/-- A lane's record can be read. -/
def State.recordMapped (s : State) (x : Ctx) (a : W64) : Bool :=
  match va56 a with
  | some va => (s.vaLocs (some x.blk.quadId) x.blk.ten x.blk.pasid va 64 .read).isSome
  | none => false

def spawnBody (f : CFmt) (s : State) (x : Ctx) : Except Trap Done :=
  let a := fun L => s.op64 x f.ops.a L
  let todo := x.lanes.map fun L => (L, a L, loWord (s.operand x .u32 false f.ops.b f.ops.imm L))
  let dst := x.lanes.flatMap fun L => predPlace f.ops.d L
  if x.active = 0 then .ok (Done.now x s)
  else
    orTraps
      [laneTrap .access x.lanes (fun L => if tagOf (a L) ≠ 0 then some (a L) else none),
       laneTrap .align x.lanes (fun L => if (a L).extractLsb' 0 6 ≠ 0 then some (a L) else none),
       laneTrap .access x.lanes (fun L => if s.recordMapped x (a L) then none else some (a L))]
      (Done.later x (s.startOp x .rel .dev false (.spawn dst todo [])))

def execSpawn (c : Ctl) (f : CFmt) : State → Host.Outcome State Fault Refusal :=
  issue (.spawn c f) c Entry.plain (spawnBody f)

/-- The 32-byte record of TRACE (R142). -/
def State.traceRecord (s : State) (x : Ctx) (f : CFmt) : List Byte :=
  leBytes 8 s.cycle ++ leBytes 7 x.fr.pc.toNat ++ leBytes 1 x.blk.core ++ leBytes 8 x.active.toNat ++
  leBytes 4 (loWord (s.operand x .b32 false f.ops.a 0 x.lead)).toNat ++ leBytes 2 f.ops.imm.toNat ++ leBytes 1 x.sid ++
  leBytes 1 x.blk.quad

def execTrace (c : Ctl) (f : CFmt) : State → Host.Outcome State Fault Refusal :=
  issue (.trace c f) c Entry.plain fun s x =>
    if x.active = 0 then .ok (Done.now x s)
    else .ok (Done.later x (s.startOp x .rlx .dev false (.trace (s.traceRecord x f))))

/-! ### TRAP, BKPT and TRET (R232, R320, R321) -/

/-- The code of TRAP, or the tag of BKPT. -/
def trapCode (f : CFmt) : W32 := f.ops.imm &&& 0xFFFF#32

/-- The active lanes trap with the code; with none the instruction does nothing. -/
def trapBody (cause : Cause) (f : CFmt) (s : State) (x : Ctx) : Except Trap Done :=
  if x.active = 0 then .ok (Done.now x s) else .error (Trap.of cause x.active 0 (trapCode f))

def execTrap (c : Ctl) (f : CFmt) : State → Host.Outcome State Fault Refusal :=
  issue (.trap c f) c Entry.plain (trapBody .trap f)

def execBkpt (c : Ctl) (f : CFmt) : State → Host.Outcome State Fault Refusal :=
  issue (.bkpt c f) c Entry.plain (trapBody .bkpt f)

/-- A resume PC that TRET may take (R321). -/
def resumeBad (pc : W64) : Bool := unaligned pc || pc.extractLsb' 56 8 != 0

/-- TRET outside a handler, or in the cooperative-save handler (R232, R324). -/
def tretIllegal (x : Ctx) : Bool :=
  x.blk.inCoop || x.lanes.any fun L => (x.st.lane L).traprec == 0

def tretBody (s : State) (x : Ctx) : Except Trap Done :=
  let pc := fun L => s.trapReturn x.blk x.sid L
  if tretIllegal x then .error (Trap.illegalWord x.active x.word)
  else
    orTraps [laneTrap .align x.lanes fun L => if resumeBad (pc L) then some (pc L) else none]
      (Done.jump x (s.updLanes x x.active fun _ l => { l with traprec := 0 }) pc)

def execTret (c : Ctl) (f : CFmt) : State → Host.Outcome State Fault Refusal :=
  issue (.tret c f) c Entry.plain tretBody

end Machine
end Sys2Proof
end

