-- ==== Sys2Proof/Machine/Perform.lean ====
section
/-!
DEFINITION. How accesses in flight are performed (R175, R186, R237 to R241, R276, R277): when a lane's access may come, and
the steps LOAD_DATA_RETURN, STORE_PERFORMED and ATOMIC_HOME_STEP, each for the lowest lane that is left (log 17, DESIGN CHOICE).
-/
namespace Sys2Proof
open Machine

namespace Machine

/-! ### What is left of an operation -/

def LaneAcc.overlaps (a b : LaneAcc) : Bool := a.pieces.any fun p => b.pieces.any fun q => p.1.overlaps p.2 q.1 q.2

/-- The home at which ORD keeps order: a slice, or a core's scratchpad (R190). -/
def homeKey (l : Loc) : Nat :=
  match l with
  | .phys pa => sliceOf pa
  | .spad c _ => 2 ^ 20 + c

def LaneAcc.home (a : LaneAcc) : Nat := match a.pieces with
  | p :: _ => homeKey p.1
  | [] => 0

/-! ### When a lane's access may be performed -/

/-- The lanes' L1 stores whose ownership has not been granted (R240). -/
def State.ownershipPending (s : State) (b : Block) : Bool :=
  s.mem.l1.any fun l => !l.owned && l.hasDirty && s.l1Quad b (l.line * lineBytes) == l.quad

/-- A store whose last access is on the core's path to the home of another die: performed at .blk (R238). -/
def Op.sentAway (o : Op) (core : Nat) : Bool :=
  match o.kind with
  | .store _ [a] => o.stage != .waiting && a.locs.all fun l => match l with
    | .phys pa => isHbm pa && homeDie pa != dieOfCore core
    | .spad _ _ => false
  | _ => false

/-- Everything earlier of the lanes has been performed at a scope (R238, R239): at .thr once it has issued. -/
def State.earlierDone (s : State) (b : Block) (sid before : Nat) (m : Lanes) (scope : Scope) : Bool :=
  scope == .thr ||
  ((b.flight.all fun o => !(o.strand == sid && decide (o.id < before) && o.leaves m) || (scope == .blk && o.sentAway b.core)) &&
  (b.engMoves sid before m).isEmpty && !b.slotPending sid before m (fun _ => true) &&
  (!scope.beyondBlock || !s.ownershipPending b))

/-- A place that waits: a bank in handover (R274); for a write, a line locked by a tile update (R288). -/
def State.locWaits (s : State) (write : Bool) : Loc → Bool
  | .phys pa => write && s.mem.locked (lineOf pa)
  | .spad c ad => (s.core c).zeroing.contains (ad / 32768)

def State.placeWaits (s : State) (write : Bool) (a : LaneAcc) : Bool := a.locs.any (s.locWaits write)

/-- The physical address at which an operation's next access meets its home. -/
def Op.nextPa (o : Op) : Option Nat :=
  match o.kind.todo with
  | a :: _ => a.pieces.findSome? fun p => match p.1 with
    | .phys pa => some pa
    | .spad _ _ => none
  | [] => none

/-- The orders of R239, R190 and R246, for one access against what its lanes issued before it; and the path that it shares with
its core's earlier stores (R241). -/
def State.inOrder (s : State) (b : Block) (o : Op) (a : LaneAcc) : Bool :=
  s.clear b o.strand o.id a.group (fun l n => a.pieces.any fun q => q.1.overlaps q.2 l n) &&
  (b.flight.all fun p => !(p.strand == o.strand && decide (p.id < o.id) && p.leaves a.group && o.ord && p.ord &&
    p.kind.todo.any fun q => q.group &&& a.group != 0 && q.home == a.home)) &&
  !a.locs.any (fun l => match l with
    | .phys pa => s.pathBusy b.core o.id pa
    | .spad _ _ => false) &&
  (!o.order.releases || s.earlierDone b o.strand o.id a.group o.scope)

/-- The words of a run of bytes are valid in the L1s that serve them (R277, R279). -/
def State.l1Has (s : State) (b : Block) (pa n : Nat) : Bool :=
  (List.range n).all fun i => s.mem.l1Valid (s.l1Quad b (pa + i)) (pa + i)

/-- An element over two lines of another die: copies of the two could be of different ages, so that it is read whole from its home
(R241, R249). -/
def splitAbroad (core pa n : Nat) : Bool :=
  isHbm pa && homeDie pa != dieOfCore core && lineOf pa != lineOf (pa + n - 1)

/-- Whether the access has to reach its home over the fabric (R336): not scratchpad, not a hit in the L1, not a store that
the L1 takes and need not complete. -/
def State.needsHome (s : State) (b : Block) (o : Op) (a : LaneAcc) : Bool :=
  a.pieces.any fun p => match p.1 with
    | .spad _ _ => false
    | .phys pa => match o.kind with
      | .load .. => !s.l1Has b pa p.2 || splitAbroad b.core pa p.2
      | .store fwd _ => fwd || !s.mem.l1Store (s.l1Quad b pa) pa p.2 || (partWords pa p.2).any fun q => !s.l1Has b q 1
      | _ => true

/-- The slice holds the host lines of an access (R238, R242, R353). -/
def State.hostReady (s : State) (o : Op) (a : LaneAcc) : Bool :=
  a.pieces.all fun p => match p.1 with
    | .spad _ _ => true
    | .phys pa => s.hostHas o.kind.isWrite pa

/-- What an operation that makes its lanes' accesses in one step asks of the fabric: every line of it, or the next word of a
SITECLR (R126, R179, R233, R336; log 55, DEDUCED). -/
def Op.asks (o : Op) : List Ask :=
  match o.kind with
  | .pref _ (some pa) => [Ask.of o.id false false pa]
  | .codeinv lines => lines.map fun line => Ask.of o.id false false (line * lineBytes)
  | .siteclr _ ((pa, _) :: _) => [Ask.of o.id false true pa]
  | .ctxst bytes => asksFor o.id false true (bytes.map (·.1))
  | .ctxld _ _ locs => asksFor o.id false false (locs.map (·.1))
  | _ => []

/-- What is left of an operation's accesses behind the one that is under way. -/
def Op.unsent (o : Op) : List LaneAcc :=
  match o.stage with
  | .waiting => o.kind.todo
  | _ => o.kind.todo.drop 1

/-- An earlier access of the tenant on the core has still to take the path to a slice (R241). -/
def State.pathTaken (s : State) (b : Block) (before slice : Nat) : Bool :=
  s.blocks.any fun c => c.core == b.core && c.ten == b.ten && c.flight.any fun p =>
    decide (p.id < before) && ((p.unsent.any fun a => s.needsHome c p a && a.pieces.any fun q => match q.1 with
      | .phys pa => sliceOf pa == slice
      | .spad _ _ => false) || p.asks.any fun a => sliceOf a.pa == slice && !c.asked a)

/-- The homes answer what an operation asks, behind what took the path before it. -/
def State.answers (s : State) (b : Block) (o : Op) : Bool :=
  o.asks.all fun a => s.reached b a && (b.asked a || !s.pathTaken b o.id (sliceOf a.pa))

/-- An access at its home may come: the request has been accepted, the reply or the acknowledgement rides a service slot and is not
being sent again (R242, R332, R336). -/
def State.homeReady (s : State) (b : Block) (o : Op) (a : LaneAcc) : Bool :=
  o.stage.isAccepted && s.hostReady o a && s.slotAllows .service && !o.isReplaying s b.uid

/-- A store that the L1 takes puts out a line with dirty words, whose write-back rides a service slot (R276, R336). -/
def State.putsOutAt (s : State) (b : Block) (l : Loc) : Bool :=
  match l with
  | .phys pa =>
    let q := s.l1Quad b pa
    s.mem.l1Store q pa 4 && (s.mem.l1Line q (lineOf pa)).isNone && (match s.mem.l1Victim q (lineOf pa) with
      | some v => v.hasDirty
      | none => false)
  | .spad _ _ => false

def State.putsOut (s : State) (b : Block) (o : Op) (a : LaneAcc) : Bool := o.kind.isWrite && a.locs.any (s.putsOutAt b)

/-- The requests of an operation's results that go to frame slots, once they are to be written (R209, R336). -/
def State.resultAsks (s : State) (b : Block) (o : Op) : List Ask :=
  match o.kind.todo with
  | _ :: _ :: _ => []
  | _ => s.slotAsks b true (o.pending.filterMap fun t => match t with
    | .slot _ loc => some loc
    | _ => none)

/-- The next access of an operation, when it may be performed. -/
def State.nextAcc (s : State) (b : Block) (o : Op) : Option LaneAcc :=
  match o.kind.todo with
  | [] => none
  | a :: _ =>
    if (!s.needsHome b o a || s.homeReady b o a) && s.inOrder b o a && !s.placeWaits o.kind.isWrite a &&
        (s.slotAllows .service || !s.putsOut b o a) && (s.resultAsks b o).all (s.reached b) then some a
    else none

/-! ### Reading and writing one access -/

/-- An acquire beyond the block first drops the copies of other dies' lines (R239, R241). -/
def State.acquireFor (s : State) (b : Block) (order : Order) (scope : Scope) : State :=
  if order.acquires && scope.beyondBlock then s.setMem (s.mem.acquire b.core) else s

/-- The two lines of an element that is read whole from another die leave the core's copies first (R249). -/
def State.freshLines (s : State) (b : Block) (pa n : Nat) : State :=
  if splitAbroad b.core pa n then
    s.setMem ([pa, pa + n - 1].foldl (fun m q => m.dropRemote (s.l1Quad b q) (lineOf q)) s.mem)
  else s

/-- Before a load is judged: the home recalls what owners hold of the lines that do not serve it, with the errors found there
(R240, R278). -/
def State.recallFor (s : State) (b : Block) (a : LaneAcc) : State :=
  a.locs.foldl (fun s l => match l with
    | .phys pa =>
      if isHbm pa && s.mem.meetsHome (s.via b) pa && (s.mem.l1.any fun x => x.line == lineOf pa && x.owned) then
        s.setMem (s.mem.recallLine (lineOf pa))
      else s
    | .spad _ _ => s) (a.pieces.foldl (fun s p => match p.1 with
      | .phys pa => s.freshLines b pa p.2
      | .spad _ _ => s) s)

/-- A load brings the lines that do not serve it into their L1s (R277). -/
def State.fillFor (s : State) (b : Block) (a : LaneAcc) : State :=
  a.pieces.foldl (fun s p => match p.1 with
    | .phys pa =>
      [pa, pa + p.2 - 1].foldl (fun s q =>
        let mine := (List.range p.2).all fun i => lineOf (pa + i) != lineOf q || s.l1Has b (pa + i) 1
        if mine then s else s.setMem (s.mem.fill (s.l1Quad b q) (lineOf q))) s
    | .spad _ _ => s) s

/-- The bytes of an access as a load of the block binds them. -/
def State.readAcc (s : State) (b : Block) (a : LaneAcc) : List Byte :=
  a.pieces.flatMap fun p => (p.1.span p.2).map fun l => match l with
    | .phys pa => s.mem.readLoc (s.l1Quad b pa) l
    | l => s.mem.readLoc 0 l

/-- A line that an access touches. -/
def LaneAcc.touches (a : LaneAcc) (line : Nat) : Bool := a.pieces.any fun p => match p.1 with
  | .phys pa => lineOf pa == line || lineOf (pa + p.2 - 1) == line
  | .spad _ _ => false

/-- A load by the consumer that a forwarded line names invalidates the line at its slice, once the last of its lanes that
read the line has its value (R177, R256, R282) (log 19, DEDUCED). -/
def State.consumeFor (s : State) (b : Block) (a : LaneAcc) (rest : List LaneAcc) : State :=
  a.pieces.foldl (fun s p => match p.1 with
    | .phys pa => match s.mem.fwd.find (lineOf pa) with
      | some t =>
        if t.ten = b.ten ∧ t.blk = b.idx ∧ !rest.any (fun r => r.touches (lineOf pa)) then
          s.setMem (s.mem.consume (lineOf pa))
        else s
      | none => s
    | .spad _ _ => s) s

/-- Ownership of stored lines granted at once: a store that is itself a release at .clu or wider (R238, R239). -/
def State.ownNow (s : State) (b : Block) (pas : List Nat) : State :=
  s.setMem ((pas.map fun pa => (s.l1Quad b pa, lineOf pa)).eraseDups.foldl (fun m ql => m.grant ql.1 ql.2) s.mem)

/-- The physical bytes of a list of places. -/
def physBytes (l : List (Loc × Byte)) : List (Nat × Byte) :=
  l.filterMap fun lb => match lb.1 with
    | .phys pa => some (pa, lb.2)
    | .spad _ _ => none

/-- A quadrant's access at the home: its die's copies of another die's line go, and every L1's words come home (R240, R241). -/
def MemSys.bringHome (m : MemSys) (quad line : Nat) : MemSys :=
  if isHbm (line * lineBytes) then (m.dropRemote quad line).takeLine line else m

/-- The nibble of an INT4 store put into its byte at the home (R171). -/
def nibbleInto (old : Byte) (elem : Nat) (n : Byte) : Byte :=
  if elem = 0 then (old &&& 0xF0) ||| (n &&& 0x0F) else (old &&& 0x0F) ||| ((n &&& 0x0F) <<< 4)

/-- A store performed: whole words into the L1, the rest at the home; a forwarded store at its slice (R276, R282). -/
def State.writeAcc (s : State) (b : Block) (fwd : Bool) (a : LaneAcc) : State :=
  let atHome := fun (m : MemSys) (bytes : List (Nat × Byte)) =>
    if fwd then m.fwdWrite { ten := b.ten, blk := a.b.toNat % 2 ^ 32 } bytes else m.homeWrite bytes
  if a.fmt = .int4 then
    a.locs.foldl (fun s l => match l with
      | .phys pa =>
        let m := s.mem.bringHome (s.l1Quad b pa) (lineOf pa)
        s.setMem (atHome m [(pa, nibbleInto (m.homeRead l) a.elem (a.data.getD 0 0))])
      | .spad _ _ => s) s
  else
    let bytes := a.locs.zip a.data
    if fwd then
      let ph := physBytes bytes
      s.setMem (atHome (ph.foldl (fun m kv => m.bringHome (s.l1Quad b kv.1) (lineOf kv.1)) s.mem) ph)
    else s.storeLocs b bytes

/-- The bits of an update, and the predicate, at the home (R186, R284). -/
def State.atomAcc (s : State) (b : Block) (sub : BitVec 4) (t : Ty) (a : LaneAcc) : State × W64 × Bool :=
  let s := a.pieces.foldl (fun s p => match p.1 with
    | .phys pa => s.setMem (s.mem.bringHome (s.l1Quad b pa) (lineOf pa))
    | .spad _ _ => s) s
  let old := leNum (a.locs.map fun l => s.mem.homeRead l)
  let r := atomOp sub.toNat t old a.b.toNat a.c.toNat
  let s := if r.write then s.setMem (s.mem.homePut (a.locs.zip (leBytes a.locs.length r.new))) else s
  (s, BitVec.ofNat 64 old, r.applied)

/-! ### Completion -/

/-- A trap left pending on the fragments that hold the lanes (R83): the engine's (`now`), the copy engine's. -/
def Strand.pendTrap (st : Strand) (m : Lanes) (t : Lanes → Trap) (pc : W64) (now : Bool) : Strand :=
  { st with frags := st.frags.map fun f =>
      if f.lanes &&& m != 0 then { f with pend := f.pend ++ [{ trap := t (f.lanes &&& m), pc := pc, engine := true, now := now }] }
      else f }

/-- An uncorrectable error that an access of lanes met after its issue: the trap's record is that of a precise one (R178; log 18,
DEDUCED). -/
def Strand.pendEcc (st : Strand) (m : Lanes) (a pc : W64) : Strand :=
  { st with frags := st.frags.map fun f =>
      if f.lanes &&& m != 0 then
        { f with pend := f.pend ++
            [{ trap := Trap.of .ecc (f.lanes &&& m) a 0xFFFFFFFF#32, pc := pc, engine := false, now := false }] }
      else f }

/-- An operation ends with its results written (R36, R81). -/
def State.finishOp (s : State) (b : Block) (o : Op) : State := (s.writeResult b o.strand o.id o.writes).completeOp b.uid o

/-- An operation that met an uncorrectable error ends with a trap pending and nothing written (R178; log 18, DEDUCED). -/
def State.failOp (s : State) (b : Block) (o : Op) (a : LaneAcc) : State :=
  (s.completeOp b.uid o).updStrand b.uid o.strand fun st => st.pendEcc a.group a.addr o.pc

/-- The operation goes on to its next lane, or ends. -/
def State.advance (s : State) (b : Block) (o : Op) (k : OpKind) : State :=
  let o := { o with kind := k, stage := .waiting }
  if k.todo.isEmpty then s.finishOp b o else s.updBlock b.uid fun x => x.putOp o

/-- The operation of a number in a block, whatever its tile. -/
def State.opIn (s : State) (uid id : Nat) : Option (Block × Op) := (s.block uid).bind fun b => (b.op id).map fun o => (b, o)

/-- The operation of a number, in its block as it stands; a closed gate lets none go on (R343, R348). -/
def State.opOf (s : State) (uid id : Nat) : Option (Block × Op) :=
  match s.block uid with
  | some b => if (s.core b.core).tile.inPlay then (b.op id).map fun o => (b, o) else none
  | none => none

/-- The value of a load's next lane is bound, or of every lane of one request (LOAD_DATA_RETURN; R176). -/
def State.loadStep (s : State) (b : Block) (o : Op) : State :=
  match o.kind with
  | .load dst zx (a :: rest) done =>
    if s.nextAcc b o ≠ some a then s
    else
      let s := ((s.acquireFor b o.order o.scope).recallFor b a).scanLoad b a.locs
      if s.loadBad b a.locs then s.failOp b o a
      else
        let s := s.fillFor b a
        let bits := leNum (s.readAcc b a)
        let vs := (lanesOf a.group).map fun L =>
          (L, BitVec.ofNat 64 (a.fmt.loadBits zx (if L = a.lane then a.elem else elemOf a.fmt L) bits))
        (s.consumeFor b a rest).advance b o (.load dst zx rest (done ++ vs))
  | _ => s

/-- The bytes of a store's next lane, or group of lanes, are written (STORE_PERFORMED). -/
def State.storeStep (s : State) (b : Block) (o : Op) : State :=
  match o.kind with
  | .store fwd (a :: rest) =>
    if s.nextAcc b o ≠ some a then s
    else
      let pas := a.locs.filterMap fun l => match l with
        | .phys pa => some pa
        | .spad _ _ => none
      let s := s.writeAcc b fwd a
      let s := if o.order.releases && o.scope.beyondBlock then s.ownNow b pas else s
      let s := if o.order = .sc then s.acquireFor b o.order o.scope else s
      s.advance b o (.store fwd rest)
  | _ => s

/-- An atomic's next lane has its update, one indivisible step at the home. -/
def State.atomicStep (s : State) (b : Block) (o : Op) : State :=
  match o.kind with
  | .atomic sub t dst (a :: rest) done =>
    if s.nextAcc b o ≠ some a then s
    else
      let s := (s.acquireFor b o.order o.scope).scanHome a.locs
      if s.mem.anyPoison a.locs then s.failOp b o a
      else
        let r := s.atomAcc b sub t a
        r.1.advance b o (.atomic sub t dst rest (done ++ [(a.lane, r.2.1, r.2.2)]))
  | _ => s

/-- ATOMIC_HOME_STEP. -/
def execAtomicHomeStep (uid id : Nat) (s : State) : Host.Outcome State Fault Refusal :=
  match s.opOf uid id with
  | none => .next s
  | some (b, o) => .next (s.atomicStep b o)

end Machine
end Sys2Proof
end

