-- ==== Sys2Proof/Machine/Sync.lean ====
section
/-!
DEFINITION. Synchronisation (R191 to R197): barrier objects, stage rings, CVSET, fences; and the steps at which updates are
done and waits released.
-/
namespace Sys2Proof
open Machine

/-! ### Barrier objects (R191, R193) -/

structure BarObj where
  phase : Nat
  curb : Nat
  expb : Nat
  cura : Nat
  expa : Nat
deriving DecidableEq, Repr

/-- A barrier object as BARINIT leaves it. -/
def BarObj.init (n : Nat) : BarObj := { phase := 0, curb := 0, expb := 0, cura := 0, expa := n % 65536 }

def BarObj.ofNat (v : Nat) : BarObj :=
  { phase := v / 2 ^ 96 % 2 ^ 32, curb := v / 2 ^ 64 % 2 ^ 32, expb := v / 2 ^ 32 % 2 ^ 32, cura := v / 65536 % 65536,
    expa := v % 65536 }

def BarObj.toNat (b : BarObj) : Nat :=
  b.phase * 2 ^ 96 + b.curb * 2 ^ 64 + b.expb * 2 ^ 32 + b.cura * 65536 + b.expa

/-- A phase completes when arrivals and bytes meet their expectations; what is beyond carries over (R193). -/
def BarObj.settle (b : BarObj) : BarObj :=
  if b.expa ≤ b.cura ∧ b.expb ≤ b.curb then
    { b with cura := b.cura - b.expa, curb := b.curb - b.expb, expb := 0, phase := (b.phase + 1) % 2 ^ 32 }
  else b

def BarObj.expect (b : BarObj) (bytes : Nat) : BarObj := { b with expb := (b.expb + bytes) % 2 ^ 32 }
def BarObj.arrive (b : BarObj) (n : Nat) : BarObj := { b with cura := (b.cura + n) % 65536 }
def BarObj.credit (b : BarObj) (k : Nat) : BarObj := ({ b with curb := (b.curb + k) % 2 ^ 32 } : BarObj).settle

/-- Done(ph) (R194). -/
def BarObj.done (b : BarObj) (ph : Nat) : Bool :=
  let d := (b.phase + 2 ^ 32 - ph % 2 ^ 32) % 2 ^ 32
  decide (1 ≤ d) && decide (d ≤ 2 ^ 31)

/-- What an update makes of an object; a ring's initialisation makes it of every slot. -/
def BarObj.apply (b : BarObj) : BarOp → BarObj
  | .init n => BarObj.init n
  | .expect bytes => (b.expect bytes).settle
  | .arrive n => (b.arrive n).settle
  | .ringInit n _ => BarObj.init n
  | .ringArrive bytes n => ((b.expect bytes).arrive n).settle

namespace Machine

def State.barAt (s : State) (l : Loc) : BarObj := BarObj.ofNat (leNum ((l.span 16).map s.mem.homeRead))

def State.putBar (s : State) (l : Loc) (b : BarObj) : State :=
  s.setMem (s.mem.homePut ((l.span 16).zip (leBytes 16 b.toNat)))

/-- Bytes credited to a barrier by an engine (R184, R193). -/
def State.creditBar (s : State) (l : Loc) (k : Nat) : State := s.putBar l ((s.barAt l).credit k)

/-! ### Addresses (R192) -/

/-- The scope of a barrier or ring (R193, R236). -/
def barScope (a : W64) : Scope := if tagOf a = 3 then .clu else .blk

/-- The faults of a barrier or ring of `n` bytes, for the lowest active lane: the operand is must-be-uniform. -/
def State.barTraps (s : State) (x : Ctx) (a : W64) (n : Nat) : List (Option Trap) :=
  let t := fun (c : Cause) => Trap.of c (oneLane x.lead) a 0
  [if tagOf a = 2 ∨ tagOf a = 3 then none else some (t .access),
   if (s.scratchLocs x.blk a n).isSome then none else some (t .access),
   if a.extractLsb' 0 4 ≠ 0 then some (t .align) else none]

/-- The place of the object at an address that has passed its checks. -/
def State.barLoc (s : State) (x : Ctx) (a : W64) : Loc :=
  match s.scratchLocs x.blk a 16 with
  | some (l :: _) => l
  | _ => .spad 0 0

/-- Must-be-uniform operands: the object's address, and an index or phase (R52). -/
def addrUniform (a : Operand) : Entry := Entry.same fun s x => [fun L => s.op64 x a L]
def addrIndexUniform (a b : Operand) (imm : W32) : Entry :=
  Entry.same fun s x => [fun L => s.op64 x a L, fun L => (BitVec.ofNat 64 (s.op32 x b imm L))]

/-! ### Updates (R193, R195) -/

/-- An object that cannot be read for an uncorrectable error traps ECC (R275). -/
def State.barEcc (s : State) (x : Ctx) (a : W64) : Option Trap :=
  if s.mem.anyPoison ((s.barLoc x a).span 16) then some (Trap.of .ecc x.active a 0xFFFFFFFF#32) else none

/-- What an instruction reads of its object is searched for soft errors. -/
def barScan (a : Operand) (s : State) (x : Ctx) : State :=
  if x.active = 0 then s else s.scanHome ((s.barLoc x (s.op64 x a x.lead)).span 16)

/-- An update that reads its object: all but an initialisation. -/
def BarOp.reads : BarOp → Bool
  | .init _ => false
  | .ringInit _ _ => false
  | _ => true

/-- A barrier update as an operation in flight. -/
def barBody (f : SFmt) (order : Order) (u : State → Ctx → BarOp) (s : State) (x : Ctx) : Except Trap Done :=
  if x.active = 0 then .ok (Done.now x s)
  else
    let a := s.op64 x f.ops.a x.lead
    let ts := s.barTraps x a 16 ++ (if (u s x).reads then [s.barEcc x a] else [])
    match ts.findSome? id with
    | some t => .error t
    | none => .ok (Done.later x (s.startOp x order (barScope a) false (.bar (u s x) a (s.barLoc x a))))

def execBarinit (c : Ctl) (f : SFmt) : State → Host.Outcome State Fault Refusal :=
  issue (.barinit c f) c (addrUniform f.ops.a)
    (barBody f .rlx fun s x => .init (s.op32 x f.ops.b f.ops.imm x.lead % 65536))

def execBarexpect (c : Ctl) (f : SFmt) : State → Host.Outcome State Fault Refusal :=
  issue (.barexpect c f) c ((addrUniform f.ops.a).scans (barScan f.ops.a))
    (barBody f .rlx fun s x => .expect (s.op32 x f.ops.b f.ops.imm x.lead))

/-- Arrivals of an issue: one per active lane, or one (R193). -/
def arrivals (f : SFmt) (x : Ctx) : Nat := if f.sub == 1 then 1 else countLanes x.active

/-- An arrival releases the earlier accesses of the arriving lanes (R193). -/
def execBararrive (c : Ctl) (f : SFmt) : State → Host.Outcome State Fault Refusal :=
  issue (.bararrive c f) c ((addrUniform f.ops.a).scans (barScan f.ops.a)) (barBody f .rel fun _ x => .arrive (arrivals f x))

/-- A fragment stays at a waiting instruction. -/
def Done.wait (x : Ctx) (s : State) (h : Hold) : Done :=
  { st := s, pcOf := fun _ => x.fr.pc, gone := 0, nap := none, hold := h, counts := true }

def execBarwait (c : Ctl) (f : SFmt) : State → Host.Outcome State Fault Refusal :=
  issue (.barwait c f) c ((addrIndexUniform f.ops.a f.ops.b f.ops.imm).scans (barScan f.ops.a)) fun s x =>
    if x.active = 0 then .ok (Done.now x s)
    else
      let a := s.op64 x f.ops.a x.lead
      let ts := s.barTraps x a 16 ++ [s.barEcc x a]
      match ts.findSome? id with
      | some t => .error t
      | none => .ok (Done.wait x s (.barwait a (BitVec.ofNat 32 (s.op32 x f.ops.b f.ops.imm x.lead)) c.sett))

/-- BARTRY acquires when it answers 1: the lanes' later accesses wait for the answer (R194, R243). -/
def execBartry (c : Ctl) (f : SFmt) : State → Host.Outcome State Fault Refusal :=
  issue (.bartry c f) c ((addrIndexUniform f.ops.a f.ops.b f.ops.imm).scans (barScan f.ops.a)) fun s x =>
    if x.active = 0 then .ok (Done.now x s)
    else
      let a := s.op64 x f.ops.a x.lead
      let ts := s.barTraps x a 16 ++ [s.barEcc x a]
      match ts.findSome? id with
      | some t => .error t
      | none =>
        .ok (Done.later x (s.startOp x .acq (barScope a) false
          (.bartry (x.lanes.flatMap fun L => predPlace f.ops.d L) (BitVec.ofNat 32 (s.op32 x f.ops.b f.ops.imm x.lead))
            a (s.barLoc x a))))

/-! ### Stage rings (R195) -/

/-- N in a ring's header. -/
def State.ringSlots (s : State) (x : Ctx) (a : W64) : Nat :=
  leNum (((s.barLoc x a).span 4).map s.mem.homeRead)

/-- The faults of a ring of N slots: the whole ring lies in bounds and N is 1 to 64, before its alignment; the spec gives no
order between the two (log 63, DESIGN CHOICE). -/
def State.ringTraps (s : State) (x : Ctx) (a : W64) (n : Nat) : List (Option Trap) :=
  let t := fun (c : Cause) => Trap.of c (oneLane x.lead) a 0
  [if tagOf a = 2 ∨ tagOf a = 3 then none else some (t .access),
   if 1 ≤ n ∧ n ≤ 64 ∧ (s.scratchLocs x.blk a (16 + 16 * n)).isSome then none else some (t .access),
   if a.extractLsb' 0 4 ≠ 0 then some (t .align) else none]

/-- The faults of a ring whose header names N: the header lies in bounds and can be read first. -/
def State.headerTraps (s : State) (x : Ctx) (a : W64) : List (Option Trap) :=
  match s.scratchLocs x.blk a 16 with
  | none => [some (Trap.of .access (oneLane x.lead) a 0)]
  | some _ => s.barEcc x a :: s.ringTraps x a (s.ringSlots x a)

/-- The slot's address and phase bit of a running index. -/
def ringSlot (a : W64) (n i : Nat) : W64 := a + BitVec.ofNat 64 (16 + 16 * (i % n))
def ringPhase (n i : Nat) : Bool := i / n % 2 == 1

/-- The places of a ring's N slots (R195): each 16 bytes in a bank of its own (R273). -/
def State.ringPlaces (s : State) (x : Ctx) (a : W64) (n : Nat) : List Loc :=
  (List.range n).map fun i => s.barLoc x (ringSlot a n i)

/-- What STGWAIT and STGARRIVE read of their ring is searched for soft errors: the header, then the slot. -/
def ringScan (f : SFmt) (s : State) (x : Ctx) : State :=
  if x.active = 0 then s
  else
    let a := s.op64 x f.ops.a x.lead
    let s := s.scanHome ((s.barLoc x a).span 16)
    s.scanHome ((s.barLoc x (ringSlot a (s.ringSlots x a) (s.op32 x f.ops.b f.ops.imm x.lead))).span 16)

def execStginit (c : Ctl) (f : SFmt) : State → Host.Outcome State Fault Refusal :=
  issue (.stginit c f) c (addrUniform f.ops.a) fun s x =>
    if x.active = 0 then .ok (Done.now x s)
    else
      let a := s.op64 x f.ops.a x.lead
      let slots := s.op32 x f.ops.b f.ops.imm x.lead
      let n := s.op32 x f.ops.c f.ops.imm x.lead % 65536
      let ts := s.ringTraps x a slots
      match ts.findSome? id with
      | some t => .error t
      | none => .ok (Done.later x (s.startOp x .rlx (barScope a) false (.bar (.ringInit n (s.ringPlaces x a slots)) a (s.barLoc x a))))

def execStgwait (c : Ctl) (f : SFmt) : State → Host.Outcome State Fault Refusal :=
  issue (.stgwait c f) c ((addrIndexUniform f.ops.a f.ops.b f.ops.imm).scans (ringScan f)) fun s x =>
    if x.active = 0 then .ok (Done.now x s)
    else
      let a := s.op64 x f.ops.a x.lead
      let i := s.op32 x f.ops.b f.ops.imm x.lead
      let n := s.ringSlots x a
      let ts := s.headerTraps x a ++ [s.barEcc x (ringSlot a n i)]
      match ts.findSome? id with
      | some t => .error t
      | none => .ok (Done.wait x s (.stgwait (ringSlot a n i) (ringPhase n i) (f.sub == 1) c.sett))

def execStgarrive (c : Ctl) (f : SFmt) : State → Host.Outcome State Fault Refusal :=
  issue (.stgarrive c f) c ((addrIndexUniform f.ops.a f.ops.b f.ops.imm).scans (ringScan f)) fun s x =>
    if x.active = 0 then .ok (Done.now x s)
    else
      let a := s.op64 x f.ops.a x.lead
      let slot := ringSlot a (s.ringSlots x a) (s.op32 x f.ops.b f.ops.imm x.lead)
      let bytes := if f.ops.c.unused then 0 else s.op32 x f.ops.c f.ops.imm x.lead
      let ts := s.headerTraps x a ++ [s.barEcc x slot]
      match ts.findSome? id with
      | some t => .error t
      | none =>
        .ok (Done.later x (s.startOp x .rel (barScope a) false (.bar (.ringArrive bytes (arrivals f x)) slot (s.barLoc x slot))))

/-! ### CVSET (R196) -/

/-- The threads that CVSET declares: live threads of the strands and lanes of the masks, or every live thread. -/
def State.cvsetThreads (s : State) (x : Ctx) (f : SFmt) : BitVec 1024 :=
  if f.sub == 1 then x.blk.liveThreads
  else
    let lanes := s.op64 x f.ops.a x.lead
    let strands := s.op32 x f.ops.b f.ops.imm x.lead
    (List.range (min 16 x.blk.strands.length)).foldl (fun acc sid =>
      if strands / 2 ^ sid % 2 = 1 then acc ||| threadSet x.blk sid (lanes &&& (x.blk.strand sid).live) else acc) 0

def execCvset (c : Ctl) (f : SFmt) : State → Host.Outcome State Fault Refusal :=
  issue (.cvset c f) c Entry.plain fun s x =>
    if x.active = 0 then .ok (Done.now x s)
    else
      let n := f.ops.d.num
      let decl := s.cvsetThreads x f
      .ok (Done.now x ((s.updBlock x.blk.uid fun b => b.setCv n { b.cv n with decl := decl }).errsGone
        (· == .conv x.blk.uid n)))

/-! ### Fences (R197) -/

def Scope.ofCode (n : Nat) : Scope :=
  match n with
  | 0 => .thr
  | 1 => .blk
  | 2 => .clu
  | 3 => .dev
  | _ => .sys

/-- A fence: the fragment's next instruction waits for the lanes' earlier accesses (log 26, DEDUCED). -/
def fenceBody (scope : Scope) (s : State) (x : Ctx) : Except Trap Done :=
  if x.active = 0 then .ok (Done.now x s)
  else
    let w : FenceWait :=
      { lanes := x.fr.lanes, active := x.active, before := s.nextId, scope := scope, tok := x.ctl.sett }
    .ok { Done.later x s with hold := .fence [w] }

def execFence (c : Ctl) (f : SFmt) : State → Host.Outcome State Fault Refusal :=
  issue (.fence c f) c Entry.plain (fenceBody (Scope.ofCode f.sd.toNat))

/-! ### Updates done, waits released -/

/-- The fragment that a reference names. -/
def State.fragAt (s : State) (r : FragRef) : Option (Block × Frag) :=
  match s.block r.blk with
  | some b => ((b.strand r.strand).fragOf r.lane).map fun f => (b, f)
  | none => none

/-- An update waits for its lanes' earlier accesses to the object; an arrival for all of them, at its scope (R193, R246). -/
def State.barReady (s : State) (b : Block) (o : Op) : Bool :=
  let ws := o.kind.objects
  !ws.isEmpty && s.clear b o.strand o.id o.active (fun l n => ws.any fun w => w.overlaps 16 l n) &&
  (!o.order.releases || s.earlierDone b o.strand o.id o.active o.scope) &&
  ws.all fun w => match w with
    | .spad c a => !(s.core c).zeroing.contains (a / 32768)
    | .phys _ => true

/-- The bytes that an update reads; an initialisation writes whole units. -/
def barReads (l : Loc) (u : BarOp) : List Loc := if u.reads then l.span 16 else []

/-- One indivisible step at the bank (R193, R195). -/
def State.applyBar (s : State) (l : Loc) (u : BarOp) : State :=
  match u with
  | .ringInit n slots =>
    let s := s.setMem (s.mem.homePut ((l.span 16).zip (leBytes 16 slots.length)))
    slots.foldl (fun s w => s.putBar w (BarObj.init n)) s
  | u => s.putBar l ((s.barAt l).apply u)

/-- The update, or a pending ECC and nothing written where an uncorrectable error is found (R275). -/
def State.barStep (s : State) (b : Block) (o : Op) (u : BarOp) (a : W64) (l : Loc) : State :=
  let s := s.scanHome (barReads l u)
  if s.mem.anyPoison (barReads l u) then
    (s.completeOp b.uid o).updStrand b.uid o.strand fun st => st.pendEcc o.active a o.pc
  else (s.applyBar l u).completeOp b.uid o

/-- A wait at a barrier acquires at the barrier's scope (R194). -/
def State.acquireBar (s : State) (b : Block) (scope : Scope) : State :=
  if scope.beyondBlock then s.setMem (s.mem.acquire b.core) else s

/-- BARTRY's answer in every lane that it writes; a 1 acquires (R194). -/
def State.bartryStep (s : State) (b : Block) (o : Op) (dst : Dst) (ph : W32) (a : W64) (l : Loc) : State :=
  let s := s.scanHome (l.span 16)
  if s.mem.anyPoison (l.span 16) then
    (s.completeOp b.uid o).updStrand b.uid o.strand fun st => st.pendEcc o.active a o.pc
  else
    let ok := (s.barAt l).done ph.toNat
    let ws := (dst.map fun d => partOf d.2.1 d.2.2 0 ok).filter fun w => !o.dropped.contains w.tgt
    ((if ok then s.acquireBar b o.scope else s).writeResult b o.strand o.id ws).completeOp b.uid o

/-- BANK_UPDATE_DONE. -/
def execBankUpdateDone (uid id : Nat) (s : State) : Host.Outcome State Fault Refusal :=
  match s.opOf uid id with
  | none => .next s
  | some (b, o) =>
    if !s.barReady b o then .next s
    else
      match o.kind with
      | .bar u a l => .next (s.barStep b o u a l)
      | .bartry dst ph a l => .next (s.bartryStep b o dst ph a l)
      | _ => .next s

/-- A held fragment goes on at a PC, its tokens released. -/
def State.releaseWait (s : State) (b : Block) (sid : Nat) (f : Frag) (pc : W64) : State :=
  s.updStrand b.uid sid fun st => (st.giveUp f).release f pc

/-- A held wait looks at its object: when it may go on it acquires and moves behind its instruction; where the object cannot be
read, the instruction issues again and traps ECC (R194, R195, R275). -/
def State.waitStep (s : State) (b : Block) (sid : Nat) (f : Frag) (a : W64) (l : Loc) (ready : BarObj → Bool) : State :=
  let s := s.scanHome (l.span 16)
  if s.mem.anyPoison (l.span 16) then s.releaseWait b sid f f.pc
  else if ready (s.barAt l) then (s.acquireBar b (barScope a)).releaseWait b sid f (f.pc + 16)
  else s

/-- BARWAIT_RELEASE: the awaited phase has completed (R194). -/
def execBarwaitRelease (r : FragRef) (s : State) : Host.Outcome State Fault Refusal :=
  match s.fragAt r with
  | none => .next s
  | some (b, f) =>
    match f.hold with
    | .barwait a ph _ =>
      match s.scratchLocs b a 16 with
      | some (l :: _) =>
        .next (s.waitStep b r.strand f a l fun o => o.done ph.toNat)
      | _ => .next s
    | _ => .next s

/-- STGWAIT_RELEASE: bit 0 of the slot's PHASE differs from ph, or with `.inv` equals it (R195). -/
def execStgwaitRelease (r : FragRef) (s : State) : Host.Outcome State Fault Refusal :=
  match s.fragAt r with
  | none => .next s
  | some (b, f) =>
    match f.hold with
    | .stgwait a ph inv _ =>
      match s.scratchLocs b a 16 with
      | some (l :: _) =>
        .next (s.waitStep b r.strand f a l fun o => ((o.phase % 2 == 1) != ph) != inv)
      | _ => .next s
    | _ => .next s

/-- The accesses a fence awaits have been performed at its scope (R238). -/
def State.fenceDone (s : State) (b : Block) (sid : Nat) (w : FenceWait) : Bool :=
  w.scope == .thr || s.earlierDone b sid w.before w.active w.scope

/-- FENCE_COMPLETE: the fence acquires, and the fragment may go on (R197). -/
def execFenceComplete (r : FragRef) (s : State) : Host.Outcome State Fault Refusal :=
  match s.fragAt r with
  | none => .next s
  | some (b, f) =>
    match f.hold with
    | .fence ws =>
      if ws.all (s.fenceDone b r.strand) then
        let s := if ws.any (fun w => w.scope.beyondBlock) then s.setMem (s.mem.acquire b.core) else s
        .next (s.releaseWait b r.strand f f.pc)
      else .next s
    | _ => .next s

end Machine
end Sys2Proof
end

