-- ==== Sys2Proof/Machine/Copy.lean ====
section
/-!
DEFINITION. Prefetch and copies (R179 to R184): the checks at issue, and COPY_GRANULE, which moves one granule, element or
block and credits it.
-/
namespace Sys2Proof
open Machine

/-! ### Map descriptors (R180) -/

/-- log2 of the element size in bytes; INT4 and SX elements are counted, not sized. -/
def Fmt.elemBytes (f : Fmt) : Nat := if f.isSx || f == .int4 then 1 else f.bytes

/-- A descriptor from its 32 bytes; `none` where a field is outside its limits (FORMAT). -/
def Machine.Desc.ofBytes (bs : List Byte) : Option Desc :=
  let n := fun (off len : Nat) => leNum ((bs.drop off).take len)
  match Fmt.ofCode (BitVec.ofNat 5 (n 0x18 1)) with
  | none => none
  | some f =>
    let flags := n 0x19 1
    let limit := fun (v : Nat) => decide (1 ≤ v) && decide (v ≤ 0x7FFFFFFF)
    if n 0x18 1 < 32 ∧ limit (n 8 4) ∧ limit (n 12 4) ∧ n 0x10 4 % f.elemBytes = 0 ∧ n 0x14 4 % 16 = 0 ∧ flags < 8 ∧
        n 0x1A 6 = 0 then
      some { base := BitVec.ofNat 64 (n 0 8), rows := n 8 4, cols := n 12 4, pitch := n 0x10 4, spitch := n 0x14 4,
             dfmt := f, trans := flags % 2 == 1, swz := flags / 2 % 4 }
    else none

/-- Where a 16-byte chunk of a row stands (R183): chunk j of row q at chunk j XOR (q mod 2^SWZ). -/
def swizzle (swz row off : Nat) : Nat := ((off / 16) ^^^ (row % 2 ^ swz)) * 16 + off % 16

/-! ### Conversion of an element (R183) -/

/-- The exact value of an element: a floating-point value, or an integer. -/
inductive Elem where
  | fp (v : FP)
  | int (n : Int)
deriving DecidableEq, Repr

/-- The element that bits hold under a format; `i` selects in a byte or a block. -/
def Elem.ofBits (f : Fmt) (i : Nat) (raw : Nat) : Elem :=
  match f with
  | .int4 => .int (readInt true 4 (raw / 16 ^ i))
  | .int8 => .int (readInt true 8 raw)
  | .int32 => .int (readInt true 32 raw)
  | .int64 => .int (readInt true 64 raw)
  | .sx3 | .sx5 | .sx8 => .fp (sxDecode f ((List.range f.sxSize).map fun k => raw / 256 ^ k % 256) i)
  | f => match f.ff? with
    | some t => .fp (t.val raw)
    | none => .int raw

/-- The bits of an element under a format, rounded once (R98, R170, R183). -/
def Elem.bits (e : Elem) (f : Fmt) : Nat :=
  let w := 8 * f.bytes
  match f.ff? with
  | some t => match e with
    | .fp v => (fpResult t v .store).1
    | .int n => (fpResult t (FP.ofInt n) .store).1
  | none => match e with
    | .fp v => wrapInt w (fpToInt true w v .rne).1
    | .int n => wrapInt w (satInt true w n)

/-- Pairs of formats whose bits move unchanged (R183). -/
def sameBits (a b : Fmt) : Bool :=
  a == b || ((a == .raw32 || b == .raw32) && a.rawLike && b.rawLike && !a.wide && !b.wide) ||
  ((a == .raw64 || b == .raw64) && a.wide && b.wide)

namespace Machine

/-! ### Checks at issue (R182) -/

/-- The box of a CPT: rows and columns (R181). -/
def boxRows (imm : W32) : Nat := (imm.extractLsb' 16 16).toNat
def boxCols (imm : W32) : Nat := (imm.extractLsb' 0 16).toNat

/-- The signed origin of a CPT. -/
def originRow (org : W64) : Int := (loWord org).toInt
def originCol (org : W64) : Int := (hiWord org).toInt

/-- The bytes of a place as CPT and the engine read a descriptor. -/
def State.descAt (s : State) (b : Block) (a : W64) : Option Desc :=
  match s.scratchLocs b a 32 with
  | some ls => Desc.ofBytes (ls.map fun l => s.mem.homeRead l)
  | none => none

/-- GEOM of the page of a global address, 0 where none is mapped. -/
def State.geomAt (s : State) (b : Block) (a : W64) : Nat :=
  match va56 a with
  | some va => match s.translate none b.ten b.pasid va .read with
    | some v => v.geom.toNat
    | none => 0
  | none => 0

/-- Copies move whole blocks or bytes of these formats. -/
def Desc.blocked (d : Desc) : Bool := d.dfmt.isSx || d.dfmt == .int4

/-- Whether a copy of the descriptor to a format moves blocks or bytes. -/
def movesBlocks (d : Desc) (fmt : Fmt) : Bool := d.blocked && fmt == d.dfmt

/-- Rows of the destination and bytes in each (R183). -/
def destShape (d : Desc) (fmt : Fmt) (geom rows cols : Nat) : Nat × Nat :=
  if movesBlocks d fmt then
    if fmt == .int4 then (rows, cols / 2)
    else if geom = 0 then (rows, cols / 16 * fmt.sxSize) else (rows / 4, cols / 4 * fmt.sxSize)
  else if d.trans then (cols, rows * fmt.bytes) else (rows, cols * fmt.bytes)

/-- The size of the destination box. -/
def destSize (d : Desc) (fmt : Fmt) (geom rows cols : Nat) : Nat :=
  let sh := destShape d fmt geom rows cols
  (sh.1 - 1) * d.spitch + roundUp sh.2 (if d.swz = 0 then 1 else 16 * 2 ^ d.swz)

/-- An address in the bounds of its space as far as issue tells: scratchpad in bounds, global left to the engine. -/
def State.copyExtent (s : State) (b : Block) (a : W64) (n : Nat) : Bool :=
  if tagOf a = 2 ∨ tagOf a = 3 then n == 0 || (s.scratchLocs b a n).isSome else true

/-- The faults of a barrier operand. -/
def State.copyBarTraps (s : State) (x : Ctx) (f : McFmt) : List (Option Trap) :=
  if f.ops.c.unused then [] else s.barTraps x (s.op64 x f.ops.c x.lead) 16

/-- Faults of CPA, in the order of R182.  Its ALIGN names the destination when the size is at fault (log 94, DESIGN CHOICE). -/
def State.cpaTraps (s : State) (x : Ctx) (f : McFmt) : List (Option Trap) :=
  let dst := fun L => s.op64 x f.ops.d L
  let src := fun L => s.op64 x f.ops.a L
  let n := fun L => s.op32 x f.ops.b f.ops.imm L
  [laneTrap .access x.lanes fun L => if tagOf (src L) ≤ 3 then none else some (src L),
   laneTrap .access x.lanes fun L => if [0, 2, 3].contains (tagOf (dst L)) then none else some (dst L)] ++
  s.copyBarTraps x f ++
  [laneTrap .align x.lanes fun L =>
     if n L % 16 ≠ 0 ∨ 2 ^ 24 < n L ∨ (dst L).extractLsb' 0 4 ≠ 0 then some (dst L)
     else if (src L).extractLsb' 0 4 ≠ 0 then some (src L) else none,
   laneTrap .access x.lanes fun L =>
     if !s.copyExtent x.blk (src L) (n L) then some (src L)
     else if !s.copyExtent x.blk (dst L) (n L) then some (dst L) else none]

/-- Block alignment of a box (R183). -/
def boxAligned (d : Desc) (fmt : Fmt) (geom : Nat) (row0 col0 : Int) (rows cols : Nat) : Bool :=
  if !movesBlocks d fmt then true
  else if geom = 0 then d.pitch % 16 == 0 && col0 % 16 == 0 && cols % 16 == 0
  else row0 % 4 == 0 && col0 % 4 == 0 && rows % 4 == 0 && cols % 4 == 0

/-- Pairings of formats: `none` when admitted, else FORMAT with a RAW side, or ILLEGAL (R183). -/
def pairing (d : Desc) (fmt : Fmt) : Option Cause :=
  let raw := fun (f : Fmt) => f == .raw32 || f == .raw64
  if (raw fmt || raw d.dfmt) && !sameBits d.dfmt fmt then some .format
  else if (fmt.isSx || fmt == .int4) && !(fmt == d.dfmt && !d.trans) then some .illegal
  else none

/-- The places of a descriptor. -/
def State.descLocs (s : State) (b : Block) (a : W64) : List Loc := (s.scratchLocs b a 32).getD []

/-- The faults of CPT's descriptor, for the lowest active lane: its address is must-be-uniform. -/
def State.descTraps (s : State) (x : Ctx) (a : W64) : List (Option Trap) :=
  let t := fun (c : Cause) => Trap.of c (oneLane x.lead) a 0
  [if tagOf a = 2 ∨ tagOf a = 3 then none else some (t .access),
   if (s.scratchLocs x.blk a 32).isSome then none else some (t .access),
   if a.extractLsb' 0 5 ≠ 0 then some (t .align) else none,
   if s.mem.anyPoison (s.descLocs x.blk a) then some (Trap.of .ecc x.active a 0xFFFFFFFF#32) else none,
   if (s.descAt x.blk a).isSome then none else some (t .format)]

/-- Faults of CPT, in the order of R182.  The ILLEGAL pairing of R183, for which the table has no row, stands in the row of
the formats (log 64, DESIGN CHOICE). -/
def State.cptTraps (s : State) (x : Ctx) (f : McFmt) : List (Option Trap) :=
  let da := s.op64 x f.ops.a x.lead
  let dst := fun L => s.op64 x f.ops.d L
  let org := fun L => s.op64 x f.ops.b L
  let rows := boxRows f.ops.imm
  let cols := boxCols f.ops.imm
  s.descTraps x da ++
  (match s.descAt x.blk da with
    | none => []
    | some d =>
      let geom := s.geomAt x.blk d.base
      [if tagOf d.base ≤ 1 then none else some (Trap.of .access (oneLane x.lead) d.base 0),
       laneTrap .access x.lanes fun L => if [2, 3].contains (tagOf (dst L)) then none else some (dst L)] ++
      s.copyBarTraps x f ++
      [match pairing d f.fmt with
        | some .illegal => some (Trap.illegalWord x.active x.word)
        | some c => some (Trap.of c (oneLane x.lead) da 0)
        | none => none,
       laneTrap .align x.lanes fun L =>
         if d.spitch % (16 * 2 ^ d.swz) ≠ 0 ∨
            !boxAligned d f.fmt geom (originRow (org L)) (originCol (org L)) rows cols then some (dst L) else none,
       laneTrap .access x.lanes fun L =>
         if s.copyExtent x.blk (dst L) (destSize d f.fmt geom rows cols) then none else some (dst L)])

/-- Each active lane's copy, as an operation in flight. -/
def State.startCopies (s : State) (x : Ctx) (mk : Nat → CopyRec) : State :=
  let g := s.nextId
  x.lanes.foldl (fun s L => s.startOp { x with active := oneLane L } .rlx .dev false (.copy { mk L with group := g })) s

/-- The must-be-uniform operands of a copy: the barrier's address, and CPT's descriptor (R52). -/
def copyUniform (f : McFmt) (desc : Bool) : Entry :=
  Entry.same fun s x =>
    (if f.ops.c.unused then [] else [fun L => s.op64 x f.ops.c L]) ++ (if desc then [fun L => s.op64 x f.ops.a L] else [])

/-- The descriptor that CPT reads is searched for soft errors (R275). -/
def descScan (a : Operand) (s : State) (x : Ctx) : State :=
  if x.active = 0 then s else s.scanHome (s.descLocs x.blk (s.op64 x a x.lead))

def State.barrierOf (s : State) (x : Ctx) (f : McFmt) (L : Nat) : W64 := if f.ops.c.unused then 0 else s.op64 x f.ops.c L

def cpaBody (f : McFmt) (s : State) (x : Ctx) : Except Trap Done :=
  if x.active = 0 then .ok (Done.now x s)
  else
    match (s.cpaTraps x f).findSome? id with
    | some t => .error t
    | none =>
      .ok (Done.later x (s.startCopies x fun L =>
        { tensor := false, dst := s.op64 x f.ops.d L, src := s.op64 x f.ops.a L,
          count := BitVec.ofNat 64 (s.op32 x f.ops.b f.ops.imm L), bar := s.barrierOf x f L, imm := f.ops.imm, fmt := f.fmt,
          lane := L, credited := 0, step := 0, desc := none, group := 0 }))

def execCpa (c : Ctl) (f : McFmt) : State → Host.Outcome State Fault Refusal :=
  issue (.cpa c f) c (copyUniform f false) (cpaBody f)

def cptBody (f : McFmt) (s : State) (x : Ctx) : Except Trap Done :=
  if x.active = 0 then .ok (Done.now x s)
  else
    match (s.cptTraps x f).findSome? id with
    | some t => .error t
    | none =>
      .ok (Done.later x (s.startCopies x fun L =>
        { tensor := true, dst := s.op64 x f.ops.d L, src := s.op64 x f.ops.a L, count := s.op64 x f.ops.b L,
          bar := s.barrierOf x f L, imm := f.ops.imm, fmt := f.fmt, lane := L, credited := 0, step := 0,
          desc := s.descAt x.blk (s.op64 x f.ops.a x.lead), group := 0 }))

def execCpt (c : Ctl) (f : McFmt) : State → Host.Outcome State Fault Refusal :=
  issue (.cpt c f) c ((copyUniform f true).scans (descScan f.ops.a)) (cptBody f)

/-! ### Places as the engine reaches them -/

/-- A whole block of an SX page: R104's remaining bytes belong to no element. -/
def Xlate.sxBlockAt (v : Xlate) (f : Fmt) (va : Nat) : Bool :=
  let off := va % 2 ^ v.s1log
  off % f.sxSize == 0 && decide (off / f.sxSize < sxBlocks f v.geom.toNat v.s1log)

/-- `n` bytes at an address for a read or write of the engine: the places, or the cause of its fault; a global source page
of another FMT is FORMAT (R182), and an SX read must meet a whole block of its page (R104; log 65, DEDUCED). -/
def State.engineLocs (s : State) (b : Block) (a : W64) (n : Nat) (acc : Access) (page : Option Fmt) :
    Except Cause (List Loc) :=
  if tagOf a = 2 ∨ tagOf a = 3 then
    match s.scratchLocs b a n with
    | some l => .ok l
    | none => .error .access
  else if 2 ≤ tagOf a then .error .access
  else
    match va56 a with
    | none => .error .access
    | some va =>
      match s.vaLocs (some b.quadId) b.ten b.pasid va n acc with
      | none => .error .access
      | some l =>
        let bad := match page with
          | none => false
          | some f => (List.range n).any fun i =>
            match s.translate (some b.quadId) b.ten b.pasid (va + i) acc with
            | some v => v.fmt != f.code || (v.geom != 0 && !f.isSx)
            | none => true
        let whole := match page, s.translate (some b.quadId) b.ten b.pasid va acc with
          | some f, some v => !f.isSx || v.sxBlockAt f va
          | _, _ => true
        if bad then .error .format else if !whole then .error .access else .ok (l.map .phys)

/-- Global translations put to use, as a store of the engine logs them (R373). -/
def State.useEngine (s : State) (b : Block) (a : W64) (n : Nat) (acc : Access) : State :=
  if tagOf a ≤ 1 then
    match va56 a with
    | some va => s.useRange (some b.quadId) b.ten b.pasid va n acc
    | none => s
  else s

/-- Bytes written by an engine: at their homes; the L1s' words come home first, and the core's own copies of other dies' lines
go (R184, R241). -/
def State.enginePut (s : State) (b : Block) (bytes : List (Loc × Byte)) : State :=
  let pas := bytes.filterMap fun lb => match lb.1 with
    | .phys pa => some pa
    | .spad _ _ => none
  let m := (pas.map lineOf).eraseDups.foldl (fun m line =>
    (List.range 4).foldl (fun m q => m.bringHome (quadId b.core q) line) m) s.mem
  s.setMem (m.homePut bytes)

/-! ### One granule, element or block (R183, R184) -/

/-- Steps that a copy takes. -/
def CopyRec.steps (c : CopyRec) (geom : Nat) : Nat :=
  match c.desc with
  | none => c.count.toNat / 16
  | some d =>
    let rows := boxRows c.imm
    let cols := boxCols c.imm
    if movesBlocks d c.fmt then
      if c.fmt == .int4 then rows * (cols / 2)
      else if geom = 0 then rows * (cols / 16) else rows / 4 * (cols / 4)
    else rows * cols

/-- A source element within the tensor. -/
def Desc.inside (d : Desc) (row col : Int) : Bool :=
  decide (0 ≤ row) && decide (row < d.rows) && decide (0 ≤ col) && decide (col < d.cols)

/-- Where the element of an index lies under a GEOM, counted from a block: bytes beyond that block, and the element in its own (R104). -/
def sxIndex (f : Fmt) (geom idx : Nat) : Nat × Nat :=
  if geom = 0 then (idx / 16 * f.sxSize, idx % 16)
  else
    let w := 2 ^ (geom + 3)
    let y := idx / w
    let c := idx % w
    ((y / 4 * (w / 4) + c / 4) * f.sxSize, y % 4 * 4 + c % 4)

/-- The element of an index counted from a block on, page by page, each page's elements under its own GEOM from its own start on
(R104, R365): the VA of its block, and the element in it. -/
def State.sxWalk (s : State) (b : Block) (f : Fmt) : Nat → Nat → Nat → Nat × Nat
  | 0, va, _ => (va, 0)
  | n + 1, va, idx =>
    match s.translate none b.ten b.pasid va .read with
    | none => (va, 0)
    | some v =>
      let left := 16 * (sxBlocks f v.geom.toNat v.s1log - va % 2 ^ v.s1log / f.sxSize)
      if idx < left then (va + (sxIndex f v.geom.toNat idx).1, (sxIndex f v.geom.toNat idx).2)
      else s.sxWalk b f n ((va / 2 ^ v.s1log + 1) * 2 ^ v.s1log) (idx - left)

/-- Where the bytes of an element lie: its address, its size, the element in it (R104, R183).  The elements of an SX tensor are counted
from BASE, and on each further page from its first block (log 65, DEDUCED). -/
def State.elemAt (s : State) (b : Block) (d : Desc) (row col : Nat) : W64 × Nat × Nat :=
  if d.dfmt.isSx then
    let idx := row * d.pitch + col
    let va := (d.base.extractLsb' 0 56).toNat
    let p := s.sxWalk b d.dfmt (idx / 16 + 1) va idx
    (d.base + BitVec.ofNat 64 (p.1 - va), d.dfmt.sxSize, p.2)
  else if d.dfmt == .int4 then
    let idx := row * d.pitch + col
    (d.base + BitVec.ofNat 64 (idx / 2), 1, idx % 2)
  else (d.base + BitVec.ofNat 64 (row * d.pitch + col * d.dfmt.bytes), d.dfmt.bytes, 0)

/-- The destination bytes of a step, with the swizzle applied byte by byte. -/
def destBytes (c : CopyRec) (d : Desc) (row off : Nat) (bs : List Nat) : List (W64 × Byte) :=
  bs.mapIdx fun i v => (c.dst + BitVec.ofNat 64 (row * d.spitch + swizzle d.swz row (off + i)), BitVec.ofNat 8 v)

/-- What a step of a copy reads and writes: the source bytes, and from their number the destination bytes. -/
structure Move where
  src : Option (W64 × Nat)
  out : Nat → List (W64 × Byte)

def numBytes (n v : Nat) : List Nat := (List.range n).map fun i => v / 256 ^ i % 256

/-- Fields of a block's elements that lie outside the tensor are cleared: they read as zero (R183).  A block of E = 0xFF stays
one: no field of it could read as zero (log 66, DESIGN CHOICE). -/
def clearOutside (f : Fmt) (keep : Nat → Bool) (raw : Nat) : Nat :=
  let w := f.sxW + 1
  (List.range 16).foldl (fun v i =>
    if keep i then v else v - (v / 2 ^ (16 + w * i) % 2 ^ w) * 2 ^ (16 + w * i)) raw

/-- Step k of a copy, whose elements lie where `at_` says. -/
def CopyRec.move (c : CopyRec) (at_ : Desc → Nat → Nat → W64 × Nat × Nat) (geom k : Nat) : Move :=
  match c.desc with
  | none =>
    let off := BitVec.ofNat 64 (16 * k)
    { src := some (c.src + off, 16), out := fun v => (numBytes 16 v).mapIdx fun i b =>
        (c.dst + off + BitVec.ofNat 64 i, BitVec.ofNat 8 b) }
  | some d =>
    let cols := boxCols c.imm
    let row0 := originRow c.count
    let col0 := originCol c.count
    if movesBlocks d c.fmt then
      if c.fmt == .int4 then
        let r := k / (cols / 2)
        let j := k % (cols / 2)
        let row := row0 + r
        let col := col0 + 2 * j
        let lo := d.inside row col
        let hi := d.inside row (col + 1)
        { src := if lo || hi then some ((at_ d row.toNat col.toNat).1, 1) else none,
          out := fun v => destBytes c d r j [(if lo then v % 16 else 0) + (if hi then v / 16 % 16 * 16 else 0)] }
      else
        let perRow := if geom = 0 then cols / 16 else cols / 4
        let r := k / perRow
        let j := k % perRow
        let row := if geom = 0 then row0 + r else row0 + 4 * r
        let col := if geom = 0 then col0 + 16 * j else col0 + 4 * j
        let keep := fun (i : Nat) =>
          if geom = 0 then d.inside row (col + i) else d.inside (row + i / 4) (col + i % 4)
        let any := (List.range 16).any keep
        { src := if any then some ((at_ d row.toNat col.toNat).1, c.fmt.sxSize) else none,
          out := fun v => destBytes c d r (j * c.fmt.sxSize) (numBytes c.fmt.sxSize (clearOutside c.fmt keep v)) }
    else
      let r := k / cols
      let q := k % cols
      let row := row0 + r
      let col := col0 + q
      let e := at_ d row.toNat col.toNat
      let there := d.inside row col
      let bits := fun (v : Nat) =>
        if !there then 0 else if sameBits d.dfmt c.fmt then v else (Elem.ofBits d.dfmt e.2.2 v).bits c.fmt
      { src := if there then some (e.1, e.2.1) else none,
        out := fun v =>
          if d.trans then destBytes c d q (r * c.fmt.bytes) (numBytes c.fmt.bytes (bits v))
          else destBytes c d r (q * c.fmt.bytes) (numBytes c.fmt.bytes (bits v)) }

/-- The step that a copy takes next. -/
def State.copyMove (s : State) (b : Block) (c : CopyRec) (geom : Nat) : Move := c.move (s.elemAt b) geom c.step

/-- The token of an instruction's copies falls when the last of them has gone (R36, R184). -/
def State.endCopy (s : State) (b : Block) (o : Op) (group : Nat) : State :=
  let more := b.flight.any fun p => p.id != o.id && (match p.kind with | .copy c => c.group == group | _ => false)
  if more then s.updBlock b.uid fun x => x.dropOp o.id else s.completeOp b.uid o

/-- A copy stops: its token is released, and the fragment of its lane has a trap pending (R182). -/
def State.stopCopy (s : State) (b : Block) (o : Op) (c : CopyRec) (cause : Cause) (a : W64) : State :=
  (s.endCopy b o c.group).updStrand b.uid o.strand fun st =>
    st.pendTrap (oneLane c.lane) (fun m => Trap.of cause m a (if cause = .ecc then 0xFFFFFFFF#32 else 0)) o.pc false

/-- Destination places of a step. -/
def State.destLocs (s : State) (b : Block) (out : List (W64 × Byte)) : Except (Cause × W64) (List (Loc × Byte)) :=
  out.foldr (fun ab acc =>
    match acc with
    | .error e => .error e
    | .ok l => match s.engineLocs b ab.1 1 .write none with
      | .ok (p :: _) => .ok ((p, ab.2) :: l)
      | .ok [] => .ok l
      | .error c => .error (c, ab.1)) (.ok [])

/-- The copy goes on, or ends with its last byte credited. -/
def State.nextStep (s : State) (b : Block) (o : Op) (c : CopyRec) (geom : Nat) : State :=
  if c.steps geom ≤ c.step then s.endCopy b o c.group
  else s.updBlock b.uid fun x => x.putOp { o with kind := .copy c, stage := .waiting }

/-- Source places of a step. -/
def State.copySrc (s : State) (b : Block) (c : CopyRec) (geom : Nat) : Except (Cause × W64) (List Loc) :=
  match (s.copyMove b c geom).src with
  | none => .ok []
  | some (a, n) => match s.engineLocs b a n .read (c.desc.map (·.dfmt)) with
    | .ok l => .ok l
    | .error e => .error (e, a)

/-- A place of the next step waits: a bank in handover (R274), a line locked by a tile update (R288). -/
def State.copyWaits (s : State) (b : Block) (c : CopyRec) (geom : Nat) : Bool :=
  (match s.copySrc b c geom with
    | .ok ls => ls.any (s.locWaits false)
    | .error _ => false) ||
  (match s.destLocs b ((s.copyMove b c geom).out 0) with
    | .ok bytes => bytes.any fun p => s.locWaits true p.1
    | .error _ => false)

/-- The copy holds a slot of its core's engine; further ones, which restored images bring, wait for one (R2, R184; log 101, DEDUCED). -/
def State.inCopySlots (s : State) (b : Block) (o : Op) : Bool :=
  decide ((s.blocks.foldl (fun n x => if x.core = b.core then n + (x.flight.filter fun p => (match p.kind with | .copy _ => true | _ => false) && decide (p.id < o.id)).length
    else n) 0) < Config.copySlots)

/-- One step of a copy: read, write, credit; or a stop. -/
def State.copyStep (s : State) (b : Block) (o : Op) (c : CopyRec) (geom : Nat) : State :=
  let m := s.copyMove b c geom
  match s.copySrc b c geom with
  | .error (e, a) => s.stopCopy b o c e a
  | .ok ls =>
    let s := s.scanHome ls
    if s.mem.anyPoison ls then s.stopCopy b o c .ecc ((m.src.map (·.1)).getD 0)
    else
      let out := m.out (leNum (ls.map fun l => s.mem.homeRead l))
      match s.destLocs b out with
      | .error (e, a) => s.stopCopy b o c e a
      | .ok bytes =>
        let s := (s.useEngine b ((out.map (·.1)).headD 0) out.length .write).enginePut b bytes
        let k := out.length
        let bar := if c.bar = 0 then none else match s.scratchLocs b c.bar 16 with
          | some (l :: _) => some l
          | _ => none
        match bar with
        | some l =>
          let s := s.scanHome (l.span 16)
          if s.mem.anyPoison (l.span 16) then s.stopCopy b o c .ecc c.bar
          else (s.creditBar l k).nextStep b o { c with step := c.step + 1, credited := c.credited + k } geom
        | none => s.nextStep b o { c with step := c.step + 1, credited := c.credited + k } geom

/-- What a copy's next step asks of the fabric: the lines of its global source, and the writes of its global destination (R336;
log 55, DEDUCED).  A copy that has started goes on under LOW (R374). -/
def State.copyAsks (s : State) (b : Block) (o : Op) (c : CopyRec) (geom : Nat) : List Ask :=
  if c.steps geom ≤ c.step then []
  else
    (match s.copySrc b c geom with
      | .ok ls => asksFor o.id true false ls
      | .error _ => []) ++
    (match s.destLocs b ((s.copyMove b c geom).out 0) with
      | .ok bytes => asksFor o.id true true (bytes.map (·.1))
      | .error _ => [])

/-- The GEOM of a copy's source pages. -/
def State.copyGeom (s : State) (b : Block) (c : CopyRec) : Nat :=
  match c.desc with
  | some d => s.geomAt b d.base
  | none => 0

/-- COPY_GRANULE: a copy reads after its lane's earlier accesses have been performed (R184), when the homes answer (R336, R370). -/
def execCopyGranule (uid id : Nat) (s : State) : Host.Outcome State Fault Refusal :=
  match s.opOf uid id with
  | none => .next s
  | some (b, o) =>
    match o.kind with
    | .copy c =>
      if !s.earlierDone b o.strand o.id (oneLane c.lane) .dev then .next s
      else
        let geom := s.copyGeom b c
        if c.steps geom ≤ c.step then .next (s.endCopy b o c.group)
        else if !s.inCopySlots b o || !(s.copyAsks b o c geom).all (s.reached b) || s.copyWaits b c geom then .next s
        else .next ((s.copyStep b o c geom).closeAsks b.uid (s.copyAsks b o c geom))
    | _ => .next s

/-! ### PREF (R179) -/

/-- The physical address whose line a PREF fetches; `none` where it is dropped. -/
def State.prefTarget (s : State) (x : Ctx) (a : W64) : Option Nat :=
  if tagOf a ≤ 1 then
    match va56 a with
    | some va => (s.translate (some x.blk.quadId) x.blk.ten x.blk.pasid va .read).map fun v => v.pa va
    | none => none
  else none

def execPref (c : Ctl) (f : McFmt) : State → Host.Outcome State Fault Refusal :=
  issue (.pref c f) c Entry.plain fun s x =>
    if x.active = 0 then .ok (Done.now x s)
    else
      .ok (Done.later x (s.startOp x .rlx .thr false
        (.pref (f.sub == 1) (s.prefTarget x (s.effAddr x f.ops.d f.ops.imm x.lead)))))

/-- A line enters a die's LLC: its home holds it, another die keeps a copy unless it is poisoned (R241, R281, R285). -/
def MemSys.fillLlc (m : MemSys) (die line : Nat) : MemSys :=
  let m := if isHbm (line * lineBytes) then m.holdHome line else m
  if m.poisoned (line * lineBytes) then m else m.fetchFor die line

/-- PREF_DONE: the line is present, or dropped for want of a miss register. -/
def execPrefDone (uid id : Nat) (s : State) : Host.Outcome State Fault Refusal :=
  match s.opOf uid id with
  | none => .next s
  | some (b, o) =>
    match o.kind with
    | .pref llcOnly pa =>
      if !s.answers b o then .next s else
      let s := match pa with
        | none => s
        | some pa =>
          let s := s.scanHome (lineLocs (lineOf pa))
          if Config.missRegs ≤ (s.mem.misses.get [] (sliceOf pa)).length then s
          else if llcOnly then s.setMem (s.mem.fillLlc (dieOfCore b.core) (lineOf pa))
          else s.setMem (s.mem.fill (s.l1Quad b pa) (lineOf pa))
      .next (s.completeOp b.uid o)
    | _ => .next s

end Machine
end Sys2Proof
end

