-- ==== Sys2Proof/Machine/Code.lean ====
section
/-!
DEFINITION. Code that changes (R123, R126, R198 to R200): FETCHB, CODEINV and SITECLR, and the steps that end them.
-/
namespace Sys2Proof
open Machine

namespace Machine

/-! ### FETCHB (R199) -/

def execFetchb (c : Ctl) (f : McFmt) : State → Host.Outcome State Fault Refusal :=
  issue (.fetchb c f) c Entry.plain fun s x =>
    .ok (Done.now x (if x.active = 0 then s else s.updStrand x.blk.uid x.sid fun st => { st with fetched := [] }))

/-! ### CODEINV (R198) -/

/-- The translation, whatever it permits, of a lane's code address; `none` where the tag is not global or the translation faults. -/
def State.codeXlate (s : State) (x : Ctx) (a : W64) : Option (Nat × Xlate) :=
  match va56 a with
  | some va => (s.mapped (some x.blk.quadId) x.blk.ten x.blk.pasid va).map fun v => (v.pa va, v)
  | none => none

def codeinvBody (f : McFmt) (s : State) (x : Ctx) : Except Trap Done :=
  let a := fun L => s.effAddr x f.ops.d f.ops.imm L
  if x.active = 0 then .ok (Done.now x s)
  else
    orTraps
      [laneTrap .access x.lanes (fun L => if tagOf (a L) ≠ 0 then some (a L) else none),
       laneTrap .access x.lanes (fun L => if (a L).extractLsb' 56 4 ≠ 0 then some (a L) else none),
       laneTrap .access x.lanes (fun L => if (s.codeXlate x (a L)).isNone then some (a L) else none)]
      (Done.later x (s.startOp x .rlx .dev false
        (.codeinv ((x.lanes.filterMap fun L => (s.codeXlate x (a L)).map fun p => lineOf p.1).eraseDups))))

def execCodeinv (c : Ctl) (f : McFmt) : State → Host.Outcome State Fault Refusal :=
  issue (.codeinv c f) c Entry.plain (codeinvBody f)

/-- A code line leaves every instruction cache, and the slices of dies other than its home's. -/
def MemSys.invalidateCode (m : MemSys) (line : Nat) : MemSys :=
  ({ m with icache := m.icache.filter fun l => l.line != line } : MemSys).dropCopies fun _ l => l == line

/-- CODEINV_DONE: every line has been handled. -/
def execCodeinvDone (uid id : Nat) (s : State) : Host.Outcome State Fault Refusal :=
  match s.opOf uid id with
  | none => .next s
  | some (b, o) =>
    match o.kind with
    | .codeinv lines =>
      if !s.answers b o then .next s else
      .next ((s.setMem (lines.foldl (fun m line => m.invalidateCode line) s.mem)).completeOp b.uid o)
    | _ => .next s

/-! ### SITECLR (R126) -/

/-- The faults of SITECLR, in the entry's order (R24, R126). -/
def State.siteTraps (s : State) (x : Ctx) (a : Nat → W64) : List (Option Trap) :=
  [laneTrap .access x.lanes fun L => if tagOf (a L) ≠ 0 then some (a L) else none,
   laneTrap .align x.lanes fun L => if unaligned (a L) then some (a L) else none,
   laneTrap .access x.lanes fun L => match s.codeXlate x (a L) with
    | some p => if p.2.sw then none else some (a L)
    | none => some (a L)]

/-- The checks, and the distinct words to be cleared one by one. -/
def siteclrBody (f : McFmt) (pin : Bool) (s : State) (x : Ctx) : Except Trap Done :=
  let a := fun L => s.effAddr x f.ops.d f.ops.imm L
  if x.active = 0 then .ok (Done.now x s)
  else
    let words := x.lanes.foldl (fun acc L => match s.codeXlate x (a L) with
      | some p => if acc.any fun q => q.1 == p.1 then acc else acc ++ [p]
      | none => acc) ([] : List (Nat × Xlate))
    orTraps (s.siteTraps x a) (Done.later x (s.startOp x .rlx .dev false (.siteclr pin words)))

def execSiteclr (c : Ctl) (f : McFmt) : State → Host.Outcome State Fault Refusal :=
  issue (.siteclr c f) c Entry.plain (siteclrBody f false)

def execSiteclrPin (c : Ctl) (f : McFmt) : State → Host.Outcome State Fault Refusal :=
  issue (.siteclrPin c f) c Entry.plain (siteclrBody f true)

/-- One word at its home slice: rewritten if it is a site, its page marked as a store would mark it (R122). -/
def State.clearSite (s : State) (pin : Bool) (pa : Nat) (via : Xlate) : State :=
  match clearedSite (s.mem.wordAt pa) pin with
  | none => s
  | some w =>
    let s := if s.mustLog via .write then s.logDirty via.ten via else s
    s.rewrite pa w

/-- SITECLR_WORD_HANDLED: the next word of the instruction, when no tile update holds its line (R288); its token falls with
the last. -/
def execSiteclrWordHandled (uid id : Nat) (s : State) : Host.Outcome State Fault Refusal :=
  match s.opOf uid id with
  | none => .next s
  | some (b, o) =>
    match o.kind with
    | .siteclr pin ((pa, via) :: rest) =>
      if s.mem.locked (lineOf pa) || !s.answers b o then .next s else
      let s := (s.clearSite pin pa via).closeAsks b.uid o.asks
      .next (if rest.isEmpty then s.completeOp b.uid o
        else s.updBlock b.uid fun x => x.putOp { o with kind := .siteclr pin rest })
    | _ => .next s

end Machine
end Sys2Proof
end

