-- ==== Sys2Proof/Machine/Integer.lean ====
section
/-!
DEFINITION. Integer, address and predicate instructions (R143 to R147): what each computes for one lane, and its meaning.
-/
namespace Sys2Proof

/-! ### Values -/

/-- A 64-bit register value of a type as a number: signed types are two's complement, the others unsigned (R130). -/
def Ty.int (t : Ty) (v : W64) : Int := readInt t.signed t.bits v.toNat

/-- A number wrapped to the type's width (R22). -/
def Ty.wrap (t : Ty) (n : Int) : W64 := BitVec.ofNat 64 (wrapInt t.bits n)

/-- A number limited to the type's range, then in the type's width. -/
def Ty.sat (t : Ty) (n : Int) : W64 := t.wrap (satInt t.signed t.bits n)

/-- `.lim` saturates, the plain form wraps (R143). -/
def Ty.lim (t : Ty) (lim : Bool) (n : Int) : W64 := if lim then t.sat n else t.wrap n

def intAdd (t : Ty) (lim : Bool) (a b : W64) : W64 := t.lim lim (t.int a + t.int b)
def intSub (t : Ty) (lim : Bool) (a b : W64) : W64 := t.lim lim (t.int a - t.int b)
def intMul (t : Ty) (a b : W64) : W64 := t.wrap (t.int a * t.int b)
/-- The upper half of the product: the product divided by 2^W, rounded down. -/
def intMulHi (t : Ty) (a b : W64) : W64 := t.wrap (t.int a * t.int b / (2 ^ t.bits : Nat))
def intMad (t : Ty) (a b c : W64) : W64 := t.wrap (t.int a * t.int b + t.int c)
def intMin' (t : Ty) (a b : W64) : W64 := t.wrap (min (t.int a) (t.int b))
def intMax' (t : Ty) (a b : W64) : W64 := t.wrap (max (t.int a) (t.int b))

/-- A value cut to the type's width. -/
def Ty.cut (t : Ty) (v : W64) : W64 := if t.wide then v else (loWord v).zeroExtend 64

def bitAnd (t : Ty) (n : Bool) (a b : W64) : W64 := t.cut (a &&& (if n then ~~~b else b))
def bitOr (t : Ty) (n : Bool) (a b : W64) : W64 := t.cut (a ||| (if n then ~~~b else b))
def bitXor (t : Ty) (n : Bool) (a b : W64) : W64 := t.cut (a ^^^ (if n then ~~~b else b))

/-- a * 2^b for b below W, else 0. -/
def shiftLeft (t : Ty) (a : W64) (b : Nat) : W64 := if b < t.bits then t.wrap (t.int a * (2 ^ b : Nat)) else 0

/-- a / 2^min(b, W), rounded down. -/
def shiftRight (t : Ty) (a : W64) (b : Nat) : W64 := t.wrap (t.int a / (2 ^ min b t.bits : Nat))

/-- Rotation by b mod W, left or right. -/
def rotate (t : Ty) (right : Bool) (a : W64) (b : Nat) : W64 :=
  let w := t.bits
  let k := if right then (w - b % w) % w else b % w
  let n := a.toNat % 2 ^ w
  BitVec.ofNat 64 ((n * 2 ^ k + n / 2 ^ (w - k)) % 2 ^ w)

/-- The field's position and length that a control word names: `none` where R144 gives 0 or the base. -/
def fieldOf (t : Ty) (ctl : Nat) : Option (Nat × Nat) :=
  let pos := ctl % 256
  let len := ctl / 256 % 256
  if t.bits ≤ pos ∨ len = 0 then none else some (pos, min len (t.bits - pos))

/-- BFX (R144). -/
def extractField (t : Ty) (a : W64) (ctl : Nat) : W64 :=
  match fieldOf t ctl with
  | none => 0
  | some (pos, n) => t.wrap (readInt t.signed n (a.toNat / 2 ^ pos))

/-- BFI (R144). -/
def insertField (t : Ty) (base ins : W64) (ctl : Nat) : W64 :=
  match fieldOf t ctl with
  | none => t.cut base
  | some (pos, n) =>
    let b := base.toNat
    BitVec.ofNat 64 ((b / 2 ^ (pos + n) * 2 ^ (pos + n) + ins.toNat % 2 ^ n * 2 ^ pos + b % 2 ^ pos) % 2 ^ t.bits)

def popCount (t : Ty) (a : W64) : W64 := BitVec.ofNat 64 ((List.range t.bits).countP fun i => a.getLsbD i)

/-- Leading zeros; W for 0. -/
def leadingZeros (t : Ty) (a : W64) : W64 :=
  let n := a.toNat % 2 ^ t.bits
  BitVec.ofNat 64 (if n = 0 then t.bits else t.bits - 1 - Nat.log2 n)

def reverseBits (t : Ty) (a : W64) : W64 :=
  BitVec.ofNat 64 ((List.range t.bits).foldl (fun acc i => 2 * acc + (if a.getLsbD i then 1 else 0)) 0)

/-- The comparison codes (R145). -/
def intCmp (t : Ty) (code : Nat) (a b : W64) : Bool :=
  let x := t.int a
  let y := t.int b
  match code with
  | 0 => x == y
  | 1 => x != y
  | 2 => decide (x < y)
  | 3 => decide (x ≤ y)
  | 4 => decide (y < x)
  | _ => decide (y ≤ x)

/-- LEA: base + x * 2^(sh mod 64), x the index extended by the type's sign (R143). -/
def leaAddr (t : Ty) (base : W64) (idx sh : Nat) : W64 :=
  t.wrap ((base.toNat : Int) + readInt t.signed 32 idx * (2 ^ (sh % 64) : Nat))

/-- The operators of PAND (R147). -/
def predOp (sub : Nat) (a b : Bool) : Bool :=
  match sub with
  | 0 => a && b
  | 1 => a || b
  | 2 => a != b
  | 3 => a && !b
  | _ => a || !b

namespace Machine

/-! ### Reading the operands of format A -/

def State.aVal (s : State) (x : Ctx) (f : AFmt) (L : Nat) : W64 := s.opTy x f.ty f.ops.a f.ops.imm L
def State.bVal (s : State) (x : Ctx) (f : AFmt) (L : Nat) : W64 := s.opTy x f.ty f.ops.b f.ops.imm L
def State.cVal (s : State) (x : Ctx) (f : AFmt) (L : Nat) : W64 := s.opTy x f.ty f.ops.c f.ops.imm L

/-- Operands that R57 reads as 32-bit integers. -/
def State.b32 (s : State) (x : Ctx) (f : AFmt) (L : Nat) : Nat := s.op32 x f.ops.b f.ops.imm L
def State.c32 (s : State) (x : Ctx) (f : AFmt) (L : Nat) : Nat := s.op32 x f.ops.c f.ops.imm L

/-- Latency of the integer, address and predicate instructions (R77). -/
abbrev intLatency : Nat := 4

/-- A value per lane into DST at the type's width; no flag (R130). -/
def intEffect (f : AFmt) (v : State → Ctx → Nat → W64) (s : State) (x : Ctx) : List PWrite × Flags :=
  (s.writesTo x f.ops.d f.ty.wide (v s x), Flags.none)

/-- A 32-bit value per lane into DST, whatever the type. -/
def int32Effect (f : AFmt) (v : State → Ctx → Nat → W64) (s : State) (x : Ctx) : List PWrite × Flags :=
  (s.writesTo x f.ops.d false (v s x), Flags.none)

/-- A truth value per lane into the predicate DST. -/
def predEffect (f : AFmt) (v : State → Ctx → Nat → Bool) (s : State) (x : Ctx) : List PWrite × Flags :=
  (predWrites x f.ops.d (v s x), Flags.none)

/-! ### Meanings -/

def execIadd (c : Ctl) (f : AFmt) : State → Host.Outcome State Fault Refusal :=
  fixed (.iadd c f) c intLatency (intEffect f fun s x L => intAdd f.ty (f.sub == 1) (s.aVal x f L) (s.bVal x f L))

def execIsub (c : Ctl) (f : AFmt) : State → Host.Outcome State Fault Refusal :=
  fixed (.isub c f) c intLatency (intEffect f fun s x L => intSub f.ty (f.sub == 1) (s.aVal x f L) (s.bVal x f L))

def execImul (c : Ctl) (f : AFmt) : State → Host.Outcome State Fault Refusal :=
  fixed (.imul c f) c intLatency (intEffect f fun s x L => intMul f.ty (s.aVal x f L) (s.bVal x f L))

def execImulh (c : Ctl) (f : AFmt) : State → Host.Outcome State Fault Refusal :=
  fixed (.imulh c f) c intLatency (intEffect f fun s x L => intMulHi f.ty (s.aVal x f L) (s.bVal x f L))

def execImad (c : Ctl) (f : AFmt) : State → Host.Outcome State Fault Refusal :=
  fixed (.imad c f) c intLatency
    (intEffect f fun s x L => intMad f.ty (s.aVal x f L) (s.bVal x f L) (s.cVal x f L))

def execImin (c : Ctl) (f : AFmt) : State → Host.Outcome State Fault Refusal :=
  fixed (.imin c f) c intLatency (intEffect f fun s x L => intMin' f.ty (s.aVal x f L) (s.bVal x f L))

def execImax (c : Ctl) (f : AFmt) : State → Host.Outcome State Fault Refusal :=
  fixed (.imax c f) c intLatency (intEffect f fun s x L => intMax' f.ty (s.aVal x f L) (s.bVal x f L))

def execAnd (c : Ctl) (f : AFmt) : State → Host.Outcome State Fault Refusal :=
  fixed (.land c f) c intLatency (intEffect f fun s x L => bitAnd f.ty (f.sub == 1) (s.aVal x f L) (s.bVal x f L))

def execOr (c : Ctl) (f : AFmt) : State → Host.Outcome State Fault Refusal :=
  fixed (.lor c f) c intLatency (intEffect f fun s x L => bitOr f.ty (f.sub == 1) (s.aVal x f L) (s.bVal x f L))

def execXor (c : Ctl) (f : AFmt) : State → Host.Outcome State Fault Refusal :=
  fixed (.lxor c f) c intLatency (intEffect f fun s x L => bitXor f.ty (f.sub == 1) (s.aVal x f L) (s.bVal x f L))

def execShl (c : Ctl) (f : AFmt) : State → Host.Outcome State Fault Refusal :=
  fixed (.shl c f) c intLatency (intEffect f fun s x L => shiftLeft f.ty (s.aVal x f L) (s.b32 x f L))

def execShr (c : Ctl) (f : AFmt) : State → Host.Outcome State Fault Refusal :=
  fixed (.shr c f) c intLatency (intEffect f fun s x L => shiftRight f.ty (s.aVal x f L) (s.b32 x f L))

def execRot (c : Ctl) (f : AFmt) : State → Host.Outcome State Fault Refusal :=
  fixed (.rot c f) c intLatency (intEffect f fun s x L => rotate f.ty (f.sub == 1) (s.aVal x f L) (s.b32 x f L))

def execBfx (c : Ctl) (f : AFmt) : State → Host.Outcome State Fault Refusal :=
  fixed (.bfx c f) c intLatency (intEffect f fun s x L => extractField f.ty (s.aVal x f L) (s.b32 x f L))

def execBfi (c : Ctl) (f : AFmt) : State → Host.Outcome State Fault Refusal :=
  fixed (.bfi c f) c intLatency
    (intEffect f fun s x L => insertField f.ty (s.aVal x f L) (s.bVal x f L) (s.c32 x f L))

def execPopc (c : Ctl) (f : AFmt) : State → Host.Outcome State Fault Refusal :=
  fixed (.popc c f) c intLatency (int32Effect f fun s x L => popCount f.ty (s.aVal x f L))

def execClz (c : Ctl) (f : AFmt) : State → Host.Outcome State Fault Refusal :=
  fixed (.clz c f) c intLatency (int32Effect f fun s x L => leadingZeros f.ty (s.aVal x f L))

def execBrev (c : Ctl) (f : AFmt) : State → Host.Outcome State Fault Refusal :=
  fixed (.brev c f) c intLatency (intEffect f fun s x L => reverseBits f.ty (s.aVal x f L))

def execSel (c : Ctl) (f : AFmt) : State → Host.Outcome State Fault Refusal :=
  fixed (.sel c f) c intLatency
    (intEffect f fun s x L => if x.pred f.ops.c.num L then s.aVal x f L else s.bVal x f L)

def execIcmp (c : Ctl) (f : AFmt) : State → Host.Outcome State Fault Refusal :=
  fixed (.icmp c f) c intLatency (predEffect f fun s x L => intCmp f.ty f.sub.toNat (s.aVal x f L) (s.bVal x f L))

def execLea (c : Ctl) (f : AFmt) : State → Host.Outcome State Fault Refusal :=
  fixed (.lea c f) c intLatency (intEffect f fun s x L => leaAddr f.ty (s.aVal x f L) (s.b32 x f L) (s.c32 x f L))

def execMov (c : Ctl) (f : AFmt) : State → Host.Outcome State Fault Refusal :=
  fixed (.mov c f) c intLatency (intEffect f fun s x L => s.aVal x f L)

/-- MOVI (R146): one half of a pair, or a uniform register read and written whole. -/
def moviEffect (f : AFmt) (s : State) (x : Ctx) : List PWrite × Flags :=
  let hi := f.sub == 1
  let v := loWord (immBits .b32 f.ops.a f.ops.imm)
  match f.ops.d with
  | .uni n =>
    let old := x.ureg n.toNat
    let new := if hi then joinWords (loWord old) v else joinWords v (hiWord old)
    (if x.active = 0 then [] else [.ureg n.toNat new], Flags.none)
  | d =>
    let part := if hi then 1 else 0
    (x.lanes.flatMap fun L => ((s.placeOf x d true L).filter fun p => p.2.1 == part).map fun p =>
      partOf p.2.1 p.2.2 (joinWords v v) false, Flags.none)

def execMovi (c : Ctl) (f : AFmt) : State → Host.Outcome State Fault Refusal :=
  fixed (.movi c f) c intLatency (moviEffect f)

def execPand (c : Ctl) (f : AFmt) : State → Host.Outcome State Fault Refusal :=
  fixed (.pand c f) c intLatency
    (predEffect f fun _ x L => predOp f.sub.toNat (x.pred f.ops.a.num L) (x.pred f.ops.b.num L))

/-- The three forms of PMOV (R147). -/
def pmovEffect (f : AFmt) (s : State) (x : Ctx) : List PWrite × Flags :=
  match f.sub.toNat with
  | 0 => predEffect f (fun _ x L => x.pred f.ops.a.num L) s x
  | 1 =>
    int32Effect f (fun _ x L =>
      BitVec.ofNat 64 ((List.range 8).foldl (fun acc i => acc + (if x.pred i L then 2 ^ i else 0)) 0)) s x
  | _ =>
    (x.lanes.flatMap fun L =>
      let v := s.op32 x f.ops.a f.ops.imm L
      (List.range 7).map fun i => .pred i L (v / 2 ^ i % 2 == 1), Flags.none)

def execPmov (c : Ctl) (f : AFmt) : State → Host.Outcome State Fault Refusal :=
  fixed (.pmov c f) c intLatency (pmovEffect f)

end Machine
end Sys2Proof
end

