-- ==== Sys2Proof/Machine/Transcend.lean ====
section
/-!
DEFINITION. The transcendentals, FRCP and FSQRT (R148, R153): the value that FPResult rounds.  FRCP is an exact quotient.
Square roots are exact where the root is rational, and otherwise a value strictly between the same two representable
neighbours.  The others are exact where R153 gives an exact value, and otherwise a rational number within 2^-600 of the
real one, which no format of the table can tell from it (log 12, DEDUCED).
-/
namespace Sys2Proof.Real

/-- Binary places of the fixed-point work. -/
abbrev places : Nat := 640

/-- 2^640. -/
def one : Int := (2 ^ places : Nat)

/-- A dyadic rational in fixed point, rounded down. -/
def ofRat (q : Rat) : Int := (q * (one : Rat)).floor

def toRat (x : Int) : Rat := mkRat x (2 ^ places)

def mul (a b : Int) : Int := (a * b) / one

/-- The sum of x^(2k+1) / (2k+1) with alternating signs (`alt`) or without: atan or atanh, for small x. -/
def atanSum (alt : Bool) (x2 : Int) : Nat → Nat → Int → Int → Int
  | 0, _, _, acc => acc
  | fuel + 1, k, pow, acc =>
    let t := pow / (2 * k + 1 : Nat)
    atanSum alt x2 fuel (k + 1) (mul pow x2) (if alt && k % 2 == 1 then acc - t else acc + t)

/-- atanh of x, |x| at most 1/3. -/
def atanh (x : Int) : Int := atanSum false (mul x x) 210 0 x 0

def atan (x : Int) (terms : Nat) : Int := atanSum true (mul x x) terms 0 x 0

/-- ln 2 = 2 atanh(1/3). -/
def ln2 : Int := 2 * atanh (one / 3)

/-- pi = 16 atan(1/5) - 4 atan(1/239). -/
def pi : Int := 16 * atan (one / 5) 145 - 4 * atan (one / 239) 45

/-- The Taylor sum of e^x, terms k to k + fuel. -/
def expSum (x : Int) : Nat → Nat → Int → Int → Int
  | 0, _, _, acc => acc
  | fuel + 1, k, t, acc => expSum x fuel (k + 1) (mul t x / (k + 1 : Nat)) (acc + t)

/-- 2^f for f from 0 to 1. -/
def exp2Frac (f : Int) : Int := expSum (mul f ln2) 130 0 one 0

/-- The alternating Taylor sum of sin or cos: t is the current term, n its degree. -/
def trigSum (x2 : Int) : Nat → Nat → Int → Int → Int
  | 0, _, _, acc => acc
  | fuel + 1, n, t, acc => trigSum x2 fuel (n + 2) (-(mul t x2) / ((n + 1) * (n + 2) : Nat)) (acc + t)

def sin (x : Int) : Int := trigSum (mul x x) 70 1 x 0
def cos (x : Int) : Int := trigSum (mul x x) 70 0 one 0

/-- 2^y for a fixed-point y. -/
def exp2 (y : Int) : Rat :=
  let n := y / one
  toRat (exp2Frac (y - n * one)) * pow2 n

/-- The integer square root, rounded down, by bits from the top. -/
def isqrtBits (n : Nat) : Nat → Nat → Nat
  | 0, acc => acc
  | fuel + 1, acc =>
    let t := acc + 2 ^ fuel
    isqrtBits n fuel (if t * t ≤ n then t else acc)

def isqrt (n : Nat) : Nat := isqrtBits n (Nat.log2 n / 2 + 1) 0

/-- The root of a positive rational number: exact where it is rational, else within 2^-128 of itself, relatively. -/
def sqrt (q : Rat) : Rat :=
  let a := isqrt q.num.natAbs
  let b := isqrt q.den
  if a * a = q.num.natAbs ∧ b * b = q.den then mkRat a b
  else
    let k : Int := 128 - floorLog2 q / 2
    let n := (q * pow2 (2 * k)).floor.toNat
    ((isqrt n : Rat) + mkRat 1 2) * pow2 (-k)

end Sys2Proof.Real

namespace Sys2Proof

/-- The operations of one operand (R148). -/
inductive Fun1 where
  | rcp | rsq | sqrt | exp2 | log2 | sin | cos | tanh
deriving DecidableEq, Repr

/-- 1/a (R153). -/
def FP.rcp : FP → FP × Flags
  | .nan s => (.nan s, .none)
  | .inf s => (.fin s 0, .none)
  | .fin s m => if m = 0 then (.inf s, .DZ) else (.fin s (1 / m), .none)

/-- 1/sqrt a. -/
def FP.rsq : FP → FP × Flags
  | .nan s => (.nan s, .none)
  | .inf s => if s then (.nan false, .NV) else (.fin false 0, .none)
  | .fin s m =>
    if m = 0 then (.inf s, .DZ) else if s then (.nan false, .NV) else (.fin false (1 / Real.sqrt m), .none)

/-- sqrt a. -/
def FP.sqrt : FP → FP × Flags
  | .nan s => (.nan s, .none)
  | .inf s => if s then (.nan false, .NV) else (.inf false, .none)
  | .fin s m =>
    if m = 0 then (.fin s 0, .none) else if s then (.nan false, .NV) else (.fin false (Real.sqrt m), .none)

/-- 2^a.  Beyond 2^11 every format of the entry overflows or underflows, so the exponent stops there. -/
def FP.exp2 : FP → FP × Flags
  | .nan s => (.nan s, .none)
  | .inf s => (if s then .fin false 0 else .inf false, .none)
  | .fin s m =>
    let q := if s then -m else m
    if 2048 ≤ m then (.fin false (pow2 (if s then -2048 else 2048)), .none)
    else if q.den = 1 then (.fin false (pow2 q.num), .none)
    else
      let n := q.floor
      (.fin false (Real.toRat (Real.exp2Frac (Real.ofRat (q - n))) * pow2 n), .none)

/-- log2 a. -/
def FP.log2 : FP → FP × Flags
  | .nan s => (.nan s, .none)
  | .inf s => if s then (.nan false, .NV) else (.inf false, .none)
  | .fin s m =>
    if m = 0 then (.inf true, .DZ)
    else if s then (.nan false, .NV)
    else
      let e := floorLog2 m
      let x := m / pow2 e
      if x = 1 then (FP.ofInt e, .none)
      else
        let l := 2 * Real.atanh (Real.ofRat ((x - 1) / (x + 1)))
        (FP.ofRat (mkRat l (Real.ln2).toNat + e), .none)

/-- sin(pi x) for 0 < x < 1/2 or 1/2 < x < 1. -/
def sinPiCore (x : Rat) : Rat :=
  let y := if mkRat 1 2 < x then 1 - x else x
  if mkRat 1 4 < y then Real.toRat (Real.cos (Real.mul Real.pi (Real.ofRat (mkRat 1 2 - y))))
  else Real.toRat (Real.sin (Real.mul Real.pi (Real.ofRat y)))

/-- sin(pi q), q at least 0: its sign and magnitude, `none` at an integer. -/
def sinPi (q : Rat) : Option (Bool × Rat) :=
  let r := q - 2 * ((q / 2).floor : Rat)
  let neg := decide (1 < r)
  let x := if 1 ≤ r then r - 1 else r
  if x = 0 then none
  else if x = mkRat 1 2 then some (neg, 1)
  else some (neg, sinPiCore x)

/-- sin(pi a): a zero has the sign of a. -/
def FP.sin : FP → FP × Flags
  | .nan s => (.nan s, .none)
  | .inf _ => (.nan false, .NV)
  | .fin s m =>
    match sinPi m with
    | none => (.fin s 0, .none)
    | some (n, v) => (.fin (s != n) v, .none)

/-- cos(pi a) = sin(pi (|a| + 1/2)); its zeros are +0. -/
def FP.cos : FP → FP × Flags
  | .nan s => (.nan s, .none)
  | .inf _ => (.nan false, .NV)
  | .fin _ m =>
    match sinPi (m + mkRat 1 2) with
    | none => (.fin false 0, .none)
    | some (n, v) => (.fin n v, .none)

/-- tanh a = 1 - 2 / (e^2a + 1); from 256 on, a value between its neighbours just below 1. -/
def FP.tanh : FP → FP × Flags
  | .nan s => (.nan s, .none)
  | .inf s => (.fin s 1, .none)
  | .fin s m =>
    if m = 0 then (.fin s 0, .none)
    else if 256 ≤ m then (.fin s (1 - pow2 (-Real.places)), .none)
    else
      let e := Real.exp2 (Real.ofRat (2 * m) * Real.one / Real.ln2)
      (.fin s ((e - 1) / (e + 1)), .none)

/-- The value of an operation and the flags its special inputs raise (R153). -/
def Fun1.apply : Fun1 → FP → FP × Flags
  | .rcp => FP.rcp
  | .rsq => FP.rsq
  | .sqrt => FP.sqrt
  | .exp2 => FP.exp2
  | .log2 => FP.log2
  | .sin => FP.sin
  | .cos => FP.cos
  | .tanh => FP.tanh

end Sys2Proof
end

