-- ==== Sys2Proof/Machine/Float.lean ====
section
/-!
DEFINITION. Floating-point instructions (R148 to R154): the exact value of each, rounded once by FPResult, element by element
on packed types.
-/
namespace Sys2Proof

/-! ### Elements and modifiers -/

/-- Width of an element of a floating-point type (R91). -/
def Ty.elemWidth (t : Ty) : Nat := t.ff.width

/-- The bits of element i. -/
def Ty.elem (t : Ty) (v : W64) (i : Nat) : Nat := v.toNat / 2 ^ (t.elemWidth * i) % 2 ^ t.elemWidth

/-- Elements joined, from the low end; the rest of the register is zero (R91). -/
def Ty.joinElems (t : Ty) (es : List Nat) : W64 :=
  BitVec.ofNat 64 ((es.mapIdx fun i e => e * 2 ^ (t.elemWidth * i)).foldl (· + ·) 0)

/-- Absolute value, then negation, on the bits: a NaN keeps its payload (R60). -/
def FF.modify (t : FF) (abs neg : Bool) (bits : Nat) : Nat :=
  let s := 2 ^ (t.width - 1)
  let b := if abs then bits % s else bits
  if neg then (if s ≤ b then b - s else b + s) else b

/-- The modifiers of a format-A word (R59). -/
def AFmt.mods (f : AFmt) : Mods := if f.modv then Mods.ofWord f.ops.imm else Mods.none

/-- What FPResult takes from the modifiers and %fmode (R59, R93). -/
def AFmt.fpMod (f : AFmt) (fmode : W32) : FPMod :=
  { mode := roundSel f.mods.rnd.toNat fmode, scale := f.mods.scale.toInt, clamp := f.mods.clamp.toNat,
    ftz := fmodeFtz fmode }

/-- An operation on each element, with the union of the flags (R91). -/
def Ty.mapElems (t : Ty) (g : Nat → Nat × Flags) : W64 × Flags :=
  let rs := (List.range t.elems).map g
  (t.joinElems (rs.map (·.1)), Flags.union (rs.map (·.2)))

/-- Element i of SRCA, SRCB or SRCC after its modifiers: bits. -/
def AFmt.aElem (f : AFmt) (t : Ty) (v : W64) (i : Nat) : Nat := t.ff.modify f.mods.absA f.mods.negA (t.elem v i)
def AFmt.bElem (f : AFmt) (t : Ty) (v : W64) (i : Nat) : Nat := t.ff.modify f.mods.absB f.mods.negB (t.elem v i)
def AFmt.cElem (f : AFmt) (t : Ty) (v : W64) (i : Nat) : Nat := t.ff.modify f.mods.absC f.mods.negC (t.elem v i)

/-- The value of an element's bits, with FTZ (R95). -/
def Ty.fp (t : Ty) (ftz : Bool) (bits : Nat) : FP := (t.ff.val bits).flush t.ff ftz

/-! ### Exact values (R148, R149) -/

/-- A value to be rounded and the flags of its operands. -/
abbrev Exact := FP × Flags

def exactAdd (mode : RMode) (a b : FP) : Exact :=
  let s := FP.sum mode [a, b]
  (s.1, (snanFlag [a, b]).or (Flags.when s.2 .NV))

def exactMul (a b : FP) : Exact :=
  let p := a.mul b
  (p.1, (snanFlag [a, b]).or (Flags.when p.2 .NV))

/-- A sum of products and a term: a product of 0 and infinity gives NaN with NV, whatever the term.  Opposite
infinities beside a NaN operand raise no NV of their own (R149; log 76, DESIGN CHOICE). -/
def exactDot (mode : RMode) (ps : List (FP × FP)) (c : FP) : Exact :=
  let prods := ps.map fun p => p.1.mul p.2
  let ops := c :: ps.flatMap fun p => [p.1, p.2]
  let s := FP.sum mode (prods.map (·.1) ++ [c])
  let bad := prods.any (·.2)
  (if bad then .nan false else s.1, (snanFlag ops).or (Flags.when (bad || s.2) .NV))

/-- a * 2^b.  Beyond 2^13 in magnitude every finite a of every format overflows or underflows as at 2^13. -/
def exactScale (a : FP) (b : Int) : Exact :=
  let k := if b < -8192 then -8192 else if 8192 < b then 8192 else b
  (if a.isZero then a else a.scale k, snanFlag [a])

/-- FPResult of an exact value, with the flags of the operands. -/
def Exact.result (e : Exact) (t : FF) (md : FPMod) : Nat × Flags :=
  let r := fpResult t e.1 md
  (r.1, r.2.or e.2)

/-- FRND (R154): an integral value under the mode, then CLAMP; NX when the result differs from a. -/
def rndResult (t : FF) (a : FP) (md : FPMod) : Nat × Flags :=
  let v : FP := match a with
    | .fin s m => .fin s (roundNat m s md.mode : Rat)
    | v => v
  let w := t.clamp md.clamp v
  ((fpResult t w { md with scale := 0, clamp := 0, ftz := false }).1,
    (snanFlag [a]).or (Flags.when (!a.isNan && w != a) .NX))

/-- FCMP (R151). -/
def fpCmp (code : Nat) (a b : FP) : Bool × Flags :=
  let un := a.isNan || b.isNan
  let v := match code with
    | 0 => a.eq b
    | 1 => !a.eq b
    | 2 => a.lt b
    | 3 => a.lt b || a.eq b
    | 4 => b.lt a
    | 5 => b.lt a || a.eq b
    | 6 => un
    | _ => !un
  let nv := if 2 ≤ code ∧ code ≤ 5 then un else a.isSnan || b.isSnan
  (v, Flags.when nv .NV)

/-- FCLASS (R152): one bit of ten. -/
def fpClass (t : FF) (bits : Nat) : Nat :=
  match t.val bits with
  | .nan true => 2 ^ 8
  | .nan false => 2 ^ 9
  | .inf s => if s then 1 else 2 ^ 7
  | .fin s m =>
    if m = 0 then (if s then 2 ^ 3 else 2 ^ 4)
    else if m < t.minN then (if s then 2 ^ 2 else 2 ^ 5)
    else (if s then 2 ^ 1 else 2 ^ 6)

/-! ### Values of whole registers -/

/-- One operand, element by element. -/
def fp1 (f : AFmt) (fmode : W32) (g : FP → Exact) (a : W64) : W64 × Flags :=
  f.ty.mapElems fun i => (g (f.ty.fp (fmodeFtz fmode) (f.aElem f.ty a i))).result f.ty.ff (f.fpMod fmode)

/-- Two operands. -/
def fp2 (f : AFmt) (fmode : W32) (g : FP → FP → Exact) (a b : W64) : W64 × Flags :=
  f.ty.mapElems fun i =>
    (g (f.ty.fp (fmodeFtz fmode) (f.aElem f.ty a i)) (f.ty.fp (fmodeFtz fmode) (f.bElem f.ty b i))).result f.ty.ff
      (f.fpMod fmode)

def faddVal (f : AFmt) (fmode : W32) (a b : W64) : W64 × Flags := fp2 f fmode (exactAdd (f.fpMod fmode).mode) a b
def fmulVal (f : AFmt) (fmode : W32) (a b : W64) : W64 × Flags := fp2 f fmode exactMul a b

def ffmaVal (f : AFmt) (fmode : W32) (a b c : W64) : W64 × Flags :=
  let z := fmodeFtz fmode
  f.ty.mapElems fun i =>
    (exactDot (f.fpMod fmode).mode [(f.ty.fp z (f.aElem f.ty a i), f.ty.fp z (f.bElem f.ty b i))]
      (f.ty.fp z (f.cElem f.ty c i))).result f.ty.ff (f.fpMod fmode)

/-- FDOT2: a0 * b0 + a1 * b1 + c, halves of STYPE, c of f32. -/
def fdot2Val (f : AFmt) (fmode : W32) (a b c : W64) : W64 × Flags :=
  let half := fun (i : Nat) => (f.sty.fp false (f.aElem f.sty a i), f.sty.fp false (f.bElem f.sty b i))
  let r := (exactDot (f.fpMod fmode).mode [half 0, half 1] (Ty.f32.fp (fmodeFtz fmode) (f.cElem .f32 c 0))).result .f32
    (f.fpMod fmode)
  (BitVec.ofNat 64 r.1, r.2)

def fminmaxVal (f : AFmt) (fmode : W32) (isMax : Bool) (a b : W64) : W64 × Flags :=
  f.ty.mapElems fun i => f.ty.ff.minmax isMax (fmodeFtz fmode) (f.aElem f.ty a i) (f.bElem f.ty b i)

def fcmpVal (f : AFmt) (fmode : W32) (a b : W64) : Bool × Flags :=
  fpCmp f.sub.toNat (f.ty.fp (fmodeFtz fmode) (f.aElem f.ty a 0)) (f.ty.fp (fmodeFtz fmode) (f.bElem f.ty b 0))

def fclassVal (f : AFmt) (a : W64) : W64 := BitVec.ofNat 64 (fpClass f.ty.ff (f.ty.elem a 0))

/-- A function of one operand: NV for a signalling NaN, the flags of its special inputs (R149, R153). -/
def fun1Val (op : Fun1) (f : AFmt) (fmode : W32) (a : W64) : W64 × Flags :=
  fp1 f fmode (fun v => ((op.apply v).1, (op.apply v).2.or (snanFlag [v]))) a

def frndVal (f : AFmt) (fmode : W32) (a : W64) : W64 × Flags :=
  f.ty.mapElems fun i => rndResult f.ty.ff (f.ty.fp (fmodeFtz fmode) (f.aElem f.ty a i)) (f.fpMod fmode)

def fscaleVal (f : AFmt) (fmode : W32) (a : W64) (b : Int) : W64 × Flags := fp1 f fmode (fun v => exactScale v b) a

namespace Machine

/-- The lanes that compute: the active ones, or the lowest of them for a uniform destination (R130). -/
def Ctx.computing (x : Ctx) (d : Operand) : List Nat :=
  if d.isUni then (if x.active = 0 then [] else [x.lead]) else x.lanes

/-- A value with flags per lane into DST (R130, N29). -/
def fpEffect (d : Operand) (wide : Bool) (v : State → Ctx → Nat → W64 × Flags) (s : State) (x : Ctx) :
    List PWrite × Flags :=
  (s.writesTo x d wide fun L => (v s x L).1, Flags.union ((x.computing d).map fun L => (v s x L).2))

/-- Latency of the basic floating-point instructions (R77). -/
def fpLatency (t : Ty) : Nat := if t = .f64 then 8 else 6

/-- Latency of the transcendentals, FRCP and FSQRT (R77). -/
abbrev funLatency : Nat := 16

def execFadd (c : Ctl) (f : AFmt) : State → Host.Outcome State Fault Refusal :=
  fixed (.fadd c f) c (fpLatency f.ty)
    (fpEffect f.ops.d f.ty.wide fun s x L => faddVal f x.st.fmode (s.aVal x f L) (s.bVal x f L))

def execFmul (c : Ctl) (f : AFmt) : State → Host.Outcome State Fault Refusal :=
  fixed (.fmul c f) c (fpLatency f.ty)
    (fpEffect f.ops.d f.ty.wide fun s x L => fmulVal f x.st.fmode (s.aVal x f L) (s.bVal x f L))

def execFfma (c : Ctl) (f : AFmt) : State → Host.Outcome State Fault Refusal :=
  fixed (.ffma c f) c (fpLatency f.ty)
    (fpEffect f.ops.d f.ty.wide fun s x L => ffmaVal f x.st.fmode (s.aVal x f L) (s.bVal x f L) (s.cVal x f L))

def execFmin (c : Ctl) (f : AFmt) : State → Host.Outcome State Fault Refusal :=
  fixed (.fmin c f) c (fpLatency f.ty)
    (fpEffect f.ops.d f.ty.wide fun s x L => fminmaxVal f x.st.fmode false (s.aVal x f L) (s.bVal x f L))

def execFmax (c : Ctl) (f : AFmt) : State → Host.Outcome State Fault Refusal :=
  fixed (.fmax c f) c (fpLatency f.ty)
    (fpEffect f.ops.d f.ty.wide fun s x L => fminmaxVal f x.st.fmode true (s.aVal x f L) (s.bVal x f L))

/-- The predicate of each active lane, and the flags. -/
def fcmpEffect (f : AFmt) (s : State) (x : Ctx) : List PWrite × Flags :=
  let v := fun L => fcmpVal f x.st.fmode (s.aVal x f L) (s.bVal x f L)
  (predWrites x f.ops.d fun L => (v L).1, Flags.union (x.lanes.map fun L => (v L).2))

def execFcmp (c : Ctl) (f : AFmt) : State → Host.Outcome State Fault Refusal :=
  fixed (.fcmp c f) c (fpLatency f.ty) (fcmpEffect f)

def execFclass (c : Ctl) (f : AFmt) : State → Host.Outcome State Fault Refusal :=
  fixed (.fclass c f) c intLatency (int32Effect f fun s x L => fclassVal f (s.aVal x f L))

def execFrcp (c : Ctl) (f : AFmt) : State → Host.Outcome State Fault Refusal :=
  fixed (.frcp c f) c funLatency (fpEffect f.ops.d f.ty.wide fun s x L => fun1Val .rcp f x.st.fmode (s.aVal x f L))

def execFrsq (c : Ctl) (f : AFmt) : State → Host.Outcome State Fault Refusal :=
  fixed (.frsq c f) c funLatency (fpEffect f.ops.d f.ty.wide fun s x L => fun1Val .rsq f x.st.fmode (s.aVal x f L))

def execFsqrt (c : Ctl) (f : AFmt) : State → Host.Outcome State Fault Refusal :=
  fixed (.fsqrt c f) c funLatency (fpEffect f.ops.d f.ty.wide fun s x L => fun1Val .sqrt f x.st.fmode (s.aVal x f L))

def execFexp2 (c : Ctl) (f : AFmt) : State → Host.Outcome State Fault Refusal :=
  fixed (.fexp2 c f) c funLatency (fpEffect f.ops.d f.ty.wide fun s x L => fun1Val .exp2 f x.st.fmode (s.aVal x f L))

def execFlog2 (c : Ctl) (f : AFmt) : State → Host.Outcome State Fault Refusal :=
  fixed (.flog2 c f) c funLatency (fpEffect f.ops.d f.ty.wide fun s x L => fun1Val .log2 f x.st.fmode (s.aVal x f L))

def execFsin (c : Ctl) (f : AFmt) : State → Host.Outcome State Fault Refusal :=
  fixed (.fsin c f) c funLatency (fpEffect f.ops.d f.ty.wide fun s x L => fun1Val .sin f x.st.fmode (s.aVal x f L))

def execFcos (c : Ctl) (f : AFmt) : State → Host.Outcome State Fault Refusal :=
  fixed (.fcos c f) c funLatency (fpEffect f.ops.d f.ty.wide fun s x L => fun1Val .cos f x.st.fmode (s.aVal x f L))

def execFtanh (c : Ctl) (f : AFmt) : State → Host.Outcome State Fault Refusal :=
  fixed (.ftanh c f) c funLatency (fpEffect f.ops.d f.ty.wide fun s x L => fun1Val .tanh f x.st.fmode (s.aVal x f L))

def execFrnd (c : Ctl) (f : AFmt) : State → Host.Outcome State Fault Refusal :=
  fixed (.frnd c f) c (fpLatency f.ty) (fpEffect f.ops.d f.ty.wide fun s x L => frndVal f x.st.fmode (s.aVal x f L))

def execFscale (c : Ctl) (f : AFmt) : State → Host.Outcome State Fault Refusal :=
  fixed (.fscale c f) c (fpLatency f.ty)
    (fpEffect f.ops.d f.ty.wide fun s x L =>
      fscaleVal f x.st.fmode (s.aVal x f L) (readInt true 32 (s.b32 x f L)))

def execFdot2 (c : Ctl) (f : AFmt) : State → Host.Outcome State Fault Refusal :=
  fixed (.fdot2 c f) c (fpLatency f.ty)
    (fpEffect f.ops.d false fun s x L =>
      fdot2Val f x.st.fmode (s.operand x f.sty false f.ops.a f.ops.imm L) (s.operand x f.sty false f.ops.b f.ops.imm L)
        (s.operand x .f32 false f.ops.c f.ops.imm L))

end Machine
end Sys2Proof
end

