-- ==== Sys2Proof/Machine/Convert.lean ====
section
/-!
DEFINITION. Conversion and quantisation (R155 to R160): values between types, shared-exponent lane words, packed elements.
-/
namespace Sys2Proof

/-! ### CVT (R155) -/

/-- The bits of a converted value: every one of the four rows of R155. -/
def cvtVal (f : AFmt) (fmode : W32) (a : W64) : W64 × Flags :=
  let md := f.fpMod fmode
  let fl := f.sty.fp (fmodeFtz fmode) (f.aElem f.sty a 0)
  match f.ty.isInt, f.sty.isInt with
  | true, true => (f.ty.lim (f.sub == 1) (f.sty.int a), .none)
  | true, false =>
    let r := fpToInt f.ty.signed f.ty.bits (fl.scale md.scale) md.mode
    (f.ty.wrap r.1, r.2.or (snanFlag [fl]))
  | false, true =>
    let r := fpResult f.ty.ff (FP.ofInt (f.sty.int a)) md
    (BitVec.ofNat 64 r.1, r.2)
  | false, false =>
    let r := Exact.result (fl, snanFlag [fl]) f.ty.ff md
    (BitVec.ofNat 64 r.1, r.2)

/-! ### Shared-exponent lane words (R156 to R158) -/

/-- The format that SUB bits 1:0 select. -/
def sxOfSub (sub : BitVec 4) : Fmt :=
  match (sub.extractLsb' 0 2).toNat with
  | 0 => .sx3
  | 1 => .sx5
  | _ => .sx8

/-- The value of a lane's source. -/
def AFmt.sxSource (f : AFmt) (fmode : W32) (a : W64) : FP := f.sty.fp (fmodeFtz fmode) (f.sty.elem a 0)

/-- QSCALE of element i of a group (R157). -/
def qscaleVal (fmt : Fmt) (xs : List FP) (i : Nat) : W64 × Flags :=
  let sc := sxChoose fmt.sxW xs
  ((sxWord sc.e (sc.m.getD (i / 4) 0) 0).zeroExtend 64, snanFlag [xs.getD i FP.zero])

/-- QSX of element i under the group's own scale (R157). -/
def qsxVal (fmt : Fmt) (xs : List FP) (i : Nat) : W64 × Flags :=
  let sc := sxChoose fmt.sxW xs
  let m := sc.m.getD (i / 4) 0
  let el := sxElem fmt.sxW sc.e m (xs.getD i FP.zero)
  ((sxWord sc.e m el.1).zeroExtend 64, el.2)

/-- QSX of a value under a given scale (R157). -/
def qsxGiven (fmt : Fmt) (x : FP) (word : W32) : W64 × Flags :=
  let e := sxWordE word
  let m := sxWordM word
  let el := sxElem fmt.sxW e m x
  ((sxWord e m el.1).zeroExtend 64, el.2)

/-- A decoded value under the modifiers A (R60). -/
def FP.modify (v : FP) (abs neg : Bool) : FP :=
  match v with
  | .nan s => .nan s
  | .inf s => .inf ((if abs then false else s) != neg)
  | .fin s m => .fin ((if abs then false else s) != neg) m

/-- DQSX (R158). -/
def dqsxVal (f : AFmt) (fmode : W32) (a : W64) : W64 × Flags :=
  let w := loWord a
  let v := (sxVal (sxOfSub f.sub).sxW (sxWordE w) (sxWordM w) (w.extractLsb' 0 8).toNat).modify f.mods.absA f.mods.negA
  let r := fpResult f.ty.ff v (f.fpMod fmode)
  (BitVec.ofNat 64 r.1, r.2)

/-! ### Packed elements (R159, R160) -/

/-- Width of an element of a packed type. -/
def Ty.packWidth (t : Ty) : Nat := 32 / t.elems

/-- The conversion of one PACK source: the element's bits and flags. -/
def packElem (f : AFmt) (fmode : W32) (bits : Nat) : Nat × Flags :=
  if f.ty.packedFloat then
    let v := Ty.f32.fp (fmodeFtz fmode) bits
    Exact.result (v, snanFlag [v]) f.ty.ff (f.fpMod fmode)
  else (wrapInt f.ty.packWidth (satInt true f.ty.packWidth (readInt true 32 bits)), .none)

/-- One element of a register replaced. -/
def setElem (w i : Nat) (v : W32) (e : Nat) : W32 :=
  let old := v.toNat / 2 ^ (w * i) % 2 ^ w
  BitVec.ofNat 32 (v.toNat - old * 2 ^ (w * i) + e * 2 ^ (w * i))

/-- PACK (R159). -/
def packVal (f : AFmt) (fmode : W32) (a b c : W64) : W64 × Flags :=
  let k := f.sub.toNat
  let w := f.ty.packWidth
  let x := packElem f fmode (f.aElem .f32 a 0)
  let y := packElem f fmode (f.bElem .f32 b 0)
  let base := if f.ty.elems = 2 then 0 else loWord c
  ((setElem w (2 * k + 1) (setElem w (2 * k) base x.1) y.1).zeroExtend 64, x.2.or y.2)

/-- UNPACK (R160). -/
def unpackVal (f : AFmt) (fmode : W32) (a : W64) : W64 × Flags :=
  let w := f.sty.packWidth
  let e := a.toNat / 2 ^ (w * f.sub.toNat) % 2 ^ w
  if f.sty.packedFloat then
    let v := f.sty.ff.val e
    let r := Exact.result (v, snanFlag [v]) .f32 { FPMod.rne with ftz := fmodeFtz fmode }
    (BitVec.ofNat 64 r.1, r.2)
  else (BitVec.ofNat 64 (wrapInt 32 (readInt (f.ty == .i32) w e)), .none)

namespace Machine

/-- Latency of every conversion (R77). -/
abbrev convLatency : Nat := 6

/-- The sixteen values of the group of a lane: those of its active lanes, +0 elsewhere (R157). -/
def Ctx.group (x : Ctx) (v : Nat → FP) (L : Nat) : List FP :=
  (List.range 16).map fun i => if x.active.getLsbD (L / 16 * 16 + i) then v (L / 16 * 16 + i) else FP.zero

/-- QSCALE and QSX work on groups: a strand of width 8 traps ILLEGAL (R156). -/
def Entry.groups : Entry := { Entry.plain with illegal := fun _ x => x.blk.width < 16 }

/-- The source operand of a conversion, at STYPE's width. -/
def State.srcVal (s : State) (x : Ctx) (f : AFmt) (L : Nat) : W64 := s.opTy x f.sty f.ops.a f.ops.imm L

def execCvt (c : Ctl) (f : AFmt) : State → Host.Outcome State Fault Refusal :=
  fixed (.cvt c f) c convLatency
    (fpEffect f.ops.d f.ty.wide fun s x L => cvtVal f x.st.fmode (s.srcVal x f L))

def execQscale (c : Ctl) (f : AFmt) : State → Host.Outcome State Fault Refusal :=
  issue (.qscale c f) c Entry.groups (fixedBody convLatency
    (fpEffect f.ops.d false fun s x L =>
      qscaleVal (sxOfSub f.sub) (x.group (fun M => f.sxSource x.st.fmode (s.srcVal x f M)) L) (L % 16)))

def execQsx (c : Ctl) (f : AFmt) : State → Host.Outcome State Fault Refusal :=
  issue (.qsx c f) c Entry.groups (fixedBody convLatency
    (fpEffect f.ops.d false fun s x L =>
      if f.sub.getLsbD 2 then
        qsxGiven (sxOfSub f.sub) (f.sxSource x.st.fmode (s.srcVal x f L)) (loWord (s.operand x .b32 false f.ops.b f.ops.imm L))
      else qsxVal (sxOfSub f.sub) (x.group (fun M => f.sxSource x.st.fmode (s.srcVal x f M)) L) (L % 16)))

def execDqsx (c : Ctl) (f : AFmt) : State → Host.Outcome State Fault Refusal :=
  fixed (.dqsx c f) c convLatency
    (fpEffect f.ops.d f.ty.wide fun s x L => dqsxVal f x.st.fmode (s.operand x .b32 false f.ops.a f.ops.imm L))

def execPack (c : Ctl) (f : AFmt) : State → Host.Outcome State Fault Refusal :=
  fixed (.pack c f) c convLatency
    (fpEffect f.ops.d false fun s x L =>
      packVal f x.st.fmode (s.operand x f.sty false f.ops.a f.ops.imm L) (s.operand x f.sty false f.ops.b f.ops.imm L)
        (s.operand x f.ty false f.ops.c f.ops.imm L))

def execUnpack (c : Ctl) (f : AFmt) : State → Host.Outcome State Fault Refusal :=
  fixed (.unpack c f) c convLatency
    (fpEffect f.ops.d false fun s x L => unpackVal f x.st.fmode (s.operand x f.sty false f.ops.a f.ops.imm L))

end Machine
end Sys2Proof
end

