-- ==== Sys2Proof/Machine/CrossLane.lean ====
section
/-!
DEFINITION. Cross-lane instructions (R161 to R167): values over the members, the guard-true lanes of the issuing fragment.
-/
namespace Sys2Proof.Machine

/-- Latency of every cross-lane instruction (R77). -/
abbrev crossLatency : Nat := 8

/-- The source lane of a shuffle; `none` below lane 0 (R162). -/
def shflLane (sub : BitVec 4) (L b : Nat) : Option Nat :=
  match sub.toNat with
  | 0 => some b
  | 1 => if b ≤ L then some (L - b) else none
  | 2 => some (L + b)
  | _ => some (L ^^^ b)

/-- SHFL in lane L (R162). -/
def State.shflVal (s : State) (x : Ctx) (f : AFmt) (L : Nat) : W64 :=
  match shflLane f.sub L (s.op32 x f.ops.b f.ops.imm L) with
  | some j => if j < 64 && x.active.getLsbD j then s.aVal x f j else s.cVal x f L
  | none => s.cVal x f L

/-- MATCH in lane L (R163). -/
def State.matchVal (s : State) (x : Ctx) (f : AFmt) (L : Nat) : W64 :=
  laneSet fun j => x.active.getLsbD j && s.aVal x f j == s.aVal x f L

/-- The members whose predicate is 1 (R164). -/
def Ctx.ballot (x : Ctx) (p : Nat) : W64 := laneSet fun j => x.active.getLsbD j && x.pred p j

/-- `.all`, `.any` and `.eq` (R164). -/
def Ctx.voteVal (x : Ctx) (sub : BitVec 4) (p : Nat) : Bool :=
  match sub.toNat with
  | 0 => x.lanes.all fun j => x.pred p j
  | 1 => x.lanes.any fun j => x.pred p j
  | _ => x.lanes.all fun j => x.pred p j == x.pred p x.lead

/-! ### Reductions (R165, R166) -/

/-- The identity of an operator (R166). -/
def reduxIdentity (t : Ty) (op : Nat) : W64 :=
  match op with
  | 1 => if t = .f32 then BitVec.ofNat 64 (FF.f32.infBits false) else t.wrap (intMax t.signed t.bits)
  | 2 => if t = .f32 then BitVec.ofNat 64 (FF.f32.infBits true) else t.wrap (intMin t.signed t.bits)
  | 3 => t.cut (BitVec.allOnes 64)
  | _ => 0

/-- An integer or bit operator. -/
def reduxInt (t : Ty) (op : Nat) (a b : W64) : W64 :=
  match op with
  | 0 => intAdd t false a b
  | 1 => intMin' t a b
  | 2 => intMax' t a b
  | 3 => a &&& b
  | 4 => a ||| b
  | _ => a ^^^ b

/-- A minimum or maximum over f32 values: the first against itself, then R150 on and on (R165). -/
def reduxMinmax (isMax ftz : Bool) (a : Nat) (rest : List Nat) : Nat × Flags :=
  rest.foldl (fun acc b =>
    let r := FF.f32.minmax isMax ftz acc.1 b
    (r.1, acc.2.or r.2)) (FF.f32.minmax isMax ftz a a)

/-- An f32 sum formed exactly and rounded once; opposite infinities beside a NaN raise no NV of their own (R165; log 77, DESIGN
CHOICE). -/
def reduxSum (f : AFmt) (fmode : W32) (vs : List W64) : Nat × Flags :=
  let xs := vs.map fun v => Ty.f32.fp (fmodeFtz fmode) v.toNat
  let md := f.fpMod fmode
  let r := FP.sum md.mode xs
  Exact.result (r.1, (snanFlag xs).or (Flags.when r.2 .NV)) .f32 md

/-- An operator over a list of values; the identity for none. -/
def reduxVal (f : AFmt) (op : Nat) (fmode : W32) (vs : List W64) : W64 × Flags :=
  match vs with
  | [] => (reduxIdentity f.ty op, .none)
  | a :: rest =>
    if f.ty = .f32 then
      let r := if op = 0 then reduxSum f fmode (a :: rest)
        else reduxMinmax (op == 2) (fmodeFtz fmode) a.toNat (rest.map (·.toNat))
      (BitVec.ofNat 64 r.1, r.2)
    else (rest.foldl (reduxInt f.ty op) a, .none)

/-- Member values up to a lane, it included or not. -/
def State.prefixVals (s : State) (x : Ctx) (f : AFmt) (excl : Bool) (L : Nat) : List W64 :=
  (x.lanes.filter fun j => if excl then j < L else j ≤ L).map fun j => s.aVal x f j

/-- A value in each lane that is written, and no flag. -/
def laneEffect (f : AFmt) (wide : Bool) (v : State → Ctx → Nat → W64) (s : State) (x : Ctx) : List PWrite × Flags :=
  (s.writesTo x f.ops.d wide (v s x), .none)

/-- VOTE's result: the ballot, or a predicate (R164). -/
def voteEffect (f : AFmt) (s : State) (x : Ctx) : List PWrite × Flags :=
  (if f.sub == 3 then s.writesTo x f.ops.d true fun _ => x.ballot f.ops.a.num
    else predWrites x f.ops.d fun _ => x.voteVal f.sub f.ops.a.num, .none)

def execShfl (c : Ctl) (f : AFmt) : State → Host.Outcome State Fault Refusal :=
  fixed (.shfl c f) c crossLatency (laneEffect f f.ty.wide fun s x => s.shflVal x f)

def execMatchAny (c : Ctl) (f : AFmt) : State → Host.Outcome State Fault Refusal :=
  fixed (.matchAny c f) c crossLatency (laneEffect f true fun s x => s.matchVal x f)

def execVote (c : Ctl) (f : AFmt) : State → Host.Outcome State Fault Refusal :=
  fixed (.vote c f) c crossLatency (voteEffect f)

def execRedux (c : Ctl) (f : AFmt) : State → Host.Outcome State Fault Refusal :=
  fixed (.redux c f) c crossLatency
    (fpEffect f.ops.d f.ty.wide fun s x _ => reduxVal f f.sub.toNat x.st.fmode (x.lanes.map fun j => s.aVal x f j))

def execScan (c : Ctl) (f : AFmt) : State → Host.Outcome State Fault Refusal :=
  fixed (.scan c f) c crossLatency
    (fpEffect f.ops.d f.ty.wide fun s x L =>
      reduxVal f (f.sub.toNat % 8) x.st.fmode (s.prefixVals x f (f.sub.getLsbD 3) L))

/-- BCAST in lane L (R167). -/
def State.bcastVal (s : State) (x : Ctx) (f : AFmt) (L : Nat) : W64 :=
  let j := s.op32 x f.ops.b f.ops.imm L
  if j < 64 && x.active.getLsbD j then s.aVal x f j else s.cVal x f L

def execBcast (c : Ctl) (f : AFmt) : State → Host.Outcome State Fault Refusal :=
  fixed (.bcast c f) c crossLatency (laneEffect f f.ty.wide fun s x => s.bcastVal x f)

end Sys2Proof.Machine
end

