-- ==== Sys2Proof/Machine/Engine.lean ====
section
/-!
DEFINITION. The matrix engine (R106 to R109, R213 to R231): tiles with their checksums, planes, matrix operands, the twelve
instructions as they sign or issue, and the effect of each operation.
-/
namespace Sys2Proof
open Machine

/-! ### Tiles (R107, R218, R221) -/

/-- Element (i, j) of a tile. -/
def Machine.Tile.at (t : Tile) (i j : Nat) : W64 := t.elems.get 0 (64 * i + j)

/-- Its exact value. -/
def Machine.Tile.val (t : Tile) (bits : W64) : FP := if t.int then FP.ofInt bits.toInt else FF.f64.val bits.toNat

/-- The elements of line n: 0 to 63 are columns (SUMROW), 64 to 127 rows (SUMCOL). -/
def Machine.Tile.line (t : Tile) (n : Nat) : List W64 :=
  (List.range 64).map fun i => if n < 64 then t.at i n else t.at (n - 64) i

/-- The checksum of a line. -/
def Machine.Tile.sum (t : Tile) (n : Nat) : W64 := if n < 64 then t.sumrow.get 0 n else t.sumcol.get 0 (n - 64)

def Machine.Tile.setSum (t : Tile) (n : Nat) (v : W64) : Tile :=
  if n < 64 then { t with sumrow := t.sumrow.set 0 n v } else { t with sumcol := t.sumcol.set 0 (n - 64) v }

/-- The exact sum of a line and its absolute sum; `none` where an element is not finite. -/
def lineSums (l : List FP) : Option (Rat × Rat) :=
  l.foldl (fun acc v => match acc, v with
    | some (s, a), .fin n m => some (s + (if n then -m else m), a + m)
    | _, _ => none) (some (0, 0))

def ratAbs (q : Rat) : Rat := if q < 0 then -q else q

/-- A checksum against its line, within 2^-k of the absolute sum, or exactly in an INT64 tile.  A line with a non-finite
element is not checked, nor one whose sum FP64 cannot hold (log 20, DESIGN CHOICE). -/
def Machine.Tile.lineOk (t : Tile) (k n : Nat) : Bool :=
  if t.int then (t.line n).foldl (fun acc v => acc + v) 0#64 == t.sum n
  else
    match lineSums ((t.line n).map t.val) with
    | none => true
    | some (s, a) =>
      if FF.f64.maxF < ratAbs s then true
      else match FF.f64.val (t.sum n).toNat with
        | .fin g m => decide (ratAbs ((if g then -m else m) - s) ≤ a * pow2 (-(k : Int)))
        | _ => false

/-- Verification: every line within 2^-50, or exact (R221). -/
def Machine.Tile.verify (t : Tile) : Bool := (List.range 128).all fun n => t.lineOk 50 n

/-- What the bits of an engine instruction may depend on beside its tile: its FUNC and its operands (R109). -/
structure SumKey where
  func : List Nat
  operands : List W64
deriving DecidableEq, Repr

/-- The checksum that the adders keep for a line that was right: the free value where it meets the bound of R221, else the
exact sum rounded (log 20, DESIGN CHOICE). -/
def Machine.Tile.freshSum (t old : Tile) (n : Nat) (key : SumKey) : W64 :=
  if t.int then (t.line n).foldl (fun acc v => acc + v) 0#64
  else
    let v := Config.freeChecksum key.func key.operands (old.line n) (old.sum n) n
    if (t.setSum n v).lineOk 52 n then v
    else match lineSums ((t.line n).map t.val) with
      | some (s, _) => BitVec.ofNat 64 (fpResult .f64 (FP.ofRat s) .rne).1
      | none => v

/-- The checksum that the adders keep for a line that was wrong: the difference stays. -/
def driftSum (old new : Tile) (n : Nat) : W64 :=
  if new.int then old.sum n + (new.line n).foldl (fun acc v => acc + v) 0#64 - (old.line n).foldl (fun acc v => acc + v) 0#64
  else
    match lineSums ((old.line n).map old.val), lineSums ((new.line n).map new.val) with
    | some (s, _), some (s', _) =>
      BitVec.ofNat 64 (fpResult .f64 (FP.sum .rne [FF.f64.val (old.sum n).toNat, FP.ofRat (s' - s)]).1 .rne).1
    | _, _ => old.sum n

/-- Elements written by the engine; the checksums of their lines follow (R220, R270). -/
def Machine.Tile.write (t : Tile) (key : SumKey) (cells : List (Nat × W64)) : Tile :=
  let t' := { t with elems := cells.foldl (fun m c => m.set 0 c.1 c.2) t.elems }
  (List.range 128).foldl (fun (u : Tile) n =>
    if cells.any fun c => (if n < 64 then c.1 % 64 == n else c.1 / 64 == n - 64) then
      u.setSum n (if t.lineOk 50 n then t'.freshSum t n key else driftSum t t' n)
    else u) t'

/-- A tile written whole, in FP64 mode with OVF 0 and consistent checksums (R227). -/
def Machine.Tile.whole (key : SumKey) (v : Nat → W64) : Tile :=
  Tile.start.write key ((List.range 4096).map fun p => (p, v p))

def Machine.Engine.tile (e : Engine) (n : Nat) : Tile := e.tiles.get Tile.start n
def Machine.Engine.setTile (e : Engine) (n : Nat) (t : Tile) : Engine := { e with tiles := e.tiles.set Tile.start n t }
def Machine.Engine.kVal (e : Engine) (n : Nat) : FP := FF.f64.val (e.ks.get 0 n).toNat

/-! ### Planes (R217, R219) -/

/-- K of a plane format. -/
def planeK (f : Fmt) : Nat :=
  match f with
  | .int4 | .sx3 => 256
  | .e4m3 | .e5m2 | .int8 | .sx5 | .sx8 => 128
  | _ => 64

def Fmt.isIntFmt (f : Fmt) : Bool := f == .int4 || f == .int8

/-- The value of a weight. -/
def Machine.Plane.val (p : Plane) (k j : Nat) : FP :=
  let c := p.cells.get 0 (64 * k + j)
  if p.pf.isIntFmt then FP.ofInt c.toInt else FF.f32.val c.toNat

/-- The cell that holds a value exactly. -/
def planeCell (f : Fmt) (v : FP) : W32 :=
  if f.isIntFmt then
    match v with
    | .fin s m => BitVec.ofInt 32 (if s then -(m.floor) else m.floor)
    | _ => 0
  else BitVec.ofNat 32 (fpResult .f32 v .rne).1

def Machine.Plane.zero (f : Fmt) : Plane := { pf := f, k := 64, cells := [] }

/-! ### Accumulation (R107, R108) -/

/-- One group of an FP64 tile: one rounding. -/
def fpGroup (acc : FP) (ps : List FP) : FP :=
  FF.f64.val (fpResult .f64 (FP.sum .rne [acc, (FP.sum .rne ps).1]).1 .rne).1

/-- A product; a clipped element contributes an exact zero (R107), taken as +0 (log 92, DESIGN CHOICE). -/
def clipMul (a : Option FP) (b : FP) : FP :=
  match a with
  | some v => (FP.mul v b).1
  | none => FP.zero

/-- Sixteen products at a time, K steps. -/
def fpAccumulate (acc : FP) (K : Nat) (a : Nat → Option FP) (b : Nat → FP) : FP :=
  (List.range (K / 16)).foldl (fun acc g =>
    fpGroup acc ((List.range 16).map fun i => clipMul (a (16 * g + i)) (b (16 * g + i)))) acc

/-- The same in an INT64 tile, with its overflow. -/
def intAccumulate (acc : W64) (K : Nat) (a b : Nat → Int) : W64 × Bool :=
  (List.range (K / 16)).foldl (fun r g =>
    let s := r.1.toInt + (List.range 16).foldl (fun n i => n + a (16 * g + i) * b (16 * g + i)) 0
    (BitVec.ofInt 64 s, r.2 || decide (s < -(2 ^ 63)) || decide (2 ^ 63 - 1 < s))) (acc, false)

def FP.toInt (v : FP) : Int := v.toRat.floor

/-- FP64 bits of a value, rounded once. -/
def f64Bits (v : FP) : W64 := BitVec.ofNat 64 (fpResult .f64 v .rne).1

/-! ### Counts (R216) -/

namespace Machine

/-! ### What can go wrong in an operation (R214) -/

/-- An engine trap to be raised: its cause, address and code. -/
structure EngTrap where
  cause : Cause
  addr : W64
  code : W32
deriving DecidableEq, Repr

def EngTrap.at (c : Cause) (a : W64) : EngTrap := ⟨c, a, if c = .ecc then 0xFFFFFFFF#32 else 0⟩

/-- The lanes of a strand that signed. -/
def Capture.lanesIn (c : Capture) (sid : Nat) : Lanes :=
  (c.signers.filter fun g => g.strand == sid).foldl (fun m g => m ||| g.lanes) 0

/-- Every signing fragment traps, once for all its signing lanes, and the tokens are released; nothing else changes (R214).
The PC, and the word of an ILLEGAL, are the first signer's (log 68, DESIGN CHOICE). -/
def State.engineTrap (s : State) (b : Block) (c : Capture) (t : EngTrap) : State :=
  let mk := fun (m : Lanes) => if t.cause = .illegal then Trap.illegalWord m ((encode c.instr).getD 0)
    else Trap.of t.cause m t.addr t.code
  let s := if t.cause = .accchk then s.countQuad b.core b.quad 2
    else if t.cause = .ecc ∧ t.code ≠ 0xFFFFFFFF#32 then s.countQuad b.core b.quad 1 else s
  s.updBlock b.uid fun x =>
    ((c.signers.map (·.strand)).eraseDups.foldl (fun x sid => x.updStrand sid fun st => st.pendTrap (c.lanesIn sid) mk c.pc true)
      x).releaseSigners c.signers

def State.updEngine (s : State) (uid : Nat) (f : Engine → Engine) : State :=
  s.updBlock uid fun b => { b with eng := b.eng.map f }

def Block.engine (b : Block) : Engine :=
  b.eng.getD { need := 0, tiles := [], active := Plane.start, shadow := Plane.start, ks := [], istat := 0, rprev := 0, queue := [] }

/-! ### Soft errors in the engine's arrays (R268 to R270) -/

/-- An error of an array of the block: its place in the tile, plane or checksum that satisfies `p`. -/
def engErr (uid : Nat) (p : ErrLoc → Bool) (l : ErrLoc) : Bool :=
  (match l with
    | .plane u _ _ => u == uid
    | .tile u _ _ => u == uid
    | .checksum u _ _ => u == uid
    | .istat u => u == uid
    | .kreg u _ => u == uid
    | _ => false) && p l

/-- Corrected errors are written back and counted; an uncorrectable one raises ECC. -/
def State.engRead (s : State) (b : Block) (p : ErrLoc → Bool) : State × Bool :=
  (s.corrected b.core b.quad (engErr b.uid p), s.mem.errs.any fun e => !e.2 && engErr b.uid p e.1)

/-- Elements that an operation writes lose their errors. -/
def State.engWritten (s : State) (b : Block) (p : ErrLoc → Bool) : State := s.errsGone (engErr b.uid p)

def onTile (t : Nat) (p : Nat → Bool) : ErrLoc → Bool
  | .tile _ u e => u == t && p e
  | _ => false

def onSum (t : Nat) : ErrLoc → Bool
  | .checksum _ u _ => u == t
  | _ => false

def onKregs (p : Nat → Bool) : ErrLoc → Bool
  | .kreg _ n => p n
  | _ => false

def onIstat : ErrLoc → Bool
  | .istat _ => true
  | _ => false

def onPlane (shadow : Bool) : ErrLoc → Bool
  | .plane _ sh _ => sh == shadow
  | _ => false

/-- An uncorrectable error that the engine finds in its own array: the operand field of a tile or a coefficient register (R316). -/
def EngTrap.array (n : Nat) : EngTrap := ⟨.ecc, 0, BitVec.ofNat 32 (0xC00 + n)⟩

/-- Elements of the region that counts leave (R220). -/
def inCounts (counts : W32) (p : Nat) : Bool := decide (p / 64 < countRows counts) && decide (p % 64 < countCols counts)

/-- A drain or ACCCHK reads and verifies its source tile in full (R221, R270). -/
def State.drain (s : State) (b : Block) (t : Nat) : State × Option EngTrap :=
  let r := s.engRead b (onTile t fun _ => true)
  let c := r.1.engRead b (onSum t)
  if r.2 then (c.1, some (.array t))
  else if c.2 || !(b.engine.tile t).verify then (c.1, some ⟨.accchk, 0, BitVec.ofNat 32 t⟩)
  else (c.1, none)

/-! ### Matrix operands (R215) -/

/-- The descriptor of an operation on matrix operands under its FMT; `out` for ACCST. -/
def State.matrixDesc (s : State) (b : Block) (a : W64) (f : Fmt) (out : Bool) : Except EngTrap Desc :=
  if tagOf a ≠ 2 ∧ tagOf a ≠ 3 then .error (.at .access a)
  else
    match s.scratchLocs b a 32 with
    | none => .error (.at .access a)
    | some ls =>
      if a.extractLsb' 0 5 ≠ 0 then .error (.at .align a)
      else if s.mem.anyPoison ls then .error (.at .ecc a)
      else match s.descAt b a with
        | none => .error (.at .format a)
        | some d =>
          if !(tagOf d.base == 2 || tagOf d.base == 3 || (out && tagOf d.base == 0)) then .error (.at .access d.base)
          else if d.dfmt != f || (d.blocked && d.swz != 0) || (d.dfmt.isSx && d.pitch % 16 != 0) ||
              (tagOf d.base == 0 && d.swz != 0) then .error (.at .format a)
          else .ok d

/-- Where operand element (r, c) lies, TRANS applied: the address, the bytes, the element within them; `none` outside (log 23, DEDUCED). -/
def Desc.operandAt (d : Desc) (r c : Nat) : Option (W64 × Nat × Nat) :=
  let row := if d.trans then c else r
  let col := if d.trans then r else c
  if d.rows ≤ row ∨ d.cols ≤ col then none
  else if d.dfmt.isSx then
    some (d.base + BitVec.ofNat 64 (row / 4 * (d.pitch / 4) * d.dfmt.sxSize + col / 4 * d.dfmt.sxSize), d.dfmt.sxSize,
      row % 4 * 4 + col % 4)
  else if d.dfmt == .int4 then
    let n := row * d.pitch + col
    some (d.base + BitVec.ofNat 64 (n / 2), 1, n % 2)
  else some (d.base + BitVec.ofNat 64 (row * d.pitch + swizzle d.swz row (col * d.dfmt.bytes)), d.dfmt.bytes, 0)

/-- An element's exact value. -/
def elemFP : Elem → FP
  | .fp v => v
  | .int n => FP.ofInt n

/-- The value of an operand element, `none` of a clipped one. -/
def State.operandElem (s : State) (b : Block) (d : Desc) (r c : Nat) : Except EngTrap (Option FP) :=
  match d.operandAt r c with
  | none => .ok none
  | some (a, n, i) =>
    match s.scratchLocs b a n with
    | none => .error (.at .access a)
    | some ls =>
      if s.mem.anyPoison ls then .error (.at .ecc a)
      else .ok (some <| elemFP (Elem.ofBits d.dfmt i (leNum (ls.map fun l => s.mem.homeRead l))))

/-- Operand elements in order, or the first fault. -/
def State.operandElems (s : State) (b : Block) (d : Desc) (l : List (Nat × Nat)) :
    Except EngTrap (Array (Option FP)) :=
  l.foldl (fun acc rc => match acc with
    | .error e => .error e
    | .ok xs => match s.operandElem b d rc.1 rc.2 with
      | .ok v => .ok (xs.push v)
      | .error e => .error e) (.ok #[])

/-- The places of a descriptor and of the operand elements that it gives, which are searched for soft errors (R275). -/
def State.operandPlaces (s : State) (b : Block) (a : W64) (l : List (Nat × Nat)) : List Loc :=
  s.descLocs b a ++ (match s.descAt b a with
    | none => []
    | some d => l.flatMap fun rc => match d.operandAt rc.1 rc.2 with
      | some (e, n, _) => (s.scratchLocs b e n).getD []
      | none => [])

/-- Rows and columns of an operand, row by row. -/
def elemGrid (rows cols : Nat) : List (Nat × Nat) := (List.range (rows * cols)).map fun p => (p / cols, p % cols)

/-! ### The effect of each operation -/

/-- An operation's effect: the state, and perhaps an engine trap in place of its result. -/
abbrev EngRes := State × Option EngTrap

/-- The pointer or value captured in place n. -/
def Capture.val (c : Capture) (n : Nat) : W64 := c.vals.getD n 0

/-- MZERO: the tile (R218), and the planes as at the start (R213). -/
def State.engMzero (s : State) (b : Block) (f : TFmt) : EngRes :=
  let t := f.ops.d.num
  ((s.updEngine b.uid fun e =>
      { e.setTile t { Tile.start with int := f.int } with active := Plane.start, shadow := Plane.start }).engWritten b fun l =>
    onTile t (fun _ => true) l || onSum t l || onPlane true l || onPlane false l, none)

/-- LDSTAT (R219). -/
def State.engLdstat (s : State) (b : Block) (f : TFmt) (a : W64) : EngRes :=
  match s.matrixDesc b a f.fmt false with
  | .error t => (s, some t)
  | .ok d =>
    let K := planeK f.fmt
    match s.operandElems b d (elemGrid K 64) with
    | .error t => (s, some t)
    | .ok xs =>
      let cells := (List.range (64 * K)).foldl (fun m p =>
        SMap.set 0 m p (planeCell f.fmt ((xs.getD p none).getD FP.zero))) ([] : SMap W32)
      ((s.updEngine b.uid fun e => { e with shadow := { pf := f.fmt, k := K, cells := cells } }).engWritten b (onPlane true),
        none)

/-- PSWAP (R219): errors go with their plane. -/
def State.engPswap (s : State) (b : Block) : EngRes :=
  let s := s.updEngine b.uid fun e => { e with active := e.shadow, shadow := e.active }
  (s.setMem { s.mem with errs := s.mem.errs.map fun e => match e.1 with
    | .plane u sh c => if u = b.uid then (.plane u (!sh) c, e.2) else e
    | _ => e }, none)

/-- The pairing of R217. -/
def pairOk (int : Bool) (plane stream : Fmt) : Bool := !int || (plane.isIntFmt && stream.isIntFmt)

/-- The FUNC of an engine instruction: its opcode, SUB, FMT and counts (R109). -/
def sumFunc (opc : Nat) (f : TFmt) (counts : W32) : List Nat := [opc, f.sub.toNat, f.fmt.code.toNat, countRows counts, countCols counts]

/-- MSTREAM (R220). -/
def State.engMstream (s : State) (b : Block) (f : TFmt) (a : W64) (counts : W32) : EngRes :=
  let e := b.engine
  let n := f.ops.d.num
  let t := e.tile n
  let p := e.active
  if !pairOk t.int p.pf f.fmt then (s, some (.at .illegal 0))
  else
    match s.matrixDesc b a f.fmt false with
    | .error t => (s, some t)
    | .ok d =>
      let rows := countRows counts
      match s.operandElems b d (elemGrid rows p.k) with
      | .error t => (s, some t)
      | .ok xs =>
        let r := s.engRead b fun l => onTile n (inCounts counts) l || onPlane false l
        if r.2 then (r.1, some (.array n))
        else
          let where_ := (List.range 4096).filter (inCounts counts)
          let act := fun (i k : Nat) => xs.getD (i * p.k + k) none
          let key : SumKey := ⟨sumFunc 0xE3 f counts, (xs.toList.map fun v => f64Bits (v.getD FP.zero)) ++
            (List.range (64 * p.k)).map fun q => f64Bits (p.val (q / 64) (q % 64))⟩
          let new := where_.map fun q =>
            let i := q / 64
            let j := q % 64
            if t.int then
              let v := intAccumulate (t.at i j) p.k (fun k => ((act i k).getD FP.zero).toInt) (fun k => (p.val k j).toInt)
              (q, v.1, v.2)
            else (q, f64Bits (fpAccumulate (t.val (t.at i j)) p.k (act i) (fun k => p.val k j)), false)
          let t' := t.write key (new.map fun c => (c.1, c.2.1))
          ((r.1.updEngine b.uid fun e => e.setTile n { t' with ovf := t.ovf || new.any fun c => c.2.2 }).engWritten b
            (onTile n (inCounts counts)), none)

/-- ACCCHK (R221). -/
def State.engAccchk (s : State) (b : Block) (f : TFmt) : EngRes := s.drain b f.ops.d.num

/-- What ACCMOV writes to one element, and whether it overflows (R224). -/
def accmovElem (f : TFmt) (a b : Tile) (i j : Nat) : W64 × Bool :=
  if f.sub == 0 then (b.at i j, false)
  else if f.sub == 1 then (b.at j i, false)
  else if a.int then
    let n := (a.at i j).toInt + (b.at i j).toInt
    (BitVec.ofInt 64 n, decide (n < -(2 ^ 63)) || decide (2 ^ 63 - 1 < n))
  else (f64Bits (FP.sum .rne [a.val (a.at i j), b.val (b.at i j)]).1, false)

/-- ACCMOV (R224). -/
def State.engAccmov (s : State) (b : Block) (f : TFmt) (counts : W32) : EngRes :=
  let e := b.engine
  let na := f.ops.d.num
  let nb := f.ops.a.num
  let ta := e.tile na
  let tb := e.tile nb
  if ta.int != tb.int then (s, some (.at .illegal 0))
  else
    match s.drain b nb with
    | (s, some t) => (s, some t)
    | (s, none) =>
      let r := s.engRead b (onTile na fun p => f.sub == 2 && inCounts counts p)
      if r.2 then (r.1, some (.array na))
      else
        let key : SumKey := ⟨sumFunc 0xE7 f counts, (List.range 4096).map fun q => tb.elems.get 0 q⟩
        let new := ((List.range 4096).filter (inCounts counts)).map fun q => (q, accmovElem f ta tb (q / 64) (q % 64))
        let t' := ta.write key (new.map fun c => (c.1, c.2.1))
        ((r.1.updEngine b.uid fun e => e.setTile na { t' with ovf := ta.ovf || tb.ovf || new.any fun c => c.2.2 }).engWritten b
          (onTile na (inCounts counts)), none)

/-- ACCPLANE (R225). -/
def State.engAccplane (s : State) (b : Block) (f : TFmt) : EngRes :=
  let n := f.ops.d.num
  let t := b.engine.tile n
  if t.int then (s, some (.at .illegal 0))
  else
    match s.drain b n with
    | (s, some t) => (s, some t)
    | (s, none) =>
      let ff := f.fmt.ff?.getD .f32
      let cells := (List.range 4096).foldl (fun m p =>
        let k := p / 64
        let j := p % 64
        let v := ff.val (fpResult ff (t.val (if f.sub == 0 then t.at k j else t.at j k)) .rne).1
        SMap.set 0 m p (planeCell f.fmt v)) ([] : SMap W32)
      ((s.updEngine b.uid fun e => { e with shadow := { pf := f.fmt, k := 64, cells := cells } }).engWritten b (onPlane true),
        none)

/-- Page formats that a KLD value may lie on (R226). -/
def kldPageOk (f : Fmt) (page : Nat) : Bool :=
  if f == .fp64 then page == Fmt.raw64.code.toNat || page == Fmt.fp64.code.toNat
  else page == Fmt.raw32.code.toNat || page == Fmt.fp32.code.toNat

/-- The places of one value of KLD. -/
def State.kldLocs (s : State) (b : Block) (f : Fmt) (a : W64) : Except EngTrap (List Loc) :=
  let n := f.bytes
  if tagOf a = 2 ∨ tagOf a = 3 then
    match s.scratchLocs b a n with
    | some l => .ok l
    | none => .error (.at .access a)
  else
    match va56 a with
    | none => .error (.at .access a)
    | some va => match s.translate (some b.quadId) b.ten b.pasid va .read with
      | none => .error (.at .access a)
      | some v =>
        if kldPageOk f v.fmt.toNat && v.geom == 0 then .ok ((List.range n).map fun i => .phys (v.pa va + i))
        else .error (.at .format a)

/-- The places of a KLD's values, which are searched for soft errors (R269). -/
def State.kldPlaces (s : State) (b : Block) (f : Fmt) (a : W64) (count : Nat) : List Loc :=
  (List.range count).flatMap fun i => match s.kldLocs b f (a + BitVec.ofNat 64 (i * f.bytes)) with
    | .ok ls => ls
    | .error _ => []

/-- The FP64 bits of one value. -/
def State.kldValue (s : State) (b : Block) (f : Fmt) (a : W64) : Except EngTrap W64 :=
  match s.kldLocs b f a with
  | .error t => .error t
  | .ok ls =>
    if s.loadBad b ls then .error (.at .ecc a)
    else
      let raw := leNum (ls.map fun l => match l with
        | .phys pa => s.mem.readLoc (s.l1Quad b pa) l
        | l => s.mem.readLoc 0 l)
      .ok (if f == .fp64 then BitVec.ofNat 64 raw else f64Bits (FF.f32.val raw))

/-- KLD (R226): all values or none. -/
def State.engKld (s : State) (b : Block) (f : TFmt) (a : W64) (count : Nat) : EngRes :=
  let size := f.fmt.bytes
  if 3 < tagOf a then (s, some (.at .access a))
  else if a.toNat % size ≠ 0 then (s, some (.at .align a))
  else
    let vs := (List.range count).foldl (fun (acc : Except EngTrap (List W64)) i => match acc with
      | .error t => .error t
      | .ok l => match s.kldValue b f.fmt (a + BitVec.ofNat 64 (i * size)) with
        | .error t => .error t
        | .ok v => .ok (l ++ [v])) (.ok [])
    match vs with
    | .error t => (s, some t)
    | .ok l =>
      ((s.updEngine b.uid fun e =>
        { e with ks := (l.mapIdx fun i v => (i, v)).foldl (fun m iv => m.set 0 (f.ops.d.num + iv.1) iv.2) e.ks }).engWritten b
          (onKregs fun n => decide (f.ops.d.num ≤ n) && decide (n < f.ops.d.num + count)), none)

/-- KMOV (R226). -/
def State.engKmov (s : State) (b : Block) (f : TFmt) (v : W64) : EngRes :=
  ((s.updEngine b.uid fun e => { e with ks := e.ks.set 0 f.ops.d.num v }).engWritten b (onKregs (· == f.ops.d.num)), none)

/-! ### ACCST (R223, R288) -/

/-- Formats that ACCST stores, plain or with `.add`. -/
def accstFmtOk (f : Fmt) (add : Bool) : Bool :=
  if add then [Fmt.fp64, .fp32, .fp16, .bf16, .int32, .int64].contains f
  else [Fmt.fp64, .fp32, .fp16, .bf16, .e4m3, .e5m2, .int8, .int32, .int64].contains f

/-- The bits that ACCST stores for an element value, `mem` being what memory holds for `.add`. -/
def accstBits (f : Fmt) (add : Bool) (int : Bool) (v : FP) (mem : Nat) : Nat :=
  let w := 8 * f.bytes
  match f.ff? with
  | some t => (fpResult t (if add then (FP.sum .rne [t.val mem, v]).1 else v) .store).1
  | none =>
    let x := if add then (FP.sum .rne [FP.ofInt (readInt true w mem), v]).1 else v
    wrapInt w (if int then satInt true w x.toInt else (fpToInt true w x .rne).1)

/-- The elements that ACCST writes, with the places of their bytes; a global box is translated whole first.  Where several
elements fail, the last of them in row-major order is reported (log 69, DESIGN CHOICE). -/
def State.accstPlaces (s : State) (b : Block) (d : Desc) (counts : W32) : Except EngTrap (List (Nat × List Loc)) :=
  ((List.range 4096).filter (inCounts counts)).foldr (fun q acc =>
    match d.operandAt (q / 64) (q % 64) with
    | none => acc
    | some (a, n, _) =>
      match acc with
      | .error e => .error e
      | .ok l =>
        match s.engineLocs b a n .write (if tagOf d.base = 0 then some d.dfmt else none) with
        | .ok ls => .ok ((q, ls) :: l)
        | .error c => .error (.at c a)) (.ok [])

/-- What ACCST is about to write, once its checks have passed. -/
def State.accstPlan (s : State) (b : Block) (f : TFmt) (a : W64) (counts : W32) :
    Except EngTrap (Desc × List (Nat × List Loc)) :=
  if !accstFmtOk f.fmt f.add then .error (.at .illegal 0)
  else match s.matrixDesc b a f.fmt true with
    | .error t => .error t
    | .ok d => match s.accstPlaces b d counts with
      | .error t => .error t
      | .ok l => .ok (d, l)

/-- A number put in its place in an ascending list, once. -/
def insertUp (n : Nat) : List Nat → List Nat
  | [] => [n]
  | m :: ms => if n < m then n :: m :: ms else if n = m then m :: ms else m :: insertUp n ms

/-- The lines of global memory that an update touches, ascending (R288). -/
def updateLines (l : List (Nat × List Loc)) : List Nat :=
  (l.flatMap fun p => p.2.filterMap fun x => match x with
    | .phys pa => some (lineOf pa)
    | .spad _ _ => none).foldr insertUp []

/-- The elements written one by one, each whole. -/
def State.accstWrite (s : State) (b : Block) (f : TFmt) (t : Tile) (l : List (Nat × List Loc)) : State :=
  l.foldl (fun s p =>
    let mem := if f.add then leNum (p.2.map fun x => s.mem.homeRead x) else 0
    s.enginePut b (p.2.zip (leBytes p.2.length (accstBits f.fmt f.add t.int (t.val (t.elems.get 0 p.1)) mem)))) s

/-- The whole update: the source tile is verified first; poisoned bytes that `.add` reads raise ECC. -/
def State.engAccst (s : State) (b : Block) (f : TFmt) (a : W64) (counts : W32) : EngRes :=
  match s.accstPlan b f a counts with
  | .error t => (s, some t)
  | .ok (d, l) =>
    match s.drain b f.ops.d.num with
    | (s, some t) => (s, some t)
    | (s, none) =>
      let s := (l.flatMap (·.2)).foldl (fun s x => match x with
        | .phys pa => s.setMem (s.mem.takeLine (lineOf pa))
        | .spad _ _ => s) s
      let s := if f.add then s.scanHome (l.flatMap (·.2)) else s
      match (if f.add then l.find? fun p => s.mem.anyPoison p.2 else none) with
      | some p => (s, some (.at .ecc (((d.operandAt (p.1 / 64) (p.1 % 64)).map (·.1)).getD 0)))
      | none =>
        let s := if tagOf d.base = 0 then
            ((l.filterMap fun p => (d.operandAt (p.1 / 64) (p.1 % 64)).map fun w => (w.1, w.2.1))).foldl
              (fun s w => s.useEngine b w.1 w.2 .write) s
          else s
        (s.accstWrite b f (b.engine.tile f.ops.d.num) l, none)

/-! ### ACCLD (R222) -/

/-- The bits that ACCLD delivers for an element. -/
def accldBits (f : Fmt) (t : Tile) (bits : W64) : W64 :=
  match f.ff? with
  | some ff => BitVec.ofNat 64 (fpResult ff (t.val bits) .rne).1
  | none =>
    let w := 8 * f.bytes
    if t.int then BitVec.ofNat 64 (wrapInt w (satInt true w bits.toInt))
    else BitVec.ofNat 64 (wrapInt w (fpToInt true w (t.val bits) .rne).1)

/-- Row and column of a lane's coordinates. -/
def coordRow (v : Nat) : Nat := v % 64
def coordCol (v : Nat) : Nat := v / 256 % 64

/-- ACCLD reads at issue, when the engine has nothing before it; the values are written later (log 21, DEDUCED). -/
def accldBody (f : TFmt) (s : State) (x : Ctx) : Except Trap Done :=
  let n := f.ops.a.num
  if x.active = 0 then .ok (Done.now x s)
  else
    match s.drain x.blk n with
    | (_, some t) => .error (Trap.of t.cause x.active 0 t.code)
    | (s, none) =>
      let t := x.blk.engine.tile n
      let dst := x.lanes.flatMap fun L => s.placeOf x f.ops.d f.fmt.wide L
      let bound := x.lanes.map fun L =>
        let v := s.op32 x f.ops.b f.ops.imm L
        (L, accldBits f.fmt t (t.at (coordRow v) (coordCol v)))
      let c : Capture :=
        { instr := .accld x.ctl f, vals := [], counts := 0, lane := x.lead, pc := x.fr.pc, signers := [x.signer s.nextId],
          dropped := [] }
      let s := s.updBlock x.blk.uid fun b =>
        { b with eng := b.eng.map fun e => { e with queue := e.queue ++
            [{ id := s.nextId, cap := c, decl := 0, bound := bound, dst := dst, locs := [],
               started := false }] } }
      .ok (Done.later x { s with nextId := s.nextId + 1 })

/-- The mismatch that an ACCLD meets is counted whether or not it traps precisely (R271). -/
def accldEntry (f : TFmt) : Entry :=
  { Entry.plain with before := fun s x =>
      if x.active = 0 then s
      else match s.drain x.blk f.ops.a.num with
        | (s, some t) => s.countQuad x.blk.core x.blk.quad (if t.cause = .accchk then 2 else 1)
        | (s, none) => s }

def execAccld (c : Ctl) (f : TFmt) : State → Host.Outcome State Fault Refusal :=
  issue (.accld c f) c (accldEntry f) (accldBody f)

/-! ### Signing the engine's instructions (R216) -/

/-- A convergent engine instruction that signs its register. -/
def signs (i : Instr) (c : Ctl) (f : TFmt) (vals : State → Ctx → List (Nat → W64)) (bad : State → Ctx → Bool)
    (counts : State → Ctx → W32) : State → Host.Outcome State Fault Refusal :=
  issue i c (convEntry i f.ops.c.num vals bad) (convBody i f.ops.c.num vals counts)

def execMzero (c : Ctl) (f : TFmt) : State → Host.Outcome State Fault Refusal :=
  signs (.mzero c f) c f noVals neverBad noCounts

def execLdstat (c : Ctl) (f : TFmt) : State → Host.Outcome State Fault Refusal :=
  signs (.ldstat c f) c f (descVals f) neverBad noCounts

def execPswap (c : Ctl) (f : TFmt) : State → Host.Outcome State Fault Refusal :=
  signs (.pswap c f) c f noVals neverBad noCounts

def execMstream (c : Ctl) (f : TFmt) : State → Host.Outcome State Fault Refusal :=
  signs (.mstream c f) c f (descVals f) (countsBad f) fun s x => s.countsOf x f

def execAccst (c : Ctl) (f : TFmt) : State → Host.Outcome State Fault Refusal :=
  signs (.accst c f) c f (descVals f) (countsBad f) fun s x => s.countsOf x f

def execAccchk (c : Ctl) (f : TFmt) : State → Host.Outcome State Fault Refusal :=
  signs (.accchk c f) c f noVals neverBad noCounts

def execAccmov (c : Ctl) (f : TFmt) : State → Host.Outcome State Fault Refusal :=
  signs (.accmov c f) c f noVals (countsBad f) fun s x => s.countsOf x f

def execAccplane (c : Ctl) (f : TFmt) : State → Host.Outcome State Fault Refusal :=
  signs (.accplane c f) c f noVals neverBad noCounts

def execMiter (c : Ctl) (f : TFmt) : State → Host.Outcome State Fault Refusal :=
  signs (.miter c f) c f (miterVals f) neverBad noCounts

def execKld (c : Ctl) (f : TFmt) : State → Host.Outcome State Fault Refusal :=
  signs (.kld c f) c f (kldVals f) (kldBad f) fun s x => s.countsOf x f

def execKmov (c : Ctl) (f : TFmt) : State → Host.Outcome State Fault Refusal :=
  signs (.kmov c f) c f (kmovVals f) neverBad noCounts

end Machine
end Sys2Proof
end

