-- ==== Sys2Proof/Machine/Frames.lean ====
section
/-!
DEFINITION. Frame instructions (R201 to R212): private frames, the shared frames of a block and a cluster, FSYNC, and the
display registers.
-/
namespace Sys2Proof
open Machine

namespace Machine

/-! ### Private frames (R202 to R206) -/

/-- A pointer to a private offset. -/
def privPtr (off : W32) : W64 := 0x4000000000000000#64 + off.zeroExtend 64

/-- The link word of a frame about to be entered (R203). -/
def Ctx.linkWord (x : Ctx) (L : Nat) : W64 :=
  let l := x.st.lane L
  let d := x.st.dispReg l.cd.toNat L
  BitVec.ofNat 64 ((if d.valid then 4 else 0) * 2 ^ 60 + l.nest.toNat * 2 ^ 44 + l.top.toNat * 2 ^ 32 +
    (if d.valid then (d.ptr.extractLsb' 0 32).toNat else 0))

/-- The faults of the 8 bytes at each lane's private offset: the first condition that any lane fails (R24). -/
def State.privPlaces (s : State) (x : Ctx) (off : Nat → Nat) (write : Bool) : Option Trap :=
  firstFail (x.lanes.filterMap fun L =>
    match s.privSlots x (off L) 8 (privPtr (BitVec.ofNat 32 (off L))) write L with
    | .error m => some (L, m.no, Trap.of m.cause (oneLane L) m.addr 0)
    | .ok _ => none)

/-- Poison in the 8 bytes that lanes read: every lane that meets it (R24, R316). -/
def State.privPoison (s : State) (x : Ctx) (off : Nat → Nat) : Option Trap :=
  eccLanes x.lanes (fun L => match s.privSlots x (off L) 8 0 false L with
    | .ok ws => s.mem.anyPoison (ws.flatMap fun w => w.span 4)
    | .error _ => false) fun L => privPtr (BitVec.ofNat 32 (off L))

/-- 8 bytes of private memory as a lane reads them; 0 where they cannot be read. -/
def State.privRead (s : State) (x : Ctx) (off L : Nat) : W64 :=
  match s.privSlots x off 8 0 false L with
  | .ok ws => BitVec.ofNat 64 (leNum ((ws.flatMap fun w => w.span 4).map fun l => match l with
      | .phys pa => s.mem.readLoc (s.l1Quad x.blk pa) l
      | l => s.mem.readLoc 0 l))
  | .error _ => 0

/-- The words of a private write, with its page's translation put to use (R366, R373). -/
def State.privWrite (s : State) (x : Ctx) (off L : Nat) (v : W64) : State :=
  let s := [0, 4].foldl (fun s i =>
    let va := x.blk.privVa x.sid L (off + i)
    s.useRange (some x.blk.quadId) x.blk.ten (s.spasid x.blk) va 4 .write) s
  match s.privSlots x off 8 0 true L with
  | .ok ws => (ws.mapIdx fun i w => (i, w)).foldl (fun s iw =>
      s.storeLocs x.blk ((iw.2.span 4).zip (leBytes 4 (v.toNat / 2 ^ (32 * iw.1))))) s
  | .error _ => s

/-- A frame size that FENTER refuses (R205). -/
def frameSizeBad (n : Nat) : Bool := n % 8 != 0 || decide (n < 8) || decide (512 < n)

def fenterBody (f : SFmt) (s : State) (x : Ctx) : Except Trap Done :=
  let l := fun L => x.st.lane L
  let size := fun L => s.op32 x f.ops.a f.ops.imm L
  let depth := fun L => (l L).cd.zeroExtend 32
  let s' := x.lanes.foldl (fun s L => s.privWrite x (l L).fp.toNat L (x.linkWord L)) s
  let s' := s'.updStrand x.blk.uid x.sid fun st =>
    x.lanes.foldl (fun st L => st.setDisp (l L).cd.toNat L { ptr := privPtr (l L).fp, valid := true }) st
  let s' := s'.updLanes x x.active fun L a =>
    { a with top := (l L).cd, tnest := (l L).nest, fp := (l L).fp + BitVec.ofNat 32 (size L) }
  let s' := s'.dispGone x.blk.uid x.sid fun n L => x.active.getLsbD L && n == (l L).cd.toNat
  orTraps
    [lanesTrap .frame x (fun L => decide ((l L).cd.toNat < 3) || ((l L).top != 0 && (l L).tnest == (l L).nest)) depth,
     lanesTrap .frame x (fun L => frameSizeBad (size L)) depth,
     laneTrap .stack x.lanes fun L =>
       if x.blk.privlim < (l L).fp.toNat + size L then some (privPtr (BitVec.ofNat 32 x.blk.privlim)) else none,
     s.privPlaces x (fun L => (l L).fp.toNat) true]
    (Done.now x s')

def execFenter (c : Ctl) (f : SFmt) : State → Host.Outcome State Fault Refusal :=
  issue (.fenter c f) c Entry.plain (fenterBody f)

/-- The private offset that display register n of a lane holds. -/
def Ctx.frameOffset (x : Ctx) (n L : Nat) : Nat := ((x.st.dispReg n L).ptr.extractLsb' 0 32).toNat

/-- What FLEAVE makes of d[n]. -/
def leaveDisp (lw : W64) : Disp :=
  if lw.extractLsb' 60 4 = 4 then { ptr := privPtr (lw.extractLsb' 0 32), valid := true } else Disp.none

/-- What FLEAVE makes of a lane's hidden state (R206). -/
def State.leaveLane (s : State) (x : Ctx) (L : Nat) (a : Lane) : Lane :=
  let n := a.cd.toNat
  let off := x.frameOffset n L
  let lw := s.privRead x off L
  let top : BitVec 3 := lw.extractLsb' 32 3
  -- with TOP = n the register is the one FLEAVE has just restored
  let below := if top.toNat = n then ((leaveDisp lw).ptr.extractLsb' 0 32).toNat else x.frameOffset top.toNat L
  { a with fp := BitVec.ofNat 32 off, top := top,
           tnest := if top = 0 then a.tnest else (s.privRead x below L).extractLsb' 44 16 }

def fleaveBody (s : State) (x : Ctx) : Except Trap Done :=
  let l := fun L => x.st.lane L
  let cd := fun L => (l L).cd.toNat
  let s' := s.updStrand x.blk.uid x.sid fun st =>
    x.lanes.foldl (fun st L => st.setDisp (cd L) L (leaveDisp (s.privRead x (x.frameOffset (cd L) L) L))) st
  let s' := s'.updLanes x x.active fun L a => s.leaveLane x L a
  let s' := s'.dispGone x.blk.uid x.sid fun n L => x.active.getLsbD L && n == cd L
  orTraps
    [lanesTrap .frame x (fun L => !(l L).frameLive) (fun L => (l L).cd.zeroExtend 32),
     s.privPlaces x (fun L => x.frameOffset (cd L) L) false, s.privPoison x fun L => x.frameOffset (cd L) L]
    (Done.now x s')

def execFleave (c : Ctl) (f : SFmt) : State → Host.Outcome State Fault Refusal :=
  issue (.fleave c f) c Entry.plain fleaveBody

/-! ### Shared frames (R207, R208) -/

def execBfenter (c : Ctl) (f : SFmt) : State → Host.Outcome State Fault Refusal :=
  let i := Instr.bfenter c f
  issue i c (blockEntry i) (blockSignBody i true)

def execBfleave (c : Ctl) (f : SFmt) : State → Host.Outcome State Fault Refusal :=
  let i := Instr.bfleave c f
  issue i c (blockEntry i) (blockSignBody i false)

def execCfenter (c : Ctl) (f : SFmt) : State → Host.Outcome State Fault Refusal :=
  let i := Instr.cfenter c f
  issue i c (clusterEntry i) (clusterSignBody i true)

def execCfleave (c : Ctl) (f : SFmt) : State → Host.Outcome State Fault Refusal :=
  let i := Instr.cfleave c f
  issue i c (clusterEntry i) (clusterSignBody i false)

/-! ### FSYNC (R211) -/

/-- The scope of a frame depth. -/
def frameScope (depth : Nat) : Scope := if depth = 1 then .clu else if depth = 2 then .blk else .thr

def execFsync (c : Ctl) (f : SFmt) : State → Host.Outcome State Fault Refusal :=
  issue (.fsync c f) c Entry.plain (fenceBody (frameScope f.sd.toNat))

/-! ### Display registers (R212) -/

/-- The UNIFORM check of `.x`: the whole 32-bit operand is compared, though only bits 2:0 give the number (R52, R212; log 72,
DESIGN CHOICE). -/
def dispUniform (f : SFmt) (o : Operand) : Entry :=
  if f.sub == 1 then Entry.same fun s x => [fun L => BitVec.ofNat 64 (s.op32 x o f.ops.imm L)] else Entry.plain

/-- The pointer of a valid register, else 0. -/
def Strand.dispVal (st : Strand) (n L : Nat) : W64 := if (st.dispReg n L).valid then (st.dispReg n L).ptr else 0

/-- Latency of DSPR (R77). -/
abbrev dsprLatency : Nat := 4

def execDspr (c : Ctl) (f : SFmt) : State → Host.Outcome State Fault Refusal :=
  issue (.dspr c f) c (dispUniform f f.ops.a) (fixedBody dsprLatency fun s x =>
    (s.writesTo x f.ops.d true fun L => x.st.dispVal (s.dispNum x f f.ops.a L) L, Flags.none))

/-- A value that DSPW admits: 0, or an aligned private pointer. -/
def dispLegal (v : W64) : Bool :=
  v == 0 || (v.extractLsb' 60 4 == 4 && v.extractLsb' 32 28 == 0 && v.extractLsb' 0 3 == 0)

/-- DSPW: a value that it does not admit comes before a register number that it does not (R24, R212). -/
def dspwBody (f : SFmt) (s : State) (x : Ctx) : Except Trap Done :=
  let n := fun L => s.dispNum x f f.ops.b L
  let v := fun L => s.op64 x f.ops.a L
  let s' := s.updStrand x.blk.uid x.sid fun st =>
    x.lanes.foldl (fun st L => st.setDisp (n L) L (if v L = 0 then Disp.none else { ptr := v L, valid := true })) st
  let s' := s'.dispGone x.blk.uid x.sid fun m L => x.active.getLsbD L && m == n L
  orTraps
    [laneTrap .access x.lanes (fun L => if dispLegal (v L) then none else some (v L)),
     lanesTrap .frame x (fun L => decide (n L < 3)) (fun L => BitVec.ofNat 32 (n L))]
    (Done.now x s')

def execDspw (c : Ctl) (f : SFmt) : State → Host.Outcome State Fault Refusal :=
  issue (.dspw c f) c (dispUniform f f.ops.b) (dspwBody f)

end Machine
end Sys2Proof
end

