-- ==== Sys2Proof/Machine/Iterate.lean ====
section
/-!
DEFINITION. MITER (R227 to R231): its start, one iteration or Horner step, the residual and the tests of R229, and how it
ends.
-/
namespace Sys2Proof
open Machine

/-! ### ISTAT (R230) -/

/-- A field of a 64-bit word. -/
def bits64 (w : W64) (lo n : Nat) : Nat := w.toNat / 2 ^ lo % 2 ^ n

/-- A field of a 64-bit word replaced. -/
def setBits64 (w : W64) (lo n v : Nat) : W64 :=
  (w &&& ~~~(BitVec.ofNat 64 ((2 ^ n - 1) * 2 ^ lo))) ||| BitVec.ofNat 64 (v % 2 ^ n * 2 ^ lo)

/-- PHASE codes. -/
abbrev phaseRun : Nat := 1
abbrev phaseConv : Nat := 2
abbrev phaseCap : Nat := 3
abbrev phaseDivg : Nat := 4
abbrev phaseDone : Nat := 5

/-- ISTAT at the start of a MITER. -/
def istatStart (f : TFmt) : W64 :=
  BitVec.ofNat 64 (phaseRun * 2 ^ 21 + f.sub.toNat * 2 ^ 18 + f.ops.d.num * 2 ^ 16 +
    (if f.sub == 2 then f.ops.a.num else 0) * 2 ^ 14 + f.ops.imm.toNat % 64 * 2 ^ 8 + (if f.fmt == .fp32 then 1 else 0) * 2 ^ 7)

def istatIter (w : W64) : Nat := bits64 w 26 6
def istatGrow (w : W64) : Nat := bits64 w 24 2
def istatForm (w : W64) : Nat := bits64 w 18 2
def istatX (w : W64) : Nat := bits64 w 16 2
def istatA (w : W64) : Nat := bits64 w 14 2
def istatCap (w : W64) : Nat := bits64 w 8 6
def istatFmt (w : W64) : FF := if bits64 w 7 1 = 1 then .f32 else .bf16

/-! ### Products of tiles (R227) -/

/-- A 64 by 64 matrix of values, row by row. -/
abbrev Mat := Array FP

def Machine.Tile.mat (t : Tile) : Mat := ((List.range 4096).map fun p => t.val (t.elems.get 0 p)).toArray

def matAt (m : Mat) (i j : Nat) : FP := m.getD (64 * i + j) FP.zero

def matOf (f : Nat → Nat → FP) : Mat := ((List.range 4096).map fun p => f (p / 64) (p % 64)).toArray

/-- Each element by FPResult(FMT, ., RNE, none). -/
def matConv (t : FF) (m : Mat) : Mat := m.map fun v => t.val (fpResult t v .rne).1

def matProd (t : FF) (u v : Mat) : Mat :=
  let u := matConv t u
  let v := matConv t v
  matOf fun i j => fpAccumulate FP.zero 64 (fun k => some (matAt u i k)) (fun k => matAt v k j)

/-- Once to FP64, RNE. -/
def roundF64 (v : FP) : FP := FF.f64.val (fpResult .f64 v .rne).1

/-- An exact sum, rounded once. -/
def roundSum (l : List FP) : FP := roundF64 (FP.sum .rne l).1

/-- Element (i, j) of v times the identity. -/
def scaledId (v : FP) (i j : Nat) : FP := if i = j then v else (FP.mul v FP.zero).1

/-! ### One iteration (R228) -/

/-- What an iteration leaves: the new X, and the residual of NS and NINV. -/
structure IterRes where
  x : Mat
  r : FP
deriving Repr

/-- The residual: row-major, one rounding for each element (R229). -/
def residual (e : Nat → Nat → FP) : FP :=
  (List.range 4096).foldl (fun r p =>
    let v := e (p / 64) (p % 64)
    roundSum [r, (FP.mul v v).1]) FP.zero

/-- A Horner step: Y in DST, X in the partner. -/
def polyStep (t : FF) (y x : Mat) (k : FP) : Mat :=
  let p := matProd t y x
  matOf fun i j => roundSum [matAt p i j, scaledId k i j]

def nsStep (t : FF) (x : Mat) (k0 k1 k2 : FP) : IterRes :=
  let a := matProd t x (matOf fun i j => matAt x j i)
  let aa := if k2.isZero then matOf fun _ _ => FP.zero else matProd t a a
  let b := matOf fun i j => roundSum [(FP.mul k1 (matAt a i j)).1, (FP.mul k2 (matAt aa i j)).1]
  let bx := matProd t b x
  let new := matOf fun i j => roundSum [(FP.mul k0 (matAt x i j)).1, matAt bx i j]
  { x := new, r := residual fun i j => (FP.sum .rne [matAt new i j, (matAt x i j).negate]).1 }

def ninvStep (t : FF) (a x : Mat) : IterRes :=
  let ax := matProd t a x
  let e := matOf fun i j => roundSum [scaledId (FP.ofInt 2) i j, (matAt ax i j).negate]
  let new := matProd t x e
  let ax' := matProd t a new
  { x := new, r := residual fun i j => (FP.sum .rne [scaledId (FP.ofInt 1) i j, (matAt ax' i j).negate]).1 }

/-! ### The tests after an iteration (R229) -/

/-- How an iteration ends: it goes on, stops with a status, or diverges. -/
inductive IterEnd where
  | goOn
  | stop (status : Bool)
  | diverge
deriving DecidableEq, Repr

/-- r is greater than k4 times the previous residual, exactly. -/
def grows (r k4 old : FP) : Bool := (FP.mul k4 old).1.lt r

/-- ISTAT and the end after an iteration of NS or NINV with residual r. -/
def judge (w : W64) (r old k3 k4 : FP) : W64 × IterEnd :=
  let it := istatIter w + 1
  let w := setBits64 w 26 6 it
  let w := setBits64 w 20 1 (it % 2)
  let w := setBits64 w 32 32 (fpResult .f32 r .rne).1
  if r.isNan || r == .inf false then (setBits64 w 21 3 phaseDivg, .diverge)
  else if r.lt k3 || r.eq k3 then (setBits64 w 21 3 phaseConv, .stop true)
  else
    let g := if 2 ≤ it ∧ grows r k4 old then istatGrow w + 1 else 0
    let w := setBits64 w 24 2 g
    if g = 3 then (setBits64 w 21 3 phaseDivg, .diverge)
    else if it = istatCap w then (setBits64 w 21 3 phaseCap, .stop false)
    else (w, .goOn)

namespace Machine

/-! ### The MITER at the head of the engine -/

/-- The fields of a MITER at the head of the queue. -/
def EngOp.miter? (o : EngOp) : Option TFmt :=
  match o.cap.instr with
  | .miter _ f => some f
  | _ => none

def Mat.bits (m : Mat) (p : Nat) : W64 := f64Bits (m.getD p FP.zero)

/-- The coefficients of a form: k0 to kn, k0 to k4, or k3 and k4 (R227). -/
def miterKs (form n : Nat) : List Nat :=
  match form with
  | 0 => List.range (n % 16 + 1)
  | 1 => [0, 1, 2, 3, 4]
  | _ => [3, 4]

/-- What the checksums of a MITER's tiles may depend on: the form and the format, the steps done, the tiles, the form's coefficients
(R109). -/
def Engine.miterKey (e : Engine) (form : Nat) (t : FF) (n done : Nat) (tiles : List Nat) : SumKey :=
  ⟨[0xE9, form, if t = .f32 then 1 else 0, done],
   (tiles.flatMap fun a => (List.range 4096).map fun q => (e.tile a).elems.get 0 q) ++ (miterKs form n).map fun k => e.ks.get 0 k⟩

/-- The start: ISTAT, RPREV, the planes, the partner's mode; POLY copies X and sets DST to k n times the identity (log 27, DEDUCED). -/
def Engine.miterStart (e : Engine) (f : TFmt) : Engine :=
  let x := f.ops.d.num
  let p := x ^^^ 1
  let key := e.miterKey f.sub.toNat (if f.fmt == .fp32 then .f32 else .bf16) f.ops.imm.toNat 0 [x]
  let e := { e with istat := istatStart f, rprev := 0, active := Plane.zero f.fmt, shadow := Plane.zero f.fmt }
  if f.sub == 0 then
    let k := e.kVal (f.ops.imm.toNat % 16)
    (e.setTile p (Tile.whole key fun q => (e.tile x).elems.get 0 q)).setTile x
      (Tile.whole key (Mat.bits (matOf fun i j => roundF64 (scaledId k i j))))
  else if (e.tile p).int || (e.tile p).ovf then e.setTile p Tile.start
  else e

/-- One iteration, with the engine's registers after it.  NS and NINV write the new X into the partner's storage and exchange
the two names, so that the old X is the partner as it stood (R228, R263). -/
def Engine.miterStep (e : Engine) : Engine × IterEnd :=
  let w := e.istat
  let t := istatFmt w
  let x := istatX w
  let p := x ^^^ 1
  let mx := (e.tile x).mat
  let key := e.miterKey (istatForm w) t (istatCap w) (istatIter w + 1) ([x] ++ (if istatForm w = 0 then [p] else []) ++ if istatForm w = 2 then [istatA w] else [])
  if istatForm w = 0 then
    let it := istatIter w + 1
    let y := polyStep t mx (e.tile p).mat (e.kVal (istatCap w - it))
    let w := setBits64 w 26 6 it
    let e := e.setTile x (Tile.whole key (Mat.bits y))
    if it = istatCap w then ({ e with istat := setBits64 w 21 3 phaseDone }, .stop true)
    else ({ e with istat := w }, .goOn)
  else
    let r := if istatForm w = 1 then nsStep t mx (e.kVal 0) (e.kVal 1) (e.kVal 2) else ninvStep t (e.tile (istatA w)).mat mx
    let j := judge w r.r (FF.f64.val e.rprev.toNat) (e.kVal 3) (e.kVal 4)
    let e := (e.setTile p { e.tile x with ovf := false }).setTile x (Tile.whole key (Mat.bits r.x))
    ({ e with istat := j.1, rprev := f64Bits r.r }, j.2)

/-- The head leaves the queue. -/
def State.popEngine (s : State) (uid : Nat) : State := s.updEngine uid fun e => { e with queue := e.queue.drop 1 }

/-- The status reaches every lane of DECL that still lives, in the predicate (R229); a later-issued write keeps its
destination (R81). -/
def State.miterStatus (s : State) (b : Block) (o : EngOp) (p : Nat) (status : Bool) : State :=
  (List.range b.strands.length).foldl (fun s sid =>
    let st := b.strand sid
    let lanes := (lanesOf st.live).filter fun L => o.decl.getLsbD (sid * b.width + L)
    (o.cap.signers.filter fun g => g.strand == sid).foldl (fun s g =>
      let ws := (lanes.filter fun L => g.lanes.getLsbD L).map fun L => PWrite.pred p L status
      s.writeResult b sid g.seq (ws.filter fun w => !o.cap.dropped.contains (sid, w.tgt))) s) s

/-- A MITER ends: its planes hold zero, its tokens fall. -/
def State.miterEnd (s : State) (b : Block) (o : EngOp) : State :=
  (s.popEngine b.uid).updBlock b.uid fun x => x.releaseSigners o.cap.signers

/-- Reads of the tiles, of the form's coefficients, and of ISTAT once it is set, which find an uncorrectable error (R269): the engine
trap names the first word in error (R316). -/
def State.miterRead (s : State) (b : Block) (o : EngOp) (f : TFmt) : State × Option EngTrap :=
  let x := f.ops.d.num
  -- the partner is read by POLY's steps alone
  let tiles := [x] ++ (if f.sub == 0 && o.started then [x ^^^ 1] else []) ++ (if f.sub == 2 then [f.ops.a.num] else [])
  let reads := (tiles.map fun n => (onTile n fun _ => true, EngTrap.array n)) ++
    ((miterKs f.sub.toNat f.ops.imm.toNat).map fun n => (onKregs (· == n), EngTrap.array n)) ++
    if o.started then [(onIstat, ⟨.ecc, 0, 0x00F⟩)] else []
  (reads.foldl (fun s r => (s.engRead b r.1).1) s, (reads.find? fun r => (s.engRead b r.1).2).map (·.2))

/-- Errors after an iteration: what is written is whole; the old X's go with its storage (R228, R263). -/
def State.miterErrs (s : State) (b : Block) (o : EngOp) (f : TFmt) : State :=
  let x := f.ops.d.num
  let all := fun (_ : Nat) => true
  let s := s.engWritten b fun l =>
    onTile (x ^^^ 1) all l && (f.sub != 0 || !o.started) || onSum (x ^^^ 1) l && (f.sub != 0 || !o.started) ||
    (onTile x all l || onSum x l) && f.sub == 0 || onPlane true l || onPlane false l || onIstat l
  if f.sub == 0 then s
  else s.setMem { s.mem with errs := s.mem.errs.map fun e => match e.1 with
    | .tile u n c => if u = b.uid ∧ n = x then (.tile u (x ^^^ 1) c, e.2) else e
    | .checksum u n c => if u = b.uid ∧ n = x then (.checksum u (x ^^^ 1) c, e.2) else e
    | _ => e }

/-- MITER_ITERATION: the next iteration of the MITER at the head of the engine, its start before the first (R228, R229).  A trap
before the start leaves tiles and planes as they stand, for the operation has had no effect (R214; log 91, DESIGN CHOICE). -/
def State.miterIter (s : State) (b : Block) (o : EngOp) (f : TFmt) : State :=
  let e := b.engine
  let bad := fun (n : Nat) => (e.tile n).int
  if !o.started && (bad f.ops.d.num || (f.sub == 2 && bad f.ops.a.num)) then
    (s.popEngine b.uid).engineTrap b o.cap (.at .illegal 0)
  else
    match s.miterRead b o f with
    | (s, some t) => (s.popEngine b.uid).engineTrap b o.cap t
    | (s, none) =>
      let e0 := if o.started then e else e.miterStart f
      let r := e0.miterStep
      let q := ({ o with started := true } : EngOp) :: e.queue.drop 1
      let s := (s.updEngine b.uid fun _ => { r.1 with queue := q }).miterErrs b o f
      match r.2 with
      | .goOn => s
      | .stop status => (s.miterStatus b o f.ops.b.num status).miterEnd b o
      | .diverge =>
        (s.popEngine b.uid).engineTrap b o.cap ⟨.diverge, 0, BitVec.ofNat 32 (istatIter r.1.istat)⟩

/-- A block at rest in the debugger: its engine does not go on (R328). -/
def Mode.isDebug : Mode → Bool
  | .debug _ => true
  | _ => false

/-- The operation at the head of a block's engine; a closed gate lets none go on (R343, R348). -/
def State.engHead (s : State) (uid : Nat) : Option (Block × EngOp) :=
  match s.block uid with
  | some b => if (s.core b.core).tile.inPlay then b.engine.queue.head?.map fun o => (b, o) else none
  | none => none

def execMiterIteration (uid : Nat) (s : State) : Host.Outcome State Fault Refusal :=
  match s.engHead uid with
  | none => .next s
  | some (b, o) =>
    match o.miter? with
    | some f => if b.mode.isDebug && b.fatal.isNone then .next s else .next (s.miterIter b o f)
    | none => .next s

end Machine
end Sys2Proof
end

