-- ==== Sys2Proof/Machine/Image.lean ====
section
/-!
DEFINITION. The layouts of a save image (R326, R386), part by part in both directions: what a save, CTXST and the debugger
write, and what a restore and CTXLD read.
-/
namespace Sys2Proof
open Machine

/-! ### CRC-32 (R86) -/

/-- One bit of the reflected IEEE 802.3 polynomial. -/
def crcBit (c : W32) : W32 := if c.getLsbD 0 then (c >>> 1) ^^^ 0xEDB88320#32 else c >>> 1

def crcByte (c : W32) (b : Byte) : W32 :=
  (List.range 8).foldl (fun c _ => crcBit c) (c ^^^ b.zeroExtend 32)

/-- The register after the bytes.  Both branches are the same step: the test makes an evaluation go byte by byte. -/
def crcBytes : List Byte → W32 → W32
  | [], c => c
  | b :: bs, c => if c = 0 then crcBytes bs (crcByte 0 b) else crcBytes bs (crcByte c b)

def crc32 (bs : List Byte) : W32 := crcBytes bs 0xFFFFFFFF#32 ^^^ 0xFFFFFFFF#32

/-! ### Byte strings -/

def zeros (n : Nat) : List Byte := List.replicate n 0

/-- Bytes filled up with zeros to a length. -/
def padTo (n : Nat) (bs : List Byte) : List Byte := (bs ++ zeros (n - bs.length)).take n

/-- A multiple of 64 at or above. -/
def align64 (n : Nat) : Nat := (n + 63) / 64 * 64

/-- A field of a record: its offset, its length, its value. -/
def field (off len v : Nat) : Nat × List Byte := (off, leBytes len v)

/-- A record of `size` bytes from its fields, in ascending order of offset; the rest is zero. -/
def record (size : Nat) (fs : List (Nat × List Byte)) : List Byte :=
  padTo size (fs.foldl (fun bs f => padTo f.1 bs ++ f.2) [])

/-- What reads a number at an offset of a part. -/
abbrev Reader := Nat → Nat → Nat

namespace Machine

/-! ### Thread words (R326, R386) -/

/-- p0 to p6 of a lane in bits 6:0, bit 7 one. -/
def predByte (p : Nat → Bool) : Nat := (List.range 7).foldl (fun n i => n + (if p i then 2 ^ i else 0)) 128

def Lane.tokBits (l : Lane) : Nat := l.t0 % 16 + l.t1 % 16 * 16 + l.t2 % 16 * 256 + l.t3 % 16 * 4096

/-- A hold that keeps a fragment at its instruction. -/
def Hold.keeps : Hold → Bool
  | .barwait .. => true
  | .stgwait .. => true
  | .shared => true
  | _ => false

/-- A fetched instruction that is held at issue by an open generation or by a token count of 15 (R36, R49, R50). -/
def State.waitsAtIssue (s : State) (b : Block) (sid : Nat) (f : Frag) : Bool :=
  match (b.strand sid).fetched.find? fun w => w.1 == f.pc with
  | none => false
  | some w =>
    match decode w.2 with
    | .error _ => false
    | .ok i =>
      match i.ctl with
      | none => false
      | some c =>
        match ({ s with cur := some { ref := { blk := b.uid, strand := sid, lane := lowest f.lanes }, word := w.2 } } : State).ctx c with
        | none => false
        | some x => !x.tokenRoom || ((match i with | .cvset _ _ => true | j => (engineEntry j).isSome) && i.held s x)

/-- The thread word of a lane. -/
def State.threadWord (s : State) (b : Block) (sid L : Nat) : List Byte :=
  let st := b.strand sid
  let l := st.lane L
  let p := predByte fun n => st.pred n L
  match st.fragOf L with
  | none => record 16 [field 0 8 (b2n l.live), field 8 1 p, field 9 2 l.tokBits]
  | some f =>
    record 16
      [field 0 8 (f.pc.toNat % 2 ^ 56 / 16 * 16 + b2n l.live + 2 * b2n (f.hold.keeps || s.waitsAtIssue b sid f)),
       field 8 1 p, field 9 2 l.tokBits, field 11 1 (min f.age 255), field 12 1 (f.stall.getD 0 - s.cycle),
       field 13 3 (f.nap.getD 0 - s.cycle)]

/-! ### Display records -/

def Strand.dispRecord (st : Strand) (L : Nat) : List Byte :=
  let l := st.lane L
  record 96
    (((List.range 8).map fun n => field (8 * n) 8 (st.dispReg n L).ptr.toNat) ++
     [field 0x40 1 ((List.range 8).foldl (fun v n => v + (if (st.dispReg n L).valid then 2 ^ n else 0)) 0),
      field 0x41 1 l.cd.toNat, field 0x42 1 l.top.toNat, field 0x44 4 l.fp.toNat, field 0x48 2 l.tnest.toNat,
      field 0x4A 2 l.nest.toNat, field 0x50 8 l.traprec.toNat])

/-- A display record read back, %traprec apart. -/
def Strand.loadDisp (st : Strand) (L : Nat) (r : Reader) : Strand :=
  let v := r 0x40 1
  let st := (List.range 8).foldl (fun st n =>
    st.setDisp n L { ptr := BitVec.ofNat 64 (r (8 * n) 8), valid := v / 2 ^ n % 2 == 1 }) st
  st.setLane L { st.lane L with
    cd := BitVec.ofNat 3 (r 0x41 1), top := BitVec.ofNat 3 (r 0x42 1), fp := BitVec.ofNat 32 (r 0x44 4),
    tnest := BitVec.ofNat 16 (r 0x48 2), nest := BitVec.ofNat 16 (r 0x4A 2) }

/-! ### The strand part -/

/-- P (R326). -/
def strandPart (h : KHeader) : Nat := 64 + 16 * h.width + 32 * h.vgran * h.width + 64 * h.sgran + 96 * h.width

def offThreads : Nat := 64
def offVregs (h : KHeader) : Nat := offThreads + 16 * h.width
def offUregs (h : KHeader) : Nat := offVregs h + 32 * h.vgran * h.width
def offDisp (h : KHeader) : Nat := offUregs h + 64 * h.sgran

def State.strandBytes (s : State) (b : Block) (sid : Nat) : List Byte :=
  let st := b.strand sid
  let h := b.hdr
  record 64 [field 0 4 st.fmode.toNat, field 8 8 st.issued] ++
  (List.range h.width).flatMap (fun L => s.threadWord b sid L) ++
  (List.range (8 * h.vgran)).flatMap (fun v => (List.range h.width).flatMap fun L => leBytes 4 (st.vreg v L).toNat) ++
  (List.range (8 * h.sgran)).flatMap (fun r => leBytes 8 (st.ureg r).toNat) ++
  (List.range h.width).flatMap fun L => st.dispRecord L

/-- Registers, predicates, tokens and display registers read back from a strand's part. -/
def Strand.loadRegs (st : Strand) (h : KHeader) (r : Reader) : Strand :=
  let lanes := List.range h.width
  let st := { st with fmode := BitVec.ofNat 32 (r 0 4), issued := r 8 8 }
  let st := (List.range (8 * h.vgran)).foldl (fun st v => lanes.foldl (fun st L =>
    st.setVreg v L (BitVec.ofNat 32 (r (offVregs h + (v * h.width + L) * 4) 4))) st) st
  let st := (List.range (8 * h.sgran)).foldl (fun st u => st.setUreg u (BitVec.ofNat 64 (r (offUregs h + 8 * u) 8))) st
  lanes.foldl (fun st L =>
    let word := fun off n => r (offThreads + 16 * L + off) n
    let st := (List.range 7).foldl (fun st p => st.setPred p L (word 8 1 / 2 ^ p % 2 == 1)) st
    let st := st.loadDisp L fun off n => r (offDisp h + 96 * L + off) n
    let tok := word 9 2
    st.setLane L { st.lane L with
      live := word 0 1 % 2 == 1, t0 := tok % 16, t1 := tok / 16 % 16, t2 := tok / 256 % 16, t3 := tok / 4096 % 16,
      traprec := BitVec.ofNat 64 (r (offDisp h + 96 * L + 0x50) 8) }) st

/-! ### Convergence records -/

/-- FUNC of an instruction's word. -/
def Instr.func (i : Instr) : Nat := (((encode i).getD 0).extractLsb' 32 16).toNat

/-- One of the nine records of 320 bytes. -/
def Conv.bytes (c : Conv) : List Byte :=
  leBytes 128 c.decl.toNat ++ leBytes 128 c.sig.toNat ++
  (match c.cap with
    | none => zeros 64
    | some k => record 64 ([field 0 1 k.instr.opc.toNat, field 2 2 (Instr.func k.instr)] ++
        (k.vals.take 7).mapIdx fun i v => field (8 + 8 * i) 8 v.toNat))

/-! ### Copies -/

/-- The 32 bytes of a descriptor (R180). -/
def Desc.bytes (d : Desc) : List Byte :=
  record 32 [field 0 8 d.base.toNat, field 8 4 d.rows, field 12 4 d.cols, field 0x10 4 d.pitch, field 0x14 4 d.spitch,
    field 0x18 1 d.dfmt.code.toNat, field 0x19 1 (b2n d.trans + 2 * d.swz)]

def Op.copyBytes (o : Op) (c : CopyRec) : List Byte :=
  record 128
    [field 0 8 c.dst.toNat, field 8 8 c.src.toNat, field 0x10 8 c.count.toNat, field 0x18 8 c.bar.toNat,
     field 0x20 4 c.imm.toNat, field 0x24 1 (if c.tensor then 2 else 1), field 0x25 1 c.fmt.code.toNat,
     field 0x26 1 o.strand, field 0x27 1 c.lane, field 0x28 4 c.credited, field 0x2C 1 o.tok.toNat,
     (0x40, match c.desc with
       | some d => d.bytes
       | none => zeros 32)]

/-- The copies of a block, in issue order. -/
def Block.copies (b : Block) : List (Op × CopyRec) :=
  b.flight.filterMap fun o => match o.kind with
    | .copy c => some (o, c)
    | _ => none

/-- Destination bytes of one step of a copy (R184). -/
def CopyRec.stepBytes (c : CopyRec) : Nat :=
  match c.desc with
  | none => 16
  | some d => if movesBlocks d c.fmt then (if c.fmt == .int4 then 1 else c.fmt.sxSize) else c.fmt.bytes

/-- A copy read back from its record; `none` for an empty one. -/
def loadCopy (r : Reader) (group : Nat) : Option (Nat × Nat × CopyRec) :=
  let kind := r 0x24 1
  if kind ≠ 1 ∧ kind ≠ 2 then none
  else
    let desc := if kind = 2 then Desc.ofBytes ((List.range 32).map fun i => BitVec.ofNat 8 (r (0x40 + i) 1)) else none
    let c : CopyRec :=
      { tensor := kind == 2, dst := BitVec.ofNat 64 (r 0 8), src := BitVec.ofNat 64 (r 8 8),
        count := BitVec.ofNat 64 (r 0x10 8), bar := BitVec.ofNat 64 (r 0x18 8), imm := BitVec.ofNat 32 (r 0x20 4),
        fmt := (Fmt.ofCode (BitVec.ofNat 5 (r 0x25 1))).getD .raw32, lane := r 0x27 1, credited := r 0x28 4, step := 0,
        desc := desc, group := group }
    some (r 0x26 1, r 0x2C 1, { c with step := c.credited / c.stepBytes })

/-! ### The engine -/

abbrev tileSize : Nat := 34816
abbrev planeSize : Nat := 65600
abbrev engRegsSize : Nat := 256

def Tile.bytes (t : Tile) : List Byte :=
  (List.range 4096).flatMap (fun p => leBytes 8 (t.elems.get 0 p).toNat) ++
  (List.range 64).flatMap (fun j => leBytes 8 (t.sumrow.get 0 j).toNat) ++
  (List.range 64).flatMap (fun i => leBytes 8 (t.sumcol.get 0 i).toNat) ++
  padTo 1024 (leBytes 1 (b2n t.int + 2 * b2n t.ovf))

def Tile.load (r : Reader) : Tile :=
  { int := r 0x8400 1 % 2 == 1, ovf := r 0x8400 1 / 2 % 2 == 1,
    elems := (List.range 4096).foldl (fun m p => SMap.set 0 m p (BitVec.ofNat 64 (r (8 * p) 8))) [],
    sumrow := (List.range 64).foldl (fun m j => SMap.set 0 m j (BitVec.ofNat 64 (r (0x8000 + 8 * j) 8))) [],
    sumcol := (List.range 64).foldl (fun m i => SMap.set 0 m i (BitVec.ofNat 64 (r (0x8200 + 8 * i) 8))) [] }

def Plane.bytes (p : Plane) : List Byte :=
  (List.range 16384).flatMap (fun n => leBytes 4 (if n < 64 * p.k then (p.cells.get 0 n).toNat else 0)) ++
  record 64 [field 0 1 p.pf.code.toNat, field 1 2 p.k]

/-- A plane read back; a PF that is no plane format counts as BF16 (log 46, DEDUCED). -/
def Plane.load (r : Reader) : Plane :=
  let k := r 0x10001 2
  { pf := (Fmt.ofCode (BitVec.ofNat 5 (r 0x10000 1))).getD .bf16, k := if k = 128 ∨ k = 256 then k else 64,
    cells := (List.range 16384).foldl (fun m n => SMap.set 0 m n (BitVec.ofNat 32 (r (4 * n) 4))) [] }

/-- The word of a MITER that has not ended (R231). -/
def Engine.miterWord (e : Engine) : Nat :=
  match e.queue with
  | o :: _ => match o.cap.instr with
    | .miter _ _ => ((encode o.cap.instr).getD 0).toNat
    | _ => 0
  | [] => 0

def Engine.regBytes (e : Engine) : List Byte :=
  record 256 (((List.range 16).map fun n => field (8 * n) 8 (e.ks.get 0 n).toNat) ++
    [field 0x80 8 e.istat.toNat, field 0x90 16 e.miterWord, field 0xA0 8 e.rprev.toNat])

def Engine.loadRegs (e : Engine) (r : Reader) : Engine :=
  { e with ks := (List.range 16).foldl (fun m n => SMap.set 0 m n (BitVec.ofNat 64 (r (8 * n) 8))) [],
           istat := BitVec.ofNat 64 (r 0x80 8), rprev := BitVec.ofNat 64 (r 0xA0 8) }

def Engine.bytes (e : Engine) : List Byte :=
  (List.range e.need).flatMap (fun t => (e.tile t).bytes) ++ e.active.bytes ++ e.shadow.bytes ++ e.regBytes

/-- The engine part read back. -/
def Engine.load (e : Engine) (r : Reader) : Engine :=
  let e := (List.range e.need).foldl (fun e t => e.setTile t (Tile.load fun off n => r (tileSize * t + off) n)) e
  let base := tileSize * e.need
  ({ e with active := Plane.load fun off n => r (base + off) n,
            shadow := Plane.load fun off n => r (base + planeSize + off) n }).loadRegs
    fun off n => r (base + 2 * planeSize + off) n

/-! ### Scratchpad -/

/-- The window of a block, byte by byte. -/
def State.windowBytes (s : State) (b : Block) (off n : Nat) : List Byte :=
  (List.range n).map fun i => match s.scratchLoc b (off + i) with
    | some l => s.mem.homeRead l
    | none => 0

/-- Bytes written into a block's window. -/
def State.fillWindow (s : State) (b : Block) (off : Nat) (bs : List Byte) : State :=
  let put := (bs.mapIdx fun i v => (i, v)).filterMap fun iv => (s.scratchLoc b (off + iv.1)).map fun l => (l, iv.2)
  s.setMem (s.mem.homePut put)

/-! ### Offsets and the header -/

/-- The offsets of the parts: OSTR, OCV, OCOPY, OENG, OSP, TOTAL. -/
structure Offsets where
  ostr : Nat
  ocv : Nat
  ocopy : Nat
  oeng : Nat
  osp : Nat
  total : Nat
deriving DecidableEq, Repr

def engPartSize (need : Nat) : Nat := if need = 0 then 0 else need * tileSize + 2 * planeSize + engRegsSize

def offsetsOf (h : KHeader) (grant : Nat) : Offsets :=
  let ocv := align64 (0x200 + h.strands * strandPart h)
  let ocopy := align64 (ocv + 9 * 320)
  let oeng := align64 (ocopy + 64 * 128)
  let osp := align64 (oeng + engPartSize h.atiles)
  { ostr := 0x200, ocv := ocv, ocopy := ocopy, oeng := if h.atiles = 0 then 0 else oeng, osp := osp, total := osp + grant }

/-- The header's first 0xFC bytes (R326). -/
def State.imageHead (s : State) (b : Block) (kind flags : Nat) (coopslot : W64) : List Byte :=
  let h := b.hdr
  let o := offsetsOf h b.grant
  record 0xFC
    [field 0 4 0x49534D58, field 4 2 1, field 6 1 kind, field 7 1 flags, field 8 1 h.strands, field 9 1 h.width,
     field 0xA 1 h.vgran, field 0xB 1 h.sgran, field 0xC 1 h.atiles, field 0xE 2 (b.grant / 1024), field 0x10 8 b.code.toNat,
     field 0x18 4 b.koff, field 0x1C 4 b.idx, field 0x20 8 b.arg.toNat, field 0x28 8 b.pb0.toNat,
     field 0x30 8 b.trapArea.toNat, field 0x38 8 b.instrs, field 0x40 4 b.gseq, field 0x44 4 o.ostr, field 0x48 4 o.ocv,
     field 0x4C 4 o.ocopy, field 0x50 4 o.oeng, field 0x54 4 o.osp, field 0x58 4 o.total, field 0x5C 8 coopslot.toNat,
     field 0x64 8 s.cycle]

/-- A header with its CRC. -/
def sealHead (head : List Byte) : List Byte := head ++ leBytes 4 (crc32 head).toNat

/-- The internal register as an image records it: with the signatures that the block's threads gave at CFENTER or CFLEAVE, and, when
no generation of the block's own is open, with the cluster's declared threads and captured instruction (R49, R326, R386). -/
def State.innerRecord (s : State) (b : Block) : Conv :=
  let cl := s.cluster b.cluster
  let mine := fun (v : BitVec 4096) => (v >>> (1024 * b.rank)).truncate 1024
  let sig := b.inner.sig ||| mine cl.sig
  match b.inner.cap, cl.cap with
  | none, some i =>
    { decl := mine cl.decl, sig := sig, cap := some { instr := i, vals := [], counts := 0, lane := 0, pc := 0, signers := [], dropped := [] } }
  | _, _ => { b.inner with sig := sig }

/-- A forced image, whole: the header, no cooperative table, the parts. -/
def State.image (s : State) (b : Block) (kind flags : Nat) (coopslot : W64) : List Byte :=
  let h := b.hdr
  let o := offsetsOf h b.grant
  let cvs := ((List.range 8).flatMap fun n => (b.cv n).bytes) ++ (s.innerRecord b).bytes
  let copies := padTo (64 * 128) (b.copies.flatMap fun oc => oc.1.copyBytes oc.2)
  let body := sealHead (s.imageHead b kind flags coopslot) ++ zeros 256 ++
    (List.range h.strands).flatMap fun sid => s.strandBytes b sid
  let body := padTo o.ocv body ++ cvs
  let body := padTo o.ocopy body ++ copies
  let body := if h.atiles = 0 then body else padTo o.oeng body ++ b.engine.bytes
  padTo o.osp body ++ s.windowBytes b 0 b.grant

end Machine
end Sys2Proof
end

