-- ==== Sys2Proof/Machine/Context.lean ====
section
/-!
DEFINITION. Context instructions (R233, R234): CTXST, CTXLD and SVDONE; and the steps LOAD_DATA_RETURN and STORE_PERFORMED,
which perform them beside the loads and stores.
-/
namespace Sys2Proof
open Machine

namespace Machine

/-! ### Ranges -/

/-- Classes that move the active lanes only; the others move the state once. -/
def perLane (cls : Nat) : Bool := cls == 0 || cls == 2 || cls == 3

/-- Classes of the matrix engine. -/
def engineClass (cls : Nat) : Bool := cls == 5 || cls == 6 || cls == 7

/-- A range within the block's allocation. -/
def CtxRange.ok (r : CtxRange) (b : Block) : Bool :=
  match r.cls.toNat with
  | 0 => decide (r.first + r.count ≤ b.hdr.vgran)
  | 1 => decide (r.first + r.count ≤ b.hdr.sgran)
  | 5 => b.hdr.atiles != 0 && decide (r.first + r.count ≤ b.hdr.atiles)
  | 8 => decide (r.first + r.count ≤ b.grant / 1024)
  | c => r.first == 0 && r.count == 1 && (!engineClass c || b.hdr.atiles != 0)

/-- The stretches of the part that a range takes, for a lane. -/
def CtxRange.spans (r : CtxRange) (b : Block) (L : Nat) : List (Nat × Nat) :=
  match r.cls.toNat with
  | 0 => (List.range (8 * r.count)).map fun i => (((8 * r.first + i) * b.width + L) * 4, 4)
  | 1 => [(64 * r.first, 64 * r.count)]
  | 2 => [(16 * L + 8, 3)]
  | 3 => [(96 * L, 96)]
  | 4 => [(0, 9 * 320)]
  | 5 => [(tileSize * r.first, tileSize * r.count)]
  | 6 => [(0, 2 * planeSize)]
  | 7 => [(0, engRegsSize)]
  | _ => [(1024 * r.first, 1024 * r.count)]

def State.ctxRange (s : State) (x : Ctx) (f : SFmt) (L : Nat) : CtxRange :=
  { cls := f.sub, first := s.op32 x f.ops.b f.ops.imm L, count := s.op32 x f.ops.c f.ops.imm L }

/-- The lanes whose operands count. -/
def ctxLanes (f : SFmt) (x : Ctx) : List Nat := if perLane f.sub.toNat then x.lanes else x.lanes.take 1

/-- A range beyond the allocation, in a lane whose operands can be read. -/
def ctxIllegal (f : SFmt) (s : State) (x : Ctx) : Bool :=
  (ctxLanes f x).any fun L => s.slotReadable x f.ops.b L && s.slotReadable x f.ops.c L && !(s.ctxRange x f L).ok x.blk

/-! ### Places -/

/-- The addresses of the bytes that a lane moves. -/
def State.ctxAddrs (s : State) (x : Ctx) (f : SFmt) (L : Nat) : List W64 :=
  ((s.ctxRange x f L).spans x.blk L).flatMap fun sp =>
    (List.range sp.2).map fun i => s.op64 x f.ops.a L + BitVec.ofNat 64 (sp.1 + i)

/-- The translation of a byte of the part. -/
def State.ctxXlate (s : State) (x : Ctx) (acc : Access) (a : W64) : Option Xlate :=
  match va56 a with
  | some va => if tagOf a = 0 then s.translate (some x.blk.quadId) x.blk.ten x.blk.pasid va acc else none
  | none => none

/-- Page formats of context moves. -/
def ctxPageOk (v : Xlate) : Bool := (v.fmt == Fmt.raw32.code || v.fmt == Fmt.raw64.code) && v.geom == 0

/-- The checks of R169, in their order. -/
def State.ctxTraps (s : State) (x : Ctx) (f : SFmt) (acc : Access) : List (Option Trap) :=
  let lanes := ctxLanes f x
  let base := fun L => s.op64 x f.ops.a L
  [laneTrap .access lanes fun L => if tagOf (base L) ≠ 0 then some (base L) else none,
   laneTrap .access lanes fun L => if (base L).extractLsb' 56 4 ≠ 0 then some (base L) else none,
   laneTrap .align lanes fun L => if (base L).extractLsb' 0 6 ≠ 0 then some (base L) else none,
   laneTrap .access lanes fun L => (s.ctxAddrs x f L).find? fun a => (s.ctxXlate x acc a).isNone,
   laneTrap .format lanes fun L => (s.ctxAddrs x f L).find? fun a => !((s.ctxXlate x acc a).any ctxPageOk)]

/-- The places of a lane's bytes, once the checks have passed. -/
def State.ctxLocs (s : State) (x : Ctx) (f : SFmt) (acc : Access) (L : Nat) : List Loc :=
  (s.ctxAddrs x f L).filterMap fun a => match va56 a, s.ctxXlate x acc a with
    | some va, some v => some (.phys (v.pa va))
    | _, _ => none

/-! ### Values -/

/-- What CTXST writes for a lane, byte by byte in the order of `ctxAddrs` (log 28, DEDUCED). -/
def State.ctxBytes (s : State) (x : Ctx) (r : CtxRange) (L : Nat) : List Byte :=
  match r.cls.toNat with
  | 0 => (List.range (8 * r.count)).flatMap fun i => leBytes 4 (x.vreg (8 * r.first + i) L).toNat
  | 1 => (List.range (8 * r.count)).flatMap fun i => leBytes 8 (x.ureg (8 * r.first + i)).toNat
  | 2 => leBytes 1 (predByte fun n => x.pred n L) ++ leBytes 2 (x.st.lane L).tokBits
  | 3 => x.st.dispRecord L
  | 4 => ((List.range 8).flatMap fun n => (x.blk.cv n).bytes) ++ x.blk.inner.bytes
  | 8 => s.windowBytes x.blk (1024 * r.first) (1024 * r.count)
  | _ => []

/-- The registers that a lane of CTXST reads (R80); a thread's state word by its predicates or its display registers. -/
def CtxRange.reads (r : CtxRange) (L : Nat) : List Reading :=
  match r.cls.toNat with
  | 0 => (List.range (8 * r.count)).map fun i => ⟨.vreg (8 * r.first + i) L, BitVec.ofNat 32 (8 * r.first + i), L⟩
  | 1 => (List.range (8 * r.count)).map fun i => ⟨.ureg (8 * r.first + i), BitVec.ofNat 32 (0x400 + 8 * r.first + i), L⟩
  | 2 => (List.range 7).map fun n => ⟨.pred n L, BitVec.ofNat 32 (0xC00 + n), L⟩
  | _ => []

/-- The places of a class 8 range, with their addresses in the block's scratchpad. -/
def State.ctxScratch (s : State) (b : Block) (r : CtxRange) : List (Loc × W64) :=
  (s.windowPlaces b (1024 * r.first) (1024 * r.count)).mapIdx fun i l =>
    (l, BitVec.ofNat 64 (2 * 2 ^ 60 + 1024 * r.first + i))

/-- The words of protected arrays that CTXST of a class outside the engine reads (R269). -/
def ctxErrReads (f : SFmt) (s : State) (x : Ctx) : List ErrRead :=
  (ctxLanes f x).flatMap fun L =>
    (((s.ctxRange x f L).reads L).map x.errRead) ++
    (if f.sub == 3 then ⟨.thread x.blk.uid x.sid L, 0, L⟩ :: (List.range 8).map fun n => ⟨.disp x.blk.uid x.sid n L, 0, L⟩
     else []) ++
    (if f.sub == 4 then (List.range 9).map fun n => ⟨.conv x.blk.uid n, BitVec.ofNat 32 (0xC00 + n), L⟩ else [])

/-- ECC at the first of the places that is bad, for a lane. -/
def eccAt (bad : Loc → Bool) (locs : List (Loc × W64)) : Option W64 := (locs.find? fun l => bad l.1).map (·.2)

/-- STALLCHK and ECC of the state that CTXST reads (R80, R269, R275). -/
def ctxReadTrap (f : SFmt) (s : State) (x : Ctx) : Option Trap :=
  let rs := (ctxLanes f x).flatMap fun L => (s.ctxRange x f L).reads L
  let fl := x.blk.inFlight x.sid
  let stall := if fmodeChk x.st.fmode && !fl.isEmpty then readTrap .stallchk rs fun r => fl.contains r.tgt else none
  stall.orElse fun _ => if s.mem.errs.isEmpty then none else errTrap s (ctxErrReads f s x)

/-- Poison in the scratchpad that a class 8 CTXST reads, after the search (R275). -/
def ctxSpadTrap (f : SFmt) (s : State) (x : Ctx) : Option Trap :=
  if f.sub == 8 && x.active != 0 && s.mem.anyBad then
    (eccAt (fun l => s.mem.anyPoison [l]) (s.ctxScratch x.blk (s.ctxRange x f x.lead))).map fun a =>
      Trap.of .ecc x.active a 0xFFFFFFFF#32
  else none

/-- What a CTXST reads is searched and corrected (R269, R275). -/
def ctxstScan (f : SFmt) (s : State) (x : Ctx) : State :=
  let s := s.corrected x.blk.core x.blk.quad ((ctxErrReads f s x).map (·.loc)).contains
  if f.sub == 8 && x.active != 0 then s.scanHome ((s.ctxScratch x.blk (s.ctxRange x f x.lead)).map (·.1)) else s

/-- The registers and predicates that CTXLD writes, in the order of its bytes. -/
def CtxRange.targets (r : CtxRange) (L : Nat) : List Tgt :=
  match r.cls.toNat with
  | 0 => (List.range (8 * r.count)).map fun i => .vreg (8 * r.first + i) L
  | 1 => (List.range (8 * r.count)).map fun i => .ureg (8 * r.first + i)
  | 2 => (List.range 7).map fun n => .pred n L
  | _ => []

/-! ### CTXST and CTXLD -/

/-- A move of an engine class takes its place in the engine's order (R213). -/
def State.ctxEngine (s : State) (x : Ctx) (i : Instr) (r : CtxRange) (base : W64) (locs : List Loc) : State :=
  let c : Capture :=
    { instr := i, vals := [BitVec.ofNat 64 r.first, BitVec.ofNat 64 r.count, base], counts := 0, lane := x.lead, pc := x.fr.pc,
      signers := [x.signer s.nextId], dropped := [] }
  let o : EngOp :=
    { id := s.nextId, cap := c, decl := 0, bound := [], dst := [], locs := locs, started := false }
  { s.updBlock x.blk.uid fun b => { b with eng := b.eng.map fun e => { e with queue := e.queue ++ [o] } } with
    nextId := s.nextId + 1 }

/-- The pages of a context move put to use. -/
def State.ctxUse (s : State) (x : Ctx) (f : SFmt) (acc : Access) : State :=
  (ctxLanes f x).foldl (fun s' L => ((s.ctxRange x f L).spans x.blk L).foldl (fun s' sp =>
    match va56 (s.op64 x f.ops.a L + BitVec.ofNat 64 sp.1) with
    | some va => s'.useRange (some x.blk.quadId) x.blk.ten x.blk.pasid va sp.2 acc
    | none => s') s') s

def ctxstBody (c : Ctl) (f : SFmt) (s : State) (x : Ctx) : Except Trap Done :=
  if x.active = 0 then .ok (Done.now x s)
  else
    let lanes := ctxLanes f x
    let used := s.ctxUse x f .write
    let r0 := s.ctxRange x f x.lead
    orTraps (s.ctxTraps x f .write ++ [ctxSpadTrap f s x])
      (Done.later x
        (if engineClass f.sub.toNat then used.ctxEngine x (.ctxst c f) r0 (s.op64 x f.ops.a x.lead) (s.ctxLocs x f .write x.lead)
         else used.startOp x .rlx .dev false (.ctxst (lanes.flatMap fun L =>
           (s.ctxLocs x f .write L).zip (s.ctxBytes x (s.ctxRange x f L) L)))))

def execCtxst (c : Ctl) (f : SFmt) : State → Host.Outcome State Fault Refusal :=
  issue (.ctxst c f) c ({ Entry.plain with illegal := ctxIllegal f, sign := ctxReadTrap f }.scans (ctxstScan f)) (ctxstBody c f)

/-- The places of a lane's bytes, with their addresses. -/
def State.ctxPlaces (s : State) (x : Ctx) (f : SFmt) (L : Nat) : List (Loc × W64) :=
  (s.ctxLocs x f .read L).zip (s.ctxAddrs x f L)

/-- Poison under the bytes that CTXLD reads traps precisely, for every lane that meets it (R24, R178). -/
def State.ctxPoison (s : State) (x : Ctx) (f : SFmt) : Option Trap :=
  if !s.mem.anyBad then none
  else
    let at_ := fun L => eccAt (fun l => s.loadBad x.blk [l]) (s.ctxPlaces x f L)
    eccLanes (ctxLanes f x) (fun L => (at_ L).isSome) fun L => (at_ L).getD 0

def ctxldBody (c : Ctl) (f : SFmt) (s : State) (x : Ctx) : Except Trap Done :=
  if x.active = 0 then .ok (Done.now x s)
  else
    let lanes := ctxLanes f x
    let used := s.ctxUse x f .read
    let r0 := s.ctxRange x f x.lead
    orTraps (s.ctxTraps x f .read ++ [s.ctxPoison x f])
      (Done.later x
        (if engineClass f.sub.toNat then used.ctxEngine x (.ctxld c f) r0 (s.op64 x f.ops.a x.lead) (s.ctxLocs x f .read x.lead)
         else used.startOp x .rlx .dev false
           (.ctxld r0 (lanes.flatMap fun L => (s.ctxRange x f L).targets L) (lanes.flatMap fun L => s.ctxPlaces x f L))))

def execCtxld (c : Ctl) (f : SFmt) : State → Host.Outcome State Fault Refusal :=
  issue (.ctxld c f) c ({ Entry.plain with illegal := ctxIllegal f }.scans fun s x =>
    s.scanLoad x.blk ((ctxLanes f x).flatMap fun L => s.ctxLocs x f .read L)) (ctxldBody c f)

/-! ### Their performance -/

/-- What moves bytes at once waits for its lanes' earlier accesses to them (R239, R246), and for places that wait. -/
def State.bytesReady (s : State) (b : Block) (sid before : Nat) (m : Lanes) (write : Bool) (locs : List Loc) : Bool :=
  s.clear b sid before m (fun w n => locs.any fun l => w.overlaps n l 1) &&
  !locs.any (fun l => s.locWaits write l || (match l with
    | .phys pa => s.pathBusy b.core before pa
    | .spad _ _ => false))

/-- The bytes of CTXST stored, once its request has been accepted. -/
def State.ctxstStep (s : State) (b : Block) (o : Op) (bytes : List (Loc × Byte)) : State :=
  if s.answers b o && s.bytesReady b o.strand o.id o.active true (bytes.map (·.1)) then (s.enginePut b bytes).completeOp b.uid o else s

/-- The registers of a CTXLD from its bytes. -/
def ctxWrites (ts : List Tgt) (bs : List Byte) : List PWrite :=
  ts.mapIdx fun i t => match t with
    | .vreg r L => .vreg r L (BitVec.ofNat 32 (leNum ((bs.drop (4 * i)).take 4)))
    | .ureg r => .ureg r (BitVec.ofNat 64 (leNum ((bs.drop (8 * i)).take 8)))
    | .pred n L => .pred n L ((bs.getD (3 * (i / 7)) 0).getLsbD n)
    | .slot L loc => .slot L loc 0

/-- What reads a number in a list of bytes. -/
def readerOf (bs : List Byte) : Reader := fun off n => leNum ((bs.drop off).take n)

/-- The engine's registers and the state that a class restores lose their errors (R269). -/
def ctxldErrs (b : Block) (cls : BitVec 4) : ErrLoc → Bool
  | .conv u _ => u == b.uid && cls == 4
  | _ => false

/-- The signers that the bits of SIG stand for, without tokens, before every write that is still to come. -/
def sigSigners (b : Block) (sig : BitVec 1024) : List Signer :=
  (List.range b.strands.length).filterMap fun sid =>
    let m := laneSet fun L => decide (L < b.width) && sig.getLsbD (sid * b.width + L)
    if m = 0 then none else some { strand := sid, seq := 0, lanes := m, all := m, tok := 0 }

/-- The instruction of a capture that an image names by OPC and FUNC alone: the operands that the image does not hold are
free values (log 47, DESIGN CHOICE). -/
def loadedInstr (b : Block) (n opc func : Nat) (vals : List W64) (key : Nat) : Option Instr :=
  let free := fun (i m : Nat) => (Config.freeWord (key + i)).toNat % max m 1
  let v0 := (vals.getD 0 0).toNat
  let d := if opc = 0xEA ∨ opc = 0xEB then v0 % 16 else free 0 b.hdr.atiles
  let ops : Ops :=
    { d := .imm (BitVec.ofNat 9 d), a := .imm (BitVec.ofNat 9 (free 1 b.hdr.atiles)), b := .imm (BitVec.ofNat 9 (free 2 7)),
      c := .imm (BitVec.ofNat 9 n),
      imm := BitVec.ofNat 32 (if opc = 0xE9 then (if func / 2 ^ 12 = 0 then v0 else 1 + free 3 63) else 0) }
  decodeFormat (BitVec.ofNat 128 (opc * 2 ^ 120 + 7 * 2 ^ 112 + func * 2 ^ 32)) ops

/-- The counts of such a capture. -/
def loadedCounts (key : Nat) : W32 :=
  let f := (Config.freeWord (key + 4)).toNat
  BitVec.ofNat 32 (1 + f % 64 + 256 * (1 + f / 64 % 64))

/-- A convergence record read back: a capture that stands already with that OPC and FUNC keeps its operands. -/
def loadConv (b : Block) (n : Nat) (old : Option Capture) (r : Reader) (key : Nat) : Conv :=
  let decl := BitVec.ofNat 1024 (r 0 128)
  let sig := BitVec.ofNat 1024 (r 128 128)
  let opc := r 256 1
  let func := r 258 2
  let vals := (List.range 7).map fun i => BitVec.ofNat 64 (r (264 + 8 * i) 8)
  if sig = 0 then { decl := decl, sig := 0, cap := none }
  else
    let same := match old with
      | some c => c.instr.opc.toNat == opc && Instr.func c.instr == func
      | none => false
    let cap := if same then old.map fun c => { c with vals := vals.take c.vals.length }
      else (loadedInstr b n opc func vals key).map fun i =>
        { instr := i, vals := vals, counts := loadedCounts key, lane := 0, pc := 0, signers := sigSigners b sig, dropped := [] }
    { decl := decl, sig := sig, cap := cap }

/-- The state that a CTXLD of the other classes restores. -/
def State.ctxRestore (s : State) (b : Block) (o : Op) (r : CtxRange) (bs : List Byte) : State :=
  match r.cls.toNat with
  | 3 =>
    (s.updStrand b.uid o.strand fun st =>
      ((lanesOf o.active).mapIdx fun i L => (i, L)).foldl (fun st iL =>
        st.loadDisp iL.2 (readerOf ((bs.drop (96 * iL.1)).take 96))) st).dispGone b.uid o.strand fun _ L => o.active.getLsbD L
  | 4 =>
    let at_ := fun n => readerOf ((bs.drop (320 * n)).take 320)
    let s' := s.updBlock b.uid fun x =>
      let x := (List.range 8).foldl (fun x n => x.setCv n (loadConv b n (b.cv n).cap (at_ n) (s.fresh + 8 * n))) x
      { x with inner := loadConv b 8 b.inner.cap (at_ 8) (s.fresh + 64) }
    { s' with fresh := s.fresh + 128 }.errsGone (ctxldErrs b r.cls)
  | 8 => s.fillWindow b (1024 * r.first) bs
  | _ => s

/-- CTXLD reads its bytes and restores its class. -/
def State.ctxldStep (s : State) (b : Block) (o : Op) (r : CtxRange) (ts : List Tgt) (places : List (Loc × W64)) : State :=
  let locs := places.map (·.1)
  if !s.answers b o || !s.bytesReady b o.strand o.id o.active false locs then s
  else
    let bs := locs.map fun l => match l with
      | .phys pa => s.mem.readLoc (s.l1Quad b pa) l
      | l => s.mem.readLoc 0 l
    let s := s.scanLoad b locs
    if s.loadBad b locs then
      (s.completeOp b.uid o).updStrand b.uid o.strand fun st =>
        st.pendEcc o.active ((eccAt (fun l => s.loadBad b [l]) places).getD 0) o.pc
    else
      let ws := (ctxWrites ts bs).filter fun w => !o.dropped.contains w.tgt
      ((s.writeResult b o.strand o.id ws).ctxRestore b o r bs).completeOp b.uid o

/-- LOAD_DATA_RETURN: a load's next lane, or the bytes of a CTXLD. -/
def execLoadDataReturn (uid id : Nat) (s : State) : Host.Outcome State Fault Refusal :=
  match s.opOf uid id with
  | none => .next s
  | some (b, o) =>
    match o.kind with
    | .ctxld r ts locs => .next (s.ctxldStep b o r ts locs)
    | _ => .next (s.loadStep b o)

/-- STORE_PERFORMED: a store's next lane, or the bytes of a CTXST. -/
def execStorePerformed (uid id : Nat) (s : State) : Host.Outcome State Fault Refusal :=
  match s.opOf uid id with
  | none => .next s
  | some (b, o) =>
    match o.kind with
    | .ctxst bytes => .next (s.ctxstStep b o bytes)
    | _ => .next (s.storeStep b o)

/-! ### SVDONE (R234) -/

/-- The cooperative phase gives way to the forced save, in the second slot (R324). -/
def Mode.force : Mode → Mode
  | .coop slot second _ reason => .saving second (some slot) reason
  | m => m

/-- SVDONE.force: the budget has run out. -/
def Mode.hurry (cycle : Nat) : Mode → Mode
  | .coop slot second _ reason => .coop slot second (some cycle) reason
  | m => m

def svdoneBody (f : SFmt) (s : State) (x : Ctx) : Except Trap Done :=
  if x.active = 0 then .ok (Done.now x s)
  else if f.sub == 0 then
    .ok (Done.now x (s.updStrand x.blk.uid x.sid fun st => { st with svdone := some (x.direct f.ops.imm, st.live) }))
  else
    let s := s.updBlock x.blk.uid fun b => { b with mode := b.mode.hurry s.cycle }
    .ok (Done.now x { s with agenda := s.agenda ++ [.saveBudgetExpiry x.blk.uid] })

def execSvdone (c : Ctl) (f : SFmt) : State → Host.Outcome State Fault Refusal :=
  issue (.svdone c f) c { Entry.plain with illegal := fun _ x => !x.blk.inCoop } (svdoneBody f)

/-! ### The engine's queue -/

/-- CTXST of an engine class: tiles are verified as a drain does. -/
def State.engCtxst (s : State) (b : Block) (cls first count : Nat) (locs : List Loc) : EngRes :=
  let e := b.engine
  let put := fun (s : State) (bs : List Byte) => s.enginePut b (locs.zip bs)
  match cls with
  | 5 =>
    let ts := (List.range count).map fun i => first + i
    let r := ts.foldl (fun (r : EngRes) t => match r.2 with
      | some _ => r
      | none => r.1.drain b t) (s, none)
    match r with
    | (s, some t) => (s, some t)
    | (s, none) => (put s (ts.flatMap fun t => (e.tile t).bytes), none)
  | 6 =>
    let r := s.engRead b fun l => onPlane true l || onPlane false l
    if r.2 then (r.1, some ⟨.ecc, 0, 0⟩) else (put r.1 (e.active.bytes ++ e.shadow.bytes), none)
  | _ =>
    let r := s.engRead b fun l => onKregs (fun _ => true) l || onIstat l
    if r.2 then (r.1, some ⟨.ecc, 0, 0⟩) else (put r.1 e.regBytes, none)

/-- CTXLD of an engine class, from its base address. -/
def State.engCtxld (s : State) (b : Block) (cls first count : Nat) (base : W64) (locs : List Loc) : EngRes :=
  let s := s.scanLoad b locs
  if s.loadBad b locs then
    let off := (if cls = 5 then tileSize * first else 0) + ((locs.findIdx? fun l => s.loadBad b [l]).getD 0)
    (s, some (.at .ecc (base + BitVec.ofNat 64 off)))
  else
    let rd := readerOf (locs.map fun l => match l with
      | .phys pa => s.mem.readLoc (s.l1Quad b pa) l
      | l => s.mem.readLoc 0 l)
    match cls with
    | 5 =>
      ((s.updEngine b.uid fun e => (List.range count).foldl (fun e i =>
        e.setTile (first + i) (Tile.load fun off n => rd (tileSize * i + off) n)) e).engWritten b fun l =>
          (List.range count).any fun i => onTile (first + i) (fun _ => true) l || onSum (first + i) l, none)
    | 6 =>
      ((s.updEngine b.uid fun e =>
        { e with active := Plane.load rd, shadow := Plane.load fun off n => rd (planeSize + off) n }).engWritten b fun l =>
          onPlane true l || onPlane false l, none)
    | _ =>
      ((s.updEngine b.uid fun e => e.loadRegs rd).engWritten b fun l => onKregs (fun _ => true) l || onIstat l, none)

/-- An ACCST.add to global memory goes through the locks of R288. -/
def State.needsLocks (s : State) (b : Block) (c : Capture) : Option TFmt :=
  match c.instr with
  | .accst _ f =>
    match s.matrixDesc b (c.val 0) f.fmt true with
    | .ok d => if f.add && tagOf d.base == 0 then some f else none
    | .error _ => none
  | _ => none

/-- What an operation reads of scratchpad and memory is searched for soft errors (R269, R275). -/
def State.engScan (s : State) (b : Block) (c : Capture) : State :=
  match c.instr with
  | .ldstat _ f => s.scanHome (s.operandPlaces b (c.val 0) (elemGrid (planeK f.fmt) 64))
  | .mstream _ _ => s.scanHome (s.operandPlaces b (c.val 0) (elemGrid (countRows c.counts) b.engine.active.k))
  | .accst _ _ => s.scanHome (s.descLocs b (c.val 0))
  | .kld _ f => s.scanLoad b (s.kldPlaces b f.fmt (c.val 1) c.counts.toNat)
  | _ => s

/-- The effect of the operation at the head of the engine, other than a MITER. -/
def State.engEffect (s : State) (b : Block) (o : EngOp) : EngRes :=
  let c := o.cap
  let s := s.engScan b c
  match c.instr with
  | .mzero _ f => s.engMzero b f
  | .ldstat _ f => s.engLdstat b f (c.val 0)
  | .pswap _ _ => s.engPswap b
  | .mstream _ f => s.engMstream b f (c.val 0) c.counts
  | .accst _ f => s.engAccst b f (c.val 0) c.counts
  | .accchk _ f => s.engAccchk b f
  | .accmov _ f => s.engAccmov b f c.counts
  | .accplane _ f => s.engAccplane b f
  | .kld _ f => s.engKld b f (c.val 1) c.counts.toNat
  | .kmov _ f => s.engKmov b f (c.val 1)
  | .accld _ _ =>
    (c.signers.foldl (fun s g => s.writeResult b g.strand o.id (o.writes g.strand)) s, none)
  | .ctxst _ f => s.engCtxst b f.sub.toNat (c.val 0).toNat (c.val 1).toNat o.locs
  | .ctxld _ f => s.engCtxld b f.sub.toNat (c.val 0).toNat (c.val 1).toNat (c.val 2) o.locs
  | _ => (s, none)

/-- The head leaves with its result: its tokens fall, or its signers trap (R214). -/
def endEngine (b : Block) (o : EngOp) (r : EngRes) : State :=
  match r.2 with
  | none => (r.1.popEngine b.uid).updBlock b.uid fun x => x.releaseSigners o.cap.signers
  | some t => (r.1.popEngine b.uid).engineTrap b o.cap t

/-- The signers' earlier accesses have been performed: the operation's reads observe them (R215, R243). -/
def State.signersDone (s : State) (b : Block) (c : Capture) : Bool :=
  c.signers.all fun g => s.earlierDone b g.strand g.seq g.lanes .dev

/-- What an operation of the engine asks of the fabric; an operation that has been issued goes on under LOW (R336, R370, R374; log
55, DEDUCED).  A tile update of global memory asks by its locks instead. -/
def State.engAsks (s : State) (b : Block) (o : EngOp) : List Ask :=
  match o.cap.instr with
  | .accst _ f =>
    if (s.needsLocks b o.cap).isSome then []
    else match s.accstPlan b f (o.cap.val 0) o.cap.counts with
      | .ok p => asksFor o.id true true (p.2.flatMap (·.2))
      | .error _ => []
  | .kld _ f => asksFor o.id true false (s.kldPlaces b f.fmt (o.cap.val 1) o.cap.counts.toNat)
  | .ctxst _ _ => asksFor o.id true true o.locs
  | .ctxld _ _ => asksFor o.id true false o.locs
  | .accld _ _ => s.slotAsks b true (o.dst.filterMap fun d => match d.2.2 with
    | .slot _ loc => some loc
    | _ => none)
  | _ => []

/-- When the head may begin: the homes answer; after its signers' earlier accesses, of which ACCLD has none to read, and the context moves those
to the same bytes; and when no place that it writes waits (R288). -/
def State.engReady (s : State) (b : Block) (o : EngOp) : Bool :=
  (s.engAsks b o).all (s.reached b) && ((s.engAsks b o).isEmpty || (s.core b.core).tile.inPlay) && match o.cap.instr with
  | .accld _ _ => true
  | .ctxst _ _ => o.cap.signers.all fun g => s.bytesReady b g.strand g.seq g.lanes true o.locs
  | .ctxld _ _ => o.cap.signers.all fun g => s.bytesReady b g.strand g.seq g.lanes false o.locs
  | .accst _ f =>
    s.signersDone b o.cap && (match s.accstPlan b f (o.cap.val 0) o.cap.counts with
      | .ok p => !(p.2.any fun q => q.2.any (s.locWaits true))
      | .error _ => true)
  | _ => s.signersDone b o.cap

/-- ENGINE_OP_COMPLETE: the operation at the head of the engine has its whole effect (R213). -/
def execEngineOpComplete (uid : Nat) (s : State) : Host.Outcome State Fault Refusal :=
  match s.engHead uid with
  | none => .next s
  | some (b, o) =>
    if o.miter?.isSome || (s.needsLocks b o.cap).isSome || !s.engReady b o then .next s
    else .next ((endEngine b o (s.engEffect b o)).closeAsks uid (s.engAsks b o))

/-! ### Tile updates of global memory (R288) -/

def MemSys.unlock (m : MemSys) (uid : Nat) : MemSys := { m with locks := m.locks.filter fun k => k.2 != uid }

/-- A line is locked at its home: L1 copies recalled, the slice's dirty bytes written back. -/
def MemSys.lockLine (m : MemSys) (line uid : Nat) : MemSys :=
  let m := ((m.takeLine line).dropTag line).writeBack line
  { m with locks := m.locks ++ [(line, uid)] }

/-- The lines of an update that are not locked yet, ascending; or its fault. -/
def State.toLock (s : State) (b : Block) (o : EngOp) (f : TFmt) : Except EngTrap (List Nat) :=
  match s.accstPlan b f (o.cap.val 0) o.cap.counts with
  | .error t => .error t
  | .ok p => .ok ((updateLines p.2).filter fun l => !s.mem.locks.contains (l, b.uid))

/-- The lock of a line may be asked for: nobody holds it, the signers' accesses are done, and the request may enter the fabric. -/
def State.mayLock (s : State) (b : Block) (o : EngOp) (line : Nat) : Bool :=
  !s.mem.locked line && s.signersDone b o.cap && (s.core b.core).tile.inPlay && s.maySend b.core b.ten (line * lineBytes) true

/-- TILE_UPDATE_LOCK: the next line in ascending order, when no other update holds it. -/
def execTileUpdateLock (uid : Nat) (s : State) : Host.Outcome State Fault Refusal :=
  match s.engHead uid with
  | none => .next s
  | some (b, o) =>
    match s.needsLocks b o.cap with
    | none => .next s
    | some f =>
      match s.toLock b o f with
      | .error t =>
        let s := s.engScan b o.cap
        .next (endEngine b o (s.setMem (s.mem.unlock uid), some t))
      | .ok [] => .next s
      | .ok (l :: _) =>
        if !s.mayLock b o l then .next s
        else
          let s := s.takeToken b.core b.ten
          .next (s.setMem (s.mem.lockLine l uid))

/-- The update's effect, and its locks released; what it reads of its descriptor is searched for soft errors (R269, R288). -/
def State.applyUpdate (s : State) (b : Block) (o : EngOp) (f : TFmt) : State :=
  let r := (s.engScan b o.cap).engAccst b f (o.cap.val 0) o.cap.counts
  endEngine b o (r.1.setMem (r.1.mem.unlock b.uid), r.2)

/-- TILE_UPDATE_APPLY: with every line locked, the elements are written and the locks released. -/
def execTileUpdateApply (uid : Nat) (s : State) : Host.Outcome State Fault Refusal :=
  match s.engHead uid with
  | none => .next s
  | some (b, o) =>
    match s.needsLocks b o.cap with
    | none => .next s
    | some f =>
      match s.toLock b o f with
      | .ok [] => if (s.core b.core).tile.inPlay then .next (s.applyUpdate b o f) else .next s
      | _ => .next s

end Machine
end Sys2Proof
end

