-- ==== Sys2Proof/Machine/Elf.lean ====
section
/-!
DEFINITION. Call-sheet images (R294): the ELF64 file's global function symbols and its `.emul` section (the file's own layout: log 102,
PRESUMED), and the entry of a hart.
-/
namespace Sys2Proof
open Machine

namespace Machine

/-! ### ELF64 -/

/-- A number at an offset of a file. -/
def numAt (bs : List Byte) (off n : Nat) : Nat := leNum ((bs.drop off).take n)

/-- A name as bytes. -/
def nameBytes (s : String) : List Byte := s.toList.map fun c => BitVec.ofNat 8 c.toNat

/-- The string at an offset. -/
def strAt (bs : List Byte) (off : Nat) : List Byte := (bs.drop off).takeWhile (· != 0)

/-- ELFCLASS64, little-endian, for RISC-V. -/
def elfOk (bs : List Byte) : Bool := bs.take 6 == [0x7F, 0x45, 0x4C, 0x46, 2, 1] && numAt bs 18 2 == 243

/-- A section header. -/
structure ElfSection where
  name : Nat
  type : Nat
  off : Nat
  size : Nat
  link : Nat
deriving DecidableEq, Repr

def elfSection (bs : List Byte) (i : Nat) : ElfSection :=
  let a := numAt bs 0x28 8 + i * numAt bs 0x3A 2
  { name := numAt bs a 4, type := numAt bs (a + 4) 4, off := numAt bs (a + 0x18) 8, size := numAt bs (a + 0x20) 8,
    link := numAt bs (a + 0x28) 4 }

def elfSections (bs : List Byte) : List ElfSection := (List.range (numAt bs 0x3C 2)).map (elfSection bs)

def ElfSection.bytes (h : ElfSection) (bs : List Byte) : List Byte := (bs.drop h.off).take h.size

/-- The bytes of a named section. -/
def elfNamed (bs : List Byte) (name : String) : Option (List Byte) :=
  let names := (elfSection bs (numAt bs 0x3E 2)).off
  ((elfSections bs).find? fun h => strAt bs (names + h.name) == nameBytes name).map (·.bytes bs)

/-- The value of a global function symbol that the file defines. -/
def elfSymbol (bs : List Byte) (name : String) : Option W64 :=
  (elfSections bs).findSome? fun h =>
    if h.type ≠ 2 then none
    else
      let names := (elfSection bs h.link).off
      (List.range (h.size / 24)).findSome? fun i =>
        let a := h.off + 24 * i
        if numAt bs (a + 4) 1 = 0x12 ∧ numAt bs (a + 6) 2 ≠ 0 ∧ strAt bs (names + numAt bs a 4) = nameBytes name then
          some (BitVec.ofNat 64 (numAt bs (a + 8) 8))
        else none

/-! ### Sheets (R294) -/

/-- The entry points, in the order of the table. -/
def csNames : List String :=
  ["cs_reset", "cs_doorbell", "cs_spawn", "cs_blkend", "cs_lost", "cs_saved", "cs_emul", "cs_sitout", "cs_tick", "cs_cmd"]

/-- The addresses of all entry points; `none` when the file lacks one. -/
def elfEntries (bs : List Byte) : Option (List W64) :=
  csNames.foldr (fun n acc => match elfSymbol bs n, acc with
    | some a, some l => some (a :: l)
    | _, _ => none) (some [])

/-- The `.emul` section (R294). -/
def emulOk (emul : List Byte) : Bool :=
  decide (128 ≤ emul.length) && decide (1 ≤ leNum (emul.take 2)) && ((emul.drop 2).take 6).all fun b => b == 0

/-- The sheet of an image that lacks nothing. -/
def Sheet.ofImage (im : SheetImage) : Option Sheet :=
  if !elfOk im.bytes then none
  else
    match elfEntries im.bytes, elfNamed im.bytes ".emul" with
    | some l, some emul =>
      if emulOk emul then
        some { bytes := im.bytes, version := im.version, entries := l, emul := emul }
      else none
    | _, _ => none

/-- The call sheet has an entry for an opcode. -/
def sheetHandler (sh : Sheet) (opc : Nat) : Bool := leNum ((sh.emul.drop (8 + 8 * (opc - 0xF0))).take 8) != 0

/-- EMULISA of a sheet. -/
def emulIsa (sh : Sheet) : Nat := leNum (sh.emul.take 2)

/-! ### Harts (R293, R294) -/

/-- The entry point that a step stands for, by its place in the table, and its arguments; of a fragment the number of its strand and
its lowest lane. -/
def State.entryOf (s : State) : Instr → Option (Nat × List Nat)
  | .csReset => some (0, [])
  | .csDoorbell ten q => some (1, [ten, q])
  | .csSpawn blk op =>
    match (s.blocks.find? fun b => b.uid == blk).bind fun b => b.flight.find? fun o => o.id == op with
    | some o => match o.kind with
      | .spawn _ ((L, va, q) :: _) _ =>
        some (2, [((s.blocks.find? fun b => b.uid == blk).map (·.ten)).getD 0, q.toNat, va.toNat, L])
      | _ => none
    | none => none
  | .csBlkend core quad slot => some (3, [core, quad, slot])
  | .csLost core quad slot => some (4, [core, quad, slot])
  | .csSaved core quad slot kind => some (5, [core, quad, slot, kind])
  | .csEmul r _ =>
    (s.blocks.find? fun b => b.uid == r.blk).map fun b => (6, [b.core, b.quad, b.slot, 64 * r.strand + r.lane])
  | .csSitout core => some (7, [core])
  | .csTick ten => some (8, [ten])
  | .stop w | .step w | .resume w | .kill w | .setout w | .readmit w | .retire w | .vfstop w | .vfresume w | .qsync w
  | .attestationRequest w => some (9, [w.toNat])
  | _ => none

/-- Hart 0 claims an event and is entered: its pc, and the arguments in x10 to x13 (log 60, DESIGN CHOICE). -/
def State.claim (s : State) (i : Instr) : State :=
  match s.entryOf i with
  | none => s
  | some (n, args) =>
    let enter := fun (h : Hart) =>
      { pc := s.caller.sheet.entries.getD n 0, x := (args.mapIdx fun k v => (10 + k, BitVec.ofNat 64 v)).foldl (fun m kv =>
          SMap.set 0 m kv.1 kv.2) h.x : Hart }
    { s with caller := { s.caller with harts := match s.caller.harts with
      | h :: rest => enter h :: rest
      | [] => [] } }

end Machine
end Sys2Proof
end

