-- ==== Sys2Proof/Machine/Fetch.lean ====
section
/-!
DEFINITION. The steps around issue (R36, R55, R76, R82, R83, R123, R128, R129, R139): fetch, words that are no instruction,
emulation, pending traps, results written after their latency, and the ends of STALL and NAP.
-/
namespace Sys2Proof
open Machine

namespace Machine

/-- An event for the harts (R293, R294). -/
def State.notify (s : State) (e : Instr) : State := s.setCaller { s.caller with events := s.caller.events ++ [e] }

/-! ### Words that are no instruction (R82) -/

/-- Whether a word that the decoder refuses, or of a later level, may be taken up: its STALL has run out, WAIT and the
token limit hold as for any word. -/
def Ctx.canTake (s : State) (x : Ctx) : Bool :=
  x.blk.lets x.sid x.fr && x.fr.awake s.cycle && x.fr.pend.isEmpty && x.st.svdone.isNone && !(s.core x.blk.core).tile.halts &&
  x.waitDone && x.tokenRoom

/-- ILLEGAL_WORD: the trap, with no effect. -/
def execIllegalWord (w : InstrWord) (s : State) : Host.Outcome State Fault Refusal :=
  match s.ctx (Ctl.ofWord w) with
  | none => .next s
  | some x =>
    if !Ctx.canTake s x then .next s
    else .next (s.trapIssue x (Trap.illegalWord x.active w))

/-! ### Emulation (R128, R129) -/

/-- LATER_LEVEL_OPCODE: with the strand's earlier work complete, and the fragment's stores performed as far as an .sc access at
.dev requires (R129), the fragment is parked and the caller is told. -/
def execLaterLevelOpcode (w : InstrWord) (s : State) : Host.Outcome State Fault Refusal :=
  match s.ctx (Ctl.ofWord w) with
  | none => .next s
  | some x =>
    if !Ctx.canTake s x || !x.blk.strandIdle x.sid || !s.earlierDone x.blk x.sid s.nextId x.fr.lanes .dev then .next s
    else
      let d : Done := { Done.now x s with pcOf := fun _ => x.fr.pc, hold := .emul w }
      let r : FragRef := { blk := x.blk.uid, strand := x.sid, lane := lowest x.fr.lanes }
      .next ((s.commit x d).notify (.csEmul r (Config.emulEffect w s.fresh)))

/-- A cause by its code. -/
def Cause.ofCode (n : Nat) : Cause :=
  match n with
  | 0 => .illegal
  | 1 => .role
  | 2 => .uniform
  | 3 => .align
  | 4 => .access
  | 5 => .format
  | 6 => .stack
  | 7 => .frame
  | 8 => .stallchk
  | 9 => .diverge
  | 10 => .accchk
  | 11 => .ecc
  | 12 => .lost
  | 13 => .bkpt
  | 14 => .trap
  | _ => .preempt

/-- The register effects of an entry, on the fragment's lanes and the strand's uniform state. -/
def emulOnStrand (e : EmulEffect) (m : Lanes) (h : KHeader) (st : Strand) : Strand :=
  let st := e.vregs.foldl (fun st w => if m.getLsbD w.2.1 && decide (w.1 < 8 * h.vgran) then st.setVreg w.1 w.2.1 w.2.2 else st) st
  let st := e.preds.foldl (fun st w => if m.getLsbD w.2.1 && decide (w.1 < 7) then st.setPred w.1 w.2.1 w.2.2 else st) st
  let st := e.disp.foldl (fun st w =>
    if m.getLsbD w.2.1 && decide (w.1 < 8) then st.setDisp w.1 w.2.1 (match w.2.2 with
      | some p => { ptr := p, valid := true }
      | none => Disp.none) else st) st
  let st := e.toks.foldl (fun st w =>
    if m.getLsbD w.2.1 then st.updLanes (oneLane w.2.1) fun _ l => l.setTok (w.1 + 1) (w.2.2 % 16) else st) st
  let st := e.uregs.foldl (fun st w => if w.1 < 8 * h.sgran then st.setUreg w.1 w.2 else st) st
  match e.fmode with
  | some v => { st with fmode := v }
  | none => st

/-- The virtual address of a write, where its pointer is a global one. -/
def emulVa (a : W64) : Option Nat := if tagOf a = 0 then va56 a else none

/-- The writes that do not translate, with the lanes that make them: lane, address, byte. -/
def emulFaults (e : EmulEffect) (b : Block) (s : State) : List (Nat × W64 × Byte) :=
  e.mem.filter fun w => match emulVa w.2.1 with
    | some va => (s.vaLocs none b.ten b.pasid va 1 .write).isNone
    | none => true

/-- Its memory effects, through the block's translation. -/
def emulOnMemory (e : EmulEffect) (b : Block) (s : State) : State :=
  e.mem.foldl (fun s w =>
    match emulVa w.2.1 with
    | some va => s.vaWrite b.ten b.pasid va [w.2.2]
    | none => s) s

/-- The trap that ends an emulation: the one its entry finds, else ACCESS for the lowest lane whose write does not translate
(R129, R316).  No effect of the instruction remains. -/
def emulTrap (e : EmulEffect) (b : Block) (f : Frag) (active : Lanes) (w : InstrWord) (s : State) : Option Trap :=
  match e.trap with
  | some (c, m, a, code) =>
    some (if c = 0 then Trap.illegalWord active w else Trap.of (Cause.ofCode c) (m &&& f.lanes) a code)
  | none =>
    match emulFaults e b s with
    | [] => none
    | v :: vs =>
      let low := vs.foldl (fun x y => if y.1 < x.1 then y else x) v
      some (Trap.of .access (oneLane low.1) low.2.1 0)

/-- The lanes of a parked fragment whose guard is true. -/
def State.emulActive (s : State) (r : FragRef) (w : InstrWord) : Lanes :=
  match ({ s with cur := some { ref := r, word := w } } : State).ctx (Ctl.ofWord w) with
  | some x => x.active
  | none => 0

/-- The words that an entry writes whole (R269). -/
def emulWrites (e : EmulEffect) (uid sid : Nat) : ErrLoc → Bool
  | .vreg u t r L => u == uid && t == sid && e.vregs.any fun w => w.1 == r && w.2.1 == L
  | .ureg u t r => u == uid && t == sid && e.uregs.any fun w => w.1 == r
  | .disp u t n L => u == uid && t == sid && e.disp.any fun w => w.1 == n && w.2.1 == L
  | .fmode u t => u == uid && t == sid && e.fmode.isSome
  | _ => false

/-- CS_EMUL: no entry traps ILLEGAL; an entry has its effect and returns the fragment, or its trap is delivered. -/
def execCsEmul (r : FragRef) (e : EmulEffect) (s : State) : Host.Outcome State Fault Refusal :=
  match s.fragAt r with
  | none => .next s
  | some (b, f) =>
    match f.hold with
    | .emul w =>
      if !sheetHandler s.caller.sheet (w.extractLsb' 120 8).toNat then
        .next (s.deliverTrap b r.strand f (Trap.illegalWord (s.emulActive r w) w) f.pc false)
      else
        let s := s.countSite b.core 7
        match emulTrap e b f (s.emulActive r w) w s with
        | some t => .next (s.deliverTrap b r.strand f t f.pc false)
        | none =>
          let pc := match e.pc with
            | some v => v
            | none => f.pc + 16
          -- performed as .sc at .dev (R129)
          let s := emulOnMemory e b (s.setMem (s.mem.acquire b.core))
          let s := s.updBlock b.uid fun x => x.overtake r.strand s.nextId (e.uregs.map fun w => Tgt.ureg w.1)
          .next ((s.errsGone (emulWrites e b.uid r.strand)).updStrand b.uid r.strand fun st =>
            (emulOnStrand e f.lanes b.hdr st).release f pc)
    | _ => .next s

/-! ### Fetch (R55, R83, R123) -/

/-- The bytes of a code line as a core of a die fetches it. -/
def MemSys.codeLine (m : MemSys) (die line : Nat) : SMap Byte :=
  (List.range lineBytes).map fun i => (line * lineBytes + i, m.fillByte die (line * lineBytes + i))

/-- Lines of a core's instruction cache of 128 KiB (R2). -/
abbrev icacheLines : Nat := 1024

/-- A core's instruction cache holds a line. -/
def MemSys.hasCode (m : MemSys) (core line : Nat) : Bool := m.icache.any fun l => l.core == core && l.line == line

/-- Room for a line: of a full cache the line held longest leaves (log 40, DESIGN CHOICE). -/
def icacheRoom (core : Nat) (ls : List ICLine) : List ICLine :=
  match ls.find? fun l => l.core == core with
  | some old => if icacheLines ≤ (ls.filter fun l => l.core == core).length then ls.filter (· != old) else ls
  | none => ls

/-- A core fetches a line into its instruction cache, whole, unless it holds it or no cache may. -/
def MemSys.fetchLine (m : MemSys) (core line : Nat) : MemSys :=
  if m.hasCode core line || m.uncached line then m
  else
    let m := (m.holdHome line).fetchFor (dieOfCore core) line
    { m with
      icache := icacheRoom core m.icache ++ [{ core := core, line := line, data := m.codeLine (dieOfCore core) line }] }

/-- The 16 bytes of a word as a core has them. -/
def MemSys.fetchWord (m : MemSys) (core pa : Nat) : InstrWord :=
  BitVec.ofNat 128 (leNum ((List.range 16).map fun i =>
    match m.icache.find? fun l => l.core == core && l.line == lineOf pa with
    | some l => (l.data.find (pa + i)).getD 0
    | none => if m.uncached (lineOf pa) then m.homeRead (.phys (pa + i)) else m.fillByte (dieOfCore core) (pa + i)))

/-- The word of a strand at a PC that has been fetched. -/
def Strand.wordAt (st : Strand) (pc : W64) : Option InstrWord := (st.fetched.find? fun w => w.1 == pc).map (·.2)

/-- Whether a fragment may be brought to issue, whatever its word. -/
def State.ready (s : State) (b : Block) (sid : Nat) (f : Frag) : Bool :=
  b.lets sid f && f.awake s.cycle && (b.strand sid).svdone.isNone && !(s.core b.core).tile.halts

/-- The translation of a fetch. -/
def State.fetchAt (s : State) (b : Block) (pc : W64) : Option (Nat × Xlate) :=
  match va56 pc with
  | some va => (s.translate (some b.quadId) b.ten b.pasid va .fetch).map fun t => (va, t)
  | none => none

/-- What a fetch that the instruction cache does not serve asks of the fabric (R336, R370; log 55, DEDUCED). -/
def State.fetchAsks (s : State) (b : Block) (pc : W64) : List Ask :=
  match s.fetchAt b pc with
  | some (va, t) => if s.mem.hasCode b.core (lineOf (t.pa va)) then [] else [Ask.of 0 false false (t.pa va)]
  | none => []

/-- A fetch waits for its line; none comes in behind a closed gate (R343). -/
def State.fetchWaits (s : State) (b : Block) (pc : W64) : Bool :=
  !(s.fetchAsks b pc).all (s.reached b) || !(s.core b.core).tile.inPlay

/-- INSTRUCTION_FETCH: the word at the fragment's PC, as one access; a fetch that faults traps ACCESS at the PC. -/
def execInstructionFetch (r : FragRef) (s : State) : Host.Outcome State Fault Refusal :=
  match s.fragAt r with
  | none => .next s
  | some (b, f) =>
    if s.fetchWaits b f.pc then .next s else
    match s.fetchAt b f.pc with
    | none =>
      if s.ready b r.strand f && f.pend.isEmpty then
        .next (s.deliverTrap b r.strand f (Trap.of .access f.lanes f.pc 0) f.pc false)
      else .next s
    | some (va, t) =>
      let pa := t.pa va
      let s := (s.closeAsks b.uid (s.fetchAsks b f.pc)).useXlate (some b.quadId) t .fetch
      let m := s.mem.fetchLine b.core (lineOf pa)
      .next ((s.setMem m).updStrand b.uid r.strand fun st =>
        if (st.wordAt f.pc).isSome then st else { st with fetched := st.fetched ++ [(f.pc, m.fetchWord b.core pa)] })

/-! ### Pending traps (R83, R182, R214) -/

/-- A fragment that a wait holds, so that an engine trap reaches it at once (R214). -/
def Frag.heldAt (f : Frag) (cycle : Nat) : Bool :=
  match f.hold with
  | .barwait .. => true
  | .stgwait .. => true
  | .fence .. => true
  | .shared => true
  | .free => (match f.nap with | some t => decide (cycle < t) | none => false) &&
      (match f.stall with | some t => decide (t ≤ cycle) | none => true)
  | _ => false

/-- A block that comes to rest for a save or a debug stop: its pending traps are delivered first, since no image holds them. -/
def Block.rests (b : Block) : Bool :=
  b.fatal.isNone && (match b.mode with
    | .saving .. => true
    | .preempt .. => true
    | .breakpoint _ => true
    | .stepping _ _ _ _ true _ => true
    | _ => false)

/-- Whether a pending trap may be delivered now. -/
def State.trapDue (s : State) (b : Block) (sid : Nat) (f : Frag) : Bool :=
  match f.pend with
  | [] => false
  | p :: _ =>
    s.ready b sid f || (p.now && f.heldAt s.cycle && b.issues && (b.strand sid).svdone.isNone &&
      !(s.core b.core).tile.halts) || (b.rests && !f.hold.parks && !(s.core b.core).tile.halts)

/-- PENDING_TRAP_DELIVERY: in place of the fragment's next issue.  A fragment whose signature of a shared frame stands
resumes behind that instruction (R207); any other held instruction is given up, its token released, and resumes. -/
def execPendingTrapDelivery (r : FragRef) (s : State) : Host.Outcome State Fault Refusal :=
  match s.fragAt r with
  | none => .next s
  | some (b, f) =>
    match f.pend with
    | [] => .next s
    | p :: rest =>
      if !s.trapDue b r.strand f then .next s
      else
        let pc := if f.hold = .shared then f.pc + 16 else f.pc
        let f' := { f with pend := rest, pc := pc }
        let s := s.updStrand b.uid r.strand fun st => st.giveUp f
        .next (s.deliverTrap b r.strand f' p.trap p.pc p.engine)

/-! ### Fixed-latency results (R36, R76) -/

/-- A slot write waits for what its lane accessed before it (R78, R209, R246). -/
def State.slotWriteReady (s : State) (b : Block) (sid id : Nat) (w : PWrite) : Bool :=
  match w with
  | .slot L loc _ =>
    s.clear b sid id (oneLane L) (fun l n => l.overlaps n loc 4) && !s.locWaits true loc &&
    (s.slotAsks b true [loc]).all (s.reached b) && (s.slotAllows .service || !s.putsOutAt b loc) && (s.core b.core).tile.inPlay
  | _ => true

/-- RESULT_WRITEBACK: a result whose latency has passed is written, and its token falls. -/
def execResultWriteback (blk sid id : Nat) (s : State) : Host.Outcome State Fault Refusal :=
  match s.block blk with
  | none => .next s
  | some b =>
    match (b.strand sid).pendw.find? fun p => p.id == id with
    | none => .next s
    | some p =>
      if s.cycle < p.due || !p.writes.all (s.slotWriteReady b sid id) then .next s
      else
        .next ((s.writeResult b sid p.id p.writes).updStrand blk sid fun st =>
          { st.tokDown p.lanes p.tok.toNat with pendw := st.pendw.filter fun q => q.id != id })

/-! ### STALL and NAP (R76, R139) -/

/-- STALL_EXPIRY. -/
def execStallExpiry (r : FragRef) (s : State) : Host.Outcome State Fault Refusal :=
  match s.fragAt r with
  | none => .next s
  | some (b, f) =>
    match f.stall with
    | some t => if t ≤ s.cycle then .next (s.updStrand b.uid r.strand fun st => st.updFrag f.lanes fun g => { g with stall := none })
      else .next s
    | none => .next s

/-- NAP_EXPIRY. -/
def execNapExpiry (r : FragRef) (s : State) : Host.Outcome State Fault Refusal :=
  match s.fragAt r with
  | none => .next s
  | some (b, f) =>
    match f.nap with
    | some t => if t ≤ s.cycle then .next (s.updStrand b.uid r.strand fun st => st.updFrag f.lanes fun g => { g with nap := none })
      else .next s
    | none => .next s

end Machine
end Sys2Proof
end

