-- ==== Sys2Proof/Machine/HostLog.lean ====
section
/-!
DEFINITION. What the device reports to the host: the host error log (R375), interrupts through the remap table (R369), and
the ends of PF0 commands (R355).
-/
namespace Sys2Proof
open Machine

namespace Machine

/-! ### Host error log (R375) -/

/-- Bits 38:12 of a base register. -/
def baseOf (v : W64) : Nat := (v.extractLsb' 12 27).toNat * 4096

/-- A record of the host error log. -/
def herrRecord (cycle code fn port pasid : Nat) : List Byte :=
  record 16 [field 0 8 cycle, field 8 1 code, field 9 1 fn, field 0xA 2 port, field 0xC 4 pasid]

/-- A record is appended, or counted as dropped while the ring is full or none is set. -/
def State.hostErr (s : State) (code fn port pasid : Nat) : State :=
  let h := s.host
  let n := (h.herrbase.extractLsb' 0 5).toNat
  let room := decide (6 ≤ n) && decide (n ≤ 16) && decide ((h.herrhead - h.herrtail).toNat < 2 ^ n)
  if room then
    (s.writePa (baseOf h.herrbase + 16 * (h.herrhead.toNat % 2 ^ n)) (herrRecord s.cycle code fn port pasid)).setHost
      { h with herrhead := h.herrhead + 1 }
  else s.setHost { h with herrdrop := h.herrdrop + 1 }

/-! ### Interrupts (R369) -/

/-- The remap entry of an event: cached, else read, and cached unless a command in progress drops it (R368). -/
def State.remap (s : State) (ev : Nat) : W64 × State :=
  match s.host.irtCache.find ev with
  | some e => (e, s)
  | none =>
    let e := BitVec.ofNat 64 (s.mem.numPa (s.host.irtbase + 8 * ev) 8)
    (e, if s.invUnder fun r ten => r.scope == 4 && (e.extractLsb' 1 5).toNat == ten then s
        else s.setHost { s.host with irtCache := s.host.irtCache.put ev e })

def State.send (s : State) (o : Output) : State := s.setHost { s.host with out := s.host.out ++ [o] }

/-- A vector is sent, or stays pending while its function's table masks it (R369). -/
def State.sendVector (s : State) (fn vec : Nat) : State :=
  if s.host.unmasked.contains (fn, vec) then s.send (.msix fn vec)
  else s.setHost { s.host with vecPend := s.host.vecPend.filter (· != (fn, vec)) ++ [(fn, vec)] }

/-- An event of a tenant is sent as its vector, or dropped and logged. -/
def State.raiseEvent (s : State) (ten ev : Nat) : State :=
  if 4096 ≤ ev then s.hostErr 8 ten ev 0
  else
    let r := s.remap ev
    let fn := (r.1.extractLsb' 1 5).toNat
    if r.1.getLsbD 0 && fn == ten then r.2.sendVector fn (r.1.extractLsb' 6 11).toNat
    else r.2.hostErr 5 ten 0 0

/-! ### Commands (R345, R355) -/

/-- The caller counts an error of its own making (R312). -/
def State.callerError (s : State) : State := s.setCaller { s.caller with cserr := s.caller.cserr + 1 }

/-- The command is handled; REFUSED is software's to clear (R355). -/
def State.cmdOk (s : State) : State :=
  s.setCaller { s.caller with busy := false, cmdDone := s.caller.cmdDone + 1 }

/-- The command is refused: flagged, counted in CSERR, and logged with code 7. -/
def State.cmdBad (s : State) : State :=
  ((s.setCaller { s.caller with busy := false, cmdRefused := true }).callerError).hostErr 7 0 0 0

/-- OP of a command word, and its tenant in bits 55:51. -/
def cmdOp (w : W64) : Nat := (w.extractLsb' 56 8).toNat
def cmdTenant (w : W64) : Nat := (w.extractLsb' 51 5).toNat

end Machine
end Sys2Proof
end

