-- ==== Sys2Proof/Machine/Watch.lean ====
section
/-!
DEFINITION. The watch mesh (R340 to R350): beats, votes, gates, sitting out, self-test and return.
-/
namespace Sys2Proof
open Machine

namespace Machine

/-! ### Places (R340) -/

def tileX (core : Nat) : Nat := 8 * (dieOfCore core % 2) + core % 8
def tileY (core : Nat) : Nat := 8 * (dieOfCore core / 2) + core / 8 % 8

/-- The tile at a package position. -/
def coreAt (x y : Nat) : Nat := 64 * (x / 8 + 2 * (y / 8)) + 8 * (y % 8) + x % 8

/-- The steps of a direction: 0 N, then clockwise. -/
def dirStep (dir : Nat) : Int × Int :=
  match dir with
  | 0 => (0, -1)
  | 1 => (1, -1)
  | 2 => (1, 0)
  | 3 => (1, 1)
  | 4 => (0, 1)
  | 5 => (-1, 1)
  | 6 => (-1, 0)
  | _ => (-1, -1)

/-- The neighbour in a direction, where the grid has one. -/
def nbrOf (core dir : Nat) : Option Nat :=
  let x := (tileX core : Int) + (dirStep dir).1
  let y := (tileY core : Int) + (dirStep dir).2
  if 8 ≤ dir ∨ x < 0 ∨ y < 0 ∨ 16 ≤ x ∨ 16 ≤ y then none else some (coreAt x.toNat y.toNat)

def opposite (dir : Nat) : Nat := (dir + 4) % 8

/-- The number under which a gate unit keeps its judgement of its own tile. -/
abbrev ownDir : Nat := 8

/-- The tile that a record of a core is about. -/
def recordOf (core dir : Nat) : Option Nat := if dir = ownDir then some core else nbrOf core dir

/-! ### Periods and beats (R341) -/

def periodOf (cycle : Nat) : Nat := cycle / Config.period

/-- The cycle within a period at which a tile's beat is sent. -/
def beatOffset (core : Nat) : Nat := 16 * (tileX core + 16 * tileY core)

/-- CRC-8 over bits 63:8, high bit first. -/
def crc8 (w : W64) : Nat :=
  (List.range 56).foldl (fun c i =>
    let top := (c / 128 % 2 == 1) != w.getLsbD (63 - i)
    let c := c * 2 % 256
    if top then c ^^^ 0x07 else c) 0

def Vote.code : Vote → Nat
  | .live => 0
  | .suspect => 1
  | .out => 2
  | .selftest => 3
  | .rejoin => 4
  | .probation => 5
  | .retired => 6

/-- A tile that sends beats, unless its core has stopped. -/
def Vote.beats : Vote → Bool
  | .live | .suspect | .rejoin | .probation => true
  | _ => false

def State.tile (s : State) (core : Nat) : TileVote := (s.core core).tile

def State.setTile (s : State) (core : Nat) (t : TileVote) : State := s.setCore core { s.core core with tile := t }

def State.nbr (s : State) (core dir : Nat) : Nbr := (s.tile core).nbrs.get Nbr.reset dir

def State.setNbr (s : State) (core dir : Nat) (n : Nbr) : State :=
  let t := s.tile core
  s.setTile core { t with nbrs := t.nbrs.set Nbr.reset dir n }

/-- Bits of a tile's neighbours that satisfy `p`. -/
def dirBits (p : Nat → Bool) : Nat := (List.range 8).foldl (fun n d => n + (if p d then 2 ^ d else 0)) 0

/-- Uncorrectable errors that a core has counted. -/
def MemSys.unc (m : MemSys) (core : Nat) : Nat :=
  (List.range 4).foldl (fun n q => [1, 4, 7].foldl (fun n c => n + (m.quadCtr.get 0 (8 * quadId core q + c)).toNat) n) 0

/-- Quadrants of a core with a live strand. -/
def State.liveQuads (s : State) (core : Nat) : Nat :=
  (List.range 4).foldl (fun n q =>
    n + (if s.blocks.any (fun b => b.core == core && b.quad == q && b.strands.any fun st => st.live != 0) then 2 ^ q else 0)) 0

/-- HEALTH (R341). -/
def State.healthOf (s : State) (core : Nat) : BitVec 12 :=
  let c := s.core core
  BitVec.ofNat 12 (b2n c.tile.passed + 2 * b2n (s.mem.unc core != c.tile.uncAt) + 4 * b2n c.thermal + 8 * b2n c.droopAlarm +
    16 * s.liveQuads core)

/-- The beat of a core. -/
def State.beatWord (s : State) (core : Nat) : W64 :=
  let t := s.tile core
  let body := core % 256 * 2 ^ 56 + periodOf s.cycle % 256 * 2 ^ 48 + dirBits (fun d => (s.nbr core d).susp) * 2 ^ 40 +
    dirBits (fun d => (s.nbr core d).admitBit) * 2 ^ 32 + t.state.code * 2 ^ 28 + (s.healthOf core).toNat * 2 ^ 16
  BitVec.ofNat 64 (body + crc8 (BitVec.ofNat 64 body))

/-- One beat reaches every neighbour and the gate unit. -/
def beatTo (core : Nat) (w : W64) : List Instr :=
  (List.range 8).filterMap (fun d => (nbrOf core d).map fun n => Instr.beatReceive n (opposite d) w) ++
  [Instr.beatReceive core ownDir w]

/-- BEAT_SEND: the period's beat; a babbling core sends further beats, or beats whose CRC fails. -/
def execBeatSend (core : Nat) (s : State) : Host.Outcome State Fault Refusal :=
  let t := s.tile core
  if t.stopped || !t.state.beats || !s.mgmt.booted then .next s
  else
    let w := s.beatWord core
    let w := if 0 < t.badNext then w ^^^ 1 else w
    let s' := s.setTile core
      { t with badNext := t.badNext - 1, health := s.healthOf core, uncAt := s.mem.unc core,
               rejoinBeats := if t.state = .rejoin then t.rejoinBeats + 1 else t.rejoinBeats }
    .next { s' with agenda := s'.agenda ++ (List.replicate (1 + t.extra) (beatTo core w)).flatten }

/-! ### Judging a beat (R342) -/

/-- Evidence within 16 periods. -/
def recent (p q : Nat) : Bool := decide (p < q + 16)

/-- A receiver's finding from a beat of tile `from_`: its record, and the kinds of evidence found (2 too many, 3 bad). -/
def Nbr.judge (n : Nbr) (cycle from_ : Nat) (rejoin : Bool) (w : W64) : Nbr × List Nat :=
  let p := periodOf cycle
  -- a window may reach into the next period; SEQ names the period that it began in
  let inWindow := decide (beatOffset from_ ≤ cycle) && decide ((cycle - beatOffset from_) % Config.period < 64)
  let seq := (cycle - beatOffset from_) / Config.period % 256
  let bad := crc8 w != (w.extractLsb' 0 8).toNat || (w.extractLsb' 56 8).toNat != from_ % 256 ||
    (inWindow && (w.extractLsb' 48 8).toNat != seq)
  let good := inWindow && !bad
  let beats := if n.inPeriod = p then n.beats + 1 else 1
  let bads := (if bad then [p] else []) ++ n.bad.filter fun q => recent p q
  let kinds := (if 2 < beats then [2] else []) ++ (if bad && decide (2 ≤ bads.length) then [3] else [])
  let count := if bad then 0 else if good && rejoin then n.good + 1 else n.good
  let n := { n with
    beats := beats, inPeriod := p, bad := bads, seen := n.seen || good, good := count,
    admitBit := if count = 0 then false else n.admitBit || decide (64 ≤ count),
    beatAt := if good then some p else n.beatAt,
    beatSusp := if good then w.extractLsb' 40 8 else n.beatSusp,
    beatAdmit := if good then w.extractLsb' 32 8 else n.beatAdmit }
  (if kinds = [] then n else { n with susp := true, evidence := p }, kinds)

/-- Evidence that a gate unit holds against its own tile (R346). -/
def State.ownEvidence (s : State) (core : Nat) (kinds : List Nat) : State :=
  let t := s.tile core
  let p := periodOf s.cycle
  s.setTile core { t with own := (kinds.map fun k => (k, p)) ++ t.own.filter fun e => recent p e.2 }

/-! ### Sets and votes (R340, R343, R350) -/

/-- The directions of a tile's set: neighbours that are LIVE or SUSPECT. -/
def State.setDirs (s : State) (core : Nat) : List Nat :=
  (List.range 8).filter fun d => match nbrOf core d with
    | some m => (s.tile m).inPlay
    | none => false

/-- Members whose latest good beat of the last 16 periods has the tile's bit. -/
def State.countBeats (s : State) (core : Nat) (bits : Nbr → BitVec 8) : List Nat :=
  (s.setDirs core).filter fun d =>
    let n := s.nbr core d
    match n.beatAt with
    | some q => recent (periodOf s.cycle) q && (bits n).getLsbD (opposite d)
    | none => false

def State.votes (s : State) (core : Nat) : List Nat := s.countBeats core (·.beatSusp)
def State.admits (s : State) (core : Nat) : List Nat := s.countBeats core (·.beatAdmit)

/-- A strict majority of a set (R343). -/
def majority (votes members : Nat) : Bool := decide (members / 2 + 1 ≤ votes)

/-- A vote that closes a gate has a set of at least 3 (R343). -/
def State.votedOut (s : State) (core : Nat) : Bool :=
  decide (3 ≤ (s.setDirs core).length) && majority (s.votes core).length (s.setDirs core).length

/-- CAUSE of an entry to OUT by vote (R346). -/
def State.voteCause (s : State) (core : Nat) : Nat :=
  let kinds := ((s.tile core).own.filter fun e => recent (periodOf s.cycle) e.2).map (·.1)
  if kinds.contains 4 then 4 else if kinds.contains 2 then 2 else if kinds.contains 3 then 3
  else if kinds.contains 1 then 1 else 0

def TileVote.enter (t : TileVote) (v : Vote) (cycle : Nat) : TileVote := { t with state := v, since := cycle }

/-- The gate closes on a LIVE or SUSPECT tile: OUT, a sit-out counted, the notices sent (R343, R344, R347). -/
def State.sitOut (s : State) (core cause : Nat) : State :=
  let t := s.tile core
  let s := s.setTile core { t.enter .out s.cycle with socnt := t.socnt + 1, cause := cause }
  let s := s.setMem { s.mem with cut := s.mem.cut.filter (· != core) ++ [core] }
  let s := { s with fab := { s.fab with notices := s.fab.notices ++ (List.range 128).map fun sl => (sl, core) } }
  s.notify (.csSitout core)

/-- A tile leaves OUT: to its self-test, or after the third sit-out to RETIRED (R344). -/
def TileVote.afterOut (t : TileVote) (cycle : Nat) : TileVote :=
  if t.socnt < 3 then t.enter .selftest cycle else t.enter .retired cycle

/-- A tile that fails in REJOIN or PROBATION enters OUT with no notice (R349). -/
def State.fallBack (s : State) (core cause : Nat) : State :=
  let t := s.tile core
  s.setTile core { t.enter .out s.cycle with socnt := t.socnt + 1, cause := cause }

/-- The tiles that are OUT as a cycle begins go on: their notices have gone out, or they sent none (R344, R349). -/
def State.leaveOut (s : State) : State :=
  { s with cores := s.cores.map fun kv =>
      if kv.2.tile.state == .out && !s.fab.notices.any (fun n => n.2 == kv.1) then (kv.1, { kv.2 with tile := kv.2.tile.afterOut s.cycle }) else kv }

/-- What a tile's votes and admissions make of it. -/
def State.review (s : State) (core : Nat) : State :=
  let t := s.tile core
  match t.state with
  | .live | .suspect =>
    if s.votedOut core then s.sitOut core (s.voteCause core)
    else
      let v := if (s.votes core).isEmpty then Vote.live else Vote.suspect
      if v = t.state then s else s.setTile core (t.enter v s.cycle)
  | .rejoin =>
    if s.votedOut core then s.fallBack core 6
    else
      let n := (s.setDirs core).length
      if (n = 0 ∧ 64 ≤ t.rejoinBeats) ∨ (0 < n ∧ majority (s.admits core).length n) then
        s.setTile core (t.enter .probation s.cycle)
      else s
  | .probation => if s.votedOut core then s.fallBack core 6 else s
  | _ => s

/-- Review of a list of tiles; where a set changes, the neighbours follow (R343).  The fuel bounds the chain. -/
def reviewAll : Nat → List Nat → State → State
  | 0, _, s => s
  | _, [], s => s
  | fuel + 1, c :: rest, s =>
    let s' := s.review c
    let more := if (s.tile c).inPlay == (s'.tile c).inPlay then [] else (List.range 8).filterMap (nbrOf c)
    reviewAll fuel (rest ++ more) s'

abbrev reviewFuel : Nat := 64

/-- BEAT_RECEIVE: the receiver judges the beat; votes and admissions are counted again. -/
def execBeatReceive (core dir : Nat) (beat : W64) (s : State) : Host.Outcome State Fault Refusal :=
  match recordOf core dir with
  | none => .next s
  | some from_ =>
    let r := (s.nbr core dir).judge s.cycle from_ ((s.tile from_).state == .rejoin) beat
    let s := s.setNbr core dir r.1
    let s := if dir = ownDir then s.ownEvidence core r.2 else s
    .next (reviewAll reviewFuel [core] s)

/-! ### Windows and suspicion (R342) -/

/-- WINDOW_END: a window without a good beat counts; the third in a row is silence. -/
def execWindowEnd (core dir : Nat) (s : State) : Host.Outcome State Fault Refusal :=
  match recordOf core dir with
  | none => .next s
  | some from_ =>
    if !(s.tile from_).state.beats then
      -- no beat is expected, so none counts as silence; but a count of good rejoin beats does not outlast it (R350)
      let n := s.nbr core dir
      .next (if n.good = 0 ∧ !n.admitBit then s else s.setNbr core dir { n with good := 0, admitBit := false })
    else
      let n := s.nbr core dir
      let n := if n.seen then { n with missed := 0, seen := false } else { n with missed := n.missed + 1, good := 0, admitBit := false }
      let silent := decide (3 ≤ n.missed)
      let s := s.setNbr core dir (if silent then { n with susp := true, evidence := periodOf s.cycle } else n)
      let s := if silent && dir == ownDir then s.ownEvidence core [1] else s
      .next (reviewAll reviewFuel [core] s)

/-- SUSPICION_EXPIRY: SUSP clears once 16 periods have passed without further evidence. -/
def execSuspicionExpiry (core dir : Nat) (s : State) : Host.Outcome State Fault Refusal :=
  let n := s.nbr core dir
  if n.susp && !recent (periodOf s.cycle) n.evidence then .next (s.setNbr core dir { n with susp := false }) else .next s

/-- A calendar-violation notice to the members of a tile's set (R337, R342), and to its own gate unit (R346). -/
def State.violation (s : State) (core : Nat) : State :=
  let s := (s.setDirs core).foldl (fun s d => match nbrOf core d with
    | some m => s.setNbr m (opposite d) { s.nbr m (opposite d) with susp := true, evidence := periodOf s.cycle }
    | none => s) s
  s.ownEvidence core [4]

/-! ### Sitting out (R347, R348) -/

/-- A directory entry without a core. -/
def DirEntry.without (e : DirEntry) (core : Nat) : DirEntry :=
  { sharers := e.sharers.filter (· != core)
    owner := match e.owner with
      | some q => if q / 4 = core then none else some q
      | none => none }

/-- One slice forgets a tile: its copies vanish, and the lines it owned are poisoned. -/
def MemSys.forgetTile (m : MemSys) (slice core : Nat) : MemSys :=
  let here := fun (line : Nat) => sliceOf (line * lineBytes) == slice
  let owned := (m.l1.filter fun l => l.quad / 4 == core && here l.line && l.owned).map (·.line)
  let m := owned.foldl (fun m line => m.poisonLine line) m
  { m with
    l1 := m.l1.filter fun l => !(l.quad / 4 == core && here l.line)
    l1bad := m.l1bad.filter fun b => !(b.1 / 4 == core && here (b.2 / 32))
    dir := m.dir.map fun kv => if here kv.1 then (kv.1, kv.2.without core) else kv }

/-- Bytes of a 64-byte write. -/
def Ask.covers (a : Ask) (bytes : List (Loc × Byte)) : List (Loc × Byte) :=
  bytes.filter fun lb => match lb.1 with
    | .phys pa => pa / 64 * 64 == a.pa
    | .spad _ _ => false

/-- The slot words that a block's results still have to write. -/
def Block.dueSlots (b : Block) (cycle : Nat) : List (Loc × Byte) :=
  (b.strands.flatMap fun st => (st.pendw.filter fun p => decide (p.due ≤ cycle)).flatMap (·.writes)).flatMap fun w => match w with
    | .slot _ loc v => (loc.span 4).zip (leBytes 4 v.toNat)
    | _ => []

/-- The operation behind a request has its effect where the request brought all that it needs: the bytes of a CTXST or of results, the
word of a SITECLR, the lines of a CODEINV, a copy out of scratchpad, an operation of the engine.  What would have needed a reply ends
with the tile (R347; log 87, DEDUCED). -/
def State.serveAsk (s : State) (b : Block) (a : Ask) : State :=
  if a.owner = 0 then (if a.write then s.enginePut b (a.covers (b.dueSlots s.cycle)) else s)
  else
    match b.op a.owner with
    | some o =>
      match o.kind with
      | .ctxst bytes => s.enginePut b (a.covers bytes)
      | .siteclr pin ((pa, via) :: _) => if pa / 64 * 64 = a.pa then s.clearSite pin pa via else s
      | .codeinv lines => s.setMem ((lines.filter fun l => l * lineBytes == a.pa).foldl MemSys.invalidateCode s.mem)
      | .copy c =>
        let geom := s.copyGeom b c
        if (s.copyAsks b o c geom).all fun q => q.write && b.asked q then s.copyStep b o c geom else s
      | _ => s
    | none =>
      match b.engine.queue with
      | o :: _ => if o.id = a.owner && (s.engAsks b o).all (fun q => q.write && b.asked q) then endEngine b o (s.engEffect b o) else s
      | [] => s

/-- A request of a tile that was sent before its gate closed is served; its reply is dropped (R347). -/
def State.serveLast (s : State) (uid id : Nat) : State :=
  match s.block uid with
  | none => s
  | some b => match b.op id with
    | none => s
    | some o =>
      let o := { o with stage := .accepted }
      match o.kind with
      | .store .. => s.storeStep b o
      | .atomic sub t _ todo done => s.atomicStep b { o with kind := .atomic sub t [] todo done }
      | .request a => s.serveAsk b a
      | _ => s

/-- The requests of a tile on their way to a slice, in issue order. -/
def State.lastRequests (s : State) (slice core : Nat) : List (Nat × Nat) :=
  (s.blocks.filter fun b => b.core == core).flatMap fun b => b.flight.filterMap fun o =>
    let pa := o.nextPa.orElse fun _ => o.kind.ask.map (·.pa)
    if o.stage != .waiting && (pa.map sliceOf == some slice) then some (b.uid, o.id) else none

/-- Silenced tiles' updates of global memory: one that has locked every line has sent all it needs and is applied; any other goes no
further, and its locks go (R288, R347; log 87, DEDUCED). -/
def State.endUpdates (s : State) : State :=
  (s.blocks.filter fun b => !(s.tile b.core).inPlay).foldl (fun s b =>
    match b.engine.queue.head? with
    | some o => match s.needsLocks b o.cap with
      | some f => match s.toLock b o f with
        | .ok [] => s.applyUpdate b o f
        | _ => s.setMem (s.mem.unlock b.uid)
      | none => s
    | none => s) s

/-- A write of the tile waits at a slice for another core's tile update, or a request of it is being sent again; the notice stands
behind it (R288, R332, R347). -/
def State.lastWaits (s : State) (slice core : Nat) : Bool :=
  (s.lastRequests slice core).any fun r => match s.block r.1 with
    | none => false
    | some b => match b.op r.2 with
      | none => false
      | some o => o.isReplaying s b.uid || (match o.kind.todo with
        | a :: _ => s.placeWaits o.kind.isWrite a
        | [] => o.kind.ask.any fun a => a.write && s.mem.locked (lineOf a.pa))

/-- SIT_OUT_NOTICE at one slice, in a service slot and behind the tile's earlier requests (R347); with the last of them the
notice has gone out (R344). -/
def execSitOutNotice (slice core : Nat) (s : State) : Host.Outcome State Fault Refusal :=
  let t := s.tile core
  if t.inPlay || !s.slotAllows .service then .next s
  else
    let s := s.endUpdates
    if s.lastWaits slice core then .next s else
    let s := (s.lastRequests slice core).foldl (fun s r => s.serveLast r.1 r.2) s
    let s := s.setMem (s.mem.forgetTile slice core)
    let s := { s with fab := { s.fab with notices := s.fab.notices.filter fun n => n != (slice, core) } }
    if t.state = .out ∧ !s.fab.notices.any (fun n => n.2 == core) then
      .next (reviewAll reviewFuel ((List.range 8).filterMap (nbrOf core)) (s.setTile core (t.afterOut s.cycle)))
    else .next s

/-- SAT_OUT_NACK: for a shared copy the acknowledgement; for a recall or a grant the line is poisoned. -/
def execSatOutNack (kind : NackKind) (line core : Nat) (s : State) : Host.Outcome State Fault Refusal :=
  if (s.tile core).inPlay then .next s
  else
    let m := s.mem
    let m := { m with
      dir := match m.dir.find line with
        | some e => m.dir.put line (e.without core)
        | none => m.dir
      l1 := m.l1.filter fun l => !(l.quad / 4 == core && l.line == line) }
    match kind with
    | .sharedInvalidation => .next (s.setMem m)
    | .recall | .grant => .next (s.setMem (m.poisonLine line))

/-! ### Self-test (R350) -/

/-- What a self-test leaves of a core: zeroed scratchpad, caches and translation state; it holds no block (log 54, DEDUCED). -/
def MemSys.wipeCore (m : MemSys) (core : Nat) : MemSys :=
  { m with
    spad := m.spad.dropRange (core * spadSize) ((core + 1) * spadSize)
    spoison := m.spoison.filter fun u => u / (spadSize / 8) != core
    l1 := m.l1.filter fun l => l.quad / 4 != core
    l1bad := m.l1bad.filter fun b => b.1 / 4 != core
    icache := m.icache.filter fun l => l.core != core
    tlb1 := m.tlb1.filter fun e => e.1 / 4 != core
    errs := m.errs.filter fun e => match e.1 with
      | .scratch c _ => c != core
      | .l1 q _ _ => q / 4 != core
      | _ => true }

/-- SELFTEST_DONE, after 2^24 cycles: REJOIN with zeroed arrays, or RETIRED. -/
def execSelftestDone (core : Nat) (pass : Bool) (s : State) : Host.Outcome State Fault Refusal :=
  let t := s.tile core
  if t.state ≠ .selftest ∨ s.cycle < t.since + Config.selfTestCycles then .next s
  else if pass then
    let c := s.core core
    let t := { t.enter .rejoin s.cycle with passed := true, stopped := false, extra := 0, badNext := 0, rejoinBeats := 0 }
    .next ((s.setMem (s.mem.wipeCore core)).setCore core { c with tile := t, zeroing := [], siteReqs := [] })
  else .next (s.setTile core (t.enter .retired s.cycle))

/-! ### Failures and the caller's commands (R341, R345) -/

/-- CORE_STOPPED: the tile's core fails in one of the ways of R341 and R342. -/
def execCoreStopped (core : Nat) (how : CoreFailure) (s : State) : Host.Outcome State Fault Refusal :=
  let t := s.tile core
  .next (s.setTile core (match how with
    | .stop => { t with stopped := true }
    | .extraBeats n => { t with extra := n }
    | .badBeats n => { t with badNext := n }
    | .testWillFail => { t with willFail := true }))

/-- A fabric command's tile; `none` where its low bits are not zero. -/
def fabricCmd (w : W64) : Option Nat := if w.extractLsb' 0 48 = 0 then some (w.extractLsb' 48 8).toNat else none

/-- A fabric command with the states it fits. -/
def State.fabricStep (s : State) (w : W64) (fits : Vote → Bool) (act : State → Nat → State) : State :=
  match fabricCmd w with
  | some core => if fits (s.tile core).state then (act s core).cmdOk else s.cmdBad
  | none => s.cmdBad

/-- SETOUT: a LIVE or SUSPECT tile sits out; one in PROBATION falls back, with CAUSE 5 of a SETOUT (log 100, DESIGN CHOICE). -/
def execSetout (w : W64) (s : State) : Host.Outcome State Fault Refusal :=
  .next (s.fabricStep w (fun v => v == .live || v == .suspect || v == .probation) fun s core =>
    if (s.tile core).state = .probation then s.fallBack core 5
    else reviewAll reviewFuel ((List.range 8).filterMap (nbrOf core)) (s.sitOut core 5))

/-- READMIT: a tile in PROBATION is LIVE again, and its quadrants return to placement. -/
def execReadmit (w : W64) (s : State) : Host.Outcome State Fault Refusal :=
  .next (s.fabricStep w (fun v => v == .probation) fun s core =>
    let s := s.setTile core ((s.tile core).enter .live s.cycle)
    let s := s.setMem { s.mem with cut := s.mem.cut.filter (· != core) }
    s.setCaller { s.caller with outCores := s.caller.outCores.filter (· != core) })

/-- RETIRE: a tile in PROBATION is retired. -/
def execRetire (w : W64) (s : State) : Host.Outcome State Fault Refusal :=
  .next (s.fabricStep w (fun v => v == .probation) fun s core => s.setTile core ((s.tile core).enter .retired s.cycle))

/-- SETSTAT of a tile (R346). -/
def State.setstat (s : State) (core : Nat) : W64 :=
  let t := s.tile core
  let bits := fun (l : List Nat) => dirBits fun d => l.contains d
  BitVec.ofNat 64 (t.state.code * 2 ^ 60 + t.socnt % 4 * 2 ^ 58 + bits (s.setDirs core) * 2 ^ 48 +
    bits (s.votes core) * 2 ^ 40 + bits (s.admits core) * 2 ^ 32 + t.cause % 256 * 2 ^ 24 +
    min (periodOf s.cycle - periodOf t.since) (2 ^ 24 - 1))

end Machine
end Sys2Proof
end

