-- ==== Sys2Proof/Machine/Fabric.lean ====
section
/-!
DEFINITION. The fabric and the caches' own steps (R240, R276, R277, R281 to R283, R331 to R338, R370): the calendar, injection
and acceptance of requests, replays, ownership, recalls, fills and write-backs.
-/
namespace Sys2Proof
open Machine

namespace Machine

/-! ### The calendar (R334, R335) -/

/-- The slots of a tenant, ascending. -/
def slotsOfTenant (t : SMap Byte) (ten : Nat) : List Nat :=
  (List.range Config.slots).filter fun i => entryClass (tableEntry t i) == 0 && entryTenant (tableEntry t i) == ten

/-- No two neighbouring slots of a tenant lie more than 128 apart, counted cyclically. -/
def spacingOk (l : List Nat) : Bool :=
  match l with
  | [] => true
  | first :: _ => ((l.zip (l.drop 1 ++ [first + Config.slots]))).all fun p => decide (p.2 - p.1 ≤ 128)

/-- A table that LOAD accepts, with the tenants that are enabled. -/
def tableOk (t : SMap Byte) (enabled : List Nat) : Bool :=
  let es := (List.range Config.slots).map (tableEntry t)
  es.all (fun e => entryClass e != 3 && (entryClass e != 0 || enabled.contains (entryTenant e))) &&
  enabled.all (fun ten => decide (4 ≤ (slotsOfTenant t ten).length) && spacingOk (slotsOfTenant t ten)) &&
  decide (64 ≤ (es.filter fun e => entryClass e == 1).length)

/-- CALCTL_LOAD: the shadow table is committed for the next slot 0, or refused. -/
def execCalctlLoad (s : State) : Host.Outcome State Fault Refusal :=
  if tableOk s.fab.shadow (enabledTenants s.host.quota) then
    .next { s with fab := { s.fab with pending := some s.fab.shadow, refused := false } }
  else .next { s with fab := { s.fab with refused := true } }

/-- CALENDAR_COMMIT at slot 0. -/
def execCalendarCommit (s : State) : Host.Outcome State Fault Refusal :=
  match s.fab.pending with
  | some t => if slotOf s.cycle = 0 then .next { s with fab := { s.fab with table := t, pending := none } } else .next s
  | none => .next s

/-! ### Rate limiters (R338, R370) -/

/-- A bucket gains RATE, capped at BURST; a full one is not listed. -/
def Core.refill (c : Core) (quota : Nat → QEntry) : Core :=
  { c with buckets := c.buckets.filterMap fun kv =>
      let q := quota kv.1
      if q.rate = 0 ∨ q.burst ≤ kv.2 + q.rate then none else some (kv.1, kv.2 + q.rate) }

/-- TOKEN_REFILL at a period's boundary. -/
def execTokenRefill (s : State) : Host.Outcome State Fault Refusal :=
  if s.cycle % Config.period = 0 then
    .next { s with cores := (s.cores.map fun kv => (kv.1, kv.2.refill s.quota)).filter fun kv => kv.2 != Core.reset }
  else .next s

/-! ### Requests on their way (R336, R337) -/

/-- The address to which an operation sends its next request. -/
def Op.targetPa (o : Op) : Option Nat := o.nextPa.orElse fun _ => o.kind.ask.map (·.pa)

/-- The operation has a request that waits to be injected. -/
def State.wantsInject (s : State) (b : Block) (o : Op) : Bool :=
  o.stage == .waiting &&
  (match o.nextPa with
    | none => false
    | some pa => !s.pathTaken b o.id (sliceOf pa)) &&
  (match o.kind.todo with
    | a :: _ => s.needsHome b o a && s.inOrder b o a
    | [] => false)

def State.setStage (s : State) (uid : Nat) (o : Op) (g : Stage) : State :=
  s.updBlock uid fun b => b.putOp { o with stage := g }

/-- A flit of the operation is under way: its request, or the reply or acknowledgement of one that its home has accepted. -/
def Op.underWay (o : Op) : Bool :=
  match o.stage with
  | .injected .. => true
  | .accepted => true
  | _ => false

/-- A request that is sent again comes to its slice one period of the calendar later. -/
def Stage.delay : Stage → Nat → Stage
  | .injected slot sent _, at_ => .injected slot sent at_
  | g, _ => g

/-- FLIT_REPLAY: a first CRC failure sends the flit again one period of the calendar later; a second one is a link fault: the
link retrains and the caller is told (R332).  The crossing sends it, also for a tile whose gate has closed (R347). -/
def execFlitReplay (uid id : Nat) (again : Bool) (s : State) : Host.Outcome State Fault Refusal :=
  match s.opIn uid id with
  | none => .next s
  | some (b, o) =>
    match o.underWay, crossing b.core (o.targetPa.getD 0) with
    | true, some pair =>
      match s.fab.replays.find? fun r => r.1 == uid && r.2.1 == id with
      | none =>
        let due := s.cycle + Config.slots
        .next (({ s with fab := { s.fab with replays := s.fab.replays ++ [(uid, id, due)] } } : State).setStage uid o
          (o.stage.delay due))
      | some r =>
        if s.cycle < r.2.2 then .next s
        else
          let f := { s.fab with replays := s.fab.replays.filter fun q => q != r }
          if again then
            .next ({ s with fab := { f with linkDown := f.linkDown.filter (· != pair) ++ [pair] } }.setCaller
              { s.caller with linkFaults := s.caller.linkFaults ++ [pair] })
          else .next { s with fab := f }
    | _, _ => .next s

/-- LINK_RETRAIN_COMPLETE. -/
def execLinkRetrainComplete (a b : Nat) (s : State) : Host.Outcome State Fault Refusal :=
  .next { s with fab := { s.fab with linkDown := s.fab.linkDown.filter fun p => p != (min a b, max a b) } }

/-! ### Acceptance at a slice and at a memory port (R242, R283, R337) -/

/-- A request in a queue: its block, its operation, and the cycle of its arrival. -/
abbrev Queued := Block × Op × Nat

/-- The requests of all blocks that a queue holds, as `p` says. -/
def State.queued (s : State) (p : Block → Op → Option Nat) : List Queued :=
  s.blocks.flatMap fun b => b.flight.filterMap fun o => (p b o).map fun t => (b, o, t)

/-- Another request of the tenant was injected before on the route of the core to the slice: the route keeps their order
(R241, R332). -/
def State.routeBefore (s : State) (b : Block) (o : Op) (slice sent : Nat) : Bool :=
  s.blocks.any fun c => c.core == b.core && c.ten == b.ten && c.flight.any fun p => match p.stage with
    | .injected _ t _ => decide (t < sent ∨ (t = sent ∧ p.id < o.id)) && p.targetPa.map sliceOf == some slice
    | _ => false

/-- The request writes at its home. -/
def OpKind.writesHome (k : OpKind) : Bool := k.isWrite || k.ask.any (·.write)

/-- The slice serves a read of a line: it holds it, and not just bytes written there (R281). -/
def MemSys.served (m : MemSys) (slice line : Nat) : Bool := m.held.contains (slice, line) && !m.thin.contains line

/-- A read that waits at its slice: for a fill of its line; for a free miss register when the slice holds bytes of the line, which
cannot be passed by; for room in the write-back queue, which empties in service slots (R283, R336). -/
def State.missWaits (s : State) (slice line : Nat) : Bool :=
  let busy := s.mem.misses.get [] slice
  busy.contains line || (!s.mem.served slice line && (decide (Config.missRegs ≤ busy.length) && s.mem.held.contains (slice, line) ||
    !s.slotAllows .service && decide (Config.wbEntries ≤ (s.mem.wbq.get [] slice).length)))

/-- The slice still holds the host lines of an accepted request. -/
def State.hostKeeps (s : State) (o : Op) : Bool :=
  o.kind.todo.head?.all (s.hostReady o) && o.kind.ask.all fun a => s.hostHas a.write a.pa

/-- When a request arrived in a slice's queue.  A host line that has been snooped away is asked for again. -/
def State.arrivedAt (s : State) (slice : Nat) (b : Block) (o : Op) : Option Nat :=
  match o.targetPa with
  | none => none
  | some pa =>
    if sliceOf pa != slice || o.isReplaying s b.uid || s.linkIsDown (crossing b.core pa) then none
    else match o.stage with
      | .injected _ sent t =>
        if s.routeBefore b o slice sent || (isHbm pa && !o.kind.writesHome && s.missWaits slice (lineOf pa)) then none else some t
      | .accepted => if s.hostKeeps o then none else some 0
      | _ => none

/-- When a request arrived in a memory port's queue; one that meets a queued write-back of its line waits for it (R283). -/
def State.arrivedAtPort (s : State) (port : Nat) (_b : Block) (o : Op) : Option Nat :=
  match o.stage, o.targetPa with
  | .atPort t, some pa =>
    if portOf pa == port && !(s.mem.wbq.get [] (sliceOf pa)).contains (lineOf pa) then some t else none
  | _, _ => none

/-- The oldest request of a queue that the slot of the cycle admits. -/
def State.oldest (s : State) (l : List Queued) : Option (Block × Op) :=
  ((l.filter fun q => s.slotAllows (.tenant q.1.ten)).foldl (fun best q =>
    match best with
    | none => some q
    | some x => if q.2.2 < x.2.2 ∨ (q.2.2 = x.2.2 ∧ q.2.1.id < x.2.1.id) then some q else some x) (none : Option Queued)).map
    fun q => (q.1, q.2.1)

def State.headAt (s : State) (slice : Nat) : Option (Block × Op) := s.oldest (s.queued (s.arrivedAt slice))

def State.headAtPort (s : State) (port : Nat) : Option (Block × Op) := s.oldest (s.queued (s.arrivedAtPort port))

/-- A miss register of a slice becomes busy with a line. -/
def MemSys.takeMiss (m : MemSys) (slice line : Nat) : MemSys :=
  { m with misses := m.misses.set [] slice (m.misses.get [] slice ++ [line]) }

/-- A read that its slice does not serve: with a free miss register the slice takes the line in, else the read bypasses it and
allocates nothing (R283). -/
def MemSys.lookup (m : MemSys) (slice line : Nat) : MemSys :=
  if !m.served slice line && decide ((m.misses.get [] slice).length < Config.missRegs) then
    (m.holdHome line).takeMiss slice line
  else m

/-- A read of a line at its port: what it finds there is corrected or poisons its unit (R285, R287). -/
def MemSys.portRead (m : MemSys) (line : Nat) : MemSys :=
  (m.errs.filter fun e => match e.1 with
    | .memory pa => lineOf pa == line && !m.scrubbed pa && m.unitFromPort pa
    | _ => false).foldl (fun m e => m.found (fun _ => 0) e) m

/-- The miss register of a line is free again. -/
def MemSys.freeMiss (m : MemSys) (slice line : Nat) : MemSys :=
  { m with misses := m.misses.set [] slice ((m.misses.get [] slice).filter (· != line)) }

/-- A port accepts a read: the line goes to its slice, whose miss register is free with the last read that waits there (R283). -/
def State.portAccept (s : State) (b : Block) (o : Op) (pa : Nat) : State :=
  let line := lineOf pa
  let m := s.mem.portRead line
  let others := s.blocks.any fun c => c.flight.any fun p => p.id != o.id && p.targetPa.map lineOf == some line && (match p.stage with
    | .atPort _ => true
    | _ => false)
  (s.setMem (if others then m else m.freeMiss (sliceOf pa) line)).setStage b.uid o .accepted

/-- The slice whose queued write-back a memory port takes next: it serves the slice of its channel on its die (R280, R283). -/
def MemSys.wbFor (m : MemSys) (port : Nat) : Option Nat :=
  let slice := 32 * (port / 64) + port % 32
  match m.wbq.get [] slice with
  | l :: _ => if portOf (l * lineBytes) = port then some slice else none
  | [] => none

/-- A slice accepts a request for an address: a host line comes to be held, owned for a write, else shared (R242); a read of a
line that the slice does not serve goes on to the memory port (R283). -/
def State.acceptAt (s : State) (slice : Nat) (b : Block) (o : Op) (pa : Nat) : State :=
  let line := lineOf pa
  if paSpace pa = 1 then
    let m := s.mem.hold slice line
    (s.setMem { m with hostLines := m.hostLines.put line (o.kind.writesHome || (m.hostLines.find line).getD false) }).setStage
      b.uid o .accepted
  else if o.kind.writesHome || !isHbm pa || s.mem.served slice line then s.setStage b.uid o .accepted
  else (s.setMem (s.mem.lookup slice line)).setStage b.uid o (.atPort s.cycle)

/-- REQUEST_ACCEPT: the head request of the slot's tenant is accepted by a slice, or from number 128 on by a memory port; in a
service slot, or with no request, a port takes the write-back at the head of its slice's queue. -/
def execRequestAccept (n : Nat) (s : State) : Host.Outcome State Fault Refusal :=
  if 128 ≤ n then
    match s.headAtPort (n - 128) with
    | some (b, o) => .next (s.portAccept b o (o.targetPa.getD 0))
    | none =>
      match s.mem.wbFor (n - 128) with
      | some slice => if s.slotAllows .service then .next (s.setMem (s.mem.drainWb slice)) else .next s
      | none => .next s
  else
    match s.headAt n with
    | some (b, o) => .next (s.acceptAt n b o (o.targetPa.getD 0))
    | none => .next s

/-! ### Ownership, recalls, fills, write-backs (R240, R276, R277) -/

/-- An L1 line with stored words that its home has not granted yet. -/
def MemSys.wantsGrant (m : MemSys) (quad line : Nat) : Bool :=
  match m.l1Line quad line with
  | some l => !l.owned && l.hasDirty && !m.locked line
  | none => false

/-- Coherence traffic of its own rides a service slot (R336). -/
def State.inService (s : State) (m : MemSys) : State := if s.slotAllows .service then s.setMem m else s

/-- OWNERSHIP_GRANT: the home grants once every other copy is written back and gone. -/
def execOwnershipGrant (quad line : Nat) (s : State) : Host.Outcome State Fault Refusal :=
  if s.mem.wantsGrant quad line then .next (s.inService (s.mem.grant quad line)) else .next s

/-- RECALL: the dirty bytes of the owning L1 come home. -/
def execRecall (line : Nat) (s : State) : Host.Outcome State Fault Refusal := .next (s.inService (s.mem.recallLine line))

/-- MERGING_FILL: the words of a held line that are not valid, after the home has looked for errors in it (R285); none comes behind a
closed gate (R343). -/
def execMergingFill (quad line : Nat) (s : State) : Host.Outcome State Fault Refusal :=
  if !(s.tile (quad / 4)).inPlay then .next s
  else
    let s := s.scanHome (lineLocs line)
    .next (s.inService (s.mem.fill quad line))

/-- L1_WRITEBACK: the line is evicted, its dirty words alone written back. -/
def execL1Writeback (quad line : Nat) (s : State) : Host.Outcome State Fault Refusal := .next (s.inService (s.mem.l1Evict quad line))

end Machine
end Sys2Proof
end

