-- ==== Sys2Proof/Machine/Arrays.lean ====
section
/-!
DEFINITION. Steps of the memory arrays and of translation (R269, R272, R274, R289, R290, R365, R366, R372 to R374): scrubbing,
scratchpad banks, soft errors, page walks and the dirty log's poll.
-/
namespace Sys2Proof
open Machine

namespace Machine

/-! ### Scrubbing (R289, R290) -/

abbrev portLines : Nat := 16384
abbrev scrubMax : Nat := 16

def ScrubReg.zero : ScrubReg := { region := 0, refused := false }

def MemSys.scrubReg (m : MemSys) (stack : Nat) : ScrubReg := m.scrubRegs.get ScrubReg.zero stack

def MemSys.setScrubReg (m : MemSys) (stack : Nat) (r : ScrubReg) : MemSys :=
  { m with scrubRegs := m.scrubRegs.set ScrubReg.zero stack r }

/-- A region as the order leaves it. -/
def Scrub.start (stack region : Nat) : Scrub :=
  { stack := stack, region := region, wm := (List.range 32).map fun p => (p, portLines), touched := [] }

/-- Lines of a region that a cache holds. -/
def MemSys.cachedIn (m : MemSys) (stack region : Nat) : List Nat :=
  ((m.llc.map fun kv => lineOf kv.1) ++ m.l1.map (·.line) ++ m.copies.map (·.line)).eraseDups.filter fun line =>
    isHbm (line * lineBytes) && stackOf (line * lineBytes) == stack && regionOf (line * lineBytes) == region

/-- A line goes home to its port, and no cache keeps it. -/
def MemSys.sendHome (m : MemSys) (line : Nat) : MemSys := (((m.takeLine line).dropTag line).writeBack line).dropAbroad line

/-- SCRUB_ORDER: GO for the region in the stack's register.  What caches hold of the region reaches the ports ahead of the order, so
that no byte from before it can be read (R289, R371; log 88, DEDUCED). -/
def execScrubOrder (stack : Nat) (s : State) : Host.Outcome State Fault Refusal :=
  let m := s.mem
  let r := m.scrubReg stack
  let mine := m.scrubs.filter fun sc => sc.stack == stack
  if scrubMax ≤ mine.length ∨ mine.any (fun sc => sc.region == r.region) then
    .next (s.setMem (m.setScrubReg stack { r with refused := true }))
  else
    let m := (m.cachedIn stack r.region).foldl MemSys.sendHome m
    .next (s.setMem { m with scrubs := m.scrubs ++ [Scrub.start stack r.region] })

/-- The physical line of a port's line within a region (R280, R289). -/
def scrubLine (stack region port l : Nat) : Nat :=
  let hi := stack * 2 ^ 36 + region * 2 ^ 26 + l * 2 ^ 12
  (hi + (port ^^^ channelOf hi) * 2 ^ 7) / lineBytes

/-- The region with one port's WM lowered by one. -/
def Scrub.lower (sc : Scrub) (port : Nat) : Scrub := { sc with wm := sc.wm.upd 0 port (· - 1) }

/-- SCRUB_STEP, in a service slot: the line below WM is zeroed unless touched, and WM falls; with every WM at 0 the region
leaves scrub. -/
def execScrubStep (stack region port : Nat) (s : State) : Host.Outcome State Fault Refusal :=
  if !s.slotAllows .service then .next s
  else match s.mem.scrubs.find? fun sc => sc.stack == stack && sc.region == region with
  | none => .next s
  | some sc =>
    match sc.wm.get 0 port with
    | 0 => .next s
    | l + 1 =>
      let m := if sc.touched.contains (port, l) then s.mem else s.mem.zeroLine (scrubLine stack region port l)
      let sc' := sc.lower port
      let rest := m.scrubs.filter fun x => !(x.stack == stack && x.region == region)
      .next (s.setMem { m with scrubs := if sc'.wm.isEmpty then rest else rest ++ [sc'] })

/-- The largest WM of a stack's ports for a region. -/
def MemSys.maxWm (m : MemSys) (stack region : Nat) : Nat :=
  match m.scrubs.find? fun sc => sc.stack == stack && sc.region == region with
  | some sc => sc.wm.foldl (fun n kv => max n kv.2) 0
  | none => 0

/-- SCRUBSTAT (R290). -/
def MemSys.scrubStat (m : MemSys) (stack : Nat) : W64 :=
  let r := m.scrubReg stack
  BitVec.ofNat 64 (b2n r.refused * 2 ^ 63 + (m.scrubs.filter fun sc => sc.stack == stack).length * 2 ^ 32 +
    m.maxWm stack r.region)

/-! ### Scratchpad banks (R272, R274) -/

/-- Bank counts that SPOWN may give a quadrant. -/
def spownOk (v : W64) : Bool :=
  (List.range 4).all fun q => [0, 4, 8, 16, 32].contains (ownBanks v q).length

/-- Banks whose owner changes. -/
def movedBanks (old new : W64) : List Nat := (List.range 32).filter fun b => bankOwner old b != bankOwner new b

/-- A quadrant of a core holds a resident block. -/
def State.occupied (s : State) (core quad : Nat) : Bool := s.blocks.any fun b => b.core == core && b.quad == quad

/-- SPOWN_WRITE: refused and counted for a forbidden bank count; the caller moves no bank of an occupied quadrant; moved banks
go into handover. -/
def execSpownWrite (core : Nat) (v : W64) (s : State) : Host.Outcome State Fault Refusal :=
  let c := s.core core
  let moved := movedBanks c.spown v
  if !spownOk v then .next s.callerError
  else if moved.any fun b => s.occupied core (bankOwner c.spown b) || s.occupied core (bankOwner v b) then .next s
  else .next (s.setCore core { c with spown := v, zeroing := c.zeroing ++ moved.filter fun b => !c.zeroing.contains b })

/-- BANK_ZERO_DONE: the bank holds zeros and serves its new owner. -/
def execBankZeroDone (core bank : Nat) (s : State) : Host.Outcome State Fault Refusal :=
  let c := s.core core
  if !c.zeroing.contains bank then .next s
  else
    let lo := core * spadSize + bank * 32768
    let m := { s.mem with
      spad := s.mem.spad.dropRange lo (lo + 32768)
      spoison := s.mem.spoison.filter fun u => !(decide (lo / 8 ≤ u) && decide (u < (lo + 32768) / 8))
      errs := s.mem.errs.filter fun e => match e.1 with
        | .scratch k a => !(k == core && a / 32768 == bank)
        | _ => true }
    .next ((s.setMem m).setCore core { c with zeroing := c.zeroing.filter (· != bank) })

/-! ### Soft errors (R269) -/

/-- SOFT_ERROR: to be found at a later read; a second upset of a word is no longer correctable. -/
def execSoftError (loc : ErrLoc) (correctable : Bool) (s : State) : Host.Outcome State Fault Refusal :=
  let before := s.mem.errs.any fun e => e.1 == loc
  .next (s.setMem { s.mem with errs := s.mem.errs.filter (fun e => e.1 != loc) ++ [(loc, correctable && !before)] })

/-! ### Translation (R365, R366, R373) -/

/-- The device caches the PASID-table entry that it has read, unless a command in progress drops it (R359, R368). -/
def State.cachePasid (s : State) (pasid : Nat) : State :=
  match s.pasidEntry pasid with
  | some e =>
    if s.invUnder fun r ten => (r.scope == 1 && r.pasid == pasid) || (r.scope == 4 && e.2.1 == ten) then s
    else s.setHost { s.host with pasidCache := s.host.pasidCache.put pasid e }
  | none => s

/-- TLB_WALK: a walk that grants the access enters the TLBs, after the dirty log where it must; one that faults leaves
nothing. -/
def execTlbWalk (core quad ten pasid : Nat) (va : W64) (acc : Access) (s : State) : Host.Outcome State Fault Refusal :=
  match va56 va with
  | none => .next s
  | some a =>
    match s.walk ten pasid a with
    | none => .next s
    | some x =>
      if !x.grants acc then .next s
      else
        let log := s.mustLog x acc
        let s := (if log then s.logDirty ten x else s).cachePasid pasid
        .next (s.fillTlb (quadId core quad) (if log then { x with dirty := true } else x))

/-- A bit of DLFLAGS set or cleared. -/
def State.setDlFlag (s : State) (ten bit : Nat) (v : Bool) : State :=
  let fl := s.dlogNum ten 9 1
  let fl' := if bitN fl bit == v then fl else if v then fl + 2 ^ bit else fl - 2 ^ bit
  s.writePa ((s.quota ten).dlog + 9) (leBytes 1 fl')

/-- DIRTY_LOG_POLL: LOW is set, with its event, when the free space has reached the reserve, and cleared above it.  While STOPPED is 1
there is no reserve: LOW stays as it is until the space rises (R374). -/
def execDirtyLogPoll (ten : Nat) (s : State) : Host.Outcome State Fault Refusal :=
  let q := s.quota ten
  if !(q.enable && q.logon) then .next s
  else if s.dlogFree ten ≤ 1024 ∧ !bitN (s.dlogNum ten 9 1) 1 then
    if s.host.low.contains ten then .next s
    else
      let s := (s.setDlFlag ten 2 true).setHost { s.host with low := s.host.low ++ [ten] }
      .next (s.raiseEvent ten (s.dlogNum ten 0xA 2))
  else if s.host.low.contains ten ∧ 1024 < s.dlogFree ten then
    .next ((s.setDlFlag ten 2 false).setHost { s.host with low := s.host.low.filter (· != ten) })
  else .next s

end Machine
end Sys2Proof
end

