-- ==== Sys2Proof/Machine/Queue.lean ====
section
/-!
DEFINITION. Queues (R84, R86, R87, R293, R296 to R301, R310, R311): the decision log, queue control blocks, launch records,
kernel headers, the grid at HEAD, and the completion of a grid.
-/
namespace Sys2Proof
open Machine

namespace Machine

/-! ### The decision log (R293, R311, R312) -/

/-- What a decision records beside its number and its cycle. -/
structure Decision where
  kind : Nat
  ten : Nat
  q : Nat
  reason : Nat
  gseq : Nat
  blk : Nat
  core : Nat
  quad : Nat
  ahead : Nat
  prog : Nat
  est : Nat
deriving DecidableEq, Repr

abbrev kPlace : Nat := 0
abbrev kDrain : Nat := 1
abbrev kRestart : Nat := 2
abbrev kSave : Nat := 3
abbrev kRestore : Nat := 4
abbrev kLost : Nat := 5
abbrev kRelaunch : Nat := 6
abbrev kRefuse : Nat := 7
abbrev kComplete : Nat := 8
abbrev kForced : Nat := 9

/-- DQ of a caller event that belongs to no queue. -/
abbrev noQueue : Nat := 0xFF

/-- A decision about a grid as a whole. -/
def Decision.grid (kind ten q gseq : Nat) : Decision :=
  { kind := kind, ten := ten, q := q, reason := 0, gseq := gseq, blk := 0, core := 0, quad := 0, ahead := 0, prog := 0,
    est := 0 }

/-- A decision about a block. -/
def Decision.block (kind reason : Nat) (b : Block) : Decision :=
  { kind := kind, ten := b.ten, q := b.qnum, reason := reason, gseq := b.gseq, blk := b.idx, core := b.core,
    quad := b.quad, ahead := 0, prog := 0, est := 0 }

/-- The 32 bytes of a decision's record. -/
def Decision.bytes (d : Decision) (cycle dseq : Nat) : List Byte :=
  record 32
    [field 0 8 cycle, field 8 4 dseq, field 0xC 1 d.kind, field 0xD 1 d.ten, field 0xE 1 d.q, field 0xF 1 d.reason,
     field 0x10 4 d.gseq, field 0x14 4 d.blk, field 0x18 2 d.core, field 0x1A 1 (d.quad % 4 + 16 * (min d.ahead 15)),
     field 0x1B 1 d.prog, field 0x1C 4 d.est]

/-- The ring is full. -/
def Caller.logFull (c : Caller) : Bool := (c.loghead - c.logtail).toNat == 2 ^ c.logsize

/-- A record goes into the ring. -/
def State.logPut (s : State) (r : List Byte) : State :=
  let c := s.caller
  (s.writePa (c.logbase + 32 * (c.loghead.toNat % 2 ^ c.logsize)) r).setCaller { c with loghead := c.loghead + 1 }

/-- A record is appended; in a full ring it waits, or is dropped and counted (log 59, DEDUCED). -/
def State.logAppend (s : State) (r : List Byte) : State :=
  let c := s.caller
  if c.logwait = [] ∧ !c.logFull then s.logPut r
  else if c.cfg.logstall then s.setCaller { c with logwait := c.logwait ++ [r] }
  else s.setCaller { c with drops := c.drops + 1 }

/-- A decision takes the next number and is logged. -/
def State.logDecision (s : State) (d : Decision) : State :=
  (s.logAppend (d.bytes s.cycle s.caller.dseq.toNat)).setCaller
    { (s.logAppend (d.bytes s.cycle s.caller.dseq.toNat)).caller with dseq := s.caller.dseq + 1 }

/-- Records that waited go into the ring as far as there is room. -/
def logFlush : Nat → State → State
  | 0, s => s
  | n + 1, s =>
    match s.caller.logwait with
    | [] => s
    | r :: rest =>
      if s.caller.logFull then s else logFlush n ((s.setCaller { s.caller with logwait := rest }).logPut r)

def State.flushLog (s : State) : State := logFlush s.caller.logwait.length s

/-- Records that the ring still takes. -/
def Caller.logFree (c : Caller) : Nat := 2 ^ c.logsize - (c.loghead - c.logtail).toNat

/-- The log has room for the records of a decision; without LOGSTALL it need not (R311, R312). -/
def Caller.logRoom (c : Caller) (n : Nat) : Bool := c.logwait.isEmpty && (!c.cfg.logstall || decide (n ≤ c.logFree))

/-- A decision of `n` records may be taken: no HALT, and room for it in the log (R312). -/
def State.mayDecideN (s : State) (n : Nat) : Bool := s.mgmt.booted && !s.caller.cfg.halt && s.caller.logRoom n

def State.mayDecide (s : State) : Bool := s.mayDecideN 1

/-- FORCED ends a save in progress, which the load of a sheet waits for (R295, R324). -/
def State.mayForce (s : State) : Bool :=
  s.mgmt.booted && (!s.caller.cfg.halt || s.caller.loading.isSome) && s.caller.logRoom 1

/-! ### Queue control blocks (R296) -/

/-- A queue of an enabled tenant. -/
def State.hasQueue (s : State) (ten q : Nat) : Bool := (s.quota ten).enable && decide (q < (s.quota ten).nq)

/-- The physical address of a QCB, and the PASID of its queue (R356). -/
def State.qcb (s : State) (ten q : Nat) : Nat := s.mem.numPa ((s.quota ten).qlist + 16 * q) 8
def State.qpasid (s : State) (ten q : Nat) : Nat := s.mem.numPa ((s.quota ten).qlist + 16 * q + 8) 4 % 2 ^ 20

/-- A field of a QCB: its offset and its length. -/
abbrev QField := Nat × Nat

abbrev qRINGVA : QField := (0x00, 8)
abbrev qRINGLOG : QField := (0x08, 1)
abbrev qQPRIO : QField := (0x09, 1)
abbrev qQSTATE : QField := (0x0A, 1)
abbrev qQFLAGS : QField := (0x0B, 1)
abbrev qEVENT : QField := (0x0C, 2)
abbrev qTAIL : QField := (0x10, 4)
abbrev qHEAD : QField := (0x14, 4)
abbrev qDONESEQ : QField := (0x18, 4)
abbrev qINFL : QField := (0x1C, 4)
abbrev qDONEMAP : QField := (0x20, 8)
abbrev qSAVEVA : QField := (0x28, 8)
abbrev qSLOTKB : QField := (0x30, 4)
abbrev qNSLOT : QField := (0x34, 4)
abbrev qNEXTBLK : QField := (0x38, 8)
abbrev qSLOTMAP : QField := (0x40, 4)
abbrev qLIVEBLK : QField := (0x44, 4)
abbrev qQPLACED : QField := (0x48, 8)
abbrev qQDRAIN : QField := (0x50, 4)
abbrev qQRESTART : QField := (0x54, 4)
abbrev qQSAVE : QField := (0x58, 4)
abbrev qQLOST : QField := (0x5C, 4)
abbrev qQREFUSE : QField := (0x60, 4)
abbrev qQGRIDS : QField := (0x64, 4)
abbrev qLASTDEC : QField := (0x68, 4)
abbrev qNEXTZ : QField := (0x6C, 2)
abbrev qQWRAP : QField := (0x6E, 1)

def State.qget (s : State) (ten q : Nat) (f : QField) : Nat := s.mem.numPa (s.qcb ten q + f.1) f.2

/-- A field written, and logged as a write through the tenant's stage 2 (R373). -/
def State.qput (s : State) (ten q : Nat) (f : QField) (v : Nat) : State :=
  let pa := s.qcb ten q + f.1
  (s.logPa ten pa).writePa pa (leBytes f.2 v)

def State.qadd (s : State) (ten q : Nat) (f : QField) (k : Nat) : State := s.qput ten q f (s.qget ten q f + k)
def State.qsub (s : State) (ten q : Nat) (f : QField) : State := s.qput ten q f (s.qget ten q f + 2 ^ (8 * f.2) - 1)

/-- QSTATE, as the caller has it cached for a queue stopped after an error (R298). -/
def State.qstate (s : State) (ten q : Nat) : Nat :=
  if s.caller.dropped.contains (ten, q) then 2 else s.qget ten q qQSTATE

/-- An uncorrectable error in the QCB, or no such memory. -/
def State.qcbBad (s : State) (ten q : Nat) : Bool :=
  s.mem.anyPoison ((List.range 128).map fun i => .phys (s.qcb ten q + i)) ||
  (paSpace (s.qcb ten q) == 0 && !isHbm (s.qcb ten q + 127))

/-- The decision that a queue stops: QSTATE, the REFUSE record and the event (R298). -/
def State.refuseQueue (s : State) (ten q : Nat) : State :=
  let s := (s.setCaller { s.caller with owed := s.caller.owed.filter (· != (ten, q)) }).qput ten q qQSTATE 2
  (s.logDecision (Decision.grid kRefuse ten q (s.qget ten q qHEAD))).raiseEvent ten (s.qget ten q qEVENT)

/-- A queue is to be examined. -/
def State.ring (s : State) (ten q : Nat) : State :=
  if s.caller.doorbells.contains (ten, q) then s
  else s.setCaller { s.caller with doorbells := s.caller.doorbells ++ [(ten, q)] }

/-- THE QUEUE STOPS after an error that no grid can be charged with (R298): the caller serves it no longer, and decides so as
soon as it may decide. -/
def State.queueStop (s : State) (ten q : Nat) : State :=
  if s.caller.dropped.contains (ten, q) then s
  else
    let s := s.setCaller { s.caller with dropped := s.caller.dropped ++ [(ten, q)] }
    if s.mayDecide then s.refuseQueue ten q
    else (s.setCaller { s.caller with owed := s.caller.owed ++ [(ten, q)] }).ring ten q

/-- The queue stops if its QCB cannot be used (R298). -/
def State.checkQcb (s : State) (ten q : Nat) : State := if s.qcbBad ten q then s.queueStop ten q else s

/-- Bytes that the caller reads for a tenant: `none` where they do not translate or hold an uncorrectable error. -/
def State.vaTake (s : State) (ten pasid va n : Nat) : Option (List Byte) :=
  match s.vaLocs none ten pasid va n .read with
  | some l => if s.mem.anyPoison (l.map .phys) then none else some (l.map fun pa => s.mem.homeRead (.phys pa))
  | none => none

def State.vaTakeNum (s : State) (ten pasid va n : Nat) : Option Nat := (s.vaTake ten pasid va n).map leNum

def State.vaWritable (s : State) (ten pasid va n : Nat) : Bool := (s.vaLocs none ten pasid va n .write).isSome

/-- A pointer of tag 0x0 as a VA. -/
def va0 (a : Nat) : Option Nat := if a < 2 ^ 56 then some a else none

/-- The VA of the record with a sequence number. -/
def State.ringVa (s : State) (ten q seq : Nat) : Option Nat :=
  (va0 (s.qget ten q qRINGVA)).map fun va => va + 64 * (seq % 2 ^ s.qget ten q qRINGLOG)

/-! ### Acceptance (R297) -/

/-- Distance of two 32-bit numbers. -/
def sub32 (a b : Nat) : Nat := (a + 2 ^ 32 - b % 2 ^ 32) % 2 ^ 32

/-- There is room for a record in an enabled or draining queue of a tenant that is not stopped. -/
def State.mayAccept (s : State) (ten q : Nat) : Bool :=
  let fill := sub32 (s.qget ten q qTAIL) (s.qget ten q qDONESEQ)
  s.hasQueue ten q && !s.caller.stopped.contains ten && (s.qstate ten q == 1 || s.qstate ten q == 3) &&
  decide (fill < 2 ^ s.qget ten q qRINGLOG) && decide (fill < 64)

/-- A number comes into use: what is kept of the last grid that bore it goes, and with the first number after the QCB was
initialised all that is kept of the queue (R296, R300). -/
def State.renumber (s : State) (ten q seq : Nat) : State :=
  let old := fun (g : Nat × Nat × Nat) =>
    g.1 == ten && g.2.1 == q && (g.2.2 == seq || (seq == 0 && s.qget ten q qQWRAP % 2 == 0))
  s.setCaller { s.caller with
    started := s.caller.started.filter fun g => !old g, failed := s.caller.failed.filter fun g => !old g }

/-- A launch record is copied into the ring and TAIL advances; or nothing changes, but for a queue that stops. -/
def State.acceptRecord (s : State) (ten q : Nat) (bs : List Byte) : State × Bool :=
  if !s.mayAccept ten q then (s, false)
  else if s.qcbBad ten q then (s.queueStop ten q, false)
  else
    let tail := s.qget ten q qTAIL
    match s.ringVa ten q tail with
    | none => (s.queueStop ten q, false)
    | some va =>
      if !s.vaWritable ten (s.qpasid ten q) va 64 then (s.queueStop ten q, false)
      else
        let s := (s.vaWrite ten (s.qpasid ten q) va (bs.take 64)).renumber ten q tail
        let s := if tail + 1 = 2 ^ 32 then s.qput ten q qQWRAP 1 else s
        (s.qput ten q qTAIL (tail + 1), true)

/-- Every queue of a tenant is to be examined. -/
def State.ringAll (s : State) (ten : Nat) : State := (List.range (s.quota ten).nq).foldl (fun s q => s.ring ten q) s

/-- CS_DOORBELL. -/
def execCsDoorbell (ten q : Nat) (s : State) : Host.Outcome State Fault Refusal := .next (s.ring ten q)

/-! ### Launch records (R299) -/

structure LaunchRec where
  codeva : Nat
  koff : Nat
  gx : Nat
  gy : Nat
  gz : Nat
  trav : Nat
  prio : Nat
  ndep : Nat
  lflags : Nat
  argva : Nat
  ltag : Nat
  deps : List Nat
  cva : Nat
  rest : Nat
deriving DecidableEq, Repr

def LaunchRec.ofBytes (bs : List Byte) : LaunchRec :=
  let n := fun (off len : Nat) => leNum ((bs.drop off).take len)
  { codeva := n 0 8, koff := n 8 4, gx := n 0xC 4, gy := n 0x10 2, gz := n 0x12 2, trav := n 0x14 1, prio := n 0x15 1,
    ndep := n 0x16 1, lflags := n 0x17 1, argva := n 0x18 8, ltag := n 0x20 4, deps := [n 0x24 4, n 0x28 4, n 0x2C 4],
    cva := n 0x30 8, rest := n 0x38 8 }

/-- The limits that the record alone decides. -/
def LaunchRec.ok (r : LaunchRec) : Bool :=
  r.codeva % 256 == 0 && decide (r.codeva < 2 ^ 56) && decide (1 ≤ r.gx) && decide (r.gx ≤ 0x7FFFFFFF) &&
  decide (1 ≤ r.gy) && decide (1 ≤ r.gz) && decide (r.trav < 64) && decide (r.prio ≤ 7) && decide (r.ndep ≤ 3) &&
  decide (r.lflags < 8) && r.argva / 2 ^ 56 == 0x10 && r.argva % 8 == 0 && r.cva % 32 == 0 && decide (r.cva < 2 ^ 56) &&
  r.rest == 0

/-! ### Kernel headers (R86, R87) -/

def KHeader.ofBytes (bs : List Byte) : KHeader :=
  let n := fun (off len : Nat) => leNum ((bs.drop off).take len)
  { isalvl := n 6 2, entry := n 8 4, codelen := n 0xC 4, vgran := n 0x10 1, sgran := n 0x11 1, atiles := n 0x12 1,
    width := n 0x13 1, strands := n 0x14 1, cluster := n 0x15 1, osc := n 0x16 1, idem := n 0x17 1 % 2 == 1,
    fuse := n 0x17 1 / 2 % 2 == 1, roles := BitVec.ofNat 32 (n 0x18 4), scratch := n 0x1C 2, priv := n 0x1E 2,
    bframe := n 0x20 2, cframe := n 0x22 2, saveoff := n 0x24 4, savebud := n 0x28 2, weight := n 0x2A 1 }

/-- The scratchpad grant (R201). -/
def KHeader.grant (h : KHeader) : Nat := roundUp (1024 * h.scratch + roundUp h.bframe 8 + roundUp h.cframe 8) 1024

/-- An offset of code in the kernel. -/
def codeOffset (h : KHeader) (o : Nat) : Bool := o % 16 == 0 && decide (0x60 ≤ o) && decide (o < h.codelen)

/-- The fields within their limits. -/
def KHeader.ok (h : KHeader) : Bool :=
  decide (1 ≤ h.isalvl) && codeOffset h h.entry && decide (h.vgran ≤ 32) && decide (h.sgran ≤ 8) && decide (h.atiles ≤ 4) &&
  [8, 16, 32, 64].contains h.width && decide (1 ≤ h.strands) && decide (h.strands ≤ 16) && decide (1 ≤ h.cluster) &&
  decide (h.cluster ≤ 4) && decide (h.osc ≤ 7) && decide (h.roles.toNat < 4 ^ h.strands) && decide (h.scratch ≤ 1024) &&
  decide (h.bframe ≤ 512) && h.bframe % 4 == 0 && decide (h.cframe ≤ 512) && h.cframe % 4 == 0 &&
  (h.saveoff == 0 || codeOffset h h.saveoff) && ((h.saveoff == 0) == (h.savebud == 0))

/-- A header that the caller launches under a sheet of a level (R87). -/
def headerOk (bs : List Byte) (isa : Nat) : Bool :=
  let n := fun (off len : Nat) => leNum ((bs.drop off).take len)
  let h := KHeader.ofBytes bs
  n 0 4 == 0x4B484D58 && n 4 2 == 1 && n 0x5C 4 == (crc32 (bs.take 0x5C)).toNat && decide (n 0x17 1 < 4) && n 0x2B 1 == 0 &&
  n 0x30 44 == 0 && h.ok && decide (h.isalvl ≤ isa) && (h.saveoff == 0 || h.sgran != 0) &&
  decide (h.vgran * 8 * h.width * h.strands ≤ 65536) && decide (h.width * h.strands ≤ 1024) && decide (h.grant ≤ 2 ^ 20)

/-- NAMEOFF of a header: 0, or an offset in the segment's .rodata (R86). -/
def nameOk (bs : List Byte) (rodata size : Nat) : Bool :=
  let n := leNum ((bs.drop 0x2C).take 4)
  n == 0 || (decide (rodata ≤ n) && decide (n < rodata + size))

/-! ### Dependences (R300) -/

inductive DepState where
  | met | waits | cancels
deriving DecidableEq, Repr

/-- A grid of a queue has completed. -/
def State.gridDone (s : State) (ten q n : Nat) : Bool :=
  let d := sub32 n (s.qget ten q qDONESEQ)
  if 2 ^ 31 ≤ d then true else decide (d < 64) && s.qget ten q qDONEMAP / 2 ^ d % 2 == 1

/-- A dependence on queue q and a number m modulo 2^24. -/
def State.depState (s : State) (ten q m : Nat) : DepState :=
  let tail := s.qget ten q qTAIL
  let d := (tail + 2 ^ 24 - m % 2 ^ 24) % 2 ^ 24
  if d = 0 ∨ 2 ^ 23 < d then .waits
  else if s.qget ten q qQWRAP % 2 = 0 ∧ tail < d then .met
  else
    let n := sub32 tail d
    if s.caller.failed.contains (ten, q, n) then .cancels else if s.gridDone ten q n then .met else .waits

/-- The dependences of a record at HEAD: those it names, and AFTER. -/
def State.deps (s : State) (ten q seq : Nat) (r : LaunchRec) : List DepState :=
  ((r.deps.take r.ndep).map fun w =>
    if s.hasQueue ten (w / 2 ^ 24) then s.depState ten (w / 2 ^ 24) (w % 2 ^ 24) else .met) ++
  (if r.lflags % 2 = 1 then [s.depState ten q (sub32 seq 1 % 2 ^ 24)] else [])

/-! ### The private pool (R286, R318, R356) -/

/-- Bytes of the private pool that a block takes: its strands' windows, then their trap areas (log 41, DESIGN CHOICE). -/
def KHeader.poolLen (h : KHeader) : Nat := h.strands * roundUp (64 * h.priv * h.width) 65536 + h.strands * 8192

/-- The tenant's pool: its base and its size. -/
def State.pool (s : State) (ten : Nat) : Option (Nat × Nat) :=
  let q := s.quota ten
  match va0 q.ppool.toNat with
  | some va => if va = 0 ∨ q.ppoolmb = 0 then none else some (va, q.ppoolmb * 2 ^ 20)
  | none => none

/-! ### The checks of a grid (R301) -/

/-- Whether the kernel table lists an offset; `none` where an entry does not translate. -/
def State.koffListed (s : State) (ten pasid koff : Nat) : Nat → Nat → Option Bool
  | 0, _ => some false
  | n + 1, va =>
    match s.vaTakeNum ten pasid va 4 with
    | none => none
    | some v => if v = koff then some true else s.koffListed ten pasid koff n (va + 8)

/-- The reason of a refusal, or the header.  An uncorrectable error in what the check reads is answered like a read that does not
translate, with CREASON 3 (log 96, DESIGN CHOICE). -/
def State.checkGrid (s : State) (ten q : Nat) (r : LaunchRec) : Except Nat KHeader :=
  let pasid := s.qpasid ten q
  if !r.ok then .error 1
  else
    match s.vaTakeNum ten pasid (r.codeva + 0x20) 4, s.vaTakeNum ten pasid (r.codeva + 0x24) 4,
        s.vaTakeNum ten pasid (r.codeva + 0x10) 8 with
    | some n, some tab, some ro =>
      match s.koffListed ten pasid r.koff n (r.codeva + tab) with
      | none => .error 3
      | some false => .error 1
      | some true =>
        match s.vaTake ten pasid (r.codeva + r.koff) 96 with
        | none => .error 3
        | some bs =>
          let h := KHeader.ofBytes bs
          if !headerOk bs (emulIsa s.caller.sheet) || !nameOk bs (ro % 2 ^ 32) (ro / 2 ^ 32) then .error 2
          else if (s.translate none ten pasid (r.argva % 2 ^ 56) .read).isNone then .error 3
          else if r.gx % h.cluster ≠ 0 ∨ 2 ^ 32 < r.gx * r.gy * r.gz then .error 4
          else if (r.deps.take r.ndep).any fun w => !s.hasQueue ten (w / 2 ^ 24) then .error 5
          else if s.qget ten q qNSLOT ≠ 0 ∧ s.qget ten q qSLOTKB ≠ 0 ∧
              s.qget ten q qSLOTKB * 1024 < (offsetsOf h h.grant).total then .error 6
          else if r.trav / 4 ≠ 0 ∧ 2 ≤ r.trav % 4 then .error 7
          else
            match s.pool ten with
            | none => .error 8
            | some p => if p.2 < h.poolLen then .error 8 else .ok h
    | _, _, _ => .error 3

/-! ### Completion (R310) -/

/-- What the completion of a grid needs to know of it. -/
structure GridEnd where
  ten : Nat
  q : Nat
  seq : Nat
  lflags : Nat
  ltag : Nat
  cva : Nat
  clost : Nat
  cstart : Nat
  status : Nat
  reason : Nat
deriving DecidableEq, Repr

abbrev stDone : Nat := 0
abbrev stRefused : Nat := 1
abbrev stFault : Nat := 2
abbrev stLost : Nat := 3
abbrev stCancelled : Nat := 4

/-- Bytes 0x00 to 0x17 of a completion record. -/
def GridEnd.head (g : GridEnd) : List Byte :=
  record 24 [field 0 4 g.ltag, field 4 1 g.status, field 5 1 g.reason, field 8 4 g.seq, field 0xC 4 g.clost,
    field 0x10 8 g.cstart]

/-- The completion record, CEND last; a record that cannot be written is skipped and stops the queue (R298). -/
def State.writeCompletion (s : State) (g : GridEnd) : State :=
  if g.cva = 0 then s
  else
    let pasid := s.qpasid g.ten g.q
    match va0 g.cva with
    | none => s.queueStop g.ten g.q
    | some va =>
      if !s.vaWritable g.ten pasid va 32 then s.queueStop g.ten g.q
      else (s.vaWrite g.ten pasid va g.head).vaWrite g.ten pasid (va + 0x18) (leBytes 8 (max s.cycle 1))

/-- DONESEQ past every contiguous completed grid. -/
def contiguous : Nat → Nat → Nat → Nat × Nat
  | 0, seq, map => (seq, map)
  | n + 1, seq, map => if map % 2 = 1 then contiguous n ((seq + 1) % 2 ^ 32) (map / 2) else (seq, map)

/-- INFL: the grids from DONESEQ to TAIL - 1 that have started. -/
def State.countInfl (s : State) (ten q : Nat) : State :=
  let done := s.qget ten q qDONESEQ
  let n := sub32 (s.qget ten q qTAIL) done
  s.qput ten q qINFL (s.caller.started.filter fun g => g.1 == ten && g.2.1 == q && decide (sub32 g.2.2 done < n)).length

/-- HEAD leaves a grid. -/
def State.headOn (s : State) (ten q : Nat) : State :=
  ((s.qadd ten q qHEAD 1).qput ten q qNEXTBLK 0).qput ten q qNEXTZ 0

/-- Steps 2 to 6 of a completion. -/
def State.completeGrid (s : State) (g : GridEnd) : State :=
  let s := (s.checkQcb g.ten g.q).writeCompletion g
  let seq := s.qget g.ten g.q qDONESEQ
  let map := s.qget g.ten g.q qDONEMAP
  let bit := 2 ^ (sub32 g.seq seq % 64)
  let c := contiguous 64 seq (if map / bit % 2 = 1 then map else map + bit)
  let s := (s.qput g.ten g.q qDONESEQ c.1).qput g.ten g.q qDONEMAP c.2
  let s := s.setCaller { s.caller with
    grids := s.caller.grids.filter fun x => !(x.ten == g.ten && x.qnum == g.q && x.seq == g.seq)
    failed := if g.status = stDone then s.caller.failed else s.caller.failed ++ [(g.ten, g.q, g.seq)] }
  let s := (s.qadd g.ten g.q qQGRIDS 1).countInfl g.ten g.q
  let s := s.logDecision (Decision.grid (if g.status = stRefused then kRefuse else kComplete) g.ten g.q g.seq)
  let s := if g.lflags / 2 % 2 = 1 then s.raiseEvent g.ten (s.qget g.ten g.q qEVENT) else s
  s.ringAll g.ten

/-- A grid that ends without running. -/
def LaunchRec.endsAs (r : LaunchRec) (ten q seq status reason : Nat) : GridEnd :=
  { ten := ten, q := q, seq := seq, lflags := r.lflags, ltag := r.ltag, cva := r.cva, clost := 0, cstart := 0,
    status := status, reason := reason }

/-- A started grid. -/
def LaunchRec.start (r : LaunchRec) (ten q seq : Nat) (h : KHeader) : Grid :=
  { ten := ten, qnum := q, seq := seq, hdr := h, code := BitVec.ofNat 64 r.codeva, koff := r.koff, gx := r.gx, gy := r.gy,
    gz := r.gz, trav := BitVec.ofNat 8 r.trav, prio := r.prio, lflags := BitVec.ofNat 8 r.lflags,
    arg := BitVec.ofNat 64 r.argva, ltag := BitVec.ofNat 32 r.ltag, cva := BitVec.ofNat 64 r.cva, ended := 0,
    status := stDone, clost := 0, cstart := 0, again := [] }

def Grid.ends (g : Grid) : GridEnd :=
  { ten := g.ten, q := g.qnum, seq := g.seq, lflags := g.lflags.toNat, ltag := g.ltag.toNat, cva := g.cva.toNat,
    clost := g.clost, cstart := g.cstart, status := g.status, reason := 0 }

def State.gridOf (s : State) (ten q seq : Nat) : Option Grid :=
  s.caller.grids.find? fun g => g.ten == ten && g.qnum == q && g.seq == seq

def State.putGrid (s : State) (g : Grid) : State :=
  s.setCaller { s.caller with
    grids := s.caller.grids.map fun x => if x.ten == g.ten && x.qnum == g.qnum && x.seq == g.seq then g else x }

/-! ### The grid at HEAD (R300, R301, R303) -/

/-- What examining a queue finds. -/
inductive Found where
  /-- nothing to do until the queue is rung again -/
  | nothing
  | did (s : State)

/-- A queue is examined: its head grid is refused, cancelled, started, or waits. -/
def State.examine (s : State) (ten q : Nat) : Found :=
  let st := s.qstate ten q
  if s.caller.owed.contains (ten, q) then .did (s.refuseQueue ten q)
  else if !s.hasQueue ten q || s.caller.stopped.contains ten || !(st == 1 || st == 3) then .nothing
  else if s.qcbBad ten q then .did (s.queueStop ten q)
  else
    let head := s.qget ten q qHEAD
    if head = s.qget ten q qTAIL ∨ (s.gridOf ten q head).isSome then .nothing
    else
      match (s.ringVa ten q head).bind fun va => s.vaTake ten (s.qpasid ten q) va 64 with
      | none => .did (s.queueStop ten q)
      | some bs =>
        let r := LaunchRec.ofBytes bs
        let ds := s.deps ten q head r
        if ds.contains .cancels then .did ((s.headOn ten q).completeGrid (r.endsAs ten q head stCancelled 0))
        else if ds.contains .waits then .nothing
        else
          match s.checkGrid ten q r with
          | .error reason =>
            .did (((s.headOn ten q).qadd ten q qQREFUSE 1).completeGrid (r.endsAs ten q head stRefused reason))
          | .ok h =>
            if st = 3 then .nothing
            else .did (s.setCaller { s.caller with grids := s.caller.grids ++ [r.start ten q head h] })

/-! ### SPAWN (R141, R297) -/

/-- A lane's record is offered to a queue of its tenant. -/
def State.offer (s : State) (b : Block) (q : Nat) (va : W64) : State × Bool :=
  if !s.hasQueue b.ten q then (s.logDecision (Decision.grid kRefuse b.ten noQueue 0), false)
  else
    match (va56 va).bind fun a => s.vaRead b.ten b.pasid a 64 with
    | none => (s, false)
    | some bs =>
      let r := s.acceptRecord b.ten q bs
      (if r.2 then r.1.ring b.ten q else r.1, r.2)

/-- The predicates of a SPAWN. -/
def spawnWrites (dst : Dst) (done : List (Nat × Bool)) : List PWrite :=
  dst.filterMap fun d => (done.find? fun r => r.1 == d.1).map fun r => partOf d.2.1 d.2.2 0 r.2

/-- CS_SPAWN: the record of the next lane, once the lane's earlier accesses are performed at .dev. -/
def execCsSpawn (uid id : Nat) (s : State) : Host.Outcome State Fault Refusal :=
  match s.opOf uid id with
  | none => .next s
  | some (b, o) =>
    match o.kind with
    | .spawn dst ((L, va, q) :: rest) done =>
      if !s.earlierDone b o.strand o.id (oneLane L) .dev || !(s.hasQueue b.ten q.toNat || s.mayDecide) then .next s
      else
        let r := s.offer b q.toNat va
        let done := done ++ [(L, r.2)]
        if rest.isEmpty then
          .next ((r.1.writeResult b o.strand o.id ((spawnWrites dst done).filter fun w => !o.dropped.contains w.tgt)).completeOp
            uid o)
        else .next (r.1.updBlock uid fun x => x.putOp { o with kind := .spawn dst rest done })
    | _ => .next s

/-! ### TRACE (R142, R313) -/

/-- A field of the tenant's trace descriptor. -/
def State.traceDesc (s : State) (ten off n : Nat) : Nat :=
  let q := s.quota ten
  match va56 q.tracedesc with
  | some va => if q.tracedesc = 0 then 0 else (s.vaNum ten q.spasid (va + off) n).getD 0
  | none => 0

def State.setTraceDesc (s : State) (ten off v : Nat) : State :=
  let q := s.quota ten
  match va56 q.tracedesc with
  | some va => if q.tracedesc = 0 then s else s.vaWrite ten q.spasid (va + off) (leBytes 4 v)
  | none => s

/-- The record goes into the ring, or is dropped and counted in TDROP. -/
def State.traceAppend (s : State) (ten : Nat) (bs : List Byte) : State :=
  let base := s.traceDesc ten 0 8
  let log := s.traceDesc ten 8 1
  let head := s.traceDesc ten 0x10 4
  if base = 0 ∨ 2 ^ 56 ≤ base ∨ 2 ^ log ≤ sub32 head (s.traceDesc ten 0x14 4) then
    s.setTraceDesc ten 0x18 (s.traceDesc ten 0x18 4 + 1)
  else (s.vaWrite ten (s.quota ten).spasid (base + 32 * (head % 2 ^ log)) bs).setTraceDesc ten 0x10 (head + 1)

/-- TRACE_RECORD_DONE. -/
def execTraceRecordDone (uid id : Nat) (s : State) : Host.Outcome State Fault Refusal :=
  match s.opOf uid id with
  | none => .next s
  | some (b, o) =>
    match o.kind with
    | .trace r => .next ((s.traceAppend b.ten r).completeOp uid o)
    | _ => .next s

end Machine
end Sys2Proof
end

