-- ==== Sys2Proof/Machine/Place.lean ====
section
/-!
DEFINITION. Placement (R26 to R29, R272, R273, R286, R291, R302 to R307, R315, R318): traversal orders, what fits where, the
choice of a queue and of quadrants, and PLACEMENT_DECISION.
-/
namespace Sys2Proof
open Machine

namespace Machine

/-! ### Traversal (R302, R303) -/

/-- Row-major order with panels of height 2^n, in a plane of `w` columns and `h` rows. -/
def panelPos (w h n s : Nat) : Nat × Nat :=
  let panel := s / (w * 2 ^ n)
  let k := s % (w * 2 ^ n)
  let rows := min (2 ^ n) (h - panel * 2 ^ n)
  (k / rows, panel * 2 ^ n + k % rows)

/-- Every second bit of a number. -/
def everySecond (s : Nat) : Nat := (List.range 32).foldl (fun v i => v + s / 4 ^ i % 2 * 2 ^ i) 0

/-- The smallest power of two at or above. -/
def powerAbove (n : Nat) : Nat := (List.range 33).foldr (fun i acc => if n ≤ 2 ^ i then 2 ^ i else acc) (2 ^ 33)

/-- The loop of the Hilbert order: `q` runs over the powers of two below P. -/
def hilbertFrom (p : Nat) : Nat → Nat → Nat × Nat → Nat → Nat × Nat
  | 0, _, uy, _ => uy
  | n + 1, q, (u, y), t =>
    if p ≤ q then (u, y)
    else
      let ru := t / 2 % 2
      let ry := (t % 2 + ru) % 2
      let f := if ry = 0 then (if ru = 1 then (q - 1 - y, q - 1 - u) else (y, u)) else (u, y)
      hilbertFrom p n (2 * q) (f.1 + q * ru, f.2 + q * ry) (t / 4)

def Grid.columns (g : Grid) : Nat := g.gx / g.hdr.cluster
def Grid.order (g : Grid) : Nat := g.trav.toNat % 4
def Grid.swz (g : Grid) : Nat := g.trav.toNat / 4 % 16
def Grid.side (g : Grid) : Nat := powerAbove (max g.columns g.gy)

/-- Where position s of a plane lies. -/
def Grid.place (g : Grid) (s : Nat) : Nat × Nat :=
  match g.order with
  | 0 => panelPos g.columns g.gy g.swz s
  | 1 => let p := panelPos g.gy g.columns g.swz s; (p.2, p.1)
  | 2 => (everySecond s, everySecond (s / 2))
  | _ => hilbertFrom g.side 33 1 (0, 0) s

/-- Positions of a plane. -/
def Grid.positions (g : Grid) : Nat := if g.order ≤ 1 then g.columns * g.gy else g.side * g.side

def Grid.inside (g : Grid) (s : Nat) : Bool := decide ((g.place s).1 < g.columns) && decide ((g.place s).2 < g.gy)

def firstInside (inside : Nat → Bool) : Nat → Nat → Option Nat
  | 0, _ => none
  | n + 1, s => if inside s then some s else firstInside inside n (s + 1)

/-- The first position of the grid at or after (z, s); `none` when it is fully placed. -/
def Grid.position (g : Grid) (z s : Nat) : Option (Nat × Nat) :=
  if g.gz ≤ z then none
  else
    match firstInside g.inside (g.positions - s) s with
    | some t => some (z, t)
    | none => if z + 1 < g.gz then some (z + 1, 0) else none

/-- The linear index of a block (R299). -/
def Grid.index (g : Grid) (x y z : Nat) : Nat := x + y * g.gx + z * g.gx * g.gy

/-- The blocks of the cluster at a position, by rank. -/
def Grid.clusterAt (g : Grid) (z s : Nat) : List Nat :=
  let uy := g.place s
  (List.range g.hdr.cluster).map fun r => g.index (uy.1 * g.hdr.cluster + r) uy.2 z

/-- Two blocks of a grid belong to one cluster. -/
def Grid.sameCluster (g : Grid) (i j : Nat) : Bool := i / g.hdr.cluster == j / g.hdr.cluster

/-! ### Departing quadrants (R357) -/

/-- A quadrant leaves its tenant under a table that waits (R357). -/
def State.departs (s : State) (ten q : Nat) : Bool :=
  match s.host.quotaNext with
  | some qt => !ownsUnder qt s.caller.slice ten q
  | none => false

/-! ### Fit (R29, R272, R273, R307) -/

def State.quadBlocks (s : State) (core quad : Nat) : List Block :=
  s.blocks.filter fun b => b.core == core && b.quad == quad

/-- Bytes of scratchpad that a quadrant owns. -/
def State.quadBytes (s : State) (core quad : Nat) : Nat := 32768 * (ownBanks (s.core core).spown quad).length

def KHeader.laneRegs (h : KHeader) : Nat := h.vgran * 8 * h.width * h.strands

/-- The lowest of the starts, multiples of `align`, at which `n` bytes meet none of the stretches and end by `limit`. -/
def firstFit (base limit n align : Nat) (used : List (Nat × Nat)) : Option Nat :=
  let starts := (roundUp base align :: used.map fun u => roundUp (u.1 + u.2) align).filter fun a =>
    decide (base ≤ a) && decide (a + n ≤ limit) && !(used.any fun u => meetRange a n u.1 u.2)
  starts.foldl (fun best a => match best with
    | some x => some (min x a)
    | none => some a) none

/-- The window of a grant on a quadrant (R273). -/
def State.windowOn (s : State) (core quad grant : Nat) : Option Nat :=
  firstFit 0 (s.quadBytes core quad) grant 1024 ((s.quadBlocks core quad).map fun b => (b.window, b.grant))

/-- The lowest free block slot of a quadrant. -/
def State.freeSlot (s : State) (core quad : Nat) : Option Nat :=
  (List.range 4).find? fun i => !(s.quadBlocks core quad).any fun b => b.slot == i

/-- A member that has ended and only keeps its place. -/
def Mode.over : Mode → Bool
  | .husk => true
  | .parting _ => true
  | _ => false

/-- The residency limits of R29, with one more block; a member that has ended holds no registers. -/
def State.withinLimits (s : State) (h : KHeader) (core quad : Nat) : Bool :=
  let bs := ((s.quadBlocks core quad).filter fun b => !b.mode.over).map (·.hdr)
  let sum := fun (f : KHeader → Nat) => bs.foldl (fun n x => n + f x) (f h)
  (s.freeSlot core quad).isSome && decide (sum (·.strands) ≤ 16) && decide (sum (fun x => x.strands * x.width) ≤ 1024) &&
  decide (sum KHeader.laneRegs ≤ 65536) && !(h.atiles != 0 && bs.any fun x => x.atiles != 0)

/-- A bank of a quadrant is still in handover (R274). -/
def State.banksWait (s : State) (core quad : Nat) : Bool :=
  (ownBanks (s.core core).spown quad).any fun b => (s.core core).zeroing.contains b

/-- A quadrant is open to new work of a tenant: owned, not leaving it, its tile in placement, its banks its own, no block
draining on it, and no other tenant's block still there. -/
def State.openQuad (s : State) (ten core quad : Nat) : Bool :=
  s.owns ten (quadId core quad) && !s.departs ten (quadId core quad) && (s.core core).tile.inPlay &&
  !s.caller.outCores.contains core && !s.banksWait core quad &&
  (s.quadBlocks core quad).all fun b => b.ten == ten && b.drain.isNone

/-- A block with a header fits on a quadrant. -/
def State.fitsOn (s : State) (ten : Nat) (h : KHeader) (q : Nat) : Bool :=
  s.openQuad ten (q / 4) (q % 4) && s.withinLimits h (q / 4) (q % 4) && (s.windowOn (q / 4) (q % 4) h.grant).isSome

/-- The fitting quadrants of a core. -/
def State.fitsOnCore (s : State) (ten : Nat) (h : KHeader) (core : Nat) : List Nat :=
  ((List.range 4).map fun j => 4 * core + j).filter (s.fitsOn ten h)

/-! ### The private pool (R286, R318) -/

/-- Stretches of a tenant's pool in use. -/
def State.poolUsed (s : State) (ten : Nat) : List (Nat × Nat) :=
  ((s.blocks.filter fun b => b.ten == ten).map fun b => (b.pb0.toNat, b.hdr.poolLen)) ++
  ((s.caller.saved.filter fun v => v.ten == ten).map fun v => (v.pb0, v.poolLen))

/-- Room for `n` further blocks: where each one's part begins. -/
def poolRoom (base size len : Nat) : Nat → List (Nat × Nat) → Option (List Nat)
  | 0, _ => some []
  | n + 1, used =>
    match firstFit base (base + size) len 65536 used with
    | none => none
    | some a => (poolRoom base size len n ((a, len) :: used)).map fun l => a :: l

def State.poolFor (s : State) (ten : Nat) (h : KHeader) (n : Nat) : Option (List Nat) :=
  match s.pool ten with
  | none => none
  | some p => poolRoom p.1 p.2 h.poolLen n (s.poolUsed ten)

/-! ### What a queue would place next (R303, R309) -/

inductive Work where
  /-- the saved blocks of one cluster, with those of it that go back to the front -/
  | restore (members : List Saved) (again : List (Nat × Bool))
  /-- blocks that go back to the front, with `true` for a re-launch -/
  | again (members : List (Nat × Bool))
  /-- the cluster at a position -/
  | fresh (z s : Nat)
deriving DecidableEq, Repr

/-- A saved cluster none of whose members is still resident, or waits for the debugger (R328). -/
def State.savedWork (s : State) (ten q : Nat) : Option (Grid × Work) :=
  s.caller.saved.findSome? fun v =>
    if v.ten == ten && v.qnum == q && !(s.blocks.any fun b => b.cluster == v.cluster) &&
        s.caller.saved.all fun w => w.cluster != v.cluster || w.debugAt.isNone then
      (s.gridOf ten q v.gseq).map fun g =>
        (g, Work.restore (s.caller.saved.filter fun w => w.cluster == v.cluster) (g.again.filter fun e => g.sameCluster v.idx e.1))
    else none

/-- Blocks that go back together, once no member of their cluster is resident; with saved members they come back when those do
(R27, R291, R309). -/
def State.againWork (s : State) (ten q : Nat) : Option (Grid × Work) :=
  (s.caller.grids.filter fun g => g.ten == ten && g.qnum == q).findSome? fun g =>
    g.again.findSome? fun e =>
      if (s.blocks.any fun b => b.ten == ten && b.qnum == q && b.gseq == g.seq && g.sameCluster b.idx e.1) ||
          s.caller.saved.any (fun v => v.ten == ten && v.qnum == q && v.gseq == g.seq && g.sameCluster v.idx e.1) then none
      else some (g, Work.again (g.again.filter fun x => g.sameCluster x.1 e.1))

/-- The next position of the grid at HEAD; an enabled queue alone starts one (R296, R298). -/
def State.freshWork (s : State) (ten q : Nat) : Option (Grid × Work) :=
  match s.gridOf ten q (s.qget ten q qHEAD) with
  | none => none
  | some g =>
    if s.qstate ten q != 1 && !s.caller.started.contains (g.ten, g.qnum, g.seq) then none
    else (g.position (s.qget ten q qNEXTZ) (s.qget ten q qNEXTBLK)).map fun p => (g, Work.fresh p.1 p.2)

/-- Saved or restarted blocks of the queue that wait for their turn: no new position comes before them (R303). -/
def State.waitsBefore (s : State) (ten q : Nat) : Bool :=
  (s.caller.saved.any fun v => v.ten == ten && v.qnum == q && v.debugAt.isNone) ||
  s.caller.grids.any fun g => g.ten == ten && g.qnum == q && !g.again.isEmpty

/-- What a queue would place next; a stopped queue goes on with the grids it has started, but restores nothing (R298). -/
def State.work (s : State) (ten q : Nat) : Option (Grid × Work) :=
  let st := s.qstate ten q
  if s.caller.stopped.contains ten || !(st == 1 || st == 2 || st == 3) || s.qcbBad ten q then none
  else
    (if st == 2 then none else s.savedWork ten q).orElse fun _ => (s.againWork ten q).orElse fun _ =>
      if s.waitsBefore ten q then none else s.freshWork ten q

/-- Blocks of a piece of work. -/
def Work.count (w : Work) (h : KHeader) : Nat :=
  match w with
  | .restore l a => l.length + a.length
  | .again l => l.length
  | .fresh _ _ => h.cluster

/-- Blocks of a piece of work that start; a saved block has its part of the pool. -/
def Work.starts (w : Work) (h : KHeader) : Nat :=
  match w with
  | .restore _ a => a.length
  | w => w.count h

def State.poolReady (s : State) (ten : Nat) (h : KHeader) (w : Work) : Bool :=
  w.starts h == 0 || (s.poolFor ten h (w.starts h)).isSome

/-! ### The choice of quadrants (R306) -/

/-- Quadrants in order after the tenant's pointer. -/
def State.turn (s : State) (ten : Nat) : List Nat :=
  let p := s.caller.rr.get 1023 ten
  (List.range 1024).map fun i => (p + 1 + i) % 1024

/-- Candidates: fitting quadrants, or for a cluster the lowest fitting quadrant of each core that fits it. -/
def State.candidates (s : State) (ten : Nat) (h : KHeader) (n : Nat) : List Nat :=
  (s.turn ten).filter fun q =>
    s.fitsOn ten h q &&
    (n == 1 || ((s.fitsOnCore ten h (q / 4)).head? == some q && decide (n ≤ (s.fitsOnCore ten h (q / 4)).length)))

/-- 4 T + SENSW V (R306). -/
def State.sensorScore (s : State) (core : Nat) : Int :=
  4 * (s.core core).temp.toInt + s.caller.cfg.sensw * (s.core core).droop.toNat

/-- The place of the lowest score, the earlier among equals. -/
def lowestAt (l : List Int) : Nat :=
  (l.foldl (fun (r : Nat × Nat × Option Int) v => match r.2.2 with
    | some b => if v < b then (r.1 + 1, r.1, some v) else (r.1 + 1, r.2)
    | none => (r.1 + 1, r.1, some v)) (0, 0, none)).2.1

/-- Sensor mode serves a queue's grid. -/
def State.sensorMode (s : State) (g : Grid) : Bool :=
  s.caller.cfg.sensor && s.qget g.ten g.qnum qQFLAGS % 2 == 1 && g.lflags.toNat / 4 % 2 == 0

/-- How far ahead of plain order the choice lies. -/
def State.ahead (s : State) (g : Grid) (cands : List Nat) : Nat :=
  if s.sensorMode g then lowestAt ((cands.take (s.caller.cfg.d + 1)).map fun q => s.sensorScore (q / 4)) else 0

/-- The quadrants for the ranks of a piece of work, from its chosen candidate (log 39, DEDUCED). -/
def State.quadsFor (s : State) (ten : Nat) (h : KHeader) (n q : Nat) : List Nat :=
  if n = 1 then [q] else (s.fitsOnCore ten h (q / 4)).take n

/-! ### A block becomes resident (R31, R286, R307, R318) -/

def roleOf (roles : W32) (sid : Nat) : Role :=
  match roles.toNat / 4 ^ sid % 4 with
  | 0 => .A
  | 1 => .V
  | 2 => .M
  | _ => .C

/-- A fragment as it is formed. -/
def Frag.fresh (lanes : Lanes) (pc : W64) : Frag :=
  { lanes := lanes, pc := pc, age := 0, stall := none, nap := none, hold := .free, pend := [] }

/-- A strand at its start: every register at its start value, d0 the argument frame. -/
def Strand.start (h : KHeader) (sid : Nat) (arg pc : W64) (cycle : Nat) : Strand :=
  let lanes := List.range h.width
  { Strand.none with
    role := roleOf h.roles sid
    lanes := lanes.map fun L => (L, Lane.start)
    disp := lanes.map fun L => (vIndex 0 L, { ptr := arg, valid := true })
    frags := [Frag.fresh (laneSet fun L => decide (L < h.width)) pc]
    last := cycle }

def Engine.start (need : Nat) : Engine :=
  { need := need, tiles := [], active := Plane.start, shadow := Plane.start, ks := [], istat := 0, rprev := 0, queue := [] }

/-- The block of an index, at its start. -/
def Grid.block (g : Grid) (uid idx cluster rank core quad slot window pb0 pasid cycle : Nat) : Block :=
  let h := g.hdr
  let pc := g.code + BitVec.ofNat 64 (g.koff + h.entry)
  { uid := uid, ten := g.ten, qnum := g.qnum, gseq := g.seq, idx := idx, bx := idx % g.gx, by_ := idx / g.gx % g.gy,
    bz := idx / (g.gx * g.gy), gx := g.gx, gy := g.gy, gz := g.gz, core := core, quad := quad, slot := slot,
    cluster := cluster, rank := rank, pasid := pasid, code := g.code, koff := g.koff, arg := g.arg, hdr := h,
    window := window, grant := h.grant, pb0 := BitVec.ofNat 64 pb0,
    trapArea := BitVec.ofNat 64 (pb0 + h.strands * roundUp (64 * h.priv * h.width) 65536),
    strands := (List.range h.strands).map fun sid => Strand.start h sid g.arg pc cycle,
    cvs := [], inner := Conv.empty, flight := [], eng := if h.atiles = 0 then none else some (Engine.start h.atiles),
    mode := .running, drain := none, fatal := none, since := cycle, cyclesBefore := 0, instrs := 0 }

/-- The reserved part of each trap area is zero (R318). -/
def State.zeroTrapAreas (s : State) (b : Block) : State :=
  (List.range b.strands.length).foldl (fun s sid => s.vaWrite b.ten (s.spasid b) (b.trapVa sid + 0x1240) (zeros 0xDC0)) s

/-- First-level TLB entries of other tenants leave a quadrant that a tenant's block comes to. -/
def MemSys.clearTlb1 (m : MemSys) (quad ten : Nat) : MemSys :=
  { m with tlb1 := m.tlb1.filter fun e => !(e.1 == quad && e.2.ten != ten) }

/-- A block comes to its quadrant; it sees what happened before its placement (R243). -/
def State.settle (s : State) (b : Block) : State :=
  { s.setMem ((s.mem.clearTlb1 b.quadId b.ten).acquire b.core) with blocks := s.blocks ++ [b] }

/-- How a placement is recorded. -/
def placeReason (aged sensor : Bool) : Nat := if aged then 2 else if sensor then 1 else 0

/-- A decision that serves a queue is noted in its QCB and logged (R305). -/
def State.serve (s : State) (d : Decision) : State := (s.qput d.ten d.q qLASTDEC s.caller.dseq.toNat).logDecision d

/-- One block placed, with its decision; the place-and-stop unit refuses what R291 does not admit. -/
def State.placeOne (s : State) (g : Grid) (idx cluster rank q pb0 reason ahead : Nat) (re : Bool) : State :=
  if !s.owns g.ten q || !s.withinLimits g.hdr (q / 4) (q % 4) then s.callerError
  else match s.freeSlot (q / 4) (q % 4), s.windowOn (q / 4) (q % 4) g.hdr.grant with
  | some slot, some window =>
    let b := g.block s.nextId idx cluster rank (q / 4) (q % 4) slot window pb0 (s.qpasid g.ten g.qnum) s.cycle
    let s := { s with nextId := s.nextId + 1 }
    let s := (s.qadd g.ten g.qnum qQPLACED 1).qadd g.ten g.qnum qLIVEBLK 1
    let s := s.serve { Decision.block (if re then kRelaunch else kPlace) reason b with ahead := ahead }
    (s.settle b).zeroTrapAreas b
  | _, _ => s.callerError

/-- The grid has its first placement. -/
def State.startGrid (s : State) (g : Grid) : State :=
  if s.caller.started.contains (g.ten, g.qnum, g.seq) then s
  else
    ((s.setCaller { s.caller with started := s.caller.started ++ [(g.ten, g.qnum, g.seq)] }).putGrid
      { g with cstart := s.cycle }).countInfl g.ten g.qnum

/-- Blocks of a cluster placed on their quadrants, rank by rank. -/
def State.placeMembers (s : State) (g : Grid) (id : Nat) (members : List (Nat × Bool)) (quads pool : List Nat) (reason ahead : Nat) :
    State :=
  (members.zip (quads.zip pool)).foldl (fun s m =>
    s.placeOne g m.1.1 id (m.1.1 % g.gx % g.hdr.cluster) m.2.1 m.2.2 reason ahead m.1.2) s

/-- The blocks of a new cluster placed. -/
def State.placeCluster (s : State) (g : Grid) (members : List (Nat × Bool)) (quads pool : List Nat) (reason ahead : Nat) :
    State :=
  let id := s.nextId
  let s := { s with nextId := id + 1 }
  let s := if g.hdr.cluster = 1 then s else s.putCluster { Cluster.none id with size := g.hdr.cluster }
  s.placeMembers g id members quads pool reason ahead

/-- NEXTBLK and NEXTZ after a position; with no further one HEAD advances (R303). -/
def State.positionOn (s : State) (g : Grid) (z p : Nat) : State :=
  match g.position z (p + 1) with
  | some (z', p') => (s.qput g.ten g.qnum qNEXTBLK p').qput g.ten g.qnum qNEXTZ z'
  | none => (s.headOn g.ten g.qnum).ring g.ten g.qnum

/-- A piece of work is placed; a saved cluster's members are restored by their own steps, which come next, on the first of the
quadrants. -/
def State.doWork (s : State) (g : Grid) (w : Work) (quads : List Nat) (reason ahead : Nat) : State :=
  match w with
  | .restore l a =>
    let s := (l.zip quads).foldl (fun s m => if m.1.ended then s else
      s.serve { Decision.grid kRestore g.ten g.qnum g.seq with
        reason := reason, blk := m.1.idx, core := m.2 / 4, quad := m.2 % 4, ahead := ahead }) s
    let s := match a, l, s.poolFor g.ten g.hdr a.length with
      | _ :: _, v :: _, some pool =>
        (s.placeMembers g v.cluster a (quads.drop l.length) pool reason ahead).putGrid
          { g with again := g.again.filter fun e => !a.contains e }
      | _, _, _ => s
    { s with agenda := (l.zip quads).map (fun m => Instr.restore m.1.key (m.2 / 4) (m.2 % 4)) ++ s.agenda }
  | .again l =>
    match s.poolFor g.ten g.hdr l.length with
    | none => s
    | some pool =>
      let left := g.again.filter fun e => !l.contains e
      (s.placeCluster g l quads pool reason ahead).putGrid { g with again := left }
  | .fresh z p =>
    match s.poolFor g.ten g.hdr g.hdr.cluster with
    | none => s
    | some pool =>
      let s := s.startGrid g
      let s := s.positionOn g z p
      s.placeCluster g ((g.clusterAt z p).map fun i => (i, false)) quads pool reason ahead

/-! ### Moving banks for a large grant (R272, R274, R307) -/

/-- Bank counts a quadrant may keep. -/
def keepCounts (n : Nat) : List Nat := [0, 4, 8, 16, 32].filter fun k => decide (k ≤ n)

/-- SPOWN with some banks given to a quadrant. -/
def giveBanks (spown : W64) (banks : List Nat) (quad : Nat) : W64 :=
  banks.foldl (fun v b => setBits64 v (2 * b) 2 quad) spown

/-- What each donor keeps, in every way that gives `need` banks in all. -/
def keepWays (need : Nat) : List Nat → List (List Nat)
  | [] => if need = 0 then [[]] else []
  | n :: rest => (keepCounts n).flatMap fun k => if n - k ≤ need then (keepWays (need - (n - k)) rest).map (k :: ·) else []

/-- A new SPOWN of a core by which its quadrant `t` owns at least `n` banks, taken from quadrants without a block (log 56, DEDUCED). -/
def State.bankPlan (s : State) (core t n : Nat) : Option W64 :=
  let sp := (s.core core).spown
  let have_ := (ownBanks sp t).length
  let donors := (List.range 4).filter fun j =>
    j != t && !s.occupied core j && decide ((ownBanks sp j).length < n)
  ([4, 8, 16, 32].filter fun k => decide (n ≤ k)).findSome? fun k =>
    ((keepWays (k - have_) (donors.map fun j => (ownBanks sp j).length)).head?).map fun keeps =>
      (donors.zip keeps).foldl (fun v d => giveBanks v ((ownBanks sp d.1).drop d.2) t) sp

/-- The SPOWN write that a piece of work waits for, if it is for want of banks alone (R307). -/
def State.bankMove (s : State) (ten : Nat) (h : KHeader) (count : Nat) : Option (Nat × W64) :=
  let n := (h.grant + 32767) / 32768
  let enough := fun (core j : Nat) => decide (h.grant ≤ s.quadBytes core j)
  let cores := (List.range Config.cores).filter fun c => (List.range 4).any fun j => s.owns ten (quadId c j)
  if cores.any fun c =>
      decide (count ≤ ((List.range 4).filter fun j => s.owns ten (quadId c j) && enough c j).length) then none
  else
    cores.findSome? fun c =>
      if (List.range 4).all fun j => s.openQuad ten c j then
        (List.range 4).findSome? fun j =>
          if s.occupied c j || enough c j then none else (s.bankPlan c j n).map fun v => (c, v)
      else none

/-! ### The choice of a queue (R304) -/

/-- A queue with work that fits. -/
structure Eligible where
  ten : Nat
  q : Nat
  grid : Grid
  work : Work
  cands : List Nat
deriving Repr

def State.allQueues (s : State) : List (Nat × Nat) :=
  (enabledTenants s.host.quota).flatMap fun t => (List.range (s.quota t).nq).map fun q => (t, q)

def State.eligible (s : State) : List Eligible :=
  s.allQueues.filterMap fun tq =>
    match s.work tq.1 tq.2 with
    | none => none
    | some (g, w) =>
      if !s.poolReady tq.1 g.hdr w then none
      else
        match s.candidates tq.1 g.hdr (w.count g.hdr) with
        | [] => none
        | cs => some { ten := tq.1, q := tq.2, grid := g, work := w, cands := cs }

/-- Effective priority. -/
def State.effPrio (s : State) (e : Eligible) : Nat := min e.grid.prio (s.qget e.ten e.q qQPRIO)

def State.isAged (s : State) (e : Eligible) : Bool := decide (64 ≤ sub32 s.caller.dseq.toNat (s.qget e.ten e.q qLASTDEC))

/-- The first of the list that no other beats. -/
def bestBy (better : Eligible → Eligible → Bool) : List Eligible → Option Eligible
  | [] => none
  | e :: rest => some (rest.foldl (fun b x => if better x b then x else b) e)

/-- The queue that is served: an aged one with the smallest LASTDEC, else one of the highest effective priority; the list
stands in the order of ties. -/
def State.chooseQueue (s : State) (es : List Eligible) : Option (Eligible × Bool) :=
  match es.filter s.isAged with
  | [] => (bestBy (fun x b => decide (s.effPrio b < s.effPrio x)) es).map fun e => (e, false)
  | aged => (bestBy (fun x b => decide (s.qget x.ten x.q qLASTDEC < s.qget b.ten b.q qLASTDEC)) aged).map fun e => (e, true)

/-- A queue with work that waits for banks. -/
def State.wantsBanks (s : State) : Option (Nat × W64) :=
  s.allQueues.findSome? fun tq =>
    match s.work tq.1 tq.2 with
    | none => none
    | some (g, w) => s.bankMove tq.1 g.hdr (w.count g.hdr)

/-- One queue served. -/
def State.serveQueue (s : State) (e : Eligible) (aged : Bool) : State :=
  let k := s.ahead e.grid e.cands
  let q := e.cands.getD k 0
  let s' := s.setCaller { s.caller with rr := s.caller.rr.set 1023 e.ten (e.cands.headD 0) }
  s'.doWork e.grid e.work (s.quadsFor e.ten e.grid.hdr (e.work.count e.grid.hdr) q)
    (placeReason aged (s.sensorMode e.grid)) k

/-- A queue with work in hand whose QCB cannot be used (R298). -/
def State.brokenQueue (s : State) : Option (Nat × Nat) :=
  (s.caller.grids.map fun g => (g.ten, g.qnum)).find? fun tq => s.qcbBad tq.1 tq.2 && !s.caller.dropped.contains tq

/-- The log has room for the records of what is chosen: a restored image that is refused may complete its grid (R311, R312, R327). -/
def State.logsWork (s : State) (e : Eligible × Bool) : Bool :=
  s.mayDecideN (match e.1.work with
    | .restore l a => 2 * l.length + a.length
    | w => w.count e.1.grid.hdr)

/-- PLACEMENT_DECISION: a queue whose QCB cannot be used stops; a rung queue is examined first; else a queue is chosen and served;
else banks are moved for one. -/
def execPlacementDecision (s : State) : Host.Outcome State Fault Refusal :=
  if !s.mayDecide then .next s
  else match s.brokenQueue with
  | some tq => .next (s.queueStop tq.1 tq.2)
  | none =>
    match s.caller.doorbells with
    | (t, q) :: rest =>
      match s.examine t q with
      | .did s' => .next s'
      | .nothing => .next (s.setCaller { s.caller with doorbells := rest })
    | [] =>
      match s.chooseQueue s.eligible with
      | some (e, aged) => .next (if s.logsWork (e, aged) then s.serveQueue e aged else s)
      | none =>
        match s.wantsBanks with
        | some (core, v) => .next { s with agenda := .spownWrite core v :: s.agenda }
        | none => .next s

end Machine
end Sys2Proof
end

