-- ==== Sys2Proof/Machine/Stop.lean ====
section
/-!
DEFINITION. How blocks end and how they are stopped (R138, R279, R294, R308, R309, R317, R322 to R326, R358): the trap ring,
save slots, the ends of blocks, the adaptive choice, the cooperative phase and the forced save.
-/
namespace Sys2Proof
open Machine

namespace Machine

/-! ### The trap ring (R317, R319, R322) -/

/-- A record goes into the tenant's trap ring with its event, or is dropped and counted in RDROP: as of a full ring, so of one that
RVA does not place (log 97, DESIGN CHOICE). -/
def State.trapAppend (s : State) (ten : Nat) (r : TrapRec) : State :=
  let base := s.trapDesc ten 0x10 8
  let log := s.trapDesc ten 0x0A 1
  let head := s.trapDesc ten 0x18 4
  if base = 0 ∨ 2 ^ 56 ≤ base ∨ 2 ^ log ≤ sub32 head (s.trapDesc ten 0x1C 4) then
    s.setTrapDesc ten 0x20 4 (s.trapDesc ten 0x20 4 + 1)
  else
    ((s.vaWrite ten (s.quota ten).spasid (base + 64 * (head % 2 ^ log)) r.bytes).setTrapDesc ten 0x18 4 (head + 1)).raiseEvent
      ten (s.trapDesc ten 0x0C 2)

/-- TINFO of a cause other than ILLEGAL. -/
def infoOf (addr : Nat) (code : Nat) : InstrWord := BitVec.ofNat 128 (addr % 2 ^ 64 + code % 2 ^ 32 * 2 ^ 64)

/-- A record about a block as a whole: what the spec does not state of it are free values (log 48, DESIGN CHOICE). -/
def State.blockRecord (s : State) (b : Block) (cause : Cause) (info : InstrWord) : TrapRec :=
  let w := fun (i : Nat) => Config.freeWord (s.fresh + i)
  { cause := cause, tpc := w 0, engine := false, step := false, debug := false, fatal := false, rpc := w 1, info := info,
    tlanes := w 2, tfrag := w 3, tsibs := w 4, tblk := BitVec.ofNat 32 b.idx, tstrand := (w 5).toNat % 16, tquad := b.quad,
    tten := b.ten, tcore := b.core }

/-- Free values drawn for one record. -/
def State.drawn (s : State) : State := { s with fresh := s.fresh + 8 }

/-! ### Save slots (R296, R298) -/

abbrev noSlot : Nat := 0xFFFFFFFF

/-- The VA of a save slot; `none` where the pool has no valid base. -/
def State.slotVa (s : State) (ten q i : Nat) : Option Nat :=
  (va0 (s.qget ten q qSAVEVA)).map fun va => va + i * (s.qget ten q qSLOTKB * 1024)

/-- What the list of free slots gives: how many of `n` there are, or an error of the pool. -/
def State.walkSlots (s : State) (ten q : Nat) : Nat → Nat → Option Nat
  | 0, _ => some 0
  | n + 1, i =>
    if i = noSlot then some 0
    else if s.qget ten q qNSLOT ≤ i then none
    else
      match (s.slotVa ten q i).bind fun va => s.vaTakeNum ten (s.quota ten).spasid va 4 with
      | none => none
      | some next => (s.walkSlots ten q n next).map (· + 1)

/-- Whether `n` slots are free; an error stops the queue. -/
def State.slotsFree (s : State) (ten q n : Nat) : State × Bool :=
  if s.qcbBad ten q then (s.queueStop ten q, false)
  else if s.qget ten q qNSLOT = 0 ∨ s.qget ten q qSLOTKB = 0 then (s, false)
  else
    match s.walkSlots ten q n (s.qget ten q qSLOTMAP) with
    | some k => (s, decide (n ≤ k))
    | none => (s.queueStop ten q, false)

/-- The first free slot is taken. -/
def State.takeSlot (s : State) (ten q : Nat) : State × Nat :=
  let i := s.qget ten q qSLOTMAP
  let next := ((s.slotVa ten q i).bind fun va => s.vaTakeNum ten (s.quota ten).spasid va 4).getD noSlot
  (s.qput ten q qSLOTMAP next, i)

/-- A slot returns to the list. -/
def State.freeSave (s : State) (ten q i : Nat) : State :=
  match s.slotVa ten q i with
  | none => s.queueStop ten q
  | some va =>
    if !s.vaWritable ten (s.quota ten).spasid va 4 then s.queueStop ten q
    else (s.vaWrite ten (s.quota ten).spasid va (leBytes 4 (s.qget ten q qSLOTMAP))).qput ten q qSLOTMAP i

/-- The slots that a block holds in what it is doing. -/
def Mode.slots : Mode → List Nat
  | .preempt a b _ => [a, b]
  | .coop a b _ _ => [a, b]
  | .saving a (some b) _ => [a, b]
  | .saving a none _ => [a]
  | .debug a => [a]
  | .stepping _ _ a _ _ _ => [a]
  | .parting a => [a]
  | _ => []

/-- A block gives its slots back. -/
def State.freeSlots (s : State) (b : Block) : State := b.mode.slots.foldl (fun s i => s.freeSave b.ten b.qnum i) s

/-! ### Rest -/

/-- No fixed-latency write is outstanding. -/
def Block.written (b : Block) : Bool := b.strands.all fun st => st.pendw.isEmpty

/-- Operations in flight other than copies. -/
def Op.isCopy (o : Op) : Bool :=
  match o.kind with
  | .copy _ => true
  | _ => false

/-- Every operation of the block has completed and every store been performed at .sys (R322). -/
def State.allDone (s : State) (b : Block) : Bool :=
  b.written && b.work.isEmpty && b.engine.queue.isEmpty && !s.ownershipPending b

/-- No emulation is under way. -/
def Block.noEmul (b : Block) : Bool := b.strands.all fun st => st.frags.all fun f => match f.hold with
  | .emul _ => false
  | _ => true

def Block.noPending (b : Block) : Bool := b.strands.all fun st => st.frags.all fun f => f.pend.isEmpty

/-- The engine is empty, or stands between two iterations of a MITER (R231, R325). -/
def Block.engineRests (b : Block) : Bool :=
  match b.engine.queue with
  | [] => true
  | [o] => o.started && o.miter?.isSome
  | _ => false

/-- Everything outstanding has completed, but for copies and a MITER (R325). -/
def State.atRest (s : State) (b : Block) : Bool :=
  b.fatal.isNone && b.written && b.work.all Op.isCopy && b.engineRests && b.noEmul && b.noPending && !s.ownershipPending b

/-! ### A block leaves its quadrant -/

/-- Every lane ends. -/
def Block.kill (b : Block) : Block :=
  { b with strands := b.strands.map fun st =>
      { st with lanes := st.lanes.map (fun kv => (kv.1, { kv.2 with live := false })), frags := [], pendw := [], fetched := [] } }

/-- Every lane ends, and the cluster's generation may close without them (R51). -/
def State.endBlock (s : State) (uid : Nat) (m : Mode) : State :=
  (s.updBlock uid fun b => { b.kill with mode := m }).clusterClose uid

/-- A fused L1 writes back its dirty words and holds no line (R279). -/
def MemSys.flushL1 (m : MemSys) (quad : Nat) : MemSys :=
  ((m.l1.filter fun l => l.quad == quad).map (·.line)).foldl (fun m line => m.l1Evict quad line) m

/-- A block of a fused cluster (R279). -/
def Block.fused (b : Block) : Bool := b.hdr.fuse && decide (2 ≤ b.hdr.cluster)

/-- Members of the block's cluster that are still there, other than those that only keep their place. -/
def State.matesLeft (s : State) (b : Block) : Bool := (s.clusterBlocks b).any fun x => x.uid != b.uid && x.mode != .husk

/-- A member that leaves before its cluster keeps its place: every one of a fused cluster, whose L1s are one (R279), and a rank 0 that
has ended, whose window holds the cluster frame (R208). -/
def State.keepsPlace (s : State) (b : Block) : Bool :=
  s.matesLeft b && (b.fused || (b.rank == 0 && b.mode == .ended))

/-- The cluster notes what a member has issued that leaves at its end (R308). -/
def State.noteEnd (s : State) (b : Block) : State :=
  { s with clusters := s.clusters.map fun c =>
      if c.id == b.cluster && b.mode == .ended then { c with instrs := c.instrs + b.instrs } else c }

/-- The block is no longer resident.  With the last member the whole cluster goes: its fused L1 writes back every dirty word and holds
no line (R279), and the cluster is forgotten when no member is saved either. -/
def State.removeBlock (s : State) (b : Block) : State :=
  let s := s.setMem (s.mem.unlock b.uid)
  if s.keepsPlace b then s.updBlock b.uid fun x => { x with mode := .husk }
  else
    let s := s.noteEnd b
    let going := if s.matesLeft b then [b] else s.clusterBlocks b
    let m := if b.fused then going.foldl (fun m x => m.flushL1 x.quadId) s.mem else s.mem
    let left := s.blocks.filter fun x => !going.any fun y => y.uid == x.uid
    let kept := left.any (fun x => x.cluster == b.cluster) || s.caller.saved.any fun v => v.cluster == b.cluster
    { s.setMem m with
      blocks := left
      clusters := if kept then s.clusters else s.clusters.filter fun c => c.id != b.cluster }

/-- The resident block in a slot of a quadrant. -/
def State.blockIn (s : State) (core quad slot : Nat) : Option Block :=
  s.blocks.find? fun b => b.core == core && b.quad == quad && b.slot == slot

/-- Blocks of a grid. -/
def Grid.total (g : Grid) : Nat := g.gx * g.gy * g.gz

/-- A block of a grid has ended, with a status where it is not DONE; the last one completes the grid. -/
def State.countEnd (s : State) (ten q seq status : Nat) : State :=
  match s.gridOf ten q seq with
  | none => s
  | some g =>
    -- LOST is the grid's status whatever ended before (R309)
    let g := { g with ended := g.ended + 1, status := if g.status = stDone ∨ status = stLost then status else g.status }
    if g.ended = g.total then (s.putGrid g).completeGrid g.ends else s.putGrid g

/-! ### BLOCK_END, CS_BLKEND (R138, R310) -/

/-- Every strand has ended. -/
def Block.over (b : Block) : Bool := b.strands.all fun st => st.live == 0

/-- No strand of the block stands saved by SVDONE. -/
def Block.noMark (b : Block) : Bool := b.strands.all fun st => st.svdone.isNone

/-- A mode in which a block whose strands have all ended is over. -/
def Mode.canEnd : Mode → Bool
  | .running | .draining .. | .coop .. | .saving .. | .preempt .. | .breakpoint _ => true
  | _ => false

/-- BLOCK_END: with every strand ended and every operation complete, the caller is told; a stop under way leaves no image. -/
def execBlockEnd (uid : Nat) (s : State) : Host.Outcome State Fault Refusal :=
  match s.block uid with
  | none => .next s
  | some b =>
    if b.fatal.isNone && b.mode.canEnd && b.over && b.noMark && s.allDone b then
      .next (((s.freeSlots b).endBlock uid .ended).notify (.csBlkend b.core b.quad b.slot))
    else .next s

/-- CS_BLKEND: LIVEBLK, the grid's bookkeeping, and the grid's completion with its last block, once a decision may be taken. -/
def execCsBlkend (core quad slot : Nat) (s : State) : Host.Outcome State Fault Refusal :=
  match s.blockIn core quad slot with
  | none => .next s
  | some b =>
    match b.mode with
    | .ended =>
      if !s.mayDecide then .next s else
      let s := (s.qsub b.ten b.qnum qLIVEBLK).removeBlock b
      .next (s.countEnd b.ten b.qnum b.gseq (if b.fatal.isSome then stFault else stDone))
    | _ => .next s

/-! ### FATAL_TRAP (R322) -/

/-- A mode in which a block is still to be ended. -/
def Mode.killable : Mode → Bool
  | .ended => false
  | .lost _ => false
  | .leaving _ => false
  | .husk => false
  | .parting _ => false
  | _ => true

/-- The block ends once its operations, copies included, have completed; the record goes into the trap ring. -/
def execFatalTrap (uid : Nat) (s : State) : Host.Outcome State Fault Refusal :=
  match s.block uid with
  | none => .next s
  | some b =>
    match b.fatal with
    | none => .next s
    | some r =>
      if !b.mode.killable || !s.allDone b then .next s
      else
        let s := (s.freeSlots b).endBlock uid .ended
        let s := s.setCaller { s.caller with debugs := s.caller.debugs.filter fun v => v.key != uid }
        .next ((if r.fatal then s.trapAppend b.ten r else s).notify (.csBlkend b.core b.quad b.slot))

/-! ### Losses (R309, R314, R348) -/

/-- A block is reported LOST: a save under way is abandoned. -/
def State.lose (s : State) (b : Block) (reason : Nat) : State :=
  ((s.freeSlots b).endBlock b.uid (.lost reason)).notify (.csLost b.core b.quad b.slot)

/-- What is kept of a block beside its image. -/
def Block.savedAs (b : Block) (slot : Nat) (first : Option Nat) (cycle : Nat) : Saved :=
  { key := b.uid, ten := b.ten, qnum := b.qnum, gseq := b.gseq, idx := b.idx, slot := slot, first := first,
    cycles := b.cyclesBefore + (cycle - b.since), cluster := b.cluster, pb0 := b.pb0.toNat, poolLen := b.hdr.poolLen,
    marks := (b.strands.mapIdx fun sid st => (sid, st)).filterMap fun p => p.2.svdone.map fun m => (p.1, m.1, m.2),
    caps := (b.cvs.filterMap fun kv => kv.2.cap.map fun c => (kv.1, c)) ++
      (match b.inner.cap with
        | some c => [(8, c)]
        | none => []),
    miter := (b.engine.queue.head?).bind fun o => if o.miter?.isSome then some o else none,
    copies := b.copies.map fun oc => (oc.2.group, oc.1.lanes, oc.1.pc)
    ended := b.strands.all fun st => st.live == 0 && st.svdone.isNone, debugAt := none }

/-- A debug image is no longer kept. -/
def State.dropDebug (s : State) (key : Nat) : State :=
  s.setCaller { s.caller with debugs := s.caller.debugs.filter fun v => v.key != key }

/-- A block on a core that sits out: a resident one is LOST, debug-stopped or not (R348). -/
def State.sitOutBlock (s : State) (b : Block) : State :=
  if b.mode.killable then (s.lose b 4).dropDebug b.uid
  else match b.mode with
    | .parting _ => (s.freeSlots b).updBlock b.uid fun x => { x with mode := .husk }
    | _ => s

/-- CS_SITOUT: the core's quadrants leave placement, and its blocks are LOST; not before every slice has taken the notice, behind the
core's last requests (R347). -/
def execCsSitout (core : Nat) (s : State) : Host.Outcome State Fault Refusal :=
  if s.fab.notices.any fun n => n.2 == core then .next (s.notify (.csSitout core)) else
  let s := s.setCaller { s.caller with outCores := s.caller.outCores.filter (· != core) ++ [core] }
  .next ((s.blocks.filter fun b => b.core == core).foldl (fun s b => s.sitOutBlock b) s)

/-- The FATAL record of a LOST block (R316, R322). -/
def lostRecord (b : Block) : TrapRec :=
  { cause := .lost, tpc := 0, engine := false, step := false, debug := false, fatal := true, rpc := 0,
    info := infoOf 0 b.core, tlanes := 0, tfrag := 0, tsibs := 0, tblk := BitVec.ofNat 32 b.idx, tstrand := 0,
    tquad := b.quad, tten := b.ten, tcore := b.core }

/-- An index goes back to the front of its queue. -/
def State.goBack (s : State) (b : Block) (relaunch : Bool) : State :=
  match s.gridOf b.ten b.qnum b.gseq with
  | none => s
  | some g => s.putGrid { g with again := (b.idx, relaunch) :: g.again, clost := if relaunch then g.clost + 1 else g.clost }

/-- CS_LOST: the record, the decision, and a re-launch or the grid's LOST, once a decision may be taken. -/
def execCsLost (core quad slot : Nat) (s : State) : Host.Outcome State Fault Refusal :=
  match s.blockIn core quad slot with
  | none => .next s
  | some b =>
    match b.mode with
    | .lost reason =>
      -- with LOST comes COMPLETE when it is the grid's last block (R312)
      if !s.mayDecideN 2 then .next s else
      let s := s.trapAppend b.ten (lostRecord b)
      let s := (s.qadd b.ten b.qnum qQLOST 1).qsub b.ten b.qnum qLIVEBLK
      let s := (s.logDecision (Decision.block kLost reason b)).removeBlock b
      .next (if b.hdr.idem then s.goBack b true else s.countEnd b.ten b.qnum b.gseq stLost)
    | _ => .next s

/-- CS_SAVED: the quadrant is free again. -/
def execCsSaved (core quad slot kind : Nat) (s : State) : Host.Outcome State Fault Refusal :=
  match s.blockIn core quad slot with
  | none => .next s
  | some b => if b.mode = .leaving kind then .next (s.removeBlock b) else .next s

/-! ### The adaptive choice (R308) -/

/-- What the choice reads of a block, or of a whole cluster: I, C, E. -/
structure Progress where
  i : Nat
  c : Nat
  e : Nat
deriving DecidableEq, Repr

def State.progress (s : State) (b : Block) : Progress :=
  let bs := s.clusterBlocks b
  { i := bs.foldl (fun n x => n + x.instrs) (s.cluster b.cluster).instrs
    c := bs.foldl (fun n x => max n (x.cyclesBefore + (s.cycle - x.since))) 0
    e := 65536 * b.hdr.weight * max b.hdr.cluster 1 }

/-- Rc is at most 256 times a bound: exactly (E - I) C <= 256 D I. -/
def Progress.within (p : Progress) (d : Nat) : Bool :=
  p.e != 0 && (decide (p.e ≤ p.i) || (p.i != 0 && decide ((p.e - p.i) * p.c ≤ 256 * d * p.i)))

/-- pi is below R / 256. -/
def Progress.below (p : Progress) (r : Nat) : Bool := p.e != 0 && decide (256 * p.i < r * p.e)

/-- DPROG and DEST. -/
def Progress.prog (p : Progress) : Nat := if p.e = 0 then 0 else min (256 * p.i / p.e) 255
def Progress.est (p : Progress) : Nat :=
  if p.e = 0 then noSlot
  else if p.e ≤ p.i then 0
  else if p.i = 0 then noSlot
  else min ((p.e - p.i) * p.c / (256 * p.i)) noSlot

/-- A decision about a block with its progress. -/
def State.logStop (s : State) (kind reason : Nat) (p : Progress) (b : Block) : State :=
  s.logDecision { Decision.block kind reason b with prog := p.prog, est := p.est }

/-- A debug-stopped block leaves its quadrant: its debug image becomes its save image, and RESUME its restore (R328). -/
def State.keepDebug (s : State) (b : Block) (slot reason : Nat) (p : Progress) : State :=
  let kept := (s.caller.debugs.find? fun v => v.key == b.uid).getD (b.savedAs slot none s.cycle)
  let s := (s.qadd b.ten b.qnum qQSAVE 1).logStop kSave reason p b
  let s := s.setCaller { s.caller with
    debugs := s.caller.debugs.filter fun v => v.key != b.uid
    saved := s.caller.saved ++ [{ kept with debugAt := some (b.core, b.quad, b.slot) }] }
  (s.updBlock b.uid fun x => { x with mode := .leaving 2 }).notify (.csSaved b.core b.quad b.slot 2)

/-- Slots that a save of a block takes. -/
def slotsOf (b : Block) : Nat := if b.hdr.saveoff = 0 then 1 else 2

/-- A block drains. -/
def State.drainBlock (s : State) (reason : Nat) (p : Progress) (b : Block) : State :=
  ((s.qadd b.ten b.qnum qQDRAIN 1).logStop kDrain reason p b).updBlock b.uid fun x =>
    { x with mode := .draining s.cycle reason, drain := some (s.cycle, reason) }

/-- A block is restarted: its state is discarded, and its index goes back to the front. -/
def State.restartBlock (s : State) (reason : Nat) (p : Progress) (b : Block) : State :=
  let s := (s.qadd b.ten b.qnum qQRESTART 1).qsub b.ten b.qnum qLIVEBLK
  let s := (s.logStop kRestart reason p b).goBack b false
  let s := s.setMem (s.mem.unlock b.uid)
  (s.updBlock b.uid fun x =>
    { x.kill with mode := .leaving 3, flight := [], eng := x.eng.map fun e => { e with queue := [] } }).notify
    (.csSaved b.core b.quad b.slot 3)

/-- A block is to be saved: its slots are taken. -/
def State.saveBlock (s : State) (reason : Nat) (p : Progress) (b : Block) : State :=
  let a := s.takeSlot b.ten b.qnum
  let r : State × Mode := if b.hdr.saveoff = 0 then (a.1, .saving a.2 none reason)
    else
      let c := a.1.takeSlot b.ten b.qnum
      (c.1, .preempt a.2 c.2 reason)
  ((r.1.qadd b.ten b.qnum qQSAVE 1).logStop kSave reason p b).updBlock b.uid fun x => { x with mode := r.2 }

/-- Indexes of a cluster whose blocks have ended and left. -/
def State.endedMates (s : State) (b : Block) : List Nat :=
  ((List.range b.hdr.cluster).map fun r => b.idx - b.rank + r).filter fun i =>
    !(s.clusterBlocks b).any fun x => x.idx == i

/-- A block that had ended is to run again with its cluster (R308): its grid counts it no longer. -/
def State.runAgain (s : State) (b : Block) (idx : Nat) : State :=
  match s.gridOf b.ten b.qnum b.gseq with
  | none => s
  | some g => s.putGrid { g with again := (idx, false) :: g.again, ended := g.ended - 1 }

/-- A cluster is restarted whole (R308). -/
def State.restartAll (s : State) (reason : Nat) (p : Progress) (b : Block) (bs : List Block) : State :=
  let gone := s.endedMates b
  let s := bs.foldl (fun s x =>
    if x.mode.over then s.runAgain b x.idx
    else ((s.freeSlots x).restartBlock reason p x).dropDebug x.uid) s
  gone.foldl (fun s i => s.runAgain b i) s

/-- Blocks that still run, of a block's cluster. -/
def State.runningMates (s : State) (b : Block) : List Block :=
  (s.clusterBlocks b).filter fun x => x.mode == .running && x.fatal.isNone && !x.over

/-- A member stands where no choice can be made yet: in the debugger's hands or in a cooperative phase. -/
def Mode.undecided : Mode → Bool
  | .breakpoint _ | .stepping .. | .coop .. | .preempt .. | .saving .. | .parting _ => true
  | _ => false

/-- A stop of a block can be decided: no member of its cluster stands where it cannot. -/
def State.stopReady (s : State) (uid : Nat) : Bool :=
  match s.block uid with
  | none => true
  | some b => !(s.clusterBlocks b).any fun x => x.mode.undecided

/-- Blocks to be stopped for a reason. -/
def State.askStop (s : State) (bs : List Block) (reason : Nat) : State :=
  s.setCaller { s.caller with stops := s.caller.stops ++ bs.map fun b => (b.uid, reason) }

/-! ### The cooperative phase (R323, R324) -/

/-- Everything outstanding has completed but for copies and MITER, which run on. -/
def Block.coopRests (b : Block) : Bool :=
  b.fatal.isNone && b.work.all Op.isCopy && (b.engine.queue.all fun o => o.miter?.isSome) && b.noEmul && b.noPending

/-- A lane's entry of the PC table. -/
def State.pcEntry (s : State) (b : Block) (sid L : Nat) : Nat :=
  let st := b.strand sid
  match st.fragOf L with
  | none => 0
  | some f =>
    f.pc.toNat % 2 ^ 56 / 16 * 16 + b2n ((st.lane L).traprec != 0) + 2 * b2n (f.hold.keeps || s.waitsAtIssue b sid f)

/-- The PREEMPT record of a strand. -/
def State.preemptRecord (s : State) (b : Block) (sid slotBase : Nat) : TrapRec :=
  let live := (b.strand sid).live
  { cause := .preempt, tpc := BitVec.ofNat 64 (s.pcEntry b sid (lowest live)), engine := false, step := false,
    debug := false, fatal := false, rpc := 0, info := infoOf (slotBase + 0x200) b.hdr.savebud, tlanes := live,
    tfrag := live, tsibs := 0, tblk := BitVec.ofNat 32 b.idx, tstrand := sid, tquad := b.quad, tten := b.ten,
    tcore := b.core }

/-- The tokens of waits that are given up: a signature's stands (R386). -/
def Strand.dropWaits (st : Strand) : Strand :=
  st.frags.foldl (fun st f => match f.hold with
    | .barwait .. | .stgwait .. | .fence .. => (st.giveUp f).updFrag f.lanes fun g => { g with hold := .free }
    | _ => st) st

/-- One strand goes to the handler. -/
def State.preemptStrand (s : State) (b : Block) (slotBase sid : Nat) : State :=
  let st := b.strand sid
  let sp := s.spasid b
  let va := b.trapVa sid
  -- the entries of lanes that are not live are 0, in a strand that has ended too
  let s := (List.range b.width).foldl (fun s L => s.vaWrite b.ten sp (va + 0x1040 + 8 * L) (leBytes 8 (s.pcEntry b sid L))) s
  if st.live = 0 then s
  else
    let s := s.vaWrite b.ten sp (va + 0x1000) (s.preemptRecord b sid slotBase).bytes
    s.updStrand b.uid sid fun st =>
      let st := st.dropWaits.updLanes st.live fun _ l => { l with traprec := BitVec.ofNat 64 (va + 0x1000) }
      { st with frags := [Frag.fresh st.live (b.code + BitVec.ofNat 64 (b.koff + b.hdr.saveoff))] }

/-- COOPERATIVE_SAVE: every strand is redirected to the handler, and the budget runs. -/
def State.openPhase (s : State) (b : Block) (slot second reason : Nat) : State :=
  match s.slotVa b.ten b.qnum slot with
  | none => (s.queueStop b.ten b.qnum).lose b 5
  | some base =>
    ((List.range b.strands.length).foldl (fun s sid => s.preemptStrand b base sid) s).updBlock b.uid fun x =>
      { x with mode := .coop slot second (some (s.cycle + b.hdr.savebud)) reason }

/-- Blocks of a cluster that drain, those in the debugger's hands among them. -/
def State.drainingMates (s : State) (b : Block) : List Block :=
  (s.clusterBlocks b).filter fun x => x.drain.isSome && x.fatal.isNone && !x.over

/-- Every strand has executed SVDONE, or ended, and one at least has. -/
def Block.allMarked (b : Block) : Bool := (b.strands.all fun st => st.svdone.isSome || st.live == 0) && !b.noMark

/-- With every strand marked, the copies complete and a MITER stops at an iteration boundary (R324). -/
def State.phaseRests (s : State) (b : Block) : Bool :=
  b.fatal.isNone && b.written && b.work.isEmpty && (b.engine.queue.all fun o => o.miter?.isSome) && !s.ownershipPending b

/-- The cooperative table (R324). -/
def Block.coopTable (b : Block) : List Byte :=
  (List.range 16).flatMap fun sid => match (b.strand sid).svdone with
    | some (label, m) => leBytes 8 label.toNat ++ leBytes 8 m.toNat
    | none => zeros 16

/-- Bytes written to a save slot; `none` where it cannot be written. -/
def State.writeSlot (s : State) (b : Block) (slot off : Nat) (bs : List Byte) : Option State :=
  match s.slotVa b.ten b.qnum slot with
  | none => none
  | some va =>
    if s.vaWritable b.ten (s.spasid b) (va + off) bs.length then some (s.vaWrite b.ten (s.spasid b) (va + off) bs) else none

/-- A strand as a restore leaves it behind SVDONE: its marked lanes at the label, every register at its start value but s0
(R234). -/
def labelStrand (b : Block) (sid : Nat) (mark : Option (W64 × Lanes)) (base cycle : Nat) : Strand :=
  match mark with
  | none => { Strand.none with role := roleOf b.hdr.roles sid, last := cycle }
  | some (label, m) =>
    let st := Strand.start b.hdr sid b.arg label cycle
    { st.setUreg 0 (BitVec.ofNat 64 (base + 0x200)) with
      lanes := (lanesOf m).map fun L => (L, Lane.start)
      frags := if m = 0 then [] else [Frag.fresh m label] }

/-- A block at its labels, with everything else at its start (R234). -/
def labelBlock (b : Block) (marks : Nat → Option (W64 × Lanes)) (base cycle : Nat) : Block :=
  { b with
    strands := (List.range b.strands.length).map fun sid => labelStrand b sid (marks sid) base cycle
    cvs := [], inner := Conv.empty, flight := []
    eng := if b.hdr.atiles = 0 then none else some (Engine.start b.hdr.atiles), mode := .running }

/-- The block's window holds zeros. -/
def State.clearWindow (s : State) (b : Block) : State := s.zeroWindow b 0 b.grant

/-- COOPERATIVE_SAVE_CLOSE: the first slot receives the header and the table, and the second is freed; a phase that a restore
left open goes on at the labels where it stands. -/
def State.closePhase (s : State) (b : Block) (slot second : Nat) (open_ : Bool) : State :=
  let head := sealHead (s.imageHead b 1 0 0) ++ b.coopTable
  match s.writeSlot b slot 0 head with
  | none => (s.queueStop b.ten b.qnum).lose b 5
  | some s' =>
    let s' := s'.freeSave b.ten b.qnum second
    if open_ then
      let base := (s.slotVa b.ten b.qnum slot).getD 0
      let s' := (s'.setMem (s'.mem.acquire b.core)).freeSave b.ten b.qnum slot
      (s'.clearWindow b).updBlock b.uid fun x => labelBlock x (fun sid => (b.strand sid).svdone) base s.cycle
    else
      let v := { b.savedAs slot none s.cycle with caps := [], miter := none, copies := [] }
      ((s'.setCaller { s'.caller with saved := s'.caller.saved ++ [v] }).updBlock b.uid fun x =>
        { x with mode := .leaving 1 }).notify (.csSaved b.core b.quad b.slot 1)

/-- SAVE_BUDGET_EXPIRY: the phase closes once every strand has executed SVDONE; when the budget has run out before, or on
SVDONE.force, FORCED is logged and the forced save follows (R324). -/
def execSaveBudgetExpiry (uid : Nat) (s : State) : Host.Outcome State Fault Refusal :=
  match s.block uid with
  | none => .next s
  | some b =>
    match b.mode with
    | .coop slot second deadline reason =>
      if b.allMarked then
        if s.phaseRests b then .next (s.closePhase b slot second deadline.isNone) else .next s
      else
        match deadline with
        | some d =>
          if d ≤ s.cycle ∧ s.mayForce then
            .next ((s.logDecision (Decision.block kForced reason b)).updBlock uid fun x => { x with mode := x.mode.force })
          else .next s
        | none => .next s
    | _ => .next s

/-! ### The forced save (R325) -/

/-- The places of a block's window. -/
def State.windowLocs (s : State) (b : Block) : List Loc := (List.range b.grant).filterMap fun i => s.scratchLoc b i

/-- A save reads the block's state and window: errors are corrected or marked, and counted (R269, R271, R275). -/
def State.saveScan (s : State) (b : Block) : State :=
  if s.mem.errs.isEmpty then s
  else
    let s := s.corrected b.core b.quad (blockErr b.uid)
    let bad := s.mem.errs.filter fun e => !e.2 && blockErr b.uid e.1
    (s.setMem (s.mem.countErrs b.quadId 1 bad.length)).scanHome (s.windowLocs b)

/-- An uncorrectable error in the state that an image takes. -/
def State.stateBad (s : State) (b : Block) : Bool :=
  (s.mem.errs.any fun e => !e.2 && blockErr b.uid e.1) || s.mem.anyPoison (s.windowLocs b)

/-- The tiles verify (R221). -/
def Block.tilesOk (b : Block) : Bool := (List.range b.engine.need).all fun t => (b.engine.tile t).verify

/-- FLAGS of an image. -/
def Block.imageFlags (b : Block) (first : Option Nat) : Nat := b2n (!b.engine.queue.isEmpty) + 2 * b2n first.isSome

/-- A strand as its image records it: the tokens of waits are given up, and BARWAIT and STGWAIT stay HELD (R386). -/
def Strand.recorded (st : Strand) : Strand :=
  { st.dropWaits with frags := st.frags.map fun f => match f.hold with
      | .fence .. => { f with hold := .free }
      | _ => f }

/-- The image is written, whole, the header with it; or the save is abandoned. -/
def State.saveImage (s : State) (b : Block) (kind slot : Nat) (first : Option Nat) : Except State (State × Block) :=
  let shown := fun (x : Block) => { x with strands := b.strands.map Strand.recorded }
  let s := s.updBlock b.uid fun x => { x with strands := x.strands.map Strand.dropWaits }
  match s.block b.uid with
  | none => .error s
  | some b =>
    let s := s.saveScan b
    if !b.tilesOk || s.stateBad b then .error (s.lose b 5)
    else
      let coop := match first.bind fun f => s.slotVa b.ten b.qnum f with
        | some va => BitVec.ofNat 64 va
        | none => 0
      match s.writeSlot b slot 0 (s.image (shown b) kind (b.imageFlags first) coop) with
      | none => .error ((s.queueStop b.ten b.qnum).lose b 5)
      | some s => .ok (s, b)

/-- The forced save of a block that is to leave. -/
def State.forceOut (s : State) (b : Block) (slot : Nat) (first : Option Nat) : State :=
  match s.saveImage b 0 slot first with
  | .error s => s
  | .ok (s, b) =>
    let s := s.setCaller { s.caller with saved := s.caller.saved ++ [b.savedAs slot first s.cycle] }
    (s.updBlock b.uid fun x => { x with mode := .leaving 0 }).notify (.csSaved b.core b.quad b.slot 0)

/-- A member that has ended is to be saved with its cluster, for its window and its place (R208, R308). -/
def State.saveHusk (s : State) (b : Block) : State :=
  let a := s.takeSlot b.ten b.qnum
  a.1.updBlock b.uid fun x => { x with mode := .parting a.2 }

/-- Mates that still use the window of a member that has ended: their handlers run, or their saves are to come (R208, R324). -/
def State.matesBusy (s : State) (b : Block) : Bool :=
  (s.clusterBlocks b).any fun x => x.uid != b.uid && (match x.mode with
    | .running | .draining .. | .coop .. | .preempt .. | .saving .. | .breakpoint _ | .stepping .. => true
    | _ => false)

/-- The debug save of a block, which stays, with the record of the stop (R328, R329): that of the BKPT or of the STEP, or after STOP
one that names no fragment. -/
def State.debugSave (s : State) (b : Block) (slot : Nat) (rec : Option TrapRec) (held : Bool) : State :=
  match s.saveImage b 2 slot none with
  | .error s => s
  | .ok (s, b) =>
    let va := (s.slotVa b.ten b.qnum slot).getD 0
    let info := infoOf va (slot % 2 ^ 31 + b2n held * 2 ^ 31)
    let r := match rec with
      | some r => { r with debug := true, info := info }
      | none => { s.blockRecord b .bkpt info with debug := true }
    let v := b.savedAs slot none s.cycle
    let s := s.setCaller { s.caller with debugs := s.caller.debugs.filter (fun w => w.key != b.uid) ++ [v] }
    ((s.updBlock b.uid fun x => { x with mode := .debug slot }).trapAppend b.ten r).drawn

/-- The stepped fragment holds: it was not ready, or it waits at its instruction. -/
def Block.stepHeld (b : Block) (sid lane : Nat) (held : Bool) : Bool :=
  held || (match (b.strand sid).fragOf lane with
    | some f => f.hold.keeps
    | none => false)

/-- FORCED_SAVE: of a block to be saved, or stopped for the debugger, once all but copies and a MITER has completed. -/
def execForcedSave (uid : Nat) (s : State) : Host.Outcome State Fault Refusal :=
  match s.block uid with
  | none => .next s
  | some b =>
    if !s.atRest b && !b.mode.over then .next s
    else
      match b.mode with
      | .saving slot first _ => .next (s.forceOut b slot first)
      | .breakpoint rec =>
        let f := s.slotsFree b.ten b.qnum 1
        if f.2 then
          let t := f.1.takeSlot b.ten b.qnum
          -- the slot is the block's from now on, so that an abandoned save gives it back (R296)
          .next ((t.1.updBlock uid fun x => { x with mode := .debug t.2 }).debugSave b t.2 rec false)
        else .next f.1
      | .stepping sid lane slot rec true held => .next (s.debugSave b slot (some rec) (b.stepHeld sid lane held))
      | .parting slot => if s.matesBusy b then .next s else .next (s.forceOut b slot none)
      | _ => .next s

/-! ### The decision to stop (R27, R308) -/

/-- What a drain or a save makes of a member: a debug-stopped one keeps its debug image (R328). -/
def State.stopMember (s : State) (reason : Nat) (p : Progress) (save : Bool) (b : Block) : State :=
  match b.mode with
  | .debug slot => s.keepDebug b slot reason p
  | .husk => if save then s.saveHusk b else s
  | _ => if save then s.saveBlock reason p b else s.drainBlock reason p b

/-- Whether there are slots for the members that have ended, of a cluster that the debugger has stopped. -/
def State.huskSlots (s : State) (b : Block) : State × Bool :=
  match (s.clusterBlocks b).filter fun x => x.mode == .husk with
  | [] => (s, true)
  | hs => s.slotsFree b.ten b.qnum hs.length

/-- One choice for a block, or for all members of a cluster, which is stopped whole (R27, R308). -/
def State.choose (s : State) (reason : Nat) (b : Block) : State :=
  let bs := (s.clusterBlocks b).filter fun x =>
    x.mode == .husk || (match x.mode with | .debug _ => true | _ => false) || (x.mode == .running && x.fatal.isNone && !x.over)
  let p := s.progress b
  if (s.runningMates b).isEmpty then
    -- every member that is left is in the debugger's hands: their images are kept, and who has ended is saved with them
    let f := s.huskSlots b
    if f.2 then bs.foldl (fun s x => s.stopMember reason p true x) f.1 else f.1.askStop [b] reason
  else if p.within s.caller.cfg.drainbud then bs.foldl (fun s x => s.stopMember reason p false x) s
  else if b.hdr.idem && p.below s.caller.cfg.rstthr then s.restartAll reason p b bs
  else
    let f := s.slotsFree b.ten b.qnum (slotsOf b * max b.hdr.cluster 1)
    bs.foldl (fun s x => s.stopMember reason p f.2 x) f.1

/-- The log has room for the records of a choice: one for each member, and REFUSE where the list of slots is found broken (R298,
R312). -/
def State.mayStop (s : State) (b : Block) : Bool := s.mayDecideN (max b.hdr.cluster 1 + 1)

/-- STOP_DECISION: the choice for a running block and its cluster; a block in the debugger keeps its debug image; a save
with a handler, once decided, opens its cooperative phase when the strands have come to rest.  A stop that cannot be decided yet
waits (R308, R315). -/
def execStopDecision (uid reason : Nat) (s : State) : Host.Outcome State Fault Refusal :=
  match s.block uid with
  | none => .next s
  | some b =>
    match b.mode with
    | .preempt slot second r => if b.coopRests then .next (s.openPhase b slot second r) else .next s
    | .running =>
      if b.fatal.isSome || b.over then .next s
      else if !s.mayStop b || !s.stopReady uid then .next (s.askStop [b] reason)
      else .next (s.choose reason b)
    | .debug _ =>
      if !s.mayStop b || !s.stopReady uid then .next (s.askStop [b] reason) else .next (s.choose reason b)
    | m => .next (if m.undecided then s.askStop [b] reason else s)

/-- DRAIN_TIMEOUT: a drain past its limit becomes a save when there are slots (R308). -/
def execDrainTimeout (uid : Nat) (s : State) : Host.Outcome State Fault Refusal :=
  match s.block uid with
  | none => .next s
  | some b =>
    match b.drain with
    | some (since, reason) =>
      if s.cycle < since + 256 * s.caller.cfg.drainlim ∨ b.fatal.isSome ∨ b.over ∨ !s.mayStop b ∨ !s.stopReady uid then .next s
      else
        let bs := s.drainingMates b
        let p := s.progress b
        let f := s.slotsFree b.ten b.qnum (slotsOf b * max b.hdr.cluster 1)
        let husks := (s.clusterBlocks b).filter fun x => x.mode == .husk
        if f.2 then .next (husks.foldl (fun s x => s.saveHusk x) (bs.foldl (fun s x => s.stopMember reason p true x) f.1))
        else .next f.1
    | none => .next s

/-! ### CS_TICK (R308, R358) -/

/-- Enabled tenants that are sliced. -/
def slicedTenants (qt : SMap QEntry) : List Nat := (qt.filter fun kv => kv.2.enable && kv.2.sliced).map (·.1)

/-- The sliced tenant after another, in ascending order and around. -/
def nextSliced (qt : SMap QEntry) (ten : Nat) : Option Nat :=
  let l := slicedTenants qt
  (l.find? fun t => decide (ten < t)).orElse fun _ => l.head?

/-- The slice of a tenant from now on; the pool changes its owner. -/
def State.openSlice (s : State) (ten : Option Nat) : State :=
  (s.setCaller { s.caller with slice := ten.map fun t => (t, s.cycle + (s.quota t).slice * 65536) }).trimTlb1

/-- A slice has ended. -/
def State.sliceEnded (s : State) (ten : Nat) : Bool :=
  match s.caller.slice with
  | some (t, e) => t == ten && decide (e ≤ s.cycle)
  | none => false

/-- The effective priority of a resident block's grid. -/
def State.blockPrio (s : State) (b : Block) : Nat :=
  match s.gridOf b.ten b.qnum b.gseq with
  | some g => min g.prio (s.qget b.ten b.qnum qQPRIO)
  | none => 7

/-- The highest effective priority among a tenant's queues that find no quadrant. -/
def State.starved (s : State) (ten : Nat) : Option Nat :=
  ((List.range (s.quota ten).nq).filterMap fun q => match s.work ten q with
    | none => none
    | some (g, w) =>
      if s.poolReady ten g.hdr w && (s.candidates ten g.hdr (w.count g.hdr)).isEmpty then
        some (min g.prio (s.qget ten q qQPRIO))
      else none).foldl (fun m p => match m with
    | some x => some (max x p)
    | none => some p) none

/-- The block that makes room: a running one of the lowest priority below the one that waits (log 49, DESIGN CHOICE). -/
def State.victim (s : State) (ten prio : Nat) : Option Block :=
  (s.blocks.filter fun b => b.ten == ten && b.mode == .running && decide (s.blockPrio b < prio)).foldl (fun v b =>
    match v with
    | some x => if s.blockPrio b < s.blockPrio x then some b else some x
    | none => some b) none

/-- CS_TICK: at a slice's end the tenant's blocks are to be stopped and the next sliced tenant is placed; a periodic tick stops
a block for a queue of higher priority. -/
def execCsTick (ten : Nat) (s : State) : Host.Outcome State Fault Refusal :=
  if s.sliceEnded ten then
    .next ((s.askStop (s.blocks.filter fun b => b.ten == ten) 0).openSlice (nextSliced s.host.quota ten))
  else if ten = 0 then
    .next ((enabledTenants s.host.quota).foldl (fun s t => match (s.starved t).bind (s.victim t) with
      | some b => s.askStop [b] 1
      | none => s) s)
  else .next s

end Machine
end Sys2Proof
end

