-- ==== Sys2Proof/Machine/Restore.lean ====
section
/-!
DEFINITION. Restores and the debugger (R231, R234, R298, R324, R326 to R329, R386): what a save image puts back, RESTORE, and
the commands STOP, STEP, RESUME and KILL; and the choice of a fragment (R44), which STEP shares with the step.
-/
namespace Sys2Proof
open Machine

namespace Machine

/-! ### Which fragment issues (R44) -/

/-- The word at a PC as the core would fetch it; `none` where the fetch faults. -/
def State.peekWord (s : State) (b : Block) (pc : W64) : Option InstrWord :=
  match va56 pc with
  | some va => (s.translate (some b.quadId) b.ten b.pasid va .fetch).map fun t => s.mem.fetchWord b.core (t.pa va)
  | none => none

/-- The fragment's next word: the one it has fetched, else the one it would fetch. -/
def State.nextWord (s : State) (b : Block) (sid : Nat) (f : Frag) : Option InstrWord :=
  ((b.strand sid).wordAt f.pc).orElse fun _ => s.peekWord b f.pc

/-- Whether a word may issue, be taken up for emulation, or trap. -/
def State.mayTake (s : State) (b : Block) (sid : Nat) (f : Frag) (w : InstrWord) : Bool :=
  match ({ s with cur := some { ref := { blk := b.uid, strand := sid, lane := lowest f.lanes }, word := w } } : State).ctx
      (Ctl.ofWord w) with
  | none => false
  | some x =>
    match decodeInstr w with
    | .illegalWord _ => Ctx.canTake s x
    | .laterLevelOpcode _ => Ctx.canTake s x && x.blk.strandIdle x.sid && s.earlierDone x.blk x.sid s.nextId x.fr.lanes .dev
    | i => x.canIssue i s

/-- A fragment is ready: a pending trap is due, its fetch faults, or its word may issue. -/
def State.fragReady (s : State) (b : Block) (sid : Nat) (f : Frag) : Bool :=
  match f.pend with
  | _ :: _ => s.trapDue b sid f
  | [] =>
    if ((b.strand sid).wordAt f.pc).isNone && s.fetchWaits b f.pc then false
    else
      match s.nextWord b sid f with
      | none => s.ready b sid f
      | some w => s.mayTake b sid f w

/-- The lowest PC. -/
def lowestPc (fs : List Frag) : Option Frag :=
  fs.foldl (fun best f => match best with
    | some g => if f.pc.toNat < g.pc.toNat then some f else some g
    | none => some f) none

/-- R44: an aged fragment of the largest age, else one of the lowest PC. -/
def pickFrag (fs : List Frag) : Option Frag :=
  let aged := fs.filter fun f => decide (31 ≤ f.age)
  let top := aged.foldl (fun m f => max m f.age) 0
  (lowestPc (aged.filter fun f => f.age == top)).orElse fun _ => lowestPc fs

/-- The ready fragment that a strand issues. -/
def State.pickIn (s : State) (b : Block) (sid : Nat) : Option Frag :=
  pickFrag ((b.strand sid).frags.filter fun f => s.fragReady b sid f)

/-! ### Fragments from thread words (R327, R386) -/

/-- The shared-frame instructions: `true` for those of the cluster. -/
def sharedFrame : Instr → Option Bool
  | .bfenter _ _ => some false
  | .bfleave _ _ => some false
  | .cfenter _ _ => some true
  | .cfleave _ _ => some true
  | _ => none

/-- The shared-frame instruction that a HELD lane has signed: the lane's bit stands in SIG. -/
def State.signedAt (s : State) (b : Block) (sig : BitVec 1024) (sid L : Nat) (word : Nat) : Option Instr :=
  if bitN word 1 && sig.getLsbD (sid * b.width + L) then
    match s.peekWord b (BitVec.ofNat 64 (word % 2 ^ 56 / 16 * 16)) with
    | none => none
    | some w => match decode w with
      | .error _ => none
      | .ok i => if (sharedFrame i).isSome then some i else none
  else none

/-- A strand's fragments: live lanes at one PC form one, those that wait for a shared frame's generation apart. -/
def State.loadFrags (s : State) (b : Block) (sig : BitVec 1024) (sid : Nat) (live : Lanes) (scyc : Nat) (r : Reader) :
    List Frag :=
  let word := fun (L off n : Nat) => r (offThreads + 16 * L + off) n
  let key := fun (L : Nat) => (word L 0 8 % 2 ^ 56 / 16 * 16, (s.signedAt b sig sid L (word L 0 8)).isSome)
  ((lanesOf live).map key).eraseDups.map fun k =>
    let m := laneSet fun L => live.getLsbD L && key L == k
    let stall := word (lowest m) 12 1
    let nap := word (lowest m) 13 3
    { lanes := m, pc := BitVec.ofNat 64 k.1, age := word (lowest m) 11 1,
      stall := if stall = 0 then none else some (s.cycle + stall),
      nap := if nap = 0 then none else some (scyc + nap), hold := if k.2 then .shared else .free, pend := [] }

/-- The threads of a block that have signed a cluster's shared-frame instruction, and that instruction. -/
def State.clusterSigned (s : State) (b : Block) (sig : BitVec 1024) (word : Nat → Nat → Nat) : BitVec 1024 × Option Instr :=
  (List.range b.hdr.strands).foldl (fun acc sid =>
    (lanesOf (b.strand sid).live).foldl (fun acc L =>
      match s.signedAt b sig sid L (word sid L) with
      | some i => if sharedFrame i = some true then (acc.1 ||| threadSet b sid (oneLane L), some i) else acc
      | none => acc) acc) (0, none)

/-- The cluster's register takes a block's signatures from its image. -/
def State.loadCluster (s : State) (b : Block) (m : BitVec 1024) (i : Option Instr) : State :=
  let cl := s.cluster b.cluster
  let mine := clusterBits b.rank (BitVec.allOnes 1024)
  if m = 0 ∧ cl.sig &&& mine = 0 then s
  else
    let sig := (cl.sig &&& ~~~mine) ||| clusterBits b.rank m
    let kept := cl.signers.filter fun g => g.1 == b.uid
    let same := cl.sig &&& mine == clusterBits b.rank m
    let now := if same then kept else (sigSigners b m).map fun g => (b.uid, g)
    s.putCluster { cl with
      sig := sig, cap := if sig = 0 then none else cl.cap.orElse fun _ => i
      signers := (cl.signers.filter fun g => g.1 != b.uid) ++ now }

/-! ### Copies and the engine (R184, R231) -/

/-- A copy of an image as an operation in flight: what the image lacks of it is kept by the caller (log 45, DEDUCED). -/
def loadedCopy (v : Saved) (i id : Nat) (c : Nat × Nat × CopyRec) : Op :=
  let k := v.copies.getD i (id, oneLane c.2.2.lane, 0)
  { id := id, strand := c.1, lanes := k.2.1, active := oneLane c.2.2.lane, tok := BitVec.ofNat 3 c.2.1, pc := k.2.2,
    order := .rlx, scope := .dev, ord := false, stage := .waiting, dropped := [],
    kind := .copy { c.2.2 with group := k.1 } }

/-- The copies of an image. -/
def loadedCopies (v : Saved) (next : Nat) (r : Reader) : List Op :=
  ((List.range 64).filterMap fun i => loadCopy (fun off n => r (128 * i + off) n) 0).mapIdx fun i c =>
    loadedCopy v i (next + i) c

/-- The MITER that an image holds goes on between iterations. -/
def loadedMiter (v : Saved) (id word : Nat) : List EngOp :=
  match decode (BitVec.ofNat 128 word) with
  | .ok (.miter c f) =>
    match v.miter with
    | some o => [{ o with id := id, started := true, cap := { o.cap with instr := .miter c f } }]
    | none =>
      [{ id := id, decl := 0, bound := [], dst := [], locs := [], started := true,
         cap := { instr := .miter c f, vals := [], counts := 0, lane := 0, pc := 0, signers := [], dropped := [] } }]
  | _ => []

def loadedEngine (need : Nat) (v : Saved) (id : Nat) (r : Reader) : Option Engine :=
  if need = 0 then none
  else
    let e := (Engine.start need).load r
    some { e with queue := loadedMiter v id (r (tileSize * need + 2 * planeSize + 0x90) 16) }

/-! ### An image put back (R327) -/

/-- What reads a slot's bytes for the caller. -/
def State.slotReader (s : State) (b : Block) (base : Nat) : Reader := fun off n =>
  (s.vaNum b.ten (s.spasid b) (base + off) n).getD 0

/-- The whole image is there, with no uncorrectable error. -/
def State.imageReadable (s : State) (b : Block) (base : Nat) : Bool :=
  (s.vaTake b.ten (s.spasid b) base 0x200).isSome &&
  (s.slotReader b base 6 1 == 1 || (s.vaTake b.ten (s.spasid b) base (offsetsOf b.hdr b.grant).total).isSome)

/-- The checks of a header: magic, version, CRC, the fields of the kernel header, the code. -/
def imageOk (b : Block) (r : Reader) : Bool :=
  let h := b.hdr
  r 0 4 == 0x49534D58 && r 4 2 == 1 &&
  r 0xFC 4 == (crc32 ((List.range 0xFC).map fun i => BitVec.ofNat 8 (r i 1))).toNat &&
  r 8 1 == h.strands && r 9 1 == h.width && r 0xA 1 == h.vgran && r 0xB 1 == h.sgran && r 0xC 1 == h.atiles &&
  r 0xE 2 == b.grant / 1024 && r 0x10 8 == b.code.toNat && r 0x18 4 == b.koff

/-- A strand from its part. -/
def State.loadStrand (s : State) (b : Block) (v : Saved) (sig : BitVec 1024) (sid scyc : Nat) (r : Reader) : Strand :=
  let st := Strand.loadRegs { Strand.none with role := roleOf b.hdr.roles sid, last := s.cycle } b.hdr r
  { st with
    frags := s.loadFrags b sig sid st.live scyc r
    svdone := if v.first.isSome then (v.marks.find? fun m => m.1 == sid).map fun m => m.2 else none }

/-- The block's internal register, less what belongs to the cluster's. -/
def innerOf (c : Conv) (m : BitVec 1024) : Conv :=
  let sig := c.sig &&& ~~~m
  if sig = 0 then Conv.empty else { c with sig := sig }

/-- A forced or debug image put back into its block. -/
def State.loadForced (s : State) (b : Block) (v : Saved) (base : Nat) : State :=
  let r := s.slotReader b base
  let h := b.hdr
  let o := offsetsOf h b.grant
  let part := fun (sid off n : Nat) => r (o.ostr + sid * strandPart h + off) n
  let conv := fun (n off k : Nat) => r (o.ocv + 320 * n + off) k
  let capOf := fun (n : Nat) => (v.caps.find? fun c => c.1 == n).map fun c => c.2
  let sig := BitVec.ofNat 1024 (conv 8 128 128)
  let b1 := { b with strands := (List.range h.strands).map fun sid => s.loadStrand b v sig sid (r 0x64 8) (part sid) }
  let cs := s.clusterSigned b1 sig fun sid L => part sid (offThreads + 16 * L) 8
  let b2 := (List.range 8).foldl (fun x n => x.setCv n (loadConv b1 n (capOf n) (conv n) (s.fresh + 8 * n))) { b1 with cvs := [] }
  let b3 := { b2 with
    inner := innerOf (loadConv b1 8 (capOf 8) (conv 8) (s.fresh + 64)) cs.1
    flight := loadedCopies v s.nextId fun off n => r (o.ocopy + off) n
    eng := loadedEngine h.atiles v (s.nextId + 64) fun off n => r (o.oeng + off) n
    instrs := r 0x38 8
    mode := match v.first with
      | some f => .coop f v.slot none 0
      | none => if v.ended && decide (2 ≤ h.cluster) then .husk else match b.drain with
        | some d => .draining d.1 d.2
        | none => .running }
  let s := { s.putBlock b3 with nextId := s.nextId + 65, fresh := s.fresh + 128 }
  let s := s.fillWindow b3 0 ((List.range b.grant).map fun i => BitVec.ofNat 8 (r (o.osp + i) 1))
  (s.loadCluster b3 cs.1 cs.2).setMem ((s.loadCluster b3 cs.1 cs.2).mem.acquire b.core)

/-- A cooperative image: the block stands at its labels (R234). -/
def State.loadLabels (s : State) (b : Block) (base : Nat) : State :=
  let r := s.slotReader b base
  let marks := fun (sid : Nat) =>
    let pc := r (0x100 + 16 * sid) 8
    let m := r (0x108 + 16 * sid) 8
    if m = 0 then none else some (BitVec.ofNat 64 pc, BitVec.ofNat 64 m)
  let s := s.putBlock (labelBlock { b with instrs := r 0x38 8 } marks base s.cycle)
  (s.clearWindow b).setMem ((s.clearWindow b).mem.acquire b.core)

/-- An image put back, as its KIND says (log 38, DEDUCED): the block's registers and state are written whole (R269). -/
def State.loadImage (s : State) (b : Block) (v : Saved) (base : Nat) : State :=
  let s := s.errsGone (blockErr b.uid)
  if s.slotReader b base 6 1 = 1 then s.loadLabels b base else s.loadForced b v base

/-- The FATAL record of an image that is refused. -/
def State.formatRecord (s : State) (b : Block) (base : Nat) : TrapRec :=
  { s.blockRecord b .format (infoOf base 0) with fatal := true }

/-- A saved block that is no longer saved. -/
def State.unsave (s : State) (key : Nat) : State :=
  s.setCaller { s.caller with saved := s.caller.saved.filter fun v => v.key != key }

/-- The block of a saved entry on a quadrant. -/
def State.returning (s : State) (g : Grid) (v : Saved) (core quad slot window : Nat) : Block :=
  { g.block v.key v.idx v.cluster (v.idx % g.gx % g.hdr.cluster) core quad slot window v.pb0 (s.qpasid v.ten v.qnum) s.cycle with
    cyclesBefore := v.cycles }

/-- RESTORE: a saved block comes back on a quadrant, or its grid's status becomes FAULT. -/
def execRestore (key core quad : Nat) (s : State) : Host.Outcome State Fault Refusal :=
  match s.caller.saved.find? fun v => v.key == key with
  | none => .next s
  | some v =>
    match s.gridOf v.ten v.qnum v.gseq with
    | none => .next s
    | some g =>
      -- a cluster's blocks go to distinct quadrants of one core (R291)
      if !s.fitsOn v.ten g.hdr (quadId core quad) || s.blocks.any (fun x => x.cluster == v.cluster &&
          (x.core != core || x.quad == quad)) then .next s.callerError
      else
        match s.freeSlot core quad, s.windowOn core quad g.hdr.grant, s.slotVa v.ten v.qnum v.slot with
        | some slot, some window, some base =>
          let b := s.returning g v core quad slot window
          if !s.imageReadable b base then .next (s.queueStop v.ten v.qnum)
          else if !imageOk b (s.slotReader b base) then
            let s := ((s.trapAppend v.ten (s.formatRecord b base)).drawn).unsave key
            .next (if v.ended then s else (s.qsub v.ten v.qnum qLIVEBLK).countEnd v.ten v.qnum v.gseq stFault)
          else
            let s := ((s.settle b).unsave key).loadImage b v base
            .next (if v.first.isSome then s else s.freeSave v.ten v.qnum v.slot)
        | _, _, none => .next (s.queueStop v.ten v.qnum)
        | _, _, _ => .next s.callerError

/-! ### The debugger (R328, R329) -/

/-- The block that a command word names. -/
def State.cmdBlock (s : State) (w : W64) : Option Block :=
  s.blockIn (w.extractLsb' 48 8).toNat (w.extractLsb' 46 2).toNat (w.extractLsb' 44 2).toNat

/-- ATTACH of a tenant's trap descriptor. -/
def State.attached (s : State) (ten : Nat) : Bool := s.trapDesc ten 0x0B 1 % 2 == 1

/-- The command word of an operation, its other bits zero: those below `used` are not its fields. -/
def debugWord (w : W64) (op : Nat) (strandField : Bool) : Bool :=
  cmdOp w == op && (w.extractLsb' 0 33 == 0) && (strandField || w.extractLsb' 33 11 == 0)

/-- The block of a command that may be given. -/
def State.debugBlock (s : State) (w : W64) (op : Nat) (strandField : Bool) : Option Block :=
  if debugWord w op strandField then
    match s.cmdBlock w with
    | some b => if s.attached b.ten then some b else none
    | none => none
  else none

/-- A mode that STOP fits. -/
def Mode.stoppable : Mode → Bool
  | .running => true
  | .draining .. => true
  | _ => false

/-- STOP: the debug save comes as soon as everything outstanding has completed; refused with no free slot. -/
def execStop (w : W64) (s : State) : Host.Outcome State Fault Refusal :=
  match s.debugBlock w 0x20 false with
  | none => .next s.cmdBad
  | some b =>
    if !b.mode.stoppable || b.fatal.isSome || b.over then .next s.cmdBad
    else
      let f := s.slotsFree b.ten b.qnum 1
      if f.2 then .next ((f.1.updBlock b.uid fun x => { x with mode := .breakpoint none }).cmdOk) else .next f.1.cmdBad

/-- What the caller keeps of a debug-stopped block. -/
def State.debugEntry (s : State) (b : Block) (slot : Nat) : Saved :=
  (s.caller.debugs.find? fun v => v.key == b.uid).getD (b.savedAs slot none s.cycle)

/-- The fragment that a STEP names in a strand: R44's choice among the ready ones, else among all; or the one with a lane. -/
def State.stepFrag (s : State) (b : Block) (sid : Nat) (any : Bool) (lane : Nat) : Option Frag :=
  if any then (s.pickIn b sid).orElse fun _ => pickFrag (b.strand sid).frags
  else (b.strand sid).fragOf lane

/-- What the record of a STEP says of the fragment: the lanes whose guard is true are those of the cause BKPT (R316, R319, R329). -/
def State.stepRecord (s : State) (b : Block) (sid : Nat) (f : Frag) : TrapRec :=
  let active := match s.nextWord b sid f with
    | some w => s.emulActive { blk := b.uid, strand := sid, lane := lowest f.lanes } w
    | none => f.lanes
  { trapRecord b sid f (Trap.of .bkpt active 0 0) f.pc false with step := true, debug := true }

/-- STEP, the image reloaded, with its holds (R386): the chosen fragment issues once, or holds. -/
def State.stepFrom (s : State) (b : Block) (slot sid : Nat) (any : Bool) (lane : Nat) : Option State :=
  match s.block b.uid with
  | none => none
  | some b' =>
    let s := s.updBlock b.uid fun x => { x with mode := .running }
    let b' := { b' with mode := .running }
    match s.stepFrag b' sid any lane with
    | none => none
    | some f =>
      let held := !s.fragReady b' sid f
      some (s.updBlock b.uid fun x => { x with mode := .stepping sid (lowest f.lanes) slot (s.stepRecord b' sid f) held held })

/-- STEP.  Of an image that R327 refuses it is refused (log 99, DESIGN CHOICE). -/
def execStep (w : W64) (s : State) : Host.Outcome State Fault Refusal :=
  match s.debugBlock w 0x21 true with
  | none => .next s.cmdBad
  | some b =>
    match b.mode with
    | .debug slot =>
      let sid := (w.extractLsb' 40 4).toNat
      match s.slotVa b.ten b.qnum slot with
      | none => .next (s.queueStop b.ten b.qnum).cmdBad
      | some base =>
        if b.hdr.strands ≤ sid ∨ !imageOk b (s.slotReader b base) ∨ b.fatal.isSome then .next s.cmdBad
        else if !s.imageReadable b base then .next (s.queueStop b.ten b.qnum).cmdBad
        else
          match (s.loadImage b (s.debugEntry b slot) base).stepFrom b slot sid (w.getLsbD 39) (w.extractLsb' 33 6).toNat with
          | some s' => .next s'.cmdOk
          | none => .next s.cmdBad
    | _ => .next s.cmdBad

/-- The saved block that a RESUME names: one that was stopped there by the debugger and has left (R328). -/
def State.savedDebug (s : State) (w : W64) : Option Saved :=
  if debugWord w 0x22 false then
    s.caller.saved.find? fun v => s.attached v.ten &&
      v.debugAt == some ((w.extractLsb' 48 8).toNat, (w.extractLsb' 46 2).toNat, (w.extractLsb' 44 2).toNat)
  else none

/-- RESUME of a block that has left: the caller may restore it from now on. -/
def State.resumeSaved (s : State) (w : W64) : State :=
  match s.savedDebug w with
  | none => s.cmdBad
  | some v => (s.setCaller { s.caller with saved := s.caller.saved.map fun x =>
      if x.key == v.key then { x with debugAt := none } else x }).cmdOk

/-- RESUME: the image is put back on the same quadrant, and the block runs on; an image that is refused ends it (R327).  Of a block
that has left its quadrant it is a restore. -/
def execResume (w : W64) (s : State) : Host.Outcome State Fault Refusal :=
  match s.debugBlock w 0x22 false with
  | none => .next (s.resumeSaved w)
  | some b =>
    match b.mode with
    | .debug slot =>
      match s.slotVa b.ten b.qnum slot with
      | none => .next (s.queueStop b.ten b.qnum).cmdBad
      | some base =>
        if b.fatal.isSome then .next s.cmdBad
        else if !s.imageReadable b base then .next (s.queueStop b.ten b.qnum).cmdBad
        else if !imageOk b (s.slotReader b base) then
          .next (((s.updBlock b.uid fun x => { x with fatal := some (s.formatRecord b base), mode := .running }).dropDebug
            b.uid).drawn.cmdOk)
        else
          .next ((((s.loadImage b (s.debugEntry b slot) base).dropDebug b.uid).freeSave b.ten b.qnum slot).cmdOk)
    | _ => .next (s.resumeSaved w)

/-- KILL ends the block as a fatal trap does; the cause that its record names is not stated (log 48, DESIGN CHOICE). -/
def execKill (w : W64) (s : State) : Host.Outcome State Fault Refusal :=
  match s.debugBlock w 0x23 false with
  | none => .next s.cmdBad
  | some b =>
    if !b.mode.killable then .next s.cmdBad
    else
      let v := fun (i : Nat) => (Config.freeWord (s.fresh + i)).toNat
      let r := { s.blockRecord b (Cause.ofCode (v 6 % 16)) (infoOf (v 7) 0) with fatal := true }
      .next ((s.updBlock b.uid fun x => { x with fatal := x.fatal.orElse fun _ => some r }).drawn.cmdOk)

end Machine
end Sys2Proof
end

