-- ==== Sys2Proof/Machine/Manage.lean ====
section
/-!
DEFINITION. The caller's management (R294, R295, R298, R312, R315, R355 to R361): the start and the load of a call sheet, queue
recovery, the log ring, stopping and resuming a tenant, the quota table, and queue ports.
-/
namespace Sys2Proof
open Machine

namespace Machine

/-! ### CS_RESET, CALL_SHEET_LOAD (R294, R295) -/

/-- CS_RESET: the QCBs are read again, and every queue of an enabled tenant is resumed. -/
def execCsReset (s : State) : Host.Outcome State Fault Refusal :=
  .next ((enabledTenants s.host.quota).foldl (fun s t => s.ringAll t) (s.setCaller { s.caller with dropped := [] }))

/-- What the load of a sheet waits for: a save, a restart or an emulation that is under way. -/
def Block.busyWithCaller (b : Block) : Bool :=
  !b.noEmul || (match b.mode with
    | .preempt .. => true
    | .coop .. => true
    | .saving .. => true
    | .breakpoint _ => true
    | .stepping .. => true
    | .leaving _ => true
    | _ => false)

/-- The sheet of an image that may run: its signature and version (R377), its symbols, its emulation table. -/
def State.sheetOf (s : State) (im : SheetImage) : Option Sheet :=
  if Config.xmssVerify im.bytes s.mgmt.rootDigest && decide (s.mgmt.floor ≤ im.version) then Sheet.ofImage im else none

/-- HALT as software sees it written. -/
def Caller.setHalt (c : Caller) (v : Bool) : Caller := { c with cfg := { c.cfg with halt := v } }

/-- CALL_SHEET_LOAD: HALT first; once what is under way has ended, the image is verified, and it or the old sheet starts. -/
def execCallSheetLoad (image : SheetImage) (s : State) : Host.Outcome State Fault Refusal :=
  match s.caller.loading with
  | none => .next (s.setCaller { s.caller.setHalt true with loading := some (image, s.caller.cfg.halt) })
  | some (im, was) =>
    if im ≠ image ∨ s.blocks.any Block.busyWithCaller then .next s
    else
      let s := s.setCaller { s.caller.setHalt was with loading := none }
      match s.sheetOf im with
      | some sh => .next ((s.setCaller { s.caller with sheet := sh, rr := [] }).notify .csReset)
      | none => .next ((s.logDecision (Decision.grid kRefuse 0 noQueue 0)).notify .csReset)

/-! ### QSYNC (R298) -/

/-- A stopped queue that software has not set to 1 again is refused. -/
def execQsync (w : W64) (s : State) : Host.Outcome State Fault Refusal :=
  let ten := cmdTenant w
  let q := (w.extractLsb' 43 8).toNat
  if cmdOp w ≠ 0x42 ∨ w.extractLsb' 0 43 ≠ 0 ∨ !s.hasQueue ten q then .next s.cmdBad
  else if s.qget ten q qQSTATE = 2 then .next s.cmdBad
  else .next (((s.setCaller { s.caller with dropped := s.caller.dropped.filter (· != (ten, q)) }).ring ten q).cmdOk)

/-! ### LOGRING (R312) -/

/-- LOGRING_WRITE: base and size are set, HEAD becomes 0. -/
def execLogringWrite (v : W64) (s : State) : Host.Outcome State Fault Refusal :=
  let n := (v.extractLsb' 0 5).toNat
  .next (s.setCaller { s.caller with
    logbase := baseOf v, logsize := if 8 ≤ n ∧ n ≤ 20 then n else 8, loghead := 0 }).flushLog

/-! ### VFSTOP, VFRESUME (R355) -/

/-- A command word that names a tenant and nothing else. -/
def tenantWord (w : W64) (op : Nat) : Bool := cmdOp w == op && w.extractLsb' 0 51 == 0

/-- STOPPED in the tenant's dirty-log descriptor, where it has one. -/
def State.setStopped (s : State) (ten : Nat) (v : Bool) : State :=
  if (s.quota ten).dlog = 0 then s else s.setDlFlag ten 1 v

def State.tenantBlocks (s : State) (ten : Nat) : List Block := s.blocks.filter fun b => b.ten == ten

/-- Every write of the tenant has been performed: no block of it is resident, no site rewrite under its translations is under
way, and no L1 of its quadrants holds a dirty word that its home does not know of (R238, R355). -/
def State.tenantQuiet (s : State) (ten : Nat) : Bool :=
  (s.tenantBlocks ten).isEmpty && (s.cores.all fun kv => !(kv.2.siteReqs.any fun r => r.via.ten == ten)) &&
  s.mem.l1.all fun l => !(l.pending && givenTo s.host.quota ten l.quad)

/-- VFSTOP: submissions are retried and the blocks stopped; once they and their writes are done, STOPPED is set. -/
def execVfstop (w : W64) (s : State) : Host.Outcome State Fault Refusal :=
  let ten := cmdTenant w
  if !tenantWord w 0x40 then .next s.cmdBad
  else if !s.caller.vfstops.contains ten then
    .next ((s.setCaller { s.caller with
      stopped := s.caller.stopped.filter (· != ten) ++ [ten], vfstops := s.caller.vfstops ++ [ten] }).askStop
        (s.tenantBlocks ten) 3)
  else if !s.tenantQuiet ten then .next s
  else
    .next ((s.setCaller { s.caller with vfstops := s.caller.vfstops.filter (· != ten) }).setStopped ten true).cmdOk

/-- The tenant is served again. -/
def State.unstop (s : State) (ten : Nat) : State :=
  ((s.setCaller { s.caller with stopped := s.caller.stopped.filter (· != ten) }).setStopped ten false).ringAll ten

/-- VFRESUME. -/
def execVfresume (w : W64) (s : State) : Host.Outcome State Fault Refusal :=
  if !tenantWord w 0x41 then .next s.cmdBad else .next (s.unstop (cmdTenant w)).cmdOk

/-! ### The quota table (R356, R357) -/

def QEntry.ofBytes (bs : List Byte) : QEntry :=
  let n := fun (off len : Nat) => leNum ((bs.drop off).take len)
  { enable := n 0 1 % 2 == 1, sliced := n 0 1 / 2 % 2 == 1, s2on := n 0 1 / 4 % 2 == 1, logon := n 0 1 / 8 % 2 == 1,
    stackSet := BitVec.ofNat 8 (n 1 1), calslots := n 2 2, tlbways := n 4 1, walkers := n 5 1, nq := n 6 1, slice := n 7 1,
    s2root := n 8 8, qlist := n 0x10 8, rate := n 0x18 4, burst := n 0x1C 4, spasid := n 0x20 4,
    trapdesc := BitVec.ofNat 64 (n 0x28 8), tracedesc := BitVec.ofNat 64 (n 0x30 8), ppool := BitVec.ofNat 64 (n 0x38 8),
    ppoolmb := n 0x40 4, dlog := n 0x48 8, quads := BitVec.ofNat 1024 (n 0x50 128) }

/-- The 256 bytes of an entry. -/
def QEntry.bytes (q : QEntry) : List Byte :=
  record 256
    [field 0 1 (b2n q.enable + 2 * b2n q.sliced + 4 * b2n q.s2on + 8 * b2n q.logon), field 1 1 q.stackSet.toNat,
     field 2 2 q.calslots, field 4 1 q.tlbways, field 5 1 q.walkers, field 6 1 q.nq, field 7 1 q.slice, field 8 8 q.s2root,
     field 0x10 8 q.qlist, field 0x18 4 q.rate, field 0x1C 4 q.burst, field 0x20 4 q.spasid,
     field 0x28 8 q.trapdesc.toNat, field 0x30 8 q.tracedesc.toNat, field 0x38 8 q.ppool.toNat, field 0x40 4 q.ppoolmb,
     field 0x48 8 q.dlog, field 0x50 128 q.quads.toNat]

/-- The reserved bits and bytes of an entry. -/
def reservedZero (bs : List Byte) : Bool :=
  let zero := fun (off len : Nat) => leNum ((bs.drop off).take len) == 0
  decide (leNum (bs.take 1) < 16) && zero 0x24 4 && zero 0x44 4 && zero 0xD0 48

/-- The limits of an enabled entry. -/
def QEntry.ok (ten : Nat) (q : QEntry) : Bool :=
  (q.s2on || ten == 0) && (q.calslots == 0 || (decide (4 ≤ q.calslots) && decide (q.calslots ≤ 448))) &&
  decide (q.tlbways ≤ 16) && decide (1 ≤ q.walkers) && decide (q.walkers ≤ 64) && decide (q.nq ≤ 255) &&
  (if q.sliced then decide (1 ≤ q.slice) else q.slice == 0) && q.s2root % 4096 == 0 && decide (1 ≤ q.burst) &&
  decide (q.burst ≤ 65535) && q.ppool.toNat % 65536 == 0 && q.dlog % 32 == 0 && (q.logon || q.dlog == 0)

def readQuota (s : State) : List (Nat × List Byte) :=
  (List.range 32).map fun t => (t, s.mem.readPa (s.host.qtbase + 256 * t) 256)

/-- The table that LOAD reads. -/
def quotaOf (raw : List (Nat × List Byte)) : SMap QEntry :=
  raw.foldl (fun m e => m.set QEntry.zero e.1 (QEntry.ofBytes e.2)) []

def sumBy (l : List QEntry) (f : QEntry → Nat) : Nat := l.foldl (fun n q => n + f q) 0

/-- A table that LOAD accepts. -/
def quotaOk (raw : List (Nat × List Byte)) : Bool :=
  let on := raw.filter fun e => (QEntry.ofBytes e.2).enable
  let es := on.map fun e => QEntry.ofBytes e.2
  let own := es.filter fun q => !q.sliced
  on.all (fun e => (QEntry.ofBytes e.2).ok e.1 && reservedZero e.2) &&
  (own.foldl (fun (r : BitVec 1024 × Bool) q => (r.1 ||| q.quads, r.2 && r.1 &&& q.quads == 0)) (0, true)).2 &&
  decide (sumBy es (·.tlbways) ≤ 16) && !(sumBy es (·.tlbways) == 16 && es.any fun q => q.tlbways == 0) &&
  decide (sumBy es (·.walkers) ≤ 64) && decide (sumBy es (·.calslots) ≤ 448) &&
  !(decide (2 ≤ es.length) && es.any fun q => decide (q.calslots < 4))

/-- The calendar of a table: each tenant one slot in every quarter, its further slots at the lowest free places, and the rest
service. -/
def buildCalendar (qt : SMap QEntry) : SMap Byte :=
  let ts := (qt.filter fun kv => kv.2.enable && decide (4 ≤ kv.2.calslots)).map fun kv => (kv.1, kv.2.calslots)
  let primary := ts.mapIdx fun i t => (i, t.1)
  let main := (List.range 4).foldl (fun m k => primary.foldl (fun (m : SMap Byte) p =>
    m.put (128 * k + p.1) (BitVec.ofNat 8 p.2)) m) []
  let extra := ts.flatMap fun t => List.replicate (t.2 - 4) t.1
  let free := (List.range Config.slots).filter fun i => (main.find i).isNone
  let full := (free.zip extra).foldl (fun (m : SMap Byte) p => m.put p.1 (BitVec.ofNat 8 p.2)) main
  (free.drop extra.length).foldl (fun (m : SMap Byte) i => m.put i 0x40#8) full

/-- Blocks on quadrants that leave their tenant. -/
def State.departing (s : State) : List Block := s.blocks.filter fun b => s.departs b.ten b.quadId

/-- Quadrants that leave a tenant: their banks are handed over, with zeros (R274, R315). -/
def changedQuads (old new : SMap QEntry) : List Nat :=
  (List.range 1024).filter fun q =>
    old.any fun kv => givenTo old kv.1 q && !givenTo new kv.1 q

/-- SPOWN of a core that a quadrant departs from: its division at reset, where R274 lets the banks move (R315; log 50, DESIGN
CHOICE). -/
def State.homeBanks (s : State) (core : Nat) : W64 :=
  let old := (s.core core).spown
  if (movedBanks old Core.spownReset).any fun b =>
      s.occupied core (bankOwner old b) || s.occupied core (bankOwner Core.spownReset b) then old
  else Core.spownReset

/-- Departing quadrants are handed over: SPOWN changes, and every bank that moves, or that such a quadrant owned or owns, is zeroed. -/
def State.handOver (s : State) (quads : List Nat) : State :=
  quads.foldl (fun s q =>
    let c := s.core (q / 4)
    let v := s.homeBanks (q / 4)
    let banks := (movedBanks c.spown v ++ ownBanks c.spown (q % 4) ++ ownBanks v (q % 4)).eraseDups
    s.setCore (q / 4) { c with spown := v, zeroing := c.zeroing ++ banks.filter fun b => !c.zeroing.contains b }) s

/-- The slice that runs under a new table. -/
def State.keepSlice (s : State) : State :=
  let l := slicedTenants s.host.quota
  match s.caller.slice with
  | some (t, _) => if l.contains t then s else s.openSlice l.head?
  | none => s.openSlice l.head?

/-- The table comes into force (log 50, DEDUCED). -/
def State.commitQuota (s : State) (qt : SMap QEntry) : State :=
  let s := s.setHost { s.host with quota := qt, quotaNext := none, quotaHanded := false }
  let s := { s with cores := (s.cores.map fun (kv : Nat × Core) => (kv.1, { kv.2 with buckets := [] })).filter fun kv => kv.2 != Core.reset }
  let s := (s.setCaller { s.caller with rr := [] }).keepSlice.trimTlb1.trimTlb2
  (enabledTenants qt).foldl (fun s t => s.ringAll t) s

/-- With the last block off the departing quadrants, their banks are handed over, once for each LOAD (R315, R357). -/
def State.handQuads (s : State) (qt : SMap QEntry) : State :=
  if s.host.quotaHanded then s
  else (s.handOver (changedQuads s.host.quota qt)).setHost { s.host with quotaHanded := true }

/-- QTCTL_LOAD: the table is read and checked; then, in order, departing quadrants are emptied and handed over, the calendar is
built and committed at a slot 0, and the rest takes effect. -/
def execQtctlLoad (s : State) : Host.Outcome State Fault Refusal :=
  if !s.mgmt.booted then .next s
  else match s.host.quotaNext with
  | none =>
    let raw := readQuota s
    if !quotaOk raw then .next (s.setHost { s.host with qtRefused := true })
    else
      let s := s.setHost { s.host with quotaNext := some (quotaOf raw), qtRefused := false }
      .next (s.askStop s.departing 2)
  | some qt =>
    if !s.departing.isEmpty then .next s
    else
      let cal := buildCalendar qt
      let s := s.handQuads qt
      if s.fab.table = cal then .next (s.commitQuota qt)
      else if s.fab.pending = some cal then .next s
      else .next { s with fab := { s.fab with pending := some cal } }

/-! ### Queue ports (R360, R361) -/

/-- QUEUE_PORT_WRITE: the first row that applies.  A number past the 1,024 ports is 1,024 times the byte offset from a port's
boundary, beside the port (log 80, DESIGN CHOICE); with link 0 down nothing reaches a BAR (R353). -/
def execQueuePortWrite (fn port : Nat) (pasid : Option Nat) (dmwr : Bool) (data : List Byte) (s : State) :
    Host.Outcome State Fault Refusal :=
  let p := pasid.getD 0
  if !s.host.link0 || !s.mgmt.booted then .next s
  else if !dmwr || data.length != 64 || decide (1024 ≤ port) then
    let s := s.hostErr 4 fn (port % 1024) p
    .next (if dmwr then s.send (.portStatus 2) else s)
  else
    match pasid.bind s.pasidEntry with
    | none => .next ((s.hostErr 1 fn port p).send (.portStatus 1))
    | some (_, ten, valid) =>
      if !valid then .next ((s.hostErr 1 fn port p).send (.portStatus 1))
      else
        let s := s.cachePasid p
        if fn ≠ 0 ∧ ten ≠ fn then .next ((s.hostErr 2 fn port p).send (.portStatus 1))
        else if !s.hasQueue ten port then .next ((s.hostErr 3 fn port p).send (.portStatus 1))
        else
          let r := s.acceptRecord ten port data
          if r.2 then .next ((r.1.notify (.csDoorbell ten port)).send (.portStatus 0)) else .next (r.1.send (.portStatus 1))

end Machine
end Sys2Proof
end

