-- ==== Sys2Proof/Machine/Registers.lean ====
section
/-!
DEFINITION. The register pages (R354) with what a write to each register starts and what a read returns, and the invalidation
commands (R367, R368).
-/
namespace Sys2Proof
open Machine

namespace Machine

/-! ### Invalidation (R367, R368) -/

def State.inv (s : State) (fn : Nat) : InvReg := s.host.inv.get InvReg.reset fn

def State.setInv (s : State) (fn : Nat) (r : InvReg) : State :=
  s.setHost { s.host with inv := s.host.inv.set InvReg.reset fn r }

/-- INVCMD's register number in a log record. -/
abbrev invPort : Nat := 0x830 / 8

/-- A GO is refused (R375: code 7). -/
def State.invRefuse (s : State) (fn : Nat) : State :=
  let r := s.inv fn
  (s.setInv fn { r with refused := true }).hostErr 7 fn invPort (if r.scope = 1 ∨ r.scope = 2 then r.pasid else 0)

/-- A VF may name neither another tenant's PASID nor the table caches. -/
def State.invForeign (s : State) (fn : Nat) (r : InvReg) : Bool :=
  fn != 0 && (r.scope == 4 || ((r.scope == 1 || r.scope == 2) && (match s.pasidEntry r.pasid with
    | some (_, ten, _) => ten != fn
    | none => false)))

/-- Every matching entry leaves the TLBs. -/
def MemSys.dropTlb (m : MemSys) (p : Xlate → Bool) : MemSys :=
  { m with tlb1 := m.tlb1.filter (fun e => !p e.2), tlb2 := m.tlb2.filter fun e => !p e.2 }

/-- Cached table entries that a command drops; OVF is left once PF0 has cleared it (R374). -/
def State.dropTables (s : State) (r : InvReg) (ten : Nat) : State :=
  let h := s.host
  match r.scope with
  | 1 => s.setHost { h with pasidCache := h.pasidCache.erase r.pasid }
  | 4 =>
    s.setHost { h with
      pasidCache := h.pasidCache.filter fun e => e.2.2.1 != ten
      irtCache := h.irtCache.filter fun e => (e.2.extractLsb' 1 5).toNat != ten
      dlOvf := h.dlOvf.filter fun t => t != ten || bitN (s.dlogNum ten 9 1) 0 }
  | _ => s

/-- What a command drops: entries of the TLBs and cached table entries. -/
def State.invDrop (s : State) (r : InvReg) (ten : Nat) : State := (s.setMem (s.mem.dropTlb (r.hits ten))).dropTables r ten

/-- A GO with a scope: refused, or the matching entries leave at once, so that what issues later translates again, and BUSY stands
until what was issued before has been performed (R368). -/
def State.invStart (s : State) (fn scope : Nat) : State :=
  let r := s.inv fn
  if r.busy || r.scope != scope || s.invForeign fn r then s.invRefuse fn
  else (s.invDrop r (r.tenant fn)).setInv fn { r with busy := true, refused := false, upto := s.nextId }

/-- SCOPE 0. -/
def execInvTenant (fn : Nat) (s : State) : Host.Outcome State Fault Refusal := .next (s.invStart fn 0)
/-- SCOPE 1. -/
def execInvPasid (fn : Nat) (s : State) : Host.Outcome State Fault Refusal := .next (s.invStart fn 1)
/-- SCOPE 2. -/
def execInvPasidRange (fn : Nat) (s : State) : Host.Outcome State Fault Refusal := .next (s.invStart fn 2)
/-- SCOPE 3. -/
def execInvStage2Range (fn : Nat) (s : State) : Host.Outcome State Fault Refusal := .next (s.invStart fn 3)
/-- SCOPE 4. -/
def execInvTables (fn : Nat) (s : State) : Host.Outcome State Fault Refusal := .next (s.invStart fn 4)

/-- Blocks whose accesses a command concerns. -/
def State.invBlock (s : State) (r : InvReg) (ten : Nat) (b : Block) : Bool :=
  if r.scope = 1 ∨ r.scope = 2 then b.pasid == r.pasid || s.spasid b == r.pasid else b.ten == ten

def PWrite.isSlot : PWrite → Bool
  | .slot _ _ _ => true
  | _ => false

/-- Accesses numbered below a bound are still to be performed. -/
def State.unperformed (s : State) (upto : Nat) (b : Block) : Bool :=
  b.work.any (fun o => !o.isCopy && decide (o.id < upto)) ||
  b.strands.any (fun st => st.pendw.any fun p => decide (p.id < upto) && p.writes.any PWrite.isSlot) ||
  b.engine.queue.any (fun o => decide (o.id < upto) && o.miter?.isNone) || s.ownershipPending b

/-- What INVALIDATION_DONE waits for. -/
def State.invWaits (s : State) (r : InvReg) (ten : Nat) : Bool :=
  s.blocks.any (fun b => s.invBlock r ten b && s.unperformed r.upto b) ||
  s.cores.any fun kv => kv.2.siteReqs.any fun q => decide (q.id < r.upto) && r.hits ten q.via

/-- INVALIDATION_DONE: everything issued before is performed; what was cached since is dropped too, and BUSY clears. -/
def execInvalidationDone (fn : Nat) (s : State) : Host.Outcome State Fault Refusal :=
  let r := s.inv fn
  let ten := r.tenant fn
  if !r.busy || s.invWaits r ten then .next s
  else
    .next ((s.invDrop r ten).setInv fn { r with busy := false, done := r.done + 1 })

/-! ### Commands (R294, R328, R345, R355, R380) -/

/-- The command that a word written to CMD stands for. -/
def cmdStep (w : W64) : Option Instr :=
  match cmdOp w with
  | 0x20 => some (.stop w)
  | 0x21 => some (.step w)
  | 0x22 => some (.resume w)
  | 0x23 => some (.kill w)
  | 0x30 => some (.setout w)
  | 0x31 => some (.readmit w)
  | 0x32 => some (.retire w)
  | 0x40 => some (.vfstop w)
  | 0x41 => some (.vfresume w)
  | 0x42 => some (.qsync w)
  | 0x50 => some (.attestationRequest w)
  | _ => none

/-- A write to CMD: refused while BUSY; an OP that no command has is refused. -/
def State.writeCmd (s : State) (w : W64) : State :=
  if s.caller.busy then
    ((s.setCaller { s.caller with cmdRefused := true }).callerError).hostErr 7 0 0 0
  else
    match cmdStep w with
    | some i => (s.setCaller { s.caller with busy := true }).notify i
    | none => s.cmdBad

/-! ### Fields of registers -/

def n64 (w : W64) (lo n : Nat) : Nat := (w.extractLsb' lo n).toNat

/-- CALLCFG (R312). -/
def CallCfg.ofWord (v : W64) : CallCfg :=
  { drainbud := n64 v 48 16, drainlim := n64 v 32 16, rstthr := n64 v 24 8, d := n64 v 20 4, sensw := n64 v 16 4,
    logstall := v.getLsbD 2, sensor := v.getLsbD 1, halt := v.getLsbD 0 }

def CallCfg.word (c : CallCfg) : W64 :=
  BitVec.ofNat 64 (c.drainbud * 2 ^ 48 + c.drainlim * 2 ^ 32 + c.rstthr * 2 ^ 24 + c.d * 2 ^ 20 + c.sensw * 2 ^ 16 +
    4 * b2n c.logstall + 2 * b2n c.sensor + b2n c.halt)

/-- While a sheet is being loaded HALT stays, and what software writes holds afterwards (R295). -/
def State.writeCallCfg (s : State) (v : W64) : State :=
  let cfg := CallCfg.ofWord v
  match s.caller.loading with
  | none => s.setCaller { s.caller with cfg := cfg }
  | some (im, _) => s.setCaller { s.caller with cfg := { cfg with halt := true }, loading := some (im, cfg.halt) }

/-- Eight entries of the shadow table (R335). -/
def State.writeCaltab (s : State) (n : Nat) (v : W64) : State :=
  { s with fab := { s.fab with
      shadow := (List.range 8).foldl (fun m i => m.set idleEntry (8 * n + i) (v.extractLsb' (8 * i) 8)) s.fab.shadow } }

/-- What a 1 written to a W1 bit does: its own step, the very next one. -/
def State.push (s : State) (i : Instr) : State := { s with agenda := i :: s.agenda }

def State.writeCalctl (s : State) (v : W64) : State :=
  let s := if v.getLsbD 62 then { s with fab := { s.fab with refused := false } } else s
  if v.getLsbD 63 then s.push .calctlLoad else s

/-- A LOAD while one is in progress is refused. -/
def State.writeQtctl (s : State) (v : W64) : State :=
  let s := if v.getLsbD 62 then s.setHost { s.host with qtRefused := false } else s
  if !v.getLsbD 63 then s
  else if s.host.quotaNext.isSome then s.setHost { s.host with qtRefused := true }
  else s.push .qtctlLoad

/-- INVCMD: its fields, which stand while a command is in progress, and GO. -/
def State.writeInvcmd (s : State) (fn : Nat) (v : W64) : State :=
  let r := s.inv fn
  let s := if r.busy then s
    else s.setInv fn { r with scope := n64 v 60 3, ten := n64 v 55 5, pasid := n64 v 32 20, rlog := n64 v 0 6 }
  if !v.getLsbD 63 then s
  else if r.busy then s.invRefuse fn
  else
    match n64 v 60 3 with
    | 0 => s.push (.invTenant fn)
    | 1 => s.push (.invPasid fn)
    | 2 => s.push (.invPasidRange fn)
    | 3 => s.push (.invStage2Range fn)
    | 4 => s.push (.invTables fn)
    | _ => s.invRefuse fn

def State.writeInvaddr (s : State) (fn : Nat) (v : W64) : State :=
  if (s.inv fn).busy then s else s.setInv fn { s.inv fn with addr := v }

def State.writeInvstat (s : State) (fn : Nat) (v : W64) : State :=
  if v.getLsbD 62 then s.setInv fn { s.inv fn with refused := false } else s

/-- The registers that a VF's page holds too. -/
def State.writeInv (s : State) (fn off : Nat) (v : W64) : State :=
  if off = 0x830 then s.writeInvcmd fn v
  else if off = 0x838 then s.writeInvaddr fn v
  else if off = 0x840 then s.writeInvstat fn v
  else s

def State.writeScrub (s : State) (k : Nat) (stat : Bool) (v : W64) : State :=
  let r := s.mem.scrubReg k
  if stat then
    if v.getLsbD 63 then s.setMem (s.mem.setScrubReg k { r with refused := false }) else s
  else
    let s := s.setMem (s.mem.setScrubReg k { r with region := n64 v 0 10 })
    if v.getLsbD 63 then s.push (.scrubOrder k) else s

/-- A base register's writable bits: 38:12, and 4:0. -/
def baseBits (v : W64) : W64 := v &&& 0x0000007FFFFFF01F#64

/-- PF0's registers, by offset. -/
def State.writePf (s : State) (off : Nat) (v : W64) : State :=
  match off with
  | 0x000 => s.writeCmd v
  | 0x008 => if v.getLsbD 62 then s.setCaller { s.caller with cmdRefused := false } else s
  | 0x100 => s.writeCallCfg v
  | 0x108 => s.push (.logringWrite v)
  | 0x110 => (s.setCaller { s.caller with logtail := v.extractLsb' 0 32 }).flushLog
  | 0x200 => s.writeCalctl v
  | 0x800 => s.setHost { s.host with qtbase := baseOf v }
  | 0x808 => s.writeQtctl v
  | 0x810 => s.setHost { s.host with pasidctl := baseBits v }
  | 0x820 => s.setHost { s.host with irtbase := baseOf v }
  | 0x850 => s.setHost { s.host with herrbase := baseBits v }
  | 0x858 => s.setHost { s.host with herrtail := v.extractLsb' 0 32 }
  | 0x3008 => { s with mgmt := { s.mgmt with attaddr := baseOf v } }
  | 0x3010 => s.push (.powctlWrite v)
  | _ =>
    if 0x400 ≤ off ∧ off < 0x600 then s.writeCaltab ((off - 0x400) / 8) v
    else if 0x2000 ≤ off ∧ off < 0x2080 then s.writeScrub ((off - 0x2000) / 16) (off % 16 == 8) v
    else s.writeInv 0 off v

/-! ### The MSI-X tables (R369; log 89, PRESUMED) -/

/-- Where a function's table and its pending bits stand, beyond its register page: entries of 16 bytes, and a bit a vector. -/
abbrev vecTable : Nat := 0x20000
abbrev vecBits : Nat := 0x28000

/-- A mask bit is written: a pending vector is sent once it is clear. -/
def State.maskVector (s : State) (fn vec : Nat) (mask : Bool) : State :=
  let others := fun (l : List (Nat × Nat)) => l.filter (· != (fn, vec))
  let h := s.host
  if mask then s.setHost { h with unmasked := others h.unmasked }
  else
    let s := s.setHost { h with unmasked := others h.unmasked ++ [(fn, vec)], vecPend := others h.vecPend }
    if h.vecPend.contains (fn, vec) then s.send (.msix fn vec) else s

/-- The bytes beyond the register page. -/
def beyondPage (off : Nat) : Bool := decide (vecTable ≤ off)

/-- Vector Control of an entry, its last 4 bytes. -/
def vecControl (off width : Nat) : Option Nat :=
  if vecTable ≤ off ∧ off < vecBits ∧ width = 4 ∧ off % 16 = 12 then some ((off - vecTable) / 16) else none

/-- What a read beyond the register page returns. -/
def State.readBeyond (s : State) (fn off width : Nat) : Nat :=
  match vecControl off width with
  | some vec => b2n (!s.host.unmasked.contains (fn, vec))
  | none =>
    if vecBits ≤ off ∧ off < vecBits + 256 ∧ width = 8 ∧ off % 8 = 0 then
      (List.range 64).foldl (fun n i => n + b2n (s.host.vecPend.contains (fn, 8 * (off - vecBits) + i)) * 2 ^ i) 0
    else 0

/-- What a write beyond the register page does. -/
def State.writeBeyond (s : State) (fn off width : Nat) (v : W64) : State :=
  match vecControl off width with
  | some vec => s.maskVector fn vec (v.getLsbD 0)
  | none => s

/-- A register access of the right size and place (R354). -/
def pageAccess (off width : Nat) : Bool := width == 8 && off % 8 == 0

/-- While a boot has failed only PF0 is there (R377). -/
def State.reachable (s : State) (fn : Nat) : Bool := fn == 0 || s.mgmt.booted

/-- POWCTL_WRITE (R382). -/
def execPowctlWrite (v : W64) (s : State) : Host.Outcome State Fault Refusal :=
  .next { s with mgmt := { s.mgmt with plim := max 600 (min 2200 (n64 v 48 16)) } }

/-! ### Reads -/

/-- A core's counters (R127, R271, R313). -/
def State.counterWord (s : State) (core off : Nat) : W64 :=
  let c := s.core core
  let one := fun (o : Nat) =>
    if o < 0x20 then c.siteCtr.get 0 (o / 4) else if o < 0xA0 then s.mem.quadCtr.get 0 (8 * quadId core 0 + (o - 0x20) / 4) else (0 : W32)
  (one (off + 4)) ++ (one off)

/-- A VF sees the cores on which it owns a quadrant. -/
def State.seesCore (s : State) (fn core : Nat) : Bool := fn == 0 || (List.range 4).any fun j => s.owns fn (quadId core j)

def State.readInv (s : State) (fn off : Nat) : Nat :=
  let r := s.inv fn
  if off = 0x830 then r.scope * 2 ^ 60 + (if fn = 0 then r.ten * 2 ^ 55 else 0) + r.pasid * 2 ^ 32 + r.rlog
  else if off = 0x838 then r.addr.toNat
  else if off = 0x840 then b2n r.busy * 2 ^ 63 + b2n r.refused * 2 ^ 62 + r.done.toNat
  else 0

/-- PF0's registers, by offset. -/
def State.readPf (s : State) (off : Nat) : Nat :=
  let c := s.caller
  let h := s.host
  let m := s.mgmt
  match off with
  | 0x008 => b2n c.busy * 2 ^ 63 + b2n c.cmdRefused * 2 ^ 62 + c.cmdDone.toNat
  | 0x100 => c.cfg.word.toNat
  | 0x108 => c.logbase + c.logsize
  | 0x110 => c.loghead.toNat * 2 ^ 32 + c.logtail.toNat
  | 0x118 => c.cserr.toNat * 2 ^ 32 + c.drops.toNat
  | 0x200 => b2n s.fab.refused * 2 ^ 62 + b2n s.calendarMode * 2 ^ 61 + b2n s.fab.pending.isSome * 2 ^ 60
  | 0x800 => h.qtbase
  | 0x808 => b2n h.qtRefused * 2 ^ 62 + b2n h.quotaNext.isSome * 2 ^ 61
  | 0x810 => h.pasidctl.toNat
  | 0x820 => h.irtbase
  | 0x850 => h.herrbase.toNat
  | 0x858 => h.herrhead.toNat * 2 ^ 32 + h.herrtail.toNat
  | 0x860 => h.herrdrop.toNat
  | 0x3000 => m.boot * 2 ^ 56 + m.fwver % 2 ^ 24 * 2 ^ 32 + m.leaf
  | 0x3008 => m.attaddr
  | 0x3010 => m.plim * 2 ^ 48 + m.pnow % 2 ^ 16 * 2 ^ 32 + m.throt % 2 ^ 16 * 2 ^ 16 + b2n (m.throt != 0)
  | _ =>
    if 0x400 ≤ off ∧ off < 0x600 then
      leNum ((List.range 8).map fun i => s.fab.shadow.get idleEntry (8 * ((off - 0x400) / 8) + i))
    else if 0x1000 ≤ off ∧ off < 0x1800 then (s.setstat ((off - 0x1000) / 8)).toNat
    else if 0x2000 ≤ off ∧ off < 0x2080 then
      if off % 16 = 8 then (s.mem.scrubStat ((off - 0x2000) / 16)).toNat else (s.mem.scrubReg ((off - 0x2000) / 16)).region
    else if 0x3100 ≤ off ∧ off < 0x3120 then leNum ((List.range 8).map fun i => Config.identityRoot (off - 0x3100 + i))
    else if 0x3800 ≤ off ∧ off < 0x3880 then
      let w := m.wear.get (0, 0xFFFFFFFF#32) ((off - 0x3800) / 8)
      w.1.toNat * 2 ^ 32 + w.2.toNat
    else if 0x4000 ≤ off ∧ off < 0x4800 then
      let k := s.core ((off - 0x4000) / 8)
      k.temp.toNat * 2 ^ 48 + k.droop.toNat * 2 ^ 32 + b2n (k.thermal || k.droopAlarm)
    else s.readInv 0 off

/-- What a read of a function's register page returns (R313, R354). -/
def State.readReg (s : State) (fn off width : Nat) : W64 :=
  if !s.reachable fn then 0
  else if beyondPage off then BitVec.ofNat 64 (s.readBeyond fn off width)
  else if !pageAccess off width then 0
  else if 0x10000 ≤ off ∧ off < 0x20000 then
    if s.seesCore fn ((off - 0x10000) / 0x100) then s.counterWord ((off - 0x10000) / 0x100) (off % 0x100) else 0
  else BitVec.ofNat 64 (if fn = 0 then s.readPf off else s.readInv fn off)

/-! ### Accesses (R353, R354) -/

/-- A read of `width` bytes is written as an access of width 256 + `width` (log 70, DESIGN CHOICE). -/
abbrev readCode : Nat := 256

/-- REGISTER_WRITE: a register without a behaviour of its own takes its fields; the others' steps come next.  A read returns what
stands there.  The pages are decoded on link 0 alone. -/
def execRegisterWrite (fn off width : Nat) (v : W64) (s : State) : Host.Outcome State Fault Refusal :=
  if !s.host.link0 || !s.reachable fn then .next s
  else
    let read := decide (readCode ≤ width)
    let ok := beyondPage off || pageAccess off (if read then width - readCode else width)
    let s := if read then s.send (.data (leBytes (width - readCode) (s.readReg fn off (width - readCode)).toNat)) else s
    if !ok then .next (s.hostErr 6 fn (off / 8) 0)
    else if read then .next s
    else .next (if beyondPage off then s.writeBeyond fn off width v else if fn = 0 then s.writePf off v else s.writeInv fn off v)

end Machine
end Sys2Proof
end

