-- ==== Sys2Proof/Machine/Outside.lean ====
section
/-!
DEFINITION. What the outside world does to the module (R242, R280, R333, R352, R353, R377 to R385): memory requests of hosts and
peers, snoops, links, attestation, telemetry, and the resets.
-/
namespace Sys2Proof
open Machine

namespace Machine

/-! ### Requests to device memory (R242, R280, R333, R352) -/

/-- Bytes that a request touches. -/
def reqBytes : MemReq → Nat
  | .read n => n
  | .write d => d.length

/-- Lines that the bytes of a request touch. -/
def reqLines (pa : Nat) (req : MemReq) : List Nat := ((List.range (reqBytes req)).map fun i => lineOf (pa + i)).eraseDups

/-- The host may keep a copy of the lines that it has read (R242). -/
def MemSys.hostTakes (m : MemSys) (lines : List Nat) : MemSys :=
  lines.foldl (fun m line =>
    let m := m.recallLine line
    { m with hostCopies := m.hostCopies.filter (· != line) ++ [line] }) m

/-- A request served at the home slices: a read returns the bytes as the homes hold them, a write is performed there (log 51, DEDUCED). -/
def State.serveRequest (s : State) (pa : Nat) (req : MemReq) : State :=
  match req with
  | .read n =>
    let locs := (List.range n).map fun i => Loc.phys (pa + i)
    (s.scanHome locs).send (.data (s.mem.readPa pa n))
  | .write d => s.writePa pa d

/-- A line that a tile update has locked waits for it (R288). -/
def State.requestWaits (s : State) (pa : Nat) (req : MemReq) : Bool :=
  match req with
  | .read _ => false
  | .write d => (List.range d.length).any fun i => s.mem.locked (lineOf (pa + i))

/-- A request is served from the memories as `m` has them.  Device memory ends at 2^39: a request beyond it has no home.  After a
failed boot the links carry PF0 alone (R377). -/
def State.memRequest (s : State) (pa : Nat) (req : MemReq) (m : MemSys) : Host.Outcome State Fault Refusal :=
  if 2 ^ 39 < pa + reqBytes req then .fault .noDeviceMemory
  else if !s.mgmt.booted || s.requestWaits pa req then .next s
  else .next ((s.setMem m).serveRequest pa req)

/-- HOST_MEM_REQUEST, over either link. -/
def execHostMemRequest (pa : Nat) (req : MemReq) (s : State) : Host.Outcome State Fault Refusal :=
  s.memRequest pa req (match req with
    | .read _ => s.mem.hostTakes (reqLines pa req)
    | .write _ =>
      -- the host's own copy is not back-invalidated by its own write
      { s.mem with hostCopies := s.mem.hostCopies.filter fun l => !(reqLines pa req).contains l })

/-- PEER_REQUEST of another module, over a Brinum link. -/
def execPeerRequest (_module pa : Nat) (req : MemReq) (s : State) : Host.Outcome State Fault Refusal :=
  s.memRequest pa req s.mem

/-! ### Host lines (R242) -/

/-- A line leaves the device, and the host writes bytes of its own memory from an address on. -/
def MemSys.hostWrites (m : MemSys) (pa : Nat) (bytes : List Byte) : MemSys :=
  { m with hostLines := m.hostLines.erase (lineOf pa)
           mem := (fromAddr pa bytes).foldl (fun mm kv => mm.set blankByte kv.1 kv.2) m.mem }

/-- HOST_SNOOP: the slice's line becomes shared, or leaves, with its forwarded bytes written back; the host's own bytes are then in
host memory. -/
def execHostSnoop (pa : Nat) (kind : SnoopKind) (data : List Byte) (s : State) : Host.Outcome State Fault Refusal :=
  if paSpace pa ≠ 1 then .next s
  else
    let line := lineOf pa
    let m := s.mem.dropTag line
    .next (s.setMem (match kind with
      | .share => (match m.hostLines.find line with
          | some _ => { m with hostLines := m.hostLines.put line false }
          | none => m)
      | .invalidate => (m.unhold (sliceOf pa) line).hostWrites pa data))

/-! ### Links (R353) -/

def execHostLinkDown (link : Nat) (s : State) : Host.Outcome State Fault Refusal :=
  .next (s.setHost (if link = 0 then { s.host with link0 := false } else { s.host with link1 := false }))

def execHostLinkUp (link : Nat) (s : State) : Host.Outcome State Fault Refusal :=
  .next (s.setHost (if link = 0 then { s.host with link0 := true } else { s.host with link1 := true }))

/-! ### Attestation (R379, R380) -/

abbrev maxLeaf : Nat := 2 ^ 20

/-- The first 0x90 bytes of a report, as they stand when its signature begins (log 52, DEDUCED). -/
def State.attestMessage (s : State) (ten : Nat) : List Byte :=
  s.mem.readPa s.mgmt.attaddr 32 ++ padTo 32 (Config.shake256 s.mgmt.firmware) ++
  padTo 32 (Config.shake256 s.caller.sheet.bytes) ++ padTo 32 (Config.shake256 (s.quota ten).bytes) ++
  leBytes 4 s.mgmt.fwver ++ zeros 4 ++ leBytes 8 s.cycle

/-- The signature of the report at the head begins: the leaf is used up first. -/
def State.beginAttest (s : State) : State :=
  let m := s.mgmt
  match m.attest with
  | (ten, none, _) :: rest =>
    { s with mgmt := { m with
        leaf := m.leaf + 1, boot := if m.leaf + 1 = maxLeaf ∧ m.boot = 0 then 4 else m.boot
        attest := (ten, some m.leaf, s.attestMessage ten) :: rest } }
  | _ => s

/-- Reports that wait for their signature to begin. -/
def Mgmt.unbegun (m : Mgmt) : Nat := (m.attest.filter fun a => a.2.1.isNone).length

/-- ATTESTATION_REQUEST: taken into the order of commands, or refused once the leaves are used up. -/
def execAttestationRequest (w : W64) (s : State) : Host.Outcome State Fault Refusal :=
  if !tenantWord w 0x50 || decide (maxLeaf ≤ s.mgmt.leaf + s.mgmt.unbegun) then .next s.cmdBad
  else
    .next ({ s with mgmt := { s.mgmt with attest := s.mgmt.attest ++ [(cmdTenant w, none, [])] } } : State).beginAttest.cmdOk

/-- ATTESTATION_SIGNED: the report at the head is written, with its leaf as the signature's index, and the next signature begins. -/
def execAttestationSigned (s : State) : Host.Outcome State Fault Refusal :=
  match s.mgmt.attest with
  | (_, some leaf, msg) :: rest =>
    let s := s.writePa s.mgmt.attaddr (msg ++ leBytes 4 leaf ++ padTo 2816 (Config.xmssSign leaf msg))
    .next ({ s with mgmt := { s.mgmt with attest := rest } } : State).beginAttest
  | _ => .next s

/-! ### Telemetry (R381 to R383) -/

/-- POWER_SAMPLE: the power of the last period, which the module has kept at or below PLIM, and the issue cycles withheld from now
on (R6, R382). -/
def execPowerSample (pnow throt : Nat) (s : State) : Host.Outcome State Fault Refusal :=
  .next { s with mgmt := { s.mgmt with pnow := min pnow s.mgmt.plim, throt := min throt Config.period } }

/-- Which alarms an alarm is: two bits drawn free, never neither (log 85, DESIGN CHOICE). -/
def alarmKinds (key : Nat) : Bool × Bool :=
  let w := Config.freeWord key
  (w.getLsbD 0 || !w.getLsbD 1, w.getLsbD 1)

/-- SENSOR_UPDATE. -/
def execSensorUpdate (core : Nat) (temp droop : BitVec 16) (alarm : Bool) (s : State) : Host.Outcome State Fault Refusal :=
  let k := alarmKinds s.fresh
  .next ({ s with fresh := s.fresh + 1 }.setCore core
    { s.core core with temp := temp, droop := droop, thermal := alarm && k.1, droopAlarm := alarm && k.2 })

/-- WEAR_UPDATE: rails 0 to 7, stacks 8 to 15.  One more hour is counted (log 90, DESIGN CHOICE); before 100 REMAIN reads all ones. -/
def execWearUpdate (i : Nat) (stress remain : W32) (s : State) : Host.Outcome State Fault Refusal :=
  let n := s.mgmt.hours.get 0 i + 1
  .next { s with mgmt := { s.mgmt with
    wear := s.mgmt.wear.put i (stress, if n < 100 then 0xFFFFFFFF#32 else remain), hours := s.mgmt.hours.put i n } }

/-! ### Boot and the resets (R377, R379, R384, R385) -/

/-- What the boot ROM finds: the first failure, or 0; used-up leaves read as 4 (R378, R379). -/
def bootResult (m : Mgmt) (sheet : Sheet) : Nat :=
  if !Config.xmssVerify m.firmware m.rootDigest then 1
  else if !Config.xmssVerify sheet.bytes m.rootDigest then 2
  else if m.fwver < m.floor ∨ sheet.version < m.floor then 3
  else if m.leaf = maxLeaf then 4
  else 0

/-- What a device reset leaves of the memories: what stands behind the ports, its poison and its errors. -/
def MemSys.afterReset (m : MemSys) : MemSys :=
  { MemSys.reset with
    mem := m.mem, poison := m.poison
    errs := m.errs.filter fun e => match e.1 with
      | .memory _ => true
      | _ => false }

/-- The harts start at `cs_reset` when the boot has found nothing wrong. -/
def State.boot (s : State) : State :=
  let code := bootResult s.mgmt s.caller.sheet
  { s with
    mgmt := { s.mgmt with boot := code }
    caller := { s.caller with events := if code = 0 ∨ code = 4 then [.csReset] else [] } }

/-- The management die across a reset: STRESS, REMAIN, LEAF, the floor, and what is fused or stored. -/
def Mgmt.afterReset (m : Mgmt) : Mgmt := { m with attaddr := 0, attest := [], plim := 2200, pnow := 0, throt := 0 }

/-- A device reset: everything else at its reset value; the links stay as they are, and what has left the device has left (log 53, DEDUCED). -/
def State.afterReset (s : State) (mem : MemSys) : State :=
  ({ State.reset with
      fresh := s.fresh, nextId := s.nextId, mem := mem
      caller := { Caller.reset with sheet := s.caller.sheet }
      host := { HostIf.reset with link0 := s.host.link0, link1 := s.host.link1, out := s.host.out }
      mgmt := s.mgmt.afterReset } : State).boot

/-- DEVICE_RESET. -/
def execDeviceReset (s : State) : Host.Outcome State Fault Refusal := .next (s.afterReset s.mem.afterReset)

/-- POWER_LOSS: device memory is lost as well; a leaf that has been advanced stays used. -/
def execPowerLoss (s : State) : Host.Outcome State Fault Refusal :=
  .next (s.afterReset { MemSys.reset with mem := s.mem.mem.filter fun kv => !isHbm kv.1 })

/-- A function-level reset ends a block as a fatal trap does, without a record. -/
def State.flrBlock (s : State) (b : Block) : State :=
  if !b.mode.killable then s
  else
    (s.updBlock b.uid fun x =>
      { x with fatal := some { s.blockRecord b .trap (infoOf 0 0) with fatal := false } }).drawn

/-- VF_FLR: as VFSTOP, but every block ends; then all translations of the tenant are dropped and STOPPED is cleared.  PF0's is a
device reset. -/
def execVfFlr (vf : Nat) (s : State) : Host.Outcome State Fault Refusal :=
  if vf = 0 then .next (s.afterReset s.mem.afterReset)
  else if !s.mgmt.booted then .next s
  else if !s.caller.flrs.contains vf then
    let s := s.setCaller { s.caller with
      stopped := s.caller.stopped.filter (· != vf) ++ [vf], flrs := s.caller.flrs ++ [vf] }
    .next ((s.tenantBlocks vf).foldl State.flrBlock s)
  else if !s.tenantQuiet vf then .next s
  else
    let s := s.setCaller { s.caller with flrs := s.caller.flrs.filter (· != vf) }
    .next ((s.setMem (s.mem.dropTlb fun x => x.ten == vf)).unstop vf)

end Machine
end Sys2Proof
end

