-- ==== Sys2Proof/Machine/Request.lean ====
section
/-!
DEFINITION. What blocks and cores send into the fabric (R336 to R338, R370, R374): the requests that wait to be sent, and
FLIT_INJECT.
-/
namespace Sys2Proof
open Machine

namespace Machine

/-! ### Requests that wait -/

/-- What a fragment asks: its next word, or the places that the issue of that word needs. -/
def State.fragAsks (s : State) (b : Block) (sid : Nat) (f : Frag) : List Ask :=
  if !b.issues || !f.pend.isEmpty || f.hold != .free then []
  else
    match (b.strand sid).wordAt f.pc with
    | none => s.fetchAsks b f.pc
    | some w =>
      match ({ s with cur := some { ref := { blk := b.uid, strand := sid, lane := lowest f.lanes }, word := w } } : State).ctx
          (Ctl.ofWord w) with
      | none => []
      | some x => if x.nearIssue (decodeInstr w) s then (decodeInstr w).farAsks s x else []

/-- The slots of a strand's results whose latency has passed. -/
def State.dueAsks (s : State) (b : Block) (sid : Nat) : List Ask :=
  ((b.strand sid).pendw.filter fun p => decide (p.due ≤ s.cycle)).flatMap fun p =>
    s.slotAsks b true (p.writes.filterMap fun w => match w with
      | .slot _ loc _ => some loc
      | _ => none)

/-- What an operation in flight asks beside its lanes' accesses. -/
def State.flightAsks (s : State) (b : Block) (o : Op) : List Ask :=
  (match o.kind with
    | .copy c => if s.earlierDone b o.strand o.id (oneLane c.lane) .dev then s.copyAsks b o c (s.copyGeom b c) else []
    | _ => o.asks.filter fun a => b.asked a || !s.pathTaken b o.id (sliceOf a.pa)) ++ s.resultAsks b o

/-- Everything that a block asks of the fabric now. -/
def State.wanted (s : State) (b : Block) : List Ask :=
  ((List.range b.strands.length).flatMap fun sid =>
    ((b.strand sid).frags.flatMap (s.fragAsks b sid)) ++ s.dueAsks b sid) ++
  (b.flight.flatMap (s.flightAsks b)) ++
  (match b.engine.queue with
    | o :: _ => s.engAsks b o
    | [] => [])

/-- The first of those requests that has still to be sent. -/
def State.nextAsk (s : State) (b : Block) : Option Ask := (s.wanted b).find? fun a => !s.reached b a && !b.asked a

/-- Accepted requests whose answer nothing waits for any more leave. -/
def State.dropAsks (s : State) : State :=
  { s with blocks := s.blocks.map fun b =>
      if b.flight.any Op.isRequest then
        { b with flight := b.flight.filter fun o => match o.kind.ask with
            | some a => !o.stage.isAccepted || (s.wanted b).contains a
            | none => true }
      else b }

/-! ### FLIT_INJECT -/

/-- A request as it enters the fabric; it belongs to no strand. -/
def Ask.op (a : Ask) (id : Nat) (g : Stage) : Op :=
  { id := id, strand := Config.noStrand, lanes := 0, active := 0, tok := 0, pc := 0, order := .rlx, scope := .thr, ord := false,
    stage := g, dropped := [], kind := .request a }

/-- A tenant's request from a core to an address may enter, in a slot that is the tenant's. -/
def State.entersFor (s : State) (core ten pa : Nat) (goesOn : Bool) : Bool :=
  s.mayInject core ten goesOn && !s.linkIsDown (crossing core pa)

/-- Where a request stands that enters now. -/
def State.entering (s : State) : Stage := .injected (slotOf s.cycle) s.cycle s.cycle

/-- The tenant of the flit that an injection names: that of an operation in flight that has a request to send; of the block's next
other request, for which the next free number is named; of a site request. -/
def State.flitOf (s : State) (core uid id : Nat) : Option (Nat × State) :=
  match s.opOf uid id with
  | some (b, o) =>
    if b.core != core || !s.wantsInject b o then none
    else some (b.ten, if s.entersFor core b.ten (o.targetPa.getD 0) false then
        (s.takeToken core b.ten).setStage uid o s.entering
      else s)
  | none =>
    match s.block uid with
    | some b =>
      if b.core != core || id != s.nextId then none
      else (s.nextAsk b).map fun a => (b.ten, if s.entersFor core b.ten a.pa a.goesOn then
          { (s.takeToken core b.ten).updBlock uid fun x => { x with flight := x.flight ++ [a.op s.nextId s.entering] } with
            nextId := s.nextId + 1 }
        else s)
    | none =>
      match (s.core core).siteReqs.find? fun r => r.id == id && r.stage == .waiting with
      | none => none
      | some r => some (r.via.ten, if s.entersFor core r.via.ten r.pa false then
          let s := s.takeToken core r.via.ten
          let c := s.core core
          s.setCore core { c with siteReqs := c.siteReqs.map fun q => if q.id == id then { q with stage := s.entering } else q }
        else s)

/-- FLIT_INJECT: in a slot that its class and tenant may use the request enters; otherwise the flit is dropped and the tile's
set told.  Service traffic carries nothing of an operation (log 55, DEDUCED). -/
def execFlitInject (core : Nat) (cls : FlitClass) (uid id : Nat) (s : State) : Host.Outcome State Fault Refusal :=
  if !(s.tile core).inPlay then .next s
  else if !s.slotAllows cls then .next (s.violation core)
  else
    match cls with
    | .service => .next s
    | .tenant t =>
      match s.flitOf core uid id with
      | none => .next s
      | some (ten, s') => if s.calendarMode && ten != t then .next (s.violation core) else .next s'

end Machine
end Sys2Proof
end

