-- ==== Sys2Proof/Machine/Dispatch.lean ====
section
/-!
DEFINITION. The dispatch: one arm per constructor of `Instr`, each a direct call of its meaning.
-/
namespace Sys2Proof.Machine

def exec (i : Instr) (s : State) : Host.Outcome State Fault Refusal :=
  match i with
  | .nop c f => Sys2Proof.Machine.execNop c f s
  | .bra c f => Sys2Proof.Machine.execBra c f s
  | .brxa c f => Sys2Proof.Machine.execBrxa c f s
  | .brx c f => Sys2Proof.Machine.execBrx c f s
  | .call c f => Sys2Proof.Machine.execCall c f s
  | .ret c f => Sys2Proof.Machine.execRet c f s
  | .exit c f => Sys2Proof.Machine.execExit c f s
  | .trap c f => Sys2Proof.Machine.execTrap c f s
  | .bkpt c f => Sys2Proof.Machine.execBkpt c f s
  | .tret c f => Sys2Proof.Machine.execTret c f s
  | .nap c f => Sys2Proof.Machine.execNap c f s
  | .srd c f => Sys2Proof.Machine.execSrd c f s
  | .swr c f => Sys2Proof.Machine.execSwr c f s
  | .spawn c f => Sys2Proof.Machine.execSpawn c f s
  | .trace c f => Sys2Proof.Machine.execTrace c f s
  | .iadd c f => Sys2Proof.Machine.execIadd c f s
  | .isub c f => Sys2Proof.Machine.execIsub c f s
  | .imul c f => Sys2Proof.Machine.execImul c f s
  | .imulh c f => Sys2Proof.Machine.execImulh c f s
  | .imad c f => Sys2Proof.Machine.execImad c f s
  | .imin c f => Sys2Proof.Machine.execImin c f s
  | .imax c f => Sys2Proof.Machine.execImax c f s
  | .land c f => Sys2Proof.Machine.execAnd c f s
  | .lor c f => Sys2Proof.Machine.execOr c f s
  | .lxor c f => Sys2Proof.Machine.execXor c f s
  | .shl c f => Sys2Proof.Machine.execShl c f s
  | .shr c f => Sys2Proof.Machine.execShr c f s
  | .rot c f => Sys2Proof.Machine.execRot c f s
  | .bfx c f => Sys2Proof.Machine.execBfx c f s
  | .bfi c f => Sys2Proof.Machine.execBfi c f s
  | .popc c f => Sys2Proof.Machine.execPopc c f s
  | .clz c f => Sys2Proof.Machine.execClz c f s
  | .brev c f => Sys2Proof.Machine.execBrev c f s
  | .sel c f => Sys2Proof.Machine.execSel c f s
  | .icmp c f => Sys2Proof.Machine.execIcmp c f s
  | .lea c f => Sys2Proof.Machine.execLea c f s
  | .mov c f => Sys2Proof.Machine.execMov c f s
  | .movi c f => Sys2Proof.Machine.execMovi c f s
  | .pand c f => Sys2Proof.Machine.execPand c f s
  | .pmov c f => Sys2Proof.Machine.execPmov c f s
  | .fadd c f => Sys2Proof.Machine.execFadd c f s
  | .fmul c f => Sys2Proof.Machine.execFmul c f s
  | .ffma c f => Sys2Proof.Machine.execFfma c f s
  | .fmin c f => Sys2Proof.Machine.execFmin c f s
  | .fmax c f => Sys2Proof.Machine.execFmax c f s
  | .fcmp c f => Sys2Proof.Machine.execFcmp c f s
  | .fclass c f => Sys2Proof.Machine.execFclass c f s
  | .frcp c f => Sys2Proof.Machine.execFrcp c f s
  | .frsq c f => Sys2Proof.Machine.execFrsq c f s
  | .fsqrt c f => Sys2Proof.Machine.execFsqrt c f s
  | .fexp2 c f => Sys2Proof.Machine.execFexp2 c f s
  | .flog2 c f => Sys2Proof.Machine.execFlog2 c f s
  | .fsin c f => Sys2Proof.Machine.execFsin c f s
  | .fcos c f => Sys2Proof.Machine.execFcos c f s
  | .ftanh c f => Sys2Proof.Machine.execFtanh c f s
  | .frnd c f => Sys2Proof.Machine.execFrnd c f s
  | .fscale c f => Sys2Proof.Machine.execFscale c f s
  | .fdot2 c f => Sys2Proof.Machine.execFdot2 c f s
  | .cvt c f => Sys2Proof.Machine.execCvt c f s
  | .qsx c f => Sys2Proof.Machine.execQsx c f s
  | .qscale c f => Sys2Proof.Machine.execQscale c f s
  | .dqsx c f => Sys2Proof.Machine.execDqsx c f s
  | .pack c f => Sys2Proof.Machine.execPack c f s
  | .unpack c f => Sys2Proof.Machine.execUnpack c f s
  | .shfl c f => Sys2Proof.Machine.execShfl c f s
  | .matchAny c f => Sys2Proof.Machine.execMatchAny c f s
  | .vote c f => Sys2Proof.Machine.execVote c f s
  | .redux c f => Sys2Proof.Machine.execRedux c f s
  | .scan c f => Sys2Proof.Machine.execScan c f s
  | .bcast c f => Sys2Proof.Machine.execBcast c f s
  | .lda c f => Sys2Proof.Machine.execLda c f s
  | .sta c f => Sys2Proof.Machine.execSta c f s
  | .ldg c f => Sys2Proof.Machine.execLdg c f s
  | .stg c f => Sys2Proof.Machine.execStg c f s
  | .lds c f => Sys2Proof.Machine.execLds c f s
  | .sts c f => Sys2Proof.Machine.execSts c f s
  | .ldp c f => Sys2Proof.Machine.execLdp c f s
  | .stp c f => Sys2Proof.Machine.execStp c f s
  | .ldk c f => Sys2Proof.Machine.execLdk c f s
  | .ldb c f => Sys2Proof.Machine.execLdb c f s
  | .pref c f => Sys2Proof.Machine.execPref c f s
  | .cpa c f => Sys2Proof.Machine.execCpa c f s
  | .cpt c f => Sys2Proof.Machine.execCpt c f s
  | .fetchb c f => Sys2Proof.Machine.execFetchb c f s
  | .codeinv c f => Sys2Proof.Machine.execCodeinv c f s
  | .siteclr c f => Sys2Proof.Machine.execSiteclr c f s
  | .siteclrPin c f => Sys2Proof.Machine.execSiteclrPin c f s
  | .atoma c f => Sys2Proof.Machine.execAtoma c f s
  | .reda c f => Sys2Proof.Machine.execReda c f s
  | .atomg c f => Sys2Proof.Machine.execAtomg c f s
  | .atoms c f => Sys2Proof.Machine.execAtoms c f s
  | .redg c f => Sys2Proof.Machine.execRedg c f s
  | .reds c f => Sys2Proof.Machine.execReds c f s
  | .cvset c f => Sys2Proof.Machine.execCvset c f s
  | .barinit c f => Sys2Proof.Machine.execBarinit c f s
  | .barexpect c f => Sys2Proof.Machine.execBarexpect c f s
  | .bararrive c f => Sys2Proof.Machine.execBararrive c f s
  | .barwait c f => Sys2Proof.Machine.execBarwait c f s
  | .bartry c f => Sys2Proof.Machine.execBartry c f s
  | .stginit c f => Sys2Proof.Machine.execStginit c f s
  | .stgwait c f => Sys2Proof.Machine.execStgwait c f s
  | .stgarrive c f => Sys2Proof.Machine.execStgarrive c f s
  | .fence c f => Sys2Proof.Machine.execFence c f s
  | .ctxst c f => Sys2Proof.Machine.execCtxst c f s
  | .ctxld c f => Sys2Proof.Machine.execCtxld c f s
  | .svdone c f => Sys2Proof.Machine.execSvdone c f s
  | .fenter c f => Sys2Proof.Machine.execFenter c f s
  | .fleave c f => Sys2Proof.Machine.execFleave c f s
  | .bfenter c f => Sys2Proof.Machine.execBfenter c f s
  | .bfleave c f => Sys2Proof.Machine.execBfleave c f s
  | .cfenter c f => Sys2Proof.Machine.execCfenter c f s
  | .cfleave c f => Sys2Proof.Machine.execCfleave c f s
  | .fsync c f => Sys2Proof.Machine.execFsync c f s
  | .fatom c f => Sys2Proof.Machine.execFatom c f s
  | .dspr c f => Sys2Proof.Machine.execDspr c f s
  | .dspw c f => Sys2Proof.Machine.execDspw c f s
  | .mzero c f => Sys2Proof.Machine.execMzero c f s
  | .ldstat c f => Sys2Proof.Machine.execLdstat c f s
  | .pswap c f => Sys2Proof.Machine.execPswap c f s
  | .mstream c f => Sys2Proof.Machine.execMstream c f s
  | .accld c f => Sys2Proof.Machine.execAccld c f s
  | .accst c f => Sys2Proof.Machine.execAccst c f s
  | .accchk c f => Sys2Proof.Machine.execAccchk c f s
  | .accmov c f => Sys2Proof.Machine.execAccmov c f s
  | .accplane c f => Sys2Proof.Machine.execAccplane c f s
  | .miter c f => Sys2Proof.Machine.execMiter c f s
  | .kld c f => Sys2Proof.Machine.execKld c f s
  | .kmov c f => Sys2Proof.Machine.execKmov c f s
  | .illegalWord w => Sys2Proof.Machine.execIllegalWord w s
  | .laterLevelOpcode w => Sys2Proof.Machine.execLaterLevelOpcode w s
  | .instructionFetch f => Sys2Proof.Machine.execInstructionFetch f s
  | .pendingTrapDelivery f => Sys2Proof.Machine.execPendingTrapDelivery f s
  | .resultWriteback blk strand id => Sys2Proof.Machine.execResultWriteback blk strand id s
  | .stallExpiry f => Sys2Proof.Machine.execStallExpiry f s
  | .napExpiry f => Sys2Proof.Machine.execNapExpiry f s
  | .siteResolve core id => Sys2Proof.Machine.execSiteResolve core id s
  | .loadDataReturn blk op => Sys2Proof.Machine.execLoadDataReturn blk op s
  | .storePerformed blk op => Sys2Proof.Machine.execStorePerformed blk op s
  | .atomicHomeStep blk op => Sys2Proof.Machine.execAtomicHomeStep blk op s
  | .copyGranule blk op => Sys2Proof.Machine.execCopyGranule blk op s
  | .barwaitRelease f => Sys2Proof.Machine.execBarwaitRelease f s
  | .stgwaitRelease f => Sys2Proof.Machine.execStgwaitRelease f s
  | .fenceComplete f => Sys2Proof.Machine.execFenceComplete f s
  | .engineOpComplete blk => Sys2Proof.Machine.execEngineOpComplete blk s
  | .miterIteration blk => Sys2Proof.Machine.execMiterIteration blk s
  | .blockEnd blk => Sys2Proof.Machine.execBlockEnd blk s
  | .fatalTrap blk => Sys2Proof.Machine.execFatalTrap blk s
  | .csReset => Sys2Proof.Machine.execCsReset s
  | .csDoorbell ten queue => Sys2Proof.Machine.execCsDoorbell ten queue s
  | .csSpawn blk op => Sys2Proof.Machine.execCsSpawn blk op s
  | .csBlkend core quad slot => Sys2Proof.Machine.execCsBlkend core quad slot s
  | .csLost core quad slot => Sys2Proof.Machine.execCsLost core quad slot s
  | .csSaved core quad slot kind => Sys2Proof.Machine.execCsSaved core quad slot kind s
  | .csEmul f e => Sys2Proof.Machine.execCsEmul f e s
  | .csSitout core => Sys2Proof.Machine.execCsSitout core s
  | .csTick ten => Sys2Proof.Machine.execCsTick ten s
  | .placementDecision => Sys2Proof.Machine.execPlacementDecision s
  | .stopDecision blk reason => Sys2Proof.Machine.execStopDecision blk reason s
  | .drainTimeout blk => Sys2Proof.Machine.execDrainTimeout blk s
  | .saveBudgetExpiry blk => Sys2Proof.Machine.execSaveBudgetExpiry blk s
  | .forcedSave blk => Sys2Proof.Machine.execForcedSave blk s
  | .restore saved core quad => Sys2Proof.Machine.execRestore saved core quad s
  | .queuePortWrite fn port pasid dmwr data => Sys2Proof.Machine.execQueuePortWrite fn port pasid dmwr data s
  | .callSheetLoad image => Sys2Proof.Machine.execCallSheetLoad image s
  | .qsync word => Sys2Proof.Machine.execQsync word s
  | .vfstop word => Sys2Proof.Machine.execVfstop word s
  | .vfresume word => Sys2Proof.Machine.execVfresume word s
  | .attestationRequest word => Sys2Proof.Machine.execAttestationRequest word s
  | .attestationSigned => Sys2Proof.Machine.execAttestationSigned s
  | .stop word => Sys2Proof.Machine.execStop word s
  | .step word => Sys2Proof.Machine.execStep word s
  | .resume word => Sys2Proof.Machine.execResume word s
  | .kill word => Sys2Proof.Machine.execKill word s
  | .setout word => Sys2Proof.Machine.execSetout word s
  | .readmit word => Sys2Proof.Machine.execReadmit word s
  | .retire word => Sys2Proof.Machine.execRetire word s
  | .logringWrite v => Sys2Proof.Machine.execLogringWrite v s
  | .calctlLoad => Sys2Proof.Machine.execCalctlLoad s
  | .calendarCommit => Sys2Proof.Machine.execCalendarCommit s
  | .qtctlLoad => Sys2Proof.Machine.execQtctlLoad s
  | .invTenant fn => Sys2Proof.Machine.execInvTenant fn s
  | .invPasid fn => Sys2Proof.Machine.execInvPasid fn s
  | .invPasidRange fn => Sys2Proof.Machine.execInvPasidRange fn s
  | .invStage2Range fn => Sys2Proof.Machine.execInvStage2Range fn s
  | .invTables fn => Sys2Proof.Machine.execInvTables fn s
  | .invalidationDone fn => Sys2Proof.Machine.execInvalidationDone fn s
  | .scrubOrder stack => Sys2Proof.Machine.execScrubOrder stack s
  | .scrubStep stack region port => Sys2Proof.Machine.execScrubStep stack region port s
  | .spownWrite core v => Sys2Proof.Machine.execSpownWrite core v s
  | .bankZeroDone core bank => Sys2Proof.Machine.execBankZeroDone core bank s
  | .powctlWrite v => Sys2Proof.Machine.execPowctlWrite v s
  | .registerWrite fn offset width v => Sys2Proof.Machine.execRegisterWrite fn offset width v s
  | .powerSample pnow throt => Sys2Proof.Machine.execPowerSample pnow throt s
  | .sensorUpdate core temp droop alarm => Sys2Proof.Machine.execSensorUpdate core temp droop alarm s
  | .wearUpdate k stress remain => Sys2Proof.Machine.execWearUpdate k stress remain s
  | .tokenRefill => Sys2Proof.Machine.execTokenRefill s
  | .tlbWalk core quad ten pasid va acc => Sys2Proof.Machine.execTlbWalk core quad ten pasid va acc s
  | .dirtyLogPoll ten => Sys2Proof.Machine.execDirtyLogPoll ten s
  | .flitInject core cls blk op => Sys2Proof.Machine.execFlitInject core cls blk op s
  | .flitReplay blk op again => Sys2Proof.Machine.execFlitReplay blk op again s
  | .requestAccept slice => Sys2Proof.Machine.execRequestAccept slice s
  | .ownershipGrant quad line => Sys2Proof.Machine.execOwnershipGrant quad line s
  | .recallLine line => Sys2Proof.Machine.execRecall line s
  | .mergingFill quad line => Sys2Proof.Machine.execMergingFill quad line s
  | .l1Writeback quad line => Sys2Proof.Machine.execL1Writeback quad line s
  | .tileUpdateLock blk => Sys2Proof.Machine.execTileUpdateLock blk s
  | .tileUpdateApply blk => Sys2Proof.Machine.execTileUpdateApply blk s
  | .beatSend core => Sys2Proof.Machine.execBeatSend core s
  | .beatReceive core dir beat => Sys2Proof.Machine.execBeatReceive core dir beat s
  | .windowEnd core dir => Sys2Proof.Machine.execWindowEnd core dir s
  | .suspicionExpiry core dir => Sys2Proof.Machine.execSuspicionExpiry core dir s
  | .sitOutNotice slice core => Sys2Proof.Machine.execSitOutNotice slice core s
  | .satOutNack kind line core => Sys2Proof.Machine.execSatOutNack kind line core s
  | .selftestDone core pass => Sys2Proof.Machine.execSelftestDone core pass s
  | .hostMemRequest pa req => Sys2Proof.Machine.execHostMemRequest pa req s
  | .hostSnoop pa kind data => Sys2Proof.Machine.execHostSnoop pa kind data s
  | .peerRequest module pa req => Sys2Proof.Machine.execPeerRequest module pa req s
  | .deviceReset => Sys2Proof.Machine.execDeviceReset s
  | .vfFlr vf => Sys2Proof.Machine.execVfFlr vf s
  | .powerLoss => Sys2Proof.Machine.execPowerLoss s
  | .softError loc correctable => Sys2Proof.Machine.execSoftError loc correctable s
  | .coreStopped core how => Sys2Proof.Machine.execCoreStopped core how s
  | .hostLinkDown link => Sys2Proof.Machine.execHostLinkDown link s
  | .hostLinkUp link => Sys2Proof.Machine.execHostLinkUp link s
  | .linkRetrainComplete dieA dieB => Sys2Proof.Machine.execLinkRetrainComplete dieA dieB s
  | .bankUpdateDone blk op => Sys2Proof.Machine.execBankUpdateDone blk op s
  | .codeinvDone blk op => Sys2Proof.Machine.execCodeinvDone blk op s
  | .siteclrWordHandled blk op => Sys2Proof.Machine.execSiteclrWordHandled blk op s
  | .prefDone blk op => Sys2Proof.Machine.execPrefDone blk op s
  | .traceRecordDone blk op => Sys2Proof.Machine.execTraceRecordDone blk op s

end Sys2Proof.Machine
end

