-- ==== Sys2Proof/Machine/Policy.lean ====
section
/-!
DEFINITION. What happens next (R44, R47, R76, R105, R309, R341, R370, R374, R381, R382): the order in which one deterministic
machine takes the steps that the spec lets happen, the issue of a word, the passing of a cycle, and how a program word is put in
place.
-/
namespace Sys2Proof
open Machine

namespace Machine

/-! ### Results that are due (R76) -/

/-- A block that takes no further steps of its own on its core. -/
def Mode.gone : Mode → Bool
  | .lost _ => true
  | .leaving _ => true
  | .husk => true
  | _ => false

/-- A result of a strand whose latency has passed. -/
def State.dueOf (s : State) (b : Block) (sid : Nat) : Option Instr :=
  ((b.strand sid).pendw.find? fun p => decide (p.due ≤ s.cycle) && p.writes.all (s.slotWriteReady b sid p.id)).map fun p =>
    .resultWriteback b.uid sid p.id

def strandIds (b : Block) : List Nat := List.range b.strands.length

def State.dueResult (s : State) : Option Instr :=
  s.blocks.findSome? fun b => if b.mode.gone then none else (strandIds b).findSome? fun sid => s.dueOf b sid

/-! ### Who issues (R44, R47, R382) -/

structure Pick where
  blk : Block
  sid : Nat
  frag : Frag
deriving DecidableEq, Repr

/-- The cycle is an issue cycle of a quadrant that has not issued in it.  Power capping withholds the first THROT cycles of each
period of 4,096, in every quadrant (R47, R382; log 73, DESIGN CHOICE). -/
def State.mayIssue (s : State) (core quad : Nat) : Bool :=
  decide (s.mgmt.throt ≤ s.cycle % Config.period) && (match (s.core core).lastIssue.find quad with
    | some t => decide (t < s.cycle)
    | none => true)

/-- The strands of a quadrant, in ascending slot and number. -/
def State.strandsOf (s : State) (core quad : Nat) : List (Block × Nat) :=
  (List.range 4).flatMap fun slot => ((s.quadBlocks core quad).filter fun b => b.slot == slot).flatMap fun b =>
    (strandIds b).map fun sid => (b, sid)

/-- R47: of the strands with a ready fragment the one that issued least recently, the first among equals. -/
def leastRecent (ps : List Pick) : Option Pick :=
  ps.foldl (fun best p => match best with
    | some x => if (p.blk.strand p.sid).last < (x.blk.strand x.sid).last then some p else some x
    | none => some p) none

/-- The strand that a quadrant issues from (R46).  Strands at one PC never issue together, which R48 permits (log 74, DESIGN
CHOICE). -/
def State.pickQuad (s : State) (core quad : Nat) : Option Pick :=
  if !s.mayIssue core quad then none
  else
    leastRecent ((s.strandsOf core quad).filterMap fun bs =>
      if bs.1.mode.gone then none else (s.pickIn bs.1 bs.2).map fun f => { blk := bs.1, sid := bs.2, frag := f })

/-- The first quadrant that issues. -/
def State.pickIssue (s : State) : Option Pick :=
  ((s.blocks.map fun b => (b.core, b.quad)).eraseDups).findSome? fun q => s.pickQuad q.1 q.2

def Pick.ref (p : Pick) : FragRef := { blk := p.blk.uid, strand := p.sid, lane := lowest p.frag.lanes }

/-- An outcome's state with nothing issuing. -/
def settled (o : Host.Outcome State Fault Refusal) : Host.Outcome State Fault Refusal :=
  match o with
  | .next t => .next { t with cur := none }
  | .fault r => .fault r
  | .refused r => .refused r

/-- The word of a fragment issues: it is decoded and its instruction runs. -/
def issueWord (s : State) (r : FragRef) (w : InstrWord) : Host.Outcome State Fault Refusal :=
  settled (exec (decodeInstr w) { s with cur := some { ref := r, word := w } })

/-- A fragment's turn: a pending trap, or its next word, fetched first where it has not been. -/
def runFrag (s : State) (p : Pick) : Host.Outcome State Fault Refusal :=
  match p.frag.pend with
  | _ :: _ => exec (.pendingTrapDelivery p.ref) s
  | [] =>
    match (p.blk.strand p.sid).wordAt p.frag.pc with
    | some w => issueWord s p.ref w
    | none =>
      match exec (.instructionFetch p.ref) s with
      | .next t =>
        match (t.strand p.blk.uid p.sid).wordAt p.frag.pc with
        | some w => issueWord t p.ref w
        | none => .next t
      | o => o

/-! ### Steps of a block's own work -/

/-- The next step of an operation in flight, when there is one; a closed gate lets none go on (R343). -/
def State.opStep (s : State) (b : Block) (o : Op) : Option Instr :=
  if !(s.tile b.core).inPlay then none else
  let when_ := fun (p : Bool) (i : Instr) => if p then some i else none
  let pa := o.targetPa.getD 0
  let first := fun (h : Option (Block × Op)) (n : Nat) => match h with
    | some h => when_ (h.1.uid == b.uid && h.2.id == o.id) (.requestAccept n)
    | none => none
  let onTheWay := match o.stage with
    | .waiting =>
      when_ (s.wantsInject b o && s.maySend b.core b.ten pa false)
        (.flitInject b.core (.tenant b.ten) b.uid o.id)
    | .atPort _ => first (s.headAtPort (portOf pa)) (128 + portOf pa)
    | _ => first (s.headAt (sliceOf pa)) (sliceOf pa)
  match o.kind with
  | .load .. => if (s.nextAcc b o).isSome then some (.loadDataReturn b.uid o.id) else onTheWay
  | .store .. => if (s.nextAcc b o).isSome then some (.storePerformed b.uid o.id) else onTheWay
  | .atomic .. => if (s.nextAcc b o).isSome then some (.atomicHomeStep b.uid o.id) else onTheWay
  | .copy c =>
    when_ (s.earlierDone b o.strand o.id (oneLane c.lane) .dev && s.inCopySlots b o && !s.copyWaits b c (s.copyGeom b c) &&
      (s.copyAsks b o c (s.copyGeom b c)).all (s.reached b)) (.copyGranule b.uid o.id)
  | .bar .. => when_ (s.barReady b o) (.bankUpdateDone b.uid o.id)
  | .bartry .. => when_ (s.barReady b o) (.bankUpdateDone b.uid o.id)
  | .spawn _ ((L, _, q) :: _) _ =>
    when_ (s.mgmt.booted && s.earlierDone b o.strand o.id (oneLane L) .dev && (s.hasQueue b.ten q.toNat || s.mayDecide))
      (.csSpawn b.uid o.id)
  | .spawn _ [] _ => none
  | .trace _ => some (.traceRecordDone b.uid o.id)
  | .pref _ _ => when_ (s.answers b o) (.prefDone b.uid o.id)
  | .codeinv _ => when_ (s.answers b o) (.codeinvDone b.uid o.id)
  | .siteclr _ words => when_ ((words.head?.all fun w => !s.mem.locked (lineOf w.1)) && s.answers b o) (.siteclrWordHandled b.uid o.id)
  | .ctxst bytes => when_ (s.answers b o && s.bytesReady b o.strand o.id o.active true (bytes.map (·.1))) (.storePerformed b.uid o.id)
  | .ctxld _ _ locs => when_ (s.answers b o && s.bytesReady b o.strand o.id o.active false (locs.map (·.1))) (.loadDataReturn b.uid o.id)
  | .request _ => onTheWay

/-- A MITER goes on: it runs, or what comes to rest must finish first. -/
def Block.miterRuns (b : Block) : Bool :=
  b.fatal.isSome || (match b.mode with
    | .running => true
    | .draining .. => true
    | .preempt .. => true
    | .coop .. => !b.allMarked
    | .saving .. => !b.engineRests
    | .breakpoint _ => !b.engineRests
    | .stepping _ _ _ _ fired _ => fired && !b.engineRests
    | _ => false)

/-- The next step of the engine. -/
def State.engineStep (s : State) (b : Block) : Option Instr :=
  if (s.tile b.core).halts then none
  else
    match b.engine.queue with
    | [] => none
    | o :: _ =>
      if o.miter?.isSome then (if b.miterRuns then some (.miterIteration b.uid) else none)
      else
        match s.needsLocks b o.cap with
        | none => if s.engReady b o then some (.engineOpComplete b.uid) else none
        | some f =>
          match s.toLock b o f with
          | .error _ => some (.tileUpdateLock b.uid)
          | .ok [] => some (.tileUpdateApply b.uid)
          | .ok (l :: _) => if s.mayLock b o l then some (.tileUpdateLock b.uid) else none

/-- What ends a fragment's hold, STALL or NAP, or fetches its word ahead. -/
def State.fragStep (s : State) (b : Block) (sid : Nat) (f : Frag) : Option Instr :=
  let r : FragRef := { blk := b.uid, strand := sid, lane := lowest f.lanes }
  let passed := fun (t : Option Nat) => match t with
    | some t => decide (t ≤ s.cycle)
    | none => false
  if passed f.stall then some (.stallExpiry r)
  else if passed f.nap then some (.napExpiry r)
  else
    match f.hold with
    | .barwait a ph _ =>
      match s.scratchLocs b a 16 with
      | some (l :: _) => if s.mem.anyPoison (l.span 16) || (s.barAt l).done ph.toNat then some (.barwaitRelease r) else none
      | _ => none
    | .stgwait a ph inv _ =>
      match s.scratchLocs b a 16 with
      | some (l :: _) =>
        if s.mem.anyPoison (l.span 16) || (((s.barAt l).phase % 2 == 1) != ph) != inv then some (.stgwaitRelease r) else none
      | _ => none
    | .fence ws => if ws.all (s.fenceDone b sid) then some (.fenceComplete r) else none
    | .free =>
      if b.issues && f.pend.isEmpty && ((b.strand sid).wordAt f.pc).isNone && (s.peekWord b f.pc).isSome && !s.fetchWaits b f.pc &&
          !(s.tile b.core).halts then some (.instructionFetch r)
      else none
    | _ => none

/-- A request beside those of the lanes' accesses that may enter the fabric. -/
def State.askStep (s : State) (b : Block) : Option Instr :=
  if !(s.tile b.core).inPlay then none
  else
    match s.nextAsk b with
    | some a => if s.maySend b.core b.ten a.pa a.goesOn then some (.flitInject b.core (.tenant b.ten) b.uid s.nextId) else none
    | none => none

/-- Whether a free save slot, or an error of the pool, lets a decision act. -/
def State.slotsAct (s : State) (ten q n : Nat) : Bool :=
  let f := s.slotsFree ten q n
  f.2 || (f.1.caller.dropped.contains (ten, q) && !s.caller.dropped.contains (ten, q))

/-- A drain that has run past its limit, when there are slots for the save. -/
def State.drainStep (s : State) (b : Block) : Option Instr :=
  match b.drain with
  | some (since, _) =>
    if decide (since + 256 * s.caller.cfg.drainlim ≤ s.cycle) && b.fatal.isNone && !b.over && s.mayStop b && s.stopReady b.uid &&
        s.slotsAct b.ten b.qnum (slotsOf b * max b.hdr.cluster 1) then some (.drainTimeout b.uid)
    else none
  | none => none

/-- What the caller does about a block in its mode. -/
def State.modeStep (s : State) (b : Block) : Option Instr :=
  match b.mode with
  | .preempt .. => if b.coopRests then some (.stopDecision b.uid 0) else none
  | .draining .. => s.drainStep b
  | .debug _ => s.drainStep b
  | .coop _ _ deadline _ =>
    if b.allMarked then (if s.phaseRests b then some (.saveBudgetExpiry b.uid) else none)
    else
      match deadline with
      | some d => if d ≤ s.cycle ∧ s.mayForce then some (.saveBudgetExpiry b.uid) else none
      | none => none
  | .saving .. => if s.atRest b then some (.forcedSave b.uid) else none
  | .breakpoint _ => if s.atRest b && s.slotsAct b.ten b.qnum 1 then some (.forcedSave b.uid) else none
  | .stepping _ _ _ _ fired _ => if fired && s.atRest b then some (.forcedSave b.uid) else none
  | .parting _ => if s.matesBusy b then none else some (.forcedSave b.uid)
  | _ => none

/-- A block's end, or its fatal trap. -/
def State.endStep (s : State) (b : Block) : Option Instr :=
  if b.fatal.isSome then (if b.mode.killable && s.allDone b then some (.fatalTrap b.uid) else none)
  else if b.mode.canEnd && b.over && b.noMark && s.allDone b then some (.blockEnd b.uid)
  else none

def State.blockStep (s : State) (b : Block) : Option Instr :=
  if b.mode.gone then none
  else
    (b.flight.findSome? fun o => s.opStep b o).orElse fun _ => (s.engineStep b).orElse fun _ =>
      ((strandIds b).findSome? fun sid => (b.strand sid).frags.findSome? fun f => s.fragStep b sid f).orElse fun _ =>
        (s.askStep b).orElse fun _ => (s.endStep b).orElse fun _ => s.modeStep b

/-! ### Steps of the memories and the fabric -/

/-- An ownership request that its home can grant. -/
def State.grantStep (s : State) : Option Instr :=
  if s.slotAllows .service then
    s.mem.l1.findSome? fun l => if s.mem.wantsGrant l.quad l.line then some (.ownershipGrant l.quad l.line) else none
  else none

/-- A sit-out notice, or a queued write-back, that a service slot takes. -/
def State.serviceStep (s : State) : Option Instr :=
  if s.slotAllows .service then
    match s.fab.notices.find? fun n => !s.endUpdates.lastWaits n.1 n.2 with
    | some n => some (.sitOutNotice n.1 n.2)
    | none => s.mem.wbq.findSome? fun kv => match kv.2 with
      | l :: _ =>
        let port := portOf (l * lineBytes)
        if (s.headAtPort port).isNone then some (.requestAccept (128 + port)) else none
      | [] => none
  else none

/-- The next step of a site request of a core. -/
def State.siteStep (s : State) (core : Nat) (q : SiteReq) : Option Instr :=
  if s.siteArrived q then (if s.mem.locked (lineOf q.pa) then none else some (.siteResolve core q.id))
  else if q.stage == .waiting && (s.tile core).inPlay && s.maySend core q.via.ten q.pa false then
    -- a number that no block has
    some (.flitInject core (.tenant q.via.ten) s.nextId q.id)
  else none

/-- Bank handovers and site requests. -/
def State.coreStep (s : State) : Option Instr :=
  s.cores.findSome? fun kv =>
    match kv.2.zeroing with
    | bank :: _ => some (.bankZeroDone kv.1 bank)
    | [] => kv.2.siteReqs.findSome? (s.siteStep kv.1)

/-- A flit that is sent again. -/
def State.replayStep (s : State) : Option Instr :=
  s.fab.replays.findSome? fun r =>
    if r.2.2 ≤ s.cycle then
      match s.opIn r.1 r.2.1 with
      | none => none
      | some (b, o) => match o.underWay, crossing b.core (o.targetPa.getD 0) with
        | true, some _ => some (.flitReplay r.1 r.2.1 false)
        | _, _ => none
    else none

/-! ### Steps of the caller and of the management -/

/-- A command that goes on until what it waits for has ended. -/
def State.commandStep (s : State) : Option Instr :=
  let c := s.caller
  ((c.vfstops.find? s.tenantQuiet).map fun t =>
      Instr.vfstop (BitVec.ofNat 64 (0x40 * 2 ^ 56 + t * 2 ^ 51))).orElse fun _ =>
    ((c.flrs.find? s.tenantQuiet).map Instr.vfFlr).orElse fun _ =>
    (match c.loading with
      | some (im, _) => if s.blocks.any Block.busyWithCaller then none else some (Instr.callSheetLoad im)
      | none => none).orElse fun _ =>
    (match s.host.quotaNext with
      | some qt =>
        if s.departing.isEmpty && (s.fab.table == buildCalendar qt || s.fab.pending != some (buildCalendar qt)) then
          some Instr.qtctlLoad
        else none
      | none => none).orElse fun _ =>
    (s.host.inv.findSome? fun (kv : Nat × InvReg) =>
      if kv.2.busy && !s.invWaits kv.2 (kv.2.tenant kv.1) then some (Instr.invalidationDone kv.1) else none).orElse fun _ =>
    match s.mgmt.attest with
    | (_, some _, _) :: _ => some Instr.attestationSigned
    | _ => none

/-- Whether a placement decision would act. -/
def State.placeStep (s : State) : Option Instr :=
  if s.mayDecide && (s.brokenQueue.isSome || !s.caller.doorbells.isEmpty ||
      (match s.chooseQueue s.eligible with
        | some e => s.logsWork e
        | none => s.wantsBanks.isSome)) then
    some .placementDecision
  else none

/-- Records of the decisions that an event's handling may take (R293, R311). -/
def recordsOf : Instr → Nat
  | .csBlkend _ _ _ => 1
  | .csLost _ _ _ => 2
  | _ => 0

/-- The first event that may be handled: decisions wait under HALT and for log space (R295, R312), a sit-out for the slices to take
their notices (R347). -/
def State.nextEvent (s : State) : Option Instr :=
  s.caller.events.find? fun e => (recordsOf e == 0 || s.mayDecideN (recordsOf e)) && (match e with
    | .csSitout core => !s.fab.notices.any fun n => n.2 == core
    | _ => true)

/-- The first stop that can be decided. -/
def State.nextStop (s : State) : Option (Nat × Nat) :=
  s.caller.stops.find? fun r => s.stopReady r.1 && (match s.block r.1 with
    | some b => s.mayStop b && (!(s.runningMates b).isEmpty || b.mode == .running || (s.huskSlots b).2)
    | none => true)

/-- The caller's traffic goes: in service slots (R336), and with a link to the host up (R353; log 86, DEDUCED). -/
def State.callerGoes (s : State) : Bool := s.mgmt.booted && s.slotAllows .service && (s.host.link0 || s.host.link1)

/-- The next step of the caller: an event, a command under way, a stop, a placement. -/
def State.callerStep (s : State) : Option (Instr × State) :=
  if !s.callerGoes then none
  else
    match s.nextEvent with
    | some e => some (e, s.setCaller { s.caller with events := s.caller.events.erase e })
    | none =>
      match s.commandStep with
      | some i => some (i, s)
      | none =>
        match s.nextStop with
        | some r => some (.stopDecision r.1 r.2, s.setCaller { s.caller with stops := s.caller.stops.erase r })
        | none => s.placeStep.map fun i => (i, s)

/-- What happens beside issue: the blocks' work, the memories, the caller (log 14, DESIGN CHOICE). -/
def State.elsewhere (s : State) : Option (Instr × State) :=
  if !s.mgmt.booted then none
  else
  ((s.blocks.findSome? fun b => s.blockStep b).map fun i => (i, s)).orElse fun _ =>
    (s.serviceStep.map fun i => (i, s)).orElse fun _ => (s.grantStep.map fun i => (i, s)).orElse fun _ => (s.coreStep.map fun i => (i, s)).orElse fun _ =>
      (s.replayStep.map fun i => (i, s)).orElse fun _ => s.callerStep

/-! ### The passing of a cycle -/

/-- The tile whose beat is sent at a place of the period. -/
def tileAtOffset (o : Nat) : Option Nat := if o % 16 = 0 then some (coreAt (o / 16 % 16) (o / 256)) else none

/-- Beats, and the windows that end 63 cycles later (R341, R342). -/
def meshSteps (cycle : Nat) : List Instr :=
  (match tileAtOffset (cycle % Config.period) with
    | some t => [Instr.beatSend t]
    | none => []) ++
  (if cycle < 63 then [] else
    match tileAtOffset ((cycle - 63) % Config.period) with
    | some t => (List.range 8).filterMap (fun d => (nbrOf t d).map fun n => Instr.windowEnd n (opposite d)) ++
        [Instr.windowEnd t ownDir]
    | none => [])

/-- Suspicions that expire, self-tests that end. -/
def State.tileSteps (s : State) : List Instr :=
  s.cores.flatMap fun kv =>
    (kv.2.tile.nbrs.filterMap fun n =>
      if n.2.susp && !recent (periodOf s.cycle) n.2.evidence then some (Instr.suspicionExpiry kv.1 n.1) else none) ++
    (if kv.2.tile.state = .selftest ∧ kv.2.tile.since + Config.selfTestCycles ≤ s.cycle then
      [Instr.selftestDone kv.1 (!kv.2.tile.willFail)] else [])

/-- What is due at each multiple of 4,096; what sensors and meters read is the physical world's (log 44, DESIGN CHOICE). -/
def State.periodSteps (s : State) : List Instr :=
  let w := fun (i : Nat) => Config.freeWord (s.fresh + i)
  if s.cycle % Config.period = 0 then
    [Instr.tokenRefill, .powerSample ((w 0).toNat % (s.mgmt.plim + 1)) ((w 1).toNat % (Config.period + 1))] ++
    (List.range Config.cores).map (fun c =>
      Instr.sensorUpdate c ((w (2 + c)).extractLsb' 0 16) ((w (2 + c)).extractLsb' 16 16) ((w (2 + c)).getLsbD 32)) ++
    (enabledTenants s.host.quota).map Instr.dirtyLogPoll ++ [.csTick 0]
  else []

/-- A port that still has lines to scrub. -/
def State.scrubSteps (s : State) : List Instr :=
  match s.mem.scrubs with
  | [] => []
  | sc :: _ =>
    match sc.wm with
    | [] => []
    | kv :: _ => [.scrubStep sc.stack sc.region kv.1]

/-- The steps that a new cycle brings; after a failed boot the compute dies stay in reset (R377). -/
def State.cycleSteps (s : State) : List Instr :=
  if !s.mgmt.booted then []
  else
  s.periodSteps ++ (if s.fab.pending.isSome && slotOf s.cycle == 0 then [.calendarCommit] else []) ++
  (match s.caller.slice with
    | some (t, e) => if e ≤ s.cycle then [.csTick t] else []
    | none => []) ++
  (s.fab.linkDown.map fun p => Instr.linkRetrainComplete p.1 p.2) ++ s.scrubSteps ++ meshSteps s.cycle ++ s.tileSteps

/-- A miss register whose reads have all been given up is free (R283). -/
def State.idleMisses (s : State) : State :=
  if s.mem.misses.isEmpty then s
  else
    let waits := fun (line : Nat) => s.blocks.any fun b => b.flight.any fun o => (match o.stage with
      | .atPort _ => true
      | _ => false) && o.targetPa.map lineOf == some line
    s.setMem { s.mem with misses := (s.mem.misses.map fun kv => (kv.1, kv.2.filter waits)).filter fun kv => !kv.2.isEmpty }

/-- With nothing left to do in a cycle, the next one begins. -/
def State.nextCycle (s : State) : State :=
  let t := (({ s with cycle := s.cycle + 1 } : State).leaveOut).dropAsks.idleMisses
  { t with agenda := t.cycleSteps, fresh := if t.cycle % Config.period = 0 then t.fresh + 2 + Config.cores else t.fresh }

/-! ### A program word in place -/

/-- Where the loader puts a word: a virtual address, and the physical one behind it. -/
abbrev loadVa : Nat := 0x10000
abbrev loadPa : Nat := 0x10000

/-- The role under which a word's instruction is in its group (R41). -/
def loadRole (opc : Nat) : Nat := if 0xE0 ≤ opc ∧ opc ≤ 0xEB then 2 else if opc = 0x9B ∨ opc = 0x9C then 3 else 0

def loadHeader (opc : Nat) : KHeader :=
  { isalvl := 1, entry := 0x60, codelen := 0x10000, vgran := 32, sgran := 8, atiles := 4, width := 8, strands := 1,
    cluster := 1, osc := 0, idem := false, fuse := false, roles := BitVec.ofNat 32 (loadRole opc), scratch := 16, priv := 0,
    bframe := 8, cframe := 8, saveoff := 0, savebud := 0, weight := 0 }

/-- The block that runs a word: tenant 0, on quadrant 0 of core 0, one strand, its lanes at the word. -/
def loadBlock (s : State) (w : InstrWord) : Block :=
  let g : Grid :=
    { ten := 0, qnum := 0, seq := 0, hdr := loadHeader (w.extractLsb' 120 8).toNat, code := BitVec.ofNat 64 loadVa, koff := 0,
      gx := 1, gy := 1, gz := 1, trav := 0, prio := 0, lflags := 0, arg := 0x1000000000000000#64, ltag := 0, cva := 0, ended := 0,
      status := 0, clost := 0, cstart := 0, again := [] }
  let b := g.block s.nextId 0 s.nextId 0 0 0 0 0 0 0 s.cycle
  { b with strands := b.strands.map fun st => { st with frags := st.frags.map fun f => { f with pc := BitVec.ofNat 64 loadVa } } }

/-- The translation of the word's page: the right to execute alone. -/
def loadXlate : Xlate :=
  { ten := 0, pasid := 0, vbase := loadVa, ibase := loadPa, pbase := loadPa, logSize := 16, r := false, w := false, x := true,
    sw := false, fmt := 0, geom := 0, s1log := 16, s2at := 0, s2log := 16, dirty := true }

/-- The state with a word stored where the next step fetches, and a block alone on the module that fetches it. -/
def State.placeWord (s : State) (w : InstrWord) : State :=
  let m := ((s.mem.writePa loadPa (wordBytes w)).invalidateCode (lineOf loadPa)).dropTlb fun _ => true
  let k := s.core 0
  { ({ s with
      agenda := [], cur := none, nextId := s.nextId + 1, blocks := [loadBlock s w]
      mem := { m with tlb1 := [(0, loadXlate)] }
      mgmt := { s.mgmt with throt := 0 } } : State) with
    cores := s.cores.set Core.reset 0 { k with lastIssue := k.lastIssue.erase 0, tile := TileVote.reset } }

end Machine
end Sys2Proof
end

