-- ==== Sys2Proof/Machine/Step.lean ====
section
/-!
DEFINITION. One step of the module: the next of the steps that the outside or an earlier step has put on the agenda; else a result
whose latency has passed; else an issue; else whatever else is under way; else the next cycle begins.
-/
namespace Sys2Proof.Machine

def step (s : State) : Host.Outcome State Fault Refusal :=
  match s.agenda with
  | i :: rest => exec i (({ s with agenda := rest } : State).claim i)
  | [] =>
    match s.dueResult with
    | some i => exec i s
    | none =>
      match s.pickIssue with
      | some p => runFrag s p
      | none =>
        match s.elsewhere with
        | some (i, t) => exec i (t.claim i)
        | none => .next s.nextCycle

/-- The state whose next step fetches and runs the instruction of `nbits` bits `w` (log 4, DESIGN CHOICE). -/
def State.withFetchWord (s : State) (nbits w : Nat) : State := s.placeWord (BitVec.ofNat 128 (w % 2 ^ nbits))

end Sys2Proof.Machine
end

