-- ==== Sys2Proof/Safety.lean ====
section
/-!
DEFINITION. The terms that claims about the machine use: an instruction that passes the checks, the state that its effect
starts from and the state after its issue, the canonical form of memory, and what a program can see of a register.
-/
namespace Sys2Proof.Machine

/-! ### An instruction that issues -/

/-- The instruction is the one that issues, nothing holds its fragment (R44), and none of the checks of R83 stops it. -/
structure Passes (i : Instr) (e : Entry) (c : Ctl) (s : State) (x : Ctx) : Prop where
  ctx : s.ctx c = some x
  ready : x.canIssue i s = true
  checked : i.check e s x = none

/-- The state that the instruction's own effect starts from. -/
def entered (i : Instr) (e : Entry) (s : State) (x : Ctx) : State := e.before (i.correct (i.scanSlots s x) x) x

/-- The state after an issue whose effect left `d`. -/
def issued (i : Instr) (s : State) (x : Ctx) (d : Done) : State := i.settle (i.scanSlots s x) x ((i.scanSlots s x).commit x d)

/-- The state in which a failed check leaves the machine: the trap has been taken at the instruction, and what it read has been
searched for soft errors. -/
def trapped (i : Instr) (e : Entry) (s : State) (x : Ctx) (t : Trap) : State :=
  ((i.looked e s x).countUnc x t).trapIssue x t

/-- An instruction of fixed latency runs: its results wait for `lat` cycles and its flags are raised. -/
def RunsFixed (i : Instr) (e : Entry) (c : Ctl) (lat : Nat) (ws : State → Ctx → List PWrite)
    (fl : State → Ctx → Flags) : Prop :=
  ∀ s x, Passes i e c s x →
    exec i s = .next (issued i s x (Done.later x
      ((entered i e s x).result x lat (ws (entered i e s x) x) (fl (entered i e s x) x))))

/-- An instruction runs and leaves `d`, in the states that satisfy `p`. -/
def Runs (i : Instr) (e : Entry) (c : Ctl) (p : State → Ctx → Prop) (d : State → Ctx → Done) : Prop :=
  ∀ s x, Passes i e c s x → p (entered i e s x) x → exec i s = .next (issued i s x (d (entered i e s x) x))

/-- The instructions of format A: integer, floating point, conversion and cross-lane. -/
def formatA (i : Instr) : Bool := decide (0x10 ≤ i.opc.toNat) && decide (i.opc.toNat < 0x90)

/-- What the entry of a format A instruction adds to the common checks: QSX and QSCALE want whole groups of lanes (R156). -/
def entryA (i : Instr) : Entry :=
  match i with
  | .qsx _ _ => Entry.groups
  | .qscale _ _ => Entry.groups
  | _ => Entry.plain

/-- What the instruction's own entry calls ILLEGAL in the running block, beside the conditions common to all instructions: groups of
16 lanes in a narrower fragment (R156), counts and formats of an engine instruction (R216 to R225), ranges of a context move (R233),
SVDONE outside a cooperative phase (R234). -/
def ownIllegal (i : Instr) (s : State) (x : Ctx) : Bool :=
  match i with
  | .qsx _ _ => x.blk.width < 16
  | .qscale _ _ => x.blk.width < 16
  | .ctxst _ f => ctxIllegal f s x
  | .ctxld _ f => ctxIllegal f s x
  | .svdone _ _ => !x.blk.inCoop
  | _ => match engineEntry i with
    | some (_, e) => e.illegal s x
    | none => false

/-- The loads, stores, atomics and reductions of the memory formats. -/
def isLaneAccess (i : Instr) : Bool :=
  match i with
  | .lda _ _ | .ldg _ _ | .lds _ _ | .ldp _ _ | .ldk _ _ | .ldb _ _ | .sta _ _ | .stg _ _ | .sts _ _ | .stp _ _ => true
  | .atoma _ _ | .reda _ _ | .atomg _ _ | .atoms _ _ | .redg _ _ | .reds _ _ => true
  | _ => false

/-! ### Invariants and what a program sees -/

/-- The invariant of the memories holds. -/
def State.memWf (s : State) : Bool := s.mem.wf

/-- A lane that differs from another at most in its tokens. -/
def Lane.sameButTok (l k : Lane) : Prop := k = { l with t0 := k.t0, t1 := k.t1, t2 := k.t2, t3 := k.t3 }

/-- A lane's registers, predicates, display registers and hidden state, and the strand's uniform registers, are those of
another state. -/
def sameRegs (st st' : Strand) : Prop :=
  st'.vregs = st.vregs ∧ st'.uregs = st.uregs ∧ st'.preds = st.preds ∧ st'.disp = st.disp

end Sys2Proof.Machine
end

