-- ==== Sys2Proof/Certificates/Slice0/Obligations.lean ====
section
/-!
DEFINITION. The statements for the provers.
-/
open Sys2Proof Sys2Proof.Machine

/-! ### Integer, address and predicate instructions -/

/-- R143 to R147: each instruction (BFX and BFI: BitFields) that passes the checks completes: its result, formed from the exact value and cut to the
type's width, waits for 4 cycles (R77), and no flag rises. -/
def Obligations.IntegerRuns : Prop := ∀ (c : Ctl) (f : AFmt),
  let t := f.ty
  let a := fun (s : State) (x : Ctx) (L : Nat) => s.aVal x f L
  let b := fun (s : State) (x : Ctx) (L : Nat) => s.bVal x f L
  let out := fun (v : State → Ctx → Nat → W64) (s : State) (x : Ctx) => s.writesTo x f.ops.d t.wide (v s x)
  let out32 := fun (v : State → Ctx → Nat → W64) (s : State) (x : Ctx) => s.writesTo x f.ops.d false (v s x)
  let quiet := fun (_ : State) (_ : Ctx) => Flags.none
  RunsFixed (.iadd c f) Entry.plain c 4 (out fun s x L => t.lim (f.sub == 1) (t.int (a s x L) + t.int (b s x L))) quiet ∧
  RunsFixed (.isub c f) Entry.plain c 4 (out fun s x L => t.lim (f.sub == 1) (t.int (a s x L) - t.int (b s x L))) quiet ∧
  RunsFixed (.imul c f) Entry.plain c 4 (out fun s x L => t.wrap (t.int (a s x L) * t.int (b s x L))) quiet ∧
  RunsFixed (.imulh c f) Entry.plain c 4
    (out fun s x L => t.wrap (t.int (a s x L) * t.int (b s x L) / (2 ^ t.bits : Nat))) quiet ∧
  RunsFixed (.imad c f) Entry.plain c 4
    (out fun s x L => t.wrap (t.int (a s x L) * t.int (b s x L) + t.int (s.cVal x f L))) quiet ∧
  RunsFixed (.imin c f) Entry.plain c 4 (out fun s x L => t.wrap (min (t.int (a s x L)) (t.int (b s x L)))) quiet ∧
  RunsFixed (.imax c f) Entry.plain c 4 (out fun s x L => t.wrap (max (t.int (a s x L)) (t.int (b s x L)))) quiet ∧
  RunsFixed (.land c f) Entry.plain c 4
    (out fun s x L => t.cut (a s x L &&& (if f.sub == 1 then ~~~(b s x L) else b s x L))) quiet ∧
  RunsFixed (.lor c f) Entry.plain c 4
    (out fun s x L => t.cut (a s x L ||| (if f.sub == 1 then ~~~(b s x L) else b s x L))) quiet ∧
  RunsFixed (.lxor c f) Entry.plain c 4
    (out fun s x L => t.cut (a s x L ^^^ (if f.sub == 1 then ~~~(b s x L) else b s x L))) quiet ∧
  RunsFixed (.shl c f) Entry.plain c 4 (out fun s x L => shiftLeft t (a s x L) (s.b32 x f L)) quiet ∧
  RunsFixed (.shr c f) Entry.plain c 4 (out fun s x L => shiftRight t (a s x L) (s.b32 x f L)) quiet ∧
  RunsFixed (.rot c f) Entry.plain c 4 (out fun s x L => rotate t (f.sub == 1) (a s x L) (s.b32 x f L)) quiet ∧
  RunsFixed (.popc c f) Entry.plain c 4 (out32 fun s x L => popCount t (a s x L)) quiet ∧
  RunsFixed (.clz c f) Entry.plain c 4 (out32 fun s x L => leadingZeros t (a s x L)) quiet ∧
  RunsFixed (.brev c f) Entry.plain c 4 (out fun s x L => reverseBits t (a s x L)) quiet ∧
  RunsFixed (.sel c f) Entry.plain c 4 (out fun s x L => if x.pred f.ops.c.num L then a s x L else b s x L) quiet ∧
  RunsFixed (.icmp c f) Entry.plain c 4
    (fun s x => predWrites x f.ops.d fun L => intCmp t f.sub.toNat (a s x L) (b s x L)) quiet ∧
  RunsFixed (.lea c f) Entry.plain c 4
    (out fun s x L => t.wrap ((a s x L).toNat + readInt t.signed 32 (s.b32 x f L) * (2 ^ (s.c32 x f L % 64) : Nat))) quiet ∧
  RunsFixed (.mov c f) Entry.plain c 4 (out a) quiet ∧
  RunsFixed (.movi c f) Entry.plain c 4 (fun s x => (moviEffect f s x).1) quiet ∧
  RunsFixed (.pand c f) Entry.plain c 4
    (fun _ x => predWrites x f.ops.d fun L => predOp f.sub.toNat (x.pred f.ops.a.num L) (x.pred f.ops.b.num L)) quiet ∧
  RunsFixed (.pmov c f) Entry.plain c 4 (fun s x => (pmovEffect f s x).1) quiet

/-- R143, R22: the results as two's-complement words: adding, subtracting and multiplying wrap, IMULH is the upper half of the
product of twice the width, shifts and rotations are those of the words, minima and maxima are by the type's signedness, POPC, CLZ and
BREV count and reverse the word's bits, and a saturating sum is the exact sum where the type holds it, else the nearer end of its
range. -/
def Obligations.IntegerWords : Prop := ∀ (a b c : W64) (n : Nat),
  let w := fun (v : W32) => v.zeroExtend 64
  (∀ t ∈ [Ty.i32, Ty.u32],
    intAdd t false a b = w (loWord a + loWord b) ∧ intSub t false a b = w (loWord a - loWord b) ∧
    intMul t a b = w (loWord a * loWord b) ∧ intMad t a b c = w (loWord a * loWord b + loWord c)) ∧
  (∀ t ∈ [Ty.i64, Ty.u64],
    intAdd t false a b = a + b ∧ intSub t false a b = a - b ∧ intMul t a b = a * b ∧ intMad t a b c = a * b + c) ∧
  (∀ t ∈ [Ty.i32, Ty.u32, Ty.b32], shiftLeft t a n = w (loWord a <<< n)) ∧
  (∀ t ∈ [Ty.i64, Ty.u64, Ty.b64], shiftLeft t a n = a <<< n) ∧
  intMulHi .i32 a b = w ((((loWord a).signExtend 64) * ((loWord b).signExtend 64)).extractLsb' 32 32) ∧
  intMulHi .u32 a b = w (((w (loWord a)) * (w (loWord b))).extractLsb' 32 32) ∧
  intMulHi .i64 a b = ((a.signExtend 128) * (b.signExtend 128)).extractLsb' 64 64 ∧
  intMulHi .u64 a b = ((a.zeroExtend 128) * (b.zeroExtend 128)).extractLsb' 64 64 ∧
  shiftRight .u32 a n = w (loWord a >>> n) ∧ shiftRight .i32 a n = w ((loWord a).sshiftRight n) ∧
  shiftRight .u64 a n = a >>> n ∧ shiftRight .i64 a n = a.sshiftRight n ∧
  rotate .b32 false a n = w ((loWord a).rotateLeft n) ∧ rotate .b32 true a n = w ((loWord a).rotateRight n) ∧
  rotate .b64 false a n = a.rotateLeft n ∧ rotate .b64 true a n = a.rotateRight n ∧
  intMin' .i32 a b = w (if (loWord a).slt (loWord b) then loWord a else loWord b) ∧
  intMax' .i32 a b = w (if (loWord a).slt (loWord b) then loWord b else loWord a) ∧
  intMin' .u32 a b = w (if (loWord a).ult (loWord b) then loWord a else loWord b) ∧
  intMax' .u32 a b = w (if (loWord a).ult (loWord b) then loWord b else loWord a) ∧
  intMin' .i64 a b = (if a.slt b then a else b) ∧ intMax' .i64 a b = (if a.slt b then b else a) ∧
  intMin' .u64 a b = (if a.ult b then a else b) ∧ intMax' .u64 a b = (if a.ult b then b else a) ∧
  (∀ t ∈ [Ty.b32, Ty.b64],
    (popCount t a).toNat = ((List.range t.bits).filter fun i => a.getLsbD i).length ∧
    (leadingZeros t a).toNat ≤ t.bits ∧
    (∀ i, i < t.bits → t.bits ≤ i + (leadingZeros t a).toNat → a.getLsbD i = false) ∧
    ((leadingZeros t a).toNat < t.bits → a.getLsbD (t.bits - 1 - (leadingZeros t a).toNat) = true) ∧
    (∀ i, i < 64 → (reverseBits t a).getLsbD i = (decide (i < t.bits) && a.getLsbD (t.bits - 1 - i)))) ∧
  (∀ t ∈ [Ty.i32, Ty.u32, Ty.i64, Ty.u64],
    let lo := intMin t.signed t.bits
    let hi := intMax t.signed t.bits
    t.int (intAdd t true a b) = max lo (min hi (t.int a + t.int b)) ∧
    t.int (intSub t true a b) = max lo (min hi (t.int a - t.int b)))

/-- R144: BFX and BFI complete, with pos and len in the low bytes of the control word and n cut to what the type holds: BFX
gives the n bits at pos, extended as the type says, and BFI the base with those bits replaced; outside the type, or with no
length, 0 and the base. -/
def Obligations.BitFields : Prop := ∀ (c : Ctl) (f : AFmt) (a ins : W64) (ctl i : Nat),
  RunsFixed (.bfx c f) Entry.plain c 4
    (fun s x => s.writesTo x f.ops.d f.ty.wide fun L => extractField f.ty (s.aVal x f L) (s.b32 x f L)) (fun _ _ => Flags.none) ∧
  RunsFixed (.bfi c f) Entry.plain c 4
    (fun s x => s.writesTo x f.ops.d f.ty.wide fun L => insertField f.ty (s.aVal x f L) (s.bVal x f L) (s.c32 x f L))
    (fun _ _ => Flags.none) ∧
  (let w := f.ty.bits
   let pos := ctl % 256
   let len := ctl / 256 % 256
   let n := min len (w - pos)
   w ∈ [32, 64] → a.toNat < 2 ^ w → i < 64 →
   (w ≤ pos ∨ len = 0 → extractField f.ty a ctl = 0 ∧ insertField f.ty a ins ctl = a) ∧
   (pos < w → len ≠ 0 →
    ((extractField f.ty a ctl).getLsbD i =
      if i < n then a.getLsbD (pos + i) else f.ty.signed && decide (i < w) && a.getLsbD (pos + n - 1)) ∧
    ((insertField f.ty a ins ctl).getLsbD i = if pos ≤ i ∧ i < pos + n then ins.getLsbD (i - pos) else a.getLsbD i)))

/-! ### Floating point, conversion, cross-lane -/

/-- R148, R149, R153, R154: the floating-point instructions (but those of MinmaxPicks, CompareValues and ClassMask) complete with the rounded value of each element and the union of the
flags. -/
def Obligations.FloatRuns : Prop := ∀ (c : Ctl) (f : AFmt),
  let lat := if f.ty = .f64 then 8 else 6
  let a := fun (s : State) (x : Ctx) (L : Nat) => s.aVal x f L
  let b := fun (s : State) (x : Ctx) (L : Nat) => s.bVal x f L
  let out := fun (wide : Bool) (v : State → Ctx → Nat → W64 × Flags) (s : State) (x : Ctx) =>
    s.writesTo x f.ops.d wide fun L => (v s x L).1
  let flags := fun (v : State → Ctx → Nat → W64 × Flags) (s : State) (x : Ctx) =>
    Flags.union ((x.computing f.ops.d).map fun L => (v s x L).2)
  let runs := fun (i : Instr) (n : Nat) (v : State → Ctx → Nat → W64 × Flags) =>
    RunsFixed i Entry.plain c n (out f.ty.wide v) (flags v)
  runs (.fadd c f) lat (fun s x L => faddVal f x.st.fmode (a s x L) (b s x L)) ∧
  runs (.fmul c f) lat (fun s x L => fmulVal f x.st.fmode (a s x L) (b s x L)) ∧
  runs (.ffma c f) lat (fun s x L => ffmaVal f x.st.fmode (a s x L) (b s x L) (s.cVal x f L)) ∧
  runs (.frcp c f) 16 (fun s x L => fun1Val .rcp f x.st.fmode (a s x L)) ∧
  runs (.frsq c f) 16 (fun s x L => fun1Val .rsq f x.st.fmode (a s x L)) ∧
  runs (.fsqrt c f) 16 (fun s x L => fun1Val .sqrt f x.st.fmode (a s x L)) ∧
  runs (.fexp2 c f) 16 (fun s x L => fun1Val .exp2 f x.st.fmode (a s x L)) ∧
  runs (.flog2 c f) 16 (fun s x L => fun1Val .log2 f x.st.fmode (a s x L)) ∧
  runs (.fsin c f) 16 (fun s x L => fun1Val .sin f x.st.fmode (a s x L)) ∧
  runs (.fcos c f) 16 (fun s x L => fun1Val .cos f x.st.fmode (a s x L)) ∧
  runs (.ftanh c f) 16 (fun s x L => fun1Val .tanh f x.st.fmode (a s x L)) ∧
  runs (.frnd c f) lat (fun s x L => frndVal f x.st.fmode (a s x L)) ∧
  runs (.fscale c f) lat (fun s x L => fscaleVal f x.st.fmode (a s x L) (readInt true 32 (s.b32 x f L))) ∧
  (let v := fun (s : State) (x : Ctx) (L : Nat) =>
    fdot2Val f x.st.fmode (s.operand x f.sty false f.ops.a f.ops.imm L) (s.operand x f.sty false f.ops.b f.ops.imm L)
      (s.operand x .f32 false f.ops.c f.ops.imm L)
   RunsFixed (.fdot2 c f) Entry.plain c lat (out false v) (flags v))

/-- R155 to R160: the conversions complete; QSCALE and QSX where the strand has a whole group of 16 lanes (R156). -/
def Obligations.ConvertRuns : Prop := ∀ (c : Ctl) (f : AFmt),
  let runs := fun (i : Instr) (e : Entry) (wide : Bool) (v : State → Ctx → Nat → W64 × Flags) =>
    RunsFixed i e c 6 (fun s x => s.writesTo x f.ops.d wide fun L => (v s x L).1)
      (fun s x => Flags.union ((x.computing f.ops.d).map fun L => (v s x L).2))
  let src := fun (s : State) (x : Ctx) (L : Nat) => f.sxSource x.st.fmode (s.srcVal x f L)
  runs (.cvt c f) Entry.plain f.ty.wide (fun s x L => cvtVal f x.st.fmode (s.srcVal x f L)) ∧
  runs (.qscale c f) Entry.groups false (fun s x L => qscaleVal (sxOfSub f.sub) (x.group (src s x) L) (L % 16)) ∧
  runs (.qsx c f) Entry.groups false (fun s x L =>
    if f.sub.getLsbD 2 then
      qsxGiven (sxOfSub f.sub) (src s x L) (loWord (s.operand x .b32 false f.ops.b f.ops.imm L))
    else qsxVal (sxOfSub f.sub) (x.group (src s x) L) (L % 16)) ∧
  runs (.dqsx c f) Entry.plain f.ty.wide (fun s x L => dqsxVal f x.st.fmode (s.operand x .b32 false f.ops.a f.ops.imm L)) ∧
  runs (.pack c f) Entry.plain false (fun s x L =>
    packVal f x.st.fmode (s.operand x f.sty false f.ops.a f.ops.imm L) (s.operand x f.sty false f.ops.b f.ops.imm L)
      (s.operand x f.ty false f.ops.c f.ops.imm L)) ∧
  runs (.unpack c f) Entry.plain false (fun s x L => unpackVal f x.st.fmode (s.operand x f.sty false f.ops.a f.ops.imm L))

/-- R161 to R167: the cross-lane instructions complete, over the guard-true lanes of the fragment. -/
def Obligations.CrossLaneRuns : Prop := ∀ (c : Ctl) (f : AFmt),
  let quiet := fun (_ : State) (_ : Ctx) => Flags.none
  RunsFixed (.shfl c f) Entry.plain c 8 (fun s x => s.writesTo x f.ops.d f.ty.wide (s.shflVal x f)) quiet ∧
  RunsFixed (.matchAny c f) Entry.plain c 8 (fun s x => s.writesTo x f.ops.d true (s.matchVal x f)) quiet ∧
  RunsFixed (.vote c f) Entry.plain c 8 (fun s x =>
    if f.sub == 3 then s.writesTo x f.ops.d true fun _ => x.ballot f.ops.a.num
    else predWrites x f.ops.d fun _ => x.voteVal f.sub f.ops.a.num) quiet ∧
  RunsFixed (.redux c f) Entry.plain c 8
    (fun s x => s.writesTo x f.ops.d f.ty.wide fun _ =>
      (reduxVal f f.sub.toNat x.st.fmode (x.lanes.map fun j => s.aVal x f j)).1)
    (fun s x => Flags.union ((x.computing f.ops.d).map fun _ =>
      (reduxVal f f.sub.toNat x.st.fmode (x.lanes.map fun j => s.aVal x f j)).2)) ∧
  RunsFixed (.scan c f) Entry.plain c 8
    (fun s x => s.writesTo x f.ops.d f.ty.wide fun L =>
      (reduxVal f (f.sub.toNat % 8) x.st.fmode (s.prefixVals x f (f.sub.getLsbD 3) L)).1)
    (fun s x => Flags.union ((x.computing f.ops.d).map fun L =>
      (reduxVal f (f.sub.toNat % 8) x.st.fmode (s.prefixVals x f (f.sub.getLsbD 3) L)).2)) ∧
  RunsFixed (.bcast c f) Entry.plain c 8 (fun s x => s.writesTo x f.ops.d f.ty.wide (s.bcastVal x f)) quiet

/-- R162 to R167: what the cross-lane instructions give.  Shuffles and broadcasts take the value of a guard-true lane of the
fragment, and a lane number that is none, 64 and beyond among them, gives SRCC; MATCH and VOTE name such lanes alone.  An operator over
members' values gives their sum modulo 2^W, their least or greatest, their bits combined; over f32 values the exact sum rounded once,
whatever the order of the lanes, or a number of theirs that none precedes, or the
canonical NaN where there is none; over no value its identity; and SCAN takes the members up to or before its lane. -/
def Obligations.CrossLaneValues : Prop := ∀ (s : State) (x : Ctx) (f : AFmt) (L j : Nat) (vs ws : List W64) (m : W32),
  L < 64 → j < 64 →
  let b := s.op32 x f.ops.b f.ops.imm L
  let member := fun (k : Nat) => k < 64 ∧ x.active.getLsbD k = true
  (f.sub = 0 → b = j → s.shflVal x f L = if member j then s.aVal x f j else s.cVal x f L) ∧
  (f.sub = 0 → 64 ≤ b → s.shflVal x f L = s.cVal x f L) ∧
  (f.sub = 1 → b ≤ L → L - b = j → s.shflVal x f L = if member j then s.aVal x f j else s.cVal x f L) ∧
  (f.sub = 1 → L < b → s.shflVal x f L = s.cVal x f L) ∧
  (f.sub = 2 → s.shflVal x f L = if member (L + b) then s.aVal x f (L + b) else s.cVal x f L) ∧
  (f.sub = 3 → s.shflVal x f L = if member (L ^^^ b) then s.aVal x f (L ^^^ b) else s.cVal x f L) ∧
  (b = j → s.bcastVal x f L = if member j then s.aVal x f j else s.cVal x f L) ∧
  (64 ≤ b → s.bcastVal x f L = s.cVal x f L) ∧
  (s.matchVal x f L).getLsbD j = (x.active.getLsbD j && s.aVal x f j == s.aVal x f L) ∧
  (x.ballot f.ops.a.num).getLsbD j = (x.active.getLsbD j && x.pred f.ops.a.num j) ∧
  (x.voteVal 0 f.ops.a.num = true ↔ ∀ k ∈ x.lanes, x.pred f.ops.a.num k = true) ∧
  (x.voteVal 1 f.ops.a.num = true ↔ ∃ k ∈ x.lanes, x.pred f.ops.a.num k = true) ∧
  (x.voteVal 2 f.ops.a.num = true ↔ ∀ k ∈ x.lanes, x.pred f.ops.a.num k = x.pred f.ops.a.num x.lead) ∧
  (∀ v, v ∈ s.prefixVals x f false L ↔ ∃ k, member k ∧ k ≤ L ∧ s.aVal x f k = v) ∧
  (∀ v, v ∈ s.prefixVals x f true L ↔ ∃ k, member k ∧ k < L ∧ s.aVal x f k = v) ∧
  (let t := f.ty
   let r := fun (op : Nat) => reduxVal f op m vs
   (t ∈ [Ty.i32, Ty.u32, Ty.i64, Ty.u64, Ty.b32, Ty.b64] → vs ≠ [] → (∀ v ∈ vs, v.toNat < 2 ^ t.bits) →
     (r 0).1 = t.wrap (vs.map t.int).sum ∧
     ((r 1).1 ∈ vs ∧ ∀ v ∈ vs, t.int (r 1).1 ≤ t.int v) ∧ ((r 2).1 ∈ vs ∧ ∀ v ∈ vs, t.int v ≤ t.int (r 2).1) ∧
     (∀ i, i < 64 → ((r 3).1.getLsbD i = vs.all fun v => v.getLsbD i) ∧ ((r 4).1.getLsbD i = vs.any fun v => v.getLsbD i) ∧
       ((r 5).1.getLsbD i = ((vs.filter fun v => v.getLsbD i).length % 2 == 1))) ∧
     ∀ op, (r op).2 = Flags.none) ∧
   (t = .f32 → vs ≠ [] →
     let ftz := fmodeFtz m
     let value := fun (v : W64) => (FF.f32.val (v.toNat % 2 ^ 32)).flush .f32 ftz
     let nan := fun (v : W64) => (value v).isNan = true
     let below := fun (y z : FP) => y.lt z = true ∨ (y = .fin true 0 ∧ z = .fin false 0)
     (vs.Perm ws → reduxVal f 0 m vs = reduxVal f 0 m ws) ∧
     (let q := (vs.map fun v => (value v).toRat).sum
      (∀ v ∈ vs, (value v).isNan = false ∧ (value v).isInf = false) → q ≠ 0 →
        r 0 = (BitVec.ofNat 64 (fpResult .f32 (Sys2Proof.FP.ofRat q) (f.fpMod m)).1, (fpResult .f32 (Sys2Proof.FP.ofRat q) (f.fpMod m)).2)) ∧
     ((∀ v ∈ vs, nan v) → (r 1).1 = BitVec.ofNat 64 FF.f32.canonNaN ∧ (r 2).1 = BitVec.ofNat 64 FF.f32.canonNaN) ∧
     ((∃ v ∈ vs, ¬nan v) →
       (∃ v ∈ vs, ¬nan v ∧ value (r 1).1 = value v ∧ ∀ u ∈ vs, ¬nan u → ¬below (value u) (value (r 1).1)) ∧
       (∃ v ∈ vs, ¬nan v ∧ value (r 2).1 = value v ∧ ∀ u ∈ vs, ¬nan u → ¬below (value (r 2).1) (value u)))) ∧
   reduxVal f 0 m [] = (0, Flags.none) ∧ reduxVal f 4 m [] = (0, Flags.none) ∧ reduxVal f 5 m [] = (0, Flags.none) ∧
   reduxVal f 3 m [] = (if t.wide then BitVec.allOnes 64 else 0xFFFFFFFF, Flags.none) ∧
   (t = .f32 → reduxVal f 1 m [] = (0x7F800000, Flags.none) ∧ reduxVal f 2 m [] = (0xFF800000, Flags.none)) ∧
   (t ∈ [Ty.i32, Ty.u32, Ty.i64, Ty.u64] → ∀ n : Int, intMin t.signed t.bits ≤ n → n ≤ intMax t.signed t.bits →
     n ≤ t.int (reduxVal f 1 m []).1 ∧ t.int (reduxVal f 2 m []).1 ≤ n))

/-- R93: a finite value that a format holds is its own rounding, in every rounding mode, and raises no flag. -/
def Obligations.ExactRounding : Prop := ∀ (t : FF) (bits : Nat) (mode : RMode), bits < 2 ^ t.width →
  (t.val bits).isNan = false → (t.val bits).isInf = false →
  fpResult t (t.val bits) { FPMod.rne with mode := mode } = (bits, Flags.none)

/-- R150: FMIN and FMAX complete with a value per element: a NaN loses against a number, two NaNs give the canonical NaN, and of
two numbers the smaller or greater is given bit for bit, with -0 below +0, but a subnormal that FTZ takes gives the zero of its
sign; NV rises for a signalling NaN and for nothing else. -/
def Obligations.MinmaxPicks : Prop := ∀ (c : Ctl) (f : AFmt) (m : W32) (isMax : Bool) (v w : W64) (i : Nat),
  (let runs := fun (g : Instr) (big : Bool) =>
    RunsFixed g Entry.plain c (if f.ty = .f64 then 8 else 6)
      (fun s x => s.writesTo x f.ops.d f.ty.wide fun L => (fminmaxVal f x.st.fmode big (s.aVal x f L) (s.bVal x f L)).1)
      (fun s x => Flags.union ((x.computing f.ops.d).map fun L =>
        (fminmaxVal f x.st.fmode big (s.aVal x f L) (s.bVal x f L)).2))
   runs (.fmin c f) false ∧ runs (.fmax c f) true) ∧
  (f.ty ∈ [Ty.f32, Ty.f64, Ty.f16x2, Ty.bf16x2] → i < f.ty.elems →
   let t := f.ty.ff
   let ftz := fmodeFtz m
   let a := f.aElem f.ty v i
   let b := f.bElem f.ty w i
   let r := f.ty.elem (fminmaxVal f m isMax v w).1 i
   let kept := fun (bits : Nat) => match t.val bits with
     | .fin s q => if ftz = true ∧ t = .f32 ∧ q < t.minN then t.signBit s else bits
     | _ => bits
   let value := fun (bits : Nat) => (t.val bits).flush t ftz
   let below := fun (x y : FP) => x.lt y = true ∨ (x = .fin true 0 ∧ y = .fin false 0)
   let nan := fun (bits : Nat) => (t.val bits).isNan = true
   (nan a → nan b → r = t.canonNaN) ∧ (nan a → ¬nan b → r = kept b) ∧ (¬nan a → nan b → r = kept a) ∧
   (¬nan a → ¬nan b → (r = kept a ∨ r = kept b) ∧
     (if isMax then ¬below (value r) (value a) ∧ ¬below (value r) (value b)
       else ¬below (value a) (value r) ∧ ¬below (value b) (value r)))) ∧
  (f.ty ∈ [Ty.f32, Ty.f64, Ty.f16x2, Ty.bf16x2] →
   let fl := (fminmaxVal f m isMax v w).2
   let snan := ∃ j, j < f.ty.elems ∧
     (f.ty.ff.val (f.aElem f.ty v j) = .nan true ∨ f.ty.ff.val (f.bElem f.ty w j) = .nan true)
   (fl = Flags.NV ↔ snan) ∧ (fl = Flags.none ↔ ¬snan))

/-- R151: FCMP completes with a predicate per lane: the comparison of the values by their order, in which -0 equals +0 and the
infinities stand at the ends; a pair with a NaN is unordered; NV rises for any NaN in an ordering comparison and for a
signalling NaN in the others. -/
def Obligations.CompareValues : Prop := ∀ (c : Ctl) (f : AFmt) (m : W32) (a b : W64),
  RunsFixed (.fcmp c f) Entry.plain c (if f.ty = .f64 then 8 else 6)
    (fun s x => predWrites x f.ops.d fun L => (fcmpVal f x.st.fmode (s.aVal x f L) (s.bVal x f L)).1)
    (fun s x => Flags.union (x.lanes.map fun L => (fcmpVal f x.st.fmode (s.aVal x f L) (s.bVal x f L)).2)) ∧
  (let v := f.ty.fp (fmodeFtz m) (f.aElem f.ty a 0)
   let w := f.ty.fp (fmodeFtz m) (f.bElem f.ty b 0)
   let ends := fun (u : FP) => if u = .inf true then (-1 : Int) else if u = .inf false then 1 else 0
   let less := fun (u u' : FP) => ends u < ends u' ∨ (ends u = 0 ∧ ends u' = 0 ∧ u.toRat < u'.toRat)
   let same := ends v = ends w ∧ v.toRat = w.toRat
   let un := v.isNan = true ∨ w.isNan = true
   let r := fcmpVal f m a b
   (f.sub = 0 → (r.1 = true ↔ ¬un ∧ same)) ∧ (f.sub = 1 → (r.1 = true ↔ un ∨ ¬same)) ∧
   (f.sub = 2 → (r.1 = true ↔ ¬un ∧ less v w)) ∧ (f.sub = 3 → (r.1 = true ↔ ¬un ∧ (less v w ∨ same))) ∧
   (f.sub = 4 → (r.1 = true ↔ ¬un ∧ less w v)) ∧ (f.sub = 5 → (r.1 = true ↔ ¬un ∧ (less w v ∨ same))) ∧
   (f.sub = 6 → (r.1 = true ↔ un)) ∧ (f.sub = 7 → (r.1 = true ↔ ¬un)) ∧
   (f.sub ∈ [2, 3, 4, 5] → (r.2 = .NV ↔ un) ∧ (r.2 = Flags.none ↔ ¬un)) ∧
   (f.sub ∈ [0, 1, 6, 7] →
     (r.2 = .NV ↔ v = .nan true ∨ w = .nan true) ∧ (r.2 = Flags.none ↔ ¬(v = .nan true ∨ w = .nan true))))

/-- R152: FCLASS completes with a mask of which exactly the bit of the operand's class is set, whatever FMODE holds, and no
flag. -/
def Obligations.ClassMask : Prop := ∀ (c : Ctl) (f : AFmt) (a : W64),
  RunsFixed (.fclass c f) Entry.plain c 4 (fun s x => s.writesTo x f.ops.d false fun L => fclassVal f (s.aVal x f L))
    (fun _ _ => Flags.none) ∧
  (let t := f.ty.ff
   let v := t.val (f.ty.elem a 0)
   let small := fun (neg : Bool) => ∃ m, v = .fin neg m ∧ m ≠ 0 ∧ m < t.minN
   let big := fun (neg : Bool) => ∃ m, v = .fin neg m ∧ m ≠ 0 ∧ t.minN ≤ m
   let isClass := fun (n : Nat) (p : Prop) => fclassVal f a = BitVec.ofNat 64 (2 ^ n) ↔ p
   isClass 0 (v = .inf true) ∧ isClass 1 (big true) ∧ isClass 2 (small true) ∧ isClass 3 (v = .fin true 0) ∧
   isClass 4 (v = .fin false 0) ∧ isClass 5 (small false) ∧ isClass 6 (big false) ∧ isClass 7 (v = .inf false) ∧
   isClass 8 (v = .nan true) ∧ isClass 9 (v = .nan false) ∧ ∃ n, n < 10 ∧ fclassVal f a = BitVec.ofNat 64 (2 ^ n))

/-- R94: what an overflow gives, in every mode and format: the infinity of the sign or the largest magnitude, the NaN of the
sign for an infinity of E4M3; and the clamp `.sat` of E4M3 never overflows. -/
def Obligations.OverflowResults : Prop := ∀ (t : FF) (mode : RMode) (neg ftz : Bool) (m : Rat),
  (t.maxF < t.round m neg mode →
    let r := fpResult t (.fin neg m) { mode := mode, scale := 0, clamp := 0, ftz := ftz }
    let big := t.val r.1 = .fin neg t.maxF
    let top := if t = .e4m3 then r.1 = (if neg then 0xFF else 0x7F) else t.val r.1 = .inf neg
    r.1 < 2 ^ t.width ∧ r.2 = Flags.or .OF .NX ∧
    match mode with
    | .rne | .rna => top
    | .rtz => big
    | .rup => if neg then big else top
    | .rdn => if neg then top else big) ∧
  (0 ≤ m →
    let r := fpResult .e4m3 (.fin neg m) { mode := mode, scale := 0, clamp := 3, ftz := ftz }
    r.1 % 128 ≤ 0x7E ∧ r.1 < 256 ∧ (448 ≤ m → r.1 = if neg then 0xFE else 0x7E))

/-! ### Loads, stores, atomics -/

/-- R168 to R178: a load whose lanes pass every check and meet no poison completes: its accesses stand in flight in lane
order, bound for its destination, with the order and scope of the word, and LDB's is one request for its lanes unless the address is private (R173: each lane's own place);
a word with no active lane only goes on.  The model's choices in it: log 25. -/
def Obligations.LoadRuns : Prop := ∀ (c : Ctl) (f : MaFmt),
  let runs := fun (i : Instr) (e : Entry) (m : MemForm) (g : Guard) (ldb one generic : Bool) =>
    let addr := fun (s : State) (x : Ctx) (L : Nat) => s.effAddr x f.ops.a f.ops.imm (if one then x.lead else L)
    let e := e.scans fun s x => s.scanLoad x.blk (s.readLocs x m (addr s x))
    let lanes := fun (x : Ctx) => if f.ops.d.isUni then [x.lead] else x.lanes
    let all := fun (s : State) (x : Ctx) => s.reaches x m x.lanes (addr s x)
    let rs := fun (s : State) (x : Ctx) => if f.ops.d.isUni then (all s x).take 1 else all s x
    Runs i e c (fun _ x => x.active = 0) (fun s x => Done.now x s) ∧
    Runs i e c
      (fun s x => x.active ≠ 0 ∧ s.memTrap x m x.lanes (addr s x) = none ∧ s.poisonTrap (s.via x.blk) (rs s x) (addr s x) = none)
      (fun s x =>
        let used := s.useVia x ((rs s x).flatMap fun r => r.2.via) .read
        let used := used.siteAfter x generic (s.replays x g (addr s x)) (loadForm ((all s x).map fun r => (addr s x r.1, r.2)))
        let accs := (rs s x).map fun r =>
          { lane := r.1, group := oneLane r.1, addr := addr s x r.1, pieces := r.2.pieces, fmt := r.2.fmt,
            elem := r.2.elem, b := 0, c := 0, data := [] : LaneAcc }
        let together := ldb && !s.replays x g (addr s x) && !f.ops.d.isUni && tagOf (addr s x x.lead) != 4
        Done.later x (used.startOp x f.order f.scope false
          (.load ((lanes x).flatMap fun L => s.placeOf x f.ops.d (loadWide f m.narrow) L) f.zx
            (if together then (accs.take 1).map fun a => { a with group := x.active } else accs) [])))
  let native := fun (i : Instr) (ldb : Bool) =>
    runs i (guardEntry (nativeGuard f ldb .read) fun s x L => s.effAddr x f.ops.a f.ops.imm L) (nativeForm f c.q .read)
      (nativeGuard f ldb .read) ldb (ldb && !c.q) false
  runs (.lda c f) Entry.plain MemForm.lda Guard.none false false true ∧
  native (.ldg c f) false ∧ native (.lds c f) false ∧ native (.ldp c f) false ∧ native (.ldk c f) false ∧
  native (.ldb c f) true

/-- R168 to R177: a store whose lanes pass every check completes: its accesses stand in flight with the bytes they bring,
and nothing has been written yet.  The model's choices in it: log 25. -/
def Obligations.StoreRuns : Prop := ∀ (c : Ctl) (f : MaFmt),
  let runs := fun (i : Instr) (e : Entry) (m : MemForm) (g : Guard) (generic : Bool) =>
    let addr := fun (s : State) (x : Ctx) (L : Nat) => s.effAddr x f.ops.d f.ops.imm L
    let rs := fun (s : State) (x : Ctx) => s.reaches x m x.lanes (addr s x)
    let val := fun (s : State) (x : Ctx) (L : Nat) =>
      s.operand x (if loadWide f m.narrow then .b64 else .b32) (loadWide f m.narrow) f.ops.a f.ops.imm L
    let who := fun (s : State) (x : Ctx) (L : Nat) => if f.fwd then s.operand x .u32 false f.ops.b f.ops.imm L else 0
    Runs i e c (fun _ x => x.active = 0) (fun s x => Done.now x s) ∧
    Runs i e c (fun s x => x.active ≠ 0 ∧ s.memTrap x m x.lanes (addr s x) = none)
      (fun s x =>
        let used := s.useVia x ((rs s x).flatMap fun r => r.2.via) .write
        let used := used.siteAfter x generic (s.replays x g (addr s x)) (storeForm ((rs s x).map fun r => (addr s x r.1, r.2)))
        Done.later x (used.startOp x f.order f.scope false
          (.store f.fwd (storeAccs (rs s x) (addr s x) (val s x) (who s x)))))
  let native := fun (i : Instr) =>
    runs i (guardEntry (nativeGuard f false .write) fun s x L => s.effAddr x f.ops.d f.ops.imm L) (nativeForm f c.q .write)
      (nativeGuard f false .write) false
  runs (.sta c f) Entry.plain MemForm.sta Guard.none true ∧ native (.stg c f) ∧ native (.sts c f) ∧ native (.stp c f)

/-- R185 to R190: an atomic or reduction whose lanes pass every check completes: its updates stand in flight, with the
operands read at issue.  The model's choices in it: log 25. -/
def Obligations.AtomicRuns : Prop := ∀ (c : Ctl) (f : MbFmt),
  let runs := fun (i : Instr) (e : Entry) (tags : List Nat) (g : Guard) (red generic : Bool) =>
    let m := atomForm f.ty tags
    let addr := fun (s : State) (x : Ctx) (L : Nat) => s.effAddr x f.ops.a f.ops.imm L
    let e := e.scans fun s x => s.scanHome (s.readLocs x m (addr s x))
    let rs := fun (s : State) (x : Ctx) => s.reaches x m x.lanes (addr s x)
    Runs i e c (fun _ x => x.active = 0) (fun s x => Done.now x s) ∧
    Runs i e c
      (fun s x => x.active ≠ 0 ∧ s.memTrap x m x.lanes (addr s x) = none ∧ s.poisonTrap atHome (rs s x) (addr s x) = none)
      (fun s x =>
        let used := s.useVia x ((rs s x).flatMap fun r => r.2.via) .atomic
        let used := used.siteAfter x generic (s.replays x g (addr s x)) (atomNative red (rs s x))
        Done.later x (used.startOp x f.order f.scope f.ord
          (.atomic f.sub f.ty (if red then [] else s.atomDst x f)
            ((rs s x).map fun r =>
              { lane := r.1, group := oneLane r.1, addr := addr s x r.1, pieces := r.2.pieces, fmt := r.2.fmt, elem := 0,
                b := s.operand x f.ty f.ty.wide f.ops.b 0 r.1, c := s.operand x f.ty f.ty.wide f.ops.c 0 r.1,
                data := [] }) [])))
  let native := fun (i : Instr) (tag : Nat) (red : Bool) =>
    runs i (guardEntry (atomGuard [tag]) fun s x L => s.effAddr x f.ops.a f.ops.imm L)
      (if c.q then [0, 2, 3] else [tag]) (atomGuard [tag]) red false
  let clu := cluTag f
  runs (.atoma c f) Entry.plain [0, 2, 3] Guard.none false true ∧ runs (.reda c f) Entry.plain [0, 2, 3] Guard.none true true ∧
  native (.atomg c f) 0 false ∧ native (.atoms c f) clu false ∧ native (.redg c f) 0 true ∧ native (.reds c f) clu true

/-- R168: a lane's address is its 64-bit base, a uniform register or a pair of vector registers with the low word first, and
the word's offset, sign-extended, modulo 2^64. -/
def Obligations.EffectiveAddress : Prop := ∀ (s : State) (x : Ctx) (n : BitVec 6) (v : BitVec 8) (imm : W32) (L : Nat),
  s.effAddr x (.uni n) imm L = x.ureg n.toNat + imm.signExtend 64 ∧
  s.effAddr x (.vec v) imm L = x.vreg (v.toNat + 1) L ++ x.vreg v.toNat L + imm.signExtend 64

/-- R187, R188: the whole table of the operations, on values of the type's width: sums, minima and maxima and the bounded operations
for every integer type, the bitwise operations and the exchanges for every type; for f32 and f64 the sum is rounded to nearest even,
FMODE apart, a NaN result is canonical, and the minimum and maximum are the bits of a number that none precedes, with -0 below +0. -/
def Obligations.AtomicValues : Prop := ∀ (t : Ty) (old b c : Nat),
  old < 2 ^ t.bits → b < 2 ^ t.bits → c < 2 ^ t.bits →
  let v := readInt t.signed t.bits
  let op := fun (sub : Nat) => atomOp sub t old b c
  op 3 = .put (old &&& b) ∧ op 4 = .put (old ||| b) ∧ op 5 = .put (old ^^^ b) ∧ op 6 = .put b ∧
  ((op 7).new = b ∧ ((op 7).write = true ↔ old = c)) ∧
  op 8 = .put (if old ≥ c then 0 else old + 1) ∧ (c = 0 → op 8 = .put 0) ∧
  (c = 2 ^ t.bits - 1 → op 8 = .put ((old + 1) % 2 ^ t.bits)) ∧
  op 9 = .put (if old = 0 ∨ old > c then c else old - 1) ∧
  ((op 10).new = old + b ∧ ((op 10).write = true ↔ old + b < 2 ^ t.bits ∧ old + b ≤ c) ∧
    (op 10).applied = (op 10).write ∧ (old > c → (op 10).write = false)) ∧
  (t ∈ [Ty.i32, Ty.u32, Ty.i64, Ty.u64] →
    op 0 = .put ((old + b) % 2 ^ t.bits) ∧
    (∃ n, op 1 = .put n ∧ v n = min (v old) (v b)) ∧ (∃ n, op 2 = .put n ∧ v n = max (v old) (v b))) ∧
  (t ∈ [Ty.f32, Ty.f64] →
    let g := t.ff
    let x := g.val old
    let y := g.val b
    let below := fun (p q : FP) => p.lt q = true ∨ (p = .fin true 0 ∧ q = .fin false 0)
    g.canonNaN = (if t = .f32 then 0x7FC00000 else 0x7FF8000000000000) ∧
    (x.isNan = true ∨ y.isNan = true ∨ (∃ n, x = .inf n ∧ y = .inf (!n)) → op 0 = .put g.canonNaN) ∧
    (∀ n, (x = .inf n ∧ y.isNan = false ∧ y ≠ .inf (!n)) ∨ (y = .inf n ∧ x.isNan = false ∧ x ≠ .inf (!n)) →
      op 0 = .put (g.infBits n)) ∧
    (∀ m n p q, x = .fin m p → y = .fin n q → x.toRat + y.toRat ≠ 0 →
      op 0 = .put (fpResult g (Sys2Proof.FP.ofRat (x.toRat + y.toRat)) FPMod.rne).1) ∧
    (∀ m n p q, x = .fin m p → y = .fin n q → x.toRat + y.toRat = 0 →
      op 0 = .put (g.signBit (m && n && p == 0 && q == 0))) ∧
    (∀ k ∈ [1, 2],
      (x.isNan = true → y.isNan = true → op k = .put g.canonNaN) ∧
      (x.isNan = true → y.isNan = false → op k = .put b) ∧ (x.isNan = false → y.isNan = true → op k = .put old)) ∧
    (x.isNan = false → y.isNan = false →
      (op 1 = .put (if below y x then b else old) ∧ op 2 = .put (if below x y then b else old))))

/-! ### Synchronisation, frames, control -/

/-- R193 to R197, R211: the barrier and ring instructions complete where their object can be reached, and read where they read it:
an update or a query stands in flight, a wait holds its fragment at its own word, a fence holds the word after it; CVSET declares
its threads.  The model's choices in it: log 26, 63. -/
def Obligations.SyncRuns : Prop := ∀ (c : Ctl) (f : SFmt),
  let a := fun (s : State) (x : Ctx) => s.op64 x f.ops.a x.lead
  let b32 := fun (s : State) (x : Ctx) => s.op32 x f.ops.b f.ops.imm x.lead
  let reached := fun (s : State) (x : Ctx) => x.active ≠ 0 ∧ (s.barTraps x (a s x) 16).findSome? id = none
  let readable := fun (s : State) (x : Ctx) => reached s x ∧ s.barEcc x (a s x) = none
  let slot := fun (s : State) (x : Ctx) => a s x + BitVec.ofNat 64 (16 + 16 * (b32 s x % s.ringSlots x (a s x)))
  let ringed := fun (s : State) (x : Ctx) =>
    x.active ≠ 0 ∧ (s.headerTraps x (a s x)).findSome? id = none ∧ s.barEcc x (slot s x) = none
  let addr := (addrUniform f.ops.a).scans (barScan f.ops.a)
  let phased := (addrIndexUniform f.ops.a f.ops.b f.ops.imm).scans (barScan f.ops.a)
  let indexed := (addrIndexUniform f.ops.a f.ops.b f.ops.imm).scans (ringScan f)
  let update := fun (order : Order) (u : State → Ctx → BarOp) (s : State) (x : Ctx) =>
    Done.later x (s.startOp x order (barScope (a s x)) false (.bar (u s x) (a s x) (s.barLoc x (a s x))))
  let wait := fun (h : State → Ctx → Hold) (s : State) (x : Ctx) =>
    { st := s, pcOf := fun _ => x.fr.pc, gone := 0, nap := none, hold := h s x, counts := true : Done }
  Runs (.barinit c f) (addrUniform f.ops.a) c reached (update .rlx fun s x => .init (b32 s x % 65536)) ∧
  Runs (.barexpect c f) addr c readable (update .rlx fun s x => .expect (b32 s x)) ∧
  Runs (.bararrive c f) addr c readable
    (update .rel fun _ x => .arrive (if f.sub == 1 then 1 else countLanes x.active)) ∧
  Runs (.barwait c f) phased c readable
    (wait fun s x => .barwait (a s x) (BitVec.ofNat 32 (b32 s x)) c.sett) ∧
  Runs (.bartry c f) phased c readable (fun s x =>
    Done.later x (s.startOp x .acq (barScope (a s x)) false
      (.bartry (x.lanes.flatMap fun L => predPlace f.ops.d L) (BitVec.ofNat 32 (b32 s x)) (a s x) (s.barLoc x (a s x))))) ∧
  Runs (.stginit c f) (addrUniform f.ops.a) c
    (fun s x => x.active ≠ 0 ∧ (s.ringTraps x (a s x) (b32 s x)).findSome? id = none)
    (update .rlx fun s x => .ringInit (s.op32 x f.ops.c f.ops.imm x.lead % 65536)
      ((List.range (b32 s x)).map fun i =>
        s.barLoc x (a s x + BitVec.ofNat 64 (16 + 16 * (i % b32 s x))))) ∧
  Runs (.stgwait c f) indexed c ringed
    (wait fun s x => .stgwait (slot s x) (b32 s x / s.ringSlots x (a s x) % 2 == 1) (f.sub == 1) c.sett) ∧
  Runs (.stgarrive c f) indexed c ringed (fun s x =>
    let bytes := if f.ops.c.unused then 0 else s.op32 x f.ops.c f.ops.imm x.lead
    Done.later x (s.startOp x .rel (barScope (a s x)) false
      (.bar (.ringArrive bytes (if f.sub == 1 then 1 else countLanes x.active)) (slot s x) (s.barLoc x (slot s x))))) ∧
  Runs (.cvset c f) Entry.plain c (fun _ x => x.active ≠ 0) (fun s x =>
    Done.now x ((s.updBlock x.blk.uid fun b => b.setCv f.ops.d.num { b.cv f.ops.d.num with decl := s.cvsetThreads x f }).errsGone
      (· == .conv x.blk.uid f.ops.d.num))) ∧
  (let fence := fun (scope : Scope) (s : State) (x : Ctx) =>
    { Done.later x s with
      hold := .fence [{ lanes := x.fr.lanes, active := x.active, before := s.nextId, scope := scope, tok := x.ctl.sett }] }
   Runs (.fence c f) Entry.plain c (fun _ x => x.active ≠ 0) (fence (Scope.ofCode f.sd.toNat)) ∧
   Runs (.fsync c f) Entry.plain c (fun _ x => x.active ≠ 0) (fence (frameScope f.sd.toNat)))

/-- R202 to R212: the frame instructions complete where R205 to R208 and R212 let them: FENTER and FLEAVE move the lane's
frame; the shared frames open or close with the last signature and hold the signer before it; DSPR and DSPW read and write
display registers, and a display word that is written whole holds no soft error any more; FATOM's update stands in flight.
The model's choices in it: log 15 (which lanes sign, and the earlier signers' tokens), 24, 26, 61 (FATOM's operation), 72 (UNIFORM of
DSPR.x and DSPW.x). -/
def Obligations.FrameRuns : Prop := ∀ (c : Ctl) (f : SFmt),
  let lane := fun (x : Ctx) (L : Nat) => x.st.lane L
  Runs (.fenter c f) Entry.plain c
    (fun s x => (∀ L ∈ x.lanes,
        3 ≤ (lane x L).cd.toNat ∧ ¬((lane x L).top ≠ 0 ∧ (lane x L).tnest = (lane x L).nest) ∧
        frameSizeBad (s.op32 x f.ops.a f.ops.imm L) = false ∧
        (lane x L).fp.toNat + s.op32 x f.ops.a f.ops.imm L ≤ x.blk.privlim) ∧
      s.privPlaces x (fun L => (lane x L).fp.toNat) true = none)
    (fun s x =>
      let t := x.lanes.foldl (fun s L => s.privWrite x (lane x L).fp.toNat L (x.linkWord L)) s
      let t := t.updStrand x.blk.uid x.sid fun st =>
        x.lanes.foldl (fun st L => st.setDisp (lane x L).cd.toNat L { ptr := privPtr (lane x L).fp, valid := true }) st
      Done.now x ((t.updLanes x x.active fun L l =>
        { l with top := (lane x L).cd, tnest := (lane x L).nest,
                 fp := (lane x L).fp + BitVec.ofNat 32 (s.op32 x f.ops.a f.ops.imm L) }).dispGone x.blk.uid x.sid
          fun n L => x.active.getLsbD L && n == (lane x L).cd.toNat)) ∧
  Runs (.fleave c f) Entry.plain c
    (fun s x => (∀ L ∈ x.lanes, (lane x L).frameLive = true) ∧
      s.privPlaces x (fun L => x.frameOffset (lane x L).cd.toNat L) false = none ∧
      s.privPoison x (fun L => x.frameOffset (lane x L).cd.toNat L) = none)
    (fun s x =>
      let cd := fun L => (lane x L).cd.toNat
      let t := s.updStrand x.blk.uid x.sid fun st =>
        x.lanes.foldl (fun st L => st.setDisp (cd L) L (leaveDisp (s.privRead x (x.frameOffset (cd L) L) L))) st
      Done.now x ((t.updLanes x x.active fun L l => s.leaveLane x L l).dispGone x.blk.uid x.sid
        fun n L => x.active.getLsbD L && n == cd L)) ∧
  Runs (.dspw c f) (dispUniform f f.ops.b) c
    (fun s x => ∀ L ∈ x.lanes, 3 ≤ s.dispNum x f f.ops.b L ∧ dispLegal (s.op64 x f.ops.a L) = true)
    (fun s x => Done.now x ((s.updStrand x.blk.uid x.sid fun st =>
      x.lanes.foldl (fun st L => st.setDisp (s.dispNum x f f.ops.b L) L
        (if s.op64 x f.ops.a L = 0 then Disp.none else { ptr := s.op64 x f.ops.a L, valid := true })) st).dispGone x.blk.uid x.sid
          fun m L => x.active.getLsbD L && m == s.dispNum x f f.ops.b L)) ∧
  RunsFixed (.dspr c f) (dispUniform f f.ops.a) c 4
    (fun s x => s.writesTo x f.ops.d true fun L => x.st.dispVal (s.dispNum x f f.ops.a L) L)
    (fun _ _ => Flags.none) ∧
  Runs (.fatom c f) (Entry.plain.scans fun s x => s.scanHome (x.lanes.flatMap (s.fatomLocs x f))) c (fun s x => x.active ≠ 0 ∧ s.fatomTrap x f = none) (fun s x =>
    let dst := if f.ops.d.unused then [] else x.lanes.flatMap fun L => s.placeOf x f.ops.d f.ty.wide L
    Done.later x (s.startOp x f.order (depthScope f.sd.toNat) false (.atomic (fatomSub f.sub) f.ty dst (s.fatomAccs x f) []))) ∧
  (let shared := fun (i : Instr) (enter : Bool) =>
    let others := fun (x : Ctx) => match x.blk.inner.cap with
      | some p => p.signers
      | none => []
    let new := fun (x : Ctx) => x.active &&& ~~~x.innerSigned
    let sig := fun (x : Ctx) => x.blk.inner.sig ||| threadSet x.blk x.sid (new x)
    let e := { Entry.plain with sign := blockSignTrap i }
    Runs i e c
      (fun _ x => x.active ≠ 0 ∧ sharedTrap x (new x) 2 enter = none ∧ x.blk.liveThreads &&& ~~~sig x = 0)
      (fun s x => Done.now x ((s.blockFrameOp x.blk i).updBlock x.blk.uid fun b =>
        { b.freeShared (others x) with inner := Conv.empty })) ∧
    Runs i e c
      (fun _ x => x.active ≠ 0 ∧ sharedTrap x (new x) 2 enter = none ∧ x.blk.liveThreads &&& ~~~sig x ≠ 0)
      (fun s x =>
        { st := (s.uncount x (others x)).updBlock x.blk.uid fun b =>
            { b with inner := { decl := x.blk.liveThreads, sig := sig x,
                                cap := some (b.inner.captured i [] 0 x (x.sharedSigner s.nextId (new x) (others x))) } },
          pcOf := fun _ => x.fr.pc, gone := 0, nap := none, hold := .shared, counts := true })
   shared (.bfenter c f) true ∧ shared (.bfleave c f) false) ∧
  (let shared := fun (i : Instr) (enter : Bool) =>
    let cl := fun (s : State) (x : Ctx) => s.cluster x.blk.cluster
    let mine := fun (s : State) (x : Ctx) => ((cl s x).signers.filter fun g => g.1 == x.blk.uid).map (·.2)
    let new := fun (s : State) (x : Ctx) => x.active &&& ~~~(s.clusterMarks x)
    let sig := fun (s : State) (x : Ctx) =>
      (cl s x).sig ||| clusterBits x.blk.rank (threadSet x.blk x.sid (new s x))
    let e := { Entry.plain with sign := clusterSignTrap i }
    Runs i e c
      (fun s x => x.active ≠ 0 ∧ sharedTrap x (new s x) 1 enter = none ∧ s.clusterLive x.blk &&& ~~~sig s x = 0)
      (fun s x => Done.now x
        (((cl s x).signers.foldl (fun t g => t.updBlock g.1 fun b => b.freeShared [g.2]) (s.clusterFrameOp x.blk i)).putCluster
          { cl s x with sig := 0, cap := none, signers := [] })) ∧
    Runs i e c
      (fun s x => x.active ≠ 0 ∧ sharedTrap x (new s x) 1 enter = none ∧ s.clusterLive x.blk &&& ~~~sig s x ≠ 0)
      (fun s x =>
        { st := (s.uncount x (mine s x)).putCluster
            { cl s x with decl := s.clusterLive x.blk, sig := sig s x, cap := some ((cl s x).cap.getD i),
                          lane := if (cl s x).sig = 0 then x.lead else (cl s x).lane,
                          signers := (cl s x).signers ++ [(x.blk.uid, x.sharedSigner s.nextId (new s x) (mine s x))] },
          pcOf := fun _ => x.fr.pc, gone := 0, nap := none, hold := .shared, counts := true })
   shared (.cfenter c f) true ∧ shared (.cfleave c f) false)

/-- R132 to R142: the control instructions complete: active lanes go to their targets and the others to the next word; CALL
links and nests, RET restores the depth of the link, EXIT ends its lanes, NAP sleeps, SRD and SWR move special registers,
SPAWN and TRACE leave their work in flight. -/
def Obligations.ControlRuns : Prop := ∀ (c : Ctl) (f : CFmt),
  let any := fun (_ : State) (_ : Ctx) => True
  let jump := fun (x : Ctx) (s : State) (t : Nat → W64) =>
    { Done.now x s with pcOf := fun L => if x.active.getLsbD L then t L else x.fr.pc + 16 }
  let reg := fun (s : State) (x : Ctx) (L : Nat) => s.op64 x f.ops.a L
  let aligned := fun (x : Ctx) (t : Nat → W64) => ∀ L ∈ x.lanes, (t L).extractLsb' 0 4 = 0
  Runs (.nop c f) Entry.plain c any (fun s x => Done.now x s) ∧
  Runs (.bra c f) Entry.plain c any (fun s x => jump x s fun _ => x.fr.pc + f.ops.imm.signExtend 64) ∧
  Runs (.brxa c f) Entry.plain c (fun s x => aligned x (reg s x)) (fun s x =>
    jump x (s.siteAfter x true false (if x.oneTarget (reg s x) then some Native.brx else none)) (reg s x)) ∧
  Runs (.brx c f) { Entry.plain with before := fun s x => if s.brxReplays x f then s.countSite x.blk.core 2 else s } c
    (fun s x => aligned x (reg s x)) (fun s x =>
      let replay := x.ctl.q && !x.oneTarget (reg s x)
      jump x (s.siteAfter x false replay none) (if replay then reg s x else fun _ => reg s x x.lead)) ∧
  (let target := fun (s : State) (x : Ctx) (L : Nat) =>
    if f.sub == 0 then x.fr.pc + f.ops.imm.signExtend 64 else s.op64 x f.ops.a L
   Runs (.call c f) Entry.plain c
    (fun s x => aligned x (target s x) ∧ ∀ L ∈ x.lanes, f.depth.toNat ≤ (x.st.lane L).cd.toNat + 1)
    (fun s x =>
      let linked := s.writeNow x (s.writesTo x f.ops.d true fun L => (x.fr.pc + 16) ||| (x.st.lane L).cd.zeroExtend 64)
      jump x (linked.updLanes x x.active fun _ l => { l with cd := f.depth, nest := l.nest + 1 }) (target s x))) ∧
  Runs (.ret c f) Entry.plain c
    (fun s x => ∀ L ∈ x.lanes, (reg s x L).getLsbD 3 = false ∧ 2 ≤ ((reg s x L).extractLsb' 0 3).toNat ∧
      (x.st.lane L).frameLive = false)
    (fun s x => jump x (s.updLanes x x.active fun L l => { l with cd := (reg s x L).extractLsb' 0 3, nest := l.nest - 1 })
      fun L => reg s x L &&& ~~~0xF#64) ∧
  Runs (.exit c f) Entry.plain c any (fun s x =>
    { Done.now x (if x.active = 0 then s else s.endLanes x) with gone := x.active }) ∧
  Runs (.nap c f) Entry.plain c (fun _ x => x.active ≠ 0) (fun s x =>
    { Done.now x s with nap := some (s.cycle + max (max (min (s.op32 x f.ops.a f.ops.imm x.lead) 0xFFFFFF) c.stall.toNat) 1) }) ∧
  Runs (.srd c f) Entry.plain c any (fun s x =>
    let ws := s.writesTo x f.ops.d (specialWide f.sel.toNat) fun L => s.special x f.sel.toNat L
    if f.sel.toNat = 0x0E then Done.now x (s.writeNow x ws) else Done.later x (s.result x 4 ws Flags.none)) ∧
  (let v := fun (s : State) (x : Ctx) => loWord (s.operand x .b32 false f.ops.a f.ops.imm x.lead)
   Runs (.swr c f) Entry.plain c (fun s x => x.active ≠ 0 ∧ fmodeLegal (v s x) = true) (fun s x =>
    Done.now x ((s.updStrand x.blk.uid x.sid fun st => { st with fmode := v s x }).errsGone (· == .fmode x.blk.uid x.sid)))) ∧
  Runs (.spawn c f) Entry.plain c
    (fun s x => x.active ≠ 0 ∧ ∀ L ∈ x.lanes,
      tagOf (reg s x L) = 0 ∧ (reg s x L).extractLsb' 0 6 = 0 ∧ s.recordMapped x (reg s x L) = true)
    (fun s x => Done.later x (s.startOp x .rel .dev false
      (.spawn (x.lanes.flatMap fun L => predPlace f.ops.d L)
        (x.lanes.map fun L => (L, reg s x L, loWord (s.operand x .u32 false f.ops.b f.ops.imm L))) []))) ∧
  Runs (.trace c f) Entry.plain c (fun _ x => x.active ≠ 0) (fun s x =>
    Done.later x (s.startOp x .rlx .dev false (.trace (s.traceRecord x f))))

/-- R232, R320, R321: TRAP and BKPT take their trap, with the code of the word; TRET sends each active lane to the resume PC
of its record and clears %traprec; with no active lane nothing happens. -/
def Obligations.TrapInstructions : Prop := ∀ (c : Ctl) (f : CFmt),
  let takes := fun (i : Instr) (cause : Cause) => ∀ s x, Passes i Entry.plain c s x → x.active ≠ 0 →
    exec i s = .next ((entered i Entry.plain s x).trapIssue x (Trap.of cause x.active 0 (f.ops.imm &&& 0xFFFF#32)))
  takes (.trap c f) .trap ∧ takes (.bkpt c f) .bkpt ∧
  Runs (.trap c f) Entry.plain c (fun _ x => x.active = 0) (fun s x => Done.now x s) ∧
  Runs (.bkpt c f) Entry.plain c (fun _ x => x.active = 0) (fun s x => Done.now x s) ∧
  Runs (.tret c f) Entry.plain c
    (fun s x => x.blk.inCoop = false ∧ ∀ L ∈ x.lanes, (x.st.lane L).traprec ≠ 0 ∧
      (s.trapReturn x.blk x.sid L).extractLsb' 0 4 = 0 ∧ (s.trapReturn x.blk x.sid L).extractLsb' 56 8 = 0)
    (fun s x =>
      { Done.now x (s.updLanes x x.active fun _ l => { l with traprec := 0 }) with
        pcOf := fun L => if x.active.getLsbD L then s.trapReturn x.blk x.sid L else x.fr.pc + 16 })

/-! ### Copies, code, context, the engine -/

/-- R179 to R184, R198 to R200, R126: copies, prefetches and code maintenance complete: their work stands in flight. -/
def Obligations.CopyCodeRuns : Prop := ∀ (c : Ctl) (f : McFmt),
  let on := fun (_ : State) (x : Ctx) => x.active ≠ 0
  let addr := fun (s : State) (x : Ctx) (L : Nat) => s.effAddr x f.ops.d f.ops.imm L
  let bar := fun (s : State) (x : Ctx) (L : Nat) => if f.ops.c.unused then 0 else s.op64 x f.ops.c L
  Runs (.cpa c f) (copyUniform f false) c (fun s x => x.active ≠ 0 ∧ (s.cpaTraps x f).findSome? id = none) (fun s x =>
    Done.later x (s.startCopies x fun L =>
      { tensor := false, dst := s.op64 x f.ops.d L, src := s.op64 x f.ops.a L,
        count := BitVec.ofNat 64 (s.op32 x f.ops.b f.ops.imm L), bar := bar s x L, imm := f.ops.imm, fmt := f.fmt,
        lane := L, credited := 0, step := 0, desc := none, group := 0 })) ∧
  Runs (.cpt c f) ((copyUniform f true).scans (descScan f.ops.a)) c (fun s x => x.active ≠ 0 ∧ (s.cptTraps x f).findSome? id = none) (fun s x =>
    Done.later x (s.startCopies x fun L =>
      { tensor := true, dst := s.op64 x f.ops.d L, src := s.op64 x f.ops.a L, count := s.op64 x f.ops.b L,
        bar := bar s x L, imm := f.ops.imm, fmt := f.fmt, lane := L, credited := 0, step := 0,
        desc := s.descAt x.blk (s.op64 x f.ops.a x.lead), group := 0 })) ∧
  Runs (.pref c f) Entry.plain c on (fun s x =>
    Done.later x (s.startOp x .rlx .thr false (.pref (f.sub == 1) (s.prefTarget x (addr s x x.lead))))) ∧
  Runs (.fetchb c f) Entry.plain c on (fun s x =>
    Done.now x (s.updStrand x.blk.uid x.sid fun st => { st with fetched := [] })) ∧
  Runs (.codeinv c f) Entry.plain c
    (fun s x => x.active ≠ 0 ∧ ∀ L ∈ x.lanes,
      tagOf (addr s x L) = 0 ∧ (addr s x L).extractLsb' 56 4 = 0 ∧ (s.codeXlate x (addr s x L)).isSome = true)
    (fun s x => Done.later x (s.startOp x .rlx .dev false
      (.codeinv ((x.lanes.filterMap fun L => (s.codeXlate x (addr s x L)).map fun p => lineOf p.1).eraseDups)))) ∧
  (let clear := fun (i : Instr) (pin : Bool) =>
    Runs i Entry.plain c
      (fun s x => x.active ≠ 0 ∧ ∀ L ∈ x.lanes, tagOf (addr s x L) = 0 ∧ (addr s x L).extractLsb' 0 4 = 0 ∧
        (s.codeXlate x (addr s x L)).any (fun p => p.2.sw) = true) (fun s x =>
      Done.later x (s.startOp x .rlx .dev false (.siteclr pin
        (x.lanes.foldl (fun acc L => match s.codeXlate x (addr s x L) with
          | some p => if acc.any fun q => q.1 == p.1 then acc else acc ++ [p]
          | none => acc) []))))
   clear (.siteclr c f) false ∧ clear (.siteclrPin c f) true)

/-- R233, R234: CTXST and CTXLD complete with their bytes in flight, or in the engine's queue for its classes; SVDONE marks
its strand, or lets the budget of the save run out at once, in the cooperative phase.  The model's choices in it: log 28. -/
def Obligations.ContextRuns : Prop := ∀ (c : Ctl) (f : SFmt),
  Runs (.ctxst c f) ({ Entry.plain with illegal := ctxIllegal f, sign := ctxReadTrap f }.scans (ctxstScan f)) c
    (fun s x => x.active ≠ 0 ∧ (s.ctxTraps x f .write).findSome? id = none ∧ ctxSpadTrap f s x = none) (fun s x =>
      let used := s.ctxUse x f .write
      Done.later x
        (if engineClass f.sub.toNat then
          used.ctxEngine x (.ctxst c f) (s.ctxRange x f x.lead) (s.op64 x f.ops.a x.lead) (s.ctxLocs x f .write x.lead)
        else used.startOp x .rlx .dev false (.ctxst ((ctxLanes f x).flatMap fun L =>
          (s.ctxLocs x f .write L).zip (s.ctxBytes x (s.ctxRange x f L) L))))) ∧
  Runs (.ctxld c f) ({ Entry.plain with illegal := ctxIllegal f }.scans fun s x =>
      s.scanLoad x.blk ((ctxLanes f x).flatMap fun L => s.ctxLocs x f .read L)) c
    (fun s x => x.active ≠ 0 ∧ (s.ctxTraps x f .read).findSome? id = none ∧ s.ctxPoison x f = none) (fun s x =>
      let used := s.ctxUse x f .read
      Done.later x
        (if engineClass f.sub.toNat then
          used.ctxEngine x (.ctxld c f) (s.ctxRange x f x.lead) (s.op64 x f.ops.a x.lead) (s.ctxLocs x f .read x.lead)
        else used.startOp x .rlx .dev false
          (.ctxld (s.ctxRange x f x.lead) ((ctxLanes f x).flatMap fun L => (s.ctxRange x f L).targets L)
            ((ctxLanes f x).flatMap fun L => (s.ctxLocs x f .read L).zip (s.ctxAddrs x f L))))) ∧
  Runs (.svdone c f) { Entry.plain with illegal := fun _ x => !x.blk.inCoop } c (fun _ x => x.active ≠ 0) (fun s x =>
    if f.sub == 0 then
      Done.now x (s.updStrand x.blk.uid x.sid fun st =>
        { st with svdone := some (x.fr.pc + f.ops.imm.signExtend 64, st.live) })
    else
      let t := s.updBlock x.blk.uid fun b => { b with mode := b.mode.hurry s.cycle }
      Done.now x { t with agenda := t.agenda ++ [.saveBudgetExpiry x.blk.uid] })

/-- R50, R216: a convergent engine instruction completes by signing its register with the values it must agree on; the last
signature issues the operation. -/
def Obligations.EngineSigns : Prop := ∀ (c : Ctl) (f : TFmt),
  let signs := fun (i : Instr) (vals : State → Ctx → List (Nat → W64)) (bad : State → Ctx → Bool)
      (counts : State → Ctx → W32) =>
    Runs i (convEntry i f.ops.c.num vals bad) c (fun _ x => x.active ≠ 0) (fun s x =>
      Done.later x (s.signCv x i f.ops.c.num ((vals s x).map fun v => v x.lead) (counts s x)))
  let rows := fun (s : State) (x : Ctx) => BitVec.ofNat 32 (s.op32 x f.ops.b f.ops.imm x.lead)
  signs (.mzero c f) noVals neverBad noCounts ∧ signs (.ldstat c f) (descVals f) neverBad noCounts ∧
  signs (.pswap c f) noVals neverBad noCounts ∧ signs (.mstream c f) (descVals f) (countsBad f) rows ∧
  signs (.accst c f) (descVals f) (countsBad f) rows ∧ signs (.accchk c f) noVals neverBad noCounts ∧
  signs (.accmov c f) noVals (countsBad f) rows ∧ signs (.accplane c f) noVals neverBad noCounts ∧
  signs (.miter c f) (miterVals f) neverBad noCounts ∧ signs (.kld c f) (kldVals f) (kldBad f) rows ∧
  signs (.kmov c f) (kmovVals f) neverBad noCounts

/-- R221, R222, R213: ACCLD takes its place in the engine's order, and each active lane reads the element that its coordinates
name from the tile as the operations before leave it, converted to the type; it completes with the values in the engine's queue.
The model's choices in it: log 21. -/
def Obligations.AccldRuns : Prop := ∀ (c : Ctl) (f : TFmt),
  Runs (.accld c f) (accldEntry f) c
    (fun s x => x.active ≠ 0 ∧ (s.drain x.blk f.ops.a.num).2 = none)
    (fun s x =>
      let s := (s.drain x.blk f.ops.a.num).1
      let t := x.blk.engine.tile f.ops.a.num
      let dst := x.lanes.flatMap fun L => s.placeOf x f.ops.d f.fmt.wide L
      let o : EngOp :=
        { id := s.nextId, decl := 0, dst := dst, locs := [], started := false,
          cap := { instr := .accld c f, vals := [], counts := 0, lane := x.lead, pc := x.fr.pc, signers := [x.signer s.nextId],
                   dropped := [] },
          bound := x.lanes.map fun L =>
            let v := s.op32 x f.ops.b f.ops.imm L
            (L, accldBits f.fmt t (t.at (v % 64) (v / 256 % 64))) }
      Done.later x
        { s.updBlock x.blk.uid fun b =>
            { b with eng := b.eng.map fun e => { e with queue := e.queue ++ [o] } } with
          nextId := s.nextId + 1 })

/-! ### The steps that finish operations in flight -/

/-- R81, R168 to R186, R239: the next lane of a load, store or atomic is performed when the orders let it: a load binds the
bytes its block sees, extended by its format, at once for every lane of one request, once the home has recalled what owners hold of its
lines; a store writes its bytes; an atomic makes its update at the home and binds the old bits.  R178, R275: a load or an atomic that meets an uncorrectable error binds and writes nothing: its operation ends and
the trap ECC stands pending on its lane.  The model's choices in it: log 17, 18, 19. -/
def Obligations.AccessesPerform : Prop := ∀ (s : State) (uid id : Nat) (b : Block) (o : Op) (a : LaneAcc) (rest : List LaneAcc),
  s.opOf uid id = some (b, o) → s.nextAcc b o = some a →
  (∀ dst zx done, o.kind = .load dst zx (a :: rest) done →
    let u := ((s.acquireFor b o.order o.scope).recallFor b a).scanLoad b a.locs
    let t := u.fillFor b a
    let value := fun (L : Nat) =>
      BitVec.ofNat 64 (a.fmt.loadBits zx (if L = a.lane then a.elem else elemOf a.fmt L) (leNum (t.readAcc b a)))
    (u.loadBad b a.locs = false →
      exec (.loadDataReturn uid id) s = .next ((t.consumeFor b a rest).advance b o (.load dst zx rest
        (done ++ (lanesOf a.group).map fun L => (L, value L))))) ∧
    (u.loadBad b a.locs = true → exec (.loadDataReturn uid id) s = .next (u.failOp b o a))) ∧
  (∀ fwd, o.kind = .store fwd (a :: rest) →
    let pas := a.locs.filterMap fun l => match l with
      | .phys pa => some pa
      | .spad _ _ => none
    let t := s.writeAcc b fwd a
    let t := if o.order.releases && o.scope.beyondBlock then t.ownNow b pas else t
    let t := if o.order = .sc then t.acquireFor b o.order o.scope else t
    exec (.storePerformed uid id) s = .next (t.advance b o (.store fwd rest))) ∧
  (∀ sub ty dst done, o.kind = .atomic sub ty dst (a :: rest) done →
    let t := (s.acquireFor b o.order o.scope).scanHome a.locs
    let r := t.atomAcc b sub ty a
    (t.mem.anyPoison a.locs = false →
      exec (.atomicHomeStep uid id) s =
        .next (r.1.advance b o (.atomic sub ty dst rest (done ++ [(a.lane, r.2.1, r.2.2)])))) ∧
    (t.mem.anyPoison a.locs = true → exec (.atomicHomeStep uid id) s = .next (t.failOp b o a)))

/-- R44, R168 to R190: the frame of a memory access at issue.  An access that issues leaves its strand's registers, predicates,
display registers and %fmode, the other strands and blocks, and the scratchpads as they were; its lanes stand at the next
word, and of a lane at most tokens change: that of SETT rises in the fragment where a lane is active, and no other does unless
the fragment merges with one that waits there (log 15).  Where no tenant logs its writes, no byte of memory or of a
cache changes, but that a forwarded line is consumed of which an operand's slot is read (R256): the access is only in flight.
The model's choices in it: log 25. -/
def Obligations.AccessIssueFrame : Prop := ∀ (i : Instr) (c : Ctl) (s : State) (x : Ctx) (t : State) (b : Block),
  isLaneAccess i = true → i.ctl = some c → s.ctx c = some x → s.mem.errs = [] → exec i s = .next t →
  t.block x.blk.uid = some b → (b.strand x.sid).issued = x.st.issued + 1 →
  t.caller = s.caller ∧ t.mgmt = s.mgmt ∧ t.fab = s.fab ∧ t.clusters = s.clusters ∧ t.cycle = s.cycle ∧
  t.mem.spad = s.mem.spad ∧
  ((∀ ten, (s.quota ten).logon = false) →
    t.mem = { (s.consumeAt x.blk (i.slotReads s x)).mem with tlb1 := t.mem.tlb1, tlb2 := t.mem.tlb2 } ∧ t.host = s.host ∧ t.agenda = s.agenda) ∧
  (∀ k, k ≠ x.blk.core → t.core k = s.core k) ∧ (∀ k, k ≠ x.blk.uid → t.block k = s.block k) ∧
  b.inner = x.blk.inner ∧ (∀ k, k ≠ x.sid → b.strand k = x.blk.strand k) ∧
  (let st := b.strand x.sid
   sameRegs x.st st ∧ st.fmode = x.st.fmode ∧
   (∀ L, x.fr.lanes.getLsbD L = true → (st.fragOf L).map (·.pc) = some (x.fr.pc + 16)) ∧
   (∀ L, L < 64 → (x.st.lane L).sameButTok (st.lane L)) ∧
   ((∀ g ∈ x.st.frags, g.pc = x.fr.pc + 16 → g.hold = .free) →
    ∀ L, L < 64 → st.lane L = if x.fr.lanes.getLsbD L = true ∧ c.sett ≠ 0 ∧ x.active ≠ 0
     then (x.st.lane L).setTok c.sett.toNat ((x.st.lane L).tok c.sett.toNat + 1) else x.st.lane L))

/-- R173, R237, R240, R276, R281: the frame of a store that is performed.  Nothing but memory changes.  Every byte of the
scratchpads outside the stored places stays.  Every other byte reads at its home as before, or as an L1 held it in a word that comes
home: a dirty word of a line that the store touches, a word of which the store writes other bytes, or a dirty word of the line that
makes room for a touched one in the L1 that takes it; no other value appears.  No access is longer than the 18 bytes of an SX8 block,
and the statement is about a module none of whose tiles sits out.  The model's choices in it: log 36, 40. -/
def Obligations.StoreFrame : Prop := ∀ (s : State) (b : Block) (fwd : Bool) (a : LaneAcc),
  s.mem.wf = true → s.mem.errs = [] → s.mem.cut = [] → a.locs.length ≤ 18 →
  let t := s.writeAcc b fwd a
  t = s.setMem t.mem ∧
  (∀ k, (∀ core ad, Loc.spad core ad ∈ a.locs → core * 2 ^ 20 + ad ≠ k) →
    t.mem.spad.get blankByte k = s.mem.spad.get blankByte k) ∧
  (∀ pa, Loc.phys pa ∉ a.locs → t.mem.homeByte pa = s.mem.homeByte pa ∨
    ∃ l ∈ s.mem.l1, ∃ w dirty, l.line = lineOf pa ∧ l.words.find (pa % 128 / 4) = some (w, dirty) ∧
      t.mem.homeByte pa = w.extractLsb' (8 * (pa % 4)) 8 ∧
      (dirty = true ∨ ∃ pa', Loc.phys pa' ∈ a.locs ∧ pa' / 4 = pa / 4) ∧
      ∃ pa', Loc.phys pa' ∈ a.locs ∧ (lineOf pa' = lineOf pa ∨
        (l1Set (lineOf pa') = l1Set (lineOf pa) ∧
          ∃ k ∈ s.mem.l1, k.quad = s.l1Quad b (lineOf pa' * lineBytes) ∧ k.line = lineOf pa)))

/-- R179 to R184, R193 to R195, R198, R126: the other operations in flight are performed: a copy's next granule or its
end, a barrier update or query at the bank, which ends with ECC pending where it meets an uncorrectable error (R275; log 18), a
prefetch, a code invalidation, a site's word.  The model's choices in it: log 9, 18, 55. -/
def Obligations.OperationsPerform : Prop := ∀ (s : State) (uid id : Nat) (b : Block) (o : Op),
  s.opOf uid id = some (b, o) →
  (∀ k, o.kind = .copy k → s.earlierDone b o.strand o.id (oneLane k.lane) .dev = true →
    let geom := s.copyGeom b k
    (k.steps geom ≤ k.step → exec (.copyGranule uid id) s = .next (s.endCopy b o k.group)) ∧
    (k.step < k.steps geom → s.inCopySlots b o = true → (∀ a ∈ s.copyAsks b o k geom, s.reached b a = true) →
      s.copyWaits b k geom = false →
      exec (.copyGranule uid id) s = .next ((s.copyStep b o k geom).closeAsks b.uid (s.copyAsks b o k geom)))) ∧
  (∀ u a l, o.kind = .bar u a l → s.barReady b o = true →
    let t := s.scanHome (barReads l u)
    exec (.bankUpdateDone uid id) s = .next (if t.mem.anyPoison (barReads l u) = true
      then (t.completeOp b.uid o).updStrand b.uid o.strand fun st => st.pendEcc o.active a o.pc
      else (t.applyBar l u).completeOp b.uid o)) ∧
  (∀ dst ph a l, o.kind = .bartry dst ph a l → s.barReady b o = true →
    let t := s.scanHome (l.span 16)
    let ok := (t.barAt l).done ph.toNat
    let ws := (dst.map fun d => partOf d.2.1 d.2.2 0 ok).filter fun w => !o.dropped.contains w.tgt
    exec (.bankUpdateDone uid id) s = .next (if t.mem.anyPoison (l.span 16) = true
      then (t.completeOp b.uid o).updStrand b.uid o.strand fun st => st.pendEcc o.active a o.pc
      else ((if ok then t.acquireBar b o.scope else t).writeResult b o.strand o.id ws).completeOp b.uid o)) ∧
  (∀ llc, o.kind = .pref llc none → exec (.prefDone uid id) s = .next (s.completeOp b.uid o)) ∧
  (∀ llc pa, o.kind = .pref llc (some pa) → s.answers b o = true →
    let t := s.scanHome (lineLocs (lineOf pa))
    let full := Config.missRegs ≤ (t.mem.misses.get [] (sliceOf pa)).length
    exec (.prefDone uid id) s = .next ((if full then t else t.setMem
      (if llc then t.mem.fillLlc (dieOfCore b.core) (lineOf pa) else t.mem.fill (t.l1Quad b pa) (lineOf pa))).completeOp b.uid o)) ∧
  (∀ lines, o.kind = .codeinv lines → s.answers b o = true →
    exec (.codeinvDone uid id) s =
      .next ((s.setMem (lines.foldl (fun m line => m.invalidateCode line) s.mem)).completeOp b.uid o)) ∧
  (∀ pin pa via rest, o.kind = .siteclr pin ((pa, via) :: rest) → s.mem.locked (lineOf pa) = false → s.answers b o = true →
    let t := (s.clearSite pin pa via).closeAsks b.uid o.asks
    exec (.siteclrWordHandled uid id) s = .next
      (if rest.isEmpty then t.completeOp b.uid o else t.updBlock b.uid fun x => x.putOp { o with kind := .siteclr pin rest }))

/-- R194, R195, R197: a held fragment is released when what it awaits has come: the phase of a barrier, the parity of a stage,
the accesses of a fence; it acquires at the barrier's scope, beyond the block by dropping the caches' copies, its token falls, and it
goes on behind the wait.  One whose object cannot be read issues again, to trap ECC.  The model's choices in it: log 26, 62, 103. -/
def Obligations.WaitsRelease : Prop := ∀ (s : State) (r : FragRef) (b : Block) (f : Frag),
  s.fragAt r = some (b, f) →
  (let waits := fun (i : Instr) (a : W64) (l : Loc) (ready : BarObj → Bool) =>
    let t := s.scanHome (l.span 16)
    (t.mem.anyPoison (l.span 16) = true → exec i s = .next (t.releaseWait b r.strand f f.pc)) ∧
    (t.mem.anyPoison (l.span 16) = false → ready (t.barAt l) = true →
      exec i s = .next ((if (barScope a).beyondBlock then t.setMem (t.mem.acquire b.core) else t).releaseWait b r.strand f (f.pc + 16))) ∧
    (t.mem.anyPoison (l.span 16) = false → ready (t.barAt l) = false → exec i s = .next t)
   (∀ a ph tok l ls, f.hold = .barwait a ph tok → s.scratchLocs b a 16 = some (l :: ls) →
     waits (.barwaitRelease r) a l fun o => o.done ph.toNat) ∧
   (∀ a ph inv tok l ls, f.hold = .stgwait a ph inv tok → s.scratchLocs b a 16 = some (l :: ls) →
     waits (.stgwaitRelease r) a l fun o => ((o.phase % 2 == 1) != ph) != inv)) ∧
  (∀ ws, f.hold = .fence ws → (∀ w ∈ ws, s.fenceDone b r.strand w = true) →
    exec (.fenceComplete r) s =
      .next ((if ws.any fun w => w.scope.beyondBlock then s.setMem (s.mem.acquire b.core) else s).releaseWait b r.strand f f.pc))

/-- R193: an update completes a phase exactly when the arrivals and the bytes both meet what is expected; the surplus carries
over, and the phase counts on modulo 2^32.  R194: a phase has completed when PHASE is 1 to 2^31 ahead of it, modulo 2^32.  R191: the fields of an object lie in its 16 bytes without loss. -/
def Obligations.BarrierPhases : Prop := ∀ (o : BarObj) (bytes n : Nat),
  (o.apply (.init n)).phase = 0 ∧ (o.apply (.init n)).cura = 0 ∧ (o.apply (.init n)).expb = 0 ∧
    (o.apply (.init n)).curb = 0 ∧ (o.apply (.init n)).expa = n % 65536 ∧
  (let a := (o.cura + n) % 65536
   if o.expa ≤ a ∧ o.expb ≤ o.curb then
    o.apply (.arrive n) =
      { phase := (o.phase + 1) % 2 ^ 32, curb := o.curb - o.expb, expb := 0, cura := a - o.expa, expa := o.expa }
   else o.apply (.arrive n) = { o with cura := a }) ∧
  (let e := (o.expb + bytes) % 2 ^ 32
   if o.expa ≤ o.cura ∧ e ≤ o.curb then
    o.apply (.expect bytes) =
      { phase := (o.phase + 1) % 2 ^ 32, curb := o.curb - e, expb := 0, cura := o.cura - o.expa, expa := o.expa }
   else o.apply (.expect bytes) = { o with expb := e }) ∧
  (∀ ph : W32, let d := ((o.phase : Int) - ph.toNat) % 2 ^ 32
    (o.done ph.toNat = true ↔ 1 ≤ d ∧ d ≤ 2 ^ 31)) ∧
  (o.phase < 2 ^ 32 → o.curb < 2 ^ 32 → o.expb < 2 ^ 32 → o.cura < 2 ^ 16 → o.expa < 2 ^ 16 →
    BarObj.ofNat o.toNat = o ∧ o.toNat < 2 ^ 128 ∧ BarObj.ofNat (leNum (leBytes 16 o.toNat)) = o)

/-! ### The steps around issue -/

/-- R55, R76, R82, R83, R115, R128, R129, R139: fetch, results, STALL and NAP, pending traps, words that are no instruction,
emulation and the resolver complete; a fragment held at a shared frame instruction takes a pending trap at the word behind it, and a
fetch that its core's instruction cache does not serve is a request of its own.  The model's choices in it: log 26, 42, 55. -/
def Obligations.IssueSteps : Prop := ∀ (s : State),
  (∀ r b f va t, s.fragAt r = some (b, f) → (s.core b.core).tile.inPlay = true → va56 f.pc = some va →
    s.translate (some b.quadId) b.ten b.pasid va .fetch = some t →
    (s.mem.hasCode b.core (lineOf (t.pa va)) = true ∨ s.reached b (Ask.of 0 false false (t.pa va)) = true) →
    let u := if s.mem.hasCode b.core (lineOf (t.pa va)) = true then s else s.closeAsks b.uid [Ask.of 0 false false (t.pa va)]
    let u := u.useXlate (some b.quadId) t .fetch
    let m := u.mem.fetchLine b.core (lineOf (t.pa va))
    exec (.instructionFetch r) s = .next ((u.setMem m).updStrand b.uid r.strand fun st =>
      if (st.wordAt f.pc).isSome then st
      else { st with fetched := st.fetched ++ [(f.pc, m.fetchWord b.core (t.pa va))] })) ∧
  (∀ r b f, s.fragAt r = some (b, f) → (s.core b.core).tile.inPlay = true → s.ready b r.strand f = true → f.pend = [] →
    (va56 f.pc = none ∨ ∀ va, va56 f.pc = some va → s.translate (some b.quadId) b.ten b.pasid va .fetch = none) →
    exec (.instructionFetch r) s = .next (s.deliverTrap b r.strand f (Trap.of .access f.lanes f.pc 0) f.pc false)) ∧
  (∀ blk sid id b p, s.block blk = some b → (b.strand sid).pendw.find? (fun q => q.id == id) = some p → p.due ≤ s.cycle →
    p.writes.all (s.slotWriteReady b sid id) = true →
    exec (.resultWriteback blk sid id) s = .next ((s.writeResult b sid p.id p.writes).updStrand blk sid fun st =>
      { st.tokDown p.lanes p.tok.toNat with pendw := st.pendw.filter fun q => q.id != id })) ∧
  (∀ r b f t, s.fragAt r = some (b, f) → f.stall = some t → t ≤ s.cycle →
    exec (.stallExpiry r) s =
      .next (s.updStrand b.uid r.strand fun st => st.updFrag f.lanes fun g => { g with stall := none })) ∧
  (∀ r b f t, s.fragAt r = some (b, f) → f.nap = some t → t ≤ s.cycle →
    exec (.napExpiry r) s = .next (s.updStrand b.uid r.strand fun st => st.updFrag f.lanes fun g => { g with nap := none })) ∧
  (∀ r b f p rest, s.fragAt r = some (b, f) → f.pend = p :: rest → s.trapDue b r.strand f = true →
    exec (.pendingTrapDelivery r) s =
      .next ((s.updStrand b.uid r.strand fun st => st.giveUp f).deliverTrap b r.strand
        { f with pend := rest, pc := if f.hold = .shared then f.pc + 16 else f.pc } p.trap p.pc p.engine)) ∧
  (∀ w x, s.ctx (Ctl.ofWord w) = some x → Ctx.canTake s x = true →
    exec (.illegalWord w) s =
      .next (s.trapIssue x (Trap.illegalWord x.active w))) ∧
  (∀ w x, s.ctx (Ctl.ofWord w) = some x → Ctx.canTake s x = true → x.blk.strandIdle x.sid = true →
    s.earlierDone x.blk x.sid s.nextId x.fr.lanes .dev = true → exec (.laterLevelOpcode w) s =
      .next ((s.commit x { Done.now x s with pcOf := fun _ => x.fr.pc, hold := .emul w }).notify
        (.csEmul { blk := x.blk.uid, strand := x.sid, lane := lowest x.fr.lanes } (Config.emulEffect w s.fresh)))) ∧
  (∀ r b f w e, s.fragAt r = some (b, f) → f.hold = .emul w →
    (sheetHandler s.caller.sheet (w.extractLsb' 120 8).toNat = false →
      exec (.csEmul r e) s = .next (s.deliverTrap b r.strand f (Trap.illegalWord (s.emulActive r w) w) f.pc false)) ∧
    (sheetHandler s.caller.sheet (w.extractLsb' 120 8).toNat = true →
      let u := s.countSite b.core 7
      (∀ t, emulTrap e b f (s.emulActive r w) w u = some t →
        exec (.csEmul r e) s = .next (u.deliverTrap b r.strand f t f.pc false)) ∧
      (emulTrap e b f (s.emulActive r w) w u = none →
        let t := emulOnMemory e b (u.setMem (u.mem.acquire b.core))
        let t := t.updBlock b.uid fun x => x.overtake r.strand t.nextId (e.uregs.map fun v => Tgt.ureg v.1)
        exec (.csEmul r e) s = .next ((t.errsGone (emulWrites e b.uid r.strand)).updStrand b.uid r.strand fun st =>
          (emulOnStrand e f.lanes b.hdr st).release f (e.pc.getD (f.pc + 16)))))) ∧
  (∀ core id q, (s.core core).siteReqs.find? (fun r => r.id == id) = some q → s.mem.locked (lineOf q.pa) = false →
    s.siteArrived q = true →
    let t := s.setCore core { s.core core with siteReqs := (s.core core).siteReqs.filter fun r => r.id != id }
    (t.mem.wordAt q.pa ≠ q.expected → exec (.siteResolve core id) s = .next t) ∧
    (t.mem.wordAt q.pa = q.expected →
      let u := if t.mustLog q.via .write then t.logDirty q.via.ten q.via else t
      let u := (u.rewrite q.pa q.new).countSite core (if q.widening then 4 else 1)
      exec (.siteResolve core id) s = .next (if q.widening && q.new.getLsbD 102 then u.countSite core 5 else u)))

/-! ### The matrix engine's steps -/

/-- R213, R228, R288: the operation at the head of the engine has its effect, or its next iteration, or its next lock; an
update of global tiles is applied once all its lines are locked.  Each lock takes a token of the rate limiter, an effect asks its homes
first, and an update's reads of its descriptor are searched for soft errors.  The model's choices in it: log 27, 55, 91. -/
def Obligations.EngineSteps : Prop := ∀ (s : State) (uid : Nat) (b : Block) (o : EngOp) (q : List EngOp),
  s.block uid = some b → b.engine.queue = o :: q → (s.core b.core).tile.inPlay = true →
  (o.miter? = none → s.needsLocks b o.cap = none → s.engReady b o = true →
    exec (.engineOpComplete uid) s = .next ((endEngine b o (s.engEffect b o)).closeAsks uid (s.engAsks b o))) ∧
  (∀ f, o.miter? = some f → (b.mode.isDebug = true → b.fatal.isSome = true) → exec (.miterIteration uid) s = .next (s.miterIter b o f)) ∧
  (∀ f l ls, s.needsLocks b o.cap = some f → s.toLock b o f = .ok (l :: ls) → s.mayLock b o l = true →
    let t := s.takeToken b.core b.ten
    exec (.tileUpdateLock uid) s = .next (t.setMem (t.mem.lockLine l uid))) ∧
  (∀ f, s.needsLocks b o.cap = some f → s.toLock b o f = .ok [] →
    let r := (s.engScan b o.cap).engAccst b f (o.cap.val 0) o.cap.counts
    exec (.tileUpdateApply uid) s = .next (endEngine b o (r.1.setMem (r.1.mem.unlock b.uid), r.2)))

/-- R213, R218, R219: MZERO sets its tile's mode, every element and sum to zero and OVF to 0, and leaves both planes zero with PF BF16
and K 64; PSWAP exchanges the planes.  No other tile changes, nor k0 to k15, ISTAT, the partner of the last MITER, what the engine needs
and what it has queued; with no error pending no byte of memory. -/
def Obligations.TilesAndPlanes : Prop := ∀ (s : State) (b : Block) (o : EngOp), s.block b.uid = some b → b.eng.isSome = true →
  s.mem.errs = [] →
  let r := s.engEffect b o
  let e := ((r.1.block b.uid).getD b).engine
  let same := fun (e : Engine) => e.ks = b.engine.ks ∧ e.istat = b.engine.istat ∧ e.rprev = b.engine.rprev ∧
    e.need = b.engine.need ∧ e.queue = b.engine.queue
  (∀ c f, o.cap.instr = .mzero c f →
    let t := e.tile f.ops.d.num
    r.2 = none ∧ r.1.mem = s.mem ∧ t.int = f.int ∧ t.ovf = false ∧
    (∀ k, t.elems.get 0 k = 0 ∧ t.sumrow.get 0 k = 0 ∧ t.sumcol.get 0 k = 0) ∧
    (∀ n, n ≠ f.ops.d.num → e.tile n = b.engine.tile n) ∧
    e.active = { pf := .bf16, k := 64, cells := [] } ∧ e.shadow = { pf := .bf16, k := 64, cells := [] } ∧ same e) ∧
  (∀ c f, o.cap.instr = .pswap c f →
    r.2 = none ∧ r.1.mem = s.mem ∧ e.active = b.engine.shadow ∧ e.shadow = b.engine.active ∧
    (∀ n, e.tile n = b.engine.tile n) ∧ same e)

/-! ### The outside: requests, links, telemetry, attestation, resets -/

/-- R242, R280, R352, R353, R379 to R383: a request of a host or a peer is served, but for one beyond the 2^39 bytes of device
memory, which has no home: the model stops there, and only there; what a host reads it may keep.  After a failed boot no request is
served (R377).  Snoops, links, attestation and telemetry change what the spec says and nothing else.  The model's choices in it: log 51,
52, 85, 90. -/
def Obligations.OutsideSteps : Prop := ∀ (s : State),
  (∀ m pa req,
    (2 ^ 39 < pa + reqBytes req →
      exec (.hostMemRequest pa req) s = .fault .noDeviceMemory ∧ exec (.peerRequest m pa req) s = .fault .noDeviceMemory) ∧
    (pa + reqBytes req ≤ 2 ^ 39 → s.mgmt.booted = false →
      exec (.hostMemRequest pa req) s = .next s ∧ exec (.peerRequest m pa req) s = .next s) ∧
    (pa + reqBytes req ≤ 2 ^ 39 → s.mgmt.booted = true → s.requestWaits pa req = false →
      exec (.peerRequest m pa req) s = .next (s.serveRequest pa req) ∧
      (∀ n, req = .read n →
        exec (.hostMemRequest pa req) s = .next ((s.setMem (s.mem.hostTakes (reqLines pa req))).serveRequest pa req)) ∧
      (∀ d, req = .write d → exec (.hostMemRequest pa req) s = .next ((s.setMem { s.mem with
        hostCopies := s.mem.hostCopies.filter fun l => !(reqLines pa req).contains l }).serveRequest pa req)))) ∧
  (∀ pa data, paSpace pa = 1 →
    let m := s.mem.dropTag (lineOf pa)
    exec (.hostSnoop pa .invalidate data) s =
      .next (s.setMem ((m.unhold (sliceOf pa) (lineOf pa)).hostWrites pa data)) ∧
    (∀ owned, m.hostLines.find (lineOf pa) = some owned → exec (.hostSnoop pa .share data) s =
      .next (s.setMem { m with hostLines := m.hostLines.put (lineOf pa) false }))) ∧
  exec (.hostLinkDown 0) s = .next { s with host := { s.host with link0 := false } } ∧
  exec (.hostLinkDown 1) s = .next { s with host := { s.host with link1 := false } } ∧
  exec (.hostLinkUp 0) s = .next { s with host := { s.host with link0 := true } } ∧
  exec (.hostLinkUp 1) s = .next { s with host := { s.host with link1 := true } } ∧
  (∀ p t, exec (.powerSample p t) s =
    .next { s with mgmt := { s.mgmt with pnow := min p s.mgmt.plim, throt := min t Config.period } }) ∧
  (∀ core temp droop alarm, let k := alarmKinds s.fresh
    (k.1 = true ∨ k.2 = true) ∧ exec (.sensorUpdate core temp droop alarm) s =
      .next ({ s with fresh := s.fresh + 1 }.setCore core
        { s.core core with temp := temp, droop := droop, thermal := alarm && k.1, droopAlarm := alarm && k.2 })) ∧
  (∀ i stress remain, exec (.wearUpdate i stress remain) s =
    let n := s.mgmt.hours.get 0 i + 1
    .next { s with mgmt := { s.mgmt with
      wear := s.mgmt.wear.put i (stress, if n < 100 then 0xFFFFFFFF else remain), hours := s.mgmt.hours.put i n } }) ∧
  (∀ w, tenantWord w 0x50 = true → s.mgmt.leaf + s.mgmt.unbegun < 2 ^ 20 →
    exec (.attestationRequest w) s =
      .next ({ s with mgmt := { s.mgmt with attest := s.mgmt.attest ++ [(cmdTenant w, none, [])] } } : State).beginAttest.cmdOk) ∧
  (∀ ten leaf msg rest, s.mgmt.attest = (ten, some leaf, msg) :: rest →
    let t := s.writePa s.mgmt.attaddr (msg ++ leBytes 4 leaf ++ padTo 2816 (Config.xmssSign leaf msg))
    exec .attestationSigned s = .next ({ t with mgmt := { t.mgmt with attest := rest } } : State).beginAttest)

/-- R384, R385: a device reset and a loss of power leave no block, no cache line, no translation and no command: the caller is at its
reset but for the call sheet that it has loaded and the event of its start, the host's registers are at theirs, and no report is under
way; what stood behind the ports stays over a reset and is gone from device memory after a loss of power; the links and the leaf
counter stay.  A function-level reset of PF0 is a device reset; another's stops its tenant and ends its blocks, waits until nothing of
the tenant is left, and then drops its translations.  The model's choices in it: log 53. -/
def Obligations.Resets : Prop := ∀ (s : State),
  let commandless := fun (t : State) =>
    t.caller = { State.reset.caller with sheet := s.caller.sheet, events := t.caller.events } ∧
    (t.caller.events = [] ∨ t.caller.events = [.csReset]) ∧
    t.host = { State.reset.host with link0 := s.host.link0, link1 := s.host.link1, out := s.host.out } ∧
    t.mgmt.attest = [] ∧ t.mgmt.attaddr = 0
  exec .deviceReset s = .next (s.afterReset s.mem.afterReset) ∧ exec (.vfFlr 0) s = .next (s.afterReset s.mem.afterReset) ∧
  (let t := s.afterReset s.mem.afterReset
   t.blocks = [] ∧ t.clusters = [] ∧ t.cores = [] ∧ t.mem.mem = s.mem.mem ∧ t.mem.llc = [] ∧ t.mem.l1 = [] ∧
   t.mem.copies = [] ∧ t.mem.icache = [] ∧ t.mem.tlb1 = [] ∧ t.mem.tlb2 = [] ∧ t.mem.spad = [] ∧ t.mem.poison = s.mem.poison ∧
   t.cycle = 0 ∧ t.agenda = [] ∧ t.cur = none ∧ t.fab = State.reset.fab ∧ commandless t ∧
   t.mgmt.leaf = s.mgmt.leaf ∧ t.mgmt.wear = s.mgmt.wear ∧ t.mgmt.plim = 2200) ∧
  (let m := { MemSys.reset with mem := s.mem.mem.filter fun kv => !isHbm kv.1 }
   let t := s.afterReset m
   exec .powerLoss s = .next t ∧ t.blocks = [] ∧ t.mem = m ∧ m.llc = [] ∧ m.spad = [] ∧ m.poison = [] ∧
   (∀ pa, isHbm pa = true → t.mem.mem.get blankByte pa = 0) ∧ t.mgmt.leaf = s.mgmt.leaf ∧
   t.cores = [] ∧ t.cycle = 0 ∧ t.agenda = [] ∧ t.fab = State.reset.fab ∧ commandless t) ∧
  (∀ vf, vf ≠ 0 → s.mgmt.booted = true → s.caller.flrs.contains vf = false →
    exec (.vfFlr vf) s = .next ((s.tenantBlocks vf).foldl State.flrBlock
      (s.setCaller { s.caller with
        stopped := s.caller.stopped.filter (· != vf) ++ [vf], flrs := s.caller.flrs ++ [vf] }))) ∧
  (∀ vf, vf ≠ 0 → s.mgmt.booted = true → s.caller.flrs.contains vf = true →
    (s.tenantQuiet vf = false → exec (.vfFlr vf) s = .next s) ∧
    (s.tenantQuiet vf = true →
      let t := s.setCaller { s.caller with flrs := s.caller.flrs.filter (· != vf) }
      exec (.vfFlr vf) s = .next ((t.setMem (s.mem.dropTlb fun x => x.ten == vf)).unstop vf)))

/-! ### The fabric, the caches, the arrays -/

/-- R332, R336, R337, R338, R370: in its slot a waiting request enters the fabric at the price of a token, be it an access of an
operation, another request of a block or the resolver's; outside it the flit is dropped and the violation told; a flit whose CRC fails is sent again one period of the calendar later, and a second failure
takes the link down until it has retrained; a slice accepts the head of the slot's tenant, passes on to the memory port a read
that it does not serve (R283), which looks for errors there, frees the miss register and in a service slot writes back.  R240, R276, R277: the steps of the caches, in service slots,
move bytes between an L1, a slice and a home.  The model's choices in it: log 55. -/
def Obligations.FabricSteps : Prop := ∀ (s : State),
  (∀ core t uid id b o, (s.tile core).inPlay = true → s.slotAllows (.tenant t) = true → s.opOf uid id = some (b, o) →
    b.core = core → s.wantsInject b o = true → (s.calendarMode = true → b.ten = t) → s.mayInject core b.ten false = true →
    s.linkIsDown (crossing core (o.targetPa.getD 0)) = false →
    exec (.flitInject core (.tenant t) uid id) s =
      .next ((s.takeToken core b.ten).setStage uid o (.injected (slotOf s.cycle) s.cycle s.cycle))) ∧
  (∀ core t uid b a, (s.tile core).inPlay = true → s.slotAllows (.tenant t) = true → s.opOf uid s.nextId = none →
    s.block uid = some b → b.core = core → s.nextAsk b = some a → (s.calendarMode = true → b.ten = t) →
    s.mayInject core b.ten a.goesOn = true → s.linkIsDown (crossing core a.pa) = false →
    let o := a.op s.nextId (.injected (slotOf s.cycle) s.cycle s.cycle)
    let u := (s.takeToken core b.ten).updBlock uid fun x => { x with flight := x.flight ++ [o] }
    exec (.flitInject core (.tenant t) uid s.nextId) s = .next { u with nextId := s.nextId + 1 }) ∧
  (∀ core t uid id r, (s.tile core).inPlay = true → s.slotAllows (.tenant t) = true → s.opOf uid id = none → s.block uid = none →
    (s.core core).siteReqs.find? (fun r => r.id == id && r.stage == .waiting) = some r → (s.calendarMode = true → r.via.ten = t) →
    s.mayInject core r.via.ten false = true → s.linkIsDown (crossing core r.pa) = false →
    let u := s.takeToken core r.via.ten
    exec (.flitInject core (.tenant t) uid id) s = .next (u.setCore core { u.core core with
      siteReqs := (u.core core).siteReqs.map fun q =>
        if q.id == id then { q with stage := .injected (slotOf u.cycle) u.cycle u.cycle } else q })) ∧
  (∀ core cls uid id, (s.tile core).inPlay = true → s.slotAllows cls = false →
    exec (.flitInject core cls uid id) s = .next (s.violation core)) ∧
  (∀ uid id b o pair, s.opIn uid id = some (b, o) → o.underWay = true →
    crossing b.core (o.targetPa.getD 0) = some pair →
    (s.fab.replays.find? (fun r => r.1 == uid && r.2.1 == id) = none → ∀ again,
      exec (.flitReplay uid id again) s =
        .next (({ s with fab := { s.fab with replays := s.fab.replays ++ [(uid, id, s.cycle + Config.slots)] } } : State).setStage
          uid o (o.stage.delay (s.cycle + Config.slots)))) ∧
    (∀ r, s.fab.replays.find? (fun r => r.1 == uid && r.2.1 == id) = some r → r.2.2 ≤ s.cycle →
      exec (.flitReplay uid id false) s =
        .next { s with fab := { s.fab with replays := s.fab.replays.filter fun q => q != r } } ∧
      exec (.flitReplay uid id true) s = .next ({ s with fab :=
        { s.fab with replays := s.fab.replays.filter fun q => q != r,
                     linkDown := s.fab.linkDown.filter (· != pair) ++ [pair] } }.setCaller
          { s.caller with linkFaults := s.caller.linkFaults ++ [pair] }))) ∧
  (∀ a b, exec (.linkRetrainComplete a b) s =
    .next { s with fab := { s.fab with linkDown := s.fab.linkDown.filter fun p => p != (min a b, max a b) } }) ∧
  (∀ slice b o, slice < 128 → s.headAt slice = some (b, o) →
    let pa := o.targetPa.getD 0
    let line := lineOf pa
    (paSpace pa = 1 →
      let m := s.mem.hold slice line
      exec (.requestAccept slice) s = .next ((s.setMem { m with
        hostLines := m.hostLines.put line (o.kind.writesHome || (m.hostLines.find line).getD false) }).setStage b.uid o .accepted)) ∧
    (paSpace pa ≠ 1 → (o.kind.writesHome = true ∨ isHbm pa = false ∨ s.mem.served slice line = true) →
      exec (.requestAccept slice) s = .next (s.setStage b.uid o .accepted)) ∧
    (isHbm pa = true → o.kind.writesHome = false → s.mem.served slice line = false →
      exec (.requestAccept slice) s = .next ((s.setMem (s.mem.lookup slice line)).setStage b.uid o (.atPort s.cycle)))) ∧
  (∀ port b o, s.headAtPort port = some (b, o) →
    let line := lineOf (o.targetPa.getD 0)
    let shared := s.blocks.any fun c => c.flight.any fun p => p.id != o.id && p.targetPa.map lineOf == some line && (match p.stage with
      | .atPort _ => true
      | _ => false)
    let m := s.mem.portRead line
    exec (.requestAccept (128 + port)) s =
      .next ((s.setMem (if shared then m else m.freeMiss (sliceOf (o.targetPa.getD 0)) line)).setStage b.uid o .accepted)) ∧
  (∀ port slice, s.headAtPort port = none → s.mem.wbFor port = some slice → s.slotAllows .service = true →
    exec (.requestAccept (128 + port)) s = .next (s.setMem (s.mem.drainWb slice))) ∧
  (s.cycle % Config.period = 0 → exec .tokenRefill s = .next { s with
    cores := (s.cores.map fun kv => (kv.1, kv.2.refill s.quota)).filter fun kv => kv.2 != Core.reset }) ∧
  (∀ quad line, s.slotAllows .service = true →
    exec (.recallLine line) s = .next { s with mem := s.mem.recallLine line } ∧
    ((s.tile (quad / 4)).inPlay = true → exec (.mergingFill quad line) s =
      .next ((s.scanHome (lineLocs line)).inService ((s.scanHome (lineLocs line)).mem.fill quad line))) ∧
    exec (.l1Writeback quad line) s = .next { s with mem := s.mem.l1Evict quad line } ∧
    (s.mem.wantsGrant quad line = true →
      exec (.ownershipGrant quad line) s = .next { s with mem := s.mem.grant quad line }))

/-- R240, R348: how a line leaves an L1.  An eviction loses nothing: while the dirty words of every L1 line have their owner
and no tile sits out, every byte reads at its home after the eviction as it did before, and that L1 holds the line no more.  A slice that forgets a tile
poisons the lines that the tile owned, and no L1 of it holds a line of the slice.  The model's choices in it: log 36. -/
def Obligations.LinesLeaveL1 : Prop := ∀ (m : MemSys),
  (∀ (quad line pa : Nat), m.wf = true → m.errs = [] → m.cut = [] → (∀ l ∈ m.l1, l.hasDirty = true → l.owned = true) →
    (m.l1Evict quad line).homeByte pa = m.homeByte pa ∧ (m.l1Evict quad line).l1Line quad line = none) ∧
  (∀ (slice core : Nat),
    (∀ l ∈ (m.forgetTile slice core).l1, ¬(l.quad / 4 = core ∧ sliceOf (l.line * lineBytes) = slice)) ∧
    (∀ l ∈ m.l1, l.quad / 4 = core → sliceOf (l.line * lineBytes) = slice → l.owned = true →
      ∀ i, i < 16 → (16 * l.line + i) ∈ (m.forgetTile slice core).lpoison) ∧
    (m.forgetTile slice core).mem = m.mem ∧ (m.forgetTile slice core).llc = m.llc)

/-- R237, R281, R287, R289: what memory gives back.  A byte written at its port reads back there, and with no region under scrub
every other byte stays; a line under scrub reads as zeros, and the first write to it leaves zeros in the rest of the line; a
write performed at the home of a device byte is what the home reads afterwards.  The model's choices in it: log 3. -/
def Obligations.MemoryReadsBack : Prop := ∀ (m : MemSys) (pa pa' : Nat) (v : Byte), m.wf = true →
  (m.portWrite pa v).wf = true ∧
  (m.scrubs = [] → (m.portWrite pa v).portByte pa = v ∧ (pa' ≠ pa → (m.portWrite pa v).portByte pa' = m.portByte pa')) ∧
  (m.scrubbed pa = true → m.portByte pa = 0 ∧ (m.portWrite pa v).portByte pa = v) ∧
  (m.scrubbed pa = true → lineOf pa' = lineOf pa → pa' ≠ pa → (m.portWrite pa v).portByte pa' = 0) ∧
  (isHbm pa = true → (m.homeWrite [(pa, v)]).homeByte pa = v)

/-- R269, R272, R274, R289, R290, R365, R366: scrub orders and steps, bank ownership and handover, soft errors and page walks
complete.  What caches hold of a region goes to its ports ahead of the scrub.  The model's choices in it: log 40, 56, 88. -/
def Obligations.ArraySteps : Prop := ∀ (s : State),
  (∀ stack, let r := s.mem.scrubReg stack
    let mine := s.mem.scrubs.filter fun sc => sc.stack == stack
    (mine.length < 16 → mine.any (fun sc => sc.region == r.region) = false →
      let m := (s.mem.cachedIn stack r.region).foldl MemSys.sendHome s.mem
      exec (.scrubOrder stack) s = .next { s with mem := { m with scrubs := m.scrubs ++
        [{ stack := stack, region := r.region, wm := (List.range 32).map fun p => (p, 16384), touched := [] }] } }) ∧
    (16 ≤ mine.length ∨ mine.any (fun sc => sc.region == r.region) = true →
      exec (.scrubOrder stack) s = .next { s with mem := s.mem.setScrubReg stack { r with refused := true } })) ∧
  (∀ stack region port sc l, s.mem.scrubs.find? (fun q => q.stack == stack && q.region == region) = some sc →
    sc.wm.get 0 port = l + 1 → s.slotAllows .service = true →
    let m := if sc.touched.contains (port, l) then s.mem else s.mem.zeroLine (scrubLine stack region port l)
    let rest := m.scrubs.filter fun q => !(q.stack == stack && q.region == region)
    exec (.scrubStep stack region port) s = .next { s with mem :=
      { m with scrubs := if (sc.lower port).wm.isEmpty then rest else rest ++ [sc.lower port] } }) ∧
  (∀ core v, spownOk v = false → exec (.spownWrite core v) s = .next s.callerError) ∧
  (∀ core v, spownOk v = true →
    (movedBanks (s.core core).spown v).any (fun b =>
      s.occupied core (bankOwner (s.core core).spown b) || s.occupied core (bankOwner v b)) = false →
    exec (.spownWrite core v) s = .next (s.setCore core
      { s.core core with spown := v,
                         zeroing := (s.core core).zeroing ++
                           (movedBanks (s.core core).spown v).filter fun b => !(s.core core).zeroing.contains b })) ∧
  (∀ core bank, (s.core core).zeroing.contains bank = true → ∃ t, exec (.bankZeroDone core bank) s = .next t ∧
    t.mem.mem = s.mem.mem ∧ t.mem.llc = s.mem.llc ∧ (t.core core).zeroing = (s.core core).zeroing.filter (· != bank) ∧
    (∀ a, a < 32768 → t.mem.spad.get blankByte (core * 2 ^ 20 + bank * 32768 + a) = 0) ∧
    (∀ a, (a < core * 2 ^ 20 + bank * 32768 ∨ core * 2 ^ 20 + bank * 32768 + 32768 ≤ a) →
      t.mem.spad.get blankByte a = s.mem.spad.get blankByte a)) ∧
  (∀ loc c, exec (.softError loc c) s = .next { s with mem := { s.mem with
    errs := s.mem.errs.filter (fun e => e.1 != loc) ++ [(loc, c && !s.mem.errs.any fun e => e.1 == loc)] } }) ∧
  (∀ core quad ten pasid va acc a x, va56 va = some a → s.walk ten pasid a = some x → x.grants acc = true →
    let log := s.mustLog x acc
    exec (.tlbWalk core quad ten pasid va acc) s =
      .next (((if log then s.logDirty ten x else s).cachePasid pasid).fillTlb (4 * core + quad)
        (if log then { x with dirty := true } else x)))

/-! ### The watch mesh -/

/-- R341 to R350: beats, windows, the silence of three windows without a good beat, suspicion, notices, refusals, self-tests and the
fabric commands complete, or are refused in another state.  The model's choices in it: log 54, 87, 100. -/
def Obligations.WatchSteps : Prop := ∀ (s : State) (core dir : Nat),
  let t := s.tile core
  (t.stopped = false → t.state.beats = true → s.mgmt.booted = true →
    let w := if 0 < t.badNext then s.beatWord core ^^^ 1 else s.beatWord core
    let u := s.setTile core
      { t with badNext := t.badNext - 1, health := s.healthOf core, uncAt := s.mem.unc core,
               rejoinBeats := if t.state = .rejoin then t.rejoinBeats + 1 else t.rejoinBeats }
    exec (.beatSend core) s =
      .next { u with agenda := u.agenda ++ (List.replicate (1 + t.extra) (beatTo core w)).flatten }) ∧
  (∀ from_ beat, recordOf core dir = some from_ →
    let r := (s.nbr core dir).judge s.cycle from_ ((s.tile from_).state == .rejoin) beat
    let u := s.setNbr core dir r.1
    exec (.beatReceive core dir beat) s =
      .next (reviewAll reviewFuel [core] (if dir = ownDir then u.ownEvidence core r.2 else u))) ∧
  (∀ from_, recordOf core dir = some from_ → (s.tile from_).state.beats = true → (s.nbr core dir).seen = true →
    exec (.windowEnd core dir) s =
      .next (reviewAll reviewFuel [core] (s.setNbr core dir { s.nbr core dir with missed := 0, seen := false }))) ∧
  (∀ from_, recordOf core dir = some from_ → (s.tile from_).state.beats = true → (s.nbr core dir).seen = false →
    let n := { s.nbr core dir with missed := (s.nbr core dir).missed + 1, good := 0, admitBit := false }
    let m := { n with susp := true, evidence := periodOf s.cycle }
    (n.missed < 3 → exec (.windowEnd core dir) s = .next (reviewAll reviewFuel [core] (s.setNbr core dir n))) ∧
    (3 ≤ n.missed → dir ≠ ownDir → exec (.windowEnd core dir) s = .next (reviewAll reviewFuel [core] (s.setNbr core dir m))) ∧
    (3 ≤ n.missed → dir = ownDir → exec (.windowEnd core dir) s =
      .next (reviewAll reviewFuel [core] ((s.setNbr core dir m).ownEvidence core [1])))) ∧
  ((s.nbr core dir).susp = true → recent (periodOf s.cycle) (s.nbr core dir).evidence = false →
    exec (.suspicionExpiry core dir) s = .next (s.setNbr core dir { s.nbr core dir with susp := false })) ∧
  (∀ slice, t.inPlay = false → s.slotAllows .service = true → s.endUpdates.lastWaits slice core = false →
    let u := (s.endUpdates.lastRequests slice core).foldl (fun s r => s.serveLast r.1 r.2) s.endUpdates
    let u := u.setMem (u.mem.forgetTile slice core)
    let u := { u with fab := { u.fab with notices := u.fab.notices.filter fun n => n != (slice, core) } }
    (t.state ≠ .out ∨ u.fab.notices.any (fun n => n.2 == core) = true → exec (.sitOutNotice slice core) s = .next u) ∧
    (t.state = .out → u.fab.notices.any (fun n => n.2 == core) = false → exec (.sitOutNotice slice core) s =
      .next (reviewAll reviewFuel ((List.range 8).filterMap (nbrOf core)) (u.setTile core (t.afterOut u.cycle))))) ∧
  (∀ line kind, t.inPlay = false → kind ≠ NackKind.sharedInvalidation → ∃ u, exec (.satOutNack kind line core) s = .next u ∧
    (∀ i, i < 16 → (16 * line + i) ∈ u.mem.lpoison) ∧ (∀ l ∈ u.mem.l1, ¬(l.quad / 4 = core ∧ l.line = line))) ∧
  (t.state = .selftest → t.since + Config.selfTestCycles ≤ s.cycle →
    exec (.selftestDone core false) s = .next (s.setTile core { t with state := .retired, since := s.cycle }) ∧
    ∃ u, exec (.selftestDone core true) s = .next u ∧ (u.tile core).state = .rejoin ∧ (u.tile core).passed = true ∧
      (u.core core).zeroing = [] ∧ (∀ l ∈ u.mem.l1, l.quad / 4 ≠ core) ∧
      (∀ a, a < 2 ^ 20 → u.mem.spad.get blankByte (core * 2 ^ 20 + a) = 0)) ∧
  (exec (.coreStopped core .stop) s = .next (s.setTile core { t with stopped := true })) ∧
  (∀ n, exec (.coreStopped core (.extraBeats n)) s = .next (s.setTile core { t with extra := n })) ∧
  (∀ n, exec (.coreStopped core (.badBeats n)) s = .next (s.setTile core { t with badNext := n })) ∧
  (∀ w, fabricCmd w = some core → t.state = .live ∨ t.state = .suspect →
    exec (.setout w) s = .next (reviewAll reviewFuel ((List.range 8).filterMap (nbrOf core)) (s.sitOut core 5)).cmdOk) ∧
  (∀ w, fabricCmd w = some core → t.state ∉ [.live, .suspect, .probation] → exec (.setout w) s = .next s.cmdBad) ∧
  (∀ w, fabricCmd w = some core → t.state ≠ .probation →
    exec (.readmit w) s = .next s.cmdBad ∧ exec (.retire w) s = .next s.cmdBad) ∧
  (∀ w, fabricCmd w = some core → t.state = .probation →
    exec (.setout w) s = .next (s.fallBack core 5).cmdOk ∧
    exec (.retire w) s = .next (s.setTile core { t with state := .retired, since := s.cycle }).cmdOk ∧
    (let u := s.setTile core { t with state := .live, since := s.cycle }
     let u := u.setMem { u.mem with cut := u.mem.cut.filter (· != core) }
     exec (.readmit w) s =
      .next (u.setCaller { u.caller with outCores := u.caller.outCores.filter (· != core) }).cmdOk))

/-- R341, R342: the beat of any of the 256 tiles carries its own CRC, its tile and its period; received in its window it is good, and
with one bit of it turned it is bad, and counts as no beat of the tile. -/
def Obligations.BeatCrc : Prop := ∀ (s : State) (core i : Nat), i < 64 → core < 256 →
  let w := s.beatWord core
  let w' := w ^^^ (1#64 <<< i)
  crc8 w = (w.extractLsb' 0 8).toNat ∧ (w.extractLsb' 56 8).toNat = core ∧
  (w.extractLsb' 48 8).toNat = s.cycle / Config.period % 256 ∧
  crc8 w' ≠ (w'.extractLsb' 0 8).toNat ∧
  ∀ (n : Nbr) (cycle : Nat) (rejoin : Bool),
    beatOffset core ≤ cycle → (cycle - beatOffset core) % Config.period < 64 →
    (cycle - beatOffset core) / Config.period % 256 = s.cycle / Config.period % 256 →
    let g := (n.judge cycle core rejoin w).1
    let b := (n.judge cycle core rejoin w').1
    g.seen = true ∧ g.beatAt = some (periodOf cycle) ∧ g.bad = n.bad.filter (fun q => recent (periodOf cycle) q) ∧
    g.beatSusp = w.extractLsb' 40 8 ∧ g.beatAdmit = w.extractLsb' 32 8 ∧
    b.seen = n.seen ∧ b.beatAt = n.beatAt ∧ b.good = 0 ∧ b.admitBit = false ∧
    b.bad = periodOf cycle :: n.bad.filter (fun q => recent (periodOf cycle) q)

/-! ### The caller -/

/-- R294, R298, R310, R314, R327, R358: the caller's entries complete: at its start every queue of an enabled tenant is resumed;
a block that has ended, been lost or been saved is taken off its quadrant with the bookkeeping that its end asks for; a core
that sits out loses its blocks; at the end of a slice its tenant's blocks are to be stopped and the next sliced tenant runs.
A statement about the default call sheet, which any loaded sheet is taken to act as (log 60).  The model's choices in it: log 37, 39, 49
(the victim of a tick). -/
def Obligations.CallerSteps : Prop := ∀ (s : State),
  exec .csReset s =
    .next ((enabledTenants s.host.quota).foldl (fun s t => s.ringAll t) (s.setCaller { s.caller with dropped := [] })) ∧
  (∀ ten q, exec (.csDoorbell ten q) s =
    .next (if s.caller.doorbells.contains (ten, q) then s
      else s.setCaller { s.caller with doorbells := s.caller.doorbells ++ [(ten, q)] })) ∧
  (∀ core quad slot b, s.blockIn core quad slot = some b →
    (b.mode = .ended → s.mayDecide = true →
      exec (.csBlkend core quad slot) s =
        .next (((s.qsub b.ten b.qnum qLIVEBLK).removeBlock b).countEnd b.ten b.qnum b.gseq
          (if b.fatal.isSome then stFault else stDone))) ∧
    (∀ reason, b.mode = .lost reason → s.mayDecideN 2 = true →
      let t := ((s.trapAppend b.ten (lostRecord b)).qadd b.ten b.qnum qQLOST 1).qsub b.ten b.qnum qLIVEBLK
      let u := (t.logDecision (Decision.block kLost reason b)).removeBlock b
      exec (.csLost core quad slot) s =
        .next (if b.hdr.idem then u.goBack b true else u.countEnd b.ten b.qnum b.gseq stLost)) ∧
    (∀ kind, b.mode = .leaving kind → exec (.csSaved core quad slot kind) s = .next (s.removeBlock b))) ∧
  (∀ core, let t := s.setCaller { s.caller with outCores := s.caller.outCores.filter (· != core) ++ [core] }
    ((∀ n ∈ s.fab.notices, n.2 ≠ core) → exec (.csSitout core) s =
      .next ((t.blocks.filter fun b => b.core == core).foldl (fun s b => s.sitOutBlock b) t)) ∧
    ((∃ n ∈ s.fab.notices, n.2 = core) → exec (.csSitout core) s = .next (s.notify (.csSitout core)))) ∧
  (∀ ten e, s.caller.slice = some (ten, e) → e ≤ s.cycle →
    exec (.csTick ten) s =
      .next ((s.askStop (s.tenantBlocks ten) 0).openSlice (nextSliced s.host.quota ten))) ∧
  (s.caller.slice = none → exec (.csTick 0) s =
    .next ((enabledTenants s.host.quota).foldl (fun s t => match (s.starved t).bind (s.victim t) with
      | some b => s.askStop [b] 1
      | none => s) s))

/-- R141, R142, R296 to R310: the caller's decisions complete: a queue whose control block cannot be used stops; a rung queue is examined, a queue with work is served, a bank
move is asked for; a SPAWN offers its lanes' records one by one; a trace record is appended; a block of which every strand has
ended, or whose trap was fatal, ends once all its operations have completed.  A statement about the default call sheet (log 60).  The
model's other choices in it: log 39, 96. -/
def Obligations.DecisionSteps : Prop := ∀ (s : State),
  (∀ tq, s.mayDecide = true → s.brokenQueue = some tq → exec .placementDecision s = .next (s.queueStop tq.1 tq.2)) ∧
  (∀ t q rest, s.mayDecide = true → s.brokenQueue = none → s.caller.doorbells = (t, q) :: rest →
    (∀ u, s.examine t q = .did u → exec .placementDecision s = .next u) ∧
    (s.examine t q = .nothing → exec .placementDecision s = .next (s.setCaller { s.caller with doorbells := rest }))) ∧
  (s.mayDecide = true → s.brokenQueue = none → s.caller.doorbells = [] →
    (∀ e aged, s.chooseQueue s.eligible = some (e, aged) → s.logsWork (e, aged) = true →
      exec .placementDecision s = .next (s.serveQueue e aged)) ∧
    (∀ core v, s.chooseQueue s.eligible = none → s.wantsBanks = some (core, v) →
      exec .placementDecision s = .next { s with agenda := .spownWrite core v :: s.agenda })) ∧
  (∀ uid id b o dst L va q rest done, s.opOf uid id = some (b, o) → o.kind = .spawn dst ((L, va, q) :: rest) done →
    s.earlierDone b o.strand o.id (oneLane L) .dev = true → (s.hasQueue b.ten q.toNat = true ∨ s.mayDecide = true) →
    let r := s.offer b q.toNat va
    let done := done ++ [(L, r.2)]
    exec (.csSpawn uid id) s = .next
      (if rest.isEmpty then
        (r.1.writeResult b o.strand o.id ((spawnWrites dst done).filter fun w => !o.dropped.contains w.tgt)).completeOp uid o
      else r.1.updBlock uid fun x => x.putOp { o with kind := .spawn dst rest done })) ∧
  (∀ uid id b o r, s.opOf uid id = some (b, o) → o.kind = .trace r →
    exec (.traceRecordDone uid id) s = .next ((s.traceAppend b.ten r).completeOp uid o)) ∧
  (∀ uid b, s.block uid = some b → b.fatal = none → b.mode.canEnd = true → b.over = true → b.noMark = true →
    s.allDone b = true →
    exec (.blockEnd uid) s = .next (((s.freeSlots b).endBlock uid .ended).notify (.csBlkend b.core b.quad b.slot))) ∧
  (∀ uid b r, s.block uid = some b → b.fatal = some r → b.mode.killable = true → s.allDone b = true →
    let t := (s.freeSlots b).endBlock uid .ended
    let t := t.setCaller { t.caller with debugs := t.caller.debugs.filter fun v => v.key != uid }
    exec (.fatalTrap uid) s =
      .next ((if r.fatal then t.trapAppend b.ten r else t).notify (.csBlkend b.core b.quad b.slot)))

/-- R308, R323 to R329: stopping a block completes: the choice for a running block, the opening and the end of a cooperative
phase, a drain that took too long, the forced save and the debug save, a restore; and the debugger's commands.
A statement about the default call sheet (log 60).  The model's other choices in it: log 37, 38, 48, 71, 99. -/
def Obligations.StopSteps : Prop := ∀ (s : State),
  (∀ uid reason b, s.block uid = some b →
    (s.mayStop b = true → s.stopReady uid = true → (b.mode = .running ∧ b.fatal = none ∧ b.over = false) ∨ (∃ slot, b.mode = .debug slot) →
      exec (.stopDecision uid reason) s = .next (s.choose reason b)) ∧
    ((s.mayStop b = false ∨ s.stopReady uid = false) →
      (b.mode = .running ∧ b.fatal = none ∧ b.over = false) ∨ (∃ slot, b.mode = .debug slot) →
      exec (.stopDecision uid reason) s = .next (s.askStop [b] reason)) ∧
    (∀ slot second r, b.mode = .preempt slot second r → b.coopRests = true →
      exec (.stopDecision uid reason) s = .next (s.openPhase b slot second r)) ∧
    (∀ since r, b.drain = some (since, r) → since + 256 * s.caller.cfg.drainlim ≤ s.cycle → b.fatal = none →
      b.over = false → s.mayStop b = true → s.stopReady uid = true →
      let f := s.slotsFree b.ten b.qnum (slotsOf b * max b.hdr.cluster 1)
      let husks := (s.clusterBlocks b).filter fun x => x.mode == .husk
      exec (.drainTimeout uid) s = .next (if f.2 then
        husks.foldl (fun t x => t.saveHusk x) ((s.drainingMates b).foldl (fun t x => t.stopMember r (s.progress b) true x) f.1)
        else f.1)) ∧
    (∀ slot second dl r, b.mode = .coop slot second dl r → b.allMarked = true → s.phaseRests b = true →
      exec (.saveBudgetExpiry uid) s = .next (s.closePhase b slot second dl.isNone)) ∧
    (∀ slot second d r, b.mode = .coop slot second (some d) r → b.allMarked = false → d ≤ s.cycle → s.mayForce = true →
      exec (.saveBudgetExpiry uid) s = .next ((s.logDecision (Decision.block kForced r b)).updBlock uid fun x =>
        { x with mode := x.mode.force })) ∧
    (∀ slot first r, b.mode = .saving slot first r → s.atRest b = true →
      exec (.forcedSave uid) s = .next (s.forceOut b slot first)) ∧
    (∀ rec, b.mode = .breakpoint rec → s.atRest b = true → (s.slotsFree b.ten b.qnum 1).2 = true →
      let t := (s.slotsFree b.ten b.qnum 1).1.takeSlot b.ten b.qnum
      exec (.forcedSave uid) s =
        .next ((t.1.updBlock uid fun x => { x with mode := .debug t.2 }).debugSave b t.2 rec false)) ∧
    (∀ slot, b.mode = .parting slot → s.atRest b = true → exec (.forcedSave uid) s =
      .next (if s.matesBusy b then s else s.forceOut b slot none)) ∧
    (∀ sid lane slot rec held, b.mode = .stepping sid lane slot rec true held → s.atRest b = true →
      exec (.forcedSave uid) s = .next (s.debugSave b slot (some rec) (b.stepHeld sid lane held)))) ∧
  (∀ key core quad v g slot window base, s.caller.saved.find? (fun v => v.key == key) = some v →
    s.gridOf v.ten v.qnum v.gseq = some g → s.fitsOn v.ten g.hdr (quadId core quad) = true →
    (∀ x ∈ s.blocks, x.cluster = v.cluster → x.core = core ∧ x.quad ≠ quad) → s.freeSlot core quad = some slot → s.windowOn core quad g.hdr.grant = some window →
    s.slotVa v.ten v.qnum v.slot = some base →
    let b := s.returning g v core quad slot window
    s.imageReadable b base = true →
    (imageOk b (s.slotReader b base) = true →
      let t := ((s.settle b).unsave key).loadImage b v base
      exec (.restore key core quad) s = .next (if v.first.isSome then t else t.freeSave v.ten v.qnum v.slot)) ∧
    (imageOk b (s.slotReader b base) = false →
      exec (.restore key core quad) s =
        .next (let t := ((s.trapAppend v.ten (s.formatRecord b base)).drawn).unsave key
          if v.ended then t else (t.qsub v.ten v.qnum qLIVEBLK).countEnd v.ten v.qnum v.gseq stFault))) ∧
  (∀ w b, s.debugBlock w 0x20 false = some b → b.mode.stoppable = true → b.fatal = none → b.over = false →
    (s.slotsFree b.ten b.qnum 1).2 = true →
    exec (.stop w) s =
      .next (((s.slotsFree b.ten b.qnum 1).1.updBlock b.uid fun x => { x with mode := .breakpoint none }).cmdOk)) ∧
  (∀ w b slot base, s.debugBlock w 0x21 true = some b → b.mode = .debug slot → s.slotVa b.ten b.qnum slot = some base →
    (w.extractLsb' 40 4).toNat < b.hdr.strands → imageOk b (s.slotReader b base) = true → b.fatal = none →
    s.imageReadable b base = true → ∀ t,
    (s.loadImage b (s.debugEntry b slot) base).stepFrom b slot (w.extractLsb' 40 4).toNat (w.getLsbD 39)
      (w.extractLsb' 33 6).toNat = some t →
    exec (.step w) s = .next t.cmdOk) ∧
  (∀ w b slot base, s.debugBlock w 0x22 false = some b → b.mode = .debug slot → s.slotVa b.ten b.qnum slot = some base →
    b.fatal = none → s.imageReadable b base = true → imageOk b (s.slotReader b base) = true →
    exec (.resume w) s =
      .next ((((s.loadImage b (s.debugEntry b slot) base).dropDebug b.uid).freeSave b.ten b.qnum slot).cmdOk)) ∧
  (∀ w v, s.debugBlock w 0x22 false = none → s.savedDebug w = some v →
    exec (.resume w) s = .next ((s.setCaller { s.caller with saved := s.caller.saved.map fun x =>
      if x.key == v.key then { x with debugAt := none } else x }).cmdOk)) ∧
  (∀ w b, s.debugBlock w 0x23 false = some b → b.mode.killable = true → ∃ r : TrapRec,
    r.fatal = true ∧ r.tblk = BitVec.ofNat 32 b.idx ∧
    exec (.kill w) s =
      .next ((s.updBlock b.uid fun x => { x with fatal := x.fatal.orElse fun _ => some r }).drawn.cmdOk))

/-! ### Registers, ports, tables -/

/-- R294, R295, R298, R312, R355: the commands of CMD that are not the debugger's, the load of a call sheet and LOGRING
complete.  The model's choices in it: log 52, 60 (what a loaded sheet does), 102. -/
def Obligations.CommandSteps : Prop := ∀ (s : State),
  (∀ w, cmdOp w = 0x42 → w.extractLsb' 0 43 = 0 →
    let ten := cmdTenant w
    let q := (w.extractLsb' 43 8).toNat
    s.hasQueue ten q = true → s.qget ten q qQSTATE ≠ 2 →
    exec (.qsync w) s =
      .next (((s.setCaller { s.caller with dropped := s.caller.dropped.filter (· != (ten, q)) }).ring ten q).cmdOk)) ∧
  (∀ w, tenantWord w 0x40 = true →
    let ten := cmdTenant w
    (s.caller.vfstops.contains ten = false → exec (.vfstop w) s =
      .next ((s.setCaller { s.caller with
        stopped := s.caller.stopped.filter (· != ten) ++ [ten], vfstops := s.caller.vfstops ++ [ten] }).askStop
          (s.tenantBlocks ten) 3)) ∧
    (s.caller.vfstops.contains ten = true → s.tenantQuiet ten = true → exec (.vfstop w) s =
      .next ((s.setCaller { s.caller with vfstops := s.caller.vfstops.filter (· != ten) }).setStopped ten true).cmdOk)) ∧
  (∀ w, tenantWord w 0x41 = true → exec (.vfresume w) s = .next (s.unstop (cmdTenant w)).cmdOk) ∧
  (∀ im, s.caller.loading = none → exec (.callSheetLoad im) s =
    .next (s.setCaller { s.caller with cfg := { s.caller.cfg with halt := true }, loading := some (im, s.caller.cfg.halt) })) ∧
  (∀ im was, s.caller.loading = some (im, was) → s.blocks.any Block.busyWithCaller = false →
    let t := s.setCaller { s.caller with cfg := { s.caller.cfg with halt := was }, loading := none }
    exec (.callSheetLoad im) s = .next
      (match t.sheetOf im with
        | some sh => (t.setCaller { t.caller with sheet := sh, rr := [] }).notify .csReset
        | none => (t.logDecision (Decision.grid kRefuse 0 noQueue 0)).notify .csReset)) ∧
  (∀ (v : W64), let n := (v.extractLsb' 0 5).toNat
    exec (.logringWrite v) s = .next (s.setCaller { s.caller with
      logbase := baseOf v, logsize := if 8 ≤ n ∧ n ≤ 20 then n else 8, loghead := 0 }).flushLog)

/-- R353, R354, R360, R361, R335, R336, R357, R367, R368, R374, R382: a register write of 8 bytes at a multiple of 8 has its
register's effect, a read returns its value, any other access is logged, and a read of it gives zero; beyond the register page stands the
function's MSI-X table (R369); a queue port answers 0 for a record that its queue takes, 2 for a malformed write, 1 else; the calendar,
the quota table, an invalidation, whose translations go at its GO and again at its end, and the dirty log go on; with a failed boot
nothing of them does (R377).  The model's choices in it: log 50, 51, 70, 80, 89. -/
def Obligations.RegisterSteps : Prop := ∀ (s : State),
  (∀ fn off width v, s.host.link0 = true → (fn = 0 ∨ s.mgmt.booted = true) → width < 256 →
    (0x20000 ≤ off → exec (.registerWrite fn off width v) s = .next (s.writeBeyond fn off width v) ∧
      exec (.registerWrite fn off (256 + width) v) s =
        .next (s.send (.data (leBytes width (s.readReg fn off width).toNat)))) ∧
    (off < 0x20000 → width = 8 → off % 8 = 0 →
      exec (.registerWrite fn off width v) s = .next (if fn = 0 then s.writePf off v else s.writeInv fn off v) ∧
      exec (.registerWrite fn off (256 + width) v) s = .next (s.send (.data (leBytes 8 (s.readReg fn off 8).toNat)))) ∧
    (off < 0x20000 → width ≠ 8 ∨ off % 8 ≠ 0 →
      exec (.registerWrite fn off width v) s = .next (s.hostErr 6 fn (off / 8) 0) ∧
      exec (.registerWrite fn off (256 + width) v) s =
        .next ((s.send (.data (leBytes width 0))).hostErr 6 fn (off / 8) 0))) ∧
  (∀ v, ∃ t, exec (.powctlWrite v) s = .next t ∧
    t.mgmt.plim = max 600 (min 2200 (v.extractLsb' 48 16).toNat) ∧ { s with mgmt := t.mgmt } = t) ∧
  (s.mgmt.booted = false → (∀ fn port p dmwr data, exec (.queuePortWrite fn port p dmwr data) s = .next s) ∧
    exec .qtctlLoad s = .next s) ∧
  (∀ fn vec, vec < 2048 → exec (.registerWrite fn (0x20000 + 16 * vec + 12) 4 1) s =
    .next (if s.host.link0 = true ∧ (fn = 0 ∨ s.mgmt.booted = true) then s.maskVector fn vec true else s)) ∧
  (∀ fn port p dmwr data, s.host.link0 = true → s.mgmt.booted = true → 1024 ≤ port ∨ data.length ≠ 64 ∨ dmwr = false →
    let t := s.hostErr 4 fn (port % 1024) p
    exec (.queuePortWrite fn port (some p) dmwr data) s = .next (if dmwr then t.send (.portStatus 2) else t)) ∧
  (∀ fn port p data e ten valid, s.host.link0 = true → s.mgmt.booted = true → port < 1024 → data.length = 64 → s.pasidEntry p = some (e, ten, valid) →
    let t := s.cachePasid p
    (valid = false →
      exec (.queuePortWrite fn port (some p) true data) s = .next ((s.hostErr 1 fn port p).send (.portStatus 1))) ∧
    (valid = true → fn ≠ 0 → ten ≠ fn →
      exec (.queuePortWrite fn port (some p) true data) s = .next ((t.hostErr 2 fn port p).send (.portStatus 1))) ∧
    (valid = true → fn = 0 ∨ ten = fn → t.hasQueue ten port = false →
      exec (.queuePortWrite fn port (some p) true data) s = .next ((t.hostErr 3 fn port p).send (.portStatus 1))) ∧
    (valid = true → fn = 0 ∨ ten = fn → t.hasQueue ten port = true →
      let r := t.acceptRecord ten port data
      exec (.queuePortWrite fn port (some p) true data) s =
        .next (if r.2 then (r.1.notify (.csDoorbell ten port)).send (.portStatus 0) else r.1.send (.portStatus 1)))) ∧
  (let ok := tableOk s.fab.shadow (enabledTenants s.host.quota)
   (ok = true → exec .calctlLoad s =
      .next { s with fab := { s.fab with pending := some s.fab.shadow, refused := false } }) ∧
   (ok = false → exec .calctlLoad s = .next { s with fab := { s.fab with refused := true } })) ∧
  (∀ t, s.fab.pending = some t → slotOf s.cycle = 0 →
    exec .calendarCommit s = .next { s with fab := { s.fab with table := t, pending := none } }) ∧
  (s.mgmt.booted = true → s.host.quotaNext = none →
    (quotaOk (readQuota s) = false → exec .qtctlLoad s = .next { s with host := { s.host with qtRefused := true } }) ∧
    (quotaOk (readQuota s) = true →
      let t := s.setHost { s.host with quotaNext := some (quotaOf (readQuota s)), qtRefused := false }
      exec .qtctlLoad s = .next (t.askStop t.departing 2))) ∧
  (∀ qt, s.mgmt.booted = true → s.host.quotaNext = some qt → s.departing = [] →
    let t := s.handQuads qt
    (t.fab.table = buildCalendar qt → exec .qtctlLoad s = .next (t.commitQuota qt)) ∧
    (t.fab.table ≠ buildCalendar qt → t.fab.pending ≠ some (buildCalendar qt) →
      exec .qtctlLoad s = .next { t with fab := { t.fab with pending := some (buildCalendar qt) } })) ∧
  (∀ fn, let r := s.inv fn
    let go := fun (i : Instr) (scope : Nat) => r.busy = false → r.scope = scope → s.invForeign fn r = false →
      exec i s = .next ((((s.setMem (s.mem.dropTlb (r.hits (r.tenant fn)))).dropTables r (r.tenant fn))).setInv fn
        { r with busy := true, refused := false, upto := s.nextId })
    go (.invTenant fn) 0 ∧ go (.invPasid fn) 1 ∧ go (.invPasidRange fn) 2 ∧ go (.invStage2Range fn) 3 ∧ go (.invTables fn) 4 ∧
    (r.busy = true → s.invWaits r (r.tenant fn) = false →
      exec (.invalidationDone fn) s =
        .next (((s.setMem (s.mem.dropTlb (r.hits (r.tenant fn)))).dropTables r (r.tenant fn)).setInv fn
          { r with busy := false, done := r.done + 1 }))) ∧
  (∀ ten, (s.quota ten).enable = true → (s.quota ten).logon = true → s.dlogFree ten ≤ 1024 →
    bitN (s.dlogNum ten 9 1) 1 = false → s.host.low.contains ten = false →
    exec (.dirtyLogPoll ten) s =
      .next (((s.setDlFlag ten 2 true).setHost { s.host with low := s.host.low ++ [ten] }).raiseEvent ten
        (((s.setDlFlag ten 2 true).setHost { s.host with low := s.host.low ++ [ten] }).dlogNum ten 0xA 2)))

/-! ### Words -/

/-- R54 to R73: a few words written out field by field from the spec's encoding decode to the instructions they stand for. -/
def Obligations.DecodeWords : Prop :=
  let plain : Ctl :=
    { stall := 0, guard := 7, wait := 0, sett := 0, yld := false, q := false, pin := false, flips := 0 }
  let none_ : Ops := { d := .vec 0, a := .vec 0, b := .vec 0, c := .vec 0, imm := 0 }
  decodeInstr 0x01070000_00000000_00000000_00000000#128 = (.nop plain { sub := 0, depth := 0, sel := 0, ops := none_ }) ∧
  decodeInstr 0xB2070400_00300A00_40000106_00000000#128 = (.atomg { plain with sett := 2 }
    { sub := 0, ty := .u32, ord := false, order := .rlx, scope := .dev, clu := false,
      ops := { none_ with d := .vec 3, a := .vec 10, b := .vec 4 } }) ∧
  decodeInstr 0x10470000_00200300_40000000_00000000#128 = (.iadd { plain with stall := 4 }
    { sub := 0, ty := .i32, sty := .i32, modv := false, ops := { none_ with d := .vec 2, a := .vec 3, b := .vec 4 } }) ∧
  decodeInstr 0x07070000_00000000_00000000_00000000#128 = (.exit plain { sub := 0, depth := 0, sel := 0, ops := none_ }) ∧
  decodeInstr 0xF1070000_00000000_00000000_00000000#128 = (.laterLevelOpcode 0xF1070000_00000000_00000000_00000000#128) ∧
  decodeInstr 0 = .illegalWord 0 ∧ decodeInstr (BitVec.allOnes 128) = .illegalWord (BitVec.allOnes 128)

/-- R54 to R73: decoding an encoded well-formed instruction gives it back, whatever its fields hold. -/
def Obligations.EncodeDecode : Prop := ∀ (i : Instr) (w : InstrWord),
  i.wf = true → encode i = some w → decode w = .ok i ∧ decodeInstr w = i ∧ decodeTableWord 128 w.toNat = some i

/-- R54 to R73, R82: what decodes is well-formed, and no bit of its word is dropped: it encodes to that word again. -/
def Obligations.DecodeEncode : Prop := ∀ (i : Instr) (w : InstrWord),
  decode w = .ok i → i.wf = true ∧ encode i = some w

/-- R73, R82, R128: a word with an unassigned opcode, with 0xFF, or with a bit of SITE 98:96 set is the step ILLEGAL_WORD; a
word of a later level is the step LATER_LEVEL_OPCODE; any other word is ILLEGAL_WORD or a well-formed instruction with its
opcode. -/
def Obligations.WordFates : Prop := ∀ (w : InstrWord),
  let opc := (w.extractLsb' 120 8).toNat
  (opc = 0x00 ∨ (0x29 ≤ opc ∧ opc ≤ 0x3F) ∨ (0x52 ≤ opc ∧ opc ≤ 0x6F) ∨ (0x76 ≤ opc ∧ opc ≤ 0x7F) ∨ (0x86 ≤ opc ∧ opc ≤ 0x8F) ∨
      (0xA0 ≤ opc ∧ opc ≤ 0xAF) ∨ (0xB6 ≤ opc ∧ opc ≤ 0xBF) ∨ (0xCD ≤ opc ∧ opc ≤ 0xCF) ∨ (0xDA ≤ opc ∧ opc ≤ 0xDF) ∨
      (0xEC ≤ opc ∧ opc ≤ 0xEF) ∨ opc = 0xFF → decodeInstr w = .illegalWord w) ∧
  (opc < 0xF0 → w.extractLsb' 96 3 ≠ 0 → decodeInstr w = .illegalWord w) ∧
  (0xF0 ≤ opc → opc ≤ 0xFE → decodeInstr w = .laterLevelOpcode w) ∧
  (opc < 0xF0 → decodeInstr w = .illegalWord w ∨
    ((decodeInstr w).wf = true ∧ (decodeInstr w).opc.toNat = opc ∧ (decodeInstr w).ctl = some (Ctl.ofWord w)))

/-! ### The step -/

/-- R44, R47, R76: a step takes the next event of the agenda; else writes a result that is due; else issues: the word at the
chosen fragment's PC is decoded and its instruction runs, fetched first where it has not been; else what else is under way;
else the next cycle begins.  Around an event of the caller, hart 0 is entered at its handler.  The model's choices in it: that the
agenda comes first (log 1), the order of the rest (log 14), that one hart takes every event (log 60). -/
def Obligations.StepRunsDecoded : Prop := ∀ (s : State),
  (∀ i rest, s.agenda = i :: rest → step s = exec i (({ s with agenda := rest } : State).claim i)) ∧
  (s.agenda = [] →
    (∀ i, s.dueResult = some i → step s = exec i s) ∧
    (s.dueResult = none →
      (∀ p, s.pickIssue = some p →
        (∀ q rest, p.frag.pend = q :: rest → step s = exec (.pendingTrapDelivery p.ref) s) ∧
        (p.frag.pend = [] → ∀ w i,
          ((p.blk.strand p.sid).wordAt p.frag.pc = some w → decode w = .ok i →
            step s = settled (exec i { s with cur := some { ref := p.ref, word := w } })) ∧
          (∀ t, (p.blk.strand p.sid).wordAt p.frag.pc = none → exec (.instructionFetch p.ref) s = .next t →
            (t.strand p.blk.uid p.sid).wordAt p.frag.pc = some w → decode w = .ok i →
            step s = settled (exec i { t with cur := some { ref := p.ref, word := w } })))) ∧
      (s.pickIssue = none →
        (∀ i t, s.elsewhere = some (i, t) → step s = exec i (t.claim i)) ∧
        (s.elsewhere = none → step s = .next s.nextCycle))))

/-- R44, R82, R83: an instruction whose fragment is held changes nothing; one with an ILLEGAL condition traps ILLEGAL with its
word, whatever the guard, and with no other effect, be the condition common to all instructions or its own entry's; with none, one
outside its strand's role traps ROLE with the fragment's lanes.  The model's choices in it: log 7, 8. -/
def Obligations.IssueChecks : Prop := ∀ (i : Instr) (c : Ctl) (s : State) (x : Ctx), i.ctl = some c → s.ctx c = some x →
  let traps := fun (t : Trap) => exec i s = .next (s.trapIssue x t)
  (x.canIssue i s = false → exec i s = .next s) ∧
  (x.canIssue i s = true → i.illegal x = true ∨ ownIllegal i s x = true → traps (Trap.illegalWord x.active x.word)) ∧
  (x.canIssue i s = true → i.illegal x = false → ownIllegal i s x = false → i.roleOk x.st.role = false →
    traps (Trap.of .role x.fr.lanes 0 0))

/-- R23, R36, R37, R43, R47, R76 to R81: the frame of every format A instruction.  What it issues leaves every register, predicate
and display register as it was, with its one result waiting; the flags of %fmode stick, and no other bit of it changes; the lanes stand
at the next word and every other fragment where it stood; the token of SETT rises by one in the fragment's lanes, and no other part of
a lane changes, but for the token of a wait that the fragment merges with (log 15).  Of its block the engine, the convergence registers,
the operations in flight (but for answered requests of its own operands' slots, log 55), the fatal mark and all else stay, but that the one
issue of a STEP is spent; of its core only the quadrant's last issue changes.  The memories change only where a line forwarded to
this block, which an operand's slot is read from, is consumed (R256); the other strands and blocks and the rest of the machine stay. -/
def Obligations.FormatAFrame : Prop := ∀ (i : Instr) (c : Ctl) (s : State) (x : Ctx) (t : State),
  formatA i = true → i.ctl = some c → Passes i (entryA i) c s x → s.mem.errs = [] → exec i s = .next t →
  t.mem = (s.consumeAt x.blk (i.slotReads s x)).mem ∧ (s.mem.fwd = [] → t.mem = s.mem) ∧ t.caller = s.caller ∧ t.host = s.host ∧
  t.mgmt = s.mgmt ∧ t.fab = s.fab ∧ t.clusters = s.clusters ∧ t.cycle = s.cycle ∧ t.agenda = s.agenda ∧ t.cur = s.cur ∧
  t.nextId = s.nextId + 1 ∧
  (∀ k, k ≠ x.blk.core → t.core k = s.core k) ∧
  t.core x.blk.core =
    { s.core x.blk.core with lastIssue := (s.core x.blk.core).lastIssue.put x.blk.quad s.cycle } ∧
  (∀ k, k ≠ x.blk.uid → t.block k = s.block k) ∧
  ∃ b, t.block x.blk.uid = some b ∧
    b = { x.blk with strands := b.strands, flight := b.flight, mode := x.blk.mode.fire, instrs := x.blk.instrs + 1 } ∧
    (∀ o ∈ b.flight, o ∈ x.blk.flight) ∧ (∀ o ∈ x.blk.flight, o.isRequest = false → o ∈ b.flight) ∧
    (∀ k, k ≠ x.sid → b.strand k = x.blk.strand k) ∧
    (let st := b.strand x.sid
     sameRegs x.st st ∧ st.role = x.st.role ∧ st.svdone = x.st.svdone ∧ st.issued = x.st.issued + 1 ∧ st.last = s.cycle ∧
     (∃ fl : Flags, st.fmode = fmodeRaise x.st.fmode fl) ∧
     (∃ p : PendWrite, st.pendw = x.st.pendw ++ [p] ∧ p.id = s.nextId ∧ p.tok = c.sett ∧ p.lanes = x.fr.lanes ∧ s.cycle ≤ p.due) ∧
     (∀ g ∈ x.st.frags, g.lanes ≠ x.fr.lanes → ∃ g' ∈ st.frags, ∃ h ∈ x.st.frags,
       h.lanes = g.lanes ∧ g.lanes &&& g'.lanes = g.lanes ∧ g'.pc = h.pc) ∧
     (∀ L, x.fr.lanes.getLsbD L = true → (st.fragOf L).map (·.pc) = some (x.fr.pc + 16)) ∧
     (∀ L, L < 64 → (x.st.lane L).sameButTok (st.lane L)) ∧
     ((∀ g ∈ x.st.frags, g.pc = x.fr.pc + 16 → g.hold = .free) →
      ∀ L, L < 64 → st.lane L = if x.fr.lanes.getLsbD L = true ∧ c.sett ≠ 0
       then (x.st.lane L).setTok c.sett.toNat ((x.st.lane L).tok c.sett.toNat + 1) else x.st.lane L))

/-- R76, R81: the frame of a result that is written.  The registers and predicates that no write of the result names stay; a
register that exactly one write names holds its value; a write of an instruction issued before that is still to come to one of
its destinations is discarded; with no write to a frame slot every byte of memory stays; the other strands, the PCs and %fmode
stay. -/
def Obligations.WritebackFrame : Prop := ∀ (s t : State) (uid sid id : Nat) (b : Block) (p : PendWrite),
  s.block uid = some b → sid < b.strands.length → (b.strand sid).pendw.find? (fun q => q.id == id) = some p → p.due ≤ s.cycle →
  s.mem.errs = [] → (∀ n L v, PWrite.vreg n L v ∈ p.writes → L < 64) →
  p.writes.all (s.slotWriteReady b sid id) = true → exec (.resultWriteback uid sid id) s = .next t →
  (∀ k, k ≠ uid → t.block k = s.block k) ∧ t.caller = s.caller ∧ t.host = s.host ∧ t.cores = s.cores ∧
  ((∀ w ∈ p.writes, w.isSlot = false) → t.mem = s.mem) ∧
  ∃ u, t.block uid = some u ∧ (∀ k, k ≠ sid → u.strand k = b.strand k) ∧
    (let st := b.strand sid
     let st' := u.strand sid
     st'.frags = st.frags ∧ st'.fmode = st.fmode ∧ st'.disp = st.disp ∧
     st'.pendw = (st.pendw.map fun q => if q.id < id then
       { q with writes := q.writes.filter fun w => !(p.writes.map PWrite.tgt).contains w.tgt } else q).filter (fun q => q.id != id) ∧
     (∀ n L, L < 64 → (∀ w ∈ p.writes, w.tgt ≠ .vreg n L) → st'.vreg n L = st.vreg n L) ∧
     (∀ n, (∀ w ∈ p.writes, w.tgt ≠ .ureg n) → st'.ureg n = st.ureg n) ∧
     (∀ n L, L < 64 → (∀ w ∈ p.writes, ∀ L', w.tgt ≠ .pred n L') → st'.pred n L = st.pred n L) ∧
     (∀ n L v, L < 64 → p.writes.filter (fun w => w.tgt == .vreg n L) = [.vreg n L v] →
       st'.vreg n L = v) ∧
     (∀ n v, p.writes.filter (fun w => w.tgt == .ureg n) = [.ureg n v] → st'.ureg n = v))

/-- R34: p7 reads as one in every lane and a write to it is discarded; under a guard of ?!p7 no lane is active, and a format A
instruction that issues still counts on its token (FormatAFrame) and leaves no write and no flag. -/
def Obligations.PredicateSeven : Prop := ∀ (s : State) (c : Ctl) (x : Ctx),
  (∀ (st : Strand) (L : Nat) (v : Bool), st.pred 7 L = true ∧ st.setPred 7 L v = st) ∧
  (s.ctx c = some x → c.guard = 15 → x.active = 0 ∧ x.lanes = [] ∧
    ∀ i, formatA i = true → i.ctl = some c → Passes i (entryA i) c s x → ∃ lat,
      exec i s = .next (issued i s x (Done.later x ((entered i (entryA i) s x).result x lat [] Flags.none))))

/-! ### Traps -/

/-- R319: the 64 bytes of a trap record hold its fields at their offsets, and a record of a trap reports the PC, the resume PC,
the faulting lanes, the lanes of the fragment and those of its siblings, and where the block stands. -/
def Obligations.TrapRecordLayout : Prop :=
  (∀ r : TrapRec, r.tstrand < 256 → r.tquad < 4 → r.tten < 32 → r.tcore < 65536 →
    let n := fun (off len : Nat) => leNum ((r.bytes.drop off).take len)
    r.bytes.length = 64 ∧
    n 0x00 8 = r.tpc.toNat % 2 ^ 56 + 2 ^ 56 * r.cause.code + 2 ^ 60 * b2n r.engine + 2 ^ 61 * b2n r.step +
      2 ^ 62 * b2n r.debug + 2 ^ 63 * b2n r.fatal ∧
    n 0x08 8 = r.rpc.toNat ∧ n 0x10 16 = r.info.toNat ∧ n 0x20 8 = r.tlanes.toNat ∧ n 0x28 8 = r.tfrag.toNat ∧
    n 0x30 8 = r.tsibs.toNat ∧ n 0x38 4 = r.tblk.toNat ∧ n 0x3C 1 = r.tstrand ∧ n 0x3D 1 = r.tquad + 4 * r.tten ∧
    n 0x3E 2 = r.tcore) ∧
  (∀ (b : Block) (sid : Nat) (f : Frag) (t : Trap) (tpc : W64) (engine : Bool),
    let r := trapRecord b sid f t tpc engine
    r.tpc = tpc ∧ r.cause = t.cause ∧ r.engine = engine ∧ r.tlanes = t.lanes ∧ r.tfrag = f.lanes ∧
    r.tsibs = (b.strand sid).live &&& ~~~f.lanes ∧ r.tblk = BitVec.ofNat 32 b.idx ∧ r.tstrand = sid ∧ r.tquad = b.quad ∧
    r.tten = b.ten ∧ r.tcore = b.core ∧
    (t.cause = .trap ∨ t.cause = .bkpt → r.rpc = tpc + 16) ∧
    (t.cause = .preempt → r.rpc = 0) ∧
    (t.cause ≠ .trap → t.cause ≠ .bkpt → t.cause ≠ .preempt →
      r.rpc.toNat = if engine then f.pc.toNat else tpc.toNat % 2 ^ 56) ∧
    (t.cause = .illegal → r.info = t.word) ∧
    (t.cause ≠ .illegal → r.info.toNat = t.addr.toNat + 2 ^ 64 * t.code.toNat))

/-- R316, R320, R44: a trap parks its fragment, writes its record at the fragment's place in the trap area and spends the
quadrant's issue; then its lanes go to the handler with %traprec at the record, or to the resume PC where the debugger or no one
takes a BKPT, or the block is marked for its end.  No register changes, and the lanes of every other fragment of
the strand stand where they stood.  The model's choices in it: log 16, 37 (a STEP under way ends as a STEP), 84, 95, 98. -/
def Obligations.TrapDelivery : Prop := ∀ (s t : State) (b : Block) (sid : Nat) (f : Frag) (tr : Trap) (tpc : W64) (engine : Bool),
  s.block b.uid = some b → sid < b.strands.length → f ∈ (b.strand sid).frags → t = s.deliverTrap b sid f tr tpc engine →
  let va := b.trapVa sid + 64 * lowest f.lanes
  let rec0 := trapRecord b sid f tr tpc engine
  let w := (s.putRecord b va rec0.bytes).spendIssue b
  ∃ u, t.block b.uid = some u ∧ (∀ k, k ≠ sid → u.strand k = b.strand k) ∧ (∀ k, k ≠ b.uid → t.block k = s.block k) ∧
    sameRegs (b.strand sid) (u.strand sid) ∧
    (∀ k, k ≠ b.core → t.core k = s.core k) ∧
    t.core b.core = { s.core b.core with lastIssue := (s.core b.core).lastIssue.put b.quad s.cycle } ∧ (u.strand sid).last = s.cycle ∧
    (∀ g ∈ (b.strand sid).frags, g.lanes ≠ f.lanes → ∃ g' ∈ (u.strand sid).frags, ∃ h ∈ (b.strand sid).frags,
      h.lanes = g.lanes ∧ g.lanes &&& g'.lanes = g.lanes ∧ g'.pc = h.pc) ∧
    (∀ pc, w.delivery b sid f tr.cause = .handler pc →
      t.mem = w.mem ∧ (∀ L, f.lanes.getLsbD L = true → ((u.strand sid).fragOf L).map (·.pc) = some pc ∧
        ((u.strand sid).lane L).traprec = BitVec.ofNat 64 va)) ∧
    (w.delivery b sid f tr.cause = .fatal →
      t.mem = w.mem ∧ u.fatal.isSome = true ∧ (b.fatal = none → u.fatal = some { rec0 with fatal := true }) ∧
      (∀ L, f.lanes.getLsbD L = true → ((u.strand sid).fragOf L).map (fun g => (g.pc, g.hold)) = some (f.pc, .parked))) ∧
    (w.delivery b sid f tr.cause = .debug →
      t.mem = w.mem ∧ u.mode = b.mode.fire.brk rec0 ∧
      (∀ L, f.lanes.getLsbD L = true → ((u.strand sid).fragOf L).map (·.pc) = some rec0.rpc)) ∧
    (w.delivery b sid f tr.cause = .skip →
      t.mem = (w.setTrapDesc b.ten 0x24 4 (w.trapDesc b.ten 0x24 4 + 1)).mem ∧
      (∀ L, f.lanes.getLsbD L = true → ((u.strand sid).fragOf L).map (·.pc) = some rec0.rpc))

/-! ### Reset, memory -/

/-- R384, R377: after reset no block is resident, memory lists nothing, no tenant is enabled, every tile is live with SOCNT 0, every
counter (of issues, errors, sites, invalidations, the log rings, decisions, commands, attestations, tokens, wear) stands at 0, the
calendar, its shadow and every scrub are empty, and no error is pending.  The model's choices in it: log 3, 30, 33, 34 (the calendar), 35 (the
leaf counter's value). -/
def Obligations.ResetState : Prop :=
  let s := State.reset
  s.blocks = [] ∧ s.clusters = [] ∧ s.cycle = 0 ∧ s.agenda = [] ∧ s.cur = none ∧
  s.mem.mem = [] ∧ s.mem.spad = [] ∧ s.mem.llc = [] ∧ s.mem.l1 = [] ∧ s.mem.tlb1 = [] ∧ s.mem.tlb2 = [] ∧
  s.mem.scrubs = [] ∧ s.mem.poison = [] ∧ s.mem.lpoison = [] ∧ s.mem.errs = [] ∧ s.mem.quadCtr = [] ∧ s.memWf = true ∧
  enabledTenants s.host.quota = [] ∧ s.host.quotaNext = none ∧
  s.fab.table = [] ∧ s.fab.shadow = [] ∧ s.fab.pending = none ∧ s.fab.refused = false ∧
  (∀ c, let k := s.core c
    k.tile.state = .live ∧ k.tile.socnt = 0 ∧ k.tile.cause = 0 ∧ k.tile.rejoinBeats = 0 ∧ k.tile.uncAt = 0 ∧ k.tile.nbrs = [] ∧
    k.siteCtr = [] ∧ k.siteReqs = [] ∧ k.zeroing = [] ∧ k.buckets = [] ∧ k.spown = 0xFFFFAAAA55550000#64) ∧
  s.mgmt.leaf = 0 ∧ s.mgmt.hours = [] ∧ s.mgmt.wear = [] ∧ s.mgmt.plim = 2200 ∧
  s.caller.dseq = 0 ∧ s.caller.cmdDone = 0 ∧ s.caller.loghead = 0 ∧ s.caller.logtail = 0 ∧ s.caller.cserr = 0 ∧
  s.caller.drops = 0 ∧ s.caller.grids = [] ∧ s.caller.saved = [] ∧ s.caller.events = [.csReset] ∧
  s.host.herrhead = 0 ∧ s.host.herrtail = 0 ∧ s.host.herrdrop = 0 ∧ (∀ fn, (s.inv fn).done = 0 ∧ (s.inv fn).busy = false)

/-- The memories keep their invariant over every step, from every state: memory, scratchpads and the dirty bytes of the slices
stay in canonical form, an L1 holds a line once with its words in order, and no line has two owners (R240; the form itself is
the model's). -/
def Obligations.MemoriesStaySound : Prop := ∀ (s t : State), s.memWf = true → step s = .next t → t.memWf = true
end

