-- ==== Sys2Proof/Laws/Maps.lean ====
section
/-!
SUPPORT. The laws of numbered stores: reading after writing, and that every operation keeps the canonical form.
-/
namespace Sys2Proof.SMap

variable {α : Type}

theorem find_put_self (m : SMap α) (i : Nat) (v : α) : (m.put i v).find i = some v := by
  induction m with
  | nil => simp [put, find]
  | cons kv m ih =>
    obtain ⟨k, w⟩ := kv
    simp only [put]
    split
    · simp [find]
    · split
      · simp [find]
      · rename_i h; simp [find, h, ih]

theorem find_put_other (m : SMap α) {i j : Nat} (v : α) (h : j ≠ i) : (m.put i v).find j = m.find j := by
  induction m with
  | nil => simp [put, find, h]
  | cons kv m ih =>
    obtain ⟨k, w⟩ := kv
    simp only [put]
    split
    · simp [find, h]
    · split
      · rename_i h2; subst h2; simp [find, h]
      · simp [find, ih]

@[simp] theorem find_erase_self (m : SMap α) (i : Nat) : (m.erase i).find i = none := by
  induction m with
  | nil => rfl
  | cons kv m ih =>
    obtain ⟨k, w⟩ := kv
    unfold erase at *
    by_cases h : k = i
    · simpa [List.filter_cons, h] using ih
    · have : i ≠ k := fun e => h e.symm
      simpa [List.filter_cons, h, find, this] using ih

theorem find_erase_other (m : SMap α) {i j : Nat} (h : j ≠ i) : (m.erase i).find j = m.find j := by
  induction m with
  | nil => rfl
  | cons kv m ih =>
    obtain ⟨k, w⟩ := kv
    unfold erase at *
    by_cases hk : k = i
    · subst hk; simpa [List.filter_cons, find, h] using ih
    · simp [hk, find, ih]

theorem sortedFrom_put (m : SMap α) (lo : Option Nat) (i : Nat) (v : α) (h : sortedFrom lo m = true)
    (hi : ∀ l, lo = some l → l < i) : sortedFrom lo (m.put i v) = true := by
  induction m generalizing lo with
  | nil => cases lo <;> simp [put, sortedFrom] ; exact hi _ rfl
  | cons kv m ih =>
    obtain ⟨k, w⟩ := kv
    simp only [sortedFrom, Bool.and_eq_true] at h
    simp only [put]
    split
    · rename_i hk
      cases lo <;> simp [sortedFrom, hk, h.2]
      exact hi _ rfl
    · split
      · rename_i hk; subst hk; simp only [sortedFrom, Bool.and_eq_true]; exact h
      · simp only [sortedFrom, Bool.and_eq_true]
        refine ⟨h.1, ih _ h.2 ?_⟩
        intro l hl; cases hl; omega

theorem sortedFrom_weaken (m : SMap α) {lo lo' : Option Nat} (h : sortedFrom lo' m = true)
    (hl : ∀ l, lo = some l → ∃ l', lo' = some l' ∧ l ≤ l') : sortedFrom lo m = true := by
  cases m with
  | nil => rfl
  | cons kv m =>
    obtain ⟨k, w⟩ := kv
    simp only [sortedFrom, Bool.and_eq_true] at h ⊢
    refine ⟨?_, h.2⟩
    cases lo with
    | none => rfl
    | some l =>
      obtain ⟨l', rfl, hle⟩ := hl l rfl
      simp only [decide_eq_true_eq] at h ⊢; omega

theorem sortedFrom_erase (m : SMap α) (lo : Option Nat) (i : Nat) (h : sortedFrom lo m = true) :
    sortedFrom lo (m.erase i) = true := by
  induction m generalizing lo with
  | nil => rfl
  | cons kv m ih =>
    obtain ⟨k, w⟩ := kv
    simp only [sortedFrom, Bool.and_eq_true] at h
    unfold erase at *
    by_cases hk : k = i
    · simp only [List.filter_cons, hk, bne_self_eq_false, Bool.false_eq_true, if_false]
      refine sortedFrom_weaken _ (ih _ h.2) fun l hl => ⟨k, rfl, ?_⟩
      subst hl
      simp only [decide_eq_true_eq] at h
      omega
    · simp only [List.filter_cons, bne_iff_ne.mpr hk, if_true, sortedFrom, Bool.and_eq_true]
      exact ⟨h.1, ih _ h.2⟩

theorem mem_erase {m : SMap α} {i : Nat} {kv : Nat × α} (h : kv ∈ m.erase i) : kv ∈ m := (List.mem_filter.mp h).1

theorem mem_put {m : SMap α} {i : Nat} {v : α} {kv : Nat × α} (h : kv ∈ m.put i v) : kv = (i, v) ∨ kv ∈ m := by
  induction m with
  | nil => simpa [put] using h
  | cons x m ih =>
    obtain ⟨k, w⟩ := x
    simp only [put] at h
    split at h
    · simpa using h
    · split at h
      · rcases List.mem_cons.mp h with h | h
        · exact .inl h
        · exact .inr (List.mem_cons_of_mem _ h)
      · rcases List.mem_cons.mp h with h | h
        · exact .inr (h ▸ List.mem_cons_self)
        · rcases ih h with h | h
          · exact .inl h
          · exact .inr (List.mem_cons_of_mem _ h)

/-- Writing keeps the canonical form. -/
theorem wf_set [DecidableEq α] (d : α) (m : SMap α) (i : Nat) (v : α) (h : wf d m = true) :
    wf d (m.set d i v) = true := by
  simp only [wf, Bool.and_eq_true, List.all_eq_true, sorted] at h ⊢
  unfold set
  split
  · exact ⟨sortedFrom_erase m _ i h.1, fun kv hkv => h.2 kv (mem_erase hkv)⟩
  · rename_i hv
    refine ⟨sortedFrom_put m _ i v h.1 (by simp), fun kv hkv => ?_⟩
    rcases mem_put hkv with rfl | hkv
    · simpa using hv
    · exact h.2 kv hkv

/-- Writing keeps the numbers rising. -/
theorem sorted_set [DecidableEq α] (d : α) (m : SMap α) (i : Nat) (v : α) (h : sorted m = true) :
    sorted (m.set d i v) = true := by
  unfold set sorted
  split
  · exact sortedFrom_erase m _ i h
  · exact sortedFrom_put m _ i v h (by simp)

/-- Reading the written number gives the written value. -/
@[simp] theorem get_set_self [DecidableEq α] (d : α) (m : SMap α) (i : Nat) (v : α) : (m.set d i v).get d i = v := by
  unfold set get
  split
  · rename_i hv; rw [find_erase_self]; exact hv.symm
  · rw [find_put_self]; rfl

/-- Writing one number leaves every other alone. -/
@[simp] theorem get_set_other [DecidableEq α] (d : α) (m : SMap α) {i j : Nat} (v : α) (h : j ≠ i) :
    (m.set d i v).get d j = m.get d j := by
  unfold set get
  split
  · rw [find_erase_other m h]
  · rw [find_put_other m v h]

theorem wf_nil [DecidableEq α] (d : α) : wf d ([] : SMap α) = true := rfl

end Sys2Proof.SMap
end

