-- ==== Sys2Proof/Laws/State.lean ====
section
/-!
SUPPORT. What each update of the state leaves: one lemma per field per update, and how blocks, strands and cores read after an
update.
-/
namespace Sys2Proof.Machine

variable (s : State)

/-! ### Fields -/

@[simp] theorem State.setMem_agenda (m : MemSys) : (s.setMem m).agenda = s.agenda := rfl
@[simp] theorem State.setMem_cur (m : MemSys) : (s.setMem m).cur = s.cur := rfl
@[simp] theorem State.setMem_fresh (m : MemSys) : (s.setMem m).fresh = s.fresh := rfl
@[simp] theorem State.setMem_nextId (m : MemSys) : (s.setMem m).nextId = s.nextId := rfl
@[simp] theorem State.setMem_cycle (m : MemSys) : (s.setMem m).cycle = s.cycle := rfl
@[simp] theorem State.setMem_blocks (m : MemSys) : (s.setMem m).blocks = s.blocks := rfl
@[simp] theorem State.setMem_clusters (m : MemSys) : (s.setMem m).clusters = s.clusters := rfl
@[simp] theorem State.setMem_cores (m : MemSys) : (s.setMem m).cores = s.cores := rfl
@[simp] theorem State.setMem_mem (m : MemSys) : (s.setMem m).mem = m := rfl
@[simp] theorem State.setMem_fab (m : MemSys) : (s.setMem m).fab = s.fab := rfl
@[simp] theorem State.setMem_caller (m : MemSys) : (s.setMem m).caller = s.caller := rfl
@[simp] theorem State.setMem_host (m : MemSys) : (s.setMem m).host = s.host := rfl
@[simp] theorem State.setMem_mgmt (m : MemSys) : (s.setMem m).mgmt = s.mgmt := rfl

@[simp] theorem State.setHost_agenda (h : HostIf) : (s.setHost h).agenda = s.agenda := rfl
@[simp] theorem State.setHost_cur (h : HostIf) : (s.setHost h).cur = s.cur := rfl
@[simp] theorem State.setHost_fresh (h : HostIf) : (s.setHost h).fresh = s.fresh := rfl
@[simp] theorem State.setHost_nextId (h : HostIf) : (s.setHost h).nextId = s.nextId := rfl
@[simp] theorem State.setHost_cycle (h : HostIf) : (s.setHost h).cycle = s.cycle := rfl
@[simp] theorem State.setHost_blocks (h : HostIf) : (s.setHost h).blocks = s.blocks := rfl
@[simp] theorem State.setHost_clusters (h : HostIf) : (s.setHost h).clusters = s.clusters := rfl
@[simp] theorem State.setHost_cores (h : HostIf) : (s.setHost h).cores = s.cores := rfl
@[simp] theorem State.setHost_mem (h : HostIf) : (s.setHost h).mem = s.mem := rfl
@[simp] theorem State.setHost_fab (h : HostIf) : (s.setHost h).fab = s.fab := rfl
@[simp] theorem State.setHost_caller (h : HostIf) : (s.setHost h).caller = s.caller := rfl
@[simp] theorem State.setHost_host (h : HostIf) : (s.setHost h).host = h := rfl
@[simp] theorem State.setHost_mgmt (h : HostIf) : (s.setHost h).mgmt = s.mgmt := rfl

@[simp] theorem State.setCaller_agenda (c : Caller) : (s.setCaller c).agenda = s.agenda := rfl
@[simp] theorem State.setCaller_cur (c : Caller) : (s.setCaller c).cur = s.cur := rfl
@[simp] theorem State.setCaller_fresh (c : Caller) : (s.setCaller c).fresh = s.fresh := rfl
@[simp] theorem State.setCaller_nextId (c : Caller) : (s.setCaller c).nextId = s.nextId := rfl
@[simp] theorem State.setCaller_cycle (c : Caller) : (s.setCaller c).cycle = s.cycle := rfl
@[simp] theorem State.setCaller_blocks (c : Caller) : (s.setCaller c).blocks = s.blocks := rfl
@[simp] theorem State.setCaller_clusters (c : Caller) : (s.setCaller c).clusters = s.clusters := rfl
@[simp] theorem State.setCaller_cores (c : Caller) : (s.setCaller c).cores = s.cores := rfl
@[simp] theorem State.setCaller_mem (c : Caller) : (s.setCaller c).mem = s.mem := rfl
@[simp] theorem State.setCaller_fab (c : Caller) : (s.setCaller c).fab = s.fab := rfl
@[simp] theorem State.setCaller_caller (c : Caller) : (s.setCaller c).caller = c := rfl
@[simp] theorem State.setCaller_host (c : Caller) : (s.setCaller c).host = s.host := rfl
@[simp] theorem State.setCaller_mgmt (c : Caller) : (s.setCaller c).mgmt = s.mgmt := rfl

@[simp] theorem State.setCore_agenda (k : Nat) (c : Core) : (s.setCore k c).agenda = s.agenda := rfl
@[simp] theorem State.setCore_cur (k : Nat) (c : Core) : (s.setCore k c).cur = s.cur := rfl
@[simp] theorem State.setCore_fresh (k : Nat) (c : Core) : (s.setCore k c).fresh = s.fresh := rfl
@[simp] theorem State.setCore_nextId (k : Nat) (c : Core) : (s.setCore k c).nextId = s.nextId := rfl
@[simp] theorem State.setCore_cycle (k : Nat) (c : Core) : (s.setCore k c).cycle = s.cycle := rfl
@[simp] theorem State.setCore_blocks (k : Nat) (c : Core) : (s.setCore k c).blocks = s.blocks := rfl
@[simp] theorem State.setCore_clusters (k : Nat) (c : Core) : (s.setCore k c).clusters = s.clusters := rfl
@[simp] theorem State.setCore_mem (k : Nat) (c : Core) : (s.setCore k c).mem = s.mem := rfl
@[simp] theorem State.setCore_fab (k : Nat) (c : Core) : (s.setCore k c).fab = s.fab := rfl
@[simp] theorem State.setCore_caller (k : Nat) (c : Core) : (s.setCore k c).caller = s.caller := rfl
@[simp] theorem State.setCore_host (k : Nat) (c : Core) : (s.setCore k c).host = s.host := rfl
@[simp] theorem State.setCore_mgmt (k : Nat) (c : Core) : (s.setCore k c).mgmt = s.mgmt := rfl

@[simp] theorem State.putBlock_agenda (b : Block) : (s.putBlock b).agenda = s.agenda := rfl
@[simp] theorem State.putBlock_cur (b : Block) : (s.putBlock b).cur = s.cur := rfl
@[simp] theorem State.putBlock_fresh (b : Block) : (s.putBlock b).fresh = s.fresh := rfl
@[simp] theorem State.putBlock_nextId (b : Block) : (s.putBlock b).nextId = s.nextId := rfl
@[simp] theorem State.putBlock_cycle (b : Block) : (s.putBlock b).cycle = s.cycle := rfl
@[simp] theorem State.putBlock_clusters (b : Block) : (s.putBlock b).clusters = s.clusters := rfl
@[simp] theorem State.putBlock_cores (b : Block) : (s.putBlock b).cores = s.cores := rfl
@[simp] theorem State.putBlock_mem (b : Block) : (s.putBlock b).mem = s.mem := rfl
@[simp] theorem State.putBlock_fab (b : Block) : (s.putBlock b).fab = s.fab := rfl
@[simp] theorem State.putBlock_caller (b : Block) : (s.putBlock b).caller = s.caller := rfl
@[simp] theorem State.putBlock_host (b : Block) : (s.putBlock b).host = s.host := rfl
@[simp] theorem State.putBlock_mgmt (b : Block) : (s.putBlock b).mgmt = s.mgmt := rfl

@[simp] theorem State.updBlock_agenda (u : Nat) (f : Block → Block) : (s.updBlock u f).agenda = s.agenda := rfl
@[simp] theorem State.updBlock_cur (u : Nat) (f : Block → Block) : (s.updBlock u f).cur = s.cur := rfl
@[simp] theorem State.updBlock_fresh (u : Nat) (f : Block → Block) : (s.updBlock u f).fresh = s.fresh := rfl
@[simp] theorem State.updBlock_nextId (u : Nat) (f : Block → Block) : (s.updBlock u f).nextId = s.nextId := rfl
@[simp] theorem State.updBlock_cycle (u : Nat) (f : Block → Block) : (s.updBlock u f).cycle = s.cycle := rfl
@[simp] theorem State.updBlock_clusters (u : Nat) (f : Block → Block) : (s.updBlock u f).clusters = s.clusters := rfl
@[simp] theorem State.updBlock_cores (u : Nat) (f : Block → Block) : (s.updBlock u f).cores = s.cores := rfl
@[simp] theorem State.updBlock_mem (u : Nat) (f : Block → Block) : (s.updBlock u f).mem = s.mem := rfl
@[simp] theorem State.updBlock_fab (u : Nat) (f : Block → Block) : (s.updBlock u f).fab = s.fab := rfl
@[simp] theorem State.updBlock_caller (u : Nat) (f : Block → Block) : (s.updBlock u f).caller = s.caller := rfl
@[simp] theorem State.updBlock_host (u : Nat) (f : Block → Block) : (s.updBlock u f).host = s.host := rfl
@[simp] theorem State.updBlock_mgmt (u : Nat) (f : Block → Block) : (s.updBlock u f).mgmt = s.mgmt := rfl

@[simp] theorem State.updStrand_agenda (u k : Nat) (f : Strand → Strand) : (s.updStrand u k f).agenda = s.agenda := rfl
@[simp] theorem State.updStrand_cur (u k : Nat) (f : Strand → Strand) : (s.updStrand u k f).cur = s.cur := rfl
@[simp] theorem State.updStrand_fresh (u k : Nat) (f : Strand → Strand) : (s.updStrand u k f).fresh = s.fresh := rfl
@[simp] theorem State.updStrand_nextId (u k : Nat) (f : Strand → Strand) : (s.updStrand u k f).nextId = s.nextId := rfl
@[simp] theorem State.updStrand_cycle (u k : Nat) (f : Strand → Strand) : (s.updStrand u k f).cycle = s.cycle := rfl
@[simp] theorem State.updStrand_clusters (u k : Nat) (f : Strand → Strand) : (s.updStrand u k f).clusters = s.clusters := rfl
@[simp] theorem State.updStrand_cores (u k : Nat) (f : Strand → Strand) : (s.updStrand u k f).cores = s.cores := rfl
@[simp] theorem State.updStrand_mem (u k : Nat) (f : Strand → Strand) : (s.updStrand u k f).mem = s.mem := rfl
@[simp] theorem State.updStrand_fab (u k : Nat) (f : Strand → Strand) : (s.updStrand u k f).fab = s.fab := rfl
@[simp] theorem State.updStrand_caller (u k : Nat) (f : Strand → Strand) : (s.updStrand u k f).caller = s.caller := rfl
@[simp] theorem State.updStrand_host (u k : Nat) (f : Strand → Strand) : (s.updStrand u k f).host = s.host := rfl
@[simp] theorem State.updStrand_mgmt (u k : Nat) (f : Strand → Strand) : (s.updStrand u k f).mgmt = s.mgmt := rfl


/-! ### Strands of a block -/

theorem Block.strand_setStrand_self (b : Block) {k : Nat} (h : k < b.strands.length) (st : Strand) :
    (b.setStrand k st).strand k = st := by simp [Block.setStrand, Block.strand, List.getD, h]

theorem Block.strand_setStrand_other (b : Block) {j k : Nat} (h : j ≠ k) (st : Strand) :
    (b.setStrand k st).strand j = b.strand j := by
  simp [Block.setStrand, Block.strand, List.getD, List.getElem?_set_ne (Ne.symm h)]

theorem Block.strand_updStrand_self (b : Block) {k : Nat} (h : k < b.strands.length) (f : Strand → Strand) :
    (b.updStrand k f).strand k = f (b.strand k) := b.strand_setStrand_self h _

theorem Block.strand_updStrand_other (b : Block) {j k : Nat} (h : j ≠ k) (f : Strand → Strand) :
    (b.updStrand k f).strand j = b.strand j := b.strand_setStrand_other h _

@[simp] theorem Block.updStrand_uid (b : Block) (k : Nat) (f : Strand → Strand) : (b.updStrand k f).uid = b.uid := rfl
@[simp] theorem Block.updStrand_mode (b : Block) (k : Nat) (f : Strand → Strand) : (b.updStrand k f).mode = b.mode := rfl
@[simp] theorem Block.updStrand_fatal (b : Block) (k : Nat) (f : Strand → Strand) : (b.updStrand k f).fatal = b.fatal := rfl
@[simp] theorem Block.updStrand_inner (b : Block) (k : Nat) (f : Strand → Strand) : (b.updStrand k f).inner = b.inner := rfl
@[simp] theorem Block.updStrand_instrs (b : Block) (k : Nat) (f : Strand → Strand) : (b.updStrand k f).instrs = b.instrs := rfl
@[simp] theorem Block.updStrand_length (b : Block) (k : Nat) (f : Strand → Strand) :
    (b.updStrand k f).strands.length = b.strands.length := by simp [Block.updStrand, Block.setStrand]

/-! ### Blocks of the state -/

@[simp] theorem State.block_setMem (m : MemSys) (u : Nat) : (s.setMem m).block u = s.block u := rfl
@[simp] theorem State.block_setHost (h : HostIf) (u : Nat) : (s.setHost h).block u = s.block u := rfl
@[simp] theorem State.block_setCaller (c : Caller) (u : Nat) : (s.setCaller c).block u = s.block u := rfl
@[simp] theorem State.block_setCore (k : Nat) (c : Core) (u : Nat) : (s.setCore k c).block u = s.block u := rfl

theorem State.block_uid {u : Nat} {b : Block} (h : s.block u = some b) : b.uid = u := by
  simpa using List.find?_some h

/-- A block after an update that keeps the numbers. -/
theorem State.block_updBlock {u : Nat} (f : Block → Block) (hf : ∀ x, (f x).uid = x.uid) (k : Nat) :
    (s.updBlock u f).block k = (s.block k).map fun x => if x.uid == u then f x else x := by
  have : ((fun b : Block => b.uid == k) ∘ fun x => if x.uid == u then f x else x) = fun b => b.uid == k := by
    funext x
    simp only [Function.comp]
    split <;> simp [hf]
  simp only [State.block, State.updBlock, List.find?_map, this]

/-- An update of a block is what the block reads as afterwards, if it keeps its number. -/
theorem State.block_updBlock_self {u : Nat} {b : Block} (f : Block → Block) (h : s.block u = some b)
    (hf : ∀ x, (f x).uid = x.uid) : (s.updBlock u f).block u = some (f b) := by
  simp [s.block_updBlock f hf, h, s.block_uid h]

/-- Every other block stays. -/
theorem State.block_updBlock_other {u k : Nat} (f : Block → Block) (h : k ≠ u) (hf : ∀ x, (f x).uid = x.uid) :
    (s.updBlock u f).block k = s.block k := by
  rw [s.block_updBlock f hf]
  cases hb : s.block k with
  | none => rfl
  | some b =>
    have : b.uid ≠ u := by rw [s.block_uid hb]; exact h
    simp [this]

theorem State.block_updStrand_self {u k : Nat} {b : Block} (f : Strand → Strand) (h : s.block u = some b) :
    (s.updStrand u k f).block u = some (b.updStrand k f) := s.block_updBlock_self _ h fun _ => rfl

theorem State.block_updStrand_other {u j k : Nat} (f : Strand → Strand) (h : j ≠ u) :
    (s.updStrand u k f).block j = s.block j := s.block_updBlock_other _ h fun _ => rfl

/-! ### Cores -/

@[simp] theorem State.core_setCore_self (k : Nat) (c : Core) : (s.setCore k c).core k = c := SMap.get_set_self _ _ _ _

@[simp] theorem State.core_setCore_other {j k : Nat} (c : Core) (h : j ≠ k) : (s.setCore k c).core j = s.core j :=
  SMap.get_set_other _ _ _ h

@[simp] theorem State.core_updBlock (u : Nat) (f : Block → Block) (k : Nat) : (s.updBlock u f).core k = s.core k := rfl
@[simp] theorem State.core_updStrand (u j : Nat) (f : Strand → Strand) (k : Nat) : (s.updStrand u j f).core k = s.core k := rfl
@[simp] theorem State.core_setMem (m : MemSys) (k : Nat) : (s.setMem m).core k = s.core k := rfl

/-! ### Registers -/

variable (st : Strand)

@[simp] theorem Strand.pred_seven (L : Nat) : st.pred 7 L = true := rfl
@[simp] theorem Strand.setPred_seven (L : Nat) (v : Bool) : st.setPred 7 L v = st := rfl

theorem vIndex_inj {n m j k : Nat} (hj : j < 64) (hk : k < 64) (h : vIndex n j = vIndex m k) : n = m ∧ j = k := by
  unfold vIndex at h; omega

@[simp] theorem Strand.vreg_setVreg_self (n L : Nat) (v : W32) : (st.setVreg n L v).vreg n L = v :=
  SMap.get_set_self _ _ _ _

theorem Strand.vreg_setVreg_other {n m j k : Nat} (v : W32) (hj : j < 64) (hk : k < 64) (h : ¬(n = m ∧ j = k)) :
    (st.setVreg m k v).vreg n j = st.vreg n j :=
  SMap.get_set_other _ _ _ fun e => h (vIndex_inj hj hk e)

@[simp] theorem Strand.ureg_setUreg_self (n : Nat) (v : W64) : (st.setUreg n v).ureg n = v :=
  SMap.get_set_self _ _ _ _

@[simp] theorem Strand.ureg_setUreg_other {n m : Nat} (v : W64) (h : n ≠ m) : (st.setUreg m v).ureg n = st.ureg n :=
  SMap.get_set_other _ _ _ h

end Sys2Proof.Machine
end

