-- ==== Sys2Proof/Laws/Ops.lean ====
section
/-!
SUPPORT. What the shared operations over lanes, strands and blocks do: sets of lanes, updates of lanes, tokens, the movement of
fragments, and results that take their destinations from earlier ones.
-/
namespace Sys2Proof.Machine

/-! ### Sets of lanes -/

theorem mem_lanesOf (m : Lanes) (L : Nat) : L ∈ lanesOf m ↔ m.getLsbD L = true := by
  simp only [lanesOf, List.mem_filter, List.mem_range]
  refine ⟨fun h => h.2, fun h => ⟨?_, h⟩⟩
  apply Classical.byContradiction
  intro hn
  rw [BitVec.getLsbD_of_ge _ _ (by omega)] at h
  cases h

theorem lanesOf_nodup (m : Lanes) : (lanesOf m).Nodup := List.Pairwise.filter _ List.nodup_range

theorem lane_lt {m : Lanes} {L : Nat} (h : m.getLsbD L = true) : L < 64 := BitVec.lt_of_getLsbD h

theorem laneSet_go (p : Nat → Bool) (L : Nat) (hL : L < 64) : ∀ (l : List Nat) (m : Lanes),
    (l.foldl (fun m i => if p i then m ||| (1#64 <<< i) else m) m).getLsbD L = (m.getLsbD L || (l.contains L && p L)) := by
  intro l
  induction l with
  | nil => intro m; simp
  | cons a l ih =>
    intro m
    rw [List.foldl_cons, ih]
    by_cases ha : L = a
    · subst ha
      by_cases hp : p L = true
      · simp [hp, hL]
      · simp [hp]
    · have : ¬ (L - a = 0 ∧ a ≤ L) := by omega
      by_cases hp : p a = true
      · by_cases hlt : L < a
        · simp [hp, ha, BitVec.getLsbD_shiftLeft, hlt]
        · have h0 : L - a ≠ 0 := by omega
          simp [hp, ha, BitVec.getLsbD_shiftLeft, h0, BitVec.getLsbD_one]
      · simp [hp, ha]

/-- The set of the lanes below 64 that satisfy a test. -/
@[simp] theorem getLsbD_laneSet (p : Nat → Bool) (L : Nat) : (laneSet p).getLsbD L = (decide (L < 64) && p L) := by
  by_cases hL : L < 64
  · rw [laneSet, laneSet_go p L hL]; simp [hL]
  · rw [BitVec.getLsbD_of_ge _ _ (by omega)]; simp [hL]

theorem laneSet_getLsbD (m : Lanes) : laneSet (fun L => m.getLsbD L) = m := by
  apply BitVec.eq_of_getLsbD_eq
  intro i hi
  rw [getLsbD_laneSet]
  simp [hi]

/-! ### Lanes of a strand -/

theorem lane_updLanes_go (L : Nat) (f : Nat → Lane → Lane) : ∀ (l : List Nat) (ls : SMap Lane), l.Nodup →
    (l.foldl (fun ls L => ls.set Lane.dead L (f L (ls.get Lane.dead L))) ls).get Lane.dead L =
      if L ∈ l then f L (ls.get Lane.dead L) else ls.get Lane.dead L := by
  intro l
  induction l with
  | nil => intro ls _; simp
  | cons a l ih =>
    intro ls hn
    have hn' := List.nodup_cons.mp hn
    rw [List.foldl_cons, ih _ hn'.2]
    by_cases h : L = a
    · subst h; simp [hn'.1]
    · simp [h]

/-- What a lane is after an update of a set of lanes. -/
theorem Strand.lane_updLanes (st : Strand) (m : Lanes) (f : Nat → Lane → Lane) (L : Nat) :
    (st.updLanes m f).lane L = if m.getLsbD L = true then f L (st.lane L) else st.lane L := by
  simpa [Strand.lane, Strand.updLanes, mem_lanesOf] using lane_updLanes_go L f (lanesOf m) st.lanes (lanesOf_nodup m)

@[simp] theorem Strand.updLanes_frags (st : Strand) (m : Lanes) (f : Nat → Lane → Lane) : (st.updLanes m f).frags = st.frags := rfl
@[simp] theorem Strand.updLanes_vregs (st : Strand) (m : Lanes) (f : Nat → Lane → Lane) : (st.updLanes m f).vregs = st.vregs := rfl
@[simp] theorem Strand.updLanes_uregs (st : Strand) (m : Lanes) (f : Nat → Lane → Lane) : (st.updLanes m f).uregs = st.uregs := rfl
@[simp] theorem Strand.updLanes_preds (st : Strand) (m : Lanes) (f : Nat → Lane → Lane) : (st.updLanes m f).preds = st.preds := rfl
@[simp] theorem Strand.updLanes_disp (st : Strand) (m : Lanes) (f : Nat → Lane → Lane) : (st.updLanes m f).disp = st.disp := rfl
@[simp] theorem Strand.updLanes_fmode (st : Strand) (m : Lanes) (f : Nat → Lane → Lane) : (st.updLanes m f).fmode = st.fmode := rfl
@[simp] theorem Strand.updLanes_pendw (st : Strand) (m : Lanes) (f : Nat → Lane → Lane) : (st.updLanes m f).pendw = st.pendw := rfl
@[simp] theorem Strand.updLanes_issued (st : Strand) (m : Lanes) (f : Nat → Lane → Lane) : (st.updLanes m f).issued = st.issued := rfl

/-- Everything that a token leaves but the lanes. -/
theorem Strand.tokUp_rest (st : Strand) (m : Lanes) (k : Nat) :
    (st.tokUp m k).vregs = st.vregs ∧ (st.tokUp m k).uregs = st.uregs ∧ (st.tokUp m k).preds = st.preds ∧
    (st.tokUp m k).disp = st.disp ∧ (st.tokUp m k).fmode = st.fmode ∧ (st.tokUp m k).frags = st.frags ∧
    (st.tokUp m k).pendw = st.pendw ∧ (st.tokUp m k).issued = st.issued := by
  unfold Strand.tokUp; split <;> exact ⟨rfl, rfl, rfl, rfl, rfl, rfl, rfl, rfl⟩

theorem Strand.tokDown_rest (st : Strand) (m : Lanes) (k : Nat) :
    (st.tokDown m k).vregs = st.vregs ∧ (st.tokDown m k).uregs = st.uregs ∧ (st.tokDown m k).preds = st.preds ∧
    (st.tokDown m k).disp = st.disp ∧ (st.tokDown m k).fmode = st.fmode ∧ (st.tokDown m k).frags = st.frags ∧
    (st.tokDown m k).pendw = st.pendw ∧ (st.tokDown m k).issued = st.issued := by
  unfold Strand.tokDown; split <;> exact ⟨rfl, rfl, rfl, rfl, rfl, rfl, rfl, rfl⟩

/-- A token of the four rises by one in the lanes named, and nothing else of a lane changes. -/
theorem Strand.lane_tokUp (st : Strand) (m : Lanes) (k L : Nat) :
    (st.tokUp m k).lane L =
      if m.getLsbD L = true ∧ k ≠ 0 then (st.lane L).setTok k ((st.lane L).tok k + 1) else st.lane L := by
  unfold Strand.tokUp
  by_cases h0 : k = 0
  · simp [h0]
  · rw [if_neg h0, Strand.lane_updLanes]; simp [h0]

/-! ### Movement of fragments -/

theorem groupByPc_const (m : Lanes) (pc : W64) {L : Nat} (h : m.getLsbD L = true) : groupByPc m (fun _ => pc) = [(pc, m)] := by
  have hm : L ∈ lanesOf m := (mem_lanesOf _ _).mpr h
  have he : ((lanesOf m).map fun _ => pc).eraseDups = [pc] := by
    cases hq : lanesOf m with
    | nil => rw [hq] at hm; cases hm
    | cons a l =>
      have : (l.map fun _ => pc).filter (fun b => !b == pc) = [] := by simp
      rw [List.map_cons, List.eraseDups_cons, this]
      rfl
  rw [groupByPc, he]; simp [laneSet_getLsbD]

theorem Lane.sameButTok_refl (l : Lane) : l.sameButTok l := rfl

theorem Lane.sameButTok_trans {l k j : Lane} (h : l.sameButTok k) (h' : k.sameButTok j) : l.sameButTok j := by
  unfold Lane.sameButTok at *
  rw [h', h]

theorem Lane.sameButTok_setTok (l : Lane) (n v : Nat) : l.sameButTok (l.setTok n v) := by
  unfold Lane.setTok Lane.sameButTok; split <;> rfl

/-- A strand whose lanes differ at most in their tokens, with other fragments: all that the movement of fragments changes. -/
structure Strand.Moved (st st' : Strand) : Prop where
  rest : ∃ fs ls, st' = { st with frags := fs, lanes := ls }
  lane : ∀ L, (st.lane L).sameButTok (st'.lane L)

theorem Strand.Moved.refl (st : Strand) (fs : List Frag) : st.Moved { st with frags := fs } := ⟨⟨fs, st.lanes, rfl⟩, fun _ => rfl⟩

theorem Strand.Moved.trans {a b c : Strand} (h : a.Moved b) (h' : b.Moved c) : a.Moved c := by
  obtain ⟨⟨f, l, rfl⟩, h1⟩ := h
  obtain ⟨⟨f', l', rfl⟩, h2⟩ := h'
  exact ⟨⟨f', l', rfl⟩, fun L => Lane.sameButTok_trans (h1 L) (h2 L)⟩

theorem Strand.moved_tokDown (st : Strand) (m : Lanes) (k : Nat) : st.Moved (st.tokDown m k) := by
  unfold Strand.tokDown
  split
  · exact ⟨⟨st.frags, st.lanes, rfl⟩, fun _ => rfl⟩
  · refine ⟨⟨st.frags, _, rfl⟩, fun L => ?_⟩
    rw [Strand.lane_updLanes]
    split
    · split
      · exact Lane.sameButTok_setTok _ _ _
      · rfl
    · rfl

theorem Strand.tokDown_frags (st : Strand) (m : Lanes) (k : Nat) : (st.tokDown m k).frags = st.frags := (st.tokDown_rest m k).2.2.2.2.2.1

theorem Strand.moved_unwait (st : Strand) (f : Frag) : st.Moved (st.unwait f) ∧ (st.unwait f).frags = st.frags := by
  unfold Strand.unwait
  split
  · exact ⟨st.moved_tokDown _ _, st.tokDown_frags _ _⟩
  · exact ⟨st.moved_tokDown _ _, st.tokDown_frags _ _⟩
  · exact ⟨.refl st st.frags, rfl⟩

/-- A fragment that joins stands first, alone or merged with the one at its PC. -/
theorem Strand.join_cases (st : Strand) (f : Frag) : st.Moved (st.join f) ∧
    ((∃ g, g ∈ st.frags ∧ f.meets g = true ∧ (st.join f).frags = f.merge g :: st.frags.filter fun x => x.lanes != g.lanes) ∨
      (st.join f).frags = f :: st.frags) := by
  unfold Strand.join
  split
  · rename_i g hg
    have h1 := (st.moved_unwait f).1.trans ((st.unwait f).moved_unwait g).1
    exact ⟨h1.trans (.refl _ _), .inl ⟨g, List.mem_of_find?_eq_some hg, List.find?_some (p := fun g => f.meets g) hg, rfl⟩⟩
  · exact ⟨.refl _ _, .inr rfl⟩

/-- Moving fragments leaves everything else of a strand but tokens of waits that are issued again. -/
theorem Strand.move_rest (st : Strand) (f : Frag) (gone : Lanes) (pcOf : Nat → W64) (stall nap : Option Nat) (hold : Hold) :
    st.Moved (st.move f gone pcOf stall nap hold) := by
  have key : ∀ (ps : List Frag) (a : Strand), a.Moved (ps.foldl Strand.join a) := by
    intro ps
    induction ps with
    | nil => exact fun a => .refl a a.frags
    | cons p ps ih => exact fun a => (a.join_cases p).1.trans (ih _)
  exact (Strand.Moved.refl st _).trans (key _ _)

/-- Lanes that move together stand at their PC. -/
theorem Strand.move_together (st : Strand) (f : Frag) (pc : W64) (stall nap : Option Nat) (hold : Hold) {L : Nat}
    (h : f.lanes.getLsbD L = true) :
    ((st.move f 0 (fun _ => pc) stall nap hold).fragOf L).map (fun g => g.pc) = some pc := by
  have h0 : f.lanes &&& ~~~(0 : Lanes) = f.lanes := by
    have : ~~~(0 : Lanes) = BitVec.allOnes 64 := by decide
    rw [this, BitVec.and_allOnes]
  simp only [Strand.move, h0, groupByPc_const _ _ h, List.map_cons, List.map_nil, List.foldl_cons, List.foldl_nil]
  rcases (Strand.join_cases { st with frags := (st.frags.filter fun g => g.lanes != f.lanes).map fun g => { g with age := g.age + 1 } }
      { lanes := f.lanes, pc := pc, age := 0, stall := stall, nap := nap, hold := hold, pend := f.pend }).2 with
    ⟨g, _, _, he⟩ | he
  · simp [Strand.fragOf, he, Frag.merge, h]
  · simp [Strand.fragOf, he, h]

/-- A fragment that joins leaves every other where a fragment of its lanes stood: alone, or within the merged one. -/
theorem Strand.join_stays (st : Strand) (f : Frag) {g : Frag} (hg : g ∈ st.frags) :
    ∃ g' ∈ (st.join f).frags, ∃ h ∈ st.frags, h.lanes = g.lanes ∧ g.lanes &&& g'.lanes = g.lanes ∧ g'.pc = h.pc := by
  unfold Strand.join
  split
  · rename_i h hh
    have hm := List.find?_some hh
    have hmem := List.mem_of_find?_eq_some hh
    simp only [Frag.meets, Bool.and_eq_true, beq_iff_eq] at hm
    by_cases hl : g.lanes = h.lanes
    · refine ⟨f.merge h, List.mem_cons_self, h, hmem, hl.symm, ?_, hm.1.1⟩
      rw [hl, Frag.merge, BitVec.or_comm]
      apply BitVec.eq_of_getLsbD_eq
      intro i _
      simpa using Or.inl
    · refine ⟨g, List.mem_cons_of_mem _ (List.mem_filter.mpr ⟨hg, by simpa using hl⟩), g, hg, rfl, BitVec.and_self, rfl⟩
  · exact ⟨g, List.mem_cons_of_mem _ hg, g, hg, rfl, BitVec.and_self, rfl⟩

/-- Fragments other than the one whose lanes move together stand where a fragment of their lanes stood. -/
theorem Strand.move_others (st : Strand) (f : Frag) (pc : W64) (stall nap : Option Nat) (hold : Hold) {g : Frag}
    (hg : g ∈ st.frags) (hl : g.lanes ≠ f.lanes) :
    ∃ g' ∈ (st.move f 0 (fun _ => pc) stall nap hold).frags, ∃ h ∈ st.frags,
      h.lanes = g.lanes ∧ g.lanes &&& g'.lanes = g.lanes ∧ g'.pc = h.pc := by
  let old : Frag → Frag := fun g => { g with age := g.age + 1 }
  have hr : old g ∈ (st.frags.filter fun g => g.lanes != f.lanes).map old :=
    List.mem_map_of_mem (List.mem_filter.mpr ⟨hg, by simpa using hl⟩)
  have h0 : f.lanes &&& ~~~(0 : Lanes) = f.lanes := by
    have : ~~~(0 : Lanes) = BitVec.allOnes 64 := by decide
    rw [this, BitVec.and_allOnes]
  by_cases hf : ∃ L, f.lanes.getLsbD L = true
  · obtain ⟨L, hL⟩ := hf
    simp only [Strand.move, h0, groupByPc_const _ _ hL, List.map_cons, List.map_nil, List.foldl_cons, List.foldl_nil]
    obtain ⟨g', h1, k, h2, h3, h4, h5⟩ := Strand.join_stays { st with frags := (st.frags.filter fun g => g.lanes != f.lanes).map old }
      { lanes := f.lanes, pc := pc, age := 0, stall := stall, nap := nap, hold := hold, pend := f.pend } hr
    obtain ⟨k', hk', rfl⟩ := List.mem_map.mp h2
    exact ⟨g', h1, k', (List.mem_filter.mp hk').1, h3, h4, h5⟩
  · have : lanesOf f.lanes = [] := by
      rw [List.eq_nil_iff_forall_not_mem]
      intro L hL
      exact hf ⟨L, (mem_lanesOf _ _).mp hL⟩
    simp only [Strand.move, h0, groupByPc, this, List.map_nil, List.eraseDups_nil, List.foldl_nil]
    exact ⟨old g, hr, g, hg, rfl, BitVec.and_self, rfl⟩

/-! ### Results -/

/-- What a performed result takes from earlier ones is theirs alone. -/
theorem Block.overtake_rest (b : Block) (sid k : Nat) (ts : List Tgt) :
    (b.overtake sid k ts).uid = b.uid ∧ (b.overtake sid k ts).inner = b.inner ∧ (b.overtake sid k ts).mode = b.mode ∧
    (b.overtake sid k ts).instrs = b.instrs ∧ (b.overtake sid k ts).strands.length = b.strands.length ∧
    (∀ j, j ≠ sid → (b.overtake sid k ts).strand j = b.strand j) ∧
    (sid < b.strands.length → ∃ ps, (b.overtake sid k ts).strand sid = { b.strand sid with pendw := ps }) := by
  let g : Strand → Strand := fun st =>
    { st with pendw := st.pendw.map fun p =>
        if p.id < k then { p with writes := p.writes.filter fun w => !ts.contains w.tgt } else p }
  have e : (b.overtake sid k ts).strands = (b.updStrand sid g).strands := rfl
  have es : ∀ j, (b.overtake sid k ts).strand j = (b.updStrand sid g).strand j := fun j => by simp only [Block.strand, e]
  refine ⟨rfl, rfl, rfl, rfl, ?_, fun j hj => ?_, fun h => ⟨(g (b.strand sid)).pendw, ?_⟩⟩
  · rw [e]; exact b.updStrand_length _ _
  · rw [es]; exact b.strand_updStrand_other hj _
  · rw [es, b.strand_updStrand_self h]

end Sys2Proof.Machine
end

