-- ==== Sys2Proof/Laws/Device.lean ====
section
/-!
SUPPORT. What the device's own writes to a tenant's memory, and the delivery of a trap, leave as it was.
-/
namespace Sys2Proof.Machine

/-- Two states agree on blocks, clusters, cores and the clock, the fabric and the management die. -/
def State.Near (s t : State) : Prop :=
  t.blocks = s.blocks ∧ t.clusters = s.clusters ∧ t.cores = s.cores ∧ t.cycle = s.cycle ∧ t.fab = s.fab ∧ t.mgmt = s.mgmt ∧
  t.nextId = s.nextId ∧ t.fresh = s.fresh ∧ t.caller = s.caller

theorem State.Near.refl (s : State) : s.Near s := ⟨rfl, rfl, rfl, rfl, rfl, rfl, rfl, rfl, rfl⟩

theorem State.Near.trans {s t u : State} (h : s.Near t) (h' : t.Near u) : s.Near u := by
  obtain ⟨a1, a2, a3, a4, a5, a6, a7, a8, a9⟩ := h
  obtain ⟨b1, b2, b3, b4, b5, b6, b7, b8, b9⟩ := h'
  exact ⟨b1.trans a1, b2.trans a2, b3.trans a3, b4.trans a4, b5.trans a5, b6.trans a6, b7.trans a7, b8.trans a8, b9.trans a9⟩

theorem State.near_foldl {α : Type} (f : State → α → State) (h : ∀ (s : State) (a : α), s.Near (f s a)) :
    ∀ (l : List α) (s : State), s.Near (l.foldl f s)
  | [], s => .refl s
  | a :: l, s => (h s a).trans (near_foldl f h l _)

theorem State.near_setMem (s : State) (m : MemSys) : s.Near (s.setMem m) := ⟨rfl, rfl, rfl, rfl, rfl, rfl, rfl, rfl, rfl⟩

theorem State.near_writePa (s : State) (pa : Nat) (bs : List Byte) : s.Near (s.writePa pa bs) := s.near_setMem _

theorem State.near_setHost (s : State) (h : HostIf) : s.Near (s.setHost h) := ⟨rfl, rfl, rfl, rfl, rfl, rfl, rfl, rfl, rfl⟩

theorem State.near_logDirty (s : State) (ten : Nat) (x : Xlate) : s.Near (s.logDirty ten x) := by
  unfold State.logDirty
  extract_lets e t
  have ht : s.Near t := s.near_writePa _ _
  clear_value t
  split
  · exact ht
  · split
    · exact ht.trans ((t.near_writePa _ _).trans (State.near_setHost _ _))
    · rename_i _ t3 _ _
      have h3 : s.Near t3 := ht.trans ((t.near_writePa _ _).trans (State.near_writePa _ _ _))
      clear_value t3
      split
      · exact h3.trans ⟨rfl, rfl, rfl, rfl, rfl, rfl, rfl, rfl, rfl⟩
      · exact h3

theorem State.near_fillTlb (s : State) (quad : Nat) (x : Xlate) : s.Near (s.fillTlb quad x) := by
  unfold State.fillTlb
  split
  · exact .refl s
  · exact s.near_setMem _

theorem State.near_useXlate (s : State) (quad : Option Nat) (x : Xlate) (acc : Access) : s.Near (s.useXlate quad x acc) := by
  have hl : s.Near (if s.mustLog x acc then s.logDirty x.ten x else s) := by
    split
    · exact s.near_logDirty _ _
    · exact .refl s
  unfold State.useXlate
  extract_lets log t y
  replace hl : s.Near t := hl
  clear_value y t
  split
  · exact hl
  · split
    · exact hl
    · exact hl.trans (t.near_fillTlb _ _)

theorem State.near_useRange (s : State) (quad : Option Nat) (ten pasid va n : Nat) (acc : Access) :
    s.Near (s.useRange quad ten pasid va n acc) := by
  refine State.near_foldl _ (fun s i => ?_) _ _
  split
  · split
    · exact s.near_useXlate _ _ _
    · exact .refl s
  · exact .refl s

/-- The device's own write of a tenant's memory. -/
theorem State.near_vaWrite (s : State) (ten pasid va : Nat) (bs : List Byte) : s.Near (s.vaWrite ten pasid va bs) := by
  unfold State.vaWrite
  split
  · exact .refl s
  · exact (s.near_useRange none ten pasid va bs.length .write).trans (State.near_setMem _ _)

/-- A trap record written to its slot. -/
theorem State.near_putRecord (s : State) (b : Block) (va : Nat) (bs : List Byte) : s.Near (s.putRecord b va bs) := by
  unfold State.putRecord
  dsimp only
  split
  · exact s.near_vaWrite _ _ _ _
  · exact (s.near_vaWrite _ _ _ _).trans (State.near_setMem _ _)

/-- A field of the trap descriptor written. -/
theorem State.near_setTrapDesc (s : State) (ten off n v : Nat) : s.Near (s.setTrapDesc ten off n v) := by
  unfold State.setTrapDesc
  dsimp only
  split
  · split
    · exact .refl s
    · exact s.near_vaWrite _ _ _ _
  · exact .refl s

theorem State.Near.block {s t : State} (h : s.Near t) (u : Nat) : t.block u = s.block u := by simp only [State.block, h.1]

theorem State.Near.core {s t : State} (h : s.Near t) (k : Nat) : t.core k = s.core k := by simp only [State.core, h.2.2.1]

/-- Lanes that are parked together stand parked at their PC, apart from every other fragment. -/
theorem Strand.move_parked (st : Strand) (f : Frag) (pc : W64) (stall nap : Option Nat) {L : Nat} (h : f.lanes.getLsbD L = true) :
    ((st.move f 0 (fun _ => pc) stall nap .parked).fragOf L).map (fun g => (g.pc, g.hold)) = some (pc, .parked) := by
  have h0 : f.lanes &&& ~~~(0 : Lanes) = f.lanes := by
    have : ~~~(0 : Lanes) = BitVec.allOnes 64 := by decide
    rw [this, BitVec.and_allOnes]
  simp only [Strand.move, h0, groupByPc_const _ _ h, List.map_cons, List.map_nil, List.foldl_cons, List.foldl_nil]
  generalize ({ st with frags := (st.frags.filter fun g => g.lanes != f.lanes).map fun g => { g with age := g.age + 1 } } : Strand) = a
  rcases (Strand.join_cases a { lanes := f.lanes, pc := pc, age := 0, stall := stall, nap := nap, hold := .parked, pend := f.pend }).2 with
    ⟨g, _, hm, _⟩ | he
  · have : Frag.meets { lanes := f.lanes, pc := pc, age := 0, stall := stall, nap := nap, hold := .parked, pend := f.pend } g = false := by
      unfold Frag.meets; rw [show Hold.parks .parked = true from rfl]; simp
    rw [this] at hm; cases hm
  · unfold Strand.fragOf; rw [he]; simp only [List.find?_cons, h, Option.map_some]

/-- The movement of fragments leaves the registers. -/
theorem Strand.Moved.regs {st st' : Strand} (h : st.Moved st') : sameRegs st st' := by
  obtain ⟨⟨fs, ls, rfl⟩, _⟩ := h
  exact ⟨rfl, rfl, rfl, rfl⟩


/-- All that the movement of a trapping fragment does. -/
theorem State.trapMove_spec (w : State) (b c : Block) (sid : Nat) (f : Frag) (pc : W64) (hold : Hold) (tp : Option W64)
    (hc : w.block b.uid = some c) (hs : c.strands = b.strands) (hsid : sid < b.strands.length) :
    ∃ st', (w.trapMove b sid f pc hold tp).block b.uid = some (c.setStrand sid st') ∧
      (∀ k, k ≠ sid → (c.setStrand sid st').strand k = b.strand k) ∧ (c.setStrand sid st').strand sid = st' ∧
      (∀ k, k ≠ b.uid → (w.trapMove b sid f pc hold tp).block k = w.block k) ∧
      sameRegs (b.strand sid) st' ∧ st'.last = w.cycle ∧
      (∀ g ∈ (b.strand sid).frags, g.lanes ≠ f.lanes → ∃ g' ∈ st'.frags, ∃ h ∈ (b.strand sid).frags,
        h.lanes = g.lanes ∧ g.lanes &&& g'.lanes = g.lanes ∧ g'.pc = h.pc) ∧
      (∀ L, f.lanes.getLsbD L = true → (st'.fragOf L).map (fun g => g.pc) = some pc) ∧
      (hold = .parked → ∀ L, f.lanes.getLsbD L = true → (st'.fragOf L).map (fun g => (g.pc, g.hold)) = some (pc, .parked)) ∧
      (∀ v, tp = some v → ∀ L, f.lanes.getLsbD L = true → (st'.lane L).traprec = v) := by
  have key : ∀ st : Strand, st.frags = (b.strand sid).frags → sameRegs (b.strand sid) st →
      (∀ v, tp = some v → ∀ L, f.lanes.getLsbD L = true → (st.lane L).traprec = v) →
      w.trapMove b sid f pc hold tp = w.updStrand b.uid sid (fun st =>
      { ((match tp with
          | some va => st.updLanes f.lanes fun _ l => { l with traprec := va }
          | none => st) : Strand).move f 0 (fun _ => pc) f.stall f.nap hold with last := w.cycle }) →
      (match tp with
          | some va => (b.strand sid).updLanes f.lanes fun _ l => { l with traprec := va }
          | none => b.strand sid) = st →
    ∃ st', (w.trapMove b sid f pc hold tp).block b.uid = some (c.setStrand sid st') ∧
      (∀ k, k ≠ sid → (c.setStrand sid st').strand k = b.strand k) ∧ (c.setStrand sid st').strand sid = st' ∧
      (∀ k, k ≠ b.uid → (w.trapMove b sid f pc hold tp).block k = w.block k) ∧
      sameRegs (b.strand sid) st' ∧ st'.last = w.cycle ∧
      (∀ g ∈ (b.strand sid).frags, g.lanes ≠ f.lanes → ∃ g' ∈ st'.frags, ∃ h ∈ (b.strand sid).frags,
        h.lanes = g.lanes ∧ g.lanes &&& g'.lanes = g.lanes ∧ g'.pc = h.pc) ∧
      (∀ L, f.lanes.getLsbD L = true → (st'.fragOf L).map (fun g => g.pc) = some pc) ∧
      (hold = .parked → ∀ L, f.lanes.getLsbD L = true → (st'.fragOf L).map (fun g => (g.pc, g.hold)) = some (pc, .parked)) ∧
      (∀ v, tp = some v → ∀ L, f.lanes.getLsbD L = true → (st'.lane L).traprec = v) := by
    intro st hfr hsr hv he hst
    refine ⟨{ st.move f 0 (fun _ => pc) f.stall f.nap hold with last := w.cycle }, ?_, ?_, ?_, ?_, ?_, rfl, ?_, ?_, ?_, ?_⟩
    · rw [he, State.block_updStrand_self w _ hc, Block.updStrand]
      have : c.strand sid = b.strand sid := by unfold Block.strand; rw [hs]
      rw [this, hst]
    · intro k hk
      rw [Block.strand_setStrand_other _ hk]
      unfold Block.strand; rw [hs]
    · exact Block.strand_setStrand_self _ (by rw [hs]; exact hsid) _
    · intro k hk; rw [he]; exact State.block_updStrand_other w _ hk
    · obtain ⟨a1, a2, a3, a4⟩ := Strand.Moved.regs (st.move_rest f 0 (fun _ => pc) f.stall f.nap hold)
      obtain ⟨b1, b2, b3, b4⟩ := hsr
      exact ⟨a1.trans b1, a2.trans b2, a3.trans b3, a4.trans b4⟩
    · intro g hg hl
      have := Strand.move_others st f pc f.stall f.nap hold (g := g) (by rw [hfr]; exact hg) hl
      rw [hfr] at this; exact this
    · intro L hL; exact Strand.move_together st f pc f.stall f.nap hold hL
    · intro h L hL; rw [h]; exact Strand.move_parked st f pc f.stall f.nap hL
    · intro v h L hL
      have := (Strand.move_rest st f 0 (fun _ => pc) f.stall f.nap hold).lane L
      rw [← hv v h L hL]
      unfold Lane.sameButTok at this
      show (Strand.lane (st.move f 0 (fun _ => pc) f.stall f.nap hold) L).traprec = _
      simpa using congrArg Lane.traprec this
  cases tp with
  | none => exact key (b.strand sid) rfl ⟨rfl, rfl, rfl, rfl⟩ (fun v h => by cases h) rfl rfl
  | some va =>
    refine key ((b.strand sid).updLanes f.lanes fun _ l => { l with traprec := va }) rfl ⟨rfl, rfl, rfl, rfl⟩ (fun v h L hL => ?_) rfl rfl
    cases h
    rw [Strand.lane_updLanes, if_pos hL]

end Sys2Proof.Machine
end

