-- ==== Sys2Proof/Laws/Memory.lean ====
section
/-!
SUPPORT. Every operation on the memories keeps memory and scratchpad in their canonical form, and reset has it.
-/
namespace Sys2Proof.SMap

variable {α : Type}

/-- Leaving entries out keeps the numbers rising. -/
theorem sortedFrom_filter (m : SMap α) (p : Nat × α → Bool) {lo : Option Nat} (h : sortedFrom lo m = true) :
    sortedFrom lo (List.filter p m) = true := by
  induction m generalizing lo with
  | nil => rfl
  | cons kv m ih =>
    obtain ⟨k, w⟩ := kv
    simp only [sortedFrom, Bool.and_eq_true] at h
    rw [List.filter_cons]
    split
    · simp only [sortedFrom, Bool.and_eq_true]; exact ⟨h.1, ih h.2⟩
    · refine sortedFrom_weaken _ (ih h.2) ?_
      intro l hl; subst hl
      simp only [decide_eq_true_eq] at h
      exact ⟨k, rfl, by omega⟩

theorem wf_filter [DecidableEq α] (d : α) (m : SMap α) (p : Nat × α → Bool) (h : wf d m = true) :
    wf d (List.filter p m) = true := by
  simp only [wf, Bool.and_eq_true, List.all_eq_true, sorted] at h ⊢
  exact ⟨sortedFrom_filter m p h.1, fun kv hkv => h.2 kv (List.mem_filter.mp hkv).1⟩

theorem wf_dropRange [DecidableEq α] (d : α) (m : SMap α) (lo hi : Nat) (h : wf d m = true) :
    wf d (m.dropRange lo hi) = true := wf_filter d m _ h

theorem wf_foldl_set [DecidableEq α] {β : Type} (d : α) (m : SMap α) (l : List β) (k : β → Nat) (v : β → α)
    (h : wf d m = true) : wf d (l.foldl (fun m x => m.set d (k x) (v x)) m) = true := by
  induction l generalizing m with
  | nil => exact h
  | cons x l ih => exact ih _ (wf_set d m _ _ h)

end Sys2Proof.SMap

namespace Sys2Proof.Machine
open Sys2Proof.SMap

variable {m : MemSys}

/-- The invariant depends on memory, scratchpad, the slices' bytes and the L1 lines alone. -/
theorem MemSys.wf_congr {m' : MemSys} (h : m.wf = true) (h1 : m'.mem = m.mem) (h2 : m'.spad = m.spad) (h3 : m'.llc = m.llc)
    (h4 : m'.l1 = m.l1) : m'.wf = true := by
  simpa [MemSys.wf, h1, h2, h3, h4] using h

theorem MemSys.wf_iff : m.wf = true ↔ SMap.wf blankByte m.mem = true ∧ SMap.wf blankByte m.spad = true ∧
    m.llc.sorted = true ∧ linesOk m.l1 = true := by
  simp [MemSys.wf, Memory.wf, and_assoc]

/-- Other bytes of memory in canonical form keep the invariant. -/
theorem MemSys.wf_mem {m' : MemSys} (h : m.wf = true) (h1 : SMap.wf blankByte m'.mem = true) (h2 : m'.spad = m.spad)
    (h3 : m'.llc = m.llc) (h4 : m'.l1 = m.l1) : m'.wf = true := by
  rw [MemSys.wf_iff] at h ⊢
  exact ⟨h1, h2 ▸ h.2.1, h3 ▸ h.2.2.1, h4 ▸ h.2.2.2⟩

theorem MemSys.wf_spad {m' : MemSys} (h : m.wf = true) (h1 : m'.mem = m.mem) (h2 : SMap.wf blankByte m'.spad = true)
    (h3 : m'.llc = m.llc) (h4 : m'.l1 = m.l1) : m'.wf = true := by
  rw [MemSys.wf_iff] at h ⊢
  exact ⟨h1 ▸ h.1, h2, h3 ▸ h.2.2.1, h4 ▸ h.2.2.2⟩

theorem MemSys.wf_llc {m' : MemSys} (h : m.wf = true) (h1 : m'.mem = m.mem) (h2 : m'.spad = m.spad)
    (h3 : m'.llc.sorted = true) (h4 : m'.l1 = m.l1) : m'.wf = true := by
  rw [MemSys.wf_iff] at h ⊢
  exact ⟨h1 ▸ h.1, h2 ▸ h.2.1, h3, h4 ▸ h.2.2.2⟩

theorem MemSys.wf_l1 {m' : MemSys} (h : m.wf = true) (h1 : m'.mem = m.mem) (h2 : m'.spad = m.spad) (h3 : m'.llc = m.llc)
    (h4 : linesOk m'.l1 = true) : m'.wf = true := by
  rw [MemSys.wf_iff] at h ⊢
  exact ⟨h1 ▸ h.1, h2 ▸ h.2.1, h3 ▸ h.2.2.1, h4⟩

theorem MemSys.wf_lines (h : m.wf = true) : linesOk m.l1 = true := (MemSys.wf_iff.mp h).2.2.2
theorem MemSys.wf_llcSorted (h : m.wf = true) : m.llc.sorted = true := (MemSys.wf_iff.mp h).2.2.1

/-! ### Lines that stand together -/

theorem linesOk_iff (ls : List L1Line) :
    linesOk ls = true ↔ (∀ l ∈ ls, l.ok = true) ∧ ls.Pairwise fun l k => l.apart k = true := by
  induction ls with
  | nil => simp [linesOk]
  | cons l ls ih => 
    simp only [linesOk, ih, List.pairwise_cons, List.all_eq_true, Bool.and_eq_true, List.mem_cons, forall_eq_or_imp]
    exact ⟨fun h => ⟨⟨h.1.1, h.2.1⟩, h.1.2, h.2.2⟩, fun h => ⟨⟨h.1.1, h.2.1⟩, h.1.2, h.2.2⟩⟩

theorem pairwise_of_mem {α : Type} {R : α → α → Prop} (hs : ∀ a b, R a b → R b a) {ls : List α} (h : ls.Pairwise R) {a b : α}
    (ha : a ∈ ls) (hb : b ∈ ls) (hn : a ≠ b) : R a b := by
  induction ls with
  | nil => cases ha
  | cons x ls ih =>
    obtain ⟨h1, h2⟩ := List.pairwise_cons.mp h
    rcases List.mem_cons.mp ha with e | ha' <;> rcases List.mem_cons.mp hb with e' | hb'
    · exact absurd (e.trans e'.symm) hn
    · exact e ▸ h1 _ hb'
    · exact e' ▸ hs _ _ (h1 _ ha')
    · exact ih h2 ha' hb'

theorem L1Line.apart_comm (l k : L1Line) : l.apart k = k.apart l := by
  simp [L1Line.apart, bne_comm (a := l.line), bne_comm (a := l.quad), Bool.and_comm l.owned]

theorem linesOk_filter (ls : List L1Line) (p : L1Line → Bool) (h : linesOk ls = true) : linesOk (ls.filter p) = true := by
  rw [linesOk_iff] at h ⊢
  exact ⟨fun l hl => h.1 l (List.mem_filter.mp hl).1, h.2.sublist List.filter_sublist⟩

/-- Lines whose words alone change stand together as before. -/
theorem linesOk_map (ls : List L1Line) (f : L1Line → L1Line) (hq : ∀ l, (f l).quad = l.quad) (hl : ∀ l, (f l).line = l.line)
    (ho : ∀ l, (f l).owned = l.owned) (hk : ∀ l, l.ok = true → (f l).ok = true) (h : linesOk ls = true) :
    linesOk (ls.map f) = true := by
  rw [linesOk_iff] at h ⊢
  refine ⟨fun l hl' => ?_, ?_⟩
  · obtain ⟨k, hk', rfl⟩ := List.mem_map.mp hl'
    exact hk k (h.1 k hk')
  · rw [List.pairwise_map]
    refine h.2.imp fun {a b} hab => ?_
    simpa [L1Line.apart, hq, hl, ho] using hab

theorem L1Line.ok_iff (l : L1Line) : l.ok = true ↔ l.words.sorted = true ∧ (∀ kv ∈ l.words, kv.1 < 32) ∧
    (l.owned = true → homeDie (l.line * lineBytes) = dieOfQuad l.quad) := by
  cases h : l.owned <;> simp [L1Line.ok, h, and_assoc]

/-- Other words, as many owners: rising numbers below 32. -/
theorem L1Line.ok_words (l : L1Line) (o : Bool) (ws : SMap (W32 × Bool)) (hs : ws.sorted = true)
    (hb : ∀ kv ∈ ws, kv.1 < 32) (ho : o = true → homeDie (l.line * lineBytes) = dieOfQuad l.quad) :
    ({ l with owned := o, words := ws } : L1Line).ok = true := (L1Line.ok_iff _).mpr ⟨hs, hb, ho⟩

theorem L1Line.ok_filter (l : L1Line) (p : Nat × (W32 × Bool) → Bool) (h : l.ok = true) :
    ({ l with words := List.filter p l.words } : L1Line).ok = true := by
  obtain ⟨hs, hb, ho⟩ := (L1Line.ok_iff l).mp h
  exact (L1Line.ok_iff _).mpr ⟨sortedFrom_filter _ _ hs, fun kv hkv => hb kv (List.mem_filter.mp hkv).1, ho⟩

theorem sortedFrom_mapVals {α β : Type} (f : α → β) (m : SMap α) (lo : Option Nat) :
    sortedFrom lo (List.map (fun kv => (kv.1, f kv.2)) m) = sortedFrom lo m := by
  induction m generalizing lo with
  | nil => rfl
  | cons kv m ih => simp [sortedFrom, ih]

theorem L1Line.ok_map (l : L1Line) (f : W32 × Bool → W32 × Bool) (h : l.ok = true) :
    ({ l with owned := false, words := List.map (fun kv => (kv.1, f kv.2)) l.words } : L1Line).ok = true := by
  obtain ⟨hs, hb, -⟩ := (L1Line.ok_iff l).mp h
  refine (L1Line.ok_iff _).mpr ⟨by simpa [sorted, sortedFrom_mapVals] using hs, fun kv hkv => ?_, by simp⟩
  obtain ⟨x, hx, rfl⟩ := List.mem_map.mp hkv
  exact hb x hx

theorem L1Line.ok_disown (l : L1Line) (h : l.ok = true) : ({ l with owned := false } : L1Line).ok = true := by
  obtain ⟨hs, hb, -⟩ := (L1Line.ok_iff l).mp h
  exact (L1Line.ok_iff _).mpr ⟨hs, hb, by simp⟩

theorem MemSys.l1Line_some {quad line : Nat} {l : L1Line} (h : m.l1Line quad line = some l) :
    l ∈ m.l1 ∧ l.quad = quad ∧ l.line = line := by
  have h1 := List.mem_of_find?_eq_some h
  have h2 := List.find?_some h
  simp only [Bool.and_eq_true, beq_iff_eq] at h2
  exact ⟨h1, h2⟩

/-- A line put into its L1 stands with the others, if it is the only owned one of its number. -/
theorem MemSys.wf_setL1 (l : L1Line) (h : m.wf = true) (hl : l.ok = true)
    (ho : l.owned = true → ∀ k ∈ m.l1, k.line = l.line → k.quad ≠ l.quad → k.owned = false) : (m.setL1 l).wf = true := by
  refine MemSys.wf_l1 h rfl rfl rfl ?_
  have hm := MemSys.wf_lines h
  rw [linesOk_iff] at hm ⊢
  refine ⟨fun k hk => ?_, ?_⟩
  · rcases List.mem_append.mp hk with hk | hk
    · exact hm.1 k (List.mem_filter.mp hk).1
    · exact List.mem_singleton.mp hk ▸ hl
  · refine List.pairwise_append.mpr ⟨hm.2.sublist List.filter_sublist, List.pairwise_singleton _ _, fun a ha b hb => ?_⟩
    obtain rfl := List.mem_singleton.mp hb
    obtain ⟨ha, hn⟩ := List.mem_filter.mp ha
    simp only [L1Line.apart, Bool.or_eq_true, bne_iff_ne, Bool.and_eq_true, Bool.not_eq_true', Bool.and_eq_false_iff, ne_eq]
    by_cases e : a.line = b.line
    · right
      have hq : a.quad ≠ b.quad := fun hq => by simp [hq, e] at hn
      refine ⟨hq, ?_⟩
      by_cases hb : b.owned = true
      · exact .inl (ho hb a ha e hq)
      · exact .inr (by simpa using hb)
    · exact .inl e

/-- A line of an L1 put back with other words. -/
theorem MemSys.wf_setL1_old {l l' : L1Line} (h : m.wf = true) (hm : l ∈ m.l1) (hk : l'.ok = true) (hq : l'.quad = l.quad)
    (hl : l'.line = l.line) (ho : l'.owned = l.owned) : (m.setL1 l').wf = true := by
  refine MemSys.wf_setL1 l' h hk fun hown k hk' hline hquad => ?_
  have hp := ((linesOk_iff m.l1).mp (MemSys.wf_lines h)).2
  have hap := pairwise_of_mem (fun a b hab => by rw [L1Line.apart_comm]; exact hab) hp hk' hm fun e => hquad (e ▸ hq.symm)
  have hown' : l.owned = true := ho ▸ hown
  have hline' : k.line = l.line := hline.trans hl
  simp only [L1Line.apart, hline', bne_self_eq_false, Bool.false_or, hown', Bool.and_true, Bool.and_eq_true] at hap
  simpa using hap.2

/-- A sequence of operations keeps what each of them keeps. -/
theorem MemSys.wf_foldl {β : Type} (f : MemSys → β → MemSys) (l : List β) (hf : ∀ m x, m.wf = true → (f m x).wf = true)
    (h : m.wf = true) : (l.foldl f m).wf = true := by
  induction l generalizing m with
  | nil => exact h
  | cons x l ih => exact ih (hf m x h)

/-! ### Ports -/

theorem MemSys.wf_zeroLine (line : Nat) (h : m.wf = true) : (m.zeroLine line).wf = true := by
  unfold MemSys.zeroLine
  generalize List.range lineBytes = is
  rw [MemSys.wf_iff] at h ⊢
  exact ⟨wf_foldl_set _ _ _ _ _ h.1, h.2⟩

theorem MemSys.wf_touchScrub (pa : Nat) (h : m.wf = true) : (m.touchScrub pa).wf = true := by
  have hz := m.wf_zeroLine (lineOf pa) h
  unfold MemSys.touchScrub
  generalize m.zeroLine (lineOf pa) = z at hz
  split
  · exact MemSys.wf_congr hz rfl rfl rfl rfl
  · exact h

theorem MemSys.wf_portWrite (pa : Nat) (b : Byte) (h : m.wf = true) : (m.portWrite pa b).wf = true := by
  have h := m.wf_touchScrub pa h
  exact MemSys.wf_mem h (wf_set _ _ _ _ (MemSys.wf_iff.mp h).1) rfl rfl rfl

/-! ### Slices -/

theorem MemSys.touchScrub_rest (pa : Nat) : (m.touchScrub pa).llc = m.llc ∧ (m.touchScrub pa).l1 = m.l1 := by
  have hz : (m.zeroLine (lineOf pa)).llc = m.llc ∧ (m.zeroLine (lineOf pa)).l1 = m.l1 := by
    unfold MemSys.zeroLine
    generalize List.range lineBytes = is
    exact ⟨rfl, rfl⟩
  unfold MemSys.touchScrub
  generalize m.zeroLine (lineOf pa) = z at hz ⊢
  split
  · exact hz
  · exact ⟨rfl, rfl⟩

theorem MemSys.portWrite_rest (pa : Nat) (b : Byte) :
    (m.portWrite pa b).llc = m.llc ∧ (m.portWrite pa b).l1 = m.l1 := m.touchScrub_rest pa

theorem MemSys.portWrites_rest (l : List (Nat × Byte)) :
    (l.foldl (fun m kv => m.portWrite kv.1 kv.2) m).llc = m.llc ∧ (l.foldl (fun m kv => m.portWrite kv.1 kv.2) m).l1 = m.l1 := by
  induction l generalizing m with
  | nil => exact ⟨rfl, rfl⟩
  | cons kv l ih =>
    obtain ⟨h1, h2⟩ := ih (m := m.portWrite kv.1 kv.2)
    obtain ⟨g1, g2⟩ := m.portWrite_rest kv.1 kv.2
    exact ⟨h1.trans g1, h2.trans g2⟩

theorem MemSys.wf_touchedIf (c : Bool) (pa : Nat) (h : m.wf = true) : (if c = true then m else m.touchScrub pa).wf = true := by
  split
  · exact h
  · exact m.wf_touchScrub pa h

theorem MemSys.wf_writeBack (line : Nat) (h : m.wf = true) : (m.writeBack line).wf = true := by
  unfold MemSys.writeBack
  simp only
  have hf := MemSys.wf_foldl (fun m (kv : Nat × Byte) => m.portWrite kv.1 kv.2)
    (List.filter (fun kv => kv.1 / lineBytes == line) m.llc) (fun m kv => m.wf_portWrite kv.1 kv.2)
    (m.wf_touchedIf (m.lpoison.filter (fun u => u / 16 == line) ++ m.errs.filterMap fun e => match e.1 with
      | .slice pa => if lineOf pa == line && !e.2 && m.lineDirty line then some (pa / 8) else none
      | _ => none).isEmpty (line * lineBytes) h)
  exact MemSys.wf_llc hf rfl rfl (sortedFrom_filter _ _ (MemSys.wf_llcSorted hf)) rfl

theorem MemSys.writeBack_l1 (line : Nat) : (m.writeBack line).l1 = m.l1 := by
  unfold MemSys.writeBack
  simp only
  refine (MemSys.portWrites_rest _).2.trans ?_
  split
  · rfl
  · exact (m.touchScrub_rest _).2

theorem MemSys.wf_dropTag (line : Nat) (h : m.wf = true) : (m.dropTag line).wf = true := by
  have hw := m.wf_writeBack line h
  unfold MemSys.dropTag; split
  · exact h
  · exact MemSys.wf_congr hw rfl rfl rfl rfl

theorem MemSys.dropTag_l1 (line : Nat) : (m.dropTag line).l1 = m.l1 := by
  have hw := m.writeBack_l1 line
  unfold MemSys.dropTag; split
  · rfl
  · exact hw

theorem MemSys.wf_drainWb (slice : Nat) (h : m.wf = true) : (m.drainWb slice).wf = true := by
  unfold MemSys.drainWb; split
  · exact h
  · exact MemSys.wf_congr (m.wf_writeBack _ h) rfl rfl rfl rfl

theorem MemSys.drainWb_l1 (slice : Nat) : (m.drainWb slice).l1 = m.l1 := by
  unfold MemSys.drainWb; split
  · rfl
  · exact m.writeBack_l1 _

theorem MemSys.wf_queueWb (slice line : Nat) (h : m.wf = true) : (m.queueWb slice line).wf = true := by
  have hd := m.wf_drainWb slice h
  unfold MemSys.queueWb
  generalize m.drainWb slice = d at hd
  split
  · exact MemSys.wf_congr hd rfl rfl rfl rfl
  · exact MemSys.wf_congr h rfl rfl rfl rfl

theorem MemSys.queueWb_l1 (slice line : Nat) : (m.queueWb slice line).l1 = m.l1 := by
  have hd := m.drainWb_l1 slice
  unfold MemSys.queueWb
  generalize m.drainWb slice = d at hd
  split
  · exact hd
  · rfl

theorem MemSys.wf_unhold (slice line : Nat) (h : m.wf = true) : (m.unhold slice line).wf = true :=
  MemSys.wf_congr h rfl rfl rfl rfl

theorem MemSys.wf_sliceEvict (slice line : Nat) (h : m.wf = true) : (m.sliceEvict slice line).wf = true := by
  have hu := m.wf_unhold slice line h
  unfold MemSys.sliceEvict
  generalize m.unhold slice line = u at hu
  have hd := u.wf_dropTag line hu
  simp only
  generalize u.dropTag line = d at hd
  split
  · exact MemSys.wf_congr hd rfl rfl rfl rfl
  · split
    · exact MemSys.wf_congr hu rfl rfl rfl rfl
    · split
      · exact hd
      · split
        · exact u.wf_queueWb slice line hu
        · exact hu

theorem MemSys.sliceEvict_l1 (slice line : Nat) : (m.sliceEvict slice line).l1 = m.l1 := by
  have hu : (m.unhold slice line).l1 = m.l1 := rfl
  unfold MemSys.sliceEvict
  generalize m.unhold slice line = u at hu
  have hd := (u.dropTag_l1 line).trans hu
  simp only
  generalize u.dropTag line = d at hd
  split
  · exact hd
  · split
    · exact hu
    · split
      · exact hd
      · split
        · exact (u.queueWb_l1 slice line).trans hu
        · exact hu

theorem MemSys.wf_sliceRoom (slice line : Nat) (h : m.wf = true) : (m.sliceRoom slice line).wf = true := by
  unfold MemSys.sliceRoom
  simp only
  split
  · split
    · exact m.wf_sliceEvict _ _ h
    · exact h
  · exact h

theorem MemSys.sliceRoom_l1 (slice line : Nat) : (m.sliceRoom slice line).l1 = m.l1 := by
  unfold MemSys.sliceRoom
  simp only
  split
  · split
    · exact m.sliceEvict_l1 _ _
    · rfl
  · rfl

theorem MemSys.wf_hold (slice line : Nat) (h : m.wf = true) : (m.hold slice line).wf = true := by
  have hr := m.wf_sliceRoom slice line h
  unfold MemSys.hold; split
  · exact h
  · exact MemSys.wf_congr hr rfl rfl rfl rfl

theorem MemSys.hold_l1 (slice line : Nat) : (m.hold slice line).l1 = m.l1 := by
  have hr := m.sliceRoom_l1 slice line
  unfold MemSys.hold; split
  · rfl
  · exact hr

theorem MemSys.wf_holdHome (line : Nat) (h : m.wf = true) : (m.holdHome line).wf = true :=
  MemSys.wf_congr (m.wf_hold _ _ h) rfl rfl rfl rfl

theorem MemSys.wf_holdWritten (line : Nat) (h : m.wf = true) : (m.holdWritten line).wf = true := by
  have hh := m.wf_hold (sliceOf (line * lineBytes)) line h
  unfold MemSys.holdWritten; split
  · exact h
  · exact MemSys.wf_congr hh rfl rfl rfl rfl

theorem MemSys.holdWritten_l1 (line : Nat) : (m.holdWritten line).l1 = m.l1 := by
  have hh := m.hold_l1 (sliceOf (line * lineBytes)) line
  unfold MemSys.holdWritten; split
  · rfl
  · exact hh

/-! ### L1 lines -/

theorem MemSys.wf_clearL1Errs (quad line : Nat) (word : Nat → Bool) (h : m.wf = true) : (m.clearL1Errs quad line word).wf = true :=
  MemSys.wf_congr h rfl rfl rfl rfl

theorem MemSys.wf_dropL1 (quad line : Nat) (h : m.wf = true) : (m.dropL1 quad line).wf = true :=
  MemSys.wf_l1 h rfl rfl rfl (linesOk_filter _ _ (MemSys.wf_lines h))

theorem MemSys.dropL1_l1 (quad line : Nat) : (m.dropL1 quad line).l1 = m.l1.filter fun x => !(x.quad == quad && x.line == line) := rfl

theorem MemSys.wf_clearPoison (bytes : List (Nat × Byte)) (h : m.wf = true) : (m.clearPoison bytes).wf = true := by
  unfold MemSys.clearPoison; split
  · exact h
  · exact MemSys.wf_congr h rfl rfl rfl rfl

theorem MemSys.clearPoison_l1 (bytes : List (Nat × Byte)) : (m.clearPoison bytes).l1 = m.l1 := by
  unfold MemSys.clearPoison; split <;> rfl

theorem MemSys.countAll_rest {β : Type} (es : List β) (q : Nat) (c : β → Nat) :
    ∀ m : MemSys, (es.foldl (fun m e => m.countErr q (c e)) m).mem = m.mem ∧ (es.foldl (fun m e => m.countErr q (c e)) m).spad = m.spad ∧
      (es.foldl (fun m e => m.countErr q (c e)) m).llc = m.llc ∧ (es.foldl (fun m e => m.countErr q (c e)) m).l1 = m.l1 := by
  induction es with
  | nil => exact fun m => ⟨rfl, rfl, rfl, rfl⟩
  | cons e es ih => exact fun m => ih (m.countErr q (c e))

theorem MemSys.l1Errors_rest (l : L1Line) : (m.l1Errors l).mem = m.mem ∧ (m.l1Errors l).spad = m.spad ∧
    (m.l1Errors l).llc = m.llc ∧ (m.l1Errors l).l1 = m.l1 :=
  MemSys.countAll_rest (List.filter (fun (e : ErrLoc × Bool) => onL1 l.quad l.line l.wordDirty e.1) m.errs) l.quad (fun (e : ErrLoc × Bool) => if e.2 then 6 else 7) m

theorem MemSys.wf_l1Errors (l : L1Line) (h : m.wf = true) : (m.l1Errors l).wf = true := by
  obtain ⟨h1, h2, h3, h4⟩ := m.l1Errors_rest l
  exact MemSys.wf_congr h h1 h2 h3 h4

theorem MemSys.wf_poisonLine (line : Nat) (h : m.wf = true) : (m.poisonLine line).wf = true := MemSys.wf_congr h rfl rfl rfl rfl

theorem sorted_foldl_put {β : Type} (l : List β) (k : β → Nat) (v : β → Byte) (c : SMap Byte) (h : c.sorted = true) :
    (l.foldl (fun c x => c.put (k x) (v x)) c).sorted = true := by
  induction l generalizing c with
  | nil => exact h
  | cons x l ih => exact ih _ (sortedFrom_put c none _ _ h (by simp))

theorem MemSys.wf_l1Flush (quad line : Nat) (h : m.wf = true) : (m.l1Flush quad line).wf = true := by
  unfold MemSys.l1Flush; split
  · exact h
  · rename_i l hl
    have hok := ((linesOk_iff m.l1).mp (MemSys.wf_lines h)).1 l (MemSys.l1Line_some hl).1
    split
    · exact MemSys.wf_dropL1 _ _ (by
        split
        · exact m.wf_poisonLine line h
        · exact h)
    · split
      · exact MemSys.wf_setL1 _ h (l.ok_disown hok) (by simp)
      · have hk := MemSys.wf_l1Errors l (MemSys.wf_clearPoison l.dirtyBytes (m.wf_holdWritten line h))
        exact MemSys.wf_llc (MemSys.wf_setL1 _ hk (L1Line.ok_map l (fun x => (x.1, false)) hok) (by simp)) rfl rfl
          (sorted_foldl_put _ _ _ _ (MemSys.wf_llcSorted hk)) rfl

theorem MemSys.wf_l1Out (quad line : Nat) (h : m.wf = true) : (m.l1Out quad line).wf = true :=
  MemSys.wf_dropL1 _ _ (m.wf_l1Flush quad line h)

/-- An L1 that gives a line up keeps every other line. -/
theorem MemSys.l1Out_l1 (quad line : Nat) : (m.l1Out quad line).l1 =
    m.l1.filter fun x => !(x.quad == quad && x.line == line) := by
  unfold MemSys.l1Out MemSys.l1Flush
  rw [MemSys.dropL1_l1]
  split
  · rfl
  · rename_i l hl
    have he := MemSys.l1Line_some hl
    split
    · rw [MemSys.dropL1_l1]
      have hp : (if l.owned = true then m.poisonLine line else m).l1 = m.l1 := by split <;> rfl
      rw [hp, List.filter_filter]; simp
    · split
      · simp [MemSys.setL1, List.filter_filter, he.2.1, he.2.2]
      · have h4 := ((m.holdWritten line).clearPoison l.dirtyBytes).l1Errors_rest l |>.2.2.2
        rw [MemSys.clearPoison_l1, MemSys.holdWritten_l1] at h4
        simp [MemSys.setL1, h4, List.filter_filter, he.2.1, he.2.2]

theorem MemSys.outAll_l1 (line : Nat) : ∀ (qs : List Nat) (m : MemSys),
    (qs.foldl (fun m q => m.l1Out q line) m).l1 = m.l1.filter fun x => !(qs.contains x.quad && x.line == line) := by
  intro qs
  induction qs with
  | nil => intro m; exact (List.filter_eq_self.mpr (by simp)).symm
  | cons q qs ih =>
    intro m
    rw [List.foldl_cons, ih, MemSys.l1Out_l1, List.filter_filter]
    congr 1
    funext x
    by_cases h : x.quad = q <;> by_cases hl : x.line = line <;> simp [h, hl]

theorem MemSys.wf_loseHost (line : Nat) (h : m.wf = true) : (m.loseHost line).wf = true := by
  unfold MemSys.loseHost; split
  · exact MemSys.wf_congr h rfl rfl rfl rfl
  · exact h

theorem MemSys.loseHost_l1 (line : Nat) : (m.loseHost line).l1 = m.l1 := by unfold MemSys.loseHost; split <;> rfl

theorem MemSys.wf_takeLine (line : Nat) (h : m.wf = true) : (m.takeLine line).wf = true :=
  MemSys.wf_congr (MemSys.wf_foldl (fun m q => m.l1Out q line) _ (fun m q => m.wf_l1Out q line) (m.wf_loseHost line h))
    rfl rfl rfl rfl

theorem MemSys.wf_recallLine (line : Nat) (h : m.wf = true) : (m.recallLine line).wf = true :=
  MemSys.wf_congr (MemSys.wf_foldl (fun m q => m.l1Flush q line) _ (fun m q => m.wf_l1Flush q line) h) rfl rfl rfl rfl

/-- A line granted to an L1 has no other holder on its die, and none elsewhere owns it. -/
theorem MemSys.wf_grant (quad line : Nat) (h : m.wf = true) : (m.grant quad line).wf = true := by
  unfold MemSys.grant; split
  · exact h
  · rename_i l hl
    obtain ⟨hmem, hq, hline⟩ := MemSys.l1Line_some hl
    have hall := ((linesOk_iff m.l1).mp (MemSys.wf_lines h)).1
    split
    · exact h
    · rename_i hd
      split
      · exact MemSys.wf_dropL1 _ _ (m.wf_poisonLine line h)
      · have hdie : homeDie (line * lineBytes) = dieOfQuad quad := by simpa using hd
        have hf := MemSys.wf_foldl (fun m q => m.l1Out q line) ((m.holders line).filter (· != quad))
          (fun m q => m.wf_l1Out q line) (m.wf_loseHost line h)
        have hl1 := MemSys.outAll_l1 line ((m.holders line).filter (· != quad)) (m.loseHost line)
        have hok : ∀ p, ({ l with owned := true, words := List.filter p l.words } : L1Line).ok = true := fun p => by
          obtain ⟨hs, hb, -⟩ := (L1Line.ok_iff l).mp (hall l hmem)
          exact (L1Line.ok_iff _).mpr ⟨sortedFrom_filter _ _ hs, fun kv hkv => hb kv (List.mem_filter.mp hkv).1,
            fun _ => by rw [hline, hq]; exact hdie⟩
        refine MemSys.wf_congr (MemSys.wf_setL1 _ hf (hok _) fun _ k hk hkl hkq => ?_) rfl rfl rfl rfl
        rw [hl1, MemSys.loseHost_l1] at hk
        obtain ⟨hk, hn⟩ := List.mem_filter.mp hk
        refine Bool.eq_false_iff.mpr fun hown => ?_
        have hkd := ((L1Line.ok_iff k).mp (hall k hk)).2.2 hown
        have hc : ((m.holders line).filter (· != quad)).contains k.quad = true := by
          simp only [List.contains_iff_mem, List.mem_filter, MemSys.holders, List.mem_map, bne_iff_ne, ne_eq, beq_iff_eq,
            Bool.and_eq_true]
          refine ⟨⟨k, ⟨hk, hkl.trans hline, ?_⟩, rfl⟩, fun e => hkq (e.trans hq.symm)⟩
          rw [← hkd, hkl]; exact congrArg (fun n => homeDie (n * lineBytes)) hline
        rw [hc] at hn
        simp [hkl, hline] at hn

theorem MemSys.wf_l1Evict (quad line : Nat) (h : m.wf = true) : (m.l1Evict quad line).wf = true := by
  unfold MemSys.l1Evict; split
  · exact h
  · refine MemSys.wf_l1Out _ _ ?_
    split
    · exact m.wf_grant _ _ h
    · exact h

theorem MemSys.wf_llcPut {m' : MemSys} (pa : Nat) (b : Byte) (h : m.wf = true) (h1 : m'.mem = m.mem) (h2 : m'.spad = m.spad)
    (h3 : m'.llc = m.llc.put pa b) (h4 : m'.l1 = m.l1) : m'.wf = true :=
  MemSys.wf_llc h h1 h2 (h3 ▸ sortedFrom_put _ none _ _ (MemSys.wf_llcSorted h) (by simp)) h4

theorem MemSys.wf_homeWrite (bytes : List (Nat × Byte)) (h : m.wf = true) : (m.homeWrite bytes).wf = true := by
  refine MemSys.wf_clearPoison _ (MemSys.wf_foldl _ _ (fun m kv h => ?_) h)
  have hd := m.wf_dropTag (lineOf kv.1) h
  have hh := MemSys.wf_holdHome (lineOf kv.1) hd
  have ht := MemSys.wf_holdWritten (lineOf kv.1) (MemSys.wf_dropTag (lineOf kv.1) (m.wf_takeLine (lineOf kv.1) h))
  simp only
  generalize ((m.takeLine (lineOf kv.1)).dropTag (lineOf kv.1)).holdWritten (lineOf kv.1) = k at ht ⊢
  generalize m.dropTag (lineOf kv.1) = d at hd hh ⊢
  generalize d.holdHome (lineOf kv.1) = k2 at hh ⊢
  split
  · exact MemSys.wf_llcPut kv.1 kv.2 ht rfl rfl rfl rfl
  · split
    · exact MemSys.wf_mem hh (wf_set _ _ _ _ (MemSys.wf_iff.mp hh).1) rfl rfl rfl
    · exact MemSys.wf_mem hd (wf_set _ _ _ _ (MemSys.wf_iff.mp hd).1) rfl rfl rfl

theorem MemSys.wf_writePa (pa : Nat) (bs : List Byte) (h : m.wf = true) : (m.writePa pa bs).wf = true :=
  m.wf_homeWrite _ h

/-! ### Copies of other dies' lines -/

theorem MemSys.wf_dropCopies (p : Nat → Nat → Bool) (h : m.wf = true) : (m.dropCopies p).wf = true :=
  MemSys.wf_congr h rfl rfl rfl rfl

theorem MemSys.wf_acquire (core : Nat) (h : m.wf = true) : (m.acquire core).wf = true :=
  MemSys.wf_l1 h rfl rfl rfl (linesOk_filter _ _ (MemSys.wf_lines h))

theorem MemSys.wf_dropRemote (quad line : Nat) (h : m.wf = true) : (m.dropRemote quad line).wf = true := by
  unfold MemSys.dropRemote; split
  · exact h
  · exact MemSys.wf_l1 h rfl rfl rfl (linesOk_filter _ _ (MemSys.wf_lines h))

theorem MemSys.wf_dropAbroad (line : Nat) (h : m.wf = true) : (m.dropAbroad line).wf = true :=
  MemSys.wf_l1 h rfl rfl rfl (linesOk_filter _ _ (MemSys.wf_lines h))

theorem MemSys.wf_bringHome (quad line : Nat) (h : m.wf = true) : (m.bringHome quad line).wf = true := by
  unfold MemSys.bringHome; split
  · exact MemSys.wf_takeLine _ (m.wf_dropRemote quad line h)
  · exact h

/-! ### Fills -/

theorem MemSys.wf_l1Room (quad line : Nat) (h : m.wf = true) : (m.l1Room quad line).wf = true := by
  unfold MemSys.l1Room
  split
  · exact m.wf_l1Evict _ _ h
  · exact h

theorem MemSys.wf_fetchFor (die line : Nat) (h : m.wf = true) : (m.fetchFor die line).wf = true := by
  have hr := m.wf_recallLine line h
  have hc := MemSys.wf_hold (sliceOn die line) line hr
  unfold MemSys.fetchFor
  simp only
  generalize (m.recallLine line).hold (sliceOn die line) line = c at hc
  split
  · exact hr
  · split
    · exact h
    · exact MemSys.wf_congr hc rfl rfl rfl rfl

theorem MemSys.wf_addSharer (quad line : Nat) (h : m.wf = true) : (m.addSharer quad line).wf = true := by
  unfold MemSys.addSharer; split
  · exact MemSys.wf_congr h rfl rfl rfl rfl
  · exact h

theorem MemSys.wf_openL1 (quad line : Nat) (h : m.wf = true) : (m.openL1 quad line).1.wf = true := by
  unfold MemSys.openL1
  simp only
  split
  · exact h
  · exact m.wf_l1Room quad line h

theorem sortedFrom_range {α : Type} (f : Nat → α) (n s : Nat) {lo : Option Nat} (hlo : ∀ l, lo = some l → l < s) :
    sortedFrom lo ((List.range' s n).map fun i => (i, f i)) = true := by
  induction n generalizing s lo with
  | zero => rfl
  | succ n ih =>
    simp only [List.range'_succ, List.map_cons, sortedFrom, Bool.and_eq_true]
    refine ⟨?_, ih (s + 1) fun l hl => by cases hl; omega⟩
    cases lo with
    | none => rfl
    | some l => simpa using hlo l rfl

theorem MemSys.fillWords_ok (die line : Nat) (l : L1Line) (old : SMap (W32 × Bool)) (h : l.ok = true) :
    ({ l with words := m.fillWords die line old } : L1Line).ok = true := by
  refine l.ok_words _ _ ?_ (fun kv hkv => ?_) ((L1Line.ok_iff l).mp h).2.2
  · unfold MemSys.fillWords; rw [List.range_eq_range' (n := 32)]; exact sortedFrom_range (lo := none) _ _ _ (by simp)
  · obtain ⟨w, hw, rfl⟩ := List.mem_map.mp hkv
    simpa using hw

/-- The line that a quadrant's L1 is opened for: one it holds, or an empty one that no one owns. -/
theorem MemSys.openL1_line (quad line : Nat) :
    (m.openL1 quad line).2 ∈ (m.openL1 quad line).1.l1 ∨
      (m.openL1 quad line).2 = { quad := quad, line := line, owned := false, words := [] } := by
  unfold MemSys.openL1
  simp only
  generalize (if (m.l1Line quad line).isSome = true then m else m.l1Room quad line) = k
  cases h : k.l1Line quad line with
  | none => exact .inr rfl
  | some l => exact .inl (MemSys.l1Line_some h).1

theorem MemSys.openL1_ok (quad line : Nat) (h : m.wf = true) : (m.openL1 quad line).2.ok = true := by
  rcases m.openL1_line quad line with hm | he
  · exact ((linesOk_iff _).mp (MemSys.wf_lines (m.wf_openL1 quad line h))).1 _ hm
  · rw [he]; rfl

/-- An opened line put back with other words. -/
theorem MemSys.wf_putOpen (quad line : Nat) (ws : SMap (W32 × Bool)) (h : (m.openL1 quad line).1.wf = true)
    (hk : ({ (m.openL1 quad line).2 with words := ws } : L1Line).ok = true) :
    ((m.openL1 quad line).1.setL1 { (m.openL1 quad line).2 with words := ws }).wf = true := by
  rcases m.openL1_line quad line with hm | he
  · exact MemSys.wf_setL1_old h hm hk rfl rfl rfl
  · exact MemSys.wf_setL1 _ h hk (by simp [he])

theorem MemSys.wf_fill (quad line : Nat) (h : m.wf = true) : (m.fill quad line).wf = true := by
  unfold MemSys.fill
  split
  · exact h
  · have hf := m.wf_fetchFor (dieOfQuad quad) line h
    exact MemSys.wf_addSharer _ _ (MemSys.wf_putOpen _ _ _ (MemSys.wf_openL1 _ _ hf)
      (MemSys.fillWords_ok _ _ _ _ (MemSys.openL1_ok _ _ hf)))

/-! ### Stores -/

theorem MemSys.wf_l1Write (quad line : Nat) (bytes : List (Nat × Byte)) (h : m.wf = true) : (m.l1Write quad line bytes).wf = true := by
  have key : ∀ (ks : List Nat) (words : SMap (W32 × Bool)) (v : Nat → W32 × Bool) (l : L1Line), (∀ k ∈ ks, k < 32) →
      ({ l with words := words } : L1Line).ok = true →
      ({ l with words := ks.foldl (fun words k => words.put k (v k)) words } : L1Line).ok = true := by
    intro ks
    induction ks with
    | nil => intro words v l _ h; exact h
    | cons k ks ih =>
      intro words v l hk h
      refine ih _ v l (fun k' h' => hk k' (List.mem_cons_of_mem _ h')) ?_
      obtain ⟨hs, hb, ho⟩ := (L1Line.ok_iff _).mp h
      refine (L1Line.ok_iff _).mpr ⟨sortedFrom_put words none _ _ hs (by simp), fun kv hkv => ?_, ho⟩
      rcases mem_put hkv with rfl | hkv
      · exact hk k List.mem_cons_self
      · exact hb kv hkv
  refine MemSys.wf_clearL1Errs _ _ _ (MemSys.wf_putOpen _ _ _ (m.wf_openL1 quad line h) (key _ _ _ _ ?_ (m.openL1_ok quad line h)))
  intro k hk
  have hk := List.mem_eraseDups.mp hk
  obtain ⟨kv, -, rfl⟩ := List.mem_map.mp hk
  unfold lineBytes
  omega

/-- A word that a store must complete is there, or is filled. -/
theorem MemSys.wf_completed (q p : Nat) (h : m.wf = true) :
    (if m.l1Valid q p = true then m else m.fill q (lineOf p)).wf = true := by
  split
  · exact h
  · exact m.wf_fill _ _ h

theorem MemSys.wf_storeRun (quadOf : Nat → Nat) (bytes : List (Nat × Byte)) (h : m.wf = true) :
    (m.storeRun quadOf bytes).wf = true := by
  unfold MemSys.storeRun
  split
  · exact h
  · rename_i pa b rest
    generalize hbs : (pa, b) :: rest = bytes
    dsimp only
    have hw := MemSys.wf_foldl
      (fun m line => m.l1Write (quadOf (line * lineBytes)) line (bytes.filter fun kv => lineOf kv.1 == line))
      ((bytes.map fun kv => lineOf kv.1).eraseDups) (fun m line => m.wf_l1Write _ line _)
      (MemSys.wf_foldl (fun m p => if m.l1Valid (quadOf (lineOf p * lineBytes)) p then m
        else m.fill (quadOf (lineOf p * lineBytes)) (lineOf p)) (partWords pa bytes.length) (fun m p => m.wf_completed _ p) h)
    split
    · split
      · exact MemSys.wf_foldl (fun m line => m.grant (quadOf (line * lineBytes)) line) _ (fun m line => m.wf_grant _ line) hw
      · exact hw
    · exact MemSys.wf_homeWrite _ (MemSys.wf_foldl (fun m line => m.dropRemote (quadOf (line * lineBytes)) line) _
        (fun m line => m.wf_dropRemote _ line) h)

theorem MemSys.wf_storeBytes (quadOf : Nat → Nat) (bytes : List (Nat × Byte)) (h : m.wf = true) :
    (m.storeBytes quadOf bytes).wf = true :=
  MemSys.wf_foldl (fun m run => m.storeRun quadOf run) _ (fun m run => m.wf_storeRun quadOf run) h

theorem MemSys.wf_tagLine (tag : FwdTag) (line : Nat) (h : m.wf = true) : (m.tagLine tag line).wf = true := by
  have hk := MemSys.wf_dropAbroad line (MemSys.wf_writeBack line (m.wf_dropTag line h))
  have hm : ∀ tags : List Nat, (match tags with
      | l :: _ => if tagWays ≤ tags.length then (((m.dropTag line).writeBack line).dropAbroad line).dropTag l
        else ((m.dropTag line).writeBack line).dropAbroad line
      | [] => ((m.dropTag line).writeBack line).dropAbroad line).wf = true := fun tags => by
    split
    · split
      · exact MemSys.wf_dropTag _ hk
      · exact hk
    · exact hk
  unfold MemSys.tagLine
  split
  · exact h
  · exact MemSys.wf_congr (hm _) rfl rfl rfl rfl

theorem MemSys.wf_fwdWrite (tag : FwdTag) (bytes : List (Nat × Byte)) (h : m.wf = true) :
    (m.fwdWrite tag bytes).wf = true := by
  refine MemSys.wf_clearPoison _ (MemSys.wf_foldl _ _ (fun m kv h => ?_) h)
  have ht := MemSys.wf_tagLine tag (lineOf kv.1) (MemSys.wf_holdWritten (lineOf kv.1) (m.wf_takeLine (lineOf kv.1) h))
  exact MemSys.wf_llcPut kv.1 kv.2 ht rfl rfl rfl rfl

theorem MemSys.wf_consume (line : Nat) (h : m.wf = true) : (m.consume line).wf = true :=
  have hh := m.wf_loseHost line h
  MemSys.wf_unhold _ _ (MemSys.wf_llc hh rfl rfl (sortedFrom_filter _ _ (MemSys.wf_llcSorted hh)) rfl)

/-! ### Scratchpad, places, errors -/

theorem MemSys.wf_spadWrite (core : Nat) (bytes : List (Nat × Byte)) (h : m.wf = true) :
    (m.spadWrite core bytes).wf = true :=
  MemSys.wf_spad h rfl (wf_foldl_set _ _ _ _ _ (MemSys.wf_iff.mp h).2.1) rfl rfl

theorem MemSys.wf_homePut (bytes : List (Loc × Byte)) (h : m.wf = true) : (m.homePut bytes).wf = true :=
  MemSys.wf_spadWrite _ _ (m.wf_homeWrite _ h)

theorem MemSys.wf_discardClean (quad line : Nat) (h : m.wf = true) : (m.discardClean quad line).wf = true := by
  refine MemSys.wf_l1 h rfl rfl rfl (linesOk_map _ _ ?_ ?_ ?_ ?_ (MemSys.wf_lines h)) <;> intro l <;> split <;>
    first | rfl | exact id | exact l.ok_filter _

theorem MemSys.wf_found (spown : Nat → W64) (e : ErrLoc × Bool) (h : m.wf = true) : (m.found spown e).wf = true := by
  obtain ⟨loc, c⟩ := e
  cases loc <;> simp only [MemSys.found] <;>
    first
      | exact MemSys.wf_congr h rfl rfl rfl rfl
      | exact MemSys.wf_dropCopies _ (MemSys.wf_congr h rfl rfl rfl rfl)
      | (split <;> first
          | exact MemSys.wf_congr h rfl rfl rfl rfl
          | exact MemSys.wf_discardClean _ _ (MemSys.wf_congr h rfl rfl rfl rfl)
          | (split <;> exact MemSys.wf_congr h rfl rfl rfl rfl))

/-! ### Fetch, slices' queues, locks, hosts -/

theorem MemSys.wf_fillLlc (die line : Nat) (h : m.wf = true) : (m.fillLlc die line).wf = true := by
  have hh : (if isHbm (line * lineBytes) = true then m.holdHome line else m).wf = true := by
    split
    · exact m.wf_holdHome line h
    · exact h
  unfold MemSys.fillLlc
  generalize (if isHbm (line * lineBytes) = true then m.holdHome line else m) = k at hh
  dsimp only
  split
  · exact hh
  · exact k.wf_fetchFor _ _ hh

theorem MemSys.wf_fetchLine (core line : Nat) (h : m.wf = true) : (m.fetchLine core line).wf = true := by
  have hf := MemSys.wf_fetchFor (dieOfCore core) line (m.wf_holdHome line h)
  unfold MemSys.fetchLine
  generalize (m.holdHome line).fetchFor (dieOfCore core) line = k at hf
  split
  · exact h
  · exact MemSys.wf_congr hf rfl rfl rfl rfl

theorem MemSys.wf_takeMiss (slice line : Nat) (h : m.wf = true) : (m.takeMiss slice line).wf = true :=
  MemSys.wf_congr h rfl rfl rfl rfl

theorem MemSys.wf_lookup (slice line : Nat) (h : m.wf = true) : (m.lookup slice line).wf = true := by
  unfold MemSys.lookup
  split
  · exact MemSys.wf_takeMiss _ _ (m.wf_holdHome line h)
  · exact h

theorem MemSys.wf_freeMiss (slice line : Nat) (h : m.wf = true) : (m.freeMiss slice line).wf = true :=
  MemSys.wf_congr h rfl rfl rfl rfl

theorem MemSys.wf_portRead (line : Nat) (h : m.wf = true) : (m.portRead line).wf = true :=
  MemSys.wf_foldl _ _ (fun m e h => m.wf_found _ e h) h

theorem MemSys.wf_hostTakes (lines : List Nat) (h : m.wf = true) : (m.hostTakes lines).wf = true :=
  MemSys.wf_foldl _ _ (fun m line h => MemSys.wf_congr (m.wf_recallLine line h) rfl rfl rfl rfl) h

theorem MemSys.wf_hostWrites (pa : Nat) (bytes : List Byte) (h : m.wf = true) : (m.hostWrites pa bytes).wf = true :=
  MemSys.wf_mem h (wf_foldl_set _ _ _ _ _ (MemSys.wf_iff.mp h).1) rfl rfl rfl

theorem MemSys.wf_sendHome (line : Nat) (h : m.wf = true) : (m.sendHome line).wf = true :=
  MemSys.wf_dropAbroad _ (MemSys.wf_writeBack _ (MemSys.wf_dropTag _ (m.wf_takeLine line h)))

theorem MemSys.wf_unlock (uid : Nat) (h : m.wf = true) : (m.unlock uid).wf = true := MemSys.wf_congr h rfl rfl rfl rfl

theorem MemSys.wf_lockLine (line uid : Nat) (h : m.wf = true) : (m.lockLine line uid).wf = true :=
  MemSys.wf_congr (MemSys.wf_writeBack line (MemSys.wf_dropTag line (m.wf_takeLine line h))) rfl rfl rfl rfl

theorem MemSys.wf_invalidateCode (line : Nat) (h : m.wf = true) : (m.invalidateCode line).wf = true :=
  MemSys.wf_congr h rfl rfl rfl rfl

theorem MemSys.wf_dropCode (die line : Nat) (h : m.wf = true) : (m.dropCode die line).wf = true :=
  MemSys.wf_congr h rfl rfl rfl rfl

theorem MemSys.wf_clearErrs (uid sid : Nat) (ws : List PWrite) (h : m.wf = true) : (m.clearErrs uid sid ws).wf = true := by
  unfold MemSys.clearErrs; split
  · exact h
  · exact MemSys.wf_congr h rfl rfl rfl rfl

/-! ### Translations, blocks that leave, sitting out, resets -/

theorem MemSys.wf_dropTlb (p : Xlate → Bool) (h : m.wf = true) : (m.dropTlb p).wf = true := MemSys.wf_congr h rfl rfl rfl rfl

theorem MemSys.wf_clearTlb1 (quad ten : Nat) (h : m.wf = true) : (m.clearTlb1 quad ten).wf = true :=
  MemSys.wf_congr h rfl rfl rfl rfl

theorem MemSys.wf_flushL1 (quad : Nat) (h : m.wf = true) : (m.flushL1 quad).wf = true :=
  MemSys.wf_foldl (fun m line => m.l1Evict quad line) _ (fun m line => m.wf_l1Evict quad line) h

theorem MemSys.wf_setScrubReg (stack : Nat) (r : ScrubReg) (h : m.wf = true) : (m.setScrubReg stack r).wf = true :=
  MemSys.wf_congr h rfl rfl rfl rfl

theorem MemSys.wf_dropLines {m' : MemSys} (p : L1Line → Bool) (h : m.wf = true) (h1 : m'.mem = m.mem) (h2 : m'.spad = m.spad)
    (h3 : m'.llc = m.llc) (h4 : m'.l1 = m.l1.filter p) : m'.wf = true :=
  MemSys.wf_l1 h h1 h2 h3 (h4 ▸ linesOk_filter _ _ (MemSys.wf_lines h))

theorem MemSys.wf_forgetTile (slice core : Nat) (h : m.wf = true) : (m.forgetTile slice core).wf = true :=
  MemSys.wf_dropLines _ (MemSys.wf_foldl (fun m line => m.poisonLine line) _ (fun m line => m.wf_poisonLine line) h)
    rfl rfl rfl rfl

theorem MemSys.wf_wipeCore (core : Nat) (h : m.wf = true) : (m.wipeCore core).wf = true := by
  have hi := MemSys.wf_iff.mp h
  exact MemSys.wf_iff.mpr ⟨hi.1, wf_dropRange _ _ _ _ hi.2.1, hi.2.2.1, linesOk_filter _ _ hi.2.2.2⟩

theorem MemSys.wf_reset : MemSys.reset.wf = true := rfl

theorem MemSys.wf_afterReset (h : m.wf = true) : m.afterReset.wf = true := by
  exact MemSys.wf_iff.mpr ⟨(MemSys.wf_iff.mp h).1, rfl, rfl, rfl⟩

/-- The machine right after reset has its memories in canonical form. -/
theorem reset_wf : State.reset.mem.wf = true := rfl

end Sys2Proof.Machine
end

