-- ==== Sys2Proof/Laws/Issue.lean ====
section
/-!
SUPPORT. What an issue answers: the three cases of `issue`, said once; what the issuing context is; what every issue does around
the effect, and what a result of fixed latency leaves.
-/
namespace Sys2Proof.Machine

variable {i : Instr} {e : Entry} {c : Ctl} {s : State} {x : Ctx} {body : State → Ctx → Except Trap Done}

/-- An instruction that passes the checks and whose entry finds no fault has its effect. -/
theorem issue_ok {d : Done} (h : Passes i e c s x) (hd : body (entered i e s x) x = .ok d) :
    issue i c e body s = .next (issued i s x d) := by
  have hd' : body (e.before (i.correct (i.scanSlots s x) x) x) x = .ok d := hd
  simp [issue, h.ctx, h.ready, h.checked, hd', issued]

/-- A fault of the instruction's own entry is a precise trap. -/
theorem issue_trap {t : Trap} (h : Passes i e c s x) (hd : body (entered i e s x) x = .error t) :
    issue i c e body s = .next ((entered i e s x).trapIssue x t) := by
  have hd' : body (e.before (i.correct (i.scanSlots s x) x) x) x = .error t := hd
  simp [issue, h.ctx, h.ready, h.checked, hd', entered]

/-- A check that fails is a precise trap. -/
theorem issue_check {t : Trap} (hx : s.ctx c = some x) (hr : x.canIssue i s = true)
    (hc : i.check e s x = some t) : issue i c e body s = .next (trapped i e s x t) := by
  simp [issue, hx, hr, hc, trapped]

/-- A held fragment changes nothing. -/
theorem issue_held (hx : s.ctx c = some x) (hr : x.canIssue i s = false) : issue i c e body s = .next s := by
  simp [issue, hx, hr]

theorem issue_idle (hx : s.ctx c = none) : issue i c e body s = .next s := by simp [issue, hx]

/-- Everything that an issue can answer. -/
theorem issue_cases (t : State) (h : issue i c e body s = .next t) :
    t = s ∨
    (∃ x p, s.ctx c = some x ∧ x.canIssue i s = true ∧ i.check e s x = some p ∧ t = trapped i e s x p) ∨
    (∃ x, Passes i e c s x ∧
      ((∃ p, body (entered i e s x) x = .error p ∧
          t = (entered i e s x).trapIssue x p) ∨
        ∃ d, body (entered i e s x) x = .ok d ∧ t = issued i s x d)) := by
  cases hx : s.ctx c with
  | none => rw [issue_idle hx] at h; cases h; exact .inl rfl
  | some x =>
    cases hr : x.canIssue i s with
    | false => rw [issue_held hx hr] at h; cases h; exact .inl rfl
    | true =>
      cases hc : i.check e s x with
      | some p => rw [issue_check hx hr hc] at h; cases h; exact .inr (.inl ⟨x, p, rfl, hr, hc, rfl⟩)
      | none =>
        have hp : Passes i e c s x := ⟨hx, hr, hc⟩
        cases hb : body (entered i e s x) x with
        | error p => rw [issue_trap hp hb] at h; cases h; exact .inr (.inr ⟨x, hp, .inl ⟨p, hb, rfl⟩⟩)
        | ok d => rw [issue_ok hp hb] at h; cases h; exact .inr (.inr ⟨x, hp, .inr ⟨d, hb, rfl⟩⟩)

/-- An issue always answers a next state. -/
theorem issue_next : ∃ t, issue i c e body s = .next t := by
  cases hx : s.ctx c with
  | none => exact ⟨_, issue_idle hx⟩
  | some x =>
    cases hr : x.canIssue i s with
    | false => exact ⟨_, issue_held hx hr⟩
    | true =>
      cases hc : i.check e s x with
      | some p => exact ⟨_, issue_check hx hr hc⟩
      | none =>
        cases hb : body (entered i e s x) x with
        | error p => exact ⟨_, issue_trap ⟨hx, hr, hc⟩ hb⟩
        | ok d => exact ⟨_, issue_ok ⟨hx, hr, hc⟩ hb⟩

/-- A fixed-latency instruction leaves its results waiting. -/
theorem fixed_runs {lat : Nat} {f : State → Ctx → List PWrite × Flags} (h : Passes i e c s x) :
    issue i c e (fixedBody lat f) s =
      .next (issued i s x (Done.later x ((entered i e s x).result x lat (f (entered i e s x) x).1 (f (entered i e s x) x).2))) :=
  issue_ok h rfl

/-! ### The issuing context -/

/-- The context names the block, the strand and the fragment that issue. -/
theorem ctx_eq (h : s.ctx c = some x) :
    s.block x.blk.uid = some x.blk ∧ x.st = x.blk.strand x.sid ∧ x.ctl = c ∧ x.sid < x.blk.strands.length ∧
      x.fr ∈ x.st.frags := by
  unfold State.ctx at h
  split at h
  · cases h
  · split at h
    · cases h
    · rename_i _ is hs _ b hb
      dsimp only at h
      split at h
      · cases h
      · rename_i _ f hf
        cases h
        refine ⟨?_, rfl, rfl, ?_, List.mem_of_find?_eq_some hf⟩
        · rw [s.block_uid hb]; exact hb
        · dsimp only
          by_cases hl : is.ref.strand < b.strands.length
          · exact hl
          · simp [Block.strand, List.getD, Nat.not_lt.mp hl, Strand.fragOf, Strand.none] at hf

/-- The lanes that an instruction acts on. -/
theorem mem_lanes (x : Ctx) (L : Nat) : L ∈ x.lanes ↔ x.active.getLsbD L = true := mem_lanesOf _ _

/-- An instruction that passes the checks has none of the ILLEGAL conditions. -/
theorem Passes.legal (h : Passes i e c s x) : i.illegal x = false ∧ e.illegal s x = false := by
  have hc := h.checked
  unfold Instr.check Instr.early at hc
  by_cases hn : (i.illegal x || e.illegal s x) = true
  · simp [hn] at hc
  · simpa using hn

theorem Passes.wf (h : Passes i e c s x) : i.wf = true := by
  have := h.legal.1
  simp only [Instr.illegal, Bool.or_eq_false_iff] at this
  simpa using this.1.1

theorem Passes.sett_le (h : Passes i e c s x) (hc : i.ctl = some c) : c.sett.toNat ≤ 4 := by
  have hw := h.wf
  unfold Instr.wf Instr.admitted at hw
  rw [hc] at hw
  simp only [Bool.and_eq_true] at hw
  simpa [Ctl.settOk] using hw.2.1

/-- With no soft error anywhere, an instruction without an entry of its own starts from the state as it is. -/
theorem entered_plain (he : s.mem.errs = []) (hb : e.before = fun s _ => s) : entered i e s x = s := by
  have h1 : i.scanSlots s x = s := by simp [Instr.scanSlots, he]
  have h2 : i.correct s x = s := by simp [Instr.correct, State.corrected, he]
  simp [entered, h1, h2, hb]

theorem scanSlots_plain (he : s.mem.errs = []) : i.scanSlots s x = s := by simp [Instr.scanSlots, he]

theorem entryA_before (i : Instr) : (entryA i).before = fun s _ => s := by unfold entryA; split <;> rfl

/-! ### What an issue does around the effect -/

/-- The strand that has issued. -/
def issuedStrand (s : State) (x : Ctx) (d : Done) (st : Strand) : Strand :=
  let st := if d.counts then st.tokUp x.fr.lanes x.ctl.sett.toNat else st
  let st := st.move x.fr d.gone d.pcOf (some (s.cycle + max x.ctl.stall.toNat 1)) d.nap d.hold
  { st with issued := st.issued + 1, last := s.cycle, fetched := st.fetched.filter fun w => w.1 != x.fr.pc }

/-- The block of which a strand has issued. -/
def issuedBlock (s : State) (x : Ctx) (d : Done) (b : Block) : Block :=
  { b.updStrand x.sid (issuedStrand s x d) with instrs := b.instrs + 1, mode := b.mode.fire }

/-- The block that issued reads as its effect left it, with its strand moved on. -/
theorem commit_block_self (d : Done) {b : Block} (hb : d.st.block x.blk.uid = some b) :
    (s.commit x d).block x.blk.uid = some (issuedBlock s x d b) := by
  let F : Block → Block := fun b => { b.updStrand x.sid (issuedStrand s x d) with instrs := b.instrs + 1 }
  let M : Block → Block := fun b => { b with mode := b.mode.fire }
  have h1 : (d.st.updBlock x.blk.uid F).block x.blk.uid = some (F b) := State.block_updBlock_self _ F hb fun _ => rfl
  have h2 := State.block_updBlock_self ((d.st.updBlock x.blk.uid F).setCore x.blk.core
    { (d.st.updBlock x.blk.uid F).core x.blk.core with
      lastIssue := ((d.st.updBlock x.blk.uid F).core x.blk.core).lastIssue.put x.blk.quad (d.st.updBlock x.blk.uid F).cycle })
    M (b := F b) h1 fun _ => rfl
  exact h2

/-- Every other block is as the effect left it. -/
theorem commit_block_other (d : Done) {k : Nat} (hk : k ≠ x.blk.uid) : (s.commit x d).block k = d.st.block k := by
  let F : Block → Block := fun b => { b.updStrand x.sid (issuedStrand s x d) with instrs := b.instrs + 1 }
  let M : Block → Block := fun b => { b with mode := b.mode.fire }
  have h1 : (d.st.updBlock x.blk.uid F).block k = d.st.block k := State.block_updBlock_other _ F hk fun _ => rfl
  have h2 := State.block_updBlock_other ((d.st.updBlock x.blk.uid F).setCore x.blk.core
    { (d.st.updBlock x.blk.uid F).core x.blk.core with
      lastIssue := ((d.st.updBlock x.blk.uid F).core x.blk.core).lastIssue.put x.blk.quad (d.st.updBlock x.blk.uid F).cycle })
    M hk fun _ => rfl
  exact h2.trans h1

@[simp] theorem commit_mem (d : Done) : (s.commit x d).mem = d.st.mem := rfl
@[simp] theorem commit_caller (d : Done) : (s.commit x d).caller = d.st.caller := rfl
@[simp] theorem commit_host (d : Done) : (s.commit x d).host = d.st.host := rfl
@[simp] theorem commit_mgmt (d : Done) : (s.commit x d).mgmt = d.st.mgmt := rfl
@[simp] theorem commit_fab (d : Done) : (s.commit x d).fab = d.st.fab := rfl
@[simp] theorem commit_clusters (d : Done) : (s.commit x d).clusters = d.st.clusters := rfl
@[simp] theorem commit_cycle (d : Done) : (s.commit x d).cycle = d.st.cycle := rfl
@[simp] theorem commit_agenda (d : Done) : (s.commit x d).agenda = d.st.agenda := rfl

theorem commit_core_other (d : Done) {k : Nat} (hk : k ≠ x.blk.core) : (s.commit x d).core k = d.st.core k :=
  State.core_setCore_other (s := d.st.updBlock x.blk.uid _) _ hk

/-! ### After the issue: forwarded lines and answered requests -/

/-- Consuming forwarded lines changes the memories alone, and keeps their canonical form. -/
theorem consumeAt_mem (b : Block) (locs : List Loc) :
    ∃ m, s.consumeAt b locs = s.setMem m ∧ (s.mem.wf = true → m.wf = true) := by
  let f : State → Loc → State := fun s l => match l with
    | .phys pa => match s.mem.fwd.find (lineOf pa) with
      | some t => if t.ten = b.ten ∧ t.blk = b.idx then s.setMem (s.mem.consume (lineOf pa)) else s
      | none => s
    | .spad _ _ => s
  have one : ∀ (s : State) (l : Loc), ∃ m, f s l = s.setMem m ∧ (s.mem.wf = true → m.wf = true) := by
    intro s l
    cases l with
    | spad _ _ => exact ⟨s.mem, rfl, id⟩
    | phys pa =>
      simp only [f]
      split
      · split
        · exact ⟨_, rfl, MemSys.wf_consume _⟩
        · exact ⟨s.mem, rfl, id⟩
      · exact ⟨s.mem, rfl, id⟩
  have all : ∀ (locs : List Loc) (s : State), ∃ m, locs.foldl f s = s.setMem m ∧ (s.mem.wf = true → m.wf = true) := by
    intro locs
    induction locs with
    | nil => exact fun s => ⟨s.mem, rfl, id⟩
    | cons l ls ih =>
      intro s
      obtain ⟨m, h1, h2⟩ := one s l
      obtain ⟨m', h3, h4⟩ := ih (f s l)
      refine ⟨m', ?_, fun h => h4 (by rw [h1]; exact h2 h)⟩
      rw [List.foldl_cons, h3, h1]; rfl
  unfold State.consumeAt
  split
  · exact ⟨s.mem, rfl, id⟩
  · exact all locs s

/-- With no forwarded line, nothing is consumed. -/
theorem consumeAt_plain (b : Block) (locs : List Loc) (h : s.mem.fwd = []) : s.consumeAt b locs = s := by
  simp [State.consumeAt, h]

/-- Answered requests leave the operations in flight of the block, and nothing else changes. -/
theorem closeAsks_rest (u : Nat) (as : List Ask) :
    (s.closeAsks u as).mem = s.mem ∧ (s.closeAsks u as).caller = s.caller ∧ (s.closeAsks u as).host = s.host ∧
    (s.closeAsks u as).mgmt = s.mgmt ∧ (s.closeAsks u as).fab = s.fab ∧ (s.closeAsks u as).clusters = s.clusters ∧
    (s.closeAsks u as).cycle = s.cycle ∧ (s.closeAsks u as).agenda = s.agenda ∧ (s.closeAsks u as).cores = s.cores ∧
    (s.closeAsks u as).nextId = s.nextId ∧ (s.closeAsks u as).fresh = s.fresh := by
  unfold State.closeAsks; split <;> exact ⟨rfl, rfl, rfl, rfl, rfl, rfl, rfl, rfl, rfl, rfl, rfl⟩

theorem closeAsks_other {u k : Nat} (as : List Ask) (hk : k ≠ u) : (s.closeAsks u as).block k = s.block k := by
  unfold State.closeAsks; split
  · rfl
  · exact s.block_updBlock_other _ hk fun _ => rfl

/-- What the answers leave of a block: other operations in flight, all else. -/
theorem closeAsks_self {u : Nat} (as : List Ask) {b : Block} (hb : s.block u = some b) :
    ∃ fl, (s.closeAsks u as).block u = some { b with flight := fl } ∧ (∀ o ∈ fl, o ∈ b.flight) ∧
      ∀ o ∈ b.flight, o.isRequest = false → o ∈ fl := by
  unfold State.closeAsks; split
  · exact ⟨b.flight, hb, fun o h => h, fun o h _ => h⟩
  · refine ⟨_, s.block_updBlock_self (fun b => b.answered as) hb fun _ => rfl, fun o h => (List.mem_filter.mp h).1, fun o h hr => ?_⟩
    refine List.mem_filter.mpr ⟨h, ?_⟩
    have : o.kind.ask = none := by simpa [Op.isRequest] using hr
    simp [this]

/-- All that settling an issue changes: the memories, for forwarded lines, and the block's own requests in flight. -/
theorem settle_rest (i : Instr) (s : State) (x : Ctx) (t : State) :
    (i.settle s x t).caller = t.caller ∧ (i.settle s x t).host = t.host ∧ (i.settle s x t).mgmt = t.mgmt ∧
    (i.settle s x t).fab = t.fab ∧ (i.settle s x t).clusters = t.clusters ∧ (i.settle s x t).cycle = t.cycle ∧
    (i.settle s x t).agenda = t.agenda ∧ (i.settle s x t).cores = t.cores ∧
    (∀ k, k ≠ x.blk.uid → (i.settle s x t).block k = t.block k) := by
  obtain ⟨m, hm, -⟩ := consumeAt_mem (s := t) x.blk (i.slotReads s x)
  have h := closeAsks_rest (s := t.consumeAt x.blk (i.slotReads s x)) x.blk.uid (i.farAsks s x)
  have ho : ∀ k, k ≠ x.blk.uid → (i.settle s x t).block k = (t.consumeAt x.blk (i.slotReads s x)).block k :=
    fun k hk => closeAsks_other _ hk
  simp only [Instr.settle] at *
  rw [hm] at h ho ⊢
  obtain ⟨-, h1, h2, h3, h4, h5, h6, h7, h8, -, -⟩ := h
  exact ⟨h1, h2, h3, h4, h5, h6, h7, h8, ho⟩

theorem settle_wf (i : Instr) (s : State) (x : Ctx) {t : State} (h : t.mem.wf = true) : (i.settle s x t).mem.wf = true := by
  obtain ⟨m, hm, hw⟩ := consumeAt_mem (s := t) x.blk (i.slotReads s x)
  have h' := (closeAsks_rest (s := t.consumeAt x.blk (i.slotReads s x)) x.blk.uid (i.farAsks s x)).1
  unfold Instr.settle
  rw [h', hm]; exact hw h

/-- With no forwarded line, settling an issue leaves the memories. -/
theorem settle_mem (i : Instr) (s : State) (x : Ctx) {t : State} (h : t.mem.fwd = []) : (i.settle s x t).mem = t.mem := by
  unfold Instr.settle
  rw [consumeAt_plain _ _ h]; exact (closeAsks_rest _ _).1

/-- What settling an issue leaves of its block. -/
theorem settle_self (i : Instr) (s : State) (x : Ctx) {t : State} {b : Block} (hb : t.block x.blk.uid = some b) :
    ∃ fl, (i.settle s x t).block x.blk.uid = some { b with flight := fl } ∧ (∀ o ∈ fl, o ∈ b.flight) ∧
      ∀ o ∈ b.flight, o.isRequest = false → o ∈ fl := by
  obtain ⟨m, hm, -⟩ := consumeAt_mem (s := t) x.blk (i.slotReads s x)
  refine closeAsks_self _ ?_
  rw [hm]; exact hb

/-! ### Results of fixed latency -/

/-- The block whose strand has a result waiting. -/
def waitingBlock (s : State) (x : Ctx) (lat : Nat) (ws : List PWrite) (fl : Flags) (b : Block) : Block :=
  b.updStrand x.sid fun st =>
    { st with
      pendw := st.pendw ++ [{ id := s.nextId, due := s.cycle + lat, tok := x.ctl.sett, lanes := x.fr.lanes, writes := ws }]
      fmode := fmodeRaise st.fmode fl }

theorem result_block_self (lat : Nat) (ws : List PWrite) (fl : Flags) {b : Block} (hb : s.block x.blk.uid = some b) :
    (s.result x lat ws fl).block x.blk.uid = some (waitingBlock s x lat ws fl b) :=
  s.block_updBlock_self (waitingBlock s x lat ws fl) hb fun _ => rfl

theorem result_block_other (lat : Nat) (ws : List PWrite) (fl : Flags) {k : Nat} (hk : k ≠ x.blk.uid) :
    (s.result x lat ws fl).block k = s.block k :=
  s.block_updBlock_other (waitingBlock s x lat ws fl) hk fun _ => rfl

@[simp] theorem result_mem (lat : Nat) (ws : List PWrite) (fl : Flags) : (s.result x lat ws fl).mem = s.mem := rfl
@[simp] theorem result_caller (lat : Nat) (ws : List PWrite) (fl : Flags) : (s.result x lat ws fl).caller = s.caller := rfl
@[simp] theorem result_cycle (lat : Nat) (ws : List PWrite) (fl : Flags) : (s.result x lat ws fl).cycle = s.cycle := rfl

/-- A waiting result leaves the other strands, and of its own strand all but the waiting results and the flags. -/
theorem waitingBlock_strand (lat : Nat) (ws : List PWrite) (fl : Flags) (b : Block) :
    (∀ k, k ≠ x.sid → (waitingBlock s x lat ws fl b).strand k = b.strand k) ∧
    (x.sid < b.strands.length → (waitingBlock s x lat ws fl b).strand x.sid =
      { b.strand x.sid with
        pendw := (b.strand x.sid).pendw ++
          [{ id := s.nextId, due := s.cycle + lat, tok := x.ctl.sett, lanes := x.fr.lanes, writes := ws }]
        fmode := fmodeRaise (b.strand x.sid).fmode fl }) ∧
    (waitingBlock s x lat ws fl b).strands.length = b.strands.length ∧
    (waitingBlock s x lat ws fl b).inner = b.inner ∧ (waitingBlock s x lat ws fl b).instrs = b.instrs :=
  ⟨fun _ hk => Block.strand_updStrand_other _ hk _, fun h => Block.strand_updStrand_self _ h _, Block.updStrand_length _ _ _, rfl, rfl⟩

/-! ### The instructions of format A -/

theorem fixed_iadd (c : Ctl) (f : AFmt) : ∃ lat g, exec (.iadd c f) = issue (.iadd c f) c Entry.plain (fixedBody lat g) := ⟨_, _, rfl⟩
theorem fixed_isub (c : Ctl) (f : AFmt) : ∃ lat g, exec (.isub c f) = issue (.isub c f) c Entry.plain (fixedBody lat g) := ⟨_, _, rfl⟩
theorem fixed_imul (c : Ctl) (f : AFmt) : ∃ lat g, exec (.imul c f) = issue (.imul c f) c Entry.plain (fixedBody lat g) := ⟨_, _, rfl⟩
theorem fixed_imulh (c : Ctl) (f : AFmt) : ∃ lat g, exec (.imulh c f) = issue (.imulh c f) c Entry.plain (fixedBody lat g) := ⟨_, _, rfl⟩
theorem fixed_imad (c : Ctl) (f : AFmt) : ∃ lat g, exec (.imad c f) = issue (.imad c f) c Entry.plain (fixedBody lat g) := ⟨_, _, rfl⟩
theorem fixed_imin (c : Ctl) (f : AFmt) : ∃ lat g, exec (.imin c f) = issue (.imin c f) c Entry.plain (fixedBody lat g) := ⟨_, _, rfl⟩
theorem fixed_imax (c : Ctl) (f : AFmt) : ∃ lat g, exec (.imax c f) = issue (.imax c f) c Entry.plain (fixedBody lat g) := ⟨_, _, rfl⟩
theorem fixed_land (c : Ctl) (f : AFmt) : ∃ lat g, exec (.land c f) = issue (.land c f) c Entry.plain (fixedBody lat g) := ⟨_, _, rfl⟩
theorem fixed_lor (c : Ctl) (f : AFmt) : ∃ lat g, exec (.lor c f) = issue (.lor c f) c Entry.plain (fixedBody lat g) := ⟨_, _, rfl⟩
theorem fixed_lxor (c : Ctl) (f : AFmt) : ∃ lat g, exec (.lxor c f) = issue (.lxor c f) c Entry.plain (fixedBody lat g) := ⟨_, _, rfl⟩
theorem fixed_shl (c : Ctl) (f : AFmt) : ∃ lat g, exec (.shl c f) = issue (.shl c f) c Entry.plain (fixedBody lat g) := ⟨_, _, rfl⟩
theorem fixed_shr (c : Ctl) (f : AFmt) : ∃ lat g, exec (.shr c f) = issue (.shr c f) c Entry.plain (fixedBody lat g) := ⟨_, _, rfl⟩
theorem fixed_rot (c : Ctl) (f : AFmt) : ∃ lat g, exec (.rot c f) = issue (.rot c f) c Entry.plain (fixedBody lat g) := ⟨_, _, rfl⟩
theorem fixed_bfx (c : Ctl) (f : AFmt) : ∃ lat g, exec (.bfx c f) = issue (.bfx c f) c Entry.plain (fixedBody lat g) := ⟨_, _, rfl⟩
theorem fixed_bfi (c : Ctl) (f : AFmt) : ∃ lat g, exec (.bfi c f) = issue (.bfi c f) c Entry.plain (fixedBody lat g) := ⟨_, _, rfl⟩
theorem fixed_popc (c : Ctl) (f : AFmt) : ∃ lat g, exec (.popc c f) = issue (.popc c f) c Entry.plain (fixedBody lat g) := ⟨_, _, rfl⟩
theorem fixed_clz (c : Ctl) (f : AFmt) : ∃ lat g, exec (.clz c f) = issue (.clz c f) c Entry.plain (fixedBody lat g) := ⟨_, _, rfl⟩
theorem fixed_brev (c : Ctl) (f : AFmt) : ∃ lat g, exec (.brev c f) = issue (.brev c f) c Entry.plain (fixedBody lat g) := ⟨_, _, rfl⟩
theorem fixed_sel (c : Ctl) (f : AFmt) : ∃ lat g, exec (.sel c f) = issue (.sel c f) c Entry.plain (fixedBody lat g) := ⟨_, _, rfl⟩
theorem fixed_icmp (c : Ctl) (f : AFmt) : ∃ lat g, exec (.icmp c f) = issue (.icmp c f) c Entry.plain (fixedBody lat g) := ⟨_, _, rfl⟩
theorem fixed_lea (c : Ctl) (f : AFmt) : ∃ lat g, exec (.lea c f) = issue (.lea c f) c Entry.plain (fixedBody lat g) := ⟨_, _, rfl⟩
theorem fixed_mov (c : Ctl) (f : AFmt) : ∃ lat g, exec (.mov c f) = issue (.mov c f) c Entry.plain (fixedBody lat g) := ⟨_, _, rfl⟩
theorem fixed_movi (c : Ctl) (f : AFmt) : ∃ lat g, exec (.movi c f) = issue (.movi c f) c Entry.plain (fixedBody lat g) := ⟨_, _, rfl⟩
theorem fixed_pand (c : Ctl) (f : AFmt) : ∃ lat g, exec (.pand c f) = issue (.pand c f) c Entry.plain (fixedBody lat g) := ⟨_, _, rfl⟩
theorem fixed_pmov (c : Ctl) (f : AFmt) : ∃ lat g, exec (.pmov c f) = issue (.pmov c f) c Entry.plain (fixedBody lat g) := ⟨_, _, rfl⟩
theorem fixed_fadd (c : Ctl) (f : AFmt) : ∃ lat g, exec (.fadd c f) = issue (.fadd c f) c Entry.plain (fixedBody lat g) := ⟨_, _, rfl⟩
theorem fixed_fmul (c : Ctl) (f : AFmt) : ∃ lat g, exec (.fmul c f) = issue (.fmul c f) c Entry.plain (fixedBody lat g) := ⟨_, _, rfl⟩
theorem fixed_ffma (c : Ctl) (f : AFmt) : ∃ lat g, exec (.ffma c f) = issue (.ffma c f) c Entry.plain (fixedBody lat g) := ⟨_, _, rfl⟩
theorem fixed_fmin (c : Ctl) (f : AFmt) : ∃ lat g, exec (.fmin c f) = issue (.fmin c f) c Entry.plain (fixedBody lat g) := ⟨_, _, rfl⟩
theorem fixed_fmax (c : Ctl) (f : AFmt) : ∃ lat g, exec (.fmax c f) = issue (.fmax c f) c Entry.plain (fixedBody lat g) := ⟨_, _, rfl⟩
theorem fixed_fcmp (c : Ctl) (f : AFmt) : ∃ lat g, exec (.fcmp c f) = issue (.fcmp c f) c Entry.plain (fixedBody lat g) := ⟨_, _, rfl⟩
theorem fixed_fclass (c : Ctl) (f : AFmt) : ∃ lat g, exec (.fclass c f) = issue (.fclass c f) c Entry.plain (fixedBody lat g) := ⟨_, _, rfl⟩
theorem fixed_frcp (c : Ctl) (f : AFmt) : ∃ lat g, exec (.frcp c f) = issue (.frcp c f) c Entry.plain (fixedBody lat g) := ⟨_, _, rfl⟩
theorem fixed_frsq (c : Ctl) (f : AFmt) : ∃ lat g, exec (.frsq c f) = issue (.frsq c f) c Entry.plain (fixedBody lat g) := ⟨_, _, rfl⟩
theorem fixed_fsqrt (c : Ctl) (f : AFmt) : ∃ lat g, exec (.fsqrt c f) = issue (.fsqrt c f) c Entry.plain (fixedBody lat g) := ⟨_, _, rfl⟩
theorem fixed_fexp2 (c : Ctl) (f : AFmt) : ∃ lat g, exec (.fexp2 c f) = issue (.fexp2 c f) c Entry.plain (fixedBody lat g) := ⟨_, _, rfl⟩
theorem fixed_flog2 (c : Ctl) (f : AFmt) : ∃ lat g, exec (.flog2 c f) = issue (.flog2 c f) c Entry.plain (fixedBody lat g) := ⟨_, _, rfl⟩
theorem fixed_fsin (c : Ctl) (f : AFmt) : ∃ lat g, exec (.fsin c f) = issue (.fsin c f) c Entry.plain (fixedBody lat g) := ⟨_, _, rfl⟩
theorem fixed_fcos (c : Ctl) (f : AFmt) : ∃ lat g, exec (.fcos c f) = issue (.fcos c f) c Entry.plain (fixedBody lat g) := ⟨_, _, rfl⟩
theorem fixed_ftanh (c : Ctl) (f : AFmt) : ∃ lat g, exec (.ftanh c f) = issue (.ftanh c f) c Entry.plain (fixedBody lat g) := ⟨_, _, rfl⟩
theorem fixed_frnd (c : Ctl) (f : AFmt) : ∃ lat g, exec (.frnd c f) = issue (.frnd c f) c Entry.plain (fixedBody lat g) := ⟨_, _, rfl⟩
theorem fixed_fscale (c : Ctl) (f : AFmt) : ∃ lat g, exec (.fscale c f) = issue (.fscale c f) c Entry.plain (fixedBody lat g) := ⟨_, _, rfl⟩
theorem fixed_fdot2 (c : Ctl) (f : AFmt) : ∃ lat g, exec (.fdot2 c f) = issue (.fdot2 c f) c Entry.plain (fixedBody lat g) := ⟨_, _, rfl⟩
theorem fixed_cvt (c : Ctl) (f : AFmt) : ∃ lat g, exec (.cvt c f) = issue (.cvt c f) c Entry.plain (fixedBody lat g) := ⟨_, _, rfl⟩
theorem fixed_qsx (c : Ctl) (f : AFmt) : ∃ lat g, exec (.qsx c f) = issue (.qsx c f) c Entry.groups (fixedBody lat g) := ⟨_, _, rfl⟩
theorem fixed_qscale (c : Ctl) (f : AFmt) : ∃ lat g, exec (.qscale c f) = issue (.qscale c f) c Entry.groups (fixedBody lat g) := ⟨_, _, rfl⟩
theorem fixed_dqsx (c : Ctl) (f : AFmt) : ∃ lat g, exec (.dqsx c f) = issue (.dqsx c f) c Entry.plain (fixedBody lat g) := ⟨_, _, rfl⟩
theorem fixed_pack (c : Ctl) (f : AFmt) : ∃ lat g, exec (.pack c f) = issue (.pack c f) c Entry.plain (fixedBody lat g) := ⟨_, _, rfl⟩
theorem fixed_unpack (c : Ctl) (f : AFmt) : ∃ lat g, exec (.unpack c f) = issue (.unpack c f) c Entry.plain (fixedBody lat g) := ⟨_, _, rfl⟩
theorem fixed_shfl (c : Ctl) (f : AFmt) : ∃ lat g, exec (.shfl c f) = issue (.shfl c f) c Entry.plain (fixedBody lat g) := ⟨_, _, rfl⟩
theorem fixed_matchAny (c : Ctl) (f : AFmt) : ∃ lat g, exec (.matchAny c f) = issue (.matchAny c f) c Entry.plain (fixedBody lat g) := ⟨_, _, rfl⟩
theorem fixed_vote (c : Ctl) (f : AFmt) : ∃ lat g, exec (.vote c f) = issue (.vote c f) c Entry.plain (fixedBody lat g) := ⟨_, _, rfl⟩
theorem fixed_redux (c : Ctl) (f : AFmt) : ∃ lat g, exec (.redux c f) = issue (.redux c f) c Entry.plain (fixedBody lat g) := ⟨_, _, rfl⟩
theorem fixed_scan (c : Ctl) (f : AFmt) : ∃ lat g, exec (.scan c f) = issue (.scan c f) c Entry.plain (fixedBody lat g) := ⟨_, _, rfl⟩
theorem fixed_bcast (c : Ctl) (f : AFmt) : ∃ lat g, exec (.bcast c f) = issue (.bcast c f) c Entry.plain (fixedBody lat g) := ⟨_, _, rfl⟩

/-- Every instruction of format A is of fixed latency. -/
theorem exec_formatA (hf : formatA i = true) (hc : i.ctl = some c) :
    ∃ lat g, exec i = issue i c (entryA i) (fixedBody lat g) := by
  cases i <;> simp only [Instr.ctl, Option.some.injEq, reduceCtorEq] at hc <;> subst hc <;>
    first | (exfalso; simp [formatA, Instr.opc] at hf; done) | skip
  · exact fixed_iadd _ _
  · exact fixed_isub _ _
  · exact fixed_imul _ _
  · exact fixed_imulh _ _
  · exact fixed_imad _ _
  · exact fixed_imin _ _
  · exact fixed_imax _ _
  · exact fixed_land _ _
  · exact fixed_lor _ _
  · exact fixed_lxor _ _
  · exact fixed_shl _ _
  · exact fixed_shr _ _
  · exact fixed_rot _ _
  · exact fixed_bfx _ _
  · exact fixed_bfi _ _
  · exact fixed_popc _ _
  · exact fixed_clz _ _
  · exact fixed_brev _ _
  · exact fixed_sel _ _
  · exact fixed_icmp _ _
  · exact fixed_lea _ _
  · exact fixed_mov _ _
  · exact fixed_movi _ _
  · exact fixed_pand _ _
  · exact fixed_pmov _ _
  · exact fixed_fadd _ _
  · exact fixed_fmul _ _
  · exact fixed_ffma _ _
  · exact fixed_fmin _ _
  · exact fixed_fmax _ _
  · exact fixed_fcmp _ _
  · exact fixed_fclass _ _
  · exact fixed_frcp _ _
  · exact fixed_frsq _ _
  · exact fixed_fsqrt _ _
  · exact fixed_fexp2 _ _
  · exact fixed_flog2 _ _
  · exact fixed_fsin _ _
  · exact fixed_fcos _ _
  · exact fixed_ftanh _ _
  · exact fixed_frnd _ _
  · exact fixed_fscale _ _
  · exact fixed_fdot2 _ _
  · exact fixed_cvt _ _
  · exact fixed_qsx _ _
  · exact fixed_qscale _ _
  · exact fixed_dqsx _ _
  · exact fixed_pack _ _
  · exact fixed_unpack _ _
  · exact fixed_shfl _ _
  · exact fixed_matchAny _ _
  · exact fixed_vote _ _
  · exact fixed_redux _ _
  · exact fixed_scan _ _
  · exact fixed_bcast _ _

end Sys2Proof.Machine
end

