-- ==== Sys2Proof/Laws/PerInstr.lean ====
section
/-!
SUPPORT. One statement about every instruction as syntax: a program instruction has a word and its top byte is its opcode; a
device step has none.
-/
namespace Sys2Proof.Laws.Opcode

/-- The word of an instruction, if it has one, carries its opcode in bits 127:120 (R54). -/
def Statement (i : Instr) : Prop :=
  match i.ctl, encode i with
  | some _, some w => w.extractLsb' 120 8 = i.opc
  | some _, none => False
  | none, some w => i = .laterLevelOpcode w
  | none, none => True

theorem append_high {k n m : Nat} (a : BitVec k) (b : BitVec n) (i j : Nat) (h : i = n + j) (hm : m = k + n) :
    ((a ++ b).cast hm.symm : BitVec m).getLsbD i = a.getLsbD j := by
  subst h; subst hm; simp [BitVec.getLsbD_append]

theorem assemble_opc (opc : BitVec 8) (c : Ctl) (x : BitVec 16) (o : Ops) :
    (assemble opc c x o).extractLsb' 120 8 = opc := by
  refine BitVec.eq_of_getLsbD_eq fun i hi => ?_
  rw [BitVec.getLsbD_extractLsb']
  simp only [hi, decide_true, Bool.true_and]
  refine (append_high _ _ _ (88 + i) (by omega) rfl).trans ?_
  refine (append_high _ _ _ (72 + i) (by omega) rfl).trans ?_
  refine (append_high _ _ _ (60 + i) (by omega) rfl).trans ?_
  refine (append_high _ _ _ (48 + i) (by omega) rfl).trans ?_
  refine (append_high _ _ _ (36 + i) (by omega) rfl).trans ?_
  refine (append_high _ _ _ (24 + i) (by omega) rfl).trans ?_
  exact append_high _ _ _ i (by omega) rfl

theorem nop (c : Ctl) (f : CFmt) : Statement (.nop c f) := assemble_opc ..
theorem bra (c : Ctl) (f : CFmt) : Statement (.bra c f) := assemble_opc ..
theorem brxa (c : Ctl) (f : CFmt) : Statement (.brxa c f) := assemble_opc ..
theorem brx (c : Ctl) (f : CFmt) : Statement (.brx c f) := assemble_opc ..
theorem call (c : Ctl) (f : CFmt) : Statement (.call c f) := assemble_opc ..
theorem ret (c : Ctl) (f : CFmt) : Statement (.ret c f) := assemble_opc ..
theorem exit (c : Ctl) (f : CFmt) : Statement (.exit c f) := assemble_opc ..
theorem trap (c : Ctl) (f : CFmt) : Statement (.trap c f) := assemble_opc ..
theorem bkpt (c : Ctl) (f : CFmt) : Statement (.bkpt c f) := assemble_opc ..
theorem tret (c : Ctl) (f : CFmt) : Statement (.tret c f) := assemble_opc ..
theorem nap (c : Ctl) (f : CFmt) : Statement (.nap c f) := assemble_opc ..
theorem srd (c : Ctl) (f : CFmt) : Statement (.srd c f) := assemble_opc ..
theorem swr (c : Ctl) (f : CFmt) : Statement (.swr c f) := assemble_opc ..
theorem spawn (c : Ctl) (f : CFmt) : Statement (.spawn c f) := assemble_opc ..
theorem trace (c : Ctl) (f : CFmt) : Statement (.trace c f) := assemble_opc ..
theorem iadd (c : Ctl) (f : AFmt) : Statement (.iadd c f) := assemble_opc ..
theorem isub (c : Ctl) (f : AFmt) : Statement (.isub c f) := assemble_opc ..
theorem imul (c : Ctl) (f : AFmt) : Statement (.imul c f) := assemble_opc ..
theorem imulh (c : Ctl) (f : AFmt) : Statement (.imulh c f) := assemble_opc ..
theorem imad (c : Ctl) (f : AFmt) : Statement (.imad c f) := assemble_opc ..
theorem imin (c : Ctl) (f : AFmt) : Statement (.imin c f) := assemble_opc ..
theorem imax (c : Ctl) (f : AFmt) : Statement (.imax c f) := assemble_opc ..
theorem land (c : Ctl) (f : AFmt) : Statement (.land c f) := assemble_opc ..
theorem lor (c : Ctl) (f : AFmt) : Statement (.lor c f) := assemble_opc ..
theorem lxor (c : Ctl) (f : AFmt) : Statement (.lxor c f) := assemble_opc ..
theorem shl (c : Ctl) (f : AFmt) : Statement (.shl c f) := assemble_opc ..
theorem shr (c : Ctl) (f : AFmt) : Statement (.shr c f) := assemble_opc ..
theorem rot (c : Ctl) (f : AFmt) : Statement (.rot c f) := assemble_opc ..
theorem bfx (c : Ctl) (f : AFmt) : Statement (.bfx c f) := assemble_opc ..
theorem bfi (c : Ctl) (f : AFmt) : Statement (.bfi c f) := assemble_opc ..
theorem popc (c : Ctl) (f : AFmt) : Statement (.popc c f) := assemble_opc ..
theorem clz (c : Ctl) (f : AFmt) : Statement (.clz c f) := assemble_opc ..
theorem brev (c : Ctl) (f : AFmt) : Statement (.brev c f) := assemble_opc ..
theorem sel (c : Ctl) (f : AFmt) : Statement (.sel c f) := assemble_opc ..
theorem icmp (c : Ctl) (f : AFmt) : Statement (.icmp c f) := assemble_opc ..
theorem lea (c : Ctl) (f : AFmt) : Statement (.lea c f) := assemble_opc ..
theorem mov (c : Ctl) (f : AFmt) : Statement (.mov c f) := assemble_opc ..
theorem movi (c : Ctl) (f : AFmt) : Statement (.movi c f) := assemble_opc ..
theorem pand (c : Ctl) (f : AFmt) : Statement (.pand c f) := assemble_opc ..
theorem pmov (c : Ctl) (f : AFmt) : Statement (.pmov c f) := assemble_opc ..
theorem fadd (c : Ctl) (f : AFmt) : Statement (.fadd c f) := assemble_opc ..
theorem fmul (c : Ctl) (f : AFmt) : Statement (.fmul c f) := assemble_opc ..
theorem ffma (c : Ctl) (f : AFmt) : Statement (.ffma c f) := assemble_opc ..
theorem fmin (c : Ctl) (f : AFmt) : Statement (.fmin c f) := assemble_opc ..
theorem fmax (c : Ctl) (f : AFmt) : Statement (.fmax c f) := assemble_opc ..
theorem fcmp (c : Ctl) (f : AFmt) : Statement (.fcmp c f) := assemble_opc ..
theorem fclass (c : Ctl) (f : AFmt) : Statement (.fclass c f) := assemble_opc ..
theorem frcp (c : Ctl) (f : AFmt) : Statement (.frcp c f) := assemble_opc ..
theorem frsq (c : Ctl) (f : AFmt) : Statement (.frsq c f) := assemble_opc ..
theorem fsqrt (c : Ctl) (f : AFmt) : Statement (.fsqrt c f) := assemble_opc ..
theorem fexp2 (c : Ctl) (f : AFmt) : Statement (.fexp2 c f) := assemble_opc ..
theorem flog2 (c : Ctl) (f : AFmt) : Statement (.flog2 c f) := assemble_opc ..
theorem fsin (c : Ctl) (f : AFmt) : Statement (.fsin c f) := assemble_opc ..
theorem fcos (c : Ctl) (f : AFmt) : Statement (.fcos c f) := assemble_opc ..
theorem ftanh (c : Ctl) (f : AFmt) : Statement (.ftanh c f) := assemble_opc ..
theorem frnd (c : Ctl) (f : AFmt) : Statement (.frnd c f) := assemble_opc ..
theorem fscale (c : Ctl) (f : AFmt) : Statement (.fscale c f) := assemble_opc ..
theorem fdot2 (c : Ctl) (f : AFmt) : Statement (.fdot2 c f) := assemble_opc ..
theorem cvt (c : Ctl) (f : AFmt) : Statement (.cvt c f) := assemble_opc ..
theorem qsx (c : Ctl) (f : AFmt) : Statement (.qsx c f) := assemble_opc ..
theorem qscale (c : Ctl) (f : AFmt) : Statement (.qscale c f) := assemble_opc ..
theorem dqsx (c : Ctl) (f : AFmt) : Statement (.dqsx c f) := assemble_opc ..
theorem pack (c : Ctl) (f : AFmt) : Statement (.pack c f) := assemble_opc ..
theorem unpack (c : Ctl) (f : AFmt) : Statement (.unpack c f) := assemble_opc ..
theorem shfl (c : Ctl) (f : AFmt) : Statement (.shfl c f) := assemble_opc ..
theorem matchAny (c : Ctl) (f : AFmt) : Statement (.matchAny c f) := assemble_opc ..
theorem vote (c : Ctl) (f : AFmt) : Statement (.vote c f) := assemble_opc ..
theorem redux (c : Ctl) (f : AFmt) : Statement (.redux c f) := assemble_opc ..
theorem scan (c : Ctl) (f : AFmt) : Statement (.scan c f) := assemble_opc ..
theorem bcast (c : Ctl) (f : AFmt) : Statement (.bcast c f) := assemble_opc ..
theorem lda (c : Ctl) (f : MaFmt) : Statement (.lda c f) := assemble_opc ..
theorem sta (c : Ctl) (f : MaFmt) : Statement (.sta c f) := assemble_opc ..
theorem ldg (c : Ctl) (f : MaFmt) : Statement (.ldg c f) := assemble_opc ..
theorem stg (c : Ctl) (f : MaFmt) : Statement (.stg c f) := assemble_opc ..
theorem lds (c : Ctl) (f : MaFmt) : Statement (.lds c f) := assemble_opc ..
theorem sts (c : Ctl) (f : MaFmt) : Statement (.sts c f) := assemble_opc ..
theorem ldp (c : Ctl) (f : MaFmt) : Statement (.ldp c f) := assemble_opc ..
theorem stp (c : Ctl) (f : MaFmt) : Statement (.stp c f) := assemble_opc ..
theorem ldk (c : Ctl) (f : MaFmt) : Statement (.ldk c f) := assemble_opc ..
theorem ldb (c : Ctl) (f : MaFmt) : Statement (.ldb c f) := assemble_opc ..
theorem pref (c : Ctl) (f : McFmt) : Statement (.pref c f) := assemble_opc ..
theorem cpa (c : Ctl) (f : McFmt) : Statement (.cpa c f) := assemble_opc ..
theorem cpt (c : Ctl) (f : McFmt) : Statement (.cpt c f) := assemble_opc ..
theorem fetchb (c : Ctl) (f : McFmt) : Statement (.fetchb c f) := assemble_opc ..
theorem codeinv (c : Ctl) (f : McFmt) : Statement (.codeinv c f) := assemble_opc ..
theorem siteclr (c : Ctl) (f : McFmt) : Statement (.siteclr c f) := assemble_opc ..
theorem siteclrPin (c : Ctl) (f : McFmt) : Statement (.siteclrPin c f) := assemble_opc ..
theorem atoma (c : Ctl) (f : MbFmt) : Statement (.atoma c f) := assemble_opc ..
theorem reda (c : Ctl) (f : MbFmt) : Statement (.reda c f) := assemble_opc ..
theorem atomg (c : Ctl) (f : MbFmt) : Statement (.atomg c f) := assemble_opc ..
theorem atoms (c : Ctl) (f : MbFmt) : Statement (.atoms c f) := assemble_opc ..
theorem redg (c : Ctl) (f : MbFmt) : Statement (.redg c f) := assemble_opc ..
theorem reds (c : Ctl) (f : MbFmt) : Statement (.reds c f) := assemble_opc ..
theorem cvset (c : Ctl) (f : SFmt) : Statement (.cvset c f) := assemble_opc ..
theorem barinit (c : Ctl) (f : SFmt) : Statement (.barinit c f) := assemble_opc ..
theorem barexpect (c : Ctl) (f : SFmt) : Statement (.barexpect c f) := assemble_opc ..
theorem bararrive (c : Ctl) (f : SFmt) : Statement (.bararrive c f) := assemble_opc ..
theorem barwait (c : Ctl) (f : SFmt) : Statement (.barwait c f) := assemble_opc ..
theorem bartry (c : Ctl) (f : SFmt) : Statement (.bartry c f) := assemble_opc ..
theorem stginit (c : Ctl) (f : SFmt) : Statement (.stginit c f) := assemble_opc ..
theorem stgwait (c : Ctl) (f : SFmt) : Statement (.stgwait c f) := assemble_opc ..
theorem stgarrive (c : Ctl) (f : SFmt) : Statement (.stgarrive c f) := assemble_opc ..
theorem fence (c : Ctl) (f : SFmt) : Statement (.fence c f) := assemble_opc ..
theorem ctxst (c : Ctl) (f : SFmt) : Statement (.ctxst c f) := assemble_opc ..
theorem ctxld (c : Ctl) (f : SFmt) : Statement (.ctxld c f) := assemble_opc ..
theorem svdone (c : Ctl) (f : SFmt) : Statement (.svdone c f) := assemble_opc ..
theorem fenter (c : Ctl) (f : SFmt) : Statement (.fenter c f) := assemble_opc ..
theorem fleave (c : Ctl) (f : SFmt) : Statement (.fleave c f) := assemble_opc ..
theorem bfenter (c : Ctl) (f : SFmt) : Statement (.bfenter c f) := assemble_opc ..
theorem bfleave (c : Ctl) (f : SFmt) : Statement (.bfleave c f) := assemble_opc ..
theorem cfenter (c : Ctl) (f : SFmt) : Statement (.cfenter c f) := assemble_opc ..
theorem cfleave (c : Ctl) (f : SFmt) : Statement (.cfleave c f) := assemble_opc ..
theorem fsync (c : Ctl) (f : SFmt) : Statement (.fsync c f) := assemble_opc ..
theorem fatom (c : Ctl) (f : SFmt) : Statement (.fatom c f) := assemble_opc ..
theorem dspr (c : Ctl) (f : SFmt) : Statement (.dspr c f) := assemble_opc ..
theorem dspw (c : Ctl) (f : SFmt) : Statement (.dspw c f) := assemble_opc ..
theorem mzero (c : Ctl) (f : TFmt) : Statement (.mzero c f) := assemble_opc ..
theorem ldstat (c : Ctl) (f : TFmt) : Statement (.ldstat c f) := assemble_opc ..
theorem pswap (c : Ctl) (f : TFmt) : Statement (.pswap c f) := assemble_opc ..
theorem mstream (c : Ctl) (f : TFmt) : Statement (.mstream c f) := assemble_opc ..
theorem accld (c : Ctl) (f : TFmt) : Statement (.accld c f) := assemble_opc ..
theorem accst (c : Ctl) (f : TFmt) : Statement (.accst c f) := assemble_opc ..
theorem accchk (c : Ctl) (f : TFmt) : Statement (.accchk c f) := assemble_opc ..
theorem accmov (c : Ctl) (f : TFmt) : Statement (.accmov c f) := assemble_opc ..
theorem accplane (c : Ctl) (f : TFmt) : Statement (.accplane c f) := assemble_opc ..
theorem miter (c : Ctl) (f : TFmt) : Statement (.miter c f) := assemble_opc ..
theorem kld (c : Ctl) (f : TFmt) : Statement (.kld c f) := assemble_opc ..
theorem kmov (c : Ctl) (f : TFmt) : Statement (.kmov c f) := assemble_opc ..
theorem illegalWord (w : InstrWord) : Statement (.illegalWord w) := trivial
theorem laterLevelOpcode (w : InstrWord) : Statement (.laterLevelOpcode w) := rfl
theorem instructionFetch (f : FragRef) : Statement (.instructionFetch f) := trivial
theorem pendingTrapDelivery (f : FragRef) : Statement (.pendingTrapDelivery f) := trivial
theorem resultWriteback (blk strand id : Nat) : Statement (.resultWriteback blk strand id) := trivial
theorem stallExpiry (f : FragRef) : Statement (.stallExpiry f) := trivial
theorem napExpiry (f : FragRef) : Statement (.napExpiry f) := trivial
theorem siteResolve (core id : Nat) : Statement (.siteResolve core id) := trivial
theorem loadDataReturn (blk op : Nat) : Statement (.loadDataReturn blk op) := trivial
theorem storePerformed (blk op : Nat) : Statement (.storePerformed blk op) := trivial
theorem atomicHomeStep (blk op : Nat) : Statement (.atomicHomeStep blk op) := trivial
theorem copyGranule (blk op : Nat) : Statement (.copyGranule blk op) := trivial
theorem barwaitRelease (f : FragRef) : Statement (.barwaitRelease f) := trivial
theorem stgwaitRelease (f : FragRef) : Statement (.stgwaitRelease f) := trivial
theorem fenceComplete (f : FragRef) : Statement (.fenceComplete f) := trivial
theorem engineOpComplete (blk : Nat) : Statement (.engineOpComplete blk) := trivial
theorem miterIteration (blk : Nat) : Statement (.miterIteration blk) := trivial
theorem blockEnd (blk : Nat) : Statement (.blockEnd blk) := trivial
theorem fatalTrap (blk : Nat) : Statement (.fatalTrap blk) := trivial
theorem csReset : Statement .csReset := trivial
theorem csDoorbell (ten queue : Nat) : Statement (.csDoorbell ten queue) := trivial
theorem csSpawn (blk op : Nat) : Statement (.csSpawn blk op) := trivial
theorem csBlkend (core quad slot : Nat) : Statement (.csBlkend core quad slot) := trivial
theorem csLost (core quad slot : Nat) : Statement (.csLost core quad slot) := trivial
theorem csSaved (core quad slot kind : Nat) : Statement (.csSaved core quad slot kind) := trivial
theorem csEmul (f : FragRef) (e : EmulEffect) : Statement (.csEmul f e) := trivial
theorem csSitout (core : Nat) : Statement (.csSitout core) := trivial
theorem csTick (ten : Nat) : Statement (.csTick ten) := trivial
theorem placementDecision : Statement .placementDecision := trivial
theorem stopDecision (blk reason : Nat) : Statement (.stopDecision blk reason) := trivial
theorem drainTimeout (blk : Nat) : Statement (.drainTimeout blk) := trivial
theorem saveBudgetExpiry (blk : Nat) : Statement (.saveBudgetExpiry blk) := trivial
theorem forcedSave (blk : Nat) : Statement (.forcedSave blk) := trivial
theorem restore (saved core quad : Nat) : Statement (.restore saved core quad) := trivial
theorem queuePortWrite (fn port : Nat) (pasid : Option Nat) (dmwr : Bool) (data : List Byte) : Statement (.queuePortWrite fn port pasid dmwr data) := trivial
theorem callSheetLoad (image : SheetImage) : Statement (.callSheetLoad image) := trivial
theorem qsync (word : W64) : Statement (.qsync word) := trivial
theorem vfstop (word : W64) : Statement (.vfstop word) := trivial
theorem vfresume (word : W64) : Statement (.vfresume word) := trivial
theorem attestationRequest (word : W64) : Statement (.attestationRequest word) := trivial
theorem attestationSigned : Statement .attestationSigned := trivial
theorem stop (word : W64) : Statement (.stop word) := trivial
theorem step (word : W64) : Statement (.step word) := trivial
theorem resume (word : W64) : Statement (.resume word) := trivial
theorem kill (word : W64) : Statement (.kill word) := trivial
theorem setout (word : W64) : Statement (.setout word) := trivial
theorem readmit (word : W64) : Statement (.readmit word) := trivial
theorem retire (word : W64) : Statement (.retire word) := trivial
theorem logringWrite (v : W64) : Statement (.logringWrite v) := trivial
theorem calctlLoad : Statement .calctlLoad := trivial
theorem calendarCommit : Statement .calendarCommit := trivial
theorem qtctlLoad : Statement .qtctlLoad := trivial
theorem invTenant (fn : Nat) : Statement (.invTenant fn) := trivial
theorem invPasid (fn : Nat) : Statement (.invPasid fn) := trivial
theorem invPasidRange (fn : Nat) : Statement (.invPasidRange fn) := trivial
theorem invStage2Range (fn : Nat) : Statement (.invStage2Range fn) := trivial
theorem invTables (fn : Nat) : Statement (.invTables fn) := trivial
theorem invalidationDone (fn : Nat) : Statement (.invalidationDone fn) := trivial
theorem scrubOrder (stack : Nat) : Statement (.scrubOrder stack) := trivial
theorem scrubStep (stack region port : Nat) : Statement (.scrubStep stack region port) := trivial
theorem spownWrite (core : Nat) (v : W64) : Statement (.spownWrite core v) := trivial
theorem bankZeroDone (core bank : Nat) : Statement (.bankZeroDone core bank) := trivial
theorem powctlWrite (v : W64) : Statement (.powctlWrite v) := trivial
theorem registerWrite (fn offset width : Nat) (v : W64) : Statement (.registerWrite fn offset width v) := trivial
theorem powerSample (pnow throt : Nat) : Statement (.powerSample pnow throt) := trivial
theorem sensorUpdate (core : Nat) (temp droop : BitVec 16) (alarm : Bool) : Statement (.sensorUpdate core temp droop alarm) := trivial
theorem wearUpdate (i : Nat) (stress remain : W32) : Statement (.wearUpdate i stress remain) := trivial
theorem tokenRefill : Statement .tokenRefill := trivial
theorem tlbWalk (core quad ten pasid : Nat) (va : W64) (acc : Access) : Statement (.tlbWalk core quad ten pasid va acc) := trivial
theorem dirtyLogPoll (ten : Nat) : Statement (.dirtyLogPoll ten) := trivial
theorem flitInject (core : Nat) (cls : FlitClass) (blk op : Nat) : Statement (.flitInject core cls blk op) := trivial
theorem flitReplay (blk op : Nat) (again : Bool) : Statement (.flitReplay blk op again) := trivial
theorem requestAccept (slice : Nat) : Statement (.requestAccept slice) := trivial
theorem ownershipGrant (quad line : Nat) : Statement (.ownershipGrant quad line) := trivial
theorem recallLine (line : Nat) : Statement (.recallLine line) := trivial
theorem mergingFill (quad line : Nat) : Statement (.mergingFill quad line) := trivial
theorem l1Writeback (quad line : Nat) : Statement (.l1Writeback quad line) := trivial
theorem tileUpdateLock (blk : Nat) : Statement (.tileUpdateLock blk) := trivial
theorem tileUpdateApply (blk : Nat) : Statement (.tileUpdateApply blk) := trivial
theorem beatSend (core : Nat) : Statement (.beatSend core) := trivial
theorem beatReceive (core dir : Nat) (beat : W64) : Statement (.beatReceive core dir beat) := trivial
theorem windowEnd (core dir : Nat) : Statement (.windowEnd core dir) := trivial
theorem suspicionExpiry (core dir : Nat) : Statement (.suspicionExpiry core dir) := trivial
theorem sitOutNotice (slice core : Nat) : Statement (.sitOutNotice slice core) := trivial
theorem satOutNack (kind : NackKind) (line core : Nat) : Statement (.satOutNack kind line core) := trivial
theorem selftestDone (core : Nat) (pass : Bool) : Statement (.selftestDone core pass) := trivial
theorem hostMemRequest (pa : Nat) (req : MemReq) : Statement (.hostMemRequest pa req) := trivial
theorem hostSnoop (pa : Nat) (kind : SnoopKind) (data : List Byte) : Statement (.hostSnoop pa kind data) := trivial
theorem peerRequest (peer pa : Nat) (req : MemReq) : Statement (.peerRequest peer pa req) := trivial
theorem deviceReset : Statement .deviceReset := trivial
theorem vfFlr (vf : Nat) : Statement (.vfFlr vf) := trivial
theorem powerLoss : Statement .powerLoss := trivial
theorem softError (loc : ErrLoc) (correctable : Bool) : Statement (.softError loc correctable) := trivial
theorem coreStopped (core : Nat) (how : CoreFailure) : Statement (.coreStopped core how) := trivial
theorem hostLinkDown (link : Nat) : Statement (.hostLinkDown link) := trivial
theorem hostLinkUp (link : Nat) : Statement (.hostLinkUp link) := trivial
theorem linkRetrainComplete (dieA dieB : Nat) : Statement (.linkRetrainComplete dieA dieB) := trivial
theorem bankUpdateDone (blk op : Nat) : Statement (.bankUpdateDone blk op) := trivial
theorem codeinvDone (blk op : Nat) : Statement (.codeinvDone blk op) := trivial
theorem siteclrWordHandled (blk op : Nat) : Statement (.siteclrWordHandled blk op) := trivial
theorem prefDone (blk op : Nat) : Statement (.prefDone blk op) := trivial
theorem traceRecordDone (blk op : Nat) : Statement (.traceRecordDone blk op) := trivial

end Sys2Proof.Laws.Opcode
end

