-- ==== Sys2Proof/Tests/Slice0.lean ====
section
/-!
SUPPORT. Small tests: ill-formed instructions are refused, words written out from the spec's encodings decode, one step gives
the results that the spec's tables give, and for every statement with hypotheses a concrete state meets them together.
-/
-- one proof after the other, so that few wait for the kernel at a time
set_option Elab.async false

namespace Sys2Proof.Tests
open Sys2Proof Machine

/-! ### Small terms and states -/

def plain : Ctl := { stall := 0, guard := 7, wait := 0, sett := 0, yld := false, q := false, pin := false, flips := 0 }
def v (n : BitVec 8) : Operand := .vec n
def u (n : BitVec 6) : Operand := .uni n
def im (n : BitVec 9) : Operand := .imm n
def no : Operand := .vec 0
def ops (d a b c : Operand) (imm : W32) : Ops := { d := d, a := a, b := b, c := c, imm := imm }
def cf (sub : BitVec 4) (depth : BitVec 3) (sel : BitVec 9) (o : Ops) : CFmt :=
  { sub := sub, depth := depth, sel := sel, ops := o }
def af (sub : BitVec 4) (ty sty : Ty) (modv : Bool) (o : Ops) : AFmt :=
  { sub := sub, ty := ty, sty := sty, modv := modv, ops := o }
def ma (space : BitVec 3) (fmt : Fmt) (o : Ops) : MaFmt :=
  { space := space, zx := false, fmt := fmt, order := .rlx, scope := .thr, fwd := false, ops := o }
def mb (sub : BitVec 4) (ty : Ty) (clu : Bool) (o : Ops) : MbFmt :=
  { sub := sub, ty := ty, ord := false, order := .rlx, scope := .dev, clu := clu, ops := o }
def mc (sub : BitVec 4) (fmt : Fmt) (o : Ops) : McFmt := { sub := sub, fmt := fmt, ops := o }
def sf (sub : BitVec 4) (sd : BitVec 3) (ty : Ty) (o : Ops) : SFmt := { sub := sub, sd := sd, order := .rlx, ty := ty, ops := o }
def tf (sub : BitVec 4) (fmt : Fmt) (o : Ops) : TFmt := { sub := sub, fmt := fmt, add := false, int := false, ops := o }

/-- A page of 64 KiB whose bytes may be read, written and executed; its physical base is its virtual base. -/
def page (base : Nat) : Xlate :=
  { ten := 0, pasid := 0, vbase := base, ibase := base, pbase := base, logSize := 16, r := true, w := true, x := true,
    sw := true, fmt := 0, geom := 0, s1log := 16, s2at := 0, s2log := 16, dirty := true }

/-- A block of one strand of 8 lanes that is about to issue `i`; `f` sets its registers and `g` what else differs. -/
def issuing (i : Instr) (f : Strand → Strand) (g : Block → Block) : State :=
  let w := (encode i).getD 0
  let b := loadBlock State.reset w
  { State.reset with
    nextId := 1, cur := some { ref := { blk := b.uid, strand := 0, lane := 0 }, word := w }
    blocks := [g { b with strands := b.strands.map f }]
    mem := { State.reset.mem with tlb1 := [(0, page 0x10000)] } }

/-- Lane 0's vector registers and the uniform registers that a test gives. -/
def regs (vs : List (Nat × W32)) (us : List (Nat × W64)) (st : Strand) : Strand :=
  us.foldl (fun st r => st.setUreg r.1 r.2) (vs.foldl (fun st r => st.setVreg r.1 0 r.2) st)

/-- `i` passes the checks in `s`, and `p` holds of what its effect starts from. -/
def metIn (i : Instr) (e : Entry) (c : Ctl) (s : State) (p : State → Ctx → Bool) : Bool :=
  match s.ctx c with
  | some x => x.canIssue i s && (i.check e s x).isNone && p (entered i e s x) x
  | none => false

/-- Some state and context meet the hypotheses of a statement about `i`. -/
def Met (i : Instr) (e : Entry) (c : Ctl) (p : State → Ctx → Prop) : Prop :=
  ∃ s x, Passes i e c s x ∧ p (entered i e s x) x

theorem met_of (i : Instr) (e : Entry) (c : Ctl) (s : State) (p : State → Ctx → Prop) [∀ s x, Decidable (p s x)]
    (h : metIn i e c s (fun s x => decide (p s x)) = true) : Met i e c p := by
  unfold metIn at h
  split at h
  · rename_i x hx
    simp only [Bool.and_eq_true, Option.isNone_iff_eq_none, decide_eq_true_eq] at h
    exact ⟨s, x, ⟨hx, h.1.1, h.1.2⟩, h.2⟩
  · cases h

theorem met_at {i : Instr} {e : Entry} {c : Ctl} {p : State → Ctx → Prop} [∀ s x, Decidable (p s x)] (w : Instr → State)
    (h : metIn i e c (w i) (fun s x => decide (p s x)) = true) : Met i e c p := met_of i e c (w i) p h

/-- Every instruction of a list passes the checks somewhere. -/
def AllPass (is : List (Instr × Entry)) : Prop := ∀ ie ∈ is, Met ie.1 ie.2 plain fun _ _ => True

theorem allPass_of (is : List (Instr × Entry)) (f : Strand → Strand)
    (h : (is.all fun ie => metIn ie.1 ie.2 plain (issuing ie.1 f id) fun _ _ => true) = true) : AllPass is := by
  intro ie hi
  exact met_of ie.1 ie.2 plain (issuing ie.1 f id) (fun _ _ => True) (by simpa using List.all_eq_true.mp h ie hi)

/-! ### Hypotheses that can be met: format A -/

def intBin (i : Ctl → AFmt → Instr) (ty : Ty) : Instr × Entry :=
  (i plain (af 0 ty .i32 false (ops (v 2) (v 4) (v 6) no 0)), Entry.plain)
def intTri (i : Ctl → AFmt → Instr) (ty : Ty) : Instr × Entry :=
  (i plain (af 0 ty .i32 false (ops (v 2) (v 4) (v 6) (v 8) 0)), Entry.plain)
def intUn (i : Ctl → AFmt → Instr) (ty : Ty) : Instr × Entry :=
  (i plain (af 0 ty .i32 false (ops (v 2) (v 4) no no 0)), Entry.plain)

theorem test_hyps_IntegerRuns : AllPass
    [intBin .iadd .i32, intBin .isub .u64, intBin .imul .i32, intBin .imulh .i64, intTri .imad .i32, intBin .imin .i32,
     intBin .imax .u32, intBin .land .b32, intBin .lor .b64, intBin .lxor .b32, intBin .shl .b32, intBin .shr .i32,
     intBin .rot .b64, intUn .popc .b64, intUn .clz .b32, intUn .brev .b32, intUn .mov .b64, intTri .lea .u64,
     (.sel plain (af 0 .b32 .i32 false (ops (v 2) (v 4) (v 6) (im 1) 0)), Entry.plain),
     (.icmp plain (af 2 .i32 .i32 false (ops (im 1) (v 4) (v 6) no 0)), Entry.plain),
     (.movi plain (af 1 .b64 .i32 false (ops (v 2) .immWord no no 0x80000000)), Entry.plain),
     (.pand plain (af 0 .b32 .i32 false (ops (im 1) (im 2) (im 3) no 0)), Entry.plain),
     (.pmov plain (af 1 .b32 .i32 false (ops (v 2) no no no 0)), Entry.plain)] :=
  allPass_of _ id (by decide +kernel)

/-- A strand of 16 lanes in the place of one of 8. -/
def wider (b : Block) : Block :=
  { b with hdr := { b.hdr with width := 16 }
           strands := [Strand.start { b.hdr with width := 16 } 0 b.arg (BitVec.ofNat 64 loadVa) 0] }

theorem test_hyps_FloatRuns : AllPass
    [intBin .fadd .f32, intBin .fmul .f64, intTri .ffma .f16x2, intUn .frcp .f32, intUn .frsq .f32, intUn .fsqrt .f64,
     intUn .fexp2 .f32, intUn .flog2 .bf16x2, intUn .fsin .f32, intUn .fcos .f32, intUn .ftanh .f16x2, intUn .frnd .f32,
     intBin .fscale .f64,
     (.fdot2 plain (af 0 .f32 .f16x2 false (ops (v 2) (v 4) (v 6) (v 8) 0)), Entry.plain)] :=
  allPass_of _ id (by decide +kernel)

def conv (i : Ctl → AFmt → Instr) (sub : BitVec 4) (ty sty : Ty) : Instr × Entry :=
  (i plain (af sub ty sty false (ops (v 2) (v 4) no no 0)), Entry.plain)

theorem test_hyps_ConvertRuns : AllPass
    [conv .cvt 0 .f32 .i32, conv .cvt 0 .u64 .f64, conv .cvt 1 .i32 .u64, conv .dqsx 1 .f32 .b32, conv .unpack 3 .f32 .e4m3x4,
     (.pack plain (af 1 .e4m3x4 .f32 false (ops (v 2) (v 4) (v 6) (v 8) 0)), Entry.plain),
     (.pack plain (af 0 .f16x2 .f32 false (ops (v 2) (v 4) (v 6) no 0)), Entry.plain)] :=
  allPass_of _ id (by decide +kernel)

theorem test_hyps_ConvertRuns_groups : ∀ i ∈
    [Instr.qsx plain (af 1 .b32 .f32 false (ops (v 2) (v 4) no no 0)), .qscale plain (af 2 .b32 .f64 false (ops (v 2) (v 4) no no 0)),
     .qsx plain (af 5 .b32 .bf16 false (ops (v 2) (v 4) (v 6) no 0))],
    Met i Entry.groups plain fun _ _ => True := by
  intro i hi
  refine met_of i Entry.groups plain (issuing i id wider) (fun _ _ => True) ?_
  revert i
  decide +kernel

theorem test_hyps_CrossLaneRuns : AllPass
    [(.shfl plain (af 3 .b32 .i32 false (ops (v 2) (v 4) (v 6) (v 8) 0)), Entry.plain),
     conv .matchAny 0 .b64 .i32, conv .redux 1 .i32 .i32, conv .scan 8 .u64 .i32,
     (.vote plain (af 0 .b32 .i32 false (ops (im 1) (im 2) no no 0)), Entry.plain),
     (.vote plain (af 3 .b64 .i32 false (ops (v 2) (im 2) no no 0)), Entry.plain),
     (.bcast plain (af 0 .b32 .i32 false (ops (v 2) (v 4) (im 3) (v 8) 0)), Entry.plain)] :=
  allPass_of _ id (by decide +kernel)

theorem test_hyps_BitFields : AllPass
    [intBin .bfx .i32, (.bfi plain (af 0 .b64 .i32 false (ops (v 2) (v 4) (v 6) (v 8) 0)), Entry.plain)] ∧
    (Ty.i32.bits ∈ [32, 64] ∧ (0xFFFF#64).toNat < 2 ^ Ty.i32.bits) ∧
    (Ty.i64.bits ∈ [32, 64] ∧ (BitVec.allOnes 64).toNat < 2 ^ Ty.i64.bits) :=
  ⟨allPass_of _ id (by decide +kernel), by decide, by decide +kernel⟩

theorem test_hyps_MinmaxPicks : AllPass [intBin .fmin .f32, intBin .fmax .bf16x2] :=
  allPass_of _ id (by decide +kernel)

theorem test_hyps_CompareValues : AllPass
    [(.fcmp plain (af 7 .f64 .i32 false (ops (im 1) (v 4) (v 6) no 0)), Entry.plain),
     (.fcmp plain (af 0 .f16 .i32 false (ops (im 1) (v 4) (v 6) no 0)), Entry.plain)] :=
  allPass_of _ id (by decide +kernel)

theorem test_hyps_ClassMask : AllPass [intUn .fclass .f16] := allPass_of _ id (by decide +kernel)

/-- Every NaN case of a minimum: quiet, signalling, none. -/
theorem test_hyps_MinmaxPicks_nans :
    (FF.f32.val 0x7FC00000).isNan = true ∧ (FF.f32.val 0x7F800001) = .nan true ∧ (FF.f32.val 0x3F800000).isNan = false := by
  decide +kernel

/-- 1 is a finite value that FP32 holds. -/
theorem test_hyps_ExactRounding : (0x3F800000 : Nat) < 2 ^ FF.f32.width ∧ (FF.f32.val 0x3F800000).isNan = false ∧
    (FF.f32.val 0x3F800000).isInf = false := by decide +kernel

/-- 65536 overflows FP16, and its negative does. -/
theorem test_hyps_OverflowResults : FF.f16.maxF < FF.f16.round 65536 false .rne ∧ FF.f16.maxF < FF.f16.round 65536 true .rup ∧
    FF.e4m3.maxF < FF.e4m3.round 480 false .rna := by decide +kernel

/-! ### Hypotheses that can be met: memory -/

/-- Device memory at the page that the TLB holds, scratchpad, private memory and constant data. -/
def gAddr : W64 := 0x10000
def sAddr : W64 := 0x2000000000000100
def pAddr : W64 := 0x4000000000000000
def kAddr : W64 := 0x1000000000010000

/-- `i` at work on the address that uniform register 2 holds. -/
def accessing (i : Instr) (a : W64) : State :=
  issuing i (regs [] [(2, a)]) fun b => { b with hdr := { b.hdr with priv := 1 }, pb0 := 0x10000 }

def ldOps : Ops := ops (v 4) (u 2) no no 8
def stOps : Ops := ops (u 2) (v 4) no no 8
def idle : Ctl := { plain with guard := 15 }

/-- What LoadRuns asks of a lane access that takes effect. -/
abbrev LoadOk (m : MemForm) (one : Bool) (f : MaFmt) (s : State) (x : Ctx) : Prop :=
  let addr := fun (L : Nat) => s.effAddr x f.ops.a f.ops.imm (if one then x.lead else L)
  let all := s.reaches x m x.lanes addr
  x.active ≠ 0 ∧ s.memTrap x m x.lanes addr = none ∧
    s.poisonTrap (s.via x.blk) (if f.ops.d.isUni then all.take 1 else all) addr = none

abbrev StoreOk (m : MemForm) (f : MaFmt) (s : State) (x : Ctx) : Prop :=
  x.active ≠ 0 ∧ s.memTrap x m x.lanes (fun L => s.effAddr x f.ops.d f.ops.imm L) = none

abbrev AtomOk (f : MbFmt) (tags : List Nat) (s : State) (x : Ctx) : Prop :=
  let m := atomForm f.ty tags
  let addr := fun (L : Nat) => s.effAddr x f.ops.a f.ops.imm L
  x.active ≠ 0 ∧ s.memTrap x m x.lanes addr = none ∧ s.poisonTrap atHome (s.reaches x m x.lanes addr) addr = none

def ldScan (m : MemForm) (one : Bool) (f : MaFmt) (e : Entry) : Entry := e.scans fun s x =>
  s.scanLoad x.blk (s.readLocs x m fun L => s.effAddr x f.ops.a f.ops.imm (if one then x.lead else L))
def ldEntry (f : MaFmt) (one : Bool) : Entry := ldScan (nativeForm f false .read) one f
  (guardEntry (nativeGuard f one .read) fun s x L => s.effAddr x f.ops.a f.ops.imm L)
def stEntry (f : MaFmt) : Entry := guardEntry (nativeGuard f false .write) fun s x L => s.effAddr x f.ops.d f.ops.imm L
def atScan (f : MbFmt) (tags : List Nat) (e : Entry) : Entry := e.scans fun s x =>
  s.scanHome (s.readLocs x (atomForm f.ty tags) fun L => s.effAddr x f.ops.a f.ops.imm L)
def atEntry (f : MbFmt) (tag : Nat) : Entry := atScan f [tag]
  (guardEntry (atomGuard [tag]) fun s x L => s.effAddr x f.ops.a f.ops.imm L)

def ldMet (i : Ctl → MaFmt → Instr) (f : MaFmt) (one : Bool) : Prop :=
  Met (i plain f) (ldEntry f one) plain (LoadOk (nativeForm f false .read) one f)
def stMet (i : Ctl → MaFmt → Instr) (f : MaFmt) : Prop :=
  Met (i plain f) (stEntry f) plain (StoreOk (nativeForm f false .write) f)
def atMet (i : Ctl → MbFmt → Instr) (f : MbFmt) (tag : Nat) : Prop :=
  Met (i plain f) (atEntry f tag) plain (AtomOk f [tag])

theorem test_hyps_LoadRuns :
    Met (.lda plain (ma 0 .raw32 ldOps)) (ldScan MemForm.lda false (ma 0 .raw32 ldOps) Entry.plain) plain
      (LoadOk MemForm.lda false (ma 0 .raw32 ldOps)) ∧
    ldMet .ldg (ma 0 .raw64 ldOps) false ∧ ldMet .lds (ma 2 .raw32 ldOps) false ∧ ldMet .ldp (ma 4 .raw32 ldOps) false ∧
    ldMet .ldk (ma 1 .raw32 ldOps) false ∧ ldMet .ldb (ma 0 .raw32 ldOps) true ∧
    Met (.lda idle (ma 0 .raw32 ldOps)) (ldScan MemForm.lda false (ma 0 .raw32 ldOps) Entry.plain) idle (fun _ x => x.active = 0) :=
  ⟨met_at (accessing · gAddr) (by decide +kernel), met_at (accessing · gAddr) (by decide +kernel),
   met_at (accessing · sAddr) (by decide +kernel), met_at (accessing · pAddr) (by decide +kernel),
   met_at (accessing · kAddr) (by decide +kernel), met_at (accessing · gAddr) (by decide +kernel),
   met_at (accessing · gAddr) (by decide +kernel)⟩

theorem test_hyps_StoreRuns :
    Met (.sta plain (ma 0 .raw32 stOps)) Entry.plain plain (StoreOk MemForm.sta (ma 0 .raw32 stOps)) ∧
    stMet .stg (ma 0 .raw64 stOps) ∧ stMet .sts (ma 2 .raw32 stOps) ∧ stMet .stp (ma 4 .raw32 stOps) ∧
    Met (.sts idle (ma 2 .raw32 stOps)) (stEntry (ma 2 .raw32 stOps)) idle (fun _ x => x.active = 0) :=
  ⟨met_at (accessing · gAddr) (by decide +kernel), met_at (accessing · gAddr) (by decide +kernel),
   met_at (accessing · sAddr) (by decide +kernel), met_at (accessing · pAddr) (by decide +kernel),
   met_at (accessing · sAddr) (by decide +kernel)⟩

def atF : MbFmt := mb 0 .u32 false (ops (v 4) (u 2) (v 6) no 0)
def rdF : MbFmt := mb 0 .u32 false (ops no (u 2) (v 6) no 0)

theorem test_hyps_AtomicRuns :
    Met (.atoma plain atF) (atScan atF [0, 2, 3] Entry.plain) plain (AtomOk atF [0, 2, 3]) ∧
    Met (.reda plain rdF) (atScan rdF [0, 2, 3] Entry.plain) plain (AtomOk rdF [0, 2, 3]) ∧
    atMet .atomg atF 0 ∧ atMet .atoms atF 2 ∧ atMet .redg rdF 0 ∧ atMet .reds rdF 2 ∧
    Met (.atoma idle atF) (atScan atF [0, 2, 3] Entry.plain) idle (fun _ x => x.active = 0) :=
  ⟨met_at (accessing · gAddr) (by decide +kernel), met_at (accessing · sAddr) (by decide +kernel),
   met_at (accessing · gAddr) (by decide +kernel), met_at (accessing · sAddr) (by decide +kernel),
   met_at (accessing · gAddr) (by decide +kernel), met_at (accessing · sAddr) (by decide +kernel),
   met_at (accessing · gAddr) (by decide +kernel)⟩

/-! ### Hypotheses that can be met: synchronisation, frames, control -/

def barF (sub : BitVec 4) : SFmt := sf sub 0 .i32 (ops no (u 2) (im 1) no 0)
def bar1F (sub : BitVec 4) : SFmt := sf sub 0 .i32 (ops no (u 2) no no 0)
abbrev Reached (f : SFmt) (s : State) (x : Ctx) : Prop :=
  x.active ≠ 0 ∧ (s.barTraps x (s.op64 x f.ops.a x.lead) 16).findSome? id = none
abbrev Readable (f : SFmt) (s : State) (x : Ctx) : Prop := Reached f s x ∧ s.barEcc x (s.op64 x f.ops.a x.lead) = none
abbrev Ringed (f : SFmt) (s : State) (x : Ctx) : Prop :=
  let a := s.op64 x f.ops.a x.lead
  x.active ≠ 0 ∧ (s.headerTraps x a).findSome? id = none ∧
    s.barEcc x (a + BitVec.ofNat 64 (16 + 16 * (s.op32 x f.ops.b f.ops.imm x.lead % s.ringSlots x a))) = none
def phaseE (f : SFmt) : Entry := (addrIndexUniform f.ops.a f.ops.b f.ops.imm).scans (barScan f.ops.a)
def idxE (f : SFmt) : Entry := (addrIndexUniform f.ops.a f.ops.b f.ops.imm).scans (ringScan f)
def updE : Entry := (addrUniform (u 2)).scans (barScan (u 2))

/-- A ring of two slots stands at the scratchpad address, whose first byte is byte 32 of bank 0. -/
def ringed (i : Instr) : State :=
  let s := accessing i sAddr
  { s with mem := { s.mem with spad := [(32, 2)] } }

theorem test_hyps_SyncRuns_barriers :
    Met (.barinit plain (barF 0)) (addrUniform (u 2)) plain (Reached (barF 0)) ∧
    Met (.barexpect plain (barF 0)) updE plain (Readable (barF 0)) ∧
    Met (.bararrive plain (bar1F 1)) updE plain (Readable (bar1F 1)) ∧
    Met (.barwait plain (barF 0)) (phaseE (barF 0)) plain (Readable (barF 0)) ∧
    Met (.bartry plain (sf 0 0 .i32 (ops (im 1) (u 2) (im 1) no 0))) (phaseE (barF 0)) plain (Readable (barF 0)) :=
  ⟨met_at (accessing · sAddr) (by decide +kernel), met_at (accessing · sAddr) (by decide +kernel),
   met_at (accessing · sAddr) (by decide +kernel), met_at (accessing · sAddr) (by decide +kernel),
   met_at (accessing · sAddr) (by decide +kernel)⟩

theorem test_hyps_SyncRuns_rings :
    Met (.stginit plain (sf 0 0 .i32 (ops no (u 2) (im 2) (im 1) 0))) (addrUniform (u 2)) plain (fun s x =>
      x.active ≠ 0 ∧ (s.ringTraps x (s.op64 x (u 2) x.lead) (s.op32 x (im 2) 0 x.lead)).findSome? id = none) ∧
    Met (.stgwait plain (barF 1)) (idxE (barF 1)) plain (Ringed (barF 1)) ∧
    Met (.stgarrive plain (barF 0)) (idxE (barF 0)) plain (Ringed (barF 0)) :=
  ⟨met_at (accessing · sAddr) (by decide +kernel), met_at ringed (by decide +kernel), met_at ringed (by decide +kernel)⟩

theorem test_hyps_SyncRuns_fences :
    Met (.cvset plain (sf 1 0 .i32 (ops (im 3) no no no 0))) Entry.plain plain (fun _ x => x.active ≠ 0) ∧
    Met (.fence plain (sf 0 3 .i32 (ops no no no no 0))) Entry.plain plain (fun _ x => x.active ≠ 0) ∧
    Met (.fsync plain (sf 0 2 .i32 (ops no no no no 0))) Entry.plain plain (fun _ x => x.active ≠ 0) :=
  ⟨met_at (accessing · sAddr) (by decide +kernel), met_at (accessing · sAddr) (by decide +kernel),
   met_at (accessing · sAddr) (by decide +kernel)⟩

/-- The 8 lanes as `l` has them, with private memory of one granule, and display registers 1 to 3 as `d` says. -/
def framed (l : Lane) (d : List (Nat × W64)) (i : Instr) : State :=
  issuing i
    (fun st => d.foldl (fun st r => (List.range 8).foldl (fun st L => st.setDisp r.1 L { ptr := r.2, valid := true }) st)
      { st.setUreg 2 (privPtr 0) with
        lanes := (List.range 8).map fun L => (L, l), preds := [(1, 1)] })
    fun b => { b with hdr := { b.hdr with priv := 1 }, pb0 := 0x10000 }

def zeroS : SFmt := sf 0 0 .i32 (ops no no no no 0)
def someCtl : Ctl := { plain with guard := 1 }

theorem test_hyps_FrameRuns_private :
    Met (.fenter plain (sf 0 0 .i32 (ops no (im 16) no no 0))) Entry.plain plain (fun s x =>
      (∀ L ∈ x.lanes, 3 ≤ (x.st.lane L).cd.toNat ∧ ¬((x.st.lane L).top ≠ 0 ∧ (x.st.lane L).tnest = (x.st.lane L).nest) ∧
        frameSizeBad (s.op32 x (im 16) 0 L) = false ∧
        (x.st.lane L).fp.toNat + s.op32 x (im 16) 0 L ≤ x.blk.privlim) ∧
      s.privPlaces x (fun L => (x.st.lane L).fp.toNat) true = none) ∧
    Met (.fleave plain zeroS) Entry.plain plain (fun s x =>
      (∀ L ∈ x.lanes, (x.st.lane L).frameLive = true) ∧
      s.privPlaces x (fun L => x.frameOffset (x.st.lane L).cd.toNat L) false = none ∧
      s.privPoison x (fun L => x.frameOffset (x.st.lane L).cd.toNat L) = none) ∧
    Met (.dspw plain (sf 0 4 .i32 (ops no (u 2) no no 0))) (dispUniform (sf 0 4 .i32 (ops no (u 2) no no 0)) no) plain
      (fun s x => ∀ L ∈ x.lanes, 3 ≤ s.dispNum x (sf 0 4 .i32 (ops no (u 2) no no 0)) no L ∧
        dispLegal (s.op64 x (u 2) L) = true) ∧
    Met (.dspr plain (sf 0 3 .i32 (ops (v 4) no no no 0))) (dispUniform (sf 0 3 .i32 (ops (v 4) no no no 0)) no) plain
      (fun _ _ => True) :=
  ⟨met_at (framed { Lane.start with cd := 3 } []) (by decide +kernel),
   met_at (framed { Lane.start with cd := 3, top := 3, fp := 16 } [(3, privPtr 0)]) (by decide +kernel),
   met_at (framed Lane.start []) (by decide +kernel), met_at (framed Lane.start []) (by decide +kernel)⟩

/-- The lanes of a shared frame's instruction that have not signed yet. -/
abbrev newIn (x : Ctx) : Lanes := x.active &&& ~~~x.innerSigned
abbrev newOut (s : State) (x : Ctx) : Lanes := x.active &&& ~~~(s.clusterMarks x)

def fatomF : SFmt := sf 0 2 .u32 (ops no (.slot 2 0) (im 1) no 0)

/-- A shared frame opens or closes when every live thread signs, and waits when only lane 0 does. -/
theorem test_hyps_FrameRuns_shared :
    (∀ c ∈ [(plain, true), (someCtl, false)],
      Met (.bfenter c.1 zeroS) { Entry.plain with sign := blockSignTrap (.bfenter c.1 zeroS) } c.1 (fun _ x =>
        x.active ≠ 0 ∧ sharedTrap x (newIn x) 2 true = none ∧
        decide (x.blk.liveThreads &&& ~~~(x.blk.inner.sig ||| threadSet x.blk x.sid (newIn x)) = 0) = c.2) ∧
      Met (.bfleave c.1 zeroS) { Entry.plain with sign := blockSignTrap (.bfleave c.1 zeroS) } c.1 (fun _ x =>
        x.active ≠ 0 ∧ sharedTrap x (newIn x) 2 false = none ∧
        decide (x.blk.liveThreads &&& ~~~(x.blk.inner.sig ||| threadSet x.blk x.sid (newIn x)) = 0) = c.2)) ∧
    (∀ c ∈ [(plain, true), (someCtl, false)],
      Met (.cfenter c.1 zeroS) { Entry.plain with sign := clusterSignTrap (.cfenter c.1 zeroS) } c.1 (fun s x =>
        x.active ≠ 0 ∧ sharedTrap x (newOut s x) 1 true = none ∧ decide (s.clusterLive x.blk &&& ~~~((s.cluster x.blk.cluster).sig |||
          clusterBits x.blk.rank (threadSet x.blk x.sid (newOut s x))) = 0) = c.2) ∧
      Met (.cfleave c.1 zeroS) { Entry.plain with sign := clusterSignTrap (.cfleave c.1 zeroS) } c.1 (fun s x =>
        x.active ≠ 0 ∧ sharedTrap x (newOut s x) 1 false = none ∧ decide (s.clusterLive x.blk &&& ~~~((s.cluster x.blk.cluster).sig |||
          clusterBits x.blk.rank (threadSet x.blk x.sid (newOut s x))) = 0) = c.2)) ∧
    Met (.fatom plain fatomF) (Entry.plain.scans fun s x => s.scanHome (x.lanes.flatMap (s.fatomLocs x fatomF))) plain (fun s x => x.active ≠ 0 ∧ s.fatomTrap x fatomF = none) := by
  refine ⟨?_, ?_, met_at (framed Lane.start [(2, 0x2000000000000000)]) (by decide +kernel)⟩
  · intro c hc
    rcases List.mem_cons.mp hc with rfl | hc
    · exact ⟨met_at (framed Lane.start []) (by decide +kernel),
        met_at (framed Lane.start [(2, 0x2000000000000000)]) (by decide +kernel)⟩
    · obtain rfl := List.mem_singleton.mp hc
      exact ⟨met_at (framed Lane.start []) (by decide +kernel),
        met_at (framed Lane.start [(2, 0x2000000000000000)]) (by decide +kernel)⟩
  · intro c hc
    rcases List.mem_cons.mp hc with rfl | hc
    · exact ⟨met_at (framed Lane.start []) (by decide +kernel),
        met_at (framed Lane.start [(1, 0x2000000000000000)]) (by decide +kernel)⟩
    · obtain rfl := List.mem_singleton.mp hc
      exact ⟨met_at (framed Lane.start []) (by decide +kernel),
        met_at (framed Lane.start [(1, 0x2000000000000000)]) (by decide +kernel)⟩

/-- Uniform register 2 holds `a`; lane 0's link in v4:v5 holds depth 2 and the next word; a trap record stands at 0x10000. -/
def controlling (a : W64) (i : Instr) : State :=
  issuing i (fun st => { regs [] [(2, a)] st with lanes := (List.range 8).map fun L => (L, { Lane.start with traprec := 0x10000 }) }) id

def cOps (a : Operand) (imm : W32) : Ops := ops no a no no imm
abbrev Aligned (x : Ctx) (t : Nat → W64) : Prop := ∀ L ∈ x.lanes, (t L).extractLsb' 0 4 = 0
abbrev Always : State → Ctx → Prop := fun _ _ => True
def callF : CFmt := cf 0 3 0 (ops (v 4) .immWord no no 0x100)
def call1F : CFmt := cf 1 3 0 (ops (v 4) (u 2) no no 0)

theorem test_hyps_ControlRuns_targets :
    Met (.bra plain (cf 0 0 0 (cOps .immWord 0xFFFFFFF0))) Entry.plain plain Always ∧
    Met (.brxa plain (cf 0 0 0 (cOps (u 2) 0))) Entry.plain plain (fun s x => Aligned x fun L => s.op64 x (u 2) L) ∧
    Met (.brx plain (cf 0 0 0 (cOps (u 2) 0)))
      { Entry.plain with before := fun s x => if s.brxReplays x (cf 0 0 0 (cOps (u 2) 0)) then s.countSite x.blk.core 2 else s } plain
      (fun s x => Aligned x fun L => s.op64 x (u 2) L) ∧
    Met (.call plain callF) Entry.plain plain (fun _ x =>
      Aligned x (fun _ => x.fr.pc + 0x100) ∧ ∀ L ∈ x.lanes, callF.depth.toNat ≤ (x.st.lane L).cd.toNat + 1) ∧
    Met (.call plain call1F) Entry.plain plain (fun s x =>
      Aligned x (fun L => s.op64 x (u 2) L) ∧ ∀ L ∈ x.lanes, call1F.depth.toNat ≤ (x.st.lane L).cd.toNat + 1) ∧
    Met (.ret plain (cf 0 0 0 (cOps (v 4) 0))) Entry.plain plain (fun s x =>
      ∀ L ∈ x.lanes, (s.op64 x (v 4) L).getLsbD 3 = false ∧ 2 ≤ ((s.op64 x (v 4) L).extractLsb' 0 3).toNat ∧
        (x.st.lane L).frameLive = false) ∧
    Met (.tret plain (cf 0 0 0 (cOps no 0))) Entry.plain plain (fun s x =>
      x.blk.inCoop = false ∧ ∀ L ∈ x.lanes, (x.st.lane L).traprec ≠ 0 ∧
        (s.trapReturn x.blk x.sid L).extractLsb' 0 4 = 0 ∧ (s.trapReturn x.blk x.sid L).extractLsb' 56 8 = 0) :=
  ⟨met_at (controlling 0) (by decide +kernel), met_at (controlling 0x20000) (by decide +kernel),
   met_at (controlling 0x20000) (by decide +kernel), met_at (controlling 0) (by decide +kernel),
   met_at (controlling 0x20000) (by decide +kernel),
   met_at (fun i => issuing i (fun st => (List.range 8).foldl (fun st L => st.setVreg 4 L 0x10012) st) id) (by decide +kernel),
   met_at (controlling 0) (by decide +kernel)⟩

def spawnF : CFmt := cf 0 0 0 (ops (im 1) (u 2) (im 0) no 0)

theorem test_hyps_ControlRuns_system :
    Met (.nop plain (cf 0 0 0 (cOps no 0))) Entry.plain plain Always ∧
    Met (.exit plain (cf 0 0 0 (cOps no 0))) Entry.plain plain Always ∧
    Met (.nap plain (cf 0 0 0 (cOps (im 5) 0))) Entry.plain plain (fun _ x => x.active ≠ 0) ∧
    Met (.srd plain (cf 0 0 0x00E (ops (u 4) no no no 0))) Entry.plain plain Always ∧
    Met (.srd plain (cf 0 0 0x012 (ops (v 4) no no no 0))) Entry.plain plain Always ∧
    Met (.swr plain (cf 0 0 0x00E (cOps (im 8) 0))) Entry.plain plain (fun s x =>
      x.active ≠ 0 ∧ fmodeLegal (loWord (s.operand x .b32 false (im 8) 0 x.lead)) = true) ∧
    Met (.spawn plain spawnF) Entry.plain plain (fun s x =>
      x.active ≠ 0 ∧ ∀ L ∈ x.lanes, tagOf (s.op64 x (u 2) L) = 0 ∧ (s.op64 x (u 2) L).extractLsb' 0 6 = 0 ∧
        s.recordMapped x (s.op64 x (u 2) L) = true) ∧
    Met (.trace plain (cf 0 0 0 (cOps (u 2) 7))) Entry.plain plain (fun _ x => x.active ≠ 0) :=
  ⟨met_at (controlling 0) (by decide +kernel), met_at (controlling 0) (by decide +kernel), met_at (controlling 0) (by decide +kernel),
   met_at (controlling 0) (by decide +kernel), met_at (controlling 0) (by decide +kernel), met_at (controlling 0) (by decide +kernel),
   met_at (controlling 0x10000) (by decide +kernel), met_at (controlling 0) (by decide +kernel)⟩

theorem test_hyps_TrapInstructions : ∀ i ∈ [Instr.trap plain (cf 0 0 0 (cOps no 0x1234)), .bkpt plain (cf 0 0 0 (cOps no 1))],
    Met i Entry.plain plain (fun _ x => x.active ≠ 0) ∧
    (∀ j ∈ [Instr.trap idle (cf 0 0 0 (cOps no 0x1234)), .bkpt idle (cf 0 0 0 (cOps no 1))],
      Met j Entry.plain idle (fun _ x => x.active = 0)) := by
  intro i hi
  refine ⟨met_at (controlling 0) (by revert i; decide +kernel), fun j hj => met_at (controlling 0) (by revert j; decide +kernel)⟩

/-! ### Hypotheses that can be met: copies, code, context, the engine -/

def cpaF : McFmt := mc 0 .raw32 (ops (u 2) (u 4) (im 32) no 0)
def cptF : McFmt := mc 0 .fp32 (ops (u 2) (u 4) (u 6) no 0x00010001)
def dOps : Ops := ops (u 2) no no no 0
def siteFree (s : State) (x : Ctx) : Bool := x.lanes.all fun L =>
  let a := s.effAddr x (u 2) 0 L
  tagOf a == 0 && a.extractLsb' 0 4 == 0 && (s.codeXlate x a).any fun p => p.2.sw

/-- Uniform registers 2, 4 and 6. -/
def copying (a b k : W64) (i : Instr) : State := issuing i (regs [] [(2, a), (4, b), (6, k)]) id

/-- A descriptor of a matrix of one FP32 element stands at the scratchpad address. -/
def descr (i : Instr) : State :=
  let s := copying 0x2000000000001000 0x2000000000000100 0 i
  { s with mem := { s.mem with spad := [(34, 1), (40, 1), (44, 1), (32800, 16), (32804, 16), (32808, 0x0A)] } }

theorem test_hyps_CopyCodeRuns :
    Met (.cpa plain cpaF) (copyUniform cpaF false) plain (fun s x => x.active ≠ 0 ∧ (s.cpaTraps x cpaF).findSome? id = none) ∧
    Met (.cpt plain cptF) ((copyUniform cptF true).scans (descScan (u 4))) plain (fun s x => x.active ≠ 0 ∧ (s.cptTraps x cptF).findSome? id = none) ∧
    Met (.pref plain (mc 1 .raw32 dOps)) Entry.plain plain (fun _ x => x.active ≠ 0) ∧
    Met (.fetchb plain (mc 0 .raw32 (ops no no no no 0))) Entry.plain plain (fun _ x => x.active ≠ 0) ∧
    Met (.codeinv plain (mc 0 .raw32 dOps)) Entry.plain plain (fun s x => x.active ≠ 0 ∧ ∀ L ∈ x.lanes,
      tagOf (s.effAddr x (u 2) 0 L) = 0 ∧ (s.effAddr x (u 2) 0 L).extractLsb' 56 4 = 0 ∧
        (s.codeXlate x (s.effAddr x (u 2) 0 L)).isSome = true) ∧
    Met (.siteclr plain (mc 0 .raw32 dOps)) Entry.plain plain (fun s x => x.active ≠ 0 ∧ siteFree s x = true) ∧
    Met (.siteclrPin plain (mc 1 .raw32 dOps)) Entry.plain plain (fun s x => x.active ≠ 0 ∧ siteFree s x = true) :=
  ⟨met_at (copying 0x2000000000000100 0x10000 0) (by decide +kernel), met_at descr (by decide +kernel),
   met_at (copying 0x10000 0 0) (by decide +kernel), met_at (copying 0 0 0) (by decide +kernel),
   met_at (copying 0x10000 0 0) (by decide +kernel), met_at (copying 0x10000 0 0) (by decide +kernel),
   met_at (copying 0x10000 0 0) (by decide +kernel)⟩

/-- A block in its cooperative phase. -/
def coop (i : Instr) : State := issuing i (regs [] [(2, 0x10000)]) fun b => { b with mode := .coop 0 0 none 0 }
def ctxF (cls : BitVec 4) : SFmt := sf cls 0 .i32 (ops no (u 2) (im 0) (im 1) 0)
def stE (cls : BitVec 4) : Entry :=
  { Entry.plain with illegal := ctxIllegal (ctxF cls), sign := ctxReadTrap (ctxF cls) }.scans (ctxstScan (ctxF cls))
def ldE (cls : BitVec 4) : Entry := { Entry.plain with illegal := ctxIllegal (ctxF cls) }.scans fun s x =>
  s.scanLoad x.blk ((ctxLanes (ctxF cls) x).flatMap fun L => s.ctxLocs x (ctxF cls) .read L)
def StOk (f : SFmt) (s : State) (x : Ctx) : Bool :=
  decide (x.active ≠ 0) && ((s.ctxTraps x f .write).findSome? id).isNone && (ctxSpadTrap f s x).isNone
def svE : Entry := { Entry.plain with illegal := fun _ x => !x.blk.inCoop }

theorem test_hyps_ContextRuns :
    Met (.ctxst plain (ctxF 0)) (stE 0) plain (fun s x => StOk (ctxF 0) s x = true) ∧
    Met (.ctxst plain (ctxF 7)) (stE 7) plain (fun s x => StOk (ctxF 7) s x = true) ∧
    Met (.ctxld plain (ctxF 3)) (ldE 3) plain (fun s x =>
      x.active ≠ 0 ∧ (s.ctxTraps x (ctxF 3) .read).findSome? id = none ∧ s.ctxPoison x (ctxF 3) = none) ∧
    Met (.svdone plain (sf 0 0 .i32 (ops no .immWord no no 0x100))) svE plain (fun _ x => x.active ≠ 0) ∧
    Met (.svdone plain (sf 1 0 .i32 (ops no no no no 0))) svE plain (fun _ x => x.active ≠ 0) :=
  ⟨met_at coop (by decide +kernel), met_at coop (by decide +kernel), met_at coop (by decide +kernel),
   met_at coop (by decide +kernel), met_at coop (by decide +kernel)⟩

/-- Convergence register 1 is declared for every thread. -/
def engaged (i : Instr) : State :=
  issuing i (regs [] [(2, 0x2000000000000100)]) fun b => { b with cvs := [(1, { Conv.empty with decl := 0xFF })] }
def eF (sub : BitVec 4) (fmt : Fmt) (d a b : Operand) (imm : W32) : TFmt := tf sub fmt (ops d a b (im 1) imm)

abbrev Signed (i : Ctl → TFmt → Instr) (f : TFmt) (vals : State → Ctx → List (Nat → W64)) (bad : State → Ctx → Bool) : Prop :=
  Met (i plain f) (convEntry (i plain f) 1 vals bad) plain fun _ x => x.active ≠ 0

def mstF : TFmt := eF 0 .fp32 (im 1) (u 2) .immWord 0x0101
def movF : TFmt := eF 1 .raw32 (im 1) (im 2) .immWord 0x0101
def mitF : TFmt := eF 1 .fp32 (im 1) no (im 1) 4
def kldF : TFmt := eF 0 .fp32 (im 1) (u 2) (im 3) 0
def kmvF : TFmt := eF 0 .raw32 (im 1) (im 2) no 0
def ldtF : TFmt := eF 0 .fp32 no (u 2) no 0

theorem test_hyps_EngineSigns :
    Signed .mzero (eF 0 .raw32 (im 1) no no 0) noVals neverBad ∧ Signed .ldstat ldtF (descVals ldtF) neverBad ∧
    Signed .pswap (eF 0 .raw32 no no no 0) noVals neverBad ∧ Signed .mstream mstF (descVals mstF) (countsBad mstF) ∧
    Signed .accst mstF (descVals mstF) (countsBad mstF) ∧ Signed .accchk (eF 0 .raw32 (im 1) no no 0) noVals neverBad ∧
    Signed .accmov movF noVals (countsBad movF) ∧ Signed .accplane (eF 1 .bf16 (im 1) no no 0) noVals neverBad ∧
    Signed .miter mitF (miterVals mitF) neverBad ∧ Signed .kld kldF (kldVals kldF) (kldBad kldF) ∧
    Signed .kmov kmvF (kmovVals kmvF) neverBad :=
  ⟨met_at engaged (by decide +kernel), met_at engaged (by decide +kernel), met_at engaged (by decide +kernel),
   met_at engaged (by decide +kernel), met_at engaged (by decide +kernel), met_at engaged (by decide +kernel),
   met_at engaged (by decide +kernel), met_at engaged (by decide +kernel), met_at engaged (by decide +kernel),
   met_at engaged (by decide +kernel), met_at engaged (by decide +kernel)⟩

def accF : TFmt := tf 0 .int64 (ops (v 4) (im 1) (im 2) no 0)

/-- Tile 1 is an INT64 tile of zeros. -/
def tiled (i : Instr) : State :=
  issuing i id fun b => { b with eng := b.eng.map fun e => { e with tiles := [(1, { e.tile 1 with int := true })] } }

theorem test_hyps_AccldRuns :
    Met (.accld plain accF) (accldEntry accF) plain (fun s x => x.active ≠ 0 ∧ (s.drain x.blk 1).2 = none) :=
  met_at tiled (by decide +kernel)

/-! ### Hypotheses that can be met: operations in flight, holds, the engine -/

/-- The state after a step, or the same where it stops. -/
def nextOf (o : Host.Outcome State Fault Refusal) (s : State) : State :=
  match o with
  | .next t => t
  | _ => s

def isNext (o : Host.Outcome State Fault Refusal) : Bool :=
  match o with
  | .next _ => true
  | _ => false

theorem next_of {o : Host.Outcome State Fault Refusal} {s : State} (h : isNext o = true) : o = .next (nextOf o s) := by
  cases o <;> first | rfl | cases h

/-- The state after `i` has issued. -/
def after (w : Instr → State) (i : Instr) : State := nextOf (exec i (w i)) (w i)

def opIs (s : State) (p : Block → Op → Bool) : Bool :=
  match s.opOf 0 1 with
  | some (b, o) => p b o
  | none => false

/-- Operation 1 of block 0 is in flight and satisfies `p`. -/
def HasOp (s : State) (p : Block → Op → Bool) : Prop := ∃ b o, s.opOf 0 1 = some (b, o) ∧ p b o = true

theorem op_of {s : State} {p : Block → Op → Bool} (h : opIs s p = true) : HasOp s p := by
  unfold opIs at h
  split at h
  · exact ⟨_, _, ‹_›, h⟩
  · cases h

/-- The next access of the operation is the head of what it still has to do. -/
def headsWith (s : State) (b : Block) (o : Op) (p : OpKind → Bool) : Bool :=
  match s.nextAcc b o, o.kind.todo with
  | some a, a' :: _ => a == a' && p o.kind
  | _, _ => false

/-- The state with other scratchpad bytes and other units poisoned there. -/
def spadIs (bytes : SMap Byte) (bad : List Nat) (s : State) : State := { s with mem := { s.mem with spad := bytes, spoison := bad } }

def isLoad : OpKind → Bool
  | .load .. => true
  | _ => false
def isStore : OpKind → Bool
  | .store .. => true
  | _ => false
def isAtomic : OpKind → Bool
  | .atomic .. => true
  | _ => false
def ldsS : State := after (accessing · sAddr) (.lds plain (ma 2 .raw32 ldOps))

theorem test_hyps_AccessesPerform :
    HasOp ldsS (fun b o => headsWith ldsS b o isLoad && (ldsS.nextAcc b o).any fun a =>
      !((ldsS.acquireFor b o.order o.scope).scanLoad b a.locs).loadBad b a.locs) ∧
    (let s := after (accessing · sAddr) (.sts plain (ma 2 .raw32 stOps)); HasOp s fun b o => headsWith s b o isStore) ∧
    (let s := after (accessing · sAddr) (.atoms plain atF); HasOp s fun b o => headsWith s b o isAtomic) ∧
    (let s := { ldsS with mem := { ldsS.mem with spoison := [5] } }
     HasOp s fun b o => headsWith s b o isLoad && (s.nextAcc b o).any fun a =>
       ((s.acquireFor b o.order o.scope).scanLoad b a.locs).loadBad b a.locs) ∧
    (let s := spadIs [] [4] (after (accessing · sAddr) (.atoms plain atF))
     HasOp s fun b o => headsWith s b o isAtomic && (s.nextAcc b o).any fun a =>
       ((s.acquireFor b o.order o.scope).scanHome a.locs).mem.anyPoison a.locs) :=
  ⟨op_of (by decide +kernel), op_of (by decide +kernel), op_of (by decide +kernel), op_of (by decide +kernel), op_of (by decide +kernel)⟩

def ldsI : Instr := .lds plain (ma 2 .raw32 ldOps)

theorem test_hyps_AccessIssueFrame :
    isLaneAccess ldsI = true ∧ ldsI.ctl = some plain ∧ ((accessing ldsI sAddr).ctx plain).isSome = true ∧
    (accessing ldsI sAddr).mem.errs = [] ∧ ((accessing ldsI sAddr).host.quota = [] ∧ (State.reset.quota 0).logon = false) ∧
    isNext (exec ldsI (accessing ldsI sAddr)) = true ∧
    ((nextOf (exec ldsI (accessing ldsI sAddr)) State.reset).block 0).any (fun b => (b.strand 0).issued == 1) = true := by
  decide +kernel

theorem test_hyps_StoreFrame : ldsS.mem.wf = true ∧ ldsS.mem.errs = [] ∧ ldsS.mem.cut = [] ∧
    opIs ldsS (fun b o => (ldsS.nextAcc b o).any fun a => decide (a.locs.length ≤ 18)) = true := by decide +kernel

def copyS : State := after (copying 0x2000000000000100 0x10000 0) (.cpa plain cpaF)
/-- The state after `i` has issued, with what it sends accepted at the slice. -/
def sentAnd (w : Instr → State) (i : Instr) : State :=
  let s := after w i
  match s.opOf 0 1 with
  | some (_, o) => s.setStage 0 o .accepted
  | none => s
def prefS : State := sentAnd (copying 0x10000 0 0) (.pref plain (mc 1 .raw32 dOps))

theorem test_hyps_OperationsPerform :
    HasOp copyS (fun b o => match o.kind with
      | .copy k => copyS.earlierDone b o.strand o.id (oneLane k.lane) .dev && decide (k.step < k.steps (copyS.copyGeom b k)) &&
        copyS.inCopySlots b o && (copyS.copyAsks b o k (copyS.copyGeom b k)).all (copyS.reached b) &&
        !copyS.copyWaits b k (copyS.copyGeom b k)
      | _ => false) ∧
    (let s := after (copying 0x2000000000000100 0x10000 0) (.cpa plain { cpaF with ops := { cpaF.ops with b := im 0 } })
     HasOp s fun b o => match o.kind with
      | .copy k => s.earlierDone b o.strand o.id (oneLane k.lane) .dev && decide (k.steps (s.copyGeom b k) ≤ k.step)
      | _ => false) ∧
    (let s := after (accessing · sAddr) (.barinit plain (barF 0)); HasOp s fun b o => match o.kind with
      | .bar .. => s.barReady b o
      | _ => false) ∧
    (let s := after (accessing · sAddr) (.bartry plain (sf 0 0 .i32 (ops (im 1) (u 2) (im 1) no 0)))
     HasOp s fun b o => match o.kind with
      | .bartry .. => s.barReady b o
      | _ => false) ∧
    HasOp prefS (fun b o => match o.kind with
      | .pref true (some _) => prefS.answers b o
      | _ => false) ∧
    HasOp (after (copying 0x9999990000 0 0) (.pref plain (mc 0 .raw32 dOps))) (fun _ o => match o.kind with
      | .pref false none => true
      | _ => false) ∧
    (let s := after (copying 0x10000 0 0) (.codeinv plain (mc 0 .raw32 dOps)); HasOp s fun b o => match o.kind with
      | .codeinv _ => s.answers b o
      | _ => false) ∧
    (let s := after (copying 0x10000 0 0) (.siteclr plain (mc 0 .raw32 dOps)); HasOp s fun b o => match o.kind with
      | .siteclr false [(pa, _)] => !s.mem.locked (lineOf pa) && s.answers b o
      | _ => false) ∧
    HasOp (after (controlling 0) (.trace plain (cf 0 0 0 (cOps (u 2) 7)))) (fun _ o => match o.kind with
      | .trace _ => true
      | _ => false) :=
  ⟨op_of (by decide +kernel), op_of (by decide +kernel), op_of (by decide +kernel), op_of (by decide +kernel),
   op_of (by decide +kernel), op_of (by decide +kernel), op_of (by decide +kernel), op_of (by decide +kernel),
   op_of (by decide +kernel)⟩

def ref0 : FragRef := { blk := 0, strand := 0, lane := 0 }

/-- The fragment of block 0 satisfies `p`. -/
def fragIs (s : State) (p : Block → Frag → Bool) : Bool := (s.fragAt ref0).any fun bf => p bf.1 bf.2

def barHeld : State := after (accessing · sAddr) (.barwait plain (barF 0))
def stgHeld : State := after ringed (.stgwait plain (barF 1))

/-- The fragment of block 0 waits for an object that cannot be read (`bad`), or that can, and is ready or not. -/
def awaits (s : State) (bad ready : Bool) : Bool := fragIs s fun b f =>
  let on := fun (a : W64) (p : BarObj → Bool) => match s.scratchLocs b a 16 with
    | some (l :: _) =>
      let t := s.scanHome (l.span 16)
      t.mem.anyPoison (l.span 16) == bad && p (t.barAt l) == ready
    | _ => false
  match f.hold with
  | .barwait a ph _ => on a fun o => o.done ph.toNat
  | .stgwait a ph inv _ => on a fun o => ((o.phase % 2 == 1) != ph) != inv
  | _ => false

theorem test_hyps_WaitsRelease :
    awaits barHeld false false = true ∧ awaits (spadIs [(44, 4)] [] barHeld) false true = true ∧
    awaits (spadIs [] [4] barHeld) true false = true ∧
    awaits stgHeld false true = true ∧ awaits (spadIs [(32, 2), (65580, 1)] [] stgHeld) false false = true ∧
    awaits (spadIs [(32, 2)] [8196] stgHeld) true true = true ∧
    (let s := after (accessing · sAddr) (.fence plain (sf 0 3 .i32 (ops no no no no 0))); fragIs s fun b f => match f.hold with
      | .fence ws => ws.all fun w => s.fenceDone b 0 w
      | _ => false) = true := by decide +kernel

theorem test_hyps_BarrierPhases :
    let o : BarObj := { phase := 2 ^ 32 - 1, curb := 0, expb := 0, cura := 65535, expa := 65535 }
    o.phase < 2 ^ 32 ∧ o.curb < 2 ^ 32 ∧ o.expb < 2 ^ 32 ∧ o.cura < 2 ^ 16 ∧ o.expa < 2 ^ 16 := by decide +kernel

def addI : Instr := .iadd plain (af 0 .i32 .i32 false (ops (v 2) (v 4) (v 6) no 0))
def addS : State := { after (issuing · id id) addI with cycle := 10 }
def laterW : InstrWord := 0xF1070000_00000000_00000000_00000000#128

/-- A state whose issuing word is `w`. -/
def word (w : InstrWord) : State :=
  { State.reset with nextId := 1, blocks := [loadBlock State.reset w], cur := some { ref := ref0, word := w } }
def emulS : State := nextOf (exec (.laterLevelOpcode laterW) (word laterW)) State.reset
def emul0 : EmulEffect :=
  { vregs := [(2, 0, 7)], preds := [], disp := [], toks := [], uregs := [], fmode := none, mem := [], pc := none, trap := none }
def site0 : SiteReq := { id := 3, pa := 0x10000, expected := 0, new := 0x107#128, widening := false, via := page 0x10000, stage := .waiting }
def siteS : State := { State.reset with cores := [(0, { Core.reset with siteReqs := [site0, { site0 with id := 4, expected := 1 }] })] }
def pendS : State := issuing addI id fun b => { b with strands := b.strands.map fun st =>
  { st with frags := st.frags.map fun f => { f with pend := [{ trap := Trap.of .ecc 1 0x40 0, pc := 0x10000, engine := true, now := false }] } } }

theorem test_hyps_IssueSteps_fragments :
    (let s := State.reset.withFetchWord 128 0x07070000000000000000000000000000
     fragIs s fun b f => match va56 f.pc with
      | some va => (s.core b.core).tile.inPlay && (s.translate (some b.quadId) b.ten b.pasid va .fetch).any fun t =>
        s.reached b (Ask.of 0 false false (t.pa va))
      | none => false) = true ∧
    (let s := { State.reset.withFetchWord 128 0x07070000000000000000000000000000 with mem := State.reset.mem }
     fragIs s fun b f => match va56 f.pc with
      | some va => (s.core b.core).tile.inPlay && s.ready b 0 f && f.pend.isEmpty &&
        s.translate (some b.quadId) b.ten b.pasid va .fetch == none
      | none => false) = true ∧
    (match addS.block 0 with
      | some b => (b.strand 0).pendw.any fun p =>
        ((b.strand 0).pendw.find? fun q => q.id == p.id) == some p && decide (p.due ≤ addS.cycle) &&
          p.writes.all (addS.slotWriteReady b 0 p.id)
      | none => false) = true ∧
    (let s := { after (issuing · id id) (.iadd { plain with stall := 4 } (af 0 .i32 .i32 false (ops (v 2) (v 4) (v 6) no 0))) with cycle := 4 }
     fragIs s fun _ f => f.stall.any fun t => decide (t ≤ s.cycle)) = true ∧
    (let s := { after (controlling 0) (.nap plain (cf 0 0 0 (cOps (im 5) 0))) with cycle := 5 }
     fragIs s fun _ f => f.nap.any fun t => decide (t ≤ s.cycle)) = true ∧
    (fragIs pendS fun b f => !f.pend.isEmpty && pendS.trapDue b 0 f) = true := by decide +kernel

theorem test_hyps_IssueSteps_words :
    ((word 0).ctx (Ctl.ofWord 0)).any (fun x => Ctx.canTake (word 0) x) = true ∧
    ((word laterW).ctx (Ctl.ofWord laterW)).any (fun x => Ctx.canTake (word laterW) x && x.blk.strandIdle x.sid &&
      (word laterW).earlierDone x.blk x.sid (word laterW).nextId x.fr.lanes .dev) = true ∧
    (fragIs emulS fun _ f => f.hold == .emul laterW) = true ∧ sheetHandler emulS.caller.sheet 0xF1 = false ∧
    sheetHandler { bytes := [], version := 0, entries := [], emul := zeros 16 ++ [1] } 0xF1 = true ∧
    (siteS.core 0).siteReqs.find? (fun r => r.id == 3) = some site0 ∧ siteS.mem.wordAt 0x10000 = site0.expected ∧
    siteS.mem.wordAt 0x10000 ≠ 1 ∧ siteS.mem.locked (lineOf 0x10000) = false ∧ siteS.siteArrived site0 = true ∧
    (fragIs emulS fun b f => (emulTrap emul0 b f (emulS.emulActive ref0 laterW) laterW emulS).isNone &&
      (emulTrap { emul0 with trap := some (4, 1, 0, 0) } b f (emulS.emulActive ref0 laterW) laterW emulS).isSome) = true := by decide +kernel

def mzI : Instr := .mzero plain (eF 0 .raw32 (im 1) no no 0)
def addF : TFmt := { mstF with add := true }

/-- A state with register 1 declared, a descriptor at the scratchpad address, and a page of FP32. -/
def enginePlus (i : Instr) : State :=
  let s := engaged i
  { s with mem := { s.mem with spad := [(34, 1), (40, 1), (44, 1), (32800, 16), (32804, 16), (32808, 0x0A)], tlb1 := [(0, { page 0x10000 with fmt := 0x0A })] } }

def headIs (s : State) (p : Block → EngOp → Bool) : Bool :=
  match s.block 0 with
  | some b => match b.engine.queue with
    | o :: _ => p b o
    | [] => false
  | none => false

def lockS : State := after enginePlus (.accst plain addF)

theorem test_hyps_EngineSteps :
    (let s := after engaged mzI; headIs s fun b o =>
      (s.core b.core).tile.inPlay && o.miter?.isNone && (s.needsLocks b o.cap).isNone && s.engReady b o) = true ∧
    (let s := after engaged (.miter plain mitF); headIs s fun b o => (s.core b.core).tile.inPlay && o.miter?.isSome && (!b.mode.isDebug || b.fatal.isSome)) = true ∧
    (headIs lockS fun b o => match lockS.needsLocks b o.cap with
      | some f => match lockS.toLock b o f with
        | .ok (l :: _) => lockS.mayLock b o l
        | _ => false
      | none => false) = true ∧
    (let s := { lockS with mem := { lockS.mem with locks := [(lineOf 0x10000, 0)] } }
     headIs s fun b o => match s.needsLocks b o.cap with
      | some f => match s.toLock b o f with
        | .ok [] => true
        | _ => false
      | none => false) = true := by decide +kernel

theorem test_hyps_TilesAndPlanes :
    (let s := after engaged mzI
     headIs s fun b o => (s.block b.uid == some b) && b.eng.isSome && s.mem.errs.isEmpty && o.cap.instr == mzI) = true ∧
    (let i := Instr.pswap plain (eF 0 .raw32 no no no 0)
     let s := after engaged i
     headIs s fun b o => (s.block b.uid == some b) && b.eng.isSome && s.mem.errs.isEmpty && o.cap.instr == i) = true := by
  decide +kernel

/-! ### Hypotheses that can be met: the outside, the fabric, the memories -/

theorem test_hyps_CrossLaneValues :
    let f := fun (sub : BitVec 4) => af sub .b32 .i32 false (ops (v 2) (v 4) (im 3) (v 8) 0)
    let i := Instr.shfl plain (f 0)
    ((issuing i id id).ctx plain).any (fun x => decide
      ((issuing i id id).op32 x (f 0).ops.b 0 5 = 3 ∧ 3 ≤ 5 ∧ ¬5 < 3 ∧ 2 < 3 ∧
        64 ≤ (issuing i id id).op32 x (im 0x1F0) 0 5) && x.active.getLsbD 2) = true ∧
    Ty.u64 ∈ [Ty.i32, Ty.u32, Ty.i64, Ty.u64, Ty.b32, Ty.b64] ∧ (7#64).toNat < 2 ^ Ty.u64.bits ∧
    (FF.f32.val 0x3F800000).isNan = false ∧ (FF.f32.val 0x3F800000).isInf = false ∧ (FF.f32.val 0x3F800000).toRat ≠ 0 ∧
    (FF.f32.val 0x7FC00000).isNan = true := by decide +kernel

theorem test_hyps_AtomicValues : (0xFFFFFFFF : Nat) < 2 ^ Ty.u32.bits ∧ (2 ^ 64 - 1 : Nat) < 2 ^ Ty.i64.bits ∧
    FF.f32.val 0x3F800000 = .fin false 1 ∧ FF.f32.val 0xBF800000 = .fin true 1 ∧ FF.f32.val 0x7F800000 = .inf false ∧
    FF.f32.val 0xFF800000 = .inf true ∧ (FF.f64.val 0x7FF8000000000000).isNan = true := by decide +kernel

theorem test_hyps_OutsideSteps :
    2 ^ 39 < 2 ^ 39 + reqBytes (.read 8) ∧ (0x10000 + reqBytes (.write [1, 2]) ≤ 2 ^ 39) ∧
    State.reset.requestWaits 0x10000 (.write [1, 2]) = false ∧ paSpace (2 ^ 52) = 1 ∧ State.reset.mgmt.booted = true ∧
    ({ State.reset.mgmt with boot := 1 } : Mgmt).booted = false ∧
    ({ State.reset.mem with hostLines := [(lineOf (2 ^ 52), true)] } : MemSys).hostLines.find (lineOf (2 ^ 52)) = some true ∧
    tenantWord 0x5000000000000000 0x50 = true ∧ State.reset.mgmt.leaf + State.reset.mgmt.unbegun < 2 ^ 20 ∧
    ({ Mgmt.reset with attest := [(0, some 0, [])] } : Mgmt).attest = (0, some 0, []) :: [] := by decide +kernel

def flr3 : State := { State.reset with caller := { State.reset.caller with flrs := [3] } }

theorem test_hyps_Resets : (3 : Nat) ≠ 0 ∧ State.reset.caller.flrs.contains 3 = false ∧ flr3.caller.flrs.contains 3 = true ∧
    flr3.tenantQuiet 3 = true ∧ ({ flr3 with blocks := [{ loadBlock State.reset 0 with ten := 3 }] } : State).tenantQuiet 3 = false := by decide +kernel

/-- A load whose line has its home in another die: a page of device memory in stack 4. -/
def farS : State := after (fun i =>
  let s := accessing i gAddr
  { s with mem := { s.mem with tlb1 := [(0, { page 0x10000 with pbase := 2 ^ 38 + 0x10000 })] } }) (.ldg plain (ma 0 .raw32 ldOps))
def farOp : Nat × Nat := (0, 1)
def sentS : State := nextOf (exec (.flitInject 0 (.tenant 0) 0 1) farS) State.reset
def twoTenants : HostIf :=
  { State.reset.host with quota := [(0, { QEntry.zero with enable := true }), (1, { QEntry.zero with enable := true })] }

theorem test_hyps_FabricSteps_requests :
    HasOp farS (fun b o => (farS.tile 0).inPlay && farS.slotAllows (.tenant 0) && b.core == 0 && farS.wantsInject b o &&
      !farS.calendarMode && farS.mayInject 0 b.ten false && !farS.linkIsDown (crossing 0 (o.targetPa.getD 0))) ∧
    HasOp sentS (fun b o => o.underWay && crossing b.core (o.targetPa.getD 0) == some (0, 2) && (sentS.opIn 0 1).isSome &&
      (sentS.fab.replays.find? (fun r => r.1 == 0 && r.2.1 == 1)).isNone) :=
  ⟨op_of (by decide +kernel), op_of (by decide +kernel)⟩

/-- The access at the head of a slice, or of a port, satisfies `p`. -/
def headPa (s : State) (slice : Nat) (p : Nat → Op → Bool) : Bool :=
  (s.headAt slice).any fun bo => p (bo.2.targetPa.getD 0) bo.2

/-- The load sent, once it has come to its slice; a store there; the load where its slice holds the line; at the memory port; a
load of the host's memory. -/
def cameS : State := { sentS with cycle := sentS.cycle + 512 }
def farTo (pa : Nat) (i : Instr) : State :=
  let s := after (fun i =>
    let s := accessing i gAddr
    { s with mem := { s.mem with tlb1 := [(0, { page 0x10000 with pbase := pa })] } }) i
  let t := nextOf (exec (.flitInject 0 (.tenant 0) 0 1) s) s
  { t with cycle := t.cycle + 512 }
def storeS : State := farTo (2 ^ 38 + 0x10000) (.stg plain (ma 0 .raw32 stOps))
def heldS : State := { cameS with mem := { cameS.mem with held := [(80, lineOf (2 ^ 38 + 0x10000))] } }
def portS : State := nextOf (exec (.requestAccept 80) cameS) cameS
def hostS : State := farTo (2 ^ 52 + 0x10000) (.ldg plain (ma 0 .raw32 ldOps))

theorem test_hyps_FabricSteps_accepts :
    headPa cameS 80 (fun pa o => isHbm pa && !o.kind.isWrite && !cameS.mem.served 80 (lineOf pa)) = true ∧
    headPa storeS 80 (fun pa o => paSpace pa != 1 && o.kind.isWrite) = true ∧
    headPa heldS 80 (fun pa o => paSpace pa != 1 && !o.kind.isWrite && heldS.mem.served 80 (lineOf pa)) = true ∧
    (portS.headAtPort (portOf (2 ^ 38 + 0x10000))).isSome = true ∧
    headPa hostS 16 (fun pa _ => paSpace pa == 1) = true := by decide +kernel

/-- Two tenants are enabled, so that a calendar is kept, and its slot 0 is the first one's: a fetch asks for its line, and the resolver
for the word of a site. -/
def askS : State :=
  let s := State.reset.withFetchWord 128 0x07070000000000000000000000000000
  { s with host := twoTenants, fab := { s.fab with table := [(0, 0)] }, cores := [(0, { Core.reset with siteReqs := [{ site0 with id := 7 }] })] }

theorem test_hyps_FabricSteps_asks :
    askS.slotAllows (.tenant 0) = true ∧ (askS.tile 0).inPlay = true ∧ askS.calendarMode = true ∧ askS.mayInject 0 0 false = true ∧
    (askS.opOf 0 askS.nextId).isNone = true ∧
    (askS.block 0).any (fun b => b.core == 0 && b.ten == 0 && (askS.nextAsk b).any fun a =>
      askS.mayInject 0 b.ten a.goesOn && !askS.linkIsDown (crossing 0 a.pa)) = true ∧
    (askS.opOf 9 7).isNone = true ∧ (askS.block 9).isNone = true ∧
    (askS.core 0).siteReqs.find? (fun r => r.id == 7 && r.stage == .waiting) = some { site0 with id := 7 } ∧
    askS.linkIsDown (crossing 0 site0.pa) = false ∧
    (let s := { State.reset with mem := { State.reset.mem with wbq := [(16, [lineOf 0x10000])] } }
     s.headAtPort (portOf 0x10000) = none ∧ s.mem.wbFor (portOf 0x10000) = some 16) := by decide +kernel

theorem test_hyps_FabricSteps_slots :
    (let s := { State.reset with host := twoTenants }
     (s.tile 0).inPlay = true ∧ s.slotAllows (.tenant 0) = false) ∧
    State.reset.headAt 80 = none ∧ State.reset.slotAllows .service = true ∧ State.reset.cycle % Config.period = 0 ∧
    (let s := { sentS with fab := { sentS.fab with replays := [(0, 1, 0)] } }
     s.fab.replays.find? (fun r => r.1 == 0 && r.2.1 == 1) = some (0, 1, 0) ∧ 0 ≤ s.cycle) ∧
    ({ State.reset.mem with l1 := [{ quad := 0, line := 512, owned := false, words := [(0, 7, true)] }] } : MemSys).wantsGrant 0 512
      = true := by decide +kernel

/-- An L1 line with a dirty word that its quadrant owns. -/
def dirtyM : MemSys := { State.reset.mem with l1 := [{ quad := 0, line := 512, owned := true, words := [(0, 7, true)] }] }

theorem test_hyps_LinesLeaveL1 : dirtyM.wf = true ∧ dirtyM.errs = [] ∧ dirtyM.cut = [] ∧ (∀ l ∈ dirtyM.l1, l.hasDirty = true → l.owned = true) ∧
    (∃ l ∈ dirtyM.l1, l.quad / 4 = 0 ∧ sliceOf (l.line * lineBytes) = 16 ∧ l.owned = true) := by decide +kernel

/-- Region 0 of stack 0 is under scrub. -/
def scrubM : MemSys := { State.reset.mem with scrubs := [{ stack := 0, region := 0, wm := [(16, 16384)], touched := [] }] }

theorem test_hyps_MemoryReadsBack : State.reset.mem.wf = true ∧ State.reset.mem.scrubs = [] ∧ scrubM.wf = true ∧
    scrubM.scrubbed 0x10000 = true ∧ lineOf 0x10004 = lineOf 0x10000 ∧ isHbm 0x10000 = true := by decide +kernel

/-- Tables that map the first GB to itself with every right, dirty in their slice, and a quota entry. -/
def tables : SMap Byte :=
  fromAddr 0x20000 (leBytes 8 0x21003) ++ fromAddr 0x21000 (leBytes 8 0x22003) ++ fromAddr 0x22000 (leBytes 8 0x3D)
def entry0 : QEntry :=
  { QEntry.zero with enable := true, stackSet := 0xFF, nq := 1, qlist := 0x30000, quads := BitVec.allOnes 1024 }

/-- Tenant 0 enabled with one queue, its QCB at 0x31000, and more bytes of memory above the tables. -/
def hosted (m : SMap Byte) : State :=
  { State.reset with
    host := { State.reset.host with quota := [(0, entry0)], pasidctl := 4, pasidCache := [(0, (0x20000, 0, true))] }
    mem := { State.reset.mem with llc := tables, mem := [(0x30001, 0x10), (0x30002, 0x03)] ++ m } }

theorem test_hyps_ArraySteps :
    (let mine := State.reset.mem.scrubs.filter fun sc => sc.stack == 0
     mine.length < 16 ∧ mine.any (fun sc => sc.region == 0) = false) ∧
    (scrubM.scrubs.filter fun sc => sc.stack == 0).any (fun sc => sc.region == (scrubM.scrubReg 0).region) = true ∧
    State.reset.slotAllows .service = true ∧ (scrubM.scrubs.find? (fun q => q.stack == 0 && q.region == 0)).any (fun sc => sc.wm.get 0 16 == 16383 + 1) = true ∧
    spownOk 0xFFFFFFFFFFFFFFFD = false ∧ spownOk (State.reset.core 0).spown = true ∧
    (movedBanks (State.reset.core 0).spown (State.reset.core 0).spown).any (fun b =>
        State.reset.occupied 0 (bankOwner (State.reset.core 0).spown b)) = false ∧
    ({ Core.reset with zeroing := [5] } : Core).zeroing.contains 5 = true ∧
    va56 0x12345 = some 0x12345 ∧ ((hosted []).walk 0 0 0x12345).any (fun x => x.grants .write) = true := by decide +kernel

theorem test_hyps_WatchSteps :
    State.reset.mgmt.booted = true ∧ (State.reset.tile 0).stopped = false ∧ (State.reset.tile 0).state.beats = true ∧
    (∃ d < 8, (recordOf 0 d).isSome = true ∧ (State.reset.tile ((recordOf 0 d).getD 0)).state.beats = true) ∧
    ({ Nbr.reset with seen := true } : Nbr).seen = true ∧ Nbr.reset.seen = false ∧ Nbr.reset.missed + 1 < 3 ∧
    3 ≤ ({ Nbr.reset with missed := 2 } : Nbr).missed + 1 ∧ ownDir ≠ 0 ∧
    (State.reset.tile 5).state = .live ∧ (Vote.retired ∉ [Vote.live, .suspect, .probation]) ∧
    recent (periodOf 100000000) 0 = false ∧ ({ TileVote.reset with state := .out } : TileVote).inPlay = false ∧
    NackKind.grant ≠ NackKind.sharedInvalidation ∧ fabricCmd 0x3005000000000000 = some 5 := by decide +kernel

theorem test_hyps_WatchSteps_votes :
    (let s := { State.reset with cores := [(5, { Core.reset with tile := { TileVote.reset with state := .selftest } })],
                                 cycle := Config.selfTestCycles }
     (s.tile 5).state = .selftest ∧ (s.tile 5).since + Config.selfTestCycles ≤ s.cycle) ∧
    (let s := { State.reset with cores := [(5, { Core.reset with tile := { TileVote.reset with state := .probation } })] }
     fabricCmd 0x3005000000000000 = some 5 ∧ (s.tile 5).state = .probation) ∧
    ({ Nbr.reset with susp := true } : Nbr).susp = true ∧
    (let s := { State.reset with cores := [(5, { Core.reset with tile := { TileVote.reset with state := .out } })] }
     (s.tile 5).inPlay = false ∧ (s.tile 5).state = .out ∧ s.slotAllows .service = true ∧ s.fab.notices = [] ∧
      s.endUpdates.lastWaits 3 5 = false ∧
      ({ s with fab := { s.fab with notices := [(3, 5), (4, 5)] } } : State).fab.notices.any (fun n => n.2 == 5) = true) := by decide +kernel

theorem test_hyps_BeatCrc : (63 : Nat) < 64 ∧ (255 : Nat) < 256 ∧ beatOffset 255 ≤ beatOffset 255 + 5 ∧
    (beatOffset 255 + 5 - beatOffset 255) % Config.period < 64 ∧
    (beatOffset 255 + 5 - beatOffset 255) / Config.period % 256 = State.reset.cycle / Config.period % 256 := by decide +kernel

/-! ### Hypotheses that can be met: the caller, the host -/

/-- Block 0 stands in the mode; tenant 0's QCB gives two save slots at 0x40000 of 64 KiB; its trap descriptor attaches a debugger. -/
def stopping (md : Mode) (f : Block → Block) : State :=
  let s := hosted [(0x3102A, 0x04), (0x31030, 0x40), (0x31034, 0x02), (0x3200B, 0x01)]
  { s with
    nextId := 1, blocks := [f { loadBlock State.reset 0 with mode := md }]
    host := { s.host with quota := [(0, { entry0 with trapdesc := 0x32000 })] } }

def blockIs (s : State) (p : Block → Bool) : Bool := (s.block 0).any p

theorem test_hyps_CallerSteps :
    (∀ md ∈ [Mode.ended, .lost 1, .leaving 2],
      (stopping md id).mayDecide = true ∧ ((stopping md id).blockIn 0 0 0).any (fun b => b.mode == md) = true) ∧
    (let s := { State.reset with caller := { State.reset.caller with slice := some (0, 5) }, cycle := 5 }
     s.caller.slice = some (0, 5) ∧ 5 ≤ s.cycle) ∧ State.reset.caller.slice = none ∧
    (stopping (.lost 1) id).mayDecideN 2 = true ∧ (∀ n ∈ State.reset.fab.notices, n.2 ≠ 5) ∧
    (∃ n ∈ ({ State.reset.fab with notices := [(3, 5)] } : Fabric).notices, n.2 = 5) := by decide +kernel

/-- The record of a stop at the block's first word. -/
def rec0 : TrapRec := trapRecord (loadBlock State.reset 0) 0 { lanes := 0xFF, pc := 0x10000, age := 0, stall := none, nap := none, hold := .free, pend := [] }
  (Trap.of .bkpt 1 0 0) 0x10000 false

/-- The coop phase's end: the only strand has executed SVDONE. -/
def marked (b : Block) : Block := { b with strands := b.strands.map fun st => { st with svdone := some (0x10000, 0xFF) } }

theorem test_hyps_StopSteps_modes :
    (let s := stopping .running id
     blockIs s (fun b => s.mayStop b && s.stopReady 0 && b.mode == .running && b.fatal.isNone && !b.over) = true) ∧
    (let s := stopping (.debug 1) id; blockIs s (fun b => s.mayStop b && s.stopReady 0 && b.mode == .debug 1) = true) ∧
    (let s := stopping .running id
     let t := { s with caller := { s.caller with cfg := { s.caller.cfg with halt := true } } }
     blockIs t (fun b => !t.mayStop b && b.mode == .running && b.fatal.isNone && !b.over) = true) ∧
    (let s := stopping (.parting 0) id; blockIs s (fun b => s.atRest b && b.mode == .parting 0) = true) ∧
    blockIs (stopping (.preempt 0 1 1) id) (fun b => b.coopRests) = true ∧
    (let s := { stopping (.draining 0 1) (fun b => { b with drain := some (0, 1) }) with cycle := 256 * State.reset.caller.cfg.drainlim }
     blockIs s (fun b => b.drain == some (0, 1) && b.fatal.isNone && !b.over && s.mayStop b && s.stopReady 0) = true ∧
      0 + 256 * s.caller.cfg.drainlim ≤ s.cycle) ∧
    (let s := stopping (.coop 0 1 none 1) marked
     blockIs s (fun b => b.allMarked && s.phaseRests b) = true) ∧
    (let s := { stopping (.coop 0 1 (some 7) 1) id with cycle := 7 }
     s.mayForce = true ∧ blockIs s (fun b => !b.allMarked) = true) ∧
    (let s := stopping (.saving 0 none 1) id; blockIs s (fun b => s.atRest b) = true) ∧
    (let s := stopping (.breakpoint none) id; blockIs s (fun b => s.atRest b && (s.slotsFree b.ten b.qnum 1).2) = true) ∧
    (let s := stopping (.stepping 0 0 1 rec0 true false) id; blockIs s (fun b => s.atRest b) = true) := by decide +kernel

def cmdW (op : Nat) : W64 := BitVec.ofNat 64 (op * 2 ^ 56)

theorem test_hyps_StopSteps_stop_kill :
    let s := stopping .running id
    (s.debugBlock (cmdW 0x20) 0x20 false).any (fun b => b.mode.stoppable && b.fatal.isNone && !b.over &&
      (s.slotsFree b.ten b.qnum 1).2) = true ∧
    (s.debugBlock (cmdW 0x23) 0x23 false).any (fun b => b.mode.killable) = true := by decide +kernel

/-- A block with no scratchpad, stopped by the debugger with its image in slot 0. -/
def small : Block :=
  let b := loadBlock State.reset 0
  { b with mode := .debug 0, grant := 0, hdr := { b.hdr with scratch := 0, bframe := 0, cframe := 0 } }
def grid0 : Grid :=
  { ten := 0, qnum := 0, seq := 0, hdr := small.hdr, code := small.code, koff := 0, gx := 2, gy := 1, gz := 1, trav := 0, prio := 0,
    lflags := 0, arg := 0, ltag := 0, cva := 0, ended := 0, status := 0, clost := 0, cstart := 0, again := [] }
def saved0 (slot : Nat) : Saved :=
  { key := 9 + slot, ten := 0, qnum := 0, gseq := 0, idx := 1, slot := slot, first := none, cycles := 0, cluster := 0, pb0 := 0, poolLen := 0,
    marks := [], caps := [], miter := none, copies := [], ended := false, debugAt := none }

/-- The header of a cooperative image of the block, with its CRC, and its table: the strand at 0x10000 with all its lanes
(R326); slot 1 holds no image. -/
def imageBytes : SMap Byte :=
  [(0x40000, 0x58), (0x40001, 0x4D), (0x40002, 0x53), (0x40003, 0x49), (0x40004, 1), (0x40006, 1), (0x40008, 1), (0x40009, 8),
   (0x4000A, 32), (0x4000B, 8), (0x4000C, 4), (0x40012, 1), (0x400FC, 0x59), (0x400FD, 0xDF), (0x400FE, 2), (0x400FF, 0xE4),
   (0x40102, 1), (0x40108, 0xFF), (0x50006, 1)]

/-- Tenant 0 has a block that the debugger has stopped and two that are saved, one of them with no image. -/
def imaged : State :=
  let s := stopping (.debug 0) fun _ => small
  { s with mem := { s.mem with mem := s.mem.mem ++ imageBytes }
           caller := { s.caller with grids := [grid0], saved := [saved0 0, saved0 1] } }

theorem test_image : imageOk small (imaged.slotReader small 0x40000) = true := by decide +kernel

/-- Whether an image is a block's depends on its tenant, header, grant and code alone. -/
theorem imageOk_same (s : State) (b b' : Block) (base : Nat) (ht : b.ten = b'.ten) (hh : b.hdr = b'.hdr) (hg : b.grant = b'.grant)
    (hc : b.code = b'.code) (hk : b.koff = b'.koff) : imageOk b (s.slotReader b base) = imageOk b' (s.slotReader b' base) := by
  unfold imageOk State.slotReader State.spasid
  rw [ht, hh, hg, hc, hk]

theorem test_hyps_StopSteps_resume :
    imaged.debugBlock (cmdW 0x22) 0x22 false = some small ∧ small.mode = .debug 0 ∧ imaged.slotVa 0 0 0 = some 0x40000 ∧
    small.fatal = none ∧ imaged.imageReadable small 0x40000 = true ∧ imageOk small (imaged.slotReader small 0x40000) = true :=
  ⟨by decide +kernel, rfl, by decide +kernel, rfl, by decide +kernel, test_image⟩

/-- The debugger's block has left its quadrant and stands among the saved ones. -/
def awayS : State :=
  { imaged with blocks := [], caller := { imaged.caller with saved := [{ saved0 0 with debugAt := some (0, 0, 0) }] } }

theorem test_hyps_StopSteps_away :
    awayS.debugBlock (cmdW 0x22) 0x22 false = none ∧ (awayS.savedDebug (cmdW 0x22)).isSome = true := by decide +kernel

theorem test_hyps_StopSteps_step :
    imaged.debugBlock (cmdW 0x21) 0x21 true = some small ∧ ((cmdW 0x21).extractLsb' 40 4).toNat < small.hdr.strands ∧
    ((imaged.loadImage small (imaged.debugEntry small 0) 0x40000).stepFrom small 0 0 false 0).isSome = true := by decide +kernel

def back (slot : Nat) : Block := imaged.returning grid0 (saved0 slot) 0 1 0 0

theorem test_hyps_StopSteps_restore :
    (∀ slot ∈ [0, 1], imaged.caller.saved.find? (fun v => v.key == 9 + slot) = some (saved0 slot)) ∧ imaged.gridOf 0 0 0 = some grid0 ∧
    imaged.fitsOn 0 grid0.hdr 1 = true ∧ (∀ x ∈ imaged.blocks, x.cluster = (saved0 0).cluster → x.core = 0 ∧ x.quad ≠ 1) ∧ imaged.freeSlot 0 1 = some 0 ∧ imaged.windowOn 0 1 grid0.hdr.grant = some 0 ∧
    imaged.slotVa 0 0 0 = some 0x40000 ∧ imaged.slotVa 0 0 1 = some 0x50000 ∧
    imaged.imageReadable (back 0) 0x40000 = true ∧ imaged.imageReadable (back 1) 0x50000 = true ∧
    imageOk (back 1) (imaged.slotReader (back 1) 0x50000) = false := by decide +kernel

theorem test_hyps_StopSteps_restore_image : imageOk (back 0) (imaged.slotReader (back 0) 0x40000) = true :=
  (imageOk_same imaged (back 0) small 0x40000 (by decide +kernel) (by decide +kernel) (by decide +kernel) (by decide +kernel)
    (by decide +kernel)).trans test_image

def deciding (c : Caller → Caller) : State :=
  let s := hosted [(0x3100A, 0x01)]
  { s with
    caller := c s.caller
    host := { s.host with quota := [(0, { entry0 with quads := 0xF, ppool := 0x100000, ppoolmb := 16 })] } }

def bigGrid : Grid := { grid0 with hdr := { grid0.hdr with scratch := 300, osc := 0 } }
def serving (g : Grid) : State := deciding fun c => { c with grids := [g] }

def spawnS : State := after (controlling 0x10000) (.spawn plain spawnF)
def endS : State := after (controlling 0) (.exit plain (cf 0 0 0 (cOps no 0)))
def deadS : State := after (controlling 0) (.trap plain (cf 0 0 0 (cOps no 1)))

/-- The queue's ring is not mapped, and its tail has moved. -/
def rungS : State :=
  let s := hosted [(0x31004, 0x01), (0x3100A, 0x01), (0x31010, 0x01)]
  { s with caller := { s.caller with doorbells := [(0, 0)] } }

theorem test_hyps_DecisionSteps_queues :
    (rungS.mayDecide = true ∧ rungS.brokenQueue = none ∧ rungS.caller.doorbells = (0, 0) :: [] ∧ (match rungS.examine 0 0 with
      | .did _ => true
      | .nothing => false) = true) ∧
    (match State.reset.examine 0 0 with
      | .did _ => false
      | .nothing => true) = true ∧
    ((serving grid0).mayDecide = true ∧ (serving grid0).brokenQueue = none ∧ (serving grid0).caller.doorbells = [] ∧
      ((serving grid0).chooseQueue (serving grid0).eligible).any (fun e =>
        (serving grid0).logsWork e) = true) ∧
    ({ serving grid0 with mem := { (serving grid0).mem with poison := [0x31000 / 8] } } : State).brokenQueue = some (0, 0) := by decide +kernel

theorem test_hyps_DecisionSteps_banks :
    (serving bigGrid).chooseQueue (serving bigGrid).eligible = none ∧ (serving bigGrid).wantsBanks.isSome = true := by decide +kernel

theorem test_hyps_DecisionSteps_ends :
    HasOp spawnS (fun b o => match o.kind with
      | .spawn _ ((L, _, _) :: _) _ => spawnS.earlierDone b o.strand o.id (oneLane L) .dev && spawnS.mayDecide
      | _ => false) ∧
    blockIs endS (fun b => b.fatal.isNone && b.mode.canEnd && b.over && b.noMark && endS.allDone b) = true ∧
    blockIs deadS (fun b => b.fatal.isSome && b.mode.killable && deadS.allDone b) = true :=
  ⟨op_of (by decide +kernel), by decide +kernel, by decide +kernel⟩

def noImage : SheetImage := { bytes := [], version := 0 }

theorem test_hyps_CommandSteps :
    cmdOp (cmdW 0x42) = 0x42 ∧ (cmdW 0x42).extractLsb' 0 43 = 0 ∧ (hosted []).hasQueue 0 0 = true ∧ (hosted []).qget 0 0 qQSTATE ≠ 2 ∧
    tenantWord (cmdW 0x40) 0x40 = true ∧ State.reset.caller.vfstops.contains 0 = false ∧
    ({ State.reset.caller with vfstops := [0] } : Caller).vfstops.contains 0 = true ∧ State.reset.tenantQuiet 0 = true ∧
    tenantWord (cmdW 0x41) 0x41 = true ∧ State.reset.caller.loading = none ∧
    ({ State.reset.caller with loading := some (noImage, false) } : Caller).loading = some (noImage, false) ∧
    State.reset.blocks.any Block.busyWithCaller = false := by decide +kernel

/-- A quota table whose tenant 0 is enabled with a reserved field set. -/
def badQuota : State := { State.reset with mem := { State.reset.mem with mem := [(0, 1), (250, 1)] } }

theorem test_hyps_RegisterSteps_ports :
    0x20000 ≤ 0x20000 + 16 * 5 + 12 ∧ (5 : Nat) < 2048 ∧ ({ State.reset.mgmt with boot := 1 } : Mgmt).booted = false ∧
    State.reset.host.link0 = true ∧ (0 : Nat) = 0 ∧ (8 : Nat) < 256 ∧ State.reset.mgmt.booted = true ∧ 0x40 % 8 = 0 ∧ (0 : Nat) < 1024 ∧
    ((hosted []).pasidEntry 0 = some (0x20000, 0, true) ∧ (hosted []).hasQueue 0 0 = true ∧ (hosted []).hasQueue 0 1 = false) ∧
    (let s := { State.reset with host := { State.reset.host with pasidctl := 4, pasidCache := [(0, (0, 1, true)), (1, (0, 1, false))] } }
     s.pasidEntry 0 = some (0, 1, true) ∧ s.pasidEntry 1 = some (0, 1, false)) ∧ (zeros 64).length = 64 := by decide +kernel

theorem test_hyps_RegisterSteps_quota :
    State.reset.host.quotaNext = none ∧ quotaOk (readQuota State.reset) = true ∧ quotaOk (readQuota badQuota) = false ∧
    State.reset.departing = [] ∧ State.reset.fab.table ≠ buildCalendar [] ∧ State.reset.fab.pending ≠ some (buildCalendar []) := by
  decide +kernel

/-- Any table can be in force, the one that the new quota builds among them. -/
theorem test_hyps_RegisterSteps_any_calendar (m : SMap Byte) :
    ({ State.reset with fab := { State.reset.fab with table := m } } : State).fab.table = m := rfl

theorem test_hyps_RegisterSteps_tables :
    tableOk State.reset.fab.shadow (enabledTenants State.reset.host.quota) = false ∧
    slotOf State.reset.cycle = 0 ∧ ({ State.reset.fab with pending := some [] } : Fabric).pending = some [] ∧
    ((State.reset.inv 0).busy = false ∧ State.reset.invForeign 0 (State.reset.inv 0) = false ∧
      State.reset.invWaits { State.reset.inv 0 with busy := true } 0 = false) ∧
    (let s := { hosted [] with host := { (hosted []).host with quota := [(0, { entry0 with logon := true, dlog := 0x33000 })] } }
     (s.quota 0).enable = true ∧ (s.quota 0).logon = true ∧ s.dlogFree 0 ≤ 1024 ∧ bitN (s.dlogNum 0 9 1) 1 = false ∧
      s.host.low.contains 0 = false) := by decide +kernel

/-! ### Hypotheses that can be met: words, the step, traps -/

theorem test_hyps_EncodeDecode : addI.wf = true ∧ (encode addI).isSome = true := by decide +kernel

theorem test_hyps_DecodeEncode : (decode 0x10070000_00200400_60000000_00000000#128).toOption = some addI := by decide +kernel

theorem test_hyps_WordFates :
    (let opc := fun (w : InstrWord) => (w.extractLsb' 120 8).toNat
     opc 0 = 0 ∧ opc (BitVec.allOnes 128) = 0xFF ∧ 0xF0 ≤ opc laterW ∧ opc laterW ≤ 0xFE ∧
     opc 0x10070001_00000000_00000000_00000000#128 < 0xF0 ∧
     (0x10070001_00000000_00000000_00000000#128).extractLsb' 96 3 ≠ 0) := by decide +kernel

/-- The state in which the next step fetches and runs an IADD, and the same with the word fetched. -/
def readyS : State := State.reset.withFetchWord 128 0x10070000_00200400_60000000_00000000
def fetchedS : State := nextOf (exec (.instructionFetch ref0) readyS) readyS

theorem test_hyps_StepRunsDecoded :
    readyS.agenda = [] ∧ readyS.dueResult = none ∧
    readyS.pickIssue.any (fun p => p.ref == ref0 && p.frag.pend.isEmpty && (p.blk.strand p.sid).wordAt p.frag.pc == none) = true ∧
    isNext (exec (.instructionFetch ref0) readyS) = true ∧
    ((fetchedS.strand 0 0).wordAt (BitVec.ofNat 64 loadVa)).any (fun w => (decode w).toOption == some addI) = true ∧
    fetchedS.pickIssue.any (fun p => (p.blk.strand p.sid).wordAt p.frag.pc != none) = true ∧
    ({ State.reset with agenda := [Instr.csReset] } : State).agenda = .csReset :: [] ∧
    (pendS.pickIssue.any fun p => !p.frag.pend.isEmpty) = true ∧
    State.reset.pickIssue = none ∧ addS.dueResult.isSome = true := by decide +kernel

/-- QSX on a block of 8 lanes. -/
def narrowI : Instr := .qsx plain (af 1 .b32 .f32 false (ops (v 2) (v 4) no no 0))

theorem test_hyps_IssueChecks :
    addI.ctl = some plain ∧
    (((issuing narrowI id id).ctx plain).any fun x => x.canIssue narrowI (issuing narrowI id id) && !narrowI.illegal x &&
      ownIllegal narrowI (issuing narrowI id id) x) = true ∧
    ((pendS.ctx plain).any fun x => !x.canIssue addI pendS) = true ∧
    (let i := Instr.iadd plain (af 9 .i32 .i32 false (ops (v 2) (v 4) (v 6) no 0))
     ((issuing i id id).ctx plain).any fun x => x.canIssue i (issuing i id id) && i.illegal x) = true ∧
    (((issuing mzI id id).ctx plain).any fun x => x.canIssue mzI (issuing mzI id id) && !mzI.illegal x && mzI.roleOk x.st.role) = true ∧
    (let s := issuing mzI id fun b => { b with strands := b.strands.map fun st => { st with role := .A } }
     (s.ctx plain).any fun x => x.canIssue mzI s && !mzI.illegal x && !ownIllegal mzI s x && !mzI.roleOk x.st.role) = true := by
  decide +kernel

theorem test_hyps_FormatAFrame : formatA addI = true ∧ addI.ctl = some plain ∧
    Met addI (entryA addI) plain (fun s x => s.mem.errs = [] ∧ s.mem.fwd = [] ∧ ∀ g ∈ x.st.frags, g.pc = x.fr.pc + 16 → g.hold = .free) ∧ isNext (exec addI (issuing addI id id)) = true :=
  ⟨by decide +kernel, rfl, met_at (issuing · id id) (by decide +kernel), by decide +kernel⟩

theorem test_hyps_WritebackFrame :
    (match addS.block 0 with
      | some b => (b.strand 0).pendw.any fun p =>
        ((b.strand 0).pendw.find? fun q => q.id == p.id) == some p && decide (p.due ≤ addS.cycle) &&
          p.writes.all (addS.slotWriteReady b 0 p.id) && (p.writes.filter fun w => w.tgt == .vreg 2 5) == [.vreg 2 5 0] &&
          (p.writes.all fun w => match w with
            | .vreg _ L _ => decide (L < 64)
            | _ => true) && isNext (exec (.resultWriteback 0 0 p.id) addS)
      | none => false) = true ∧ addS.mem.errs = [] := by decide +kernel

theorem test_hyps_PredicateSeven :
    Met (.iadd idle (af 0 .i32 .i32 false (ops (v 2) (v 4) (v 6) no 0))) Entry.plain idle (fun _ _ => idle.guard = 15) :=
  met_at (issuing · id id) (by decide +kernel)

/-- A handler at 0x20000 for every cause stands in tenant 0's trap descriptor. -/
def handled (i : Instr) : State :=
  let s := hosted [(0x32002, 0x02), (0x32008, 0xFF), (0x32009, 0xFF)]
  { issuing i id id with
    mem := s.mem, host := { s.host with quota := [(0, { entry0 with trapdesc := 0x32000 })] } }

/-- A debugger is attached to tenant 0. -/
def attached (i : Instr) : State :=
  let s := hosted [(0x3200B, 0x01)]
  { issuing i id id with
    mem := s.mem, host := { s.host with quota := [(0, { entry0 with trapdesc := 0x32000 })] } }

/-- What becomes of a trap of block 0's fragment, after its record is written. -/
def deliveryOf (s : State) (c : Cause) : Option Delivery :=
  match s.block 0 with
  | some b => (b.strand 0).frags.head?.map fun f =>
    let r := trapRecord b 0 f (Trap.of c 1 0 0) f.pc false
    ((s.putRecord b (b.trapVa 0 + 64 * lowest f.lanes) r.bytes).spendIssue b).delivery b 0 f c
  | none => none

theorem test_hyps_TrapDelivery :
    deliveryOf (handled addI) .trap = some (.handler 0x20000) ∧ deliveryOf (issuing addI id id) .trap = some .fatal ∧
    deliveryOf (issuing addI id id) .bkpt = some .skip ∧ deliveryOf (attached addI) .bkpt = some .debug := by decide +kernel

theorem test_hyps_TrapRecordLayout : (255 : Nat) < 256 ∧ (3 : Nat) < 4 ∧ (31 : Nat) < 32 ∧ (65535 : Nat) < 65536 := by decide

theorem test_hyps_MemoriesStaySound : readyS.memWf = true ∧ isNext (step readyS) = true := by decide +kernel

/-! ### Ill-formed terms are refused, one kind of rule each -/

def binOps : Ops := ops (v 2) (v 4) (v 6) no 0
def fmodI (imm : W32) : Instr := .fadd plain (af 0 .f32 .i32 true (ops (v 2) (v 4) (v 6) no imm))

theorem test_wf_accepts : addI.wf = true ∧ (fmodI 0x20000000).wf = true ∧ ldsI.wf = true ∧ mzI.wf = true := by decide +kernel

theorem test_wf_refuses_sub_and_type :
    (∀ i ∈ [Instr.iadd plain (af 2 .i32 .i32 false binOps), .iadd plain (af 0 .f32 .i32 false binOps),
      .land plain (af 0 .i32 .i32 false binOps), .iadd plain (af 0 .i32 .u32 false binOps),
      .icmp plain (af 6 .i32 .i32 false (ops (im 1) (v 4) (v 6) no 0)), .atomg plain (mb 11 .u32 false (ops (v 4) (u 2) (v 6) no 0)),
      .atomg plain (mb 0 .b32 false (ops (v 4) (u 2) (v 6) no 0)), .lds plain (ma 2 .fp32 ldOps), .ldg plain (ma 1 .raw32 ldOps)],
      i.wf = false) := by decide +kernel

theorem test_wf_refuses_modifiers :
    (∀ i ∈ [fmodI 0xC0000000, fmodI 0x00000001, .iadd plain (af 0 .i32 .i32 true (ops (v 2) (v 4) (v 6) no 0)),
      .fclass plain (af 0 .f32 .i32 true (ops (v 2) (v 4) no no 0)), fmodI 0x00400000], i.wf = false) := by decide +kernel

theorem test_wf_refuses_operands :
    (∀ i ∈ [Instr.iadd plain (af 0 .i64 .i32 false (ops (v 3) (v 4) (v 6) no 0)), .iadd plain (af 0 .i32 .i32 false (ops (v 2) (v 4) (v 6) (v 1) 0)),
      .iadd plain (af 0 .i32 .i32 false (ops (im 1) (v 4) (v 6) no 0)), .iadd plain (af 0 .i32 .i32 false (ops (v 2) .immWord .immWord no 5)),
      .iadd plain (af 0 .i32 .i32 false (ops (v 2) (v 4) (v 6) no 5)), .iadd plain (af 0 .i32 .i32 false (ops (u 2) (v 4) (v 6) no 0)),
      .icmp plain (af 0 .i32 .i32 false (ops (im 8) (v 4) (v 6) no 0)), .bcast plain (af 0 .b32 .i32 false (ops (v 2) (v 4) (v 3) (v 8) 0)),
      .mzero plain (eF 0 .raw32 (im 4) no no 0)], i.wf = false) := by decide +kernel

theorem test_wf_refuses_control :
    (∀ i ∈ [Instr.iadd { plain with sett := 5 } (af 0 .i32 .i32 false binOps), .iadd { plain with q := true } (af 0 .i32 .i32 false binOps),
      .iadd { plain with flips := 1 } (af 0 .i32 .i32 false binOps), .lda { plain with q := true } (ma 0 .raw32 ldOps),
      .ldg { plain with pin := true } (ma 0 .raw32 ldOps), .bra plain (cf 0 0 0 (cOps .immWord 8)), .nop plain (cf 0 0 1 (cOps no 0)),
      .call plain (cf 0 2 0 (ops (v 4) .immWord no no 0x10)), .trap plain (cf 0 0 0 (cOps no 0x10000)),
      .srd plain (cf 0 0 0x13 (ops (v 4) no no no 0)), .cpt plain (mc 0 .fp32 (ops (u 2) (u 4) (u 6) no 0x00000001)),
      .miter plain (eF 0 .fp32 (im 1) no (im 1) 16)], i.wf = false) := by decide +kernel

theorem test_wf_refuses_orders :
    (∀ i ∈ [Instr.lds plain { ma 2 .raw32 ldOps with order := .rel }, .sts plain { ma 2 .raw32 stOps with order := .acq },
      .redg plain { rdF with order := .ar }, .fatom plain { fatomF with order := .sc },
      .lds plain { ma 2 .raw32 ldOps with zx := true }, .sts plain { ma 2 .raw32 stOps with fwd := true },
      .atomg plain { atF with clu := true }], i.wf = false) := by decide +kernel

/-! ### Words written out from the spec's encodings decode -/

/-- R65 and the worked encoding of 03: `?!p1 BRA` by 0x70 bytes with YLD, and `FFMA.f32.rne v8, f0.4, v6, v7`. -/
theorem test_decode_worked :
    decodeInstr 0x02090100_000E0000_00000000_00000070#128 =
      .bra { plain with guard := 9, yld := true } (cf 0 0 0 (cOps .immWord 0x70)) ∧
    decodeInstr 0x42673000_00880400_60070408_20000000#128 =
      .ffma { plain with stall := 6, wait := 3 } (af 0 .f32 .i32 true (ops (v 8) (.slot 0 4) (v 6) (v 7) 0x20000000)) := by
  decide +kernel

/-- R62, R63: ISUB.sat.u64, CVT.f32.i32, SHFL.xor.b32 with a small immediate, a uniform pair. -/
theorem test_decode_format_a :
    decodeInstr 0x11470000_00240000_60001300_00000000#128 =
      .isub { plain with stall := 4 } (af 1 .u64 .i32 false (ops (v 2) (u 0) (v 6) no 0)) ∧
    decodeInstr 0x70070000_00200300_00000400_00000000#128 = .cvt plain (af 0 .f32 .i32 false (ops (v 2) (v 3) no no 0)) ∧
    decodeInstr 0x80070000_002004C0_30083800_00000000#128 =
      .shfl plain (af 3 .b32 .i32 false (ops (v 2) (v 4) (im 3) (v 8) 0)) := by decide +kernel

/-- R67 to R70: LDG.fp16.acq.sys, STS.clu.dev, ATOMS.cas.i64.ar.clu on the cluster's scratchpad, CPT with FMT FP32. -/
theorem test_decode_format_m :
    decodeInstr 0x92070000_00440200_00000418_FFFFFFF0#128 =
      .ldg plain { ma 0 .fp16 (ops (v 4) (u 2) no no 0xFFFFFFF0) with order := .acq, scope := .sys } ∧
    decodeInstr 0x95070000_40200400_00006006_00000008#128 = .sts plain { ma 3 .raw32 stOps with scope := .dev } ∧
    decodeInstr 0xB3070000_00440200_60087235_00000000#128 =
      .atoms plain { mb 7 .i64 true (ops (v 4) (u 2) (v 6) (v 8) 0) with order := .ar, scope := .clu } ∧
    decodeInstr 0x9C070000_40240440_60000500_00010001#128 = .cpt plain cptF := by decide +kernel

/-- R71: BARWAIT with its phase, FENCE.sys, FATOM.max.i64 at depth 2, DSPR of depth 5. -/
theorem test_decode_format_s :
    decodeInstr 0xC4070000_000402C0_10000000_00000000#128 = .barwait plain (barF 0) ∧
    decodeInstr 0xC9070000_00000000_00000800_00000000#128 = .fence plain (sf 0 4 .i32 (ops no no no no 0)) ∧
    decodeInstr 0xD7070000_00490600_60002408_00000000#128 =
      .fatom plain (sf 2 2 .i64 (ops (v 4) (.slot 2 6) (v 6) no 0)) ∧
    decodeInstr 0xD8070000_00400000_00000A00_00000000#128 = .dspr plain (sf 0 5 .i32 (ops (v 4) no no no 0)) := by decide +kernel

/-- R72: MSTREAM of BF16 with 32 rows and 64 columns, MITER in its form NINV, MZERO of an INT64 tile. -/
theorem test_decode_format_t :
    decodeInstr 0xE3070000_C01402E0_0C010480_00004020#128 = .mstream plain (eF 0 .bf16 (im 1) (u 2) .immWord 0x4020) ∧
    decodeInstr 0xE9070000_C02C00C0_3C002500_0000003F#128 = .miter plain (tf 2 .fp32 (ops (im 2) (im 0) (im 3) (im 0) 63)) ∧
    decodeInstr 0xE0070000_C0100000_0C010020_00000000#128 = .mzero plain { eF 0 .raw32 (im 1) no no 0 with int := true } := by
  decide +kernel

/-- R64, R39: CALL with static-link depth 3, SRD of a 64-bit register, NOP. -/
theorem test_decode_format_c :
    decodeInstr 0x05070000_004E0000_00000600_00000100#128 = .call plain callF ∧
    decodeInstr 0x0C070000_00400000_00000012_00000000#128 = .srd plain (cf 0 0 0x012 (ops (v 4) no no no 0)) ∧
    decodeInstr 0x01070000_00000000_00000000_00000000#128 = .nop plain (cf 0 0 0 (cOps no 0)) := by decide +kernel

/-- R73, R82: a reserved SUB, a reserved FMT, a bit of SITE, a register kind with value bits set are no instruction. -/
theorem test_decode_refuses :
    ([0x10070000_00200400_60002000_00000000#128, 0x92070000_00440200_00000300_00000000#128,
      0x10070001_00200400_60000000_00000000#128, 0x10070000_10200400_60000000_00000000#128].all fun w =>
        decodeInstr w == .illegalWord w) = true := by decide +kernel

/-! ### One step gives what the spec's tables give -/

/-- The value of vector register `n` that the instruction leaves waiting for a lane. -/
def result (i : Instr) (f : Strand → Strand) (n L : Nat) : Option W32 :=
  match (after (issuing · f id) i).block 0 with
  | some b => (b.strand 0).pendw.findSome? fun p => p.writes.findSome? fun w => match w with
    | .vreg m k v => if m = n ∧ k = L then some v else none
    | _ => none
  | none => none

/-- Values of a vector register by lane, and p2 false in lane 5 alone (03, the table after R167). -/
def table (st : Strand) : Strand :=
  { ([3, 7, 3, 3, 9, 7, 3, 1] : List W32).foldl (fun (r : Strand × Nat) x => (r.1.setVreg 1 r.2 x, r.2 + 1)) (st, 0) |>.1 with
    preds := [(2, 0xDF)] }
def p2 : Ctl := { plain with guard := 2 }

theorem test_SHFL_down : (List.range 8).map (result (.shfl p2 (af 2 .b32 .i32 false (ops (v 2) (v 1) (im 1) (im 0x1FF) 0))) table 2) =
    [some 7, some 3, some 3, some 9, some 0xFFFFFFFF, none, some 1, some 0xFFFFFFFF] := by decide +kernel

theorem test_MATCH : (List.range 8).map (result (.matchAny p2 (af 0 .b32 .i32 false (ops (v 4) (v 1) no no 0))) table 4) =
    [some 0x4D, some 2, some 0x4D, some 0x4D, some 0x10, none, some 0x4D, some 0x80] := by decide +kernel

theorem test_SCAN_add : (List.range 8).map (result (.scan p2 (af 0 .i32 .i32 false (ops (v 6) (v 1) no no 0))) table 6) =
    [some 3, some 10, some 13, some 16, some 25, none, some 28, some 29] := by decide +kernel

theorem test_REDUX_add : (List.range 8).map (result (.redux p2 (af 0 .i32 .i32 false (ops (v 7) (v 1) no no 0))) table 7) =
    [some 29, some 29, some 29, some 29, some 29, none, some 29, some 29] := by decide +kernel

theorem test_BCAST_fill : (List.range 8).map (result (.bcast p2 (af 0 .b32 .i32 false (ops (v 8) (v 1) (im 5) (im 0) 0))) table 8) =
    [some 0, some 0, some 0, some 0, some 0, none, some 0, some 0] := by decide +kernel

def two (a b : W32) : Strand → Strand := regs [(4, a), (6, b)] []

/-- R143: sums wrap, and saturate where `.sat` asks; R22: the high word of a signed product. -/
theorem test_IADD_ISUB_IMULH :
    result addI (two 0x7FFFFFFF 1) 2 0 = some 0x80000000 ∧
    result (.iadd plain (af 1 .i32 .i32 false binOps)) (two 0x7FFFFFFF 1) 2 0 = some 0x7FFFFFFF ∧
    result (.isub plain (af 1 .u32 .i32 false binOps)) (two 1 2) 2 0 = some 0 ∧
    result (.imulh plain (af 0 .i32 .i32 false binOps)) (two 0xFFFFFFFF 2) 2 0 = some 0xFFFFFFFF ∧
    result (.imulh plain (af 0 .u32 .i32 false binOps)) (two 0xFFFFFFFF 2) 2 0 = some 1 := by decide +kernel

/-- R143: a shift by the width or more; R144: fields, extended as the type says, and a length beyond the type. -/
theorem test_shifts_and_fields :
    result (.shl plain (af 0 .b32 .i32 false binOps)) (two 1 32) 2 0 = some 0 ∧
    result (.shr plain (af 0 .i32 .i32 false binOps)) (two 0x80000000 40) 2 0 = some 0xFFFFFFFF ∧
    result (.bfx plain (af 0 .i32 .i32 false binOps)) (two 0x00000F00 0x0408) 2 0 = some 0xFFFFFFFF ∧
    result (.bfx plain (af 0 .u32 .i32 false binOps)) (two 0xF0000000 0xFF1C) 2 0 = some 0xF ∧
    result (.bfx plain (af 0 .u32 .i32 false binOps)) (two 0xF0000000 0x0020) 2 0 = some 0 := by decide +kernel

/-- R94, R96, R150: 1 + 1; overflow to infinity; the largest number minus itself is +0; the number wins against a NaN. -/
theorem test_FADD_FMIN :
    result (.fadd plain (af 0 .f32 .i32 false binOps)) (two 0x3F800000 0x3F800000) 2 0 = some 0x40000000 ∧
    result (.fadd plain (af 0 .f32 .i32 false binOps)) (two 0x7F7FFFFF 0x7F7FFFFF) 2 0 = some 0x7F800000 ∧
    result (.fadd plain (af 0 .f32 .i32 false binOps)) (two 0x7F7FFFFF 0xFF7FFFFF) 2 0 = some 0 ∧
    result (.fmin plain (af 0 .f32 .i32 false binOps)) (two 0x7FC00000 0x3F800000) 2 0 = some 0x3F800000 ∧
    result (.fmin plain (af 0 .f32 .i32 false binOps)) (two 0 0x80000000) 2 0 = some 0x80000000 := by decide +kernel

/-- R155, R152: a conversion saturates and truncates; the class of a negative subnormal. -/
theorem test_CVT_FCLASS :
    result (.cvt plain (af 0 .i32 .f32 false (ops (v 2) (v 4) no no 0))) (two 0x4F800000 0) 2 0 = some 0x7FFFFFFF ∧
    result (.cvt plain (af 0 .f32 .i32 false (ops (v 2) (v 4) no no 0))) (two 0x01000001 0) 2 0 = some 0x4B800000 ∧
    result (.fclass plain (af 0 .f32 .i32 false (ops (v 2) (v 4) no no 0))) (two 0x80000001 0) 2 0 = some 4 := by decide +kernel

/-- The block worked out in 04: 16 values as SX5. -/
theorem test_SX5_block :
    sxEncode .sx5 ([(false, 3), (true, 3 / 2), (false, 1 / 4), (false, 1 / 2), (false, 3 / 4), (false, 1 / 8), (false, 0), (false, 0),
      (false, 1), (true, 2), (false, 1 / 10), (false, 1 / 5), (false, 1 / 16), (false, 1 / 32), (false, 5 / 2), (true, 7 / 16)].map
        fun p => FP.fin p.1 p.2) =
      [0x81, 0x08, 0xCC, 0x06, 0xC1, 0x04, 0x00, 0x04, 0x83, 0x00, 0x80, 0x92] := by decide +kernel

/-- R135, R136: CALL.3 by 0x100 from 0x10000 links 0x10010 with depth 2, and the call depth is 3. -/
theorem test_CALL_links :
    blockIs (after (controlling 0) (.call plain callF)) (fun b =>
      (b.strand 0).vreg 4 7 == 0x10012 && (b.strand 0).vreg 5 7 == 0 && ((b.strand 0).lane 7).cd == 3 &&
      (b.strand 0).frags.map (·.pc) == [0x10100]) = true := by decide +kernel

/-- R193: of two arrivals expected, the second completes the phase. -/
theorem test_barrier_phase :
    let o : BarObj := ({ phase := 7, curb := 9, expb := 1, cura := 3, expa := 5 } : BarObj).apply (.init 2)
    (o.apply (.arrive 1)).phase = 0 ∧ ((o.apply (.arrive 1)).apply (.arrive 1)).phase = 1 := by decide +kernel

end Sys2Proof.Tests
end

section
/-!
PROOFS. What the issue of a fixed-latency instruction leaves, from its strand outward to the machine, and the frame of format A.
-/
namespace Sys2Proof.Machine

/-! ### Fragments that no wait holds -/

theorem Strand.unwait_free (st : Strand) {f : Frag} (hf : f.hold = .free) : st.unwait f = st := by
  simp [Strand.unwait, hf]

/-- A free fragment that can merge with free ones only leaves every token (R45). -/
theorem Strand.join_free_lanes (st : Strand) {f : Frag} (hf : f.hold = .free)
    (hg : ∀ g ∈ st.frags, g.pc = f.pc → g.hold = .free) : (st.join f).lanes = st.lanes := by
  unfold Strand.join
  split
  · rename_i g hfind
    have hmeets : f.meets g = true := List.find?_some (p := fun g => f.meets g) hfind
    simp only [Frag.meets, Bool.and_eq_true, beq_iff_eq] at hmeets
    have hfree := hg g (List.mem_of_find?_eq_some hfind) hmeets.1.1.symm
    simp only [st.unwait_free hf, st.unwait_free hfree]
  · rfl

/-- Lanes that move together are at most one fragment that joins the others. -/
theorem Strand.move_const (st : Strand) (f : Frag) (pc : W64) (stall nap : Option Nat) (hold : Hold) :
    let others : Strand :=
      { st with frags := (st.frags.filter fun g => g.lanes != f.lanes).map fun g => { g with age := g.age + 1 } }
    st.move f 0 (fun _ => pc) stall nap hold = others ∨
    st.move f 0 (fun _ => pc) stall nap hold =
      others.join { lanes := f.lanes, pc := pc, age := 0, stall := stall, nap := nap, hold := hold, pend := f.pend } := by
  have hall : f.lanes &&& ~~~(0 : Lanes) = f.lanes := by
    rw [show ~~~(0 : Lanes) = BitVec.allOnes 64 by decide, BitVec.and_allOnes]
  cases hl : lanesOf f.lanes with
  | nil => exact .inl (by simp only [Strand.move, hall, groupByPc, hl, List.map_nil, List.eraseDups_nil, List.foldl_nil])
  | cons L ls =>
    have hL : f.lanes.getLsbD L = true := (mem_lanesOf _ _).mp (hl ▸ List.mem_cons_self)
    exact .inr (by
      simp only [Strand.move, hall, groupByPc_const _ _ hL, List.map_cons, List.map_nil, List.foldl_cons, List.foldl_nil])

/-- Lanes that move to a PC where no fragment waits leave every token. -/
theorem Strand.move_free_lanes (st : Strand) (f : Frag) (pc : W64) (stall nap : Option Nat)
    (hg : ∀ g ∈ st.frags, g.pc = pc → g.hold = .free) :
    (st.move f 0 (fun _ => pc) stall nap .free).lanes = st.lanes := by
  rcases st.move_const f pc stall nap .free with h | h
  · rw [h]
  · rw [h]
    refine Strand.join_free_lanes _ rfl fun g' hg' hpc => ?_
    obtain ⟨g, hmem, rfl⟩ := List.mem_map.mp hg'
    exact hg g (List.mem_filter.mp hmem).1 hpc

/-- A token that rises changes nothing of a strand but that token in its lanes. -/
theorem Strand.moved_tokUp (st : Strand) (m : Lanes) (k : Nat) : st.Moved (st.tokUp m k) := by
  refine ⟨?_, fun L => ?_⟩
  · unfold Strand.tokUp
    split
    · exact ⟨st.frags, st.lanes, rfl⟩
    · exact ⟨st.frags, _, rfl⟩
  · rw [st.lane_tokUp]
    split
    · exact Lane.sameButTok_setTok _ _ _
    · exact Lane.sameButTok_refl _

theorem Strand.tokUp_frags (st : Strand) (m : Lanes) (k : Nat) : (st.tokUp m k).frags = st.frags := by
  unfold Strand.tokUp; split <;> rfl

/-! ### The strand that has issued and whose lanes stand at the next word -/

variable {i : Instr} {c : Ctl} {s t : State} {x : Ctx}

/-- All that an issue changes of its strand: fragments, tokens of lanes, the counts of issues and the words fetched. -/
theorem issuedStrand_rest (s : State) (x : Ctx) (d : Done) (st : Strand) :
    (∃ fs ls ws, issuedStrand s x d st =
      { st with frags := fs, lanes := ls, issued := st.issued + 1, last := s.cycle, fetched := ws }) ∧
    ∀ L, (st.lane L).sameButTok ((issuedStrand s x d st).lane L) := by
  have hcount : st.Moved (if d.counts then st.tokUp x.fr.lanes x.ctl.sett.toNat else st) := by
    split
    · exact st.moved_tokUp _ _
    · exact .refl st st.frags
  have hmoved := hcount.trans
    (Strand.move_rest _ x.fr d.gone d.pcOf (some (s.cycle + max x.ctl.stall.toNat 1)) d.nap d.hold)
  obtain ⟨⟨fs, ls, h⟩, hlane⟩ := hmoved
  exact ⟨⟨fs, ls, st.fetched.filter fun w => w.1 != x.fr.pc, by simp only [issuedStrand, h]⟩, hlane⟩

/-- An issue whose lanes go to the next word leaves every other fragment where it stood (R43). -/
theorem issuedStrand_others (s : State) (x : Ctx) (u : State) (st : Strand) {g : Frag} (hg : g ∈ st.frags)
    (hl : g.lanes ≠ x.fr.lanes) : ∃ g' ∈ (issuedStrand s x (Done.later x u) st).frags, ∃ h ∈ st.frags,
      h.lanes = g.lanes ∧ g.lanes &&& g'.lanes = g.lanes ∧ g'.pc = h.pc := by
  have hmove := Strand.move_others (st.tokUp x.fr.lanes x.ctl.sett.toNat) x.fr (x.fr.pc + 16)
    (some (s.cycle + max x.ctl.stall.toNat 1)) none .free (g := g) (by rwa [st.tokUp_frags]) hl
  rwa [st.tokUp_frags] at hmove

/-- The lanes of the fragment stand at the next word (R43). -/
theorem issuedStrand_next (s : State) (x : Ctx) (u : State) (st : Strand) {L : Nat} (hL : x.fr.lanes.getLsbD L = true) :
    ((issuedStrand s x (Done.later x u) st).fragOf L).map (·.pc) = some (x.fr.pc + 16) :=
  Strand.move_together _ x.fr (x.fr.pc + 16) _ _ _ hL

/-- Where no fragment at the next word waits, the token of SETT alone rises, in the fragment's lanes (R36). -/
theorem issuedStrand_lane (s : State) (x : Ctx) (u : State) (st : Strand)
    (hfree : ∀ g ∈ st.frags, g.pc = x.fr.pc + 16 → g.hold = .free) (L : Nat) :
    (issuedStrand s x (Done.later x u) st).lane L =
      if x.fr.lanes.getLsbD L = true ∧ x.ctl.sett ≠ 0
      then (st.lane L).setTok x.ctl.sett.toNat ((st.lane L).tok x.ctl.sett.toNat + 1) else st.lane L := by
  have hlanes := Strand.move_free_lanes (st.tokUp x.fr.lanes x.ctl.sett.toNat) x.fr (x.fr.pc + 16)
    (some (s.cycle + max x.ctl.stall.toNat 1)) none (by rwa [st.tokUp_frags])
  calc (issuedStrand s x (Done.later x u) st).lane L
      = (st.tokUp x.fr.lanes x.ctl.sett.toNat).lane L := congrArg (fun ls => SMap.get Lane.dead ls L) hlanes
    _ = _ := by
      have hsett : x.ctl.sett.toNat ≠ 0 ↔ x.ctl.sett ≠ 0 := not_congr (BitVec.toNat_eq (y := 0)).symm
      rw [st.lane_tokUp]
      simp only [hsett]

/-- The result that waits for its latency (R76). -/
def waitingResult (s : State) (x : Ctx) (lat : Nat) (ws : List PWrite) : PendWrite :=
  { id := s.nextId, due := s.cycle + lat, tok := x.ctl.sett, lanes := x.fr.lanes, writes := ws }

/-- A strand with that result waiting and its flags raised (R37), as `State.result` leaves it. -/
def waitingStrand (s : State) (x : Ctx) (lat : Nat) (ws : List PWrite) (fl : Flags) (st : Strand) : Strand :=
  { st with pendw := st.pendw ++ [waitingResult s x lat ws], fmode := fmodeRaise st.fmode fl }

/-- A strand that issues a fixed-latency result keeps registers, role and label, counts the issue, and has the result waiting. -/
theorem issuedStrand_waiting (s : State) (x : Ctx) (d : Done) (lat : Nat) (ws : List PWrite) (fl : Flags) (st : Strand) :
    let st' := issuedStrand s x d (waitingStrand s x lat ws fl st)
    sameRegs st st' ∧ st'.role = st.role ∧ st'.svdone = st.svdone ∧ st'.issued = st.issued + 1 ∧ st'.last = s.cycle ∧
    st'.fmode = fmodeRaise st.fmode fl ∧ st'.pendw = st.pendw ++ [waitingResult s x lat ws] := by
  obtain ⟨⟨fs, ls, ws', h⟩, -⟩ := issuedStrand_rest s x d (waitingStrand s x lat ws fl st)
  dsimp only
  rw [h]
  exact ⟨⟨rfl, rfl, rfl, rfl⟩, rfl, rfl, rfl, rfl, rfl, rfl⟩

/-! ### The machine around an issue -/

/-- Lines that are consumed depend on the memories alone. -/
theorem consumeAt_congr (h : t.mem = s.mem) (b : Block) (locs : List Loc) :
    (t.consumeAt b locs).mem = (s.consumeAt b locs).mem := by
  unfold State.consumeAt
  rw [h]
  split
  · exact h
  · refine List.foldl_rel (r := fun t s : State => t.mem = s.mem) h fun l _ t s h => ?_
    cases l with
    | spad _ _ => exact h
    | phys pa =>
      dsimp only
      rw [h]
      split
      · split
        · rfl
        · exact h
      · exact h

/-- Settling an issue changes the memories and the blocks alone. -/
theorem settle_only (i : Instr) (s : State) (x : Ctx) (t : State) :
    ∃ m bs, i.settle s x t = { t with mem := m, blocks := bs } := by
  obtain ⟨m, hm, -⟩ := consumeAt_mem (s := t) x.blk (i.slotReads s x)
  unfold Instr.settle
  rw [hm, State.closeAsks]
  split
  · exact ⟨m, t.blocks, rfl⟩
  · exact ⟨m, _, rfl⟩

/-- The issue of a fixed-latency result changes memories, blocks, the two counters and the quadrant's last issue alone (R47). -/
theorem issued_result_only (i : Instr) (x : Ctx) (he : s.mem.errs = []) (lat : Nat) (ws : List PWrite) (fl : Flags) :
    ∃ m bs, issued i s x (Done.later x (s.result x lat ws fl)) =
      { s.setCore x.blk.core { s.core x.blk.core with lastIssue := (s.core x.blk.core).lastIssue.put x.blk.quad s.cycle } with
        mem := m, blocks := bs, nextId := s.nextId + 1, fresh := s.fresh + 1 } := by
  obtain ⟨m, bs, h⟩ := settle_only i s x (s.commit x (Done.later x (s.result x lat ws fl)))
  exact ⟨m, bs, by rw [issued, scanSlots_plain he, h]; rfl⟩

/-- What the issue of a fixed-latency result leaves of the machine, and the place in the order of issues that it takes. -/
theorem issued_result_rest (i : Instr) (x : Ctx) (he : s.mem.errs = []) (lat : Nat) (ws : List PWrite) (fl : Flags) :
    let t := issued i s x (Done.later x (s.result x lat ws fl))
    t.caller = s.caller ∧ t.host = s.host ∧ t.mgmt = s.mgmt ∧ t.fab = s.fab ∧ t.clusters = s.clusters ∧ t.cycle = s.cycle ∧
    t.agenda = s.agenda ∧ t.cur = s.cur ∧ t.nextId = s.nextId + 1 ∧ (∀ k, k ≠ x.blk.core → t.core k = s.core k) ∧
    t.core x.blk.core = { s.core x.blk.core with lastIssue := (s.core x.blk.core).lastIssue.put x.blk.quad s.cycle } := by
  obtain ⟨m, bs, h⟩ := issued_result_only i x he lat ws fl
  dsimp only
  rw [h]
  exact ⟨rfl, rfl, rfl, rfl, rfl, rfl, rfl, rfl, rfl, fun _ hk => s.core_setCore_other _ hk, s.core_setCore_self _ _⟩

/-- The memories change only where forwarded lines are consumed (R256). -/
theorem issued_result_mem (i : Instr) (x : Ctx) (he : s.mem.errs = []) (lat : Nat) (ws : List PWrite) (fl : Flags) :
    (issued i s x (Done.later x (s.result x lat ws fl))).mem = (s.consumeAt x.blk (i.slotReads s x)).mem := by
  rw [issued, scanSlots_plain he]
  have hmem : (s.commit x (Done.later x (s.result x lat ws fl))).mem = s.mem := rfl
  exact (closeAsks_rest _ _).1.trans (consumeAt_congr hmem _ _)

/-- The other blocks stay. -/
theorem issued_result_other (i : Instr) (x : Ctx) (he : s.mem.errs = []) (lat : Nat) (ws : List PWrite) (fl : Flags) {k : Nat}
    (hk : k ≠ x.blk.uid) :
    (issued i s x (Done.later x (s.result x lat ws fl))).block k = s.block k := by
  obtain ⟨-, -, -, -, -, -, -, -, hother⟩ := settle_rest i s x (s.commit x (Done.later x (s.result x lat ws fl)))
  rw [issued, scanSlots_plain he, hother k hk, commit_block_other _ hk]
  exact result_block_other lat ws fl hk

/-- A block that issues reads as its effect left it, with its strand moved on, and answered requests leave (log 55). -/
theorem issued_block_self (i : Instr) (he : s.mem.errs = []) {d : Done} {w : Block} (hw : d.st.block x.blk.uid = some w) :
    ∃ fl, (issued i s x d).block x.blk.uid = some { issuedBlock s x d w with flight := fl } ∧
      (∀ o ∈ fl, o ∈ w.flight) ∧ ∀ o ∈ w.flight, o.isRequest = false → o ∈ fl := by
  rw [issued, scanSlots_plain he]
  exact settle_self i s x (commit_block_self d hw)

/-- The block that issues a fixed-latency result: its strand has the result waiting and has issued, an issue is counted, that of a
STEP is spent, and all else but answered requests stays. -/
theorem issued_result_self (i : Instr) (hx : s.ctx c = some x) (he : s.mem.errs = []) (lat : Nat) (ws : List PWrite) (fl : Flags) :
    ∃ b, (issued i s x (Done.later x (s.result x lat ws fl))).block x.blk.uid = some b ∧
      b = { x.blk with strands := b.strands, flight := b.flight, mode := x.blk.mode.fire, instrs := x.blk.instrs + 1 } ∧
      (∀ o ∈ b.flight, o ∈ x.blk.flight) ∧ (∀ o ∈ x.blk.flight, o.isRequest = false → o ∈ b.flight) ∧
      (∀ k, k ≠ x.sid → b.strand k = x.blk.strand k) ∧
      b.strand x.sid = issuedStrand s x (Done.later x (s.result x lat ws fl)) (waitingStrand s x lat ws fl x.st) := by
  obtain ⟨hblk, hst, -, hsid, -⟩ := ctx_eq hx
  obtain ⟨hothers, hself, hlen, -, -⟩ := waitingBlock_strand (s := s) (x := x) lat ws fl x.blk
  obtain ⟨flight, hb, hsub, hkeep⟩ :=
    issued_block_self i he (d := Done.later x (s.result x lat ws fl)) (result_block_self lat ws fl hblk)
  refine ⟨_, hb, ?_, hsub, hkeep, fun k hk => ?_, ?_⟩
  · simp only [issuedBlock, waitingBlock, Block.updStrand, Block.setStrand]
  · exact (Block.strand_updStrand_other _ hk _).trans (hothers k hk)
  · refine (Block.strand_updStrand_self _ (hlen.symm ▸ hsid) _).trans ?_
    rw [hself hsid, ← hst]; rfl

end Sys2Proof.Machine

namespace Sys2Proof.Machine

/-- Settles O54: a format A instruction is an issue of fixed latency (`exec_formatA`); what it changes of the machine, of its block
and of its strand is read off the lemmas on `issued` and `issuedStrand`. -/
theorem formatAFrame : Obligations.FormatAFrame := by
  intro i c s x t hA hctl hpass herrs hexec
  obtain ⟨lat, effect, hbody⟩ := exec_formatA hA hctl
  obtain ⟨-, -, hxc, -, -⟩ := ctx_eq hpass.ctx
  rw [hbody, fixed_runs hpass, entered_plain herrs (entryA_before i)] at hexec
  generalize (effect s x).1 = ws, (effect s x).2 = fl at hexec
  obtain rfl : issued i s x (Done.later x (s.result x lat ws fl)) = t := by simpa using hexec
  have hmem := issued_result_mem i x herrs lat ws fl
  obtain ⟨hcaller, hhost, hmgmt, hfab, hclusters, hcycle, hagenda, hcur, hnext, hcores, hcore⟩ :=
    issued_result_rest i x herrs lat ws fl
  obtain ⟨b, hb, hshape, hsub, hkeep, hothers, hself⟩ := issued_result_self i hpass.ctx herrs lat ws fl
  obtain ⟨hregs, hrole, hsvdone, hissued, hlast, hfmode, hpendw⟩ :=
    issuedStrand_waiting s x (Done.later x (s.result x lat ws fl)) lat ws fl x.st
  obtain ⟨-, hlanes⟩ := issuedStrand_rest s x (Done.later x (s.result x lat ws fl)) (waitingStrand s x lat ws fl x.st)
  rw [← hself] at hregs hrole hsvdone hissued hlast hfmode hpendw hlanes
  refine ⟨hmem, fun hfwd => by rw [hmem, consumeAt_plain _ _ hfwd], hcaller, hhost, hmgmt, hfab, hclusters, hcycle, hagenda,
    hcur, hnext, hcores, hcore, fun k hk => issued_result_other i x herrs lat ws fl hk, b, hb, hshape, hsub, hkeep, hothers,
    hregs, hrole, hsvdone, hissued, hlast, ⟨fl, hfmode⟩, ⟨_, hpendw, rfl, congrArg Ctl.sett hxc, rfl, s.cycle.le_add_right lat⟩,
    fun g hg hl => ?_, fun L hL => ?_, fun L _ => hlanes L, fun hfree L _ => ?_⟩
  · exact hself ▸ issuedStrand_others s x _ (waitingStrand s x lat ws fl x.st) hg hl
  · exact hself ▸ issuedStrand_next s x _ _ hL
  · exact hself ▸ hxc ▸ issuedStrand_lane s x _ (waitingStrand s x lat ws fl x.st) hfree L

end Sys2Proof.Machine
end

section
/-!
PROOFS. One step of the module, branch by branch: the agenda, a result that is due, an issue, what is under way elsewhere, the next
cycle; and a fragment's turn.
-/
namespace Sys2Proof.Machine

variable {s t : State} {p : Pick} {i : Instr}

/-! ### The branches of a step (log 1, log 14) -/

theorem step_agenda {rest : List Instr} (h : s.agenda = i :: rest) :
    step s = exec i (({ s with agenda := rest } : State).claim i) := by simp only [step, h]

theorem step_dueResult (ha : s.agenda = []) (hd : s.dueResult = some i) : step s = exec i s := by simp only [step, ha, hd]

theorem step_pickIssue (ha : s.agenda = []) (hd : s.dueResult = none) (hp : s.pickIssue = some p) : step s = runFrag s p := by
  simp only [step, ha, hd, hp]

theorem step_elsewhere (ha : s.agenda = []) (hd : s.dueResult = none) (hp : s.pickIssue = none) (he : s.elsewhere = some (i, t)) :
    step s = exec i (t.claim i) := by simp only [step, ha, hd, hp, he]

theorem step_nextCycle (ha : s.agenda = []) (hd : s.dueResult = none) (hp : s.pickIssue = none) (he : s.elsewhere = none) :
    step s = .next s.nextCycle := by simp only [step, ha, hd, hp, he]

/-! ### A fragment's turn -/

theorem issueWord_of_decode {w : InstrWord} (r : FragRef) (h : decode w = .ok i) :
    issueWord s r w = settled (exec i { s with cur := some { ref := r, word := w } }) := by
  simp only [issueWord, decodeInstr, h]

theorem runFrag_pending {q : PendTrap} {rest : List PendTrap} (h : p.frag.pend = q :: rest) :
    runFrag s p = exec (.pendingTrapDelivery p.ref) s := by simp only [runFrag, h]

theorem runFrag_word {w : InstrWord} (h : p.frag.pend = []) (hw : (p.blk.strand p.sid).wordAt p.frag.pc = some w) :
    runFrag s p = issueWord s p.ref w := by simp only [runFrag, h, hw]

/-- A word that has not been fetched is fetched first, and runs in the same step when the fetch brings it. -/
theorem runFrag_fetch {w : InstrWord} (h : p.frag.pend = []) (hw : (p.blk.strand p.sid).wordAt p.frag.pc = none)
    (hf : exec (.instructionFetch p.ref) s = .next t) (ht : (t.strand p.blk.uid p.sid).wordAt p.frag.pc = some w) :
    runFrag s p = issueWord t p.ref w := by simp only [runFrag, h, hw, hf, ht]

/-- Settles O52: each branch of the step in turn, and for an issue each branch of a fragment's turn. -/
theorem stepRunsDecoded : Obligations.StepRunsDecoded := by
  intro s
  refine ⟨fun i rest h => step_agenda h, fun ha => ⟨fun i hd => step_dueResult ha hd, fun hd => ⟨fun p hp => ?_, fun hp => ?_⟩⟩⟩
  · rw [step_pickIssue ha hd hp]
    refine ⟨fun q rest hq => runFrag_pending hq, fun hq w i => ⟨fun hw hdec => ?_, fun t hw hf ht hdec => ?_⟩⟩
    · rw [runFrag_word hq hw, issueWord_of_decode _ hdec]
    · rw [runFrag_fetch hq hw hf ht, issueWord_of_decode _ hdec]
  · exact ⟨fun i t he => step_elsewhere ha hd hp he, fun he => step_nextCycle ha hd hp he⟩

end Sys2Proof.Machine
end

section
/-!
PROOFS. Every program instruction is an issue, with the ILLEGAL conditions of its own entry: what is held, the traps ILLEGAL and
ROLE, and the signatures of the engine's instructions.
-/
namespace Sys2Proof.Machine

variable {i : Instr} {e : Entry} {c : Ctl} {s : State} {x : Ctx} {body : State → Ctx → Except Trap Done}

/-! ### The first two checks of R83 -/

theorem dispUniform_illegal (f : SFmt) (o : Operand) (s : State) (x : Ctx) : (dispUniform f o).illegal s x = false := by
  unfold dispUniform; split <;> rfl

/-- What the entry of a format A instruction calls ILLEGAL is what `ownIllegal` names (R156). -/
theorem entryA_illegal (hA : formatA i = true) (s : State) (x : Ctx) : (entryA i).illegal s x = ownIllegal i s x := by
  cases i with
  | ctxst | ctxld | svdone => cases hA
  | mzero | ldstat | pswap | mstream | accst | accchk | accmov | accplane | miter | kld | kmov => cases hA
  | _ => rfl

/-- The same facts for format A, whose arms are all of fixed latency. -/
theorem exec_issue_formatA (hA : formatA i = true) (hc : i.ctl = some c) :
    ∃ e body, (∀ s, exec i s = issue i c e body s) ∧ ∀ s x, e.illegal s x = ownIllegal i s x := by
  obtain ⟨lat, g, hexec⟩ := exec_formatA hA hc
  exact ⟨_, _, congrFun hexec, entryA_illegal hA⟩

/-- Every program instruction is an issue, and `ownIllegal` names what its entry calls ILLEGAL: for format A by `exec_formatA`, for
the others as their arms of `exec` stand. -/
theorem exec_issue (hc : i.ctl = some c) :
    ∃ e body, (∀ s, exec i s = issue i c e body s) ∧ ∀ s x, e.illegal s x = ownIllegal i s x := by
  cases i with
  | iadd | isub | imul | imulh | imad | imin | imax | land | lor | lxor | shl | shr | rot | bfx | bfi | popc | clz | brev | sel
  | icmp | lea | mov | movi | pand | pmov | fadd | fmul | ffma | fmin | fmax | fcmp | fclass | frcp | frsq | fsqrt | fexp2
  | flog2 | fsin | fcos | ftanh | frnd | fscale | fdot2 | cvt | qsx | qscale | dqsx | pack | unpack | shfl | matchAny | vote
  | redux | scan | bcast => exact exec_issue_formatA rfl hc
  | dspr _ f => cases hc; dsimp only [exec]; exact ⟨_, _, fun _ => rfl, dispUniform_illegal f _⟩
  | dspw _ f => cases hc; dsimp only [exec]; exact ⟨_, _, fun _ => rfl, dispUniform_illegal f _⟩
  | _ => cases hc <;> dsimp only [exec] <;> refine ⟨_, _, fun _ => rfl, fun _ _ => ?_⟩ <;> rfl

/-- A check that fails before the slots are read, and is no error in a register, leaves nothing but its trap (R82, R271). -/
theorem issue_early {t : Trap} (hx : s.ctx c = some x) (hr : x.canIssue i s = true) (he : i.early e s x = some t)
    (ht : t.cause ≠ .ecc) : issue i c e body s = .next (s.trapIssue x t) := by
  have hcheck : i.check e s x = some t := by simp only [Instr.check, he, Option.orElse_some]
  rw [issue_check hx hr hcheck, trapped, Instr.looked, he, Option.isSome_some, if_pos rfl, State.countUnc,
    if_neg fun h => ht h.1]

theorem early_illegal (h : i.illegal x = true ∨ e.illegal s x = true) :
    i.early e s x = some (Trap.illegalWord x.active x.word) := by
  rw [Instr.early, if_pos (by simpa only [Bool.or_eq_true] using h)]

theorem early_role (hi : i.illegal x = false) (he : e.illegal s x = false) (hr : i.roleOk x.st.role = false) :
    i.early e s x = some (Trap.of .role x.fr.lanes 0 0) := by
  simp only [Instr.early, hi, he, hr, Bool.or_self, Bool.false_eq_true, if_false, Bool.not_false, if_true]

/-- Settles O53: a program instruction is an issue (`exec_issue`), and ILLEGAL and ROLE are the first of its checks. -/
theorem issueChecks : Obligations.IssueChecks := by
  intro i c s x hc hx
  obtain ⟨e, body, hexec, hown⟩ := exec_issue hc
  dsimp only
  rw [hexec]
  refine ⟨fun hr => issue_held hx hr, fun hr hill => ?_, fun hr hi ho hrole => ?_⟩
  · rw [← hown] at hill
    exact issue_early hx hr (early_illegal hill) nofun
  · rw [← hown] at ho
    exact issue_early hx hr (early_role hi ho hrole) nofun

/-! ### Signatures of the engine's instructions (R50, R216) -/

/-- With a lane active, a convergent engine instruction that passes the checks signs its register. -/
theorem signs_runs {f : TFmt} {vals : State → Ctx → List (Nat → W64)} {bad : State → Ctx → Bool} {counts : State → Ctx → W32}
    (hexec : exec i = signs i c f vals bad counts) :
    Runs i (convEntry i f.ops.c.num vals bad) c (fun _ x => x.active ≠ 0) fun s x =>
      Done.later x (s.signCv x i f.ops.c.num ((vals s x).map fun v => v x.lead) (counts s x)) := by
  intro s x hpass hactive
  rw [hexec]
  exact issue_ok hpass (if_neg hactive)

/-- Settles O24: each of the eleven instructions signs (`signs_runs`), with the values and counts that its entry names. -/
theorem engineSigns : Obligations.EngineSigns := by
  intro c f
  exact ⟨signs_runs rfl, signs_runs rfl, signs_runs rfl, signs_runs rfl, signs_runs rfl, signs_runs rfl, signs_runs rfl,
    signs_runs rfl, signs_runs rfl, signs_runs rfl, signs_runs rfl⟩

end Sys2Proof.Machine
end

section
/-!
PROOFS. Predicate 7 and an instruction with no active lane: what every effect of format A leaves then.
-/
namespace Sys2Proof.Machine

variable {i : Instr} {c : Ctl} {s : State} {x : Ctx}

/-! ### The guard ?!p7 (R34) -/

/-- The guard is read whatever the active lanes are. -/
theorem guardTrue_active (b : Block) (sid : Nat) (st : Strand) (f : Frag) (w : InstrWord) (m : Lanes) (n L : Nat) :
    Ctx.guardTrue ⟨b, sid, st, f, c, w, m, n⟩ L = Ctx.guardTrue ⟨b, sid, st, f, c, w, 0, n⟩ L := rfl

/-- The active lanes are the fragment's whose guard is true (R15, R54). -/
theorem ctx_active (hx : s.ctx c = some x) : x.active = laneSet fun L => x.fr.lanes.getLsbD L && x.guardTrue L := by
  unfold State.ctx at hx
  split at hx
  · cases hx
  · split at hx
    · cases hx
    · dsimp only at hx
      split at hx
      · cases hx
      · cases hx; simp only [guardTrue_active]

/-- Under a guard of ?!p7 no lane is active: p7 reads as one in every lane. -/
theorem ctx_active_of_never (hx : s.ctx c = some x) (hg : c.guard = 15) : x.active = 0 := by
  obtain ⟨-, -, rfl, -, -⟩ := ctx_eq hx
  have hnever : ∀ L, x.guardTrue L = false := fun L => by simp [Ctx.guardTrue, Ctx.pred, hg]
  rw [ctx_active hx]
  refine BitVec.eq_of_getLsbD_eq fun L _ => ?_
  simp [hnever]

/-! ### Effects with no active lane -/

theorem lanes_idle (h : x.active = 0) : x.lanes = [] := by rw [Ctx.lanes, h]; rfl

/-- With no lane active an effect leaves no write and no flag. -/
def Idle (g : State → Ctx → List PWrite × Flags) : Prop := ∀ s x, x.active = 0 → g s x = ([], Flags.none)

theorem writesTo_idle (h : x.active = 0) (o : Operand) (wide : Bool) (v : Nat → W64) : s.writesTo x o wide v = [] := by
  unfold State.writesTo
  split
  · exact if_pos h
  · rw [lanes_idle h]; rfl

theorem predWrites_idle (h : x.active = 0) (o : Operand) (v : Nat → Bool) : predWrites x o v = [] := by
  rw [predWrites, lanes_idle h, List.map_nil, ite_self]

theorem idle_intEffect (f : AFmt) (v : State → Ctx → Nat → W64) : Idle (intEffect f v) := fun s x h => by
  rw [intEffect, writesTo_idle h]

theorem idle_int32Effect (f : AFmt) (v : State → Ctx → Nat → W64) : Idle (int32Effect f v) := fun s x h => by
  rw [int32Effect, writesTo_idle h]

theorem idle_predEffect (f : AFmt) (v : State → Ctx → Nat → Bool) : Idle (predEffect f v) := fun s x h => by
  rw [predEffect, predWrites_idle h]

theorem idle_laneEffect (f : AFmt) (wide : Bool) (v : State → Ctx → Nat → W64) : Idle (laneEffect f wide v) := fun s x h => by
  rw [laneEffect, writesTo_idle h]

theorem idle_moviEffect (f : AFmt) : Idle (moviEffect f) := fun s x h => by
  unfold moviEffect
  dsimp only
  split
  · rw [if_pos h]
  · rw [lanes_idle h, List.flatMap_nil]

theorem idle_pmovEffect (f : AFmt) : Idle (pmovEffect f) := fun s x h => by
  unfold pmovEffect
  split
  · exact idle_predEffect f _ s x h
  · exact idle_int32Effect f _ s x h
  · rw [lanes_idle h, List.flatMap_nil]

theorem idle_voteEffect (f : AFmt) : Idle (voteEffect f) := fun s x h => by
  rw [voteEffect, writesTo_idle h, predWrites_idle h, ite_self]

theorem idle_fpEffect (d : Operand) (wide : Bool) (v : State → Ctx → Nat → W64 × Flags) : Idle (fpEffect d wide v) :=
  fun s x h => by
    have hcomputing : x.computing d = [] := by rw [Ctx.computing, lanes_idle h, if_pos h, ite_self]
    rw [fpEffect, writesTo_idle h, hcomputing]; rfl

theorem idle_fcmpEffect (f : AFmt) : Idle (fcmpEffect f) := fun s x h => by
  rw [fcmpEffect, predWrites_idle h, lanes_idle h]; rfl

/-- Every effect of format A is of one of these kinds. -/
theorem exec_formatA_idle (hA : formatA i = true) (hc : i.ctl = some c) :
    ∃ lat g, exec i = issue i c (entryA i) (fixedBody lat g) ∧ Idle g := by
  cases i with
  | iadd _ f | isub _ f | imul _ f | imulh _ f | imad _ f | imin _ f | imax _ f | land _ f | lor _ f | lxor _ f | shl _ f
  | shr _ f | rot _ f | bfx _ f | bfi _ f | brev _ f | sel _ f | lea _ f | mov _ f =>
    cases hc; exact ⟨_, _, rfl, idle_intEffect f _⟩
  | popc _ f | clz _ f | fclass _ f => cases hc; exact ⟨_, _, rfl, idle_int32Effect f _⟩
  | icmp _ f | pand _ f => cases hc; exact ⟨_, _, rfl, idle_predEffect f _⟩
  | movi _ f => cases hc; exact ⟨_, _, rfl, idle_moviEffect f⟩
  | pmov _ f => cases hc; exact ⟨_, _, rfl, idle_pmovEffect f⟩
  | fadd _ f | fmul _ f | ffma _ f | fmin _ f | fmax _ f | frcp _ f | frsq _ f | fsqrt _ f | fexp2 _ f | flog2 _ f | fsin _ f
  | fcos _ f | ftanh _ f | frnd _ f | fscale _ f | fdot2 _ f | cvt _ f | qsx _ f | qscale _ f | dqsx _ f | pack _ f
  | unpack _ f | redux _ f | scan _ f => cases hc; exact ⟨_, _, rfl, idle_fpEffect f.ops.d _ _⟩
  | fcmp _ f => cases hc; exact ⟨_, _, rfl, idle_fcmpEffect f⟩
  | shfl _ f | matchAny _ f | bcast _ f => cases hc; exact ⟨_, _, rfl, idle_laneEffect f _ _⟩
  | vote _ f => cases hc; exact ⟨_, _, rfl, idle_voteEffect f⟩
  | _ => cases hA

/-- Settles O56: p7 by the laws of predicates; under ?!p7 no lane is active, and every effect of format A is idle then. -/
theorem predicateSeven : Obligations.PredicateSeven := by
  intro s c x
  refine ⟨fun st L v => ⟨st.pred_seven L, st.setPred_seven L v⟩, fun hx hg => ?_⟩
  have hactive := ctx_active_of_never hx hg
  refine ⟨hactive, lanes_idle hactive, fun i hA hc hpass => ?_⟩
  obtain ⟨lat, g, hexec, hidle⟩ := exec_formatA_idle hA hc
  exact ⟨lat, by rw [hexec, fixed_runs hpass, hidle _ _ hactive]⟩

end Sys2Proof.Machine
end

section
/-!
PROOFS. What a write of memory by address, and the consumption of a forwarded line, leave: the scratchpads (R237, R272); and that
the lines consumed do not depend on the translations that the TLBs hold.
-/
namespace Sys2Proof.Machine

variable (m : MemSys)

/-! ### Writes at the home leave the scratchpads -/

theorem MemSys.foldl_spad {α : Type} {f : MemSys → α → MemSys} (hf : ∀ m a, (f m a).spad = m.spad) (l : List α) :
    ∀ m : MemSys, (l.foldl f m).spad = m.spad := by
  induction l with
  | nil => exact fun _ => rfl
  | cons a l ih => exact fun m => (ih (f m a)).trans (hf m a)

@[simp] theorem MemSys.touchScrub_spad (pa : Nat) : (m.touchScrub pa).spad = m.spad := by
  unfold MemSys.touchScrub MemSys.zeroLine; split <;> rfl

@[simp] theorem MemSys.portWrite_spad (pa : Nat) (b : Byte) : (m.portWrite pa b).spad = m.spad := m.touchScrub_spad pa

@[simp] theorem MemSys.writeBack_spad (line : Nat) : (m.writeBack line).spad = m.spad := by
  unfold MemSys.writeBack
  dsimp only
  rw [MemSys.foldl_spad fun m _ => m.portWrite_spad _ _]
  split
  · rfl
  · exact m.touchScrub_spad _

@[simp] theorem MemSys.dropTag_spad (line : Nat) : (m.dropTag line).spad = m.spad := by
  unfold MemSys.dropTag
  split
  · rfl
  · exact m.writeBack_spad line

@[simp] theorem MemSys.drainWb_spad (slice : Nat) : (m.drainWb slice).spad = m.spad := by
  unfold MemSys.drainWb
  split
  · rfl
  · exact m.writeBack_spad _

@[simp] theorem MemSys.queueWb_spad (slice line : Nat) : (m.queueWb slice line).spad = m.spad := by
  unfold MemSys.queueWb
  dsimp only
  split
  · exact m.drainWb_spad slice
  · rfl

@[simp] theorem MemSys.unhold_spad (slice line : Nat) : (m.unhold slice line).spad = m.spad := rfl

@[simp] theorem MemSys.sliceEvict_spad (slice line : Nat) : (m.sliceEvict slice line).spad = m.spad := by
  have hunhold : ((m.unhold slice line).dropTag line).spad = m.spad := MemSys.dropTag_spad _ _
  unfold MemSys.sliceEvict
  dsimp only
  split
  · exact hunhold
  · split
    · rfl
    · split
      · exact hunhold
      · split
        · exact MemSys.queueWb_spad _ _ _
        · rfl

@[simp] theorem MemSys.sliceRoom_spad (slice line : Nat) : (m.sliceRoom slice line).spad = m.spad := by
  unfold MemSys.sliceRoom
  dsimp only
  split
  · split
    · exact m.sliceEvict_spad _ _
    · rfl
  · rfl

@[simp] theorem MemSys.hold_spad (slice line : Nat) : (m.hold slice line).spad = m.spad := by
  unfold MemSys.hold
  split
  · rfl
  · exact m.sliceRoom_spad slice line

@[simp] theorem MemSys.holdHome_spad (line : Nat) : (m.holdHome line).spad = m.spad := m.hold_spad _ _

@[simp] theorem MemSys.holdWritten_spad (line : Nat) : (m.holdWritten line).spad = m.spad := by
  unfold MemSys.holdWritten
  split
  · rfl
  · exact m.hold_spad _ _

@[simp] theorem MemSys.clearPoison_spad (bytes : List (Nat × Byte)) : (m.clearPoison bytes).spad = m.spad := by
  unfold MemSys.clearPoison; split <;> rfl

@[simp] theorem MemSys.dropL1_spad (quad line : Nat) : (m.dropL1 quad line).spad = m.spad := rfl

@[simp] theorem MemSys.l1Flush_spad (quad line : Nat) : (m.l1Flush quad line).spad = m.spad := by
  unfold MemSys.l1Flush
  split
  · rfl
  · rename_i l _
    split
    · split <;> rfl
    · split
      · rfl
      · obtain ⟨-, hspad, -, -⟩ := MemSys.l1Errors_rest (m := (m.holdWritten line).clearPoison l.dirtyBytes) l
        exact hspad.trans (by simp only [clearPoison_spad, holdWritten_spad])

@[simp] theorem MemSys.l1Out_spad (quad line : Nat) : (m.l1Out quad line).spad = m.spad := m.l1Flush_spad quad line

@[simp] theorem MemSys.loseHost_spad (line : Nat) : (m.loseHost line).spad = m.spad := by
  unfold MemSys.loseHost; split <;> rfl

@[simp] theorem MemSys.takeLine_spad (line : Nat) : (m.takeLine line).spad = m.spad :=
  (MemSys.foldl_spad (fun m _ => m.l1Out_spad _ line) _ _).trans (m.loseHost_spad line)

@[simp] theorem MemSys.homeWrite_spad (bytes : List (Nat × Byte)) : (m.homeWrite bytes).spad = m.spad := by
  unfold MemSys.homeWrite
  dsimp only
  rw [MemSys.clearPoison_spad]
  refine MemSys.foldl_spad (fun m kv => ?_) bytes m
  split
  · simp only [holdWritten_spad, dropTag_spad, takeLine_spad]
  · split
    · simp only [holdHome_spad, dropTag_spad]
    · simp only [dropTag_spad]

@[simp] theorem MemSys.writePa_spad (pa : Nat) (bs : List Byte) : (m.writePa pa bs).spad = m.spad := m.homeWrite_spad _

/-! ### Forwarded lines that are consumed (R177, R256) -/

@[simp] theorem MemSys.consume_spad (line : Nat) : (m.consume line).spad = m.spad := m.loseHost_spad line

/-- Memories with other entries in their TLBs. -/
def MemSys.withTlbs (m : MemSys) (l1 l2 : List (Nat × Xlate)) : MemSys := { m with tlb1 := l1, tlb2 := l2 }

theorem MemSys.consume_withTlbs (line : Nat) (l1 l2 : List (Nat × Xlate)) :
    (m.withTlbs l1 l2).consume line = (m.consume line).withTlbs l1 l2 := by
  unfold MemSys.consume MemSys.loseHost MemSys.withTlbs
  dsimp only
  split <;> rfl

/-- Other translations in the TLBs leave what is consumed. -/
theorem consumeAt_withTlbs {s t : State} {l1 l2 : List (Nat × Xlate)} (h : t.mem = s.mem.withTlbs l1 l2) (b : Block)
    (locs : List Loc) : (t.consumeAt b locs).mem = (s.consumeAt b locs).mem.withTlbs l1 l2 := by
  unfold State.consumeAt
  rw [show t.mem.fwd = s.mem.fwd from h ▸ rfl]
  split
  · exact h
  · refine List.foldl_rel (r := fun t s : State => t.mem = s.mem.withTlbs l1 l2) h fun l _ t s h => ?_
    cases l with
    | spad _ _ => exact h
    | phys pa =>
      dsimp only
      rw [show t.mem.fwd = s.mem.fwd from h ▸ rfl]
      split
      · split
        · rw [State.setMem_mem, h, MemSys.consume_withTlbs, State.setMem_mem]
        · exact h
      · exact h

@[simp] theorem consumeAt_spad (s : State) (b : Block) (locs : List Loc) : (s.consumeAt b locs).mem.spad = s.mem.spad := by
  unfold State.consumeAt
  split
  · rfl
  · refine List.foldlRecOn (motive := fun t : State => t.mem.spad = s.mem.spad) locs _ rfl fun t ht l _ => ?_
    cases l with
    | spad _ _ => exact ht
    | phys pa =>
      dsimp only
      split
      · split
        · exact (t.mem.consume_spad _).trans ht
        · exact ht
      · exact ht

end Sys2Proof.Machine
end

section
/-!
PROOFS. The frame of a memory access at issue: what its guard, its translations and its site's request can change before the access
enters flight, what the issue leaves around that, and that no trap counts as an issue.
-/
namespace Sys2Proof.Machine

variable {i : Instr} {e : Entry} {c : Ctl} {s t u : State} {x : Ctx} {body : State → Ctx → Except Trap Done}

/-! ### Before an access enters flight -/

/-- All that an access on a core can change before it enters flight: TLBs and, where a tenant logs its writes, the dirty log with
its bytes in memory (R366, R373); the core's counters and requests of sites (R113, R127). -/
structure State.Prepared (core : Nat) (s t : State) : Prop where
  blocks : t.blocks = s.blocks
  clusters : t.clusters = s.clusters
  cycle : t.cycle = s.cycle
  fab : t.fab = s.fab
  mgmt : t.mgmt = s.mgmt
  caller : t.caller = s.caller
  spad : t.mem.spad = s.mem.spad
  core_other : ∀ k, k ≠ core → t.core k = s.core k
  unlogged : (∀ ten, (s.quota ten).logon = false) →
    (∃ l1 l2, t.mem = s.mem.withTlbs l1 l2) ∧ t.host = s.host ∧ t.agenda = s.agenda

theorem State.Prepared.refl (core : Nat) (s : State) : s.Prepared core s :=
  ⟨rfl, rfl, rfl, rfl, rfl, rfl, rfl, fun _ _ => rfl, fun _ => ⟨⟨s.mem.tlb1, s.mem.tlb2, rfl⟩, rfl, rfl⟩⟩

theorem State.Prepared.trans {core : Nat} (h : s.Prepared core t) (h' : t.Prepared core u) : s.Prepared core u where
  blocks := h'.blocks.trans h.blocks
  clusters := h'.clusters.trans h.clusters
  cycle := h'.cycle.trans h.cycle
  fab := h'.fab.trans h.fab
  mgmt := h'.mgmt.trans h.mgmt
  caller := h'.caller.trans h.caller
  spad := h'.spad.trans h.spad
  core_other k hk := (h'.core_other k hk).trans (h.core_other k hk)
  unlogged hlog := by
    obtain ⟨⟨l1, l2, hmem⟩, hhost, hagenda⟩ := h.unlogged hlog
    obtain ⟨⟨k1, k2, hmem'⟩, hhost', hagenda'⟩ := h'.unlogged fun ten => by rw [State.quota, hhost]; exact hlog ten
    exact ⟨⟨k1, k2, by rw [hmem', hmem]; rfl⟩, hhost'.trans hhost, hagenda'.trans hagenda⟩

theorem State.Prepared.foldl {α : Type} {core : Nat} {f : State → α → State} (hf : ∀ (s : State) a, s.Prepared core (f s a))
    (l : List α) (s : State) : s.Prepared core (l.foldl f s) :=
  List.foldlRecOn (motive := s.Prepared core) l f (.refl core s) fun t ht a _ => ht.trans (hf t a)

/-! ### Translations put to use (R366, R373) -/

@[simp] theorem State.writePa_mem_spad (s : State) (pa : Nat) (bs : List Byte) : (s.writePa pa bs).mem.spad = s.mem.spad :=
  s.mem.writePa_spad pa bs

theorem logDirty_spad (s : State) (ten : Nat) (v : Xlate) : (s.logDirty ten v).mem.spad = s.mem.spad := by
  unfold State.logDirty
  extract_lets e t
  have ht : t.mem.spad = s.mem.spad := s.writePa_mem_spad _ _
  clear_value t
  split
  · exact ht
  · split
    · exact (t.writePa_mem_spad _ _).trans ht
    · rename_i _ ring _ _
      have hring : ring.mem.spad = s.mem.spad := ((State.writePa_mem_spad _ _ _).trans (t.writePa_mem_spad _ _)).trans ht
      clear_value ring
      split
      · exact hring
      · exact hring

theorem fillTlb_mem (s : State) (quad : Nat) (v : Xlate) : ∃ l1 l2, s.fillTlb quad v = s.setMem (s.mem.withTlbs l1 l2) := by
  unfold State.fillTlb
  split
  · exact ⟨s.mem.tlb1, s.mem.tlb2, rfl⟩
  · exact ⟨_, _, rfl⟩

/-- A translation put to use: the write is logged where it must be, and then at most the TLBs change. -/
theorem useXlate_mem (s : State) (quad : Nat) (v : Xlate) (acc : Access) : ∃ l1 l2 t,
    s.useXlate (some quad) v acc = t.setMem (t.mem.withTlbs l1 l2) ∧ t = if s.mustLog v acc then s.logDirty v.ten v else s := by
  unfold State.useXlate
  extract_lets log t y
  clear_value y
  have hsame : t = t.setMem (t.mem.withTlbs t.mem.tlb1 t.mem.tlb2) := rfl
  dsimp only
  split
  · exact ⟨_, _, t, hsame, rfl⟩
  · obtain ⟨l1, l2, hfill⟩ := fillTlb_mem t quad y
    exact ⟨l1, l2, t, hfill, rfl⟩

theorem mustLog_unlogged {v : Xlate} {acc : Access} (h : (s.quota v.ten).logon = false) : s.mustLog v acc = false := by
  simp [State.mustLog, State.wantsLog, h]

theorem prepared_useXlate (core : Nat) (s : State) (quad : Nat) (v : Xlate) (acc : Access) :
    s.Prepared core (s.useXlate (some quad) v acc) := by
  have hnear := s.near_useXlate (some quad) v acc
  obtain ⟨hblocks, hclusters, -, hcycle, hfab, hmgmt, -, -, hcaller⟩ := id hnear
  obtain ⟨l1, l2, t, huse, ht⟩ := useXlate_mem s quad v acc
  refine ⟨hblocks, hclusters, hcycle, hfab, hmgmt, hcaller, ?_, fun k _ => hnear.core k, fun hlog => ?_⟩
  · rw [huse]
    show t.mem.spad = s.mem.spad
    rw [ht]
    split
    · exact logDirty_spad s v.ten v
    · rfl
  · rw [mustLog_unlogged (hlog v.ten), if_neg Bool.false_ne_true] at ht
    rw [huse, ht]
    exact ⟨⟨l1, l2, rfl⟩, rfl, rfl⟩

theorem prepared_useVia (core : Nat) (s : State) (x : Ctx) (vs : List Xlate) (acc : Access) :
    s.Prepared core (s.useVia x vs acc) :=
  .foldl (fun s v => prepared_useXlate core s x.blk.quadId v acc) vs s

/-! ### Counters and requests of sites (R113, R118, R127) -/

theorem prepared_setCore (s : State) (core : Nat) (k : Core) : s.Prepared core (s.setCore core k) :=
  { State.Prepared.refl core s with core_other := fun _ hj => s.core_setCore_other k hj }

theorem prepared_countSite (s : State) (core idx : Nat) : s.Prepared core (s.countSite core idx) := prepared_setCore s core _

theorem prepared_siteRequest (s : State) (core : Nat) (r : SiteReq) : s.Prepared core (s.siteRequest core r) := by
  unfold State.siteRequest
  dsimp only
  split
  · exact .refl core s
  · split
    · exact prepared_countSite s core 6
    · exact ((prepared_setCore s core _).trans (prepared_countSite _ core _)).trans { State.Prepared.refl core _ with }

theorem prepared_askRewrite (s : State) (x : Ctx) (w : InstrWord) (widening : Bool) :
    s.Prepared x.blk.core (s.askRewrite x w widening) := by
  unfold State.askRewrite
  split
  · split
    · exact prepared_siteRequest s _ _
    · exact .refl _ s
  · exact .refl _ s

theorem prepared_siteAfter (s : State) (x : Ctx) (generic replay : Bool) (form : Option Native) :
    s.Prepared x.blk.core (s.siteAfter x generic replay form) := by
  unfold State.siteAfter
  split
  · exact prepared_askRewrite s x _ true
  · split
    · unfold State.quicken
      split
      · exact .refl _ s
      · split
        · exact .refl _ s
        · exact prepared_askRewrite s x _ false
    · exact .refl _ s

/-! ### The entries of accesses -/

/-- With no soft error anywhere, an entry does nothing before the effect but to count a failed guard (R117). -/
def EntryCounts (e : Entry) : Prop :=
  ∀ s x, s.mem.errs = [] → e.before s x = s ∨ e.before s x = s.countSite x.blk.core 2

theorem counts_plain : EntryCounts Entry.plain := fun _ _ _ => .inl rfl

theorem counts_guardEntry (g : Guard) (addr : State → Ctx → Nat → W64) : EntryCounts (guardEntry g addr) := fun s x _ => by
  unfold guardEntry
  dsimp only
  split
  · exact .inr rfl
  · exact .inl rfl

theorem EntryCounts.scans (h : EntryCounts e) (scan : State → Ctx → State) : EntryCounts (e.scans scan) := fun s x he => by
  have hkeep : (e.before s x).mem.errs = [] := by
    rcases h s x he with hb | hb
    · rw [hb]; exact he
    · rw [hb]; exact he
  have hscans : (e.scans scan).before s x = e.before s x := by
    unfold Entry.scans
    simp only [hkeep, List.isEmpty_nil, if_true]
  rw [hscans]
  exact h s x he

theorem EntryCounts.entered (h : EntryCounts e) (he : s.mem.errs = []) : s.Prepared x.blk.core (entered i e s x) := by
  have hcorrect : i.correct s x = s := by simp [Instr.correct, State.corrected, he]
  rw [Machine.entered, scanSlots_plain he, hcorrect]
  rcases h s x he with hb | hb
  · rw [hb]; exact .refl _ s
  · rw [hb]; exact prepared_countSite s _ 2

/-! ### The effects of accesses -/

/-- One operation is put in flight for the active lanes, which go to the next word; with no lane active, only the latter (log 25). -/
def AccessStarted (s : State) (x : Ctx) (d : Done) : Prop :=
  ∃ u, s.Prepared x.blk.core u ∧
    ((x.active = 0 ∧ d = Done.now x u) ∨
      (x.active ≠ 0 ∧ ∃ order scope ord k, d = Done.later x (u.startOp x order scope ord k)))

/-- An effect that, once its checks have passed, starts an access. -/
def StartsAccess (body : State → Ctx → Except Trap Done) : Prop := ∀ s x d, body s x = .ok d → AccessStarted s x d

theorem accessStarted_idle (s : State) (h : x.active = 0) : AccessStarted s x (Done.now x s) := ⟨s, .refl _ s, .inl ⟨h, rfl⟩⟩

theorem accessStarted_op (s : State) (h : x.active ≠ 0) (vs : List Xlate) (acc : Access) (generic replay : Bool)
    (form : Option Native) (order : Order) (scope : Scope) (ord : Bool) (k : OpKind) :
    AccessStarted s x
      (Done.later x (((s.useVia x vs acc).siteAfter x generic replay form).startOp x order scope ord k)) :=
  ⟨_, (prepared_useVia _ s x vs acc).trans (prepared_siteAfter _ x generic replay form), .inr ⟨h, _, _, _, _, rfl⟩⟩

theorem loadBody_starts {f : MaFmt} {m : MemForm} {g : Guard} {ldb bcast generic : Bool} :
    StartsAccess (loadBody f m g ldb bcast generic) := fun s x d hd => by
  unfold loadBody at hd
  dsimp only at hd
  split at hd
  next hidle => cases hd; exact accessStarted_idle s hidle
  next hactive =>
    split at hd
    · cases hd
    · split at hd
      · cases hd
      · cases hd; exact accessStarted_op s hactive ..

theorem storeBody_starts {f : MaFmt} {m : MemForm} {g : Guard} {generic : Bool} :
    StartsAccess (storeBody f m g generic) := fun s x d hd => by
  unfold storeBody at hd
  dsimp only at hd
  split at hd
  next hidle => cases hd; exact accessStarted_idle s hidle
  next hactive =>
    split at hd
    · cases hd
    · cases hd; exact accessStarted_op s hactive ..

theorem atomBody_starts {f : MbFmt} {m : MemForm} {g : Guard} {red generic : Bool} :
    StartsAccess (atomBody f m g red generic) := fun s x d hd => by
  unfold atomBody at hd
  dsimp only at hd
  split at hd
  next hidle => cases hd; exact accessStarted_idle s hidle
  next hactive =>
    split at hd
    · cases hd
    · split at hd
      · cases hd
      · cases hd; exact accessStarted_op s hactive ..

/-- Every load, store, atomic and reduction is such an issue. -/
theorem exec_laneAccess (hi : isLaneAccess i = true) (hc : i.ctl = some c) :
    ∃ e body, exec i = issue i c e body ∧ EntryCounts e ∧ StartsAccess body := by
  cases i with
  | lda _ f => cases hc; exact ⟨_, _, rfl, counts_plain.scans _, loadBody_starts⟩
  | ldg _ f | lds _ f | ldp _ f | ldk _ f | ldb _ f =>
    cases hc; exact ⟨_, _, rfl, (counts_guardEntry _ _).scans _, loadBody_starts⟩
  | sta _ f => cases hc; exact ⟨_, _, rfl, counts_plain, storeBody_starts⟩
  | stg _ f | sts _ f | stp _ f => cases hc; exact ⟨_, _, rfl, counts_guardEntry _ _, storeBody_starts⟩
  | atoma _ f | reda _ f => cases hc; exact ⟨_, _, rfl, counts_plain.scans _, atomBody_starts⟩
  | atomg _ f | atoms _ f | redg _ f | reds _ f =>
    cases hc; exact ⟨_, _, rfl, (counts_guardEntry _ _).scans _, atomBody_starts⟩
  | _ => cases hi

/-! ### An issue that ends in a trap is not counted -/

/-- Every strand has the count of issues that it had. -/
def SameIssued (s t : State) : Prop := ∀ u k, (t.strand u k).issued = (s.strand u k).issued

theorem SameIssued.trans (h : SameIssued s t) (h' : SameIssued t u) : SameIssued s u := fun v k => (h' v k).trans (h v k)

theorem sameIssued_of_blocks (h : t.blocks = s.blocks) : SameIssued s t := fun u k => by
  simp only [State.strand, State.block, h]

theorem State.Near.sameIssued (h : s.Near t) : SameIssued s t := sameIssued_of_blocks h.1

theorem sameIssued_updBlock (s : State) (u : Nat) {f : Block → Block} (huid : ∀ b, (f b).uid = b.uid)
    (hf : ∀ b k, ((f b).strand k).issued = (b.strand k).issued) : SameIssued s (s.updBlock u f) := fun v k => by
  simp only [State.strand, s.block_updBlock f huid]
  cases s.block v with
  | none => rfl
  | some b =>
    simp only [Option.map_some]
    split
    · exact hf b k
    · rfl

theorem Block.updStrand_issued (b : Block) (j k : Nat) {f : Strand → Strand} (hf : ∀ st, (f st).issued = st.issued) :
    ((b.updStrand j f).strand k).issued = (b.strand k).issued := by
  by_cases hk : k = j
  · subst hk
    by_cases hlen : k < b.strands.length
    · rw [b.strand_updStrand_self hlen, hf]
    · rw [Block.updStrand, Block.setStrand, List.set_eq_of_length_le (Nat.not_lt.mp hlen)]
  · rw [b.strand_updStrand_other hk]

theorem Strand.move_issued (st : Strand) (f : Frag) (gone : Lanes) (pcOf : Nat → W64) (stall nap : Option Nat) (hold : Hold) :
    (st.move f gone pcOf stall nap hold).issued = st.issued := by
  obtain ⟨⟨fs, ls, hmove⟩, -⟩ := st.move_rest f gone pcOf stall nap hold
  rw [hmove]

theorem sameIssued_trapMove (s : State) (b : Block) (sid : Nat) (f : Frag) (pc : W64) (hold : Hold) (rec : Option W64) :
    SameIssued s (s.trapMove b sid f pc hold rec) := by
  refine sameIssued_updBlock s b.uid (fun _ => rfl) fun b k => b.updStrand_issued sid k fun st => ?_
  refine (Strand.move_issued _ f 0 _ f.stall f.nap hold).trans ?_
  cases rec <;> rfl

/-- A block's mode and its fatal mark have no part in the counts. -/
theorem sameIssued_marks (s : State) (u : Nat) (mode : Block → Mode) (fatal : Block → Option TrapRec) :
    SameIssued s (s.updBlock u fun b => { b with mode := mode b, fatal := fatal b }) :=
  sameIssued_updBlock s u (fun _ => rfl) fun _ _ => rfl

theorem sameIssued_spendIssue (s : State) (b : Block) : SameIssued s (s.spendIssue b) :=
  sameIssued_marks (s.setCore b.core _) b.uid (fun x => x.mode.fire) (fun x => x.fatal)

theorem sameIssued_deliverTrap (s : State) (b : Block) (sid : Nat) (f : Frag) (p : Trap) (tpc : W64) (engine : Bool) :
    SameIssued s (s.deliverTrap b sid f p tpc engine) := by
  unfold State.deliverTrap
  extract_lets rec0 va t
  have ht : SameIssued s t :=
    (s.near_putRecord b va rec0.bytes).sameIssued.trans (sameIssued_spendIssue _ b)
  clear_value t rec0
  split
  · exact (ht.trans (sameIssued_trapMove t b sid f f.pc .parked none)).trans
      (sameIssued_marks _ b.uid (fun x => x.mode) fun x => x.fatal.orElse fun _ => some { rec0 with fatal := true })
  · exact (ht.trans (sameIssued_trapMove t b sid f rec0.rpc .free none)).trans
      (sameIssued_marks _ b.uid (fun x => x.mode.brk rec0) fun x => x.fatal)
  · exact ht.trans (sameIssued_trapMove t b sid f _ .free _)
  · exact (ht.trans (t.near_setTrapDesc b.ten 0x24 4 _).sameIssued).trans
      (sameIssued_trapMove _ b sid f rec0.rpc .free none)

theorem sameIssued_trapIssue (s : State) (x : Ctx) (p : Trap) : SameIssued s (s.trapIssue x p) :=
  sameIssued_deliverTrap s x.blk x.sid _ p x.fr.pc false

theorem sameIssued_trapped (he : s.mem.errs = []) (x : Ctx) (p : Trap) : SameIssued s (trapped i e s x p) := by
  have hlooked : i.looked e s x = s := by rw [Instr.looked, scanSlots_plain he, ite_self]
  have hcount : SameIssued s (s.countUnc x p) := by
    unfold State.countUnc
    split
    · exact sameIssued_of_blocks rfl
    · exact sameIssued_of_blocks rfl
  rw [trapped, hlooked]
  exact hcount.trans (sameIssued_trapIssue _ x p)

/-- An access whose strand counts an issue has passed its checks and started: a hold and every trap leave the count. -/
theorem laneAccess_issued {b : Block} (hi : isLaneAccess i = true) (hc : i.ctl = some c) (hx : s.ctx c = some x)
    (he : s.mem.errs = []) (hexec : exec i s = .next t) (hb : t.block x.blk.uid = some b)
    (hissued : (b.strand x.sid).issued = x.st.issued + 1) :
    ∃ u d, s.Prepared x.blk.core u ∧ AccessStarted u x d ∧ t = issued i s x d := by
  have hcounted : ¬ SameIssued s t := fun hsame => by
    obtain ⟨hblk, hst, -⟩ := ctx_eq hx
    have := hsame x.blk.uid x.sid
    rw [State.strand, State.strand, hb, hblk, hissued, hst] at this
    exact Nat.succ_ne_self _ this
  obtain ⟨e, body, hbody, hcounts, hstarts⟩ := exec_laneAccess hi hc
  rw [hbody] at hexec
  rcases issue_cases t hexec with rfl | ⟨y, p, -, -, -, rfl⟩ | ⟨y, hpass, ⟨p, -, rfl⟩ | ⟨d, hd, rfl⟩⟩
  · exact absurd (sameIssued_of_blocks rfl) hcounted
  · exact absurd (sameIssued_trapped he y p) hcounted
  · have hprep := (hcounts.entered he (i := i) (x := y)).blocks
    exact absurd ((sameIssued_of_blocks hprep).trans (sameIssued_trapIssue _ y p)) hcounted
  · obtain rfl : y = x := Option.some.inj (hpass.ctx.symm.trans hx)
    exact ⟨_, d, hcounts.entered he, hstarts _ _ d hd, rfl⟩

/-! ### After an access has started -/

/-- What an access that has started leaves: the block of its context has operations in flight beside those of before, and all that
`State.Prepared` keeps stays. -/
structure State.Started (s : State) (x : Ctx) (v : State) : Prop where
  rest : v.caller = s.caller ∧ v.mgmt = s.mgmt ∧ v.fab = s.fab ∧ v.clusters = s.clusters ∧ v.cycle = s.cycle
  spad : v.mem.spad = s.mem.spad
  core_other : ∀ k, k ≠ x.blk.core → v.core k = s.core k
  block_other : ∀ k, k ≠ x.blk.uid → v.block k = s.block k
  block_self : ∃ ops, v.block x.blk.uid = some { x.blk with flight := ops }
  unlogged : (∀ ten, (s.quota ten).logon = false) →
    (∃ l1 l2, v.mem = s.mem.withTlbs l1 l2) ∧ v.host = s.host ∧ v.agenda = s.agenda

theorem State.Prepared.started (h : s.Prepared x.blk.core u) (hx : s.ctx c = some x) : s.Started x u := by
  have hblock : ∀ k, u.block k = s.block k := fun k => by simp only [State.block, h.blocks]
  obtain ⟨hblk, -⟩ := ctx_eq hx
  exact ⟨⟨h.caller, h.mgmt, h.fab, h.clusters, h.cycle⟩, h.spad, h.core_other, fun k _ => hblock k,
    ⟨x.blk.flight, (hblock _).trans hblk⟩, h.unlogged⟩

theorem State.block_pushOp_other (s : State) {u k : Nat} (o : Op) (hk : k ≠ u) : (s.pushOp u o).block k = s.block k :=
  s.block_updBlock_other (fun b => { b with flight := b.flight ++ [{ o with id := s.nextId }] }) hk fun _ => rfl

theorem State.block_pushOp_self (s : State) {u : Nat} (o : Op) {b : Block} (hb : s.block u = some b) :
    (s.pushOp u o).block u = some { b with flight := b.flight ++ [{ o with id := s.nextId }] } :=
  s.block_updBlock_self (fun b => { b with flight := b.flight ++ [{ o with id := s.nextId }] }) hb fun _ => rfl

/-- An operation that enters flight changes its block's operations alone. -/
theorem State.Started.startOp (h : s.Started x u) (order : Order) (scope : Scope) (ord : Bool) (k : OpKind) :
    s.Started x (u.startOp x order scope ord k) where
  rest := h.rest
  spad := h.spad
  core_other := h.core_other
  block_other j hj := (u.block_pushOp_other _ hj).trans (h.block_other j hj)
  block_self := by
    obtain ⟨ops, hops⟩ := h.block_self
    exact ⟨ops ++ [_], u.block_pushOp_self _ hops⟩
  unlogged := h.unlogged

/-- The lanes of a started access go to the next word and its token counts an operation only where a lane is active. -/
theorem AccessStarted.shape {d : Done} (hd : AccessStarted u x d) (hu : s.Prepared x.blk.core u) (hx : s.ctx c = some x) :
    s.Started x d.st ∧ ((x.active = 0 ∧ d = Done.now x d.st) ∨ (x.active ≠ 0 ∧ d = Done.later x d.st)) := by
  obtain ⟨v, hv, ⟨hidle, rfl⟩ | ⟨hactive, order, scope, ord, k, rfl⟩⟩ := hd
  · exact ⟨(hu.trans hv).started hx, .inl ⟨hidle, rfl⟩⟩
  · exact ⟨((hu.trans hv).started hx).startOp .., .inr ⟨hactive, rfl⟩⟩

/-! ### The strand of a started access -/

/-- The lanes stand at the next word and, unless the fragment merges with one that waits, no token changes where the issue counts
none. -/
theorem issuedStrand_now (s : State) (x : Ctx) (v : State) (st : Strand) :
    (∀ L, x.fr.lanes.getLsbD L = true →
      ((issuedStrand s x (Done.now x v) st).fragOf L).map (·.pc) = some (x.fr.pc + 16)) ∧
    ((∀ g ∈ st.frags, g.pc = x.fr.pc + 16 → g.hold = .free) →
      ∀ L, (issuedStrand s x (Done.now x v) st).lane L = st.lane L) :=
  ⟨fun _ hL => st.move_together x.fr (x.fr.pc + 16) _ _ _ hL, fun hfree L =>
    congrArg (fun ls => SMap.get Lane.dead ls L) (st.move_free_lanes x.fr (x.fr.pc + 16) _ _ hfree)⟩

/-- Where the lanes of a started access stand, and which token counts it. -/
theorem issuedStrand_started {d : Done} {v : State} (st : Strand)
    (h : (x.active = 0 ∧ d = Done.now x v) ∨ (x.active ≠ 0 ∧ d = Done.later x v)) :
    (∀ L, x.fr.lanes.getLsbD L = true → ((issuedStrand s x d st).fragOf L).map (·.pc) = some (x.fr.pc + 16)) ∧
    ((∀ g ∈ st.frags, g.pc = x.fr.pc + 16 → g.hold = .free) → ∀ L, (issuedStrand s x d st).lane L =
      if x.fr.lanes.getLsbD L = true ∧ x.ctl.sett ≠ 0 ∧ x.active ≠ 0
      then (st.lane L).setTok x.ctl.sett.toNat ((st.lane L).tok x.ctl.sett.toNat + 1) else st.lane L) := by
  rcases h with ⟨hidle, rfl⟩ | ⟨hactive, rfl⟩
  · obtain ⟨hnext, hlane⟩ := issuedStrand_now s x v st
    exact ⟨hnext, fun hfree L => by rw [hlane hfree L, if_neg fun ⟨_, _, hactive⟩ => hactive hidle]⟩
  · refine ⟨fun L hL => issuedStrand_next s x v st hL, fun hfree L => ?_⟩
    rw [issuedStrand_lane s x v st hfree L]
    simp only [ne_eq, hactive, not_false_eq_true, and_true]

/-! ### The machine after a started access -/

/-- The machine around a started access. -/
theorem issued_started_rest {d : Done} (i : Instr) (he : s.mem.errs = []) (h : s.Started x d.st) :
    let t := issued i s x d
    t.caller = s.caller ∧ t.mgmt = s.mgmt ∧ t.fab = s.fab ∧ t.clusters = s.clusters ∧ t.cycle = s.cycle ∧
    (∀ k, k ≠ x.blk.core → t.core k = s.core k) ∧ ∀ k, k ≠ x.blk.uid → t.block k = s.block k := by
  obtain ⟨hcaller, -, hmgmt, hfab, hclusters, hcycle, -, hcores, hblocks⟩ := settle_rest i s x (s.commit x d)
  obtain ⟨hcaller', hmgmt', hfab', hclusters', hcycle'⟩ := h.rest
  dsimp only
  rw [issued, scanSlots_plain he]
  refine ⟨hcaller.trans hcaller', hmgmt.trans hmgmt', hfab.trans hfab', hclusters.trans hclusters', hcycle.trans hcycle',
    fun k hk => ?_, fun k hk => ?_⟩
  · rw [State.core, hcores]
    exact (commit_core_other d hk).trans (h.core_other k hk)
  · rw [hblocks k hk, commit_block_other d hk, h.block_other k hk]

/-- The memories after a started access: the scratchpads stay, and where no tenant logs its writes only forwarded lines are
consumed (R256) and the TLBs change. -/
theorem issued_started_mem {d : Done} (i : Instr) (he : s.mem.errs = []) (h : s.Started x d.st) :
    let t := issued i s x d
    t.mem.spad = s.mem.spad ∧ ((∀ ten, (s.quota ten).logon = false) →
      t.mem = { (s.consumeAt x.blk (i.slotReads s x)).mem with tlb1 := t.mem.tlb1, tlb2 := t.mem.tlb2 } ∧
      t.host = s.host ∧ t.agenda = s.agenda) := by
  obtain ⟨-, hhost, -, -, -, -, hagenda, -, -⟩ := settle_rest i s x (s.commit x d)
  have hmem : (i.settle s x (s.commit x d)).mem = ((s.commit x d).consumeAt x.blk (i.slotReads s x)).mem :=
    (closeAsks_rest _ _).1
  dsimp only
  rw [issued, scanSlots_plain he]
  refine ⟨?_, fun hlog => ?_⟩
  · rw [hmem, consumeAt_spad]
    exact h.spad
  · obtain ⟨⟨l1, l2, htlbs⟩, hhost', hagenda'⟩ := h.unlogged hlog
    refine ⟨?_, hhost.trans hhost', hagenda.trans hagenda'⟩
    rw [hmem, consumeAt_withTlbs (t := s.commit x d) htlbs]
    rfl

/-- The block of a started access: its convergence register and its other strands stay, and its strand has issued. -/
theorem issued_started_self {d : Done} (i : Instr) (hx : s.ctx c = some x) (he : s.mem.errs = []) (h : s.Started x d.st) :
    ∃ b, (issued i s x d).block x.blk.uid = some b ∧ b.inner = x.blk.inner ∧
      (∀ k, k ≠ x.sid → b.strand k = x.blk.strand k) ∧ b.strand x.sid = issuedStrand s x d x.st := by
  obtain ⟨-, hst, -, hsid, -⟩ := ctx_eq hx
  obtain ⟨ops, hops⟩ := h.block_self
  obtain ⟨fl, hb, -, -⟩ := issued_block_self i he hops
  refine ⟨_, hb, rfl, fun k hk => ?_, ?_⟩
  · exact x.blk.strand_updStrand_other hk _
  · rw [hst]
    exact x.blk.strand_updStrand_self hsid _

/-- Settles O27: the strand counts an issue, so that the access has started (`laneAccess_issued`), and what it leaves is read off the
lemmas on the machine, the memories, the block and the strand. -/
theorem accessIssueFrame : Obligations.AccessIssueFrame := by
  intro i c s x t b hi hc hx he hexec hb hissued
  obtain ⟨u, d, hu, hd, rfl⟩ := laneAccess_issued hi hc hx he hexec hb hissued
  obtain ⟨hstarted, hshape⟩ := hd.shape hu hx
  obtain ⟨hcaller, hmgmt, hfab, hclusters, hcycle, hcore, hblock⟩ := issued_started_rest i he hstarted
  obtain ⟨hspad, hunlogged⟩ := issued_started_mem i he hstarted
  obtain ⟨b', hb', hinner, hothers, hself⟩ := issued_started_self i hx he hstarted
  obtain rfl : b' = b := Option.some.inj (hb'.symm.trans hb)
  obtain ⟨⟨fs, ls, ws, hrest⟩, hlanes⟩ := issuedStrand_rest s x d x.st
  obtain ⟨hnext, htok⟩ := issuedStrand_started (s := s) x.st hshape
  obtain ⟨-, -, rfl, -, -⟩ := ctx_eq hx
  refine ⟨hcaller, hmgmt, hfab, hclusters, hcycle, hspad, hunlogged, hcore, hblock, hinner, hothers, ?_⟩
  dsimp only
  rw [hself]
  refine ⟨?_, ?_, hnext, fun L _ => hlanes L, fun hfree L _ => htok hfree L⟩
  · rw [hrest]
    exact ⟨rfl, rfl, rfl, rfl⟩
  · rw [hrest]

end Sys2Proof.Machine
end

section
/-!
PROOFS. Words: the fields of an append, of the operands, of FUNC and of the word, read back and put together; the opcode map in both
directions; what the decoder answers for each word.
-/
namespace Sys2Proof

/-! ### Reading a field of an append -/

/-- A field above the low part of an append is a field of the high part. -/
theorem extract_above {v w start len : Nat} {hi : BitVec v} {lo : BitVec w} {y : BitVec len} (h : w.ble start = true)
    (hy : hi.extractLsb' (start - w) len = y) : (hi ++ lo).extractLsb' start len = y :=
  (BitVec.extractLsb'_append_eq_of_le (Nat.le_of_ble_eq_true h)).trans hy

/-- A bit is the field of width 1 at its place. -/
theorem ofBool_getLsbD {n : Nat} (x : BitVec n) (k : Nat) : BitVec.ofBool (x.getLsbD k) = x.extractLsb' k 1 := by
  rw [BitVec.getLsbD_eq_extractLsb']
  generalize x.extractLsb' k 1 = y
  revert y; decide

theorem getLsbD_of_extract {n k : Nat} {x : BitVec n} {b : Bool} (h : x.extractLsb' k 1 = BitVec.ofBool b) :
    x.getLsbD k = b := by
  rw [BitVec.getLsbD_eq_extractLsb', h]
  cases b <;> rfl

/-- Neighbouring fields of a word, put together, are one field of it. -/
theorem append_fields {n v w start : Nat} {x : BitVec n} {hi : BitVec v} {lo : BitVec w}
    (hhi : hi = x.extractLsb' (start + w) v) (hlo : lo = x.extractLsb' start w) : hi ++ lo = x.extractLsb' start (v + w) := by
  rw [hhi, hlo, BitVec.extractLsb'_append_extractLsb'_eq_extractLsb' rfl]

/-! ### Codes (R63, R66, R70) -/

@[simp] theorem Ty.ofCode_code (t : Ty) : Ty.ofCode t.code = t := by cases t <;> rfl
@[simp] theorem Ty.code_ofCode : ∀ c, (Ty.ofCode c).code = c := by decide
@[simp] theorem Fmt.ofCode_code (f : Fmt) : Fmt.ofCode f.code = some f := by cases f <;> rfl
theorem Fmt.code_of_ofCode : ∀ c, ∀ f ∈ Fmt.ofCode c, f.code = c := by decide
@[simp] theorem Order.ofCode_code (o : Order) : Order.ofCode o.code = some o := by cases o <;> rfl
theorem Order.code_of_ofCode : ∀ c, ∀ o ∈ Order.ofCode c, o.code = c := by decide
@[simp] theorem Scope.ofCode_code (s : Scope) : Scope.ofCode s.code = some s := by cases s <;> rfl
theorem Scope.code_of_ofCode : ∀ c, ∀ s ∈ Scope.ofCode c, s.code = c := by decide

/-! ### Operand fields (R12, R57, R58) -/

theorem Operand.ofField_field (o : Operand) : Operand.ofField o.field = some o := by
  cases o with
  | vec n =>
    have hkind : (0#2 ++ 0#2 ++ n : BitVec 12).extractLsb' 10 2 = 0 :=
      extract_above rfl BitVec.extractLsb'_append_eq_left
    have hzero : (0#2 ++ 0#2 ++ n : BitVec 12).extractLsb' 8 2 = 0 :=
      extract_above rfl BitVec.extractLsb'_append_eq_right
    have hn : (0#2 ++ 0#2 ++ n : BitVec 12).extractLsb' 0 8 = n := BitVec.extractLsb'_append_eq_right
    simp only [field, ofField, hkind, hzero, hn]
    rfl
  | uni n =>
    have hkind : (1#2 ++ 0#4 ++ n : BitVec 12).extractLsb' 10 2 = 1 :=
      extract_above rfl BitVec.extractLsb'_append_eq_left
    have hzero : (1#2 ++ 0#4 ++ n : BitVec 12).extractLsb' 6 4 = 0 :=
      extract_above rfl BitVec.extractLsb'_append_eq_right
    have hn : (1#2 ++ 0#4 ++ n : BitVec 12).extractLsb' 0 6 = n := BitVec.extractLsb'_append_eq_right
    simp only [field, ofField, hkind, hzero, hn]
    rfl
  | slot d k =>
    have hkind : (2#2 ++ d ++ k : BitVec 12).extractLsb' 10 2 = 2 :=
      extract_above rfl BitVec.extractLsb'_append_eq_left
    have hd : (2#2 ++ d ++ k : BitVec 12).extractLsb' 7 3 = d :=
      extract_above rfl BitVec.extractLsb'_append_eq_right
    have hk : (2#2 ++ d ++ k : BitVec 12).extractLsb' 0 7 = k := BitVec.extractLsb'_append_eq_right
    simp only [field, ofField, hkind, hd, hk]
    rfl
  | imm n =>
    have hkind : (3#2 ++ 0#1 ++ n : BitVec 12).extractLsb' 10 2 = 3 :=
      extract_above rfl BitVec.extractLsb'_append_eq_left
    have hlong : (3#2 ++ 0#1 ++ n : BitVec 12).getLsbD 9 = false :=
      getLsbD_of_extract (extract_above rfl BitVec.extractLsb'_append_eq_right)
    have hn : (3#2 ++ 0#1 ++ n : BitVec 12).extractLsb' 0 9 = n := BitVec.extractLsb'_append_eq_right
    simp only [field, ofField, hkind, hlong, hn]
    rfl
  | immWord => rfl

/-- No bit of a field that names an operand is lost. -/
theorem Operand.field_of_ofField {f : BitVec 12} {o : Operand} (h : Operand.ofField f = some o) : o.field = f := by
  have hkinds : ∀ k : BitVec 2, k.toNat ≠ 0 → k.toNat ≠ 1 → k.toNat ≠ 2 → 3#2 = k := by decide
  unfold ofField at h
  split at h
  next hkind =>
    split at h
    next hzero =>
      cases h
      exact (append_fields (append_fields (BitVec.eq_of_toNat_eq (y := 0#2) hkind).symm hzero.symm) rfl).trans
        BitVec.extractLsb'_eq_self
    next => cases h
  next hkind =>
    split at h
    next hzero =>
      cases h
      exact (append_fields (append_fields (BitVec.eq_of_toNat_eq (y := 1#2) hkind).symm hzero.symm) rfl).trans
        BitVec.extractLsb'_eq_self
    next => cases h
  next hkind =>
    cases h
    exact (append_fields (append_fields (BitVec.eq_of_toNat_eq (y := 2#2) hkind).symm rfl) rfl).trans BitVec.extractLsb'_eq_self
  next h0 h1 h2 =>
    have hkind : 3#2 = f.extractLsb' 10 2 := hkinds _ h0 h1 h2
    split at h
    next hlong =>
      have hbit : 1#1 = f.extractLsb' 9 1 := by rw [← ofBool_getLsbD, hlong]; rfl
      split at h
      next hzero =>
        cases h
        exact (append_fields (append_fields hkind hbit) hzero.symm).trans BitVec.extractLsb'_eq_self
      next => cases h
    next hshort =>
      cases h
      have hbit : 0#1 = f.extractLsb' 9 1 := by rw [← ofBool_getLsbD, Bool.not_eq_true _ |>.mp hshort]; rfl
      exact (append_fields (append_fields hkind hbit) rfl).trans BitVec.extractLsb'_eq_self

/-! ### FUNC (R62 to R72) -/

theorem CFmt.ofFunc_func (f : CFmt) : CFmt.ofFunc f.func f.ops = some f := by
  have hsub : f.func.extractLsb' 12 4 = f.sub := extract_above rfl BitVec.extractLsb'_append_eq_left
  have hdepth : f.func.extractLsb' 9 3 = f.depth := extract_above rfl BitVec.extractLsb'_append_eq_right
  have hsel : f.func.extractLsb' 0 9 = f.sel := BitVec.extractLsb'_append_eq_right
  rw [ofFunc, hsub, hdepth, hsel]

theorem CFmt.func_of_ofFunc {x : BitVec 16} {o : Ops} {f : CFmt} (h : CFmt.ofFunc x o = some f) : f.func = x ∧ f.ops = o := by
  cases h
  exact ⟨(append_fields (append_fields rfl rfl) rfl).trans BitVec.extractLsb'_eq_self, rfl⟩

theorem AFmt.ofFunc_func (f : AFmt) : AFmt.ofFunc f.func f.ops = some f := by
  have hzero : f.func.extractLsb' 0 3 = 0 := BitVec.extractLsb'_append_eq_right
  have hmodv : f.func.getLsbD 3 = f.modv :=
    getLsbD_of_extract (extract_above rfl BitVec.extractLsb'_append_eq_right)
  have hsty : f.func.extractLsb' 4 4 = f.sty.code :=
    extract_above rfl <| extract_above rfl BitVec.extractLsb'_append_eq_right
  have hty : f.func.extractLsb' 8 4 = f.ty.code :=
    extract_above rfl <| extract_above rfl <| extract_above rfl BitVec.extractLsb'_append_eq_right
  have hsub : f.func.extractLsb' 12 4 = f.sub :=
    extract_above rfl <| extract_above rfl <| extract_above rfl BitVec.extractLsb'_append_eq_left
  rw [ofFunc, if_pos hzero, hsub, hty, hsty, hmodv, Ty.ofCode_code, Ty.ofCode_code]

theorem AFmt.func_of_ofFunc {x : BitVec 16} {o : Ops} {f : AFmt} (h : AFmt.ofFunc x o = some f) : f.func = x ∧ f.ops = o := by
  unfold ofFunc at h
  split at h
  next hzero =>
    cases h
    refine ⟨.trans ?_ BitVec.extractLsb'_eq_self, rfl⟩
    exact append_fields (append_fields (append_fields (append_fields rfl (Ty.code_ofCode _)) (Ty.code_ofCode _))
      (ofBool_getLsbD x 3)) hzero.symm
  next => cases h

theorem MaFmt.ofFunc_func (f : MaFmt) : MaFmt.ofFunc f.func f.ops = some f := by
  have hfwd : f.func.getLsbD 0 = f.fwd := getLsbD_of_extract BitVec.extractLsb'_append_eq_right
  have hscope : f.func.extractLsb' 1 3 = f.scope.code := extract_above rfl BitVec.extractLsb'_append_eq_right
  have horder : f.func.extractLsb' 4 3 = f.order.code :=
    extract_above rfl <| extract_above rfl BitVec.extractLsb'_append_eq_right
  have hfmt : f.func.extractLsb' 7 5 = f.fmt.code :=
    extract_above rfl <| extract_above rfl <| extract_above rfl BitVec.extractLsb'_append_eq_right
  have hzx : f.func.getLsbD 12 = f.zx := getLsbD_of_extract <|
    extract_above rfl <| extract_above rfl <| extract_above rfl <| extract_above rfl
      BitVec.extractLsb'_append_eq_right
  have hspace : f.func.extractLsb' 13 3 = f.space :=
    extract_above rfl <| extract_above rfl <| extract_above rfl <| extract_above rfl
      BitVec.extractLsb'_append_eq_left
  simp only [ofFunc, hfwd, hscope, horder, hfmt, hzx, hspace, Fmt.ofCode_code, Order.ofCode_code, Scope.ofCode_code]
  rfl

theorem MaFmt.func_of_ofFunc {x : BitVec 16} {o : Ops} {f : MaFmt} (h : MaFmt.ofFunc x o = some f) :
    f.func = x ∧ f.ops = o := by
  simp only [ofFunc, Option.bind_eq_bind, Option.bind_eq_some_iff] at h
  obtain ⟨fmt, hfmt, order, horder, scope, hscope, h⟩ := h
  cases h
  refine ⟨.trans ?_ BitVec.extractLsb'_eq_self, rfl⟩
  exact append_fields (append_fields (append_fields (append_fields (append_fields rfl (ofBool_getLsbD x 12))
    (Fmt.code_of_ofCode _ _ hfmt)) (Order.code_of_ofCode _ _ horder)) (Scope.code_of_ofCode _ _ hscope)) (ofBool_getLsbD x 0)

theorem MbFmt.ofFunc_func (f : MbFmt) : MbFmt.ofFunc f.func f.ops = some f := by
  have hclu : f.func.getLsbD 0 = f.clu := getLsbD_of_extract BitVec.extractLsb'_append_eq_right
  have hscope : f.func.extractLsb' 1 3 = f.scope.code := extract_above rfl BitVec.extractLsb'_append_eq_right
  have horder : f.func.extractLsb' 4 3 = f.order.code := extract_above rfl <| extract_above rfl
    BitVec.extractLsb'_append_eq_right
  have hord : f.func.getLsbD 7 = f.ord := getLsbD_of_extract <|
    extract_above rfl <| extract_above rfl <| extract_above rfl BitVec.extractLsb'_append_eq_right
  have hty : f.func.extractLsb' 8 4 = f.ty.code :=
    extract_above rfl <| extract_above rfl <| extract_above rfl <| extract_above rfl BitVec.extractLsb'_append_eq_right
  have hsub : f.func.extractLsb' 12 4 = f.sub :=
    extract_above rfl <| extract_above rfl <| extract_above rfl <| extract_above rfl BitVec.extractLsb'_append_eq_left
  simp only [ofFunc, hclu, hscope, horder, hord, hty, hsub, Ty.ofCode_code, Order.ofCode_code, Scope.ofCode_code]
  rfl

theorem MbFmt.func_of_ofFunc {x : BitVec 16} {o : Ops} {f : MbFmt} (h : MbFmt.ofFunc x o = some f) :
    f.func = x ∧ f.ops = o := by
  simp only [ofFunc, Option.bind_eq_bind, Option.bind_eq_some_iff] at h
  obtain ⟨order, horder, scope, hscope, h⟩ := h
  cases h
  refine ⟨.trans ?_ BitVec.extractLsb'_eq_self, rfl⟩
  exact append_fields (append_fields (append_fields (append_fields (append_fields rfl (Ty.code_ofCode _)) (ofBool_getLsbD x 7))
    (Order.code_of_ofCode _ _ horder)) (Scope.code_of_ofCode _ _ hscope)) (ofBool_getLsbD x 0)

theorem McFmt.ofFunc_func (f : McFmt) : McFmt.ofFunc f.func f.ops = some f := by
  have hzero : f.func.extractLsb' 0 7 = 0 := BitVec.extractLsb'_append_eq_right
  have hfmt : f.func.extractLsb' 7 5 = f.fmt.code := extract_above rfl BitVec.extractLsb'_append_eq_right
  have hsub : f.func.extractLsb' 12 4 = f.sub := extract_above rfl BitVec.extractLsb'_append_eq_left
  simp only [ofFunc, hzero, hfmt, hsub, Fmt.ofCode_code]
  rfl

theorem McFmt.func_of_ofFunc {x : BitVec 16} {o : Ops} {f : McFmt} (h : McFmt.ofFunc x o = some f) :
    f.func = x ∧ f.ops = o := by
  simp only [ofFunc, Option.bind_eq_bind, Option.bind_eq_some_iff] at h
  obtain ⟨fmt, hfmt, h⟩ := h
  split at h
  next hzero =>
    cases h
    exact ⟨(append_fields (append_fields rfl (Fmt.code_of_ofCode _ _ hfmt)) hzero.symm).trans BitVec.extractLsb'_eq_self, rfl⟩
  next => cases h

theorem SFmt.ofFunc_func (f : SFmt) : SFmt.ofFunc f.func f.ops = some f := by
  have hzero : f.func.extractLsb' 0 2 = 0 := BitVec.extractLsb'_append_eq_right
  have hty : f.func.extractLsb' 2 4 = f.ty.code := extract_above rfl BitVec.extractLsb'_append_eq_right
  have horder : f.func.extractLsb' 6 3 = f.order.code := extract_above rfl <| extract_above rfl
    BitVec.extractLsb'_append_eq_right
  have hsd : f.func.extractLsb' 9 3 = f.sd :=
    extract_above rfl <| extract_above rfl <| extract_above rfl BitVec.extractLsb'_append_eq_right
  have hsub : f.func.extractLsb' 12 4 = f.sub :=
    extract_above rfl <| extract_above rfl <| extract_above rfl BitVec.extractLsb'_append_eq_left
  simp only [ofFunc, hzero, hty, horder, hsd, hsub, Ty.ofCode_code, Order.ofCode_code]
  rfl

theorem SFmt.func_of_ofFunc {x : BitVec 16} {o : Ops} {f : SFmt} (h : SFmt.ofFunc x o = some f) : f.func = x ∧ f.ops = o := by
  simp only [ofFunc, Option.bind_eq_bind, Option.bind_eq_some_iff] at h
  obtain ⟨order, horder, h⟩ := h
  split at h
  next hzero =>
    cases h
    refine ⟨.trans ?_ BitVec.extractLsb'_eq_self, rfl⟩
    exact append_fields (append_fields (append_fields (append_fields rfl rfl) (Order.code_of_ofCode _ _ horder))
      (Ty.code_ofCode _)) hzero.symm
  next => cases h

theorem TFmt.ofFunc_func (f : TFmt) : TFmt.ofFunc f.func f.ops = some f := by
  have hzero : f.func.extractLsb' 0 5 = 0 := BitVec.extractLsb'_append_eq_right
  have hint : f.func.getLsbD 5 = f.int := getLsbD_of_extract <| extract_above rfl BitVec.extractLsb'_append_eq_right
  have hadd : f.func.getLsbD 6 = f.add := getLsbD_of_extract <|
    extract_above rfl <| extract_above rfl BitVec.extractLsb'_append_eq_right
  have hfmt : f.func.extractLsb' 7 5 = f.fmt.code :=
    extract_above rfl <| extract_above rfl <| extract_above rfl BitVec.extractLsb'_append_eq_right
  have hsub : f.func.extractLsb' 12 4 = f.sub :=
    extract_above rfl <| extract_above rfl <| extract_above rfl BitVec.extractLsb'_append_eq_left
  simp only [ofFunc, hzero, hint, hadd, hfmt, hsub, Fmt.ofCode_code]
  rfl

theorem TFmt.func_of_ofFunc {x : BitVec 16} {o : Ops} {f : TFmt} (h : TFmt.ofFunc x o = some f) : f.func = x ∧ f.ops = o := by
  simp only [ofFunc, Option.bind_eq_bind, Option.bind_eq_some_iff] at h
  obtain ⟨fmt, hfmt, h⟩ := h
  split at h
  next hzero =>
    cases h
    refine ⟨.trans ?_ BitVec.extractLsb'_eq_self, rfl⟩
    exact append_fields (append_fields (append_fields (append_fields rfl (Fmt.code_of_ofCode _ _ hfmt))
      (ofBool_getLsbD x 6)) (ofBool_getLsbD x 5)) hzero.symm
  next => cases h

/-! ### The fields of an assembled word (R54) -/

section
variable (opc : BitVec 8) (c : Ctl) (x : BitVec 16) (o : Ops)

theorem func_assemble : (assemble opc c x o).extractLsb' 32 16 = x := extract_above rfl BitVec.extractLsb'_append_eq_right

theorem opsOfWord_assemble : Ops.ofWord (assemble opc c x o) = some o := by
  have himm : (assemble opc c x o).extractLsb' 0 32 = o.imm := BitVec.extractLsb'_append_eq_right
  have hc : (assemble opc c x o).extractLsb' 48 12 = o.c.field :=
    extract_above rfl <| extract_above rfl BitVec.extractLsb'_append_eq_right
  have hb : (assemble opc c x o).extractLsb' 60 12 = o.b.field :=
    extract_above rfl <| extract_above rfl <| extract_above rfl BitVec.extractLsb'_append_eq_right
  have ha : (assemble opc c x o).extractLsb' 72 12 = o.a.field :=
    extract_above rfl <| extract_above rfl <| extract_above rfl <| extract_above rfl BitVec.extractLsb'_append_eq_right
  have hd : (assemble opc c x o).extractLsb' 84 12 = o.d.field :=
    extract_above rfl <| extract_above rfl <| extract_above rfl <| extract_above rfl <| extract_above rfl
      BitVec.extractLsb'_append_eq_right
  simp only [Ops.ofWord, himm, hc, hb, ha, hd, Operand.ofField_field]
  rfl

/-- A field of CTL and SITE, bits 119:96 of the word. -/
theorem extract_assemble_ctl {start len : Nat} {y : BitVec len} (hlo : 96 ≤ start) (hhi : start + len ≤ 120)
    (hy : c.bits.extractLsb' (start - 96) len = y) :
    (assemble opc c x o).extractLsb' start len = y := by
  rw [assemble]
  iterate 6 rw [BitVec.extractLsb'_append_eq_of_le (by omega)]
  rw [BitVec.extractLsb'_append_eq_of_add_le (by omega), ← hy]
  congr 1

theorem site_assemble : (assemble opc c x o).extractLsb' 96 3 = 0 :=
  extract_assemble_ctl _ _ _ _ (by decide) (by decide) BitVec.extractLsb'_append_eq_right

theorem ctlOfWord_assemble : Ctl.ofWord (assemble opc c x o) = c := by
  have hflips : (assemble opc c x o).extractLsb' 99 3 = c.flips :=
    extract_assemble_ctl _ _ _ _ (by decide) (by decide) <| extract_above rfl BitVec.extractLsb'_append_eq_right
  have hpin : (assemble opc c x o).getLsbD 102 = c.pin :=
    getLsbD_of_extract <| extract_assemble_ctl _ _ _ _ (by decide) (by decide) <| extract_above rfl <| extract_above rfl
      BitVec.extractLsb'_append_eq_right
  have hq : (assemble opc c x o).getLsbD 103 = c.q :=
    getLsbD_of_extract <| extract_assemble_ctl _ _ _ _ (by decide) (by decide) <|
      extract_above rfl <| extract_above rfl <| extract_above rfl BitVec.extractLsb'_append_eq_right
  have hyld : (assemble opc c x o).getLsbD 104 = c.yld :=
    getLsbD_of_extract <| extract_assemble_ctl _ _ _ _ (by decide) (by decide) <|
      extract_above rfl <| extract_above rfl <| extract_above rfl <| extract_above rfl BitVec.extractLsb'_append_eq_right
  have hsett : (assemble opc c x o).extractLsb' 105 3 = c.sett :=
    extract_assemble_ctl _ _ _ _ (by decide) (by decide) <|
      extract_above rfl <| extract_above rfl <| extract_above rfl <| extract_above rfl <| extract_above rfl
        BitVec.extractLsb'_append_eq_right
  have hwait : (assemble opc c x o).extractLsb' 108 4 = c.wait :=
    extract_assemble_ctl _ _ _ _ (by decide) (by decide) <| extract_above rfl <|
      extract_above rfl <| extract_above rfl <| extract_above rfl <| extract_above rfl <| extract_above rfl
        BitVec.extractLsb'_append_eq_right
  have hguard : (assemble opc c x o).extractLsb' 112 4 = c.guard :=
    extract_assemble_ctl _ _ _ _ (by decide) (by decide) <| extract_above rfl <| extract_above rfl <|
      extract_above rfl <| extract_above rfl <| extract_above rfl <| extract_above rfl <| extract_above rfl
        BitVec.extractLsb'_append_eq_right
  have hstall : (assemble opc c x o).extractLsb' 116 4 = c.stall :=
    extract_assemble_ctl _ _ _ _ (by decide) (by decide) <| extract_above rfl <| extract_above rfl <|
      extract_above rfl <| extract_above rfl <| extract_above rfl <| extract_above rfl <| extract_above rfl
        BitVec.extractLsb'_append_eq_left
  simp only [Ctl.ofWord, hflips, hpin, hq, hyld, hsett, hwait, hguard, hstall]
end

/-! ### A word put together from its own fields -/

theorem bits_ctlOfWord {w : InstrWord} (h : w.extractLsb' 96 3 = 0) : (Ctl.ofWord w).bits = w.extractLsb' 96 24 :=
  append_fields (append_fields (append_fields (append_fields (append_fields (append_fields (append_fields (append_fields rfl rfl)
    rfl) rfl) (ofBool_getLsbD w 104)) (ofBool_getLsbD w 103)) (ofBool_getLsbD w 102)) rfl) h.symm

/-- A word whose bits 98:96 are zero is assembled from its own fields. -/
theorem assemble_fields {w : InstrWord} {o : Ops} (hsite : w.extractLsb' 96 3 = 0) (ho : Ops.ofWord w = some o) :
    assemble (w.extractLsb' 120 8) (Ctl.ofWord w) (w.extractLsb' 32 16) o = w := by
  simp only [Ops.ofWord, Option.bind_eq_bind, Option.bind_eq_some_iff] at ho
  obtain ⟨d, hd, a, ha, b, hb, c, hc, ho⟩ := ho
  cases ho
  refine .trans ?_ BitVec.extractLsb'_eq_self
  exact append_fields (append_fields (append_fields (append_fields (append_fields (append_fields (append_fields rfl
    (bits_ctlOfWord hsite)) (Operand.field_of_ofField hd)) (Operand.field_of_ofField ha)) (Operand.field_of_ofField hb))
    (Operand.field_of_ofField hc)) rfl) rfl

/-! ### The opcode map (R73) -/

/-- A program instruction of opcode `opc` with these control fields, FUNC and operands. -/
def Instr.HasFields (i : Instr) (opc : Nat) (c : Ctl) (x : BitVec 16) (o : Ops) : Prop :=
  i.opc.toNat = opc ∧ i.ctl = some c ∧ i.funcOps = some (x, o)

section
variable {opc : Nat} {c : Ctl} {x : BitVec 16} {o : Ops} {i : Instr}

theorem decodeC_fields (h : (CFmt.ofFunc x o).bind (decodeC opc c) = some i) : i.HasFields opc c x o := by
  obtain ⟨f, hf, hi⟩ := Option.bind_eq_some_iff.mp h
  obtain ⟨rfl, rfl⟩ := CFmt.func_of_ofFunc hf
  unfold decodeC at hi
  split at hi <;> cases hi <;> exact ⟨rfl, rfl, rfl⟩

theorem decodeA_fields (h : (AFmt.ofFunc x o).bind (decodeA opc c) = some i) : i.HasFields opc c x o := by
  obtain ⟨f, hf, hi⟩ := Option.bind_eq_some_iff.mp h
  obtain ⟨rfl, rfl⟩ := AFmt.func_of_ofFunc hf
  unfold decodeA at hi
  split at hi <;> cases hi <;> exact ⟨rfl, rfl, rfl⟩

theorem decodeMa_fields (h : (MaFmt.ofFunc x o).bind (decodeMa opc c) = some i) : i.HasFields opc c x o := by
  obtain ⟨f, hf, hi⟩ := Option.bind_eq_some_iff.mp h
  obtain ⟨rfl, rfl⟩ := MaFmt.func_of_ofFunc hf
  unfold decodeMa at hi
  split at hi <;> cases hi <;> exact ⟨rfl, rfl, rfl⟩

theorem decodeMb_fields (h : (MbFmt.ofFunc x o).bind (decodeMb opc c) = some i) : i.HasFields opc c x o := by
  obtain ⟨f, hf, hi⟩ := Option.bind_eq_some_iff.mp h
  obtain ⟨rfl, rfl⟩ := MbFmt.func_of_ofFunc hf
  unfold decodeMb at hi
  split at hi <;> cases hi <;> exact ⟨rfl, rfl, rfl⟩

/-- SITECLR and SITECLR.PIN share their opcode (R73). -/
theorem decodeMc_fields (h : (McFmt.ofFunc x o).bind (decodeMc opc c) = some i) : i.HasFields opc c x o := by
  obtain ⟨f, hf, hi⟩ := Option.bind_eq_some_iff.mp h
  obtain ⟨rfl, rfl⟩ := McFmt.func_of_ofFunc hf
  unfold decodeMc at hi
  split at hi <;> cases hi
  case h_6 => split <;> exact ⟨rfl, rfl, rfl⟩
  all_goals exact ⟨rfl, rfl, rfl⟩

theorem decodeS_fields (h : (SFmt.ofFunc x o).bind (decodeS opc c) = some i) : i.HasFields opc c x o := by
  obtain ⟨f, hf, hi⟩ := Option.bind_eq_some_iff.mp h
  obtain ⟨rfl, rfl⟩ := SFmt.func_of_ofFunc hf
  unfold decodeS at hi
  split at hi <;> cases hi <;> exact ⟨rfl, rfl, rfl⟩

theorem decodeT_fields (h : (TFmt.ofFunc x o).bind (decodeT opc c) = some i) : i.HasFields opc c x o := by
  obtain ⟨f, hf, hi⟩ := Option.bind_eq_some_iff.mp h
  obtain ⟨rfl, rfl⟩ := TFmt.func_of_ofFunc hf
  unfold decodeT at hi
  split at hi <;> cases hi <;> exact ⟨rfl, rfl, rfl⟩

theorem decodeFormat_fields {w : InstrWord} (h : decodeFormat w o = some i) :
    i.HasFields (w.extractLsb' 120 8).toNat (Ctl.ofWord w) (w.extractLsb' 32 16) o := by
  unfold decodeFormat at h
  dsimp only at h
  split at h
  · exact decodeC_fields h
  split at h
  · exact decodeA_fields h
  split at h
  · exact decodeMa_fields h
  split at h
  · exact decodeMc_fields h
  split at h
  · exact decodeMb_fields h
  split at h
  · exact decodeS_fields h
  · exact decodeT_fields h
end

/-! ### Decoding an assembled word -/

section
variable {opc : BitVec 8} {c : Ctl} {x : BitVec 16} {o : Ops} {i : Instr}

theorem decodeFormat_assemble : decodeFormat (assemble opc c x o) o =
    if opc.toNat < 0x10 then (CFmt.ofFunc x o).bind (decodeC opc.toNat c)
    else if opc.toNat < 0x90 then (AFmt.ofFunc x o).bind (decodeA opc.toNat c)
    else if opc.toNat < 0x9A then (MaFmt.ofFunc x o).bind (decodeMa opc.toNat c)
    else if opc.toNat < 0xA0 then (McFmt.ofFunc x o).bind (decodeMc opc.toNat c)
    else if opc.toNat < 0xC0 then (MbFmt.ofFunc x o).bind (decodeMb opc.toNat c)
    else if opc.toNat < 0xE0 then (SFmt.ofFunc x o).bind (decodeS opc.toNat c)
    else (TFmt.ofFunc x o).bind (decodeT opc.toNat c) := by
  simp only [decodeFormat, Laws.Opcode.assemble_opc, ctlOfWord_assemble, func_assemble]

/-- The sub-operation tells SITECLR from SITECLR.PIN (R126). -/
def Instr.SubFits : Instr → Prop
  | .siteclr _ f => f.sub ≠ 1
  | .siteclrPin _ f => f.sub = 1
  | _ => True

theorem Instr.subFits_of_wf (h : i.wf = true) : i.SubFits := by
  have hentry : i.entryOk = true := by
    simp only [wf, admitted, Bool.and_eq_true] at h
    exact h.1.1
  cases i with
  | siteclr _ f =>
    simp only [entryOk, Bool.and_eq_true, beq_iff_eq] at hentry
    obtain ⟨⟨⟨⟨⟨hsub, -⟩, -⟩, -⟩, -⟩, -⟩ := hentry
    rw [SubFits, hsub]
    decide
  | siteclrPin _ f =>
    simp only [entryOk, Bool.and_eq_true, beq_iff_eq] at hentry
    obtain ⟨⟨⟨⟨⟨hsub, -⟩, -⟩, -⟩, -⟩, -⟩ := hentry
    exact hsub
  | _ => trivial

/-- The opcode map takes each program instruction's opcode back to it. -/
theorem decodeFormat_encoded (hi : i.SubFits) (hc : i.ctl = some c) (hf : i.funcOps = some (x, o)) :
    decodeFormat (assemble i.opc c x o) o = some i := by
  rw [decodeFormat_assemble]
  cases i with
  | nop _ f | bra _ f | brxa _ f | brx _ f | call _ f | ret _ f | exit _ f | trap _ f | bkpt _ f | tret _ f | nap _ f | srd _ f
  | swr _ f | spawn _ f | trace _ f => cases hc; cases hf; rw [CFmt.ofFunc_func]; rfl
  | iadd _ f | isub _ f | imul _ f | imulh _ f | imad _ f | imin _ f | imax _ f | land _ f | lor _ f | lxor _ f | shl _ f
  | shr _ f | rot _ f | bfx _ f | bfi _ f | popc _ f | clz _ f | brev _ f | sel _ f | icmp _ f | lea _ f | mov _ f | movi _ f
  | pand _ f | pmov _ f | fadd _ f | fmul _ f | ffma _ f | fmin _ f | fmax _ f | fcmp _ f | fclass _ f | frcp _ f | frsq _ f
  | fsqrt _ f | fexp2 _ f | flog2 _ f | fsin _ f | fcos _ f | ftanh _ f | frnd _ f | fscale _ f | fdot2 _ f | cvt _ f | qsx _ f
  | qscale _ f | dqsx _ f | pack _ f | unpack _ f | shfl _ f | matchAny _ f | vote _ f | redux _ f | scan _ f | bcast _ f =>
    cases hc; cases hf; rw [AFmt.ofFunc_func]; rfl
  | lda _ f | sta _ f | ldg _ f | stg _ f | lds _ f | sts _ f | ldp _ f | stp _ f | ldk _ f | ldb _ f =>
    cases hc; cases hf; rw [MaFmt.ofFunc_func]; rfl
  | pref _ f | cpa _ f | cpt _ f | fetchb _ f | codeinv _ f => cases hc; cases hf; rw [McFmt.ofFunc_func]; rfl
  | siteclr _ f => cases hc; cases hf; rw [McFmt.ofFunc_func]; exact congrArg some (if_neg hi)
  | siteclrPin _ f => cases hc; cases hf; rw [McFmt.ofFunc_func]; exact congrArg some (if_pos hi)
  | atoma _ f | reda _ f | atomg _ f | atoms _ f | redg _ f | reds _ f => cases hc; cases hf; rw [MbFmt.ofFunc_func]; rfl
  | cvset _ f | barinit _ f | barexpect _ f | bararrive _ f | barwait _ f | bartry _ f | stginit _ f | stgwait _ f
  | stgarrive _ f | fence _ f | ctxst _ f | ctxld _ f | svdone _ f | fenter _ f | fleave _ f | bfenter _ f | bfleave _ f
  | cfenter _ f | cfleave _ f | fsync _ f | fatom _ f | dspr _ f | dspw _ f => cases hc; cases hf; rw [SFmt.ofFunc_func]; rfl
  | mzero _ f | ldstat _ f | pswap _ f | mstream _ f | accld _ f | accst _ f | accchk _ f | accmov _ f | accplane _ f | miter _ f
  | kld _ f | kmov _ f => cases hc; cases hf; rw [TFmt.ofFunc_func]; rfl
  | _ => cases hc

/-- Every program instruction's opcode is assigned at level 1 (R73). -/
theorem assigned_opc (hc : i.ctl = some c) : assigned i.opc.toNat = true := by
  cases i <;> cases hc <;> rfl

theorem assigned_iff (opc : Nat) : assigned opc = true ↔
    (0x01 ≤ opc ∧ opc ≤ 0x28) ∨ (0x40 ≤ opc ∧ opc ≤ 0x51) ∨ (0x70 ≤ opc ∧ opc ≤ 0x75) ∨ (0x80 ≤ opc ∧ opc ≤ 0x85) ∨
    (0x90 ≤ opc ∧ opc ≤ 0x9F) ∨ (0xB0 ≤ opc ∧ opc ≤ 0xB5) ∨ (0xC0 ≤ opc ∧ opc ≤ 0xCC) ∨ (0xD0 ≤ opc ∧ opc ≤ 0xD9) ∨
    (0xE0 ≤ opc ∧ opc ≤ 0xEB) := by
  simp only [assigned, Bool.or_eq_true, Bool.and_eq_true, decide_eq_true_eq, or_assoc]

theorem lt_of_assigned {opc : Nat} (h : assigned opc = true) : opc < 0xF0 := by
  rw [assigned_iff] at h
  omega

/-! ### Encoding -/

theorem encode_eq (hc : i.ctl = some c) (hf : i.funcOps = some (x, o)) : encode i = some (assemble i.opc c x o) := by
  unfold encode
  split
  next => cases hc
  next => rw [hc, hf]

/-- Only a later level's word and a program instruction have a word. -/
theorem encode_cases {w : InstrWord} (h : encode i = some w) :
    i = .laterLevelOpcode w ∨ ∃ c x o, i.ctl = some c ∧ i.funcOps = some (x, o) ∧ w = assemble i.opc c x o := by
  unfold encode at h
  split at h
  next => cases h; exact .inl rfl
  next =>
    split at h
    next hc hf => cases h; exact .inr ⟨_, _, _, hc, hf, rfl⟩
    next => cases h
end

/-! ### What the decoder answers (R73, R82) -/

section
variable {w : InstrWord} {i : Instr}

theorem wf_laterLevelOpcode :
    (Instr.laterLevelOpcode w).wf = true ↔ 0xF0 ≤ (w.extractLsb' 120 8).toNat ∧ (w.extractLsb' 120 8).toNat ≤ 0xFE := by
  simp [Instr.wf, Instr.admitted, Instr.entryOk, Instr.uniformOk, Instr.isFormatA, Instr.ctl]

theorem decode_laterLevel (hlo : 0xF0 ≤ (w.extractLsb' 120 8).toNat) (hhi : (w.extractLsb' 120 8).toNat ≤ 0xFE) :
    decode w = .ok (.laterLevelOpcode w) := by
  rw [decode, if_neg (by omega), if_pos hlo]

theorem decode_invalid (h : (w.extractLsb' 120 8).toNat = 0xFF) : decode w = .error .invalid := by
  rw [decode, if_pos h]

theorem decode_unassigned (hlt : (w.extractLsb' 120 8).toNat < 0xF0) (h : assigned (w.extractLsb' 120 8).toNat = false) :
    decode w = .error .unassigned := by
  rw [decode, if_neg (by omega), if_neg (by omega), h]
  rfl

theorem decode_reservedSite (ha : assigned (w.extractLsb' 120 8).toNat = true)
    (h : w.extractLsb' 96 3 ≠ 0) : decode w = .error .reservedSite := by
  have hlt := lt_of_assigned ha
  rw [decode, if_neg (by omega), if_neg (by omega), ha, if_pos h]
  rfl

/-- A word of an assigned opcode whose operands and FUNC make an admitted instruction decodes to it. -/
theorem decode_format {o : Ops} (ha : assigned (w.extractLsb' 120 8).toNat = true)
    (hsite : w.extractLsb' 96 3 = 0) (ho : Ops.ofWord w = some o) (hi : decodeFormat w o = some i) (hwf : i.wf = true) :
    decode w = .ok i := by
  have hlt := lt_of_assigned ha
  have hne : (w.extractLsb' 120 8).toNat ≠ 0xFF := by omega
  have hle : ¬ 0xF0 ≤ (w.extractLsb' 120 8).toNat := by omega
  simp only [decode, hne, hle, ha, hsite, ho, hi, hwf, if_false, if_true, Bool.not_true, Bool.false_eq_true, ne_eq,
    not_true_eq_false]

/-- What decodes is a word of a later level, or an admitted instruction with the word's fields. -/
theorem decode_ok (h : decode w = .ok i) : i.wf = true ∧
    ((i = .laterLevelOpcode w ∧ 0xF0 ≤ (w.extractLsb' 120 8).toNat) ∨
      (w.extractLsb' 96 3 = 0 ∧ ∃ o, Ops.ofWord w = some o ∧
        i.HasFields (w.extractLsb' 120 8).toNat (Ctl.ofWord w) (w.extractLsb' 32 16) o)) := by
  unfold decode at h
  dsimp only at h
  split at h
  · cases h
  rename_i hvalid
  split at h
  · rename_i hlater
    cases h
    exact ⟨wf_laterLevelOpcode.mpr ⟨hlater, by omega⟩, .inl ⟨rfl, hlater⟩⟩
  split at h
  · cases h
  split at h
  · cases h
  rename_i hsite
  split at h
  · cases h
  rename_i o ho
  split at h
  · cases h
  rename_i j hj
  split at h
  · rename_i hwf
    cases h
    exact ⟨hwf, .inr ⟨Decidable.not_not.mp hsite, o, ho, decodeFormat_fields hj⟩⟩
  · cases h

theorem decodeInstr_of_ok (h : decode w = .ok i) : decodeInstr w = i := by rw [decodeInstr, h]

theorem decodeInstr_of_error {e : WordFault} (h : decode w = .error e) : decodeInstr w = .illegalWord w := by rw [decodeInstr, h]

/-! ### Words as bytes (R55) -/

/-- The number of `n` bytes of a word from byte `k` on. -/
theorem leNat_bytes (w : InstrWord) (n k : Nat) :
    leNat ((List.range' k n).map fun j => w.extractLsb' (8 * j) 8) = w.toNat / 2 ^ (8 * k) % 2 ^ (8 * n) := by
  induction n generalizing k with
  | zero => simp [leNat, Nat.mod_one]
  | succ n ih =>
    rw [List.range'_succ, List.map_cons, leNat, ih (k + 1), BitVec.extractLsb'_toNat, Nat.shiftRight_eq_div_pow,
      show 8 * (k + 1) = 8 * k + 8 by omega, show 8 * (n + 1) = 8 + 8 * n by omega, Nat.pow_add, Nat.pow_add,
      ← Nat.div_div_eq_div_mul, Nat.mod_mul]

theorem bytesWord_wordBytes (w : InstrWord) : bytesWord (wordBytes w) = w := by
  have htake : (wordBytes w).take 16 = wordBytes w := List.take_of_length_le (by simp [wordBytes])
  rw [bytesWord, htake, wordBytes, List.range_eq_range', leNat_bytes]
  apply BitVec.eq_of_toNat_eq
  simpa using w.isLt

/-- A word given as a number, with no bit cut, decodes as the word does. -/
theorem decodeTableWord_of_ok (h : decode w = .ok i) : decodeTableWord 128 w.toNat = some i := by
  rw [decodeTableWord, Nat.mod_eq_of_lt w.isLt, BitVec.ofNat_toNat, BitVec.setWidth_eq, decodeBytes, bytesWord_wordBytes, h]

/-! ### The obligations -/

/-- A program instruction's word decodes to it: its fields are read back as they were written, and the opcode map takes its opcode
back to it. -/
theorem decode_assemble {c : Ctl} {x : BitVec 16} {o : Ops} (hwf : i.wf = true) (hc : i.ctl = some c)
    (hf : i.funcOps = some (x, o)) : decode (assemble i.opc c x o) = .ok i := by
  have hopc := Laws.Opcode.assemble_opc i.opc c x o
  refine decode_format ?_ (site_assemble ..) (opsOfWord_assemble ..)
    (decodeFormat_encoded (Instr.subFits_of_wf hwf) hc hf) hwf
  rw [hopc]
  exact assigned_opc hc

/-- Settles O49: a later level's word is kept whole, and a program instruction's word decodes to it (`decode_assemble`). -/
theorem encodeDecode : Obligations.EncodeDecode := by
  intro i w hwf henc
  have hdec : decode w = .ok i := by
    rcases encode_cases henc with rfl | ⟨c, x, o, hc, hf, rfl⟩
    · obtain ⟨hlo, hhi⟩ := wf_laterLevelOpcode.mp hwf
      exact decode_laterLevel hlo hhi
    · exact decode_assemble hwf hc hf
  exact ⟨hdec, decodeInstr_of_ok hdec, decodeTableWord_of_ok hdec⟩

/-- Settles O50: what decodes has the word's own fields (`decode_ok`), and a word is assembled from its fields. -/
theorem decodeEncode : Obligations.DecodeEncode := by
  intro i w hdec
  obtain ⟨hwf, ⟨rfl, -⟩ | ⟨hsite, o, ho, hopc, hc, hf⟩⟩ := decode_ok hdec
  · exact ⟨hwf, rfl⟩
  · refine ⟨hwf, ?_⟩
    rw [encode_eq hc hf, BitVec.eq_of_toNat_eq hopc, assemble_fields hsite ho]

/-- Settles O51: each refusal of the decoder in the order of its checks, and `decode_ok` for a word that decodes. -/
theorem wordFates : Obligations.WordFates := by
  intro w
  extract_lets opc
  have hunassigned (hlt : opc < 0xF0) (ha : ¬ assigned opc = true) : decodeInstr w = .illegalWord w :=
    decodeInstr_of_error (decode_unassigned hlt (Bool.not_eq_true _ ▸ ha))
  refine ⟨fun h => ?_, fun hlt hsite => ?_, fun hlo hhi => decodeInstr_of_ok (decode_laterLevel hlo hhi), fun hlt => ?_⟩
  · by_cases hinvalid : opc = 0xFF
    · exact decodeInstr_of_error (decode_invalid hinvalid)
    · refine hunassigned (by omega) ?_
      rw [assigned_iff]
      omega
  · by_cases ha : assigned opc = true
    · exact decodeInstr_of_error (decode_reservedSite ha hsite)
    · exact hunassigned hlt ha
  · cases hdec : decode w with
    | error e => exact .inl (decodeInstr_of_error hdec)
    | ok i =>
      rw [decodeInstr_of_ok hdec]
      obtain ⟨hwf, ⟨rfl, hle⟩ | ⟨-, o, -, hopc, hc, -⟩⟩ := decode_ok hdec
      · omega
      · exact .inr ⟨hwf, hopc, hc⟩

/-- Settles O48: the decoder evaluates on each of the words. -/
theorem decodeWords : Obligations.DecodeWords := by
  unfold Obligations.DecodeWords
  decide +kernel
end

end Sys2Proof
end

section
/-!
PROOFS. Results that are written: what one write changes of a strand, what a list of writes leaves, and the machine around a result
that is due.
-/
namespace Sys2Proof.Machine

/-! ### One write (R31 to R34) -/

section
variable (st : Strand) (w : PWrite)

/-- A write goes to the registers and predicates alone. -/
theorem Strand.applyWrite_rest : ∃ vs us ps, st.applyWrite w = { st with vregs := vs, uregs := us, preds := ps } := by
  cases w with
  | vreg n L v => exact ⟨_, st.uregs, st.preds, rfl⟩
  | ureg n v => exact ⟨st.vregs, _, st.preds, rfl⟩
  | pred n L v =>
    simp only [Strand.applyWrite, Strand.setPred]
    split
    · exact ⟨st.vregs, st.uregs, st.preds, rfl⟩
    · exact ⟨st.vregs, st.uregs, _, rfl⟩
  | slot L loc v => exact ⟨st.vregs, st.uregs, st.preds, rfl⟩

variable {w}

theorem Strand.vreg_applyWrite_other {n L : Nat} (hL : L < 64) (hw : w.tgt ≠ .vreg n L)
    (hlane : ∀ m M v, w = .vreg m M v → M < 64) :
    (st.applyWrite w).vreg n L = st.vreg n L := by
  cases w with
  | vreg m M v =>
    refine st.vreg_setVreg_other v hL (hlane m M v rfl) fun ⟨hn, hLM⟩ => hw ?_
    rw [hn, hLM, PWrite.tgt]
  | pred m M v => simp only [Strand.applyWrite, Strand.setPred]; split <;> rfl
  | ureg m v => rfl
  | slot M loc v => rfl

theorem Strand.ureg_applyWrite_other {n : Nat} (hw : w.tgt ≠ .ureg n) : (st.applyWrite w).ureg n = st.ureg n := by
  cases w with
  | ureg m v => exact st.ureg_setUreg_other v fun hn => hw (hn ▸ rfl)
  | pred m M v => simp only [Strand.applyWrite, Strand.setPred]; split <;> rfl
  | vreg m M v => rfl
  | slot M loc v => rfl

theorem Strand.pred_setPred_other {n m : Nat} (L M : Nat) (v : Bool) (h : n ≠ m) :
    (st.setPred m M v).pred n L = st.pred n L := by
  unfold Strand.setPred
  split
  · rfl
  · simp only [Strand.pred, SMap.get_set_other _ _ _ h]

theorem Strand.pred_applyWrite_other {n : Nat} (L : Nat) (hw : ∀ M, w.tgt ≠ .pred n M) :
    (st.applyWrite w).pred n L = st.pred n L := by
  cases w with
  | pred m M v => exact st.pred_setPred_other L M v fun hn => hw M (hn ▸ rfl)
  | ureg m v => rfl
  | vreg m M v => rfl
  | slot M loc v => rfl
end

/-! ### A list of writes -/

section
variable {β : Type} {ws : List PWrite}

/-- What no write of a list changes, the list leaves. -/
theorem foldl_applyWrite_keeps (r : Strand → β) (h : ∀ st, ∀ w ∈ ws, r (st.applyWrite w) = r st) (st : Strand) :
    r (ws.foldl Strand.applyWrite st) = r st := by
  induction ws generalizing st with
  | nil => rfl
  | cons w ws ih =>
    rw [List.foldl_cons, ih fun st w hw => h st w (List.mem_cons_of_mem _ hw), h st w List.mem_cons_self]

/-- A destination that exactly one write of a list names holds what that write puts there. -/
theorem foldl_applyWrite_single (r : Strand → β) {t : Tgt} {w : PWrite} {v : β}
    (hone : ws.filter (fun w => w.tgt == t) = [w]) (hkeep : ∀ st, ∀ w ∈ ws, w.tgt ≠ t → r (st.applyWrite w) = r st)
    (hset : ∀ st : Strand, r (st.applyWrite w) = v) (st : Strand) : r (ws.foldl Strand.applyWrite st) = v := by
  obtain ⟨pre, post, rfl, -, -, hpost⟩ := List.filter_eq_cons_iff.mp hone
  rw [List.foldl_append, List.foldl_cons, foldl_applyWrite_keeps r (fun st x hx => ?_), hset]
  refine hkeep st x (List.mem_append_right _ (List.mem_cons_of_mem _ hx)) fun ht => ?_
  have hmem : x ∈ post.filter (fun w => w.tgt == t) := List.mem_filter.mpr ⟨hx, beq_iff_eq.mpr ht⟩
  rw [hpost] at hmem
  cases hmem

/-- Writes go to the registers and predicates alone. -/
theorem foldl_applyWrite_rest (ws : List PWrite) (st : Strand) :
    ∃ vs us ps, ws.foldl Strand.applyWrite st = { st with vregs := vs, uregs := us, preds := ps } := by
  induction ws generalizing st with
  | nil => exact ⟨st.vregs, st.uregs, st.preds, rfl⟩
  | cons w ws ih =>
    obtain ⟨vs, us, ps, hw⟩ := st.applyWrite_rest w
    obtain ⟨vs', us', ps', hws⟩ := ih (st.applyWrite w)
    exact ⟨vs', us', ps', by rw [List.foldl_cons, hws, hw]⟩
end

/-! ### A result (R76, R81) -/

/-- What a performed result leaves of the results still to come: an earlier one loses the destinations `ts`. -/
def PendWrite.overtaken (k : Nat) (ts : List Tgt) (q : PendWrite) : PendWrite :=
  if q.id < k then { q with writes := q.writes.filter fun w => !ts.contains w.tgt } else q

/-- The strand of a performed result, with what it takes from the results still to come. -/
def Strand.overtaken (st : Strand) (k : Nat) (ts : List Tgt) : Strand :=
  { st with pendw := st.pendw.map (PendWrite.overtaken k ts) }

theorem Block.strand_overtake_self (b : Block) {sid : Nat} (h : sid < b.strands.length) (k : Nat) (ts : List Tgt) :
    (b.overtake sid k ts).strand sid = (b.strand sid).overtaken k ts :=
  b.strand_updStrand_self h fun st => st.overtaken k ts

theorem slotStores_eq_nil {ws : List PWrite} (h : ∀ w ∈ ws, w.isSlot = false) : slotStores ws = [] := by
  induction ws with
  | nil => rfl
  | cons w ws ih =>
    have hws := ih fun w hw => h w (List.mem_cons_of_mem _ hw)
    cases w with
    | slot L loc v => exact absurd (h _ List.mem_cons_self) (by simp [PWrite.isSlot])
    | _ => exact hws

/-- Bytes stored through the L1s change the memories alone. -/
theorem foldl_storeLocs (b : Block) (l : List (Nat × List (Loc × Byte))) (s : State) :
    ∃ m, l.foldl (fun s r => s.storeLocs b r.2) s = s.setMem m ∧ (l = [] → m = s.mem) := by
  induction l generalizing s with
  | nil => exact ⟨s.mem, rfl, fun _ => rfl⟩
  | cons r l ih =>
    obtain ⟨m, hm, -⟩ := ih (s.storeLocs b r.2)
    exact ⟨m, hm, nofun⟩

/-- The state with a result's writes in its strand's registers, before its slots are stored. -/
def State.registersWritten (s : State) (b : Block) (sid k : Nat) (ws : List PWrite) : State :=
  (s.updBlock b.uid fun x => x.overtake sid k (ws.map PWrite.tgt)).updStrand b.uid sid fun st => ws.foldl Strand.applyWrite st

/-- Around its registers a result changes the memories alone, and them only where it goes to a slot. -/
theorem writeResult_eq (s : State) (b : Block) (sid k : Nat) (ws : List PWrite) :
    ∃ m, s.writeResult b sid k ws = (s.registersWritten b sid k ws).setMem m ∧
      (s.mem.errs = [] → (∀ w ∈ ws, w.isSlot = false) → m = s.mem) := by
  obtain ⟨m, hm, hnil⟩ := foldl_storeLocs b (slotStores ws)
    ((s.registersWritten b sid k ws).setMem (s.mem.clearErrs b.uid sid ws))
  refine ⟨m, hm, fun he hslot => ?_⟩
  rw [hnil (slotStores_eq_nil hslot), State.setMem_mem, MemSys.clearErrs, he]
  rfl

theorem registersWritten_other (s : State) (b : Block) (sid k : Nat) (ws : List PWrite) {u : Nat} (h : u ≠ b.uid) :
    (s.registersWritten b sid k ws).block u = s.block u :=
  (State.block_updStrand_other _ _ h).trans (State.block_updBlock_other s _ h fun _ => rfl)

theorem registersWritten_self (s : State) {b : Block} (hb : s.block b.uid = some b) (sid k : Nat) (ws : List PWrite) :
    (s.registersWritten b sid k ws).block b.uid =
      some ((b.overtake sid k (ws.map PWrite.tgt)).updStrand sid fun st => ws.foldl Strand.applyWrite st) :=
  State.block_updStrand_self _ _ (State.block_updBlock_self s _ hb fun _ => rfl)

/-- The strand with a result's writes done. -/
def Strand.written (st : Strand) (p : PendWrite) : Strand :=
  p.writes.foldl Strand.applyWrite (st.overtaken p.id (p.writes.map PWrite.tgt))

/-- The strand of a result that has been written, its token down and the result no longer waiting. -/
def Strand.resultDone (st : Strand) (p : PendWrite) : Strand :=
  { (st.written p).tokDown p.lanes p.tok.toNat with pendw := (st.written p).pendw.filter fun q => q.id != p.id }

/-- What a result that is due does where it may be written (R76). -/
theorem exec_resultWriteback {s : State} {uid sid id : Nat} {b : Block} {p : PendWrite} (hb : s.block uid = some b)
    (hp : (b.strand sid).pendw.find? (fun q => q.id == id) = some p) (hdue : p.due ≤ s.cycle)
    (hready : p.writes.all (s.slotWriteReady b sid id) = true) : exec (.resultWriteback uid sid id) s =
      .next ((s.writeResult b sid p.id p.writes).updStrand uid sid fun st =>
        { st.tokDown p.lanes p.tok.toNat with pendw := st.pendw.filter fun q => q.id != id }) := by
  have hcond : (decide (s.cycle < p.due) || !p.writes.all (s.slotWriteReady b sid id)) = false := by
    simp [hready, hdue]
  simp only [exec, execResultWriteback, hb, hp, hcond, Bool.false_eq_true, if_false]

/-- The machine around a result that has been written. -/
theorem resultWriteback_rest {s t : State} {uid sid id : Nat} {b : Block} {p : PendWrite} (hb : s.block uid = some b)
    (hp : (b.strand sid).pendw.find? (fun q => q.id == id) = some p) (hdue : p.due ≤ s.cycle)
    (hready : p.writes.all (s.slotWriteReady b sid id) = true) (hsid : sid < b.strands.length) (he : s.mem.errs = [])
    (hexec : exec (.resultWriteback uid sid id) s = .next t) :
    (∀ k, k ≠ uid → t.block k = s.block k) ∧ t.caller = s.caller ∧ t.host = s.host ∧ t.cores = s.cores ∧
    ((∀ w ∈ p.writes, w.isSlot = false) → t.mem = s.mem) ∧
    ∃ u, t.block uid = some u ∧ (∀ k, k ≠ sid → u.strand k = b.strand k) ∧ u.strand sid = (b.strand sid).resultDone p := by
  obtain rfl : b.uid = uid := s.block_uid hb
  obtain rfl : p.id = id := by simpa using List.find?_some hp
  obtain ⟨m, hm, hmem⟩ := writeResult_eq s b sid p.id p.writes
  rw [exec_resultWriteback hb hp hdue hready, hm] at hexec
  cases hexec
  refine ⟨fun k hk => ?_, rfl, rfl, rfl, hmem he, _, State.block_updStrand_self _ _ (registersWritten_self s hb ..),
    fun k hk => ?_, ?_⟩
  · rw [State.block_updStrand_other _ _ hk]
    exact registersWritten_other s b _ _ _ hk
  · rw [Block.strand_updStrand_other _ hk, Block.strand_updStrand_other _ hk]
    obtain ⟨-, -, -, -, -, hother, -⟩ := b.overtake_rest sid p.id (p.writes.map PWrite.tgt)
    exact hother k hk
  · have hlen : sid < (b.overtake sid p.id (p.writes.map PWrite.tgt)).strands.length := by
      obtain ⟨-, -, -, -, hlen, -⟩ := b.overtake_rest sid p.id (p.writes.map PWrite.tgt)
      rwa [hlen]
    rw [Block.strand_updStrand_self _ (by rwa [Block.updStrand_length]), Block.strand_updStrand_self _ hlen,
      b.strand_overtake_self hsid]
    rfl

/-! ### The strand of a result that has been written -/

section
variable (st : Strand) (p : PendWrite)

/-- The registers and predicates of the strand are those after the result's writes. -/
theorem Strand.resultDone_regs : (st.resultDone p).vregs = (st.written p).vregs ∧
    (st.resultDone p).uregs = (st.written p).uregs ∧ (st.resultDone p).preds = (st.written p).preds := by
  obtain ⟨hvregs, huregs, hpreds, -⟩ := (st.written p).tokDown_rest p.lanes p.tok.toNat
  exact ⟨hvregs, huregs, hpreds⟩

/-- All else of the strand stays but its tokens and the results still to come. -/
theorem Strand.resultDone_rest : (st.resultDone p).frags = st.frags ∧ (st.resultDone p).fmode = st.fmode ∧
    (st.resultDone p).disp = st.disp ∧
    (st.resultDone p).pendw =
      (st.pendw.map (PendWrite.overtaken p.id (p.writes.map PWrite.tgt))).filter fun q => q.id != p.id := by
  obtain ⟨-, -, -, hdisp, hfmode, hfrags, -, -⟩ := (st.written p).tokDown_rest p.lanes p.tok.toNat
  obtain ⟨vs, us, ps, hws⟩ : ∃ vs us ps, st.written p =
      { st.overtaken p.id (p.writes.map PWrite.tgt) with vregs := vs, uregs := us, preds := ps } := foldl_applyWrite_rest ..
  exact ⟨hfrags.trans (by rw [hws]; rfl), hfmode.trans (by rw [hws]; rfl), hdisp.trans (by rw [hws]; rfl), by
    rw [Strand.resultDone, hws]; rfl⟩

variable {p}

theorem Strand.vreg_written_other (hlanes : ∀ n L v, PWrite.vreg n L v ∈ p.writes → L < 64) {n L : Nat} (hL : L < 64)
    (h : ∀ w ∈ p.writes, w.tgt ≠ .vreg n L) : (st.written p).vreg n L = st.vreg n L :=
  foldl_applyWrite_keeps (fun st => st.vreg n L) (fun st w hw => st.vreg_applyWrite_other hL (h w hw) fun m M v he =>
    hlanes m M v (he ▸ hw)) _

theorem Strand.ureg_written_other {n : Nat} (h : ∀ w ∈ p.writes, w.tgt ≠ .ureg n) : (st.written p).ureg n = st.ureg n :=
  foldl_applyWrite_keeps (fun st => st.ureg n) (fun st w hw => st.ureg_applyWrite_other (h w hw)) _

theorem Strand.pred_written_other {n : Nat} (L : Nat) (h : ∀ w ∈ p.writes, ∀ M, w.tgt ≠ .pred n M) :
    (st.written p).pred n L = st.pred n L :=
  foldl_applyWrite_keeps (fun st => st.pred n L) (fun st w hw => st.pred_applyWrite_other L (h w hw)) _

theorem Strand.vreg_written_single (hlanes : ∀ n L v, PWrite.vreg n L v ∈ p.writes → L < 64) {n L : Nat} {v : W32}
    (hL : L < 64) (h : p.writes.filter (fun w => w.tgt == .vreg n L) = [.vreg n L v]) : (st.written p).vreg n L = v :=
  foldl_applyWrite_single (fun st => st.vreg n L) h (fun st _ hw ht => st.vreg_applyWrite_other hL ht fun m M v he =>
    hlanes m M v (he ▸ hw)) (fun st => st.vreg_setVreg_self n L v) _

theorem Strand.ureg_written_single {n : Nat} {v : W64} (h : p.writes.filter (fun w => w.tgt == .ureg n) = [.ureg n v]) :
    (st.written p).ureg n = v :=
  foldl_applyWrite_single (fun st => st.ureg n) h (fun st _ _ ht => st.ureg_applyWrite_other ht)
    (fun st => st.ureg_setUreg_self n v) _
end

/-- Settles O55: the machine around the result is that of `resultWriteback_rest`, and its strand has the result's writes done, each
register and predicate as the lemmas on a list of writes say. -/
theorem writebackFrame : Obligations.WritebackFrame := by
  intro s t uid sid id b p hb hsid hp hdue he hlanes hready hexec
  obtain ⟨hblocks, hcaller, hhost, hcores, hmem, u, hu, hothers, hself⟩ :=
    resultWriteback_rest hb hp hdue hready hsid he hexec
  obtain rfl : p.id = id := by simpa using List.find?_some hp
  obtain ⟨hvregs, huregs, hpreds⟩ := (b.strand sid).resultDone_regs p
  obtain ⟨hfrags, hfmode, hdisp, hpendw⟩ := (b.strand sid).resultDone_rest p
  have hvreg (n L : Nat) : (u.strand sid).vreg n L = ((b.strand sid).written p).vreg n L := by
    rw [hself, Strand.vreg, hvregs]; rfl
  have hureg (n : Nat) : (u.strand sid).ureg n = ((b.strand sid).written p).ureg n := by
    rw [hself, Strand.ureg, huregs]; rfl
  have hpred (n L : Nat) : (u.strand sid).pred n L = ((b.strand sid).written p).pred n L := by
    rw [hself, Strand.pred, hpreds]; rfl
  refine ⟨hblocks, hcaller, hhost, hcores, hmem, u, hu, hothers, ?_⟩
  refine ⟨hself ▸ hfrags, hself ▸ hfmode, hself ▸ hdisp, hself ▸ hpendw, fun n L hL h => ?_, fun n h => ?_, fun n L _ h => ?_,
    fun n L v hL h => ?_, fun n v h => ?_⟩
  · rw [hvreg, Strand.vreg_written_other _ hlanes hL h]
  · rw [hureg, Strand.ureg_written_other _ h]
  · rw [hpred, Strand.pred_written_other _ L h]
  · rw [hvreg, Strand.vreg_written_single _ hlanes hL h]
  · rw [hureg, Strand.ureg_written_single _ h]

end Sys2Proof.Machine
end

section
/-!
PROOFS. The steps around issue: fetch, STALL and NAP, pending traps, words that are no instruction, emulation and the resolver.
-/
namespace Sys2Proof.Machine

variable {s : State} {r : FragRef} {b : Block} {f : Frag}

/-! ### Fetch (R55) -/

theorem fetchAt_some {pc : W64} {va : Nat} {t : Xlate} (hva : va56 pc = some va)
    (ht : s.translate (some b.quadId) b.ten b.pasid va .fetch = some t) : s.fetchAt b pc = some (va, t) := by
  simp only [State.fetchAt, hva, ht, Option.map_some]

theorem fetchAt_none {pc : W64} (h : va56 pc = none ∨
    ∀ va, va56 pc = some va → s.translate (some b.quadId) b.ten b.pasid va .fetch = none) : s.fetchAt b pc = none := by
  unfold State.fetchAt
  split
  next va hva =>
    rcases h with h | h
    · rw [h] at hva; cases hva
    · rw [h va hva]; rfl
  next => rfl

/-- A fetch that its core's instruction cache does not serve asks for its line. -/
theorem fetchAsks_some {pc : W64} {va : Nat} {t : Xlate} (h : s.fetchAt b pc = some (va, t)) :
    s.fetchAsks b pc = if s.mem.hasCode b.core (lineOf (t.pa va)) then [] else [Ask.of 0 false false (t.pa va)] := by
  simp only [State.fetchAsks, h]

theorem fetchAsks_none {pc : W64} (h : s.fetchAt b pc = none) : s.fetchAsks b pc = [] := by
  simp only [State.fetchAsks, h]

/-- A fetch comes in where the cache serves it or its line has been reached. -/
theorem fetchWaits_of_served {pc : W64} {va : Nat} {t : Xlate} (h : s.fetchAt b pc = some (va, t))
    (hplay : (s.core b.core).tile.inPlay = true)
    (hserved : s.mem.hasCode b.core (lineOf (t.pa va)) = true ∨ s.reached b (Ask.of 0 false false (t.pa va)) = true) :
    s.fetchWaits b pc = false := by
  rw [State.fetchWaits, fetchAsks_some h, hplay]
  split
  · rfl
  next hmiss => rw [List.all_cons, hserved.resolve_left hmiss]; rfl

theorem fetchWaits_of_none {pc : W64} (h : s.fetchAt b pc = none) (hplay : (s.core b.core).tile.inPlay = true) :
    s.fetchWaits b pc = false := by
  rw [State.fetchWaits, fetchAsks_none h, hplay]; rfl

theorem closeAsks_nil (s : State) (uid : Nat) : s.closeAsks uid [] = s := rfl

/-- Only the requests of the cache's misses are closed. -/
theorem closeAsks_fetch {pc : W64} {va : Nat} {t : Xlate} (h : s.fetchAt b pc = some (va, t)) :
    s.closeAsks b.uid (s.fetchAsks b pc) =
      if s.mem.hasCode b.core (lineOf (t.pa va)) then s else s.closeAsks b.uid [Ask.of 0 false false (t.pa va)] := by
  rw [fetchAsks_some h]
  split
  · exact closeAsks_nil s b.uid
  · rfl

theorem exec_instructionFetch {va : Nat} {t : Xlate} (hf : s.fragAt r = some (b, f)) (ht : s.fetchAt b f.pc = some (va, t))
    (hwaits : s.fetchWaits b f.pc = false) : exec (.instructionFetch r) s =
      let u := (s.closeAsks b.uid (s.fetchAsks b f.pc)).useXlate (some b.quadId) t .fetch
      let m := u.mem.fetchLine b.core (lineOf (t.pa va))
      .next ((u.setMem m).updStrand b.uid r.strand fun st =>
        if (st.wordAt f.pc).isSome then st
        else { st with fetched := st.fetched ++ [(f.pc, m.fetchWord b.core (t.pa va))] }) := by
  simp only [exec, execInstructionFetch, hf, ht, hwaits, Bool.false_eq_true, if_false]

/-- A fetch that faults traps ACCESS at the PC. -/
theorem exec_instructionFetch_fault (hf : s.fragAt r = some (b, f)) (ht : s.fetchAt b f.pc = none)
    (hwaits : s.fetchWaits b f.pc = false) (hready : s.ready b r.strand f = true) (hpend : f.pend = []) :
    exec (.instructionFetch r) s = .next (s.deliverTrap b r.strand f (Trap.of .access f.lanes f.pc 0) f.pc false) := by
  simp only [exec, execInstructionFetch, hf, ht, hwaits, hready, hpend, Bool.false_eq_true, if_false, List.isEmpty_nil,
    Bool.and_self, if_true]

/-! ### STALL, NAP, pending traps -/

theorem exec_stallExpiry {t : Nat} (hf : s.fragAt r = some (b, f)) (ht : f.stall = some t) (hdue : t ≤ s.cycle) :
    exec (.stallExpiry r) s =
      .next (s.updStrand b.uid r.strand fun st => st.updFrag f.lanes fun g => { g with stall := none }) := by
  simp only [exec, execStallExpiry, hf, ht, hdue, if_true]

theorem exec_napExpiry {t : Nat} (hf : s.fragAt r = some (b, f)) (ht : f.nap = some t) (hdue : t ≤ s.cycle) :
    exec (.napExpiry r) s =
      .next (s.updStrand b.uid r.strand fun st => st.updFrag f.lanes fun g => { g with nap := none }) := by
  simp only [exec, execNapExpiry, hf, ht, hdue, if_true]

theorem exec_pendingTrapDelivery {p : PendTrap} {rest : List PendTrap} (hf : s.fragAt r = some (b, f))
    (hpend : f.pend = p :: rest) (hdue : s.trapDue b r.strand f = true) : exec (.pendingTrapDelivery r) s =
      .next ((s.updStrand b.uid r.strand fun st => st.giveUp f).deliverTrap b r.strand
        { f with pend := rest, pc := if f.hold = .shared then f.pc + 16 else f.pc } p.trap p.pc p.engine) := by
  simp only [exec, execPendingTrapDelivery, hf, hpend, hdue, Bool.not_true, Bool.false_eq_true, if_false]

/-! ### Words that are no instruction (R82, R128, R129) -/

section
variable {w : InstrWord} {x : Ctx} {e : EmulEffect}

theorem exec_illegalWord (hx : s.ctx (Ctl.ofWord w) = some x) (htake : Ctx.canTake s x = true) :
    exec (.illegalWord w) s = .next (s.trapIssue x (Trap.illegalWord x.active w)) := by
  simp only [exec, execIllegalWord, hx, htake, Bool.not_true, Bool.false_eq_true, if_false]

theorem exec_laterLevelOpcode (hx : s.ctx (Ctl.ofWord w) = some x) (htake : Ctx.canTake s x = true)
    (hidle : x.blk.strandIdle x.sid = true) (hdone : s.earlierDone x.blk x.sid s.nextId x.fr.lanes .dev = true) :
    exec (.laterLevelOpcode w) s =
      .next ((s.commit x { Done.now x s with pcOf := fun _ => x.fr.pc, hold := .emul w }).notify
        (.csEmul { blk := x.blk.uid, strand := x.sid, lane := lowest x.fr.lanes } (Config.emulEffect w s.fresh))) := by
  simp only [exec, execLaterLevelOpcode, hx, htake, hidle, hdone, Bool.not_true, Bool.or_self, Bool.false_eq_true, if_false]

/-- With no entry of the call sheet an emulated word is an illegal one. -/
theorem exec_csEmul_noHandler (hf : s.fragAt r = some (b, f)) (hw : f.hold = .emul w)
    (hsheet : sheetHandler s.caller.sheet (w.extractLsb' 120 8).toNat = false) : exec (.csEmul r e) s =
      .next (s.deliverTrap b r.strand f (Trap.illegalWord (s.emulActive r w) w) f.pc false) := by
  simp only [exec, execCsEmul, hf, hw, hsheet, Bool.not_false, if_true]

/-- The counters of a core have no part in which lanes are active. -/
theorem emulActive_countSite (s : State) (core idx : Nat) (r : FragRef) (w : InstrWord) :
    (s.countSite core idx).emulActive r w = s.emulActive r w := rfl

theorem exec_csEmul_trap {t : Trap} (hf : s.fragAt r = some (b, f)) (hw : f.hold = .emul w)
    (hsheet : sheetHandler s.caller.sheet (w.extractLsb' 120 8).toNat = true)
    (ht : emulTrap e b f (s.emulActive r w) w (s.countSite b.core 7) = some t) : exec (.csEmul r e) s =
      .next ((s.countSite b.core 7).deliverTrap b r.strand f t f.pc false) := by
  simp only [exec, execCsEmul, hf, hw, hsheet, emulActive_countSite, ht, Bool.not_true, Bool.false_eq_true, if_false]

theorem exec_csEmul_effect (hf : s.fragAt r = some (b, f)) (hw : f.hold = .emul w)
    (hsheet : sheetHandler s.caller.sheet (w.extractLsb' 120 8).toNat = true)
    (ht : emulTrap e b f (s.emulActive r w) w (s.countSite b.core 7) = none) : exec (.csEmul r e) s =
      let u := s.countSite b.core 7
      let t := emulOnMemory e b (u.setMem (u.mem.acquire b.core))
      let t := t.updBlock b.uid fun x => x.overtake r.strand t.nextId (e.uregs.map fun v => Tgt.ureg v.1)
      .next ((t.errsGone (emulWrites e b.uid r.strand)).updStrand b.uid r.strand fun st =>
        (emulOnStrand e f.lanes b.hdr st).release f (e.pc.getD (f.pc + 16))) := by
  simp only [exec, execCsEmul, hf, hw, hsheet, emulActive_countSite, ht, Bool.not_true, Bool.false_eq_true, if_false]
  cases e.pc <;> rfl
end

/-! ### The resolver (R115) -/

section
variable {core id : Nat} {q : SiteReq}

theorem exec_siteResolve (hq : (s.core core).siteReqs.find? (fun r => r.id == id) = some q)
    (hlock : s.mem.locked (lineOf q.pa) = false) (harrived : s.siteArrived q = true) : exec (.siteResolve core id) s =
      let t := s.setCore core { s.core core with siteReqs := (s.core core).siteReqs.filter fun r => r.id != id }
      if t.mem.wordAt q.pa ≠ q.expected then .next t
      else
        let u := if t.mustLog q.via .write then t.logDirty q.via.ten q.via else t
        let u := (u.rewrite q.pa q.new).countSite core (if q.widening then 4 else 1)
        .next (if q.widening && q.new.getLsbD 102 then u.countSite core 5 else u) := by
  simp only [exec, execSiteResolve, hq, hlock, harrived, Bool.not_true, Bool.or_self, Bool.false_eq_true, if_false]
end

/-- Settles O32: one lemma for each step and each branch of it. -/
theorem issueSteps : Obligations.IssueSteps := by
  intro s
  refine ⟨fun r b f va t hf hplay hva ht hserved => ?_, fun r b f hf hplay hready hpend hfault => ?_,
    fun uid sid id b p hb hp hdue hready => exec_resultWriteback hb hp hdue hready,
    fun r b f t hf ht hdue => exec_stallExpiry hf ht hdue, fun r b f t hf ht hdue => exec_napExpiry hf ht hdue,
    fun r b f p rest hf hpend hdue => exec_pendingTrapDelivery hf hpend hdue,
    fun w x hx htake => exec_illegalWord hx htake,
    fun w x hx htake hidle hdone => exec_laterLevelOpcode hx htake hidle hdone,
    fun r b f w e hf hw => ⟨fun hsheet => exec_csEmul_noHandler hf hw hsheet, fun hsheet =>
      ⟨fun t ht => exec_csEmul_trap hf hw hsheet ht, fun ht => exec_csEmul_effect hf hw hsheet ht⟩⟩,
    fun core id q hq hlock harrived => ?_⟩
  · have hat := fetchAt_some hva ht
    rw [exec_instructionFetch hf hat (fetchWaits_of_served hat hplay hserved), closeAsks_fetch hat]
  · have hat := fetchAt_none hfault
    exact exec_instructionFetch_fault hf hat (fetchWaits_of_none hat hplay) hready hpend
  · rw [exec_siteResolve hq hlock harrived]
    exact ⟨fun hne => if_pos hne, fun heq => if_neg (not_not_intro heq)⟩

end Sys2Proof.Machine
end

section
/-!
PROOFS. The steps that perform the next lane of a load, a store or an atomic, once the orders let it.
-/
namespace Sys2Proof.Machine

variable {s : State} {uid id : Nat} {b : Block} {o : Op} {a : LaneAcc} {rest : List LaneAcc} {dst : Dst}

theorem exec_loadDataReturn {zx : Bool} {done : List (Nat × W64)} (ho : s.opOf uid id = some (b, o))
    (hk : o.kind = .load dst zx (a :: rest) done) : exec (.loadDataReturn uid id) s = .next (s.loadStep b o) := by
  simp only [exec, execLoadDataReturn, ho, hk]

/-- The next lane of a load that the orders let come: its trap where the access meets poison, else its value (R178, R275). -/
theorem loadStep_eq {zx : Bool} {done : List (Nat × W64)} (hk : o.kind = .load dst zx (a :: rest) done)
    (hacc : s.nextAcc b o = some a) : s.loadStep b o =
      let u := ((s.acquireFor b o.order o.scope).recallFor b a).scanLoad b a.locs
      if u.loadBad b a.locs then u.failOp b o a
      else
        let t := u.fillFor b a
        (t.consumeFor b a rest).advance b o (.load dst zx rest (done ++ (lanesOf a.group).map fun L =>
          (L, BitVec.ofNat 64 (a.fmt.loadBits zx (if L = a.lane then a.elem else elemOf a.fmt L) (leNum (t.readAcc b a)))))) := by
  simp only [State.loadStep, hk, hacc, ne_eq, not_true_eq_false, if_false]

theorem exec_storePerformed {fwd : Bool} (ho : s.opOf uid id = some (b, o)) (hk : o.kind = .store fwd (a :: rest)) :
    exec (.storePerformed uid id) s = .next (s.storeStep b o) := by
  simp only [exec, execStorePerformed, ho, hk]

theorem exec_atomicHomeStep (ho : s.opOf uid id = some (b, o)) : exec (.atomicHomeStep uid id) s = .next (s.atomicStep b o) := by
  simp only [exec, execAtomicHomeStep, ho]

/-- The next lane of an atomic that the orders let come: its trap where it meets poison, else its update (R178, R186). -/
theorem atomicStep_eq {sub : BitVec 4} {ty : Ty} {done : List (Nat × W64 × Bool)}
    (hk : o.kind = .atomic sub ty dst (a :: rest) done) (hacc : s.nextAcc b o = some a) : s.atomicStep b o =
      let t := (s.acquireFor b o.order o.scope).scanHome a.locs
      if t.mem.anyPoison a.locs then t.failOp b o a
      else
        let r := t.atomAcc b sub ty a
        r.1.advance b o (.atomic sub ty dst rest (done ++ [(a.lane, r.2.1, r.2.2)])) := by
  simp only [State.atomicStep, hk, hacc, ne_eq, not_true_eq_false, if_false]

/-- Settles O26: each step is that of its operation's kind, and a load and an atomic branch on the errors that they meet. -/
theorem accessesPerform : Obligations.AccessesPerform := by
  intro s uid id b o a rest ho hacc
  refine ⟨fun dst zx done hk => ?_, fun fwd hk => ?_, fun sub ty dst done hk => ?_⟩
  · rw [exec_loadDataReturn ho hk, loadStep_eq hk hacc]
    exact ⟨fun hgood => by simp only [hgood, Bool.false_eq_true, if_false], fun hbad => by simp only [hbad, if_true]⟩
  · rw [exec_storePerformed ho hk, State.storeStep, hk]
    exact congrArg Host.Outcome.next (if_neg (not_not_intro hacc))
  · rw [exec_atomicHomeStep ho, atomicStep_eq hk hacc]
    exact ⟨fun hgood => by simp only [hgood, Bool.false_eq_true, if_false], fun hbad => by simp only [hbad, if_true]⟩

end Sys2Proof.Machine
end

section
/-!
PROOFS. Number formats: a finite pattern as a whole number of spacings, the order of patterns and of their magnitudes, and with
them the rounding of R92 and R93 where a value fits or overflows.
-/
namespace Sys2Proof

/-! ### Exact numbers -/

theorem rat_lt_of_le_of_lt {a b c : Rat} (hab : a ≤ b) (hbc : b < c) : a < c :=
  Rat.not_le.1 fun hca => Rat.not_le.2 hbc (Rat.le_trans hca hab)

theorem rat_lt_of_lt_of_le {a b c : Rat} (hab : a < b) (hbc : b ≤ c) : a < c :=
  Rat.not_le.1 fun hca => Rat.not_le.2 hab (Rat.le_trans hbc hca)

theorem rat_not_lt_of_lt {a b : Rat} (h : a < b) : ¬ b < a := Rat.not_lt.2 (Rat.le_of_lt h)

theorem rat_le_div_iff {a b c : Rat} (hc : 0 < c) : a ≤ b / c ↔ a * c ≤ b := by
  rw [← Rat.not_lt, Rat.div_lt_iff hc, Rat.not_lt]

theorem rat_div_le_iff {a b c : Rat} (hb : 0 < b) : a / b ≤ c ↔ a ≤ c * b := by
  rw [← Rat.not_lt, Rat.lt_div_iff hb, Rat.not_lt]

theorem rat_div_nonneg {a b : Rat} (ha : 0 ≤ a) (hb : 0 < b) : 0 ≤ a / b := by
  rwa [rat_le_div_iff hb, Rat.zero_mul]

theorem rat_mul_den {m : Rat} (hm : 0 < m) : m * (m.den : Rat) = (m.num.natAbs : Rat) := by
  have hden : (m.den : Rat) ≠ 0 := fun h => m.den_nz (Rat.natCast_eq_zero_iff.1 h)
  have hnum : (m.num.natAbs : Int) = m.num := Int.natAbs_of_nonneg (Rat.num_nonneg.2 (Rat.le_of_lt hm))
  have hm : m = (m.num : Rat) / (m.den : Rat) := by rw [← Rat.mkRat_eq_div, Rat.mkRat_self]
  calc m * (m.den : Rat) = (m.num : Rat) / (m.den : Rat) * (m.den : Rat) := congrArg (· * (m.den : Rat)) hm
    _ = (m.num : Rat) := Rat.div_mul_cancel hden
    _ = (m.num.natAbs : Rat) := by rw [← Rat.intCast_natCast, hnum]

/-! ### Powers of two and their logarithms -/

theorem natCast_two_pow_pos (n : Nat) : (0 : Rat) < ((2 ^ n : Nat) : Rat) := Rat.natCast_pos.2 (Nat.two_pow_pos n)

/-- A power of two by the difference of two exponents, without a division. -/
theorem pow2_sub_mul (a b : Nat) : pow2 ((a : Int) - b) * ((2 ^ b : Nat) : Rat) = ((2 ^ a : Nat) : Rat) := by
  unfold pow2
  split
  case isTrue h =>
    rw [← Rat.natCast_mul, ← Nat.pow_add]
    congr 2
    omega
  case isFalse h =>
    have hsplit : 2 ^ b = 2 ^ (-((a : Int) - b)).toNat * 2 ^ a := by
      rw [← Nat.pow_add]
      congr 1
      omega
    rw [hsplit, Rat.mkRat_eq_div, Rat.natCast_mul, ← Rat.mul_assoc,
      Rat.div_mul_cancel (Rat.ne_of_gt (natCast_two_pow_pos _)), Rat.intCast_one, Rat.one_mul]

theorem pow2_natCast (n : Nat) : pow2 n = ((2 ^ n : Nat) : Rat) := by
  have h := pow2_sub_mul n 0
  rwa [Int.natCast_zero, Int.sub_zero, Nat.pow_zero, Rat.natCast_ofNat, Rat.mul_one] at h

theorem pow2_zero : pow2 0 = 1 := pow2_natCast 0

theorem pow2_pos (k : Int) : 0 < pow2 k := by
  obtain ⟨a, b, rfl⟩ : ∃ a b : Nat, k = (a : Int) - b := ⟨k.toNat, (-k).toNat, by omega⟩
  have h := natCast_two_pow_pos a
  rwa [← pow2_sub_mul a b, Rat.mul_pos_iff_of_pos_right (natCast_two_pow_pos b)] at h

theorem pow2_add (j k : Int) : pow2 (j + k) = pow2 j * pow2 k := by
  obtain ⟨a, b, rfl⟩ : ∃ a b : Nat, j = (a : Int) - b := ⟨j.toNat, (-j).toNat, by omega⟩
  obtain ⟨c, d, rfl⟩ : ∃ c d : Nat, k = (c : Int) - d := ⟨k.toNat, (-k).toNat, by omega⟩
  have hcomm (x y z w : Rat) : x * y * (z * w) = x * z * (y * w) := by
    rw [Rat.mul_assoc, ← Rat.mul_assoc y, Rat.mul_comm y, Rat.mul_assoc z, ← Rat.mul_assoc x]
  have hne : ((2 ^ (b + d) : Nat) : Rat) ≠ 0 := Rat.ne_of_gt (natCast_two_pow_pos _)
  have hsum : (a : Int) - b + (c - d) = ((a + c : Nat) : Int) - (b + d : Nat) := by omega
  have hmul : pow2 (a - b + (c - d)) * ((2 ^ (b + d) : Nat) : Rat) =
      pow2 (a - b) * pow2 (c - d) * ((2 ^ (b + d) : Nat) : Rat) := by
    rw [hsum, pow2_sub_mul, Nat.pow_add, Nat.pow_add, Rat.natCast_mul, Rat.natCast_mul, ← pow2_sub_mul a b, ← pow2_sub_mul c d,
      hcomm]
  rw [← Rat.mul_div_cancel (a := pow2 _) hne, hmul, Rat.mul_div_cancel hne]

theorem pow2_le_pow2 {j k : Int} (h : j ≤ k) : pow2 j ≤ pow2 k := by
  obtain ⟨n, rfl⟩ := Int.le.dest h
  have hone : ((1 : Nat) : Rat) ≤ ((2 ^ n : Nat) : Rat) := Rat.natCast_le_natCast.2 (Nat.two_pow_pos n)
  have hmul := Rat.mul_le_mul_of_nonneg_left hone (Rat.le_of_lt (pow2_pos j))
  rwa [Rat.natCast_ofNat, Rat.mul_one, ← pow2_natCast, ← pow2_add] at hmul

/-- The bit lengths of numerator and denominator give the exponent but for one. -/
theorem pow2_log2_bounds {m : Rat} (hm : 0 < m) :
    pow2 ((Nat.log2 m.num.natAbs : Int) - Nat.log2 m.den - 1) ≤ m ∧
      m < pow2 ((Nat.log2 m.num.natAbs : Int) - Nat.log2 m.den + 1) := by
  have hden : (0 : Rat) < (m.den : Rat) := Rat.natCast_pos.2 m.den_pos
  have hnum0 : m.num.natAbs ≠ 0 := fun h => Rat.ne_of_gt hm (Rat.num_eq_zero.1 (Int.natAbs_eq_zero.1 h))
  constructor
  · have hexp (a b : Nat) : (a : Int) - b - 1 = (a : Int) - (b + 1 : Nat) := by omega
    have hlog : (m.den : Rat) ≤ ((2 ^ (m.den.log2 + 1) : Nat) : Rat) := Rat.natCast_le_natCast.2 (Nat.le_of_lt Nat.lt_log2_self)
    refine Rat.le_of_mul_le_mul_right (Rat.le_trans (Rat.mul_le_mul_of_nonneg_left hlog (Rat.le_of_lt (pow2_pos _))) ?_) hden
    rw [hexp, pow2_sub_mul, rat_mul_den hm]
    exact Rat.natCast_le_natCast.2 (Nat.log2_self_le hnum0)
  · have hexp (a b : Nat) : (a : Int) - b + 1 = ((a + 1 : Nat) : Int) - b := by omega
    have hlog : ((2 ^ m.den.log2 : Nat) : Rat) ≤ (m.den : Rat) := Rat.natCast_le_natCast.2 (Nat.log2_self_le m.den_nz)
    refine Rat.lt_of_mul_lt_mul_right (rat_lt_of_le_of_lt (Rat.mul_le_mul_of_nonneg_left hlog (Rat.le_of_lt hm)) ?_)
      (Rat.le_of_lt (natCast_two_pow_pos m.den.log2))
    rw [hexp, pow2_sub_mul, rat_mul_den hm]
    exact Rat.natCast_lt_natCast.2 Nat.lt_log2_self

theorem floorLog2_spec {m : Rat} (hm : 0 < m) : pow2 (floorLog2 m) ≤ m ∧ m < pow2 (floorLog2 m + 1) := by
  obtain ⟨hlower, hupper⟩ := pow2_log2_bounds hm
  simp only [floorLog2]
  split
  case isTrue hl =>
    rw [if_neg (Rat.not_le.2 hupper)]
    exact ⟨hl, hupper⟩
  case isFalse hl =>
    rw [Int.sub_add_cancel]
    exact ⟨hlower, Rat.not_le.1 hl⟩

theorem floorLog2_lt_iff {m : Rat} (hm : 0 < m) (k : Int) : floorLog2 m < k ↔ m < pow2 k := by
  obtain ⟨hlower, hupper⟩ := floorLog2_spec hm
  refine ⟨fun h => rat_lt_of_lt_of_le hupper (pow2_le_pow2 h), fun h => Int.not_le.1 fun hk => ?_⟩
  exact Rat.not_lt.2 (Rat.le_trans (pow2_le_pow2 hk) hlower) h

/-! ### Rounding to a whole number (R92) -/

theorem le_toNat_floor_iff {q : Rat} (hq : 0 ≤ q) (n : Nat) : n ≤ q.floor.toNat ↔ (n : Rat) ≤ q := by
  have hfloor : 0 ≤ q.floor := Rat.le_floor_iff.2 hq
  rw [← Rat.intCast_natCast, ← Rat.le_floor_iff]
  omega

theorem toNat_floor_le {q : Rat} (hq : 0 ≤ q) : (q.floor.toNat : Rat) ≤ q := (le_toNat_floor_iff hq _).1 (Nat.le_refl _)

theorem toNat_floor_natCast (n : Nat) : (n : Rat).floor.toNat = n := by
  rw [← Rat.intCast_natCast, Rat.floor_intCast, Int.toNat_natCast]

theorem roundNat_natCast (n : Nat) (neg : Bool) (mode : RMode) : roundNat n neg mode = n := by
  simp only [roundNat, toNat_floor_natCast, Rat.sub_self, if_true]

/-- A whole number bounds what is rounded below it. -/
theorem roundNat_le {q : Rat} {n : Nat} (hq : 0 ≤ q) (h : q ≤ n) (neg : Bool) (mode : RMode) : roundNat q neg mode ≤ n := by
  have hfloor : q.floor.toNat ≤ n := Rat.natCast_le_natCast.1 (Rat.le_trans (toNat_floor_le hq) h)
  have hexact (he : q.floor.toNat = n) : q - (q.floor.toNat : Rat) = 0 := by
    have hqn : q = (q.floor.toNat : Rat) := Rat.le_antisymm (he.symm ▸ h) (toNat_floor_le hq)
    rw [← hqn, Rat.sub_self]
  simp only [roundNat]
  split
  case isTrue => exact hfloor
  case isFalse hr =>
    split
    · exact Nat.lt_of_le_of_ne hfloor fun he => hr (hexact he)
    · exact hfloor

/-! ### Patterns of magnitudes (R88) -/

section
variable (t : FF)

/-- The spacing of neighbours at the step `k`: step 0 is that of the subnormals and of the smallest normal values, and each next step
doubles the spacing. -/
def FF.spacing (k : Nat) : Rat := pow2 (k + 1 - t.bias - t.p)

/-- The magnitude of `n` spacings at the step `k`. -/
def FF.mag (k n : Nat) : Rat := n * t.spacing k

/-- The pattern of that magnitude, without a sign: of a normal value, the leading one of `n` counts in the exponent field. -/
def FF.pat (k n : Nat) : Nat := k * 2 ^ t.p + n

/-- `n` spacings are written at the step `k` and at no other. -/
def FF.Canonical (k n : Nat) : Prop := n < 2 ^ (t.p + 1) ∧ (k = 0 ∨ 2 ^ t.p ≤ n)

variable {t} {k n K N : Nat}

/-- Every pattern without a sign is that of one magnitude. -/
theorem FF.exists_canonical (a : Nat) : ∃ k n, t.Canonical k n ∧ a = t.pat k n := by
  have hdiv := Nat.div_add_mod' a (2 ^ t.p)
  have hlt := Nat.mod_lt a (Nat.two_pow_pos t.p)
  have hpow : 2 ^ (t.p + 1) = 2 ^ t.p * 2 := Nat.pow_succ ..
  rcases he : a / 2 ^ t.p with _ | k
  · exact ⟨0, a, ⟨by rw [he] at hdiv; omega, .inl rfl⟩, by rw [FF.pat, Nat.zero_mul, Nat.zero_add]⟩
  · refine ⟨k, 2 ^ t.p + a % 2 ^ t.p, ⟨by omega, .inr (by omega)⟩, ?_⟩
    rw [he, Nat.succ_mul] at hdiv
    rw [FF.pat]
    omega

theorem FF.spacing_pos : 0 < t.spacing k := pow2_pos _

theorem FF.mag_nonneg : 0 ≤ t.mag k n := Rat.mul_nonneg Rat.natCast_nonneg (Rat.le_of_lt FF.spacing_pos)

theorem FF.mag_pos (hn : 0 < n) : 0 < t.mag k n := Rat.mul_pos (Rat.natCast_pos.2 hn) FF.spacing_pos

theorem FF.mag_zero : t.mag k 0 = 0 := Rat.zero_mul _

/-- Spacings of a later step counted in those of an earlier one. -/
theorem FF.mag_step (h : k ≤ K) : t.mag K N = t.mag k (N * 2 ^ (K - k)) := by
  have hpow : t.spacing K = pow2 ((K - k : Nat) : Int) * t.spacing k := by
    rw [FF.spacing, FF.spacing, ← pow2_add]
    congr 1
    omega
  rw [FF.mag, FF.mag, hpow, pow2_natCast, Rat.natCast_mul, Rat.mul_assoc]

theorem FF.mag_lt_iff_of_step : t.mag k n < t.mag k N ↔ n < N := by
  rw [FF.mag, FF.mag, Rat.mul_lt_mul_right FF.spacing_pos, Rat.natCast_lt_natCast]

/-- What is written at a later step is greater, as a magnitude and as a pattern. -/
theorem FF.lt_of_step_lt (h : t.Canonical k n) (H : t.Canonical K N) (hlt : k < K) :
    t.mag k n < t.mag K N ∧ t.pat k n < t.pat K N := by
  obtain ⟨hn, -⟩ := h
  have hN : 2 ^ t.p ≤ N := H.2.resolve_left (by omega)
  have hpow : 2 ^ (t.p + 1) = 2 ^ t.p * 2 := Nat.pow_succ ..
  constructor
  · rw [FF.mag_step (Nat.le_of_lt hlt), FF.mag_lt_iff_of_step]
    calc n < 2 ^ t.p * 2 := hpow ▸ hn
      _ ≤ N * 2 ^ (K - k) := Nat.mul_le_mul hN (Nat.le_self_pow (by omega) 2)
  · have hstep : (k + 1) * 2 ^ t.p ≤ K * 2 ^ t.p := Nat.mul_le_mul_right _ hlt
    rw [Nat.succ_mul] at hstep
    rw [FF.pat, FF.pat]
    omega

/-- The order of patterns is the order of magnitudes. -/
theorem FF.mag_lt_iff (h : t.Canonical k n) (H : t.Canonical K N) : t.mag k n < t.mag K N ↔ t.pat k n < t.pat K N := by
  rcases Nat.lt_trichotomy k K with hlt | rfl | hgt
  · obtain ⟨hmag, hpat⟩ := FF.lt_of_step_lt h H hlt
    exact iff_of_true hmag hpat
  · rw [FF.mag_lt_iff_of_step, FF.pat, FF.pat, Nat.add_lt_add_iff_left]
  · obtain ⟨hmag, hpat⟩ := FF.lt_of_step_lt H h hgt
    exact iff_of_false (rat_not_lt_of_lt hmag) (Nat.lt_asymm hpat)

theorem FF.mag_le_iff (h : t.Canonical k n) (H : t.Canonical K N) : t.mag k n ≤ t.mag K N ↔ t.pat k n ≤ t.pat K N := by
  rw [← Rat.not_lt, ← Nat.not_lt, FF.mag_lt_iff H h]

/-! ### The step at which a magnitude is rounded and encoded (R92) -/

variable {m : Rat} {neg : Bool}

theorem FF.exists_step (m : Rat) : ∃ k : Nat, t.expOf m = k + 1 - t.bias := by
  obtain ⟨k, hk⟩ := Int.le.dest (Int.le_max_right (floorLog2 m) (1 - (t.bias : Int)))
  exact ⟨k, by rw [FF.expOf, ← hk]; omega⟩

theorem FF.mag_succ_pow : t.mag (k + 1) (2 ^ t.p) = t.mag k (2 ^ (t.p + 1)) := by
  rw [FF.mag_step (Nat.le_add_right k 1), Nat.add_sub_cancel_left, ← Nat.pow_add]

theorem FF.mag_pow : t.mag k (2 ^ (t.p + 1)) = pow2 (k + 2 - t.bias) := by
  rw [FF.mag, FF.spacing, ← pow2_natCast, ← pow2_add]
  congr 1
  omega

/-- A magnitude is rounded at the step `k` or an earlier one when fewer than 2^(p + 1) spacings of `k` hold it. -/
theorem FF.expOf_le_iff (hm : 0 < m) : t.expOf m ≤ k + 1 - t.bias ↔ m < t.mag k (2 ^ (t.p + 1)) := by
  rw [FF.mag_pow, ← floorLog2_lt_iff hm, FF.expOf, Int.max_le]
  omega

theorem FF.expOf_mag (h : t.Canonical k n) (hn : 0 < n) : t.expOf (t.mag k n) = k + 1 - t.bias := by
  have hpos : 0 < t.mag k n := FF.mag_pos hn
  refine Int.le_antisymm ((FF.expOf_le_iff hpos).2 (FF.mag_lt_iff_of_step.2 h.1)) ?_
  obtain ⟨j, hj⟩ := t.exists_step (t.mag k n)
  refine Int.not_lt.1 fun hlt => ?_
  have hjk : j + 1 ≤ k := by omega
  have hup := (FF.expOf_le_iff hpos).1 (Int.le_of_eq hj)
  rw [← FF.mag_succ_pow, FF.mag_step hjk, FF.mag_lt_iff_of_step] at hup
  have hp : 2 ^ t.p ≤ n := h.2.resolve_left (by omega)
  exact Nat.not_lt.2 (Nat.le_trans hp (Nat.le_mul_of_pos_right n (Nat.two_pow_pos _))) hup

theorem FF.mag_div : t.mag k n / t.spacing k = n := Rat.mul_div_cancel (Rat.ne_of_gt FF.spacing_pos)

theorem FF.round_of_step (hm : m ≠ 0) (he : t.expOf m = k + 1 - t.bias) (mode : RMode) :
    t.round m neg mode = t.mag k (roundNat (m / t.spacing k) neg mode) := by
  simp only [FF.round, if_neg hm, he, FF.mag, FF.spacing]

/-- The whole spacings of a magnitude at its own step are written there. -/
theorem FF.canonical_floor (hm : 0 < m) (he : t.expOf m = k + 1 - t.bias) :
    t.Canonical k (m / t.spacing k).floor.toNat := by
  have hq : 0 ≤ m / t.spacing k := rat_div_nonneg (Rat.le_of_lt hm) FF.spacing_pos
  refine ⟨?_, ?_⟩
  · rw [← Nat.not_le, le_toNat_floor_iff hq, Rat.not_le, Rat.div_lt_iff FF.spacing_pos]
    exact (FF.expOf_le_iff hm).1 (Int.le_of_eq he)
  · rcases k with _ | k
    · exact .inl rfl
    · have hnot : ¬ t.expOf m ≤ k + 1 - t.bias := by omega
      rw [FF.expOf_le_iff hm, ← FF.mag_succ_pow, Rat.not_lt] at hnot
      exact .inr ((le_toNat_floor_iff hq _).2 ((rat_le_div_iff FF.spacing_pos).2 hnot))

theorem FF.encode_of_step (hm : 0 < m) (he : t.expOf m = k + 1 - t.bias) :
    t.encode neg m = t.signBit neg + t.pat k (m / t.spacing k).floor.toNat := by
  obtain ⟨-, hk⟩ := FF.canonical_floor hm he
  have hspacing : pow2 (k + 1 - t.bias - t.p) = t.spacing k := rfl
  have hexp : ((k : Int) + 1 - t.bias + t.bias).toNat = k + 1 := by omega
  simp only [FF.encode, if_neg (Rat.ne_of_gt hm), he, hspacing]
  split
  case isTrue hlt =>
    obtain rfl := hk.resolve_right (Nat.not_le.2 hlt)
    rw [FF.pat, Nat.zero_mul, Nat.zero_add]
  case isFalse hge =>
    rw [FF.pat, hexp, Nat.succ_mul]
    omega

theorem FF.round_zero (mode : RMode) : t.round 0 neg mode = 0 := if_pos rfl

theorem FF.encode_zero : t.encode neg 0 = t.signBit neg := if_pos rfl

/-- A value that the format holds is its own rounding. -/
theorem FF.round_mag (h : t.Canonical k n) (mode : RMode) : t.round (t.mag k n) neg mode = t.mag k n := by
  rcases Nat.eq_zero_or_pos n with rfl | hn
  · rw [FF.mag_zero, FF.round_zero]
  · rw [FF.round_of_step (Rat.ne_of_gt (FF.mag_pos hn)) (FF.expOf_mag h hn), FF.mag_div, roundNat_natCast]

theorem FF.encode_mag (h : t.Canonical k n) : t.encode neg (t.mag k n) = t.signBit neg + t.pat k n := by
  rcases Nat.eq_zero_or_pos n with rfl | hn
  · obtain rfl : k = 0 := h.2.resolve_right (Nat.not_le.2 (Nat.two_pow_pos t.p))
    rw [FF.mag_zero, FF.encode_zero, FF.pat, Nat.zero_mul, Nat.add_zero]
  · rw [FF.encode_of_step (FF.mag_pos hn) (FF.expOf_mag h hn), FF.mag_div, toNat_floor_natCast]

theorem FF.round_nonneg (m : Rat) (neg : Bool) (mode : RMode) : 0 ≤ t.round m neg mode := by
  rw [FF.round]
  split
  · exact Rat.le_refl
  · exact Rat.mul_nonneg Rat.natCast_nonneg (Rat.le_of_lt (pow2_pos _))

/-- Rounding does not pass a value that the format holds. -/
theorem FF.round_le_mag (H : t.Canonical K N) (hm : 0 ≤ m) (hle : m ≤ t.mag K N) (mode : RMode) :
    t.round m neg mode ≤ t.mag K N := by
  rcases Rat.le_iff_lt_or_eq.1 hm with hpos | rfl
  · obtain ⟨k, hk⟩ := t.exists_step m
    have hstep : k ≤ K := by
      have := (FF.expOf_le_iff (k := K) hpos).2 (rat_lt_of_le_of_lt hle (FF.mag_lt_iff_of_step.2 H.1))
      omega
    rw [FF.mag_step hstep] at hle ⊢
    rw [FF.round_of_step (Rat.ne_of_gt hpos) hk, ← Rat.not_lt, FF.mag_lt_iff_of_step, Nat.not_lt]
    exact roundNat_le (rat_div_nonneg hm FF.spacing_pos) ((rat_div_le_iff FF.spacing_pos).2 hle) neg mode
  · rwa [FF.round_zero]

/-- A magnitude up to one that the format holds has a pattern up to that one's. -/
theorem FF.encode_le_pat (H : t.Canonical K N) (hm : 0 ≤ m) (hle : m ≤ t.mag K N) :
    ∃ a, a ≤ t.pat K N ∧ ∀ neg, t.encode neg m = t.signBit neg + a := by
  rcases Rat.le_iff_lt_or_eq.1 hm with hpos | rfl
  · obtain ⟨k, hk⟩ := t.exists_step m
    have hmag : t.mag k (m / t.spacing k).floor.toNat ≤ m :=
      (rat_le_div_iff FF.spacing_pos).1 (toNat_floor_le (rat_div_nonneg hm FF.spacing_pos))
    exact ⟨_, (FF.mag_le_iff (FF.canonical_floor hpos hk) H).1 (Rat.le_trans hmag hle), fun neg => FF.encode_of_step hpos hk⟩
  · exact ⟨0, Nat.zero_le _, fun neg => FF.encode_zero⟩

/-! ### The values of patterns (R88, R89) -/

theorem mul_add_div_of_lt {d f : Nat} (hf : f < d) (E : Nat) : (E * d + f) / d = E := by
  rw [Nat.add_comm, Nat.add_mul_div_right _ _ (Nat.zero_lt_of_lt hf), Nat.div_eq_of_lt hf, Nat.zero_add]

theorem FF.width_pred (t : FF) : t.width - 1 = t.ebits + t.p := by
  rw [FF.width]
  omega

theorem FF.two_pow_width (t : FF) : 2 ^ t.width = 2 ^ (t.width - 1) * 2 := by
  rw [← Nat.pow_succ]
  congr 1
  rw [FF.width]
  omega

theorem FF.two_pow_width_pred (t : FF) : 2 ^ (t.width - 1) = 2 ^ t.ebits * 2 ^ t.p := by
  rw [FF.width_pred, Nat.pow_add]

theorem FF.signBit_false (t : FF) : t.signBit false = 0 := rfl

theorem FF.signBit_true (t : FF) : t.signBit true = 2 ^ (t.width - 1) := rfl

theorem FF.signBit_eq_mul (t : FF) (s : Bool) : t.signBit s = s.toNat * 2 ^ t.ebits * 2 ^ t.p := by
  cases s with
  | false => rw [FF.signBit_false, Bool.toNat_false, Nat.zero_mul, Nat.zero_mul]
  | true => rw [FF.signBit_true, Bool.toNat_true, Nat.one_mul, FF.two_pow_width_pred]

theorem FF.val_fields {f E : Nat} (hf : f < 2 ^ t.p) (hE : E < 2 ^ t.ebits) (s : Bool) :
    t.val (t.signBit s + (E * 2 ^ t.p + f)) =
      if t = .e4m3 ∧ E = 15 ∧ f = 7 then .nan false
      else if t ≠ .e4m3 ∧ E = 2 ^ t.ebits - 1 then
        if f = 0 then .inf s else .nan (f / 2 ^ (t.p - 1) % 2 == 0)
      else if E = 0 then .fin s (t.mag 0 f) else .fin s (t.mag (E - 1) (2 ^ t.p + f)) := by
  have hbits : t.signBit s + (E * 2 ^ t.p + f) = (s.toNat * 2 ^ t.ebits + E) * 2 ^ t.p + f := by
    rw [FF.signBit_eq_mul, Nat.add_mul, Nat.add_assoc]
  have hs : (s.toNat % 2 == 1) = s := by cases s <;> rfl
  have hzero : (f : Rat) * pow2 (1 - t.bias - t.p) = t.mag 0 f := rfl
  have hnorm (h0 : E ≠ 0) : ((2 ^ t.p + f : Nat) : Rat) * pow2 (E - t.bias - t.p) = t.mag (E - 1) (2 ^ t.p + f) := by
    obtain ⟨k, rfl⟩ := Nat.exists_eq_succ_of_ne_zero h0
    rfl
  simp only [FF.val, hbits, Nat.pow_add, ← Nat.div_div_eq_div_mul, mul_add_div_of_lt hf, mul_add_div_of_lt hE,
    Nat.mul_add_mod_self_right, Nat.mod_eq_of_lt hf, Nat.mod_eq_of_lt hE, hs, hzero]
  congr 2
  split
  case isTrue => rfl
  case isFalse h0 => rw [hnorm h0]

theorem FF.ebits_two_le (t : FF) : 2 ≤ t.ebits := by cases t <;> decide

theorem FF.infBits_eq (t : FF) (s : Bool) : t.infBits s = t.signBit s + t.infBits false := by
  rw [FF.infBits, FF.infBits, FF.signBit_false, Nat.zero_add]

theorem FF.infBits_false (ht : t ≠ .e4m3) : t.infBits false = (2 ^ t.ebits - 1) * 2 ^ t.p := by
  rw [FF.infBits, if_neg ht, FF.signBit_false, Nat.zero_add]

/-- Below infinity, and in E4M3 below the NaN of all ones, stand the numbers. -/
theorem FF.lt_infBits_iff {f E : Nat} (hf : f < 2 ^ t.p) (hE : E < 2 ^ t.ebits) : E * 2 ^ t.p + f < t.infBits false ↔
    ¬(t = .e4m3 ∧ E = 15 ∧ f = 7) ∧ ¬(t ≠ .e4m3 ∧ E = 2 ^ t.ebits - 1) := by
  by_cases ht : t = .e4m3
  · subst ht
    have hf : f < 8 := hf
    have hE : E < 16 := hE
    have hlt : E * 8 + f < 127 ↔ ¬(E = 15 ∧ f = 7) := by omega
    exact hlt.trans ⟨fun h => ⟨fun hnan => h hnan.2, fun hinf => hinf.1 rfl⟩, fun h hnan => h.1 ⟨rfl, hnan⟩⟩
  · have hlt : E * 2 ^ t.p + f < t.infBits false ↔ E < 2 ^ t.ebits - 1 := by
      rw [FF.infBits_false ht, ← Nat.div_lt_iff_lt_mul (Nat.two_pow_pos _), mul_add_div_of_lt hf]
    exact hlt.trans ⟨fun h => ⟨fun hnan => ht hnan.1, fun hinf => Nat.ne_of_lt h hinf.2⟩,
      fun h => Nat.lt_of_le_of_ne (Nat.le_sub_one_of_lt hE) fun he => h.2 ⟨ht, he⟩⟩

theorem FF.infBits_false_lt (t : FF) : t.infBits false < 2 ^ (t.width - 1) := by
  cases t <;> decide

theorem FF.infBits_lt (t : FF) (s : Bool) : t.infBits s < 2 ^ t.width := by
  have hlt := t.infBits_false_lt
  rw [FF.infBits_eq, FF.two_pow_width]
  cases s with
  | false => rw [FF.signBit_false]; omega
  | true => rw [FF.signBit_true]; omega

/-- A pattern below that of infinity is that of a number. -/
theorem FF.val_pat (h : t.Canonical k n) (hlt : t.pat k n < t.infBits false) (s : Bool) :
    t.val (t.signBit s + t.pat k n) = .fin s (t.mag k n) := by
  have hfields {f E : Nat} (hf : f < 2 ^ t.p) (hlt : E * 2 ^ t.p + f < t.infBits false) :
      t.val (t.signBit s + (E * 2 ^ t.p + f)) =
        if E = 0 then .fin s (t.mag 0 f) else .fin s (t.mag (E - 1) (2 ^ t.p + f)) := by
    have hE : E < 2 ^ t.ebits := by
      have := Nat.lt_trans hlt t.infBits_false_lt
      rw [FF.two_pow_width_pred] at this
      exact Nat.lt_of_mul_lt_mul_right (Nat.lt_of_le_of_lt (Nat.le_add_right _ f) this)
    obtain ⟨hnan, hinf⟩ := (FF.lt_infBits_iff hf hE).1 hlt
    rw [FF.val_fields hf hE, if_neg hnan, if_neg hinf]
  obtain ⟨hn, hk⟩ := h
  rcases Nat.lt_or_ge n (2 ^ t.p) with hsub | hnorm
  · obtain rfl := hk.resolve_right (Nat.not_le.2 hsub)
    exact hfields hsub hlt
  · obtain ⟨f, rfl⟩ := Nat.exists_eq_add_of_le hnorm
    have hpat : t.pat k (2 ^ t.p + f) = (k + 1) * 2 ^ t.p + f := by rw [FF.pat, Nat.succ_mul, Nat.add_assoc]
    rw [hpat] at hlt ⊢
    exact hfields (by rw [Nat.pow_succ] at hn; omega) hlt

theorem FF.val_infBits (ht : t ≠ .e4m3) (s : Bool) : t.val (t.infBits s) = .inf s := by
  have hE : 2 ^ t.ebits - 1 < 2 ^ t.ebits := Nat.sub_one_lt (Nat.ne_of_gt (Nat.two_pow_pos _))
  have hval := FF.val_fields (Nat.two_pow_pos t.p) hE s
  rwa [if_neg fun h => ht h.1, if_pos ⟨ht, rfl⟩, if_pos rfl, Nat.add_zero, ← FF.infBits_false ht, ← FF.infBits_eq] at hval

/-- Every pattern is a sign bit and a pattern without a sign. -/
theorem FF.exists_sign {bits : Nat} (h : bits < 2 ^ t.width) :
    ∃ s a, a < 2 ^ (t.width - 1) ∧ bits = t.signBit s + a := by
  rw [FF.two_pow_width] at h
  rcases Nat.lt_or_ge bits (2 ^ (t.width - 1)) with hlt | hge
  · exact ⟨false, bits, hlt, (Nat.zero_add _).symm⟩
  · exact ⟨true, bits - 2 ^ (t.width - 1), by omega, (Nat.add_sub_of_le hge).symm⟩

/-- What is neither a NaN nor an infinity has a pattern below that of infinity. -/
theorem FF.lt_infBits_of_finite {s : Bool} {a : Nat} (ha : a < 2 ^ (t.width - 1))
    (hnan : (t.val (t.signBit s + a)).isNan = false) (hinf : (t.val (t.signBit s + a)).isInf = false) :
    a < t.infBits false := by
  have hf := Nat.mod_lt a (Nat.two_pow_pos t.p)
  have hE : a / 2 ^ t.p < 2 ^ t.ebits := by rwa [Nat.div_lt_iff_lt_mul (Nat.two_pow_pos _), ← FF.two_pow_width_pred]
  rw [← Nat.div_add_mod' a (2 ^ t.p)] at hnan hinf ⊢
  rw [FF.val_fields hf hE] at hnan hinf
  refine (FF.lt_infBits_iff hf hE).2 ⟨fun hA => ?_, fun hB => ?_⟩
  · rw [if_pos hA] at hnan
    exact Bool.noConfusion hnan
  · rw [if_neg fun hA => hB.1 hA.1, if_pos hB] at hnan hinf
    split at hinf
    case isTrue => exact Bool.noConfusion hinf
    case isFalse h0 =>
      rw [if_neg h0] at hnan
      exact Bool.noConfusion hnan

/-- The largest number stands just below infinity (R89). -/
theorem FF.exists_maxF (t : FF) : ∃ K N, t.Canonical K N ∧ t.maxF = t.mag K N ∧ t.pat K N + 1 = t.infBits false := by
  by_cases ht : t = .e4m3
  · subst ht
    exact ⟨14, 14, ⟨by decide, .inr (by decide)⟩, by decide +kernel, rfl⟩
  · have hpow : 2 ^ (t.p + 1) = 2 ^ t.p * 2 := Nat.pow_succ ..
    have hpos := Nat.two_pow_pos t.p
    obtain ⟨K, hK⟩ : ∃ K, 2 ^ t.ebits = K + 3 := by
      have := Nat.pow_le_pow_right (n := 2) (by decide) t.ebits_two_le
      exact ⟨2 ^ t.ebits - 3, by omega⟩
    refine ⟨K, 2 ^ (t.p + 1) - 1, ⟨by omega, .inr (by omega)⟩, ?_, ?_⟩
    · rw [FF.maxF, FF.emaxField, if_neg ht, if_neg ht, hK]
      rfl
    · rw [FF.infBits_false ht, hK, FF.pat, Nat.add_sub_assoc (by decide), Nat.add_mul]
      omega

theorem FF.maxF_pos (t : FF) : 0 < t.maxF := by
  cases t <;> decide +kernel

theorem FF.encode_maxF (t : FF) (neg : Bool) : t.encode neg t.maxF + 1 = t.infBits neg := by
  obtain ⟨K, N, hcan, hmax, hpat⟩ := t.exists_maxF
  rw [hmax, FF.encode_mag hcan, FF.infBits_eq, ← hpat, Nat.add_assoc]

theorem FF.round_maxF (t : FF) (neg : Bool) (mode : RMode) : t.round t.maxF neg mode = t.maxF := by
  obtain ⟨K, N, hcan, hmax, -⟩ := t.exists_maxF
  rw [hmax, FF.round_mag hcan]

/-- Up to the largest number, patterns stay below infinity. -/
theorem FF.encode_lt_infBits (hm : 0 ≤ m) (hle : m ≤ t.maxF) :
    ∃ a, a < t.infBits false ∧ ∀ neg, t.encode neg m = t.signBit neg + a := by
  obtain ⟨K, N, hcan, hmax, hpat⟩ := t.exists_maxF
  obtain ⟨a, ha, henc⟩ := FF.encode_le_pat hcan hm (hmax ▸ hle)
  exact ⟨a, by omega, henc⟩

theorem FF.val_encode_maxF (t : FF) (neg : Bool) : t.val (t.encode neg t.maxF) = .fin neg t.maxF := by
  obtain ⟨K, N, hcan, hmax, hpat⟩ := t.exists_maxF
  rw [hmax, FF.encode_mag hcan, FF.val_pat hcan (by omega)]

/-! ### Overflow (R94) -/

theorem FF.overflow_eq_or (t : FF) (mode : RMode) (neg : Bool) :
    t.overflow mode neg = t.infBits neg ∨ t.overflow mode neg = t.encode neg t.maxF := by
  have hite (b : Bool) (x y : Nat) : (if b then x else y) = x ∨ (if b then x else y) = y := by
    cases b with
    | false => exact .inr rfl
    | true => exact .inl rfl
  exact hite _ _ _

theorem FF.overflow_lt (t : FF) (mode : RMode) (neg : Bool) : t.overflow mode neg < 2 ^ t.width := by
  have hinf := t.infBits_lt neg
  have hmax := t.encode_maxF neg
  rcases t.overflow_eq_or mode neg with h | h <;> omega

/-- An infinity of R94: in E4M3 the NaN of that sign. -/
theorem FF.infBits_row (t : FF) (neg : Bool) :
    if t = .e4m3 then t.infBits neg = (if neg then 0xFF else 0x7F) else t.val (t.infBits neg) = .inf neg := by
  by_cases ht : t = .e4m3
  · subst ht
    cases neg <;> rfl
  · rw [if_neg ht]
    exact FF.val_infBits ht neg

/-! ### FPResult (R93) -/

theorem FP.scale_zero (v : FP) : v.scale 0 = v := by
  cases v with
  | fin s m => rw [FP.scale, pow2_zero, Rat.mul_one]
  | nan s => rfl
  | inf s => rfl

/-- With no scale and no clamp, an overflow takes the row of R94 and raises OF and NX. -/
theorem fpResult_overflow {mode : RMode} (h : t.maxF < t.round m neg mode) (ftz : Bool) :
    fpResult t (.fin neg m) { mode := mode, scale := 0, clamp := 0, ftz := ftz } =
      (t.overflow mode neg, Flags.or .OF .NX) := by
  simp only [fpResult, FP.scale_zero, FF.clamp, if_pos h]
  rfl

/-- With no scale and no clamp, a magnitude that is its own rounding raises no flag. -/
theorem fpResult_exact {mode : RMode} (h : t.round m neg mode = m) (hle : m ≤ t.maxF) :
    fpResult t (.fin neg m) { FPMod.rne with mode := mode } = (t.encode neg m, Flags.none) := by
  simp only [fpResult, FPMod.rne, FP.scale_zero, FF.clamp, h, if_neg (Rat.not_lt.2 hle), bne_self_eq_false, Bool.and_false,
    Bool.false_and, Bool.false_eq_true, if_false]
  rfl

/-- The magnitude that the clamp `.sat` leaves. -/
def FF.satMag (t : FF) (m : Rat) : Rat := if t.maxF < m then t.maxF else m

theorem FF.satMag_nonneg (hm : 0 ≤ m) : 0 ≤ t.satMag m := by
  rw [FF.satMag]
  split
  · exact Rat.le_of_lt t.maxF_pos
  · exact hm

theorem FF.satMag_le : t.satMag m ≤ t.maxF := by
  rw [FF.satMag]
  split
  case isTrue => exact Rat.le_refl
  case isFalse h => exact Rat.not_lt.1 h

theorem FF.satMag_of_le (h : t.maxF ≤ m) : t.satMag m = t.maxF := by
  rw [FF.satMag]
  split
  case isTrue => rfl
  case isFalse hlt => exact Rat.le_antisymm (Rat.not_lt.1 hlt) h

/-- The clamp `.sat` (R93) limits the magnitude and keeps the sign. -/
theorem FF.clamp_sat (t : FF) (neg : Bool) (hm : 0 ≤ m) : t.clamp 3 (.fin neg m) = .fin neg (t.satMag m) := by
  have hmax := t.maxF_pos
  have hneg : -t.maxF < 0 := Rat.neg_lt_neg hmax
  simp only [FF.clamp, FP.limit, FP.ofRat, FF.satMag]
  cases neg with
  | false =>
    have hlow : ¬ m < -t.maxF := Rat.not_lt.2 (Rat.le_trans (Rat.le_of_lt hneg) hm)
    simp only [Bool.false_eq_true, if_false, if_neg hlow, if_neg (rat_not_lt_of_lt hmax)]
    split <;> rfl
  | true =>
    have hhigh : ¬ t.maxF < -m := Rat.not_lt.2 (Rat.le_trans (Rat.neg_le_neg hm) (Rat.le_of_lt hmax))
    simp only [if_true, if_neg hhigh, if_pos hneg, Rat.neg_lt_neg_iff, Rat.neg_neg]
    split <;> rfl

/-- Under `.sat` the limited magnitude is rounded, and it never overflows. -/
theorem fpResult_sat (ht : t ≠ .f32) (hm : 0 ≤ m) (neg ftz : Bool) (mode : RMode) :
    t.round (t.satMag m) neg mode ≤ t.maxF ∧
    (fpResult t (.fin neg m) { mode := mode, scale := 0, clamp := 3, ftz := ftz }).1 =
      t.encode neg (t.round (t.satMag m) neg mode) := by
  obtain ⟨K, N, hcan, hmax, -⟩ := t.exists_maxF
  have hle : t.round (t.satMag m) neg mode ≤ t.maxF := by
    rw [hmax]
    exact FF.round_le_mag hcan (FF.satMag_nonneg hm) (hmax ▸ FF.satMag_le) mode
  have hf32 : (t == FF.f32) = false := beq_eq_false_iff_ne.2 ht
  refine ⟨hle, ?_⟩
  simp only [fpResult, FP.scale_zero, FF.clamp_sat t neg hm, if_neg (Rat.not_lt.2 hle), hf32, Bool.and_false, Bool.false_and,
    Bool.false_eq_true, if_false]

end

/-! ### The obligations -/

/-- Settles O8: a pattern below that of infinity is that of a canonical magnitude, which rounds to itself and is encoded back. -/
theorem exactRounding : Obligations.ExactRounding := by
  intro t bits mode hbits hnan hinf
  obtain ⟨s, a, ha, rfl⟩ := FF.exists_sign hbits
  have hlt := FF.lt_infBits_of_finite ha hnan hinf
  obtain ⟨k, n, hcan, rfl⟩ := FF.exists_canonical (t := t) a
  obtain ⟨K, N, hcanMax, hmax, hpat⟩ := t.exists_maxF
  have hle : t.mag k n ≤ t.maxF := by
    rw [hmax, FF.mag_le_iff hcan hcanMax]
    omega
  rw [FF.val_pat hcan hlt, fpResult_exact (FF.round_mag hcan mode) hle, FF.encode_mag hcan]

/-- Settles O12: the rows of R94 for infinity and for the largest number; under `.sat` the result stays below the NaN of all ones, and
448 is its own rounding. -/
theorem overflowResults : Obligations.OverflowResults := by
  intro t mode neg ftz m
  refine ⟨fun h => ?_, fun hm => ?_⟩
  · rw [fpResult_overflow h]
    refine ⟨t.overflow_lt mode neg, rfl, ?_⟩
    have htop := t.infBits_row neg
    have hbig := t.val_encode_maxF neg
    cases mode with
    | rne | rna => exact htop
    | rtz => exact hbig
    | rup => cases neg with
      | false => exact htop
      | true => exact hbig
    | rdn => cases neg with
      | false => exact hbig
      | true => exact htop
  · obtain ⟨hle, hr⟩ := fpResult_sat (t := .e4m3) (by decide) hm neg ftz mode
    obtain ⟨a, ha, henc⟩ := FF.encode_lt_infBits (FF.round_nonneg ..) hle
    replace ha : a < 127 := ha
    replace henc : _ = (if neg then 128 else 0) + a := henc neg
    simp only [hr]
    refine ⟨?_, ?_, fun hbig => ?_⟩
    · rw [henc]
      split <;> omega
    · rw [henc]
      split <;> omega
    · rw [FF.satMag_of_le (show FF.maxF .e4m3 ≤ m from hbig), FF.round_maxF]
      have hmax := FF.encode_maxF .e4m3 neg
      cases neg <;> exact Nat.succ.inj hmax

end Sys2Proof
end

section
/-!
PROOFS. Every load is one body of accesses: what it leaves with no active lane, and what it leaves once its lanes pass the checks of
R169 and meet no poison.
-/
namespace Sys2Proof.Machine

variable {i : Instr} {e : Entry} {c : Ctl} {s : State} {x : Ctx} {f : MaFmt} {m : MemForm} {g : Guard} {ldb bcast generic : Bool}

/-! ### What a load reads and leaves -/

/-- The lanes that a load reads for: the lowest alone where its destination is uniform (R174). -/
def loadReaches (f : MaFmt) (m : MemForm) (bcast : Bool) (s : State) (x : Ctx) : List (Nat × Reach) :=
  let all := s.reaches x m x.lanes (loadAddr f bcast s x)
  if f.ops.d.isUni then all.take 1 else all

/-- A lane is active, every active lane passes the checks of R169, and no byte that is read is poisoned (R178). -/
def LoadClean (f : MaFmt) (m : MemForm) (bcast : Bool) (s : State) (x : Ctx) : Prop :=
  x.active ≠ 0 ∧ s.memTrap x m x.lanes (loadAddr f bcast s x) = none ∧
    s.poisonTrap (s.via x.blk) (loadReaches f m bcast s x) (loadAddr f bcast s x) = none

/-- The load's operation: its destination, and its accesses in lane order; LDB's are one request, unless its guard failed, one lane
receives or the address is private (R173, R176). -/
def loadOp (f : MaFmt) (m : MemForm) (g : Guard) (ldb bcast : Bool) (s : State) (x : Ctx) : OpKind :=
  let addr := loadAddr f bcast s x
  .load ((if f.ops.d.isUni then [x.lead] else x.lanes).flatMap fun L => s.placeOf x f.ops.d (loadWide f m.narrow) L) f.zx
    (loadAccs (ldb && !s.replays x g addr && !f.ops.d.isUni && tagOf (addr x.lead) != 4) x (loadReaches f m bcast s x) addr) []

/-- The state before the operation enters flight: the translations have been put to use, and the site has asked for its rewrite. -/
def loadPrepared (f : MaFmt) (m : MemForm) (g : Guard) (bcast generic : Bool) (s : State) (x : Ctx) : State :=
  let addr := loadAddr f bcast s x
  (s.useVia x ((loadReaches f m bcast s x).flatMap fun r => r.2.via) .read).siteAfter x generic (s.replays x g addr)
    (loadForm ((s.reaches x m x.lanes addr).map fun r => (addr r.1, r.2)))

/-- The state with the load's operation in flight, under the order and scope of the word. -/
def loadStarted (f : MaFmt) (m : MemForm) (g : Guard) (ldb bcast generic : Bool) (s : State) (x : Ctx) : State :=
  (loadPrepared f m g bcast generic s x).startOp x f.order f.scope false (loadOp f m g ldb bcast s x)

theorem loadBody_idle (h : x.active = 0) : loadBody f m g ldb bcast generic s x = .ok (Done.now x s) := if_pos h

theorem loadBody_clean (h : LoadClean f m bcast s x) :
    loadBody f m g ldb bcast generic s x = .ok (Done.later x (loadStarted f m g ldb bcast generic s x)) := by
  obtain ⟨hactive, hchecks, hpoison⟩ := h
  unfold loadReaches at hpoison
  unfold loadBody
  simp only [if_neg hactive, hchecks, hpoison]
  rfl

/-! ### Its two outcomes as an issue -/

/-- What a load's issue searches for soft errors is what its lanes read (R269). -/
def loadEntry (f : MaFmt) (m : MemForm) (bcast : Bool) (e : Entry) : Entry :=
  e.scans fun s x => s.scanLoad x.blk (s.readLocs x m (loadAddr f bcast s x))

/-- With no active lane the instruction only goes on (log 25); with a clean load it leaves the operation in flight. -/
def LoadCompletes (i : Instr) (c : Ctl) (e : Entry) (f : MaFmt) (m : MemForm) (g : Guard) (ldb bcast generic : Bool) : Prop :=
  Runs i (loadEntry f m bcast e) c (fun _ x => x.active = 0) (fun s x => Done.now x s) ∧
  Runs i (loadEntry f m bcast e) c (LoadClean f m bcast)
    (fun s x => Done.later x (loadStarted f m g ldb bcast generic s x))

theorem load_completes (hexec : exec i = issue i c (loadEntry f m bcast e) (loadBody f m g ldb bcast generic)) :
    LoadCompletes i c e f m g ldb bcast generic :=
  ⟨fun _ _ hpass hidle => hexec ▸ issue_ok hpass (loadBody_idle hidle),
   fun _ _ hpass hclean => hexec ▸ issue_ok hpass (loadBody_clean hclean)⟩

/-- LDA has no guard, and its site may ask to be quickened (R111, R113). -/
theorem lda_completes (c : Ctl) (f : MaFmt) : LoadCompletes (.lda c f) c .plain f .lda .none false false true :=
  load_completes rfl

/-- What a native word tests before it loads: the guard of its tag and format (R74, R117). -/
def nativeLoadEntry (f : MaFmt) (ldb : Bool) : Entry :=
  guardEntry (nativeGuard f ldb .read) fun s x L => s.effAddr x f.ops.a f.ops.imm L

/-- A native word; LDB with Q = 0 takes the address of its lowest lane (R176). -/
theorem nativeLoad_completes (hexec : exec i = nativeLoad i c f ldb) :
    LoadCompletes i c (nativeLoadEntry f ldb) f (nativeForm f c.q .read) (nativeGuard f ldb .read) ldb (ldb && !c.q) false :=
  load_completes hexec

/-- Settles O13: LDA by `lda_completes`, and each of the five native words by `nativeLoad_completes`. -/
theorem loadRuns : Obligations.LoadRuns := by
  intro c f
  have hlda := lda_completes c f
  have hldg := nativeLoad_completes (show exec (.ldg c f) = nativeLoad (.ldg c f) c f false from rfl)
  have hlds := nativeLoad_completes (show exec (.lds c f) = nativeLoad (.lds c f) c f false from rfl)
  have hldp := nativeLoad_completes (show exec (.ldp c f) = nativeLoad (.ldp c f) c f false from rfl)
  have hldk := nativeLoad_completes (show exec (.ldk c f) = nativeLoad (.ldk c f) c f false from rfl)
  have hldb := nativeLoad_completes (show exec (.ldb c f) = nativeLoad (.ldb c f) c f true from rfl)
  exact ⟨hlda, hldg, hlds, hldp, hldk, hldb⟩

end Sys2Proof.Machine
end

section
/-!
PROOFS. Every instruction of format A completes after its fixed latency: the integer, floating-point, conversion and cross-lane
instructions.
-/
namespace Sys2Proof.Machine

variable {i : Instr} {e : Entry} {c : Ctl} {lat : Nat} {g : State → Ctx → List PWrite × Flags}
  {ws : State → Ctx → List PWrite} {fl : State → Ctx → Flags}

/-- An arm with the body of a fixed latency runs: its writes wait and its flags are raised (R37, R76). -/
theorem runsFixed_of_exec (hexec : exec i = issue i c e (fixedBody lat fun s x => (ws s x, fl s x))) :
    RunsFixed i e c lat ws fl :=
  fun _ _ hpass => hexec ▸ fixed_runs hpass

/-- The same for an effect of several forms of which none raises a flag. -/
theorem runsFixed_quiet (hexec : exec i = issue i c e (fixedBody lat g)) (hquiet : ∀ s x, (g s x).2 = Flags.none) :
    RunsFixed i e c lat (fun s x => (g s x).1) fun _ _ => Flags.none :=
  fun _ _ hpass => by rw [hexec, fixed_runs hpass, hquiet]

theorem moviEffect_quiet (f : AFmt) (s : State) (x : Ctx) : (moviEffect f s x).2 = Flags.none := by
  unfold moviEffect; split <;> rfl

theorem pmovEffect_quiet (f : AFmt) (s : State) (x : Ctx) : (pmovEffect f s x).2 = Flags.none := by
  unfold pmovEffect; split <;> rfl

/-- Settles O1: each instruction's arm has the body of latency 4 (`runsFixed_of_exec`); MOVI and PMOV are quiet in each of their
forms. -/
theorem integerRuns : Obligations.IntegerRuns := by
  intro c f
  have hmovi : RunsFixed (.movi c f) .plain c 4 (fun s x => (moviEffect f s x).1) fun _ _ => Flags.none :=
    runsFixed_quiet (g := moviEffect f) rfl (moviEffect_quiet f)
  have hpmov : RunsFixed (.pmov c f) .plain c 4 (fun s x => (pmovEffect f s x).1) fun _ _ => Flags.none :=
    runsFixed_quiet (g := pmovEffect f) rfl (pmovEffect_quiet f)
  exact ⟨runsFixed_of_exec rfl, runsFixed_of_exec rfl, runsFixed_of_exec rfl, runsFixed_of_exec rfl, runsFixed_of_exec rfl,
    runsFixed_of_exec rfl, runsFixed_of_exec rfl, runsFixed_of_exec rfl, runsFixed_of_exec rfl, runsFixed_of_exec rfl,
    runsFixed_of_exec rfl, runsFixed_of_exec rfl, runsFixed_of_exec rfl, runsFixed_of_exec rfl, runsFixed_of_exec rfl,
    runsFixed_of_exec rfl, runsFixed_of_exec rfl, runsFixed_of_exec rfl, runsFixed_of_exec rfl, runsFixed_of_exec rfl,
    hmovi, runsFixed_of_exec rfl, hpmov⟩

/-- Settles O4: each arm has the body of its latency, with the value and the flags of each computing lane. -/
theorem floatRuns : Obligations.FloatRuns := by
  intro c f
  exact ⟨runsFixed_of_exec rfl, runsFixed_of_exec rfl, runsFixed_of_exec rfl, runsFixed_of_exec rfl, runsFixed_of_exec rfl,
    runsFixed_of_exec rfl, runsFixed_of_exec rfl, runsFixed_of_exec rfl, runsFixed_of_exec rfl, runsFixed_of_exec rfl,
    runsFixed_of_exec rfl, runsFixed_of_exec rfl, runsFixed_of_exec rfl, runsFixed_of_exec rfl⟩

/-- Settles O5: each arm has the body of latency 6; the entry of QSCALE and QSX asks for whole groups (R156). -/
theorem convertRuns : Obligations.ConvertRuns := by
  intro c f
  exact ⟨runsFixed_of_exec rfl, runsFixed_of_exec rfl, runsFixed_of_exec rfl, runsFixed_of_exec rfl, runsFixed_of_exec rfl,
    runsFixed_of_exec rfl⟩

/-- Settles O6: each arm has the body of latency 8. -/
theorem crossLaneRuns : Obligations.CrossLaneRuns := by
  intro c f
  exact ⟨runsFixed_of_exec rfl, runsFixed_of_exec rfl, runsFixed_of_exec rfl, runsFixed_of_exec rfl, runsFixed_of_exec rfl,
    runsFixed_of_exec rfl⟩

end Sys2Proof.Machine
end

section
/-!
PROOFS. Words: the numbers that registers hold under their types, wrapped and limited results, shifts, rotations and bit counts, and
the fields of BFX and BFI.
-/
namespace Sys2Proof

variable {t : Ty} {w n : Nat} {a b c : W64}

/-! ### Numbers of patterns (R130) -/

theorem readInt_unsigned (w bits : Nat) : readInt false w bits = (BitVec.ofNat w bits).toNat := by
  simp only [readInt, Bool.false_and, Bool.false_eq_true, if_false, BitVec.toNat_ofNat]

theorem readInt_signed (w bits : Nat) : readInt true w bits = (BitVec.ofNat w bits).toInt := by
  have hlt : bits % 2 ^ w < 2 ^ w := Nat.mod_lt _ (Nat.two_pow_pos w)
  simp only [readInt, Bool.true_and, decide_eq_true_eq, BitVec.toInt_eq_toNat_cond, BitVec.toNat_ofNat]
  rcases w with _ | w
  · rw [Nat.pow_zero, Nat.mod_one]; rfl
  · rw [Nat.add_sub_cancel, Nat.pow_succ]
    rw [Nat.pow_succ] at hlt
    split <;> split <;> omega

theorem Ty.bits_of_wide (h : t.wide = true) : t.bits = 64 := if_pos h
theorem Ty.bits_of_narrow (h : t.wide = false) : t.bits = 32 := if_neg (h ▸ Bool.false_ne_true)

theorem loWord_eq_ofNat (a : W64) : BitVec.ofNat 32 a.toNat = loWord a := by
  apply BitVec.eq_of_toNat_eq
  simp [loWord]

theorem Ty.int_narrow_signed (hw : t.wide = false) (hs : t.signed = true) : t.int a = (loWord a).toInt := by
  rw [Ty.int, hs, Ty.bits_of_narrow hw, readInt_signed, loWord_eq_ofNat]

theorem Ty.int_narrow_unsigned (hw : t.wide = false) (hs : t.signed = false) : t.int a = (loWord a).toNat := by
  rw [Ty.int, hs, Ty.bits_of_narrow hw, readInt_unsigned, loWord_eq_ofNat]

theorem Ty.int_wide_signed (hw : t.wide = true) (hs : t.signed = true) : t.int a = a.toInt := by
  rw [Ty.int, hs, Ty.bits_of_wide hw, readInt_signed, BitVec.ofNat_toNat, BitVec.setWidth_eq]

theorem Ty.int_wide_unsigned (hw : t.wide = true) (hs : t.signed = false) : t.int a = a.toNat := by
  rw [Ty.int, hs, Ty.bits_of_wide hw, readInt_unsigned, BitVec.ofNat_toNat, BitVec.setWidth_eq]

/-! ### Wrapped results (R22) -/

theorem wrapInt_lt (w : Nat) (m : Int) : wrapInt w m < 2 ^ w := by
  have hpos : (0 : Int) < (2 ^ w : Nat) := Int.natCast_pos.2 (Nat.two_pow_pos w)
  have hlt := Int.emod_lt_of_pos m hpos
  have hnn := Int.emod_nonneg m (Int.ne_of_gt hpos)
  rw [wrapInt]
  omega

theorem Ty.toNat_wrap (t : Ty) (m : Int) : (t.wrap m).toNat = wrapInt t.bits m := by
  have hbits : t.bits ≤ 64 := by rw [Ty.bits]; split <;> decide
  rw [Ty.wrap, BitVec.toNat_ofNat, Nat.mod_eq_of_lt]
  exact Nat.lt_of_lt_of_le (wrapInt_lt _ _) (Nat.pow_le_pow_right (by decide) hbits)

theorem Ty.wrap_narrow (hw : t.wide = false) (m : Int) : t.wrap m = (BitVec.ofInt 32 m).zeroExtend 64 := by
  apply BitVec.eq_of_toNat_eq
  rw [Ty.toNat_wrap, Ty.bits_of_narrow hw, BitVec.zeroExtend, BitVec.toNat_setWidth, BitVec.toNat_ofInt]
  exact (Nat.mod_eq_of_lt (Nat.lt_trans (wrapInt_lt 32 m) (by decide))).symm

theorem Ty.wrap_wide (hw : t.wide = true) (m : Int) : t.wrap m = BitVec.ofInt 64 m := by
  apply BitVec.eq_of_toNat_eq
  rw [Ty.toNat_wrap, Ty.bits_of_wide hw, BitVec.toNat_ofInt]; rfl

theorem Ty.ofInt_int_narrow (hw : t.wide = false) (a : W64) : BitVec.ofInt 32 (t.int a) = loWord a := by
  cases hs : t.signed with
  | false => rw [Ty.int_narrow_unsigned hw hs, BitVec.ofInt_natCast, BitVec.ofNat_toNat, BitVec.setWidth_eq]
  | true => rw [Ty.int_narrow_signed hw hs, BitVec.ofInt_toInt]

theorem Ty.ofInt_int_wide (hw : t.wide = true) (a : W64) : BitVec.ofInt 64 (t.int a) = a := by
  cases hs : t.signed with
  | false => rw [Ty.int_wide_unsigned hw hs, BitVec.ofInt_natCast, BitVec.ofNat_toNat, BitVec.setWidth_eq]
  | true => rw [Ty.int_wide_signed hw hs, BitVec.ofInt_toInt]

/-! ### Sums and products as words (R143) -/

theorem ofInt_sub (w : Nat) (x y : Int) : BitVec.ofInt w (x - y) = BitVec.ofInt w x - BitVec.ofInt w y := by
  rw [Int.sub_eq_add_neg, BitVec.ofInt_add, BitVec.ofInt_neg, BitVec.sub_eq_add_neg]

section
variable (hw : t.wide = false)
include hw

theorem intAdd_narrow : intAdd t false a b = (loWord a + loWord b).zeroExtend 64 := by
  rw [intAdd, Ty.lim, if_neg Bool.false_ne_true, Ty.wrap_narrow hw, BitVec.ofInt_add, Ty.ofInt_int_narrow hw,
    Ty.ofInt_int_narrow hw]

theorem intSub_narrow : intSub t false a b = (loWord a - loWord b).zeroExtend 64 := by
  rw [intSub, Ty.lim, if_neg Bool.false_ne_true, Ty.wrap_narrow hw, ofInt_sub, Ty.ofInt_int_narrow hw, Ty.ofInt_int_narrow hw]

theorem intMul_narrow : intMul t a b = (loWord a * loWord b).zeroExtend 64 := by
  rw [intMul, Ty.wrap_narrow hw, BitVec.ofInt_mul, Ty.ofInt_int_narrow hw, Ty.ofInt_int_narrow hw]

theorem intMad_narrow : intMad t a b c = (loWord a * loWord b + loWord c).zeroExtend 64 := by
  rw [intMad, Ty.wrap_narrow hw, BitVec.ofInt_add, BitVec.ofInt_mul, Ty.ofInt_int_narrow hw, Ty.ofInt_int_narrow hw,
    Ty.ofInt_int_narrow hw]

end

section
variable (hw : t.wide = true)
include hw

theorem intAdd_wide : intAdd t false a b = a + b := by
  rw [intAdd, Ty.lim, if_neg Bool.false_ne_true, Ty.wrap_wide hw, BitVec.ofInt_add, Ty.ofInt_int_wide hw, Ty.ofInt_int_wide hw]

theorem intSub_wide : intSub t false a b = a - b := by
  rw [intSub, Ty.lim, if_neg Bool.false_ne_true, Ty.wrap_wide hw, ofInt_sub, Ty.ofInt_int_wide hw, Ty.ofInt_int_wide hw]

theorem intMul_wide : intMul t a b = a * b := by
  rw [intMul, Ty.wrap_wide hw, BitVec.ofInt_mul, Ty.ofInt_int_wide hw, Ty.ofInt_int_wide hw]

theorem intMad_wide : intMad t a b c = a * b + c := by
  rw [intMad, Ty.wrap_wide hw, BitVec.ofInt_add, BitVec.ofInt_mul, Ty.ofInt_int_wide hw, Ty.ofInt_int_wide hw,
    Ty.ofInt_int_wide hw]

end

/-! ### The upper half of a product -/

theorem emod_mul_self_ediv (m A : Int) (hA : 0 < A) : m % (A * A) / A = m / A % A := by
  have hm := Int.emod_add_mul_ediv m (A * A)
  have hq : m / A = m % (A * A) / A + A * (m / (A * A)) := by
    conv => lhs; rw [← hm, Int.mul_assoc, Int.add_mul_ediv_left _ _ (Int.ne_of_gt hA)]
  have hnn : 0 ≤ m % (A * A) := Int.emod_nonneg _ (Int.ne_of_gt (Int.mul_pos hA hA))
  have hlt : m % (A * A) < A * A := Int.emod_lt_of_pos _ (Int.mul_pos hA hA)
  rw [hq, Int.add_mul_emod_self_left, Int.emod_eq_of_lt (Int.ediv_nonneg hnn (Int.le_of_lt hA)) (Int.ediv_lt_of_lt_mul hA hlt)]

theorem extractLsb'_ofInt_upper (w : Nat) (m : Int) :
    (BitVec.ofInt (w + w) m).extractLsb' w w = BitVec.ofInt w (m / (2 ^ w : Nat)) := by
  have hpos : (0 : Int) < (2 ^ w : Nat) := Int.natCast_pos.2 (Nat.two_pow_pos w)
  obtain ⟨k, hk⟩ := Int.eq_ofNat_of_zero_le (Int.emod_nonneg m (Int.ne_of_gt (Int.mul_pos hpos hpos)))
  have hlt : k < 2 ^ w * 2 ^ w := by
    have := Int.emod_lt_of_pos m (Int.mul_pos hpos hpos)
    rwa [hk, ← Int.natCast_mul, Int.ofNat_lt] at this
  apply BitVec.eq_of_toNat_eq
  rw [BitVec.extractLsb'_toNat, BitVec.toNat_ofInt, BitVec.toNat_ofInt, Nat.shiftRight_eq_div_pow, Nat.pow_add, Int.natCast_mul,
    ← emod_mul_self_ediv m _ hpos, hk, ← Int.natCast_ediv, Int.toNat_natCast, Int.toNat_natCast,
    Nat.mod_eq_of_lt (Nat.div_lt_of_lt_mul hlt)]

theorem mulHi_signed (x y : BitVec w) : BitVec.ofInt w (x.toInt * y.toInt / (2 ^ w : Nat)) =
    (x.signExtend (w + w) * y.signExtend (w + w)).extractLsb' w w := by
  rw [← extractLsb'_ofInt_upper, BitVec.ofInt_mul]; rfl

theorem mulHi_unsigned (x y : BitVec w) : BitVec.ofInt w ((x.toNat : Int) * y.toNat / (2 ^ w : Nat)) =
    (x.zeroExtend (w + w) * y.zeroExtend (w + w)).extractLsb' w w := by
  rw [← extractLsb'_ofInt_upper, BitVec.ofInt_mul, BitVec.ofInt_natCast, BitVec.ofInt_natCast, BitVec.ofNat_toNat,
    BitVec.ofNat_toNat]

/-! ### Shifts -/

theorem ofInt_mul_two_pow (x : Int) (n : Nat) : BitVec.ofInt w (x * (2 ^ n : Nat)) = BitVec.ofInt w x <<< n := by
  rw [BitVec.ofInt_mul, BitVec.ofInt_natCast, BitVec.shiftLeft_eq_mul_twoPow]
  congr 1
  exact BitVec.eq_of_toNat_eq (by rw [BitVec.toNat_ofNat, BitVec.toNat_twoPow])

theorem shiftLeft_narrow (hw : t.wide = false) : shiftLeft t a n = (loWord a <<< n).zeroExtend 64 := by
  rw [shiftLeft, Ty.bits_of_narrow hw]
  split
  case isTrue => rw [Ty.wrap_narrow hw, ofInt_mul_two_pow, Ty.ofInt_int_narrow hw]
  case isFalse h => rw [BitVec.shiftLeft_eq_zero (Nat.not_lt.1 h)]; rfl

theorem shiftLeft_wide (hw : t.wide = true) : shiftLeft t a n = a <<< n := by
  rw [shiftLeft, Ty.bits_of_wide hw]
  split
  case isTrue => rw [Ty.wrap_wide hw, ofInt_mul_two_pow, Ty.ofInt_int_wide hw]
  case isFalse h => rw [BitVec.shiftLeft_eq_zero (Nat.not_lt.1 h)]; rfl

/-- Beyond the width, a shift to the right leaves the sign alone. -/
theorem ediv_two_pow_min {x : Int} (hlo : -(2 ^ w : Nat) ≤ x) (hhi : x < (2 ^ w : Nat)) (n : Nat) :
    x / (2 ^ min n w : Nat) = x / (2 ^ n : Nat) := by
  rcases Nat.le_total n w with h | h
  · rw [Nat.min_eq_left h]
  · have hle : 2 ^ w ≤ 2 ^ n := Nat.pow_le_pow_right (by decide) h
    rw [Nat.min_eq_right h]
    rcases Int.lt_or_le x 0 with hx | hx
    · rw [Int.ediv_eq_neg_one_of_neg_of_le hx (by omega), Int.ediv_eq_neg_one_of_neg_of_le hx (by omega)]
    · rw [Int.ediv_eq_zero_of_lt hx hhi, Int.ediv_eq_zero_of_lt hx (by omega)]

theorem sshiftRight_eq_ofInt (x : BitVec w) (n : Nat) : BitVec.ofInt w (x.toInt / (2 ^ min n w : Nat)) = x.sshiftRight n := by
  have hlo := BitVec.le_two_mul_toInt (x := x)
  have hhi := BitVec.two_mul_toInt_lt (x := x)
  have hcast : ((2 ^ w : Nat) : Int) = 2 ^ w := Int.natCast_pow 2 w
  rw [ediv_two_pow_min (by omega) (by omega), ← Int.shiftRight_eq_div_pow]; rfl

theorem ushiftRight_eq_ofInt (x : BitVec w) (n : Nat) : BitVec.ofInt w ((x.toNat : Int) / (2 ^ min n w : Nat)) = x >>> n := by
  rw [ediv_two_pow_min (by omega) (Int.ofNat_lt.2 x.isLt), ← Int.natCast_ediv, BitVec.ofInt_natCast,
    ← Nat.shiftRight_eq_div_pow, ← BitVec.toNat_ushiftRight, BitVec.ofNat_toNat, BitVec.setWidth_eq]

/-! ### Rotations -/

/-- A rotation to the left by `k`: the low bits move up, and the `k` high bits take their place. -/
theorem rotate_parts {N k : Nat} (hN : N < 2 ^ w) (hk : k ≤ w) :
    (N * 2 ^ k + N / 2 ^ (w - k)) % 2 ^ w = N <<< k % 2 ^ w ||| N >>> (w - k) := by
  have hw : 2 ^ w = 2 ^ k * 2 ^ (w - k) := by rw [← Nat.pow_add, Nat.add_sub_of_le hk]
  have hhigh : N / 2 ^ (w - k) < 2 ^ k := Nat.div_lt_of_lt_mul (by rwa [Nat.mul_comm, ← hw])
  have hlow : N <<< k % 2 ^ w = (N % 2 ^ (w - k)) <<< k := by
    rw [Nat.shiftLeft_eq, Nat.shiftLeft_eq, hw, Nat.mul_comm N, Nat.mul_mod_mul_left, Nat.mul_comm]
  have hsum : N * 2 ^ k + N / 2 ^ (w - k) = N % 2 ^ (w - k) * 2 ^ k + N / 2 ^ (w - k) + 2 ^ w * (N / 2 ^ (w - k)) := by
    calc N * 2 ^ k + N / 2 ^ (w - k)
        = (2 ^ (w - k) * (N / 2 ^ (w - k)) + N % 2 ^ (w - k)) * 2 ^ k + N / 2 ^ (w - k) := by rw [Nat.div_add_mod]
      _ = _ := by rw [hw, Nat.add_mul]; ac_rfl
  have hlt : N % 2 ^ (w - k) * 2 ^ k + N / 2 ^ (w - k) < 2 ^ w := by
    have hmod : N % 2 ^ (w - k) + 1 ≤ 2 ^ (w - k) := Nat.mod_lt _ (Nat.two_pow_pos _)
    have := Nat.mul_le_mul_right (2 ^ k) hmod
    rw [Nat.add_mul, Nat.one_mul, Nat.mul_comm (2 ^ (w - k)), ← hw] at this
    omega
  rw [hlow, Nat.shiftRight_eq_div_pow, ← Nat.shiftLeft_add_eq_or_of_lt hhigh, Nat.shiftLeft_eq, hsum, Nat.add_mul_mod_self_left,
    Nat.mod_eq_of_lt hlt]

/-- What a rotation by `k` leaves of a word. -/
def rotatedWord (x : BitVec w) (k : Nat) : BitVec w := BitVec.ofNat w (x.toNat * 2 ^ k + x.toNat / 2 ^ (w - k))

theorem rotatedWord_left (x : BitVec w) (hw : 0 < w) (n : Nat) : rotatedWord x (n % w) = x.rotateLeft n := by
  apply BitVec.eq_of_toNat_eq
  rw [rotatedWord, BitVec.toNat_ofNat, rotate_parts x.isLt (Nat.le_of_lt (Nat.mod_lt n hw)), BitVec.toNat_rotateLeft]

theorem rotatedWord_right (x : BitVec w) (hw : 0 < w) (n : Nat) : rotatedWord x ((w - n % w) % w) = x.rotateRight n := by
  have hn := Nat.mod_lt n hw
  apply BitVec.eq_of_toNat_eq
  rw [rotatedWord, BitVec.toNat_ofNat, BitVec.toNat_rotateRight]
  rcases Nat.eq_zero_or_pos (n % w) with h0 | hpos
  · rw [h0, Nat.sub_zero, Nat.mod_self, Nat.sub_zero, Nat.pow_zero, Nat.mul_one, Nat.div_eq_of_lt x.isLt, Nat.add_zero,
      Nat.mod_eq_of_lt x.isLt, Nat.shiftLeft_eq, Nat.mul_mod_left, Nat.or_zero, Nat.shiftRight_zero]
  · rw [Nat.mod_eq_of_lt (a := w - n % w) (Nat.sub_lt hw hpos), rotate_parts x.isLt (by omega), Nat.or_comm,
      Nat.sub_sub_self (Nat.le_of_lt hn)]

theorem rotate_narrow (hw : t.wide = false) (right : Bool) :
    rotate t right a n = (rotatedWord (loWord a) (if right then (32 - n % 32) % 32 else n % 32)).zeroExtend 64 := by
  apply BitVec.eq_of_toNat_eq
  have hlo : (loWord a).toNat = a.toNat % 2 ^ 32 := by rw [loWord, BitVec.extractLsb'_toNat]; rfl
  simp only [rotate, Ty.bits_of_narrow hw, rotatedWord, hlo, BitVec.zeroExtend, BitVec.toNat_setWidth, BitVec.toNat_ofNat]

theorem rotate_wide (hw : t.wide = true) (right : Bool) :
    rotate t right a n = rotatedWord a (if right then (64 - n % 64) % 64 else n % 64) := by
  apply BitVec.eq_of_toNat_eq
  simp only [rotate, Ty.bits_of_wide hw, rotatedWord, BitVec.toNat_ofNat, Nat.mod_mod, Nat.mod_eq_of_lt a.isLt]

/-! ### Minima and maxima -/

theorem min_image {α : Type} (f : α → Int) (x y : α) : min (f x) (f y) = f (if f x < f y then x else y) := by
  split <;> omega

theorem max_image {α : Type} (f : α → Int) (x y : α) : max (f x) (f y) = f (if f x < f y then y else x) := by
  split <;> omega

theorem ofInt_min_toInt (x y : BitVec w) : BitVec.ofInt w (min x.toInt y.toInt) = if x.slt y then x else y := by
  simp only [min_image BitVec.toInt, BitVec.ofInt_toInt, BitVec.slt, decide_eq_true_eq]

theorem ofInt_max_toInt (x y : BitVec w) : BitVec.ofInt w (max x.toInt y.toInt) = if x.slt y then y else x := by
  simp only [max_image BitVec.toInt, BitVec.ofInt_toInt, BitVec.slt, decide_eq_true_eq]

theorem ofInt_toNat (x : BitVec w) : BitVec.ofInt w x.toNat = x := by
  rw [BitVec.ofInt_natCast, BitVec.ofNat_toNat, BitVec.setWidth_eq]

theorem ofInt_min_toNat (x y : BitVec w) : BitVec.ofInt w (min (x.toNat : Int) y.toNat) = if x.ult y then x else y := by
  simp only [min_image fun z : BitVec w => (z.toNat : Int), ofInt_toNat, BitVec.ult, decide_eq_true_eq, Int.ofNat_lt]

theorem ofInt_max_toNat (x y : BitVec w) : BitVec.ofInt w (max (x.toNat : Int) y.toNat) = if x.ult y then y else x := by
  simp only [max_image fun z : BitVec w => (z.toNat : Int), ofInt_toNat, BitVec.ult, decide_eq_true_eq, Int.ofNat_lt]

/-! ### Counts of bits -/

theorem toNat_popCount (t : Ty) (a : W64) :
    (popCount t a).toNat = ((List.range t.bits).filter fun i => a.getLsbD i).length := by
  have hbits : t.bits ≤ 64 := by rw [Ty.bits]; split <;> decide
  have hle := List.countP_le_length (p := fun i => a.getLsbD i) (l := List.range t.bits)
  rw [List.length_range] at hle
  rw [popCount, BitVec.toNat_ofNat, Nat.mod_eq_of_lt (by omega), List.countP_eq_length_filter]

/-- The place of the first one, from the top. -/
theorem toNat_leadingZeros (t : Ty) (a : W64) : (leadingZeros t a).toNat =
    if a.toNat % 2 ^ t.bits = 0 then t.bits else t.bits - 1 - Nat.log2 (a.toNat % 2 ^ t.bits) := by
  have hbits : t.bits ≤ 64 := by rw [Ty.bits]; split <;> decide
  simp only [leadingZeros, BitVec.toNat_ofNat]
  rw [Nat.mod_eq_of_lt]
  split <;> omega

theorem testBit_mod_bits {i : Nat} (h : i < n) (a : W64) : (a.toNat % 2 ^ n).testBit i = a.getLsbD i := by
  rw [Nat.testBit_mod_two_pow, decide_eq_true h, Bool.true_and]; rfl

theorem leadingZeros_spec (t : Ty) (a : W64) :
    (leadingZeros t a).toNat ≤ t.bits ∧
    (∀ i, i < t.bits → t.bits ≤ i + (leadingZeros t a).toNat → a.getLsbD i = false) ∧
    ((leadingZeros t a).toNat < t.bits → a.getLsbD (t.bits - 1 - (leadingZeros t a).toNat) = true) := by
  rw [toNat_leadingZeros]
  split
  case isTrue h0 =>
    refine ⟨Nat.le_refl _, fun i hi _ => ?_, fun h => absurd h (Nat.lt_irrefl _)⟩
    rw [← testBit_mod_bits hi, h0, Nat.zero_testBit]
  case isFalse h0 =>
    have hlog : Nat.log2 (a.toNat % 2 ^ t.bits) < t.bits := (Nat.log2_lt h0).2 (Nat.mod_lt _ (Nat.two_pow_pos _))
    refine ⟨by omega, fun i hi h => ?_, fun _ => ?_⟩
    · rw [← testBit_mod_bits hi]
      exact Nat.testBit_lt_two_pow (Nat.lt_of_lt_of_le Nat.lt_log2_self (Nat.pow_le_pow_right (by decide) (by omega)))
    · rw [← testBit_mod_bits (n := t.bits) (by omega), Nat.sub_sub_self (by omega)]
      exact Nat.testBit_log2 h0

/-- Bits pushed in from the right stand in reverse. -/
theorem testBit_pushed (p : Nat → Bool) (w i : Nat) :
    ((List.range w).foldl (fun acc i => 2 * acc + (if p i then 1 else 0)) 0).testBit i = (decide (i < w) && p (w - 1 - i)) := by
  induction w generalizing i with
  | zero => simp
  | succ w ih =>
    rw [List.range_succ, List.foldl_append, List.foldl_cons, List.foldl_nil]
    cases i with
    | zero => cases hp : p w <;> simp [hp]
    | succ i =>
      have hdiv (acc : Nat) : (2 * acc + (if p w then 1 else 0)) / 2 = acc := by split <;> omega
      simp only [Nat.testBit_succ, hdiv, ih, Nat.add_lt_add_iff_right, Nat.add_sub_cancel, Nat.sub_sub, Nat.add_comm 1 i]

theorem getLsbD_reverseBits (t : Ty) (a : W64) {i : Nat} (hi : i < 64) :
    (reverseBits t a).getLsbD i = (decide (i < t.bits) && a.getLsbD (t.bits - 1 - i)) := by
  rw [reverseBits, BitVec.getLsbD_ofNat, decide_eq_true hi, Bool.true_and, testBit_pushed]

/-! ### Limited results -/

/-- A number of the range is read back from its pattern. -/
theorem readInt_wrapInt {signed : Bool} {m : Int} (hw : 0 < w) (hlo : intMin signed w ≤ m) (hhi : m ≤ intMax signed w) :
    readInt signed w (wrapInt w m) = m := by
  have hpat : BitVec.ofNat w (wrapInt w m) = BitVec.ofInt w m :=
    BitVec.eq_of_toNat_eq (by rw [BitVec.toNat_ofNat, Nat.mod_eq_of_lt (wrapInt_lt w m), BitVec.toNat_ofInt]; rfl)
  cases signed with
  | false =>
    simp only [intMin, intMax, Bool.false_eq_true, if_false] at hlo hhi
    rw [readInt_unsigned, hpat, BitVec.toNat_ofInt, Int.emod_eq_of_lt hlo (by omega), Int.toNat_of_nonneg hlo]
  | true =>
    simp only [intMin, intMax, if_true, Int.natCast_pow] at hlo hhi
    rw [readInt_signed, hpat]
    exact BitVec.toInt_ofInt_eq_self hw hlo (Int.lt_of_le_sub_one hhi)

theorem Ty.bits_pos (t : Ty) : 0 < t.bits := by rw [Ty.bits]; split <;> decide

/-- A type holds the numbers of its range. -/
theorem Ty.int_wrap {m : Int} (hlo : intMin t.signed t.bits ≤ m) (hhi : m ≤ intMax t.signed t.bits) : t.int (t.wrap m) = m := by
  rw [Ty.int, Ty.toNat_wrap, readInt_wrapInt t.bits_pos hlo hhi]

theorem intMin_le_intMax (signed : Bool) (w : Nat) : intMin signed w ≤ intMax signed w := by
  have h1 := Nat.two_pow_pos w
  have h2 := Nat.two_pow_pos (w - 1)
  cases signed <;> simp only [intMin, intMax, if_true, Bool.false_eq_true, if_false] <;> omega

theorem satInt_eq (signed : Bool) (w : Nat) (m : Int) : satInt signed w m = max (intMin signed w) (min (intMax signed w) m) := by
  have := intMin_le_intMax signed w
  simp only [satInt]
  split <;> (try split) <;> omega

theorem Ty.int_sat (t : Ty) (m : Int) : t.int (t.sat m) = max (intMin t.signed t.bits) (min (intMax t.signed t.bits) m) := by
  have := intMin_le_intMax t.signed t.bits
  rw [Ty.sat, satInt_eq, Ty.int_wrap] <;> omega

/-! ### The types in turn (R143) -/

/-- IMULH is the upper half of the product of twice the width. -/
theorem intMulHi_words (a b : W64) :
    intMulHi .i32 a b = ((((loWord a).signExtend 64) * ((loWord b).signExtend 64)).extractLsb' 32 32).zeroExtend 64 ∧
    intMulHi .u32 a b = ((((loWord a).zeroExtend 64) * ((loWord b).zeroExtend 64)).extractLsb' 32 32).zeroExtend 64 ∧
    intMulHi .i64 a b = ((a.signExtend 128) * (b.signExtend 128)).extractLsb' 64 64 ∧
    intMulHi .u64 a b = ((a.zeroExtend 128) * (b.zeroExtend 128)).extractLsb' 64 64 := by
  refine ⟨?_, ?_, ?_, ?_⟩
  · rw [intMulHi, Ty.wrap_narrow rfl, Ty.int_narrow_signed rfl rfl, Ty.int_narrow_signed rfl rfl]
    exact congrArg _ (mulHi_signed _ _)
  · rw [intMulHi, Ty.wrap_narrow rfl, Ty.int_narrow_unsigned rfl rfl, Ty.int_narrow_unsigned rfl rfl]
    exact congrArg _ (mulHi_unsigned _ _)
  · rw [intMulHi, Ty.wrap_wide rfl, Ty.int_wide_signed rfl rfl, Ty.int_wide_signed rfl rfl]
    exact mulHi_signed a b
  · rw [intMulHi, Ty.wrap_wide rfl, Ty.int_wide_unsigned rfl rfl, Ty.int_wide_unsigned rfl rfl]
    exact mulHi_unsigned a b

/-- A shift to the right brings in the sign where the type has one. -/
theorem shiftRight_words (a : W64) (n : Nat) :
    shiftRight .u32 a n = (loWord a >>> n).zeroExtend 64 ∧ shiftRight .i32 a n = ((loWord a).sshiftRight n).zeroExtend 64 ∧
    shiftRight .u64 a n = a >>> n ∧ shiftRight .i64 a n = a.sshiftRight n := by
  refine ⟨?_, ?_, ?_, ?_⟩
  · rw [shiftRight, Ty.wrap_narrow rfl, Ty.int_narrow_unsigned rfl rfl]
    exact congrArg _ (ushiftRight_eq_ofInt _ n)
  · rw [shiftRight, Ty.wrap_narrow rfl, Ty.int_narrow_signed rfl rfl]
    exact congrArg _ (sshiftRight_eq_ofInt _ n)
  · rw [shiftRight, Ty.wrap_wide rfl, Ty.int_wide_unsigned rfl rfl]
    exact ushiftRight_eq_ofInt a n
  · rw [shiftRight, Ty.wrap_wide rfl, Ty.int_wide_signed rfl rfl]
    exact sshiftRight_eq_ofInt a n

theorem rotate_words (a : W64) (n : Nat) :
    rotate .b32 false a n = ((loWord a).rotateLeft n).zeroExtend 64 ∧
    rotate .b32 true a n = ((loWord a).rotateRight n).zeroExtend 64 ∧
    rotate .b64 false a n = a.rotateLeft n ∧ rotate .b64 true a n = a.rotateRight n := by
  refine ⟨?_, ?_, ?_, ?_⟩
  · rw [rotate_narrow rfl, ← rotatedWord_left _ (by decide)]; rfl
  · rw [rotate_narrow rfl, ← rotatedWord_right _ (by decide)]; rfl
  · rw [rotate_wide rfl, ← rotatedWord_left _ (by decide)]; rfl
  · rw [rotate_wide rfl, ← rotatedWord_right _ (by decide)]; rfl

/-- Minima and maxima are by the type's signedness. -/
theorem minmax_narrow (a b : W64) :
    intMin' .i32 a b = (if (loWord a).slt (loWord b) then loWord a else loWord b).zeroExtend 64 ∧
    intMax' .i32 a b = (if (loWord a).slt (loWord b) then loWord b else loWord a).zeroExtend 64 ∧
    intMin' .u32 a b = (if (loWord a).ult (loWord b) then loWord a else loWord b).zeroExtend 64 ∧
    intMax' .u32 a b = (if (loWord a).ult (loWord b) then loWord b else loWord a).zeroExtend 64 := by
  simp only [intMin', intMax', Ty.wrap_narrow (t := .i32) rfl, Ty.wrap_narrow (t := .u32) rfl,
    Ty.int_narrow_signed (t := .i32) rfl rfl, Ty.int_narrow_unsigned (t := .u32) rfl rfl, ofInt_min_toInt, ofInt_max_toInt,
    ofInt_min_toNat, ofInt_max_toNat, and_self]

theorem minmax_wide (a b : W64) :
    intMin' .i64 a b = (if a.slt b then a else b) ∧ intMax' .i64 a b = (if a.slt b then b else a) ∧
    intMin' .u64 a b = (if a.ult b then a else b) ∧ intMax' .u64 a b = (if a.ult b then b else a) := by
  simp only [intMin', intMax', Ty.wrap_wide (t := .i64) rfl, Ty.wrap_wide (t := .u64) rfl, Ty.int_wide_signed (t := .i64) rfl rfl,
    Ty.int_wide_unsigned (t := .u64) rfl rfl, ofInt_min_toInt, ofInt_max_toInt,
    ofInt_min_toNat, ofInt_max_toNat, and_self]

/-! ### The obligation -/

/-- Settles O2: the word of an exact sum or product is that of the words (`BitVec.ofInt_add`, `BitVec.ofInt_mul`); the other
operations by their lemmas on words. -/
theorem integerWords : Obligations.IntegerWords := by
  intro a b c n w
  have hnarrow : ∀ t ∈ [Ty.i32, Ty.u32, Ty.b32], t.wide = false := by decide
  have hwide : ∀ t ∈ [Ty.i64, Ty.u64, Ty.b64], t.wide = true := by decide
  obtain ⟨hmul32, hmulu32, hmul64, hmulu64⟩ := intMulHi_words a b
  obtain ⟨hshru32, hshr32, hshru64, hshr64⟩ := shiftRight_words a n
  obtain ⟨hrol32, hror32, hrol64, hror64⟩ := rotate_words a n
  obtain ⟨hmin32, hmax32, hminu32, hmaxu32⟩ := minmax_narrow a b
  obtain ⟨hmin64, hmax64, hminu64, hmaxu64⟩ := minmax_wide a b
  refine ⟨fun t ht => ?_, fun t ht => ?_, fun t ht => shiftLeft_narrow (hnarrow t ht), fun t ht => shiftLeft_wide (hwide t ht),
    hmul32, hmulu32, hmul64, hmulu64, hshru32, hshr32, hshru64, hshr64, hrol32, hror32, hrol64, hror64, hmin32, hmax32,
    hminu32, hmaxu32, hmin64, hmax64, hminu64, hmaxu64, fun t _ => ?_, fun t _ => ⟨t.int_sat _, t.int_sat _⟩⟩
  · have hw : t.wide = false := hnarrow t (List.mem_append_left [Ty.b32] ht)
    exact ⟨intAdd_narrow hw, intSub_narrow hw, intMul_narrow hw, intMad_narrow hw⟩
  · have hw : t.wide = true := hwide t (List.mem_append_left [Ty.b64] ht)
    exact ⟨intAdd_wide hw, intSub_wide hw, intMul_wide hw, intMad_wide hw⟩
  · obtain ⟨hle, hzero, hone⟩ := leadingZeros_spec t a
    exact ⟨toNat_popCount t a, hle, hzero, hone, fun i hi => getLsbD_reverseBits t a hi⟩

end Sys2Proof
end

section
/-!
PROOFS. Fields of BFX and BFI: the bits that each of them gives.
-/
namespace Sys2Proof

variable {t : Ty} {a ins : W64} {ctl pos n i : Nat}

/-- The field that a control word names (R144). -/
theorem fieldOf_none (h : t.bits ≤ ctl % 256 ∨ ctl / 256 % 256 = 0) : fieldOf t ctl = none := if_pos h

theorem fieldOf_some (hpos : ctl % 256 < t.bits) (hlen : ctl / 256 % 256 ≠ 0) :
    fieldOf t ctl = some (ctl % 256, min (ctl / 256 % 256) (t.bits - ctl % 256)) :=
  if_neg fun h => h.elim (Nat.not_le.2 hpos) hlen

theorem Ty.bits_le (t : Ty) : t.bits ≤ 64 := by rw [Ty.bits]; split <;> decide

/-- Below 2^W a value has its bits in the type's width. -/
theorem getLsbD_of_bits_le (ha : a.toNat < 2 ^ t.bits) (hi : t.bits ≤ i) : a.getLsbD i = false :=
  Nat.testBit_lt_two_pow (Nat.lt_of_lt_of_le ha (Nat.pow_le_pow_right (by decide) hi))

theorem Ty.cut_of_lt (ha : a.toNat < 2 ^ t.bits) : t.cut a = a := by
  cases hw : t.wide with
  | true => rw [Ty.cut, if_pos hw]
  | false =>
    rw [Ty.bits_of_narrow hw] at ha
    rw [Ty.cut, if_neg (hw ▸ Bool.false_ne_true)]
    apply BitVec.eq_of_toNat_eq
    rw [← loWord_eq_ofNat, BitVec.zeroExtend, BitVec.toNat_setWidth, BitVec.toNat_ofNat, Nat.mod_eq_of_lt ha,
      Nat.mod_eq_of_lt a.isLt]

/-- The bits of a wrapped result are those of the word of the type's width. -/
theorem Ty.getLsbD_wrap (t : Ty) (m : Int) (i : Nat) : (t.wrap m).getLsbD i = (BitVec.ofInt t.bits m).getLsbD i := by
  have htoNat : (t.wrap m).toNat = (BitVec.ofInt t.bits m).toNat := by rw [Ty.toNat_wrap, BitVec.toNat_ofInt]; rfl
  simp only [BitVec.getLsbD, htoNat]

/-- The bits of a field that is read as a number and wrapped: the field's own, and above them its sign where the type has one. -/
theorem getLsbD_wrap_field (hn : 0 < n) (hfit : pos + n ≤ t.bits) :
    (t.wrap (readInt t.signed n (a.toNat / 2 ^ pos))).getLsbD i =
      if i < n then a.getLsbD (pos + i) else t.signed && decide (i < t.bits) && a.getLsbD (pos + n - 1) := by
  have hfield : BitVec.ofNat n (a.toNat / 2 ^ pos) = a.extractLsb' pos n :=
    BitVec.eq_of_toNat_eq (by rw [BitVec.toNat_ofNat, BitVec.extractLsb'_toNat, Nat.shiftRight_eq_div_pow])
  have hbit {j : Nat} (hj : j < n) : (a.extractLsb' pos n).getLsbD j = a.getLsbD (pos + j) := by
    rw [BitVec.getLsbD_extractLsb', decide_eq_true hj, Bool.true_and]
  rw [Ty.getLsbD_wrap]
  cases hs : t.signed with
  | false =>
    rw [readInt_unsigned, hfield, BitVec.ofInt_natCast, BitVec.ofNat_toNat, BitVec.getLsbD_setWidth, Bool.false_and, Bool.false_and]
    split
    case isTrue hi => rw [hbit hi, decide_eq_true (by omega), Bool.true_and]
    case isFalse hi => rw [BitVec.getLsbD_of_ge _ _ (Nat.not_lt.1 hi), Bool.and_false]
  | true =>
    have hext : BitVec.ofInt t.bits (a.extractLsb' pos n).toInt = (a.extractLsb' pos n).signExtend t.bits := rfl
    rw [readInt_signed, hfield, hext, BitVec.getLsbD_signExtend, Bool.true_and]
    split
    case isTrue hi => rw [hbit hi, decide_eq_true (by omega), Bool.true_and]
    case isFalse hi => rw [BitVec.msb_eq_getLsbD_last, hbit (by omega), Nat.add_sub_assoc hn]

/-- The bits of a word of which `n` bits at `pos` have been replaced. -/
theorem testBit_replaced (b v : Nat) (pos n i : Nat) :
    (b / 2 ^ (pos + n) * 2 ^ (pos + n) + v % 2 ^ n * 2 ^ pos + b % 2 ^ pos).testBit i =
      if pos ≤ i ∧ i < pos + n then v.testBit (i - pos) else b.testBit i := by
  have hshape : b / 2 ^ (pos + n) * 2 ^ (pos + n) + v % 2 ^ n * 2 ^ pos + b % 2 ^ pos =
      2 ^ pos * (2 ^ n * (b / 2 ^ (pos + n)) + v % 2 ^ n) + b % 2 ^ pos := by
    rw [Nat.pow_add, Nat.mul_add]; ac_rfl
  rw [hshape, Nat.testBit_two_pow_mul_add _ (Nat.mod_lt _ (Nat.two_pow_pos _)),
    Nat.testBit_two_pow_mul_add _ (Nat.mod_lt _ (Nat.two_pow_pos _)), Nat.testBit_mod_two_pow, Nat.testBit_mod_two_pow,
    Nat.testBit_div_two_pow]
  rcases Nat.lt_or_ge i pos with hlow | hge
  · rw [if_pos hlow, if_neg (by omega), decide_eq_true hlow, Bool.true_and]
  · rw [if_neg (Nat.not_lt.2 hge)]
    rcases Nat.lt_or_ge (i - pos) n with hin | hout
    · rw [if_pos hin, if_pos (by omega), decide_eq_true hin, Bool.true_and]
    · rw [if_neg (Nat.not_lt.2 hout), if_neg (by omega)]
      congr 1
      omega

/-- Outside the type, or with no length, there is no field (R144). -/
theorem field_absent (ha : a.toNat < 2 ^ t.bits) (h : t.bits ≤ ctl % 256 ∨ ctl / 256 % 256 = 0) :
    extractField t a ctl = 0 ∧ insertField t a ins ctl = a := by
  simp only [extractField, insertField, fieldOf_none h, Ty.cut_of_lt ha, and_self]

theorem getLsbD_extractField (hpos : ctl % 256 < t.bits) (hlen : ctl / 256 % 256 ≠ 0) :
    (extractField t a ctl).getLsbD i =
      if i < min (ctl / 256 % 256) (t.bits - ctl % 256) then a.getLsbD (ctl % 256 + i)
      else t.signed && decide (i < t.bits) && a.getLsbD (ctl % 256 + min (ctl / 256 % 256) (t.bits - ctl % 256) - 1) := by
  simp only [extractField, fieldOf_some hpos hlen]
  exact getLsbD_wrap_field (by omega) (by omega)

theorem getLsbD_insertField (ha : a.toNat < 2 ^ t.bits) (hpos : ctl % 256 < t.bits) (hlen : ctl / 256 % 256 ≠ 0)
    (hi : i < 64) :
    (insertField t a ins ctl).getLsbD i =
      if ctl % 256 ≤ i ∧ i < ctl % 256 + min (ctl / 256 % 256) (t.bits - ctl % 256) then ins.getLsbD (i - ctl % 256)
      else a.getLsbD i := by
  simp only [insertField, fieldOf_some hpos hlen]
  rw [BitVec.getLsbD_ofNat, decide_eq_true hi, Bool.true_and, Nat.testBit_mod_two_pow, testBit_replaced]
  rcases Nat.lt_or_ge i t.bits with hin | hout
  · rw [decide_eq_true hin, Bool.true_and]; rfl
  · rw [decide_eq_false (Nat.not_lt.2 hout), Bool.false_and, if_neg (by omega), getLsbD_of_bits_le ha hout]

/-- Settles O3: both instructions have the body of latency 4; the bits of their results by `getLsbD_extractField` and
`getLsbD_insertField`. -/
theorem bitFields : Obligations.BitFields := by
  intro c f a ins ctl i
  refine ⟨Machine.runsFixed_of_exec rfl, Machine.runsFixed_of_exec rfl, ?_⟩
  intro w pos len n _ ha hi
  exact ⟨field_absent ha, fun hpos hlen => ⟨getLsbD_extractField hpos hlen, getLsbD_insertField ha hpos hlen hi⟩⟩

end Sys2Proof
end

section
/-!
PROOFS. The order of exact values, by the ends of the line and the numbers between them; the comparisons of FCMP; and the classes of
FCLASS.
-/
namespace Sys2Proof

variable {x y z : FP}

/-! ### NaNs -/

theorem FP.isNan_iff : x.isNan = true ↔ ∃ s, x = .nan s := by
  cases x with
  | nan s => exact ⟨fun _ => ⟨s, rfl⟩, fun _ => rfl⟩
  | inf | fin => exact ⟨nofun, nofun⟩

theorem FP.isSnan_iff : x.isSnan = true ↔ x = .nan true := by
  cases x with
  | nan s => cases s <;> decide
  | inf | fin => exact ⟨nofun, nofun⟩

/-- A pair with a NaN is unordered (R151). -/
def FP.Unordered (x y : FP) : Prop := x.isNan = true ∨ y.isNan = true

theorem FP.unordered_comm : x.Unordered y ↔ y.Unordered x := or_comm

theorem FP.lt_of_unordered (h : x.Unordered y) : x.lt y = false := by
  simp only [FP.Unordered, FP.isNan_iff] at h
  rcases h with ⟨s, rfl⟩ | ⟨s, rfl⟩
  · rfl
  · cases x <;> rfl

theorem FP.eq_of_unordered (h : x.Unordered y) : x.eq y = false := by
  simp only [FP.Unordered, FP.isNan_iff] at h
  rcases h with ⟨s, rfl⟩ | ⟨s, rfl⟩
  · rfl
  · cases x <;> rfl

/-! ### The order of numbers (R151) -/

/-- The infinities stand at the ends of the line, the numbers between them. -/
def FP.ends (v : FP) : Int := if v = .inf true then -1 else if v = .inf false then 1 else 0

/-- Less by the ends, or by the numbers between them. -/
def FP.Less (x y : FP) : Prop := x.ends < y.ends ∨ (x.ends = 0 ∧ y.ends = 0 ∧ x.toRat < y.toRat)

def FP.Same (x y : FP) : Prop := x.ends = y.ends ∧ x.toRat = y.toRat

theorem FP.ends_inf (s : Bool) : (FP.inf s).ends = if s then -1 else 1 := by cases s <;> rfl

theorem FP.ends_fin (s : Bool) (m : Rat) : (FP.fin s m).ends = 0 := by rw [FP.ends, if_neg nofun, if_neg nofun]

theorem FP.lt_iff : x.lt y = true ↔ ¬x.Unordered y ∧ x.Less y := by
  by_cases hun : x.Unordered y
  · simp only [FP.lt_of_unordered hun, hun, Bool.false_eq_true, not_true, false_and]
  simp only [hun, not_false_iff, true_and, FP.Less]
  cases x with
  | nan => exact absurd (.inl rfl) hun
  | inf s =>
    cases y with
    | nan => exact absurd (.inr rfl) hun
    | inf r => cases s <;> cases r <;> decide
    | fin r n => cases s <;> simp [FP.lt, FP.ends_inf, FP.ends_fin]
  | fin s m =>
    cases y with
    | nan => exact absurd (.inr rfl) hun
    | inf r => cases r <;> simp [FP.lt, FP.ends_inf, FP.ends_fin]
    | fin r n => simp [FP.lt, FP.ends_fin]

theorem FP.eq_iff : x.eq y = true ↔ ¬x.Unordered y ∧ x.Same y := by
  by_cases hun : x.Unordered y
  · simp only [FP.eq_of_unordered hun, hun, Bool.false_eq_true, not_true, false_and]
  simp only [hun, not_false_iff, true_and, FP.Same]
  cases x with
  | nan => exact absurd (.inl rfl) hun
  | inf s =>
    cases y with
    | nan => exact absurd (.inr rfl) hun
    | inf r => cases s <;> cases r <;> decide
    | fin r n => cases s <;> simp [FP.eq, FP.ends_inf, FP.ends_fin]
  | fin s m =>
    cases y with
    | nan => exact absurd (.inr rfl) hun
    | inf r => cases r <;> simp [FP.eq, FP.ends_inf, FP.ends_fin]
    | fin r n => simp [FP.eq, FP.ends_fin]

/-! ### The comparisons of FCMP (R151) -/

/-- The comparison that each code names. -/
theorem fpCmp_values (x y : FP) :
    ((fpCmp 0 x y).1 = true ↔ ¬x.Unordered y ∧ x.Same y) ∧ ((fpCmp 1 x y).1 = true ↔ x.Unordered y ∨ ¬x.Same y) ∧
    ((fpCmp 2 x y).1 = true ↔ ¬x.Unordered y ∧ x.Less y) ∧ ((fpCmp 3 x y).1 = true ↔ ¬x.Unordered y ∧ (x.Less y ∨ x.Same y)) ∧
    ((fpCmp 4 x y).1 = true ↔ ¬x.Unordered y ∧ y.Less x) ∧ ((fpCmp 5 x y).1 = true ↔ ¬x.Unordered y ∧ (y.Less x ∨ x.Same y)) ∧
    ((fpCmp 6 x y).1 = true ↔ x.Unordered y) ∧ ((fpCmp 7 x y).1 = true ↔ ¬x.Unordered y) := by
  have hnan : (x.isNan || y.isNan) = true ↔ x.Unordered y := by rw [Bool.or_eq_true]; rfl
  have hgt : y.lt x = true ↔ ¬x.Unordered y ∧ y.Less x := by rw [FP.lt_iff, FP.unordered_comm]
  refine ⟨FP.eq_iff, ?_, FP.lt_iff, ?_, hgt, ?_, hnan, ?_⟩
  · show (!x.eq y) = true ↔ _
    rw [Bool.not_eq_true', ← Bool.not_eq_true, FP.eq_iff, Classical.not_and_iff_not_or_not, Classical.not_not]
  · show (x.lt y || x.eq y) = true ↔ _
    rw [Bool.or_eq_true, FP.lt_iff, FP.eq_iff, and_or_left]
  · show (y.lt x || x.eq y) = true ↔ _
    rw [Bool.or_eq_true, hgt, FP.eq_iff, and_or_left]
  · show (!(x.isNan || y.isNan)) = true ↔ _
    rw [Bool.not_eq_true', ← Bool.not_eq_true, hnan]

theorem Flags.when_NV_iff (b : Bool) : (Flags.when b .NV = .NV ↔ b = true) ∧ (Flags.when b .NV = Flags.none ↔ ¬ b = true) := by
  cases b <;> decide

/-- The ordering comparisons raise NV for any NaN. -/
theorem fpCmp_ordering_NV {code : Nat} (h : 2 ≤ code ∧ code ≤ 5) (x y : FP) :
    ((fpCmp code x y).2 = .NV ↔ x.Unordered y) ∧ ((fpCmp code x y).2 = Flags.none ↔ ¬x.Unordered y) := by
  have hnan : (x.isNan || y.isNan) = true ↔ x.Unordered y := by rw [Bool.or_eq_true]; rfl
  rw [← hnan]
  simp only [fpCmp, if_pos h]
  exact Flags.when_NV_iff _

/-- The others raise it for a signalling NaN. -/
theorem fpCmp_other_NV {code : Nat} (h : ¬(2 ≤ code ∧ code ≤ 5)) (x y : FP) :
    ((fpCmp code x y).2 = .NV ↔ x = .nan true ∨ y = .nan true) ∧
      ((fpCmp code x y).2 = Flags.none ↔ ¬(x = .nan true ∨ y = .nan true)) := by
  rw [← FP.isSnan_iff, ← FP.isSnan_iff, ← Bool.or_eq_true]
  simp only [fpCmp, if_neg h]
  exact Flags.when_NV_iff _

/-- Settles O10: the body of FCMP's latency; each code's comparison by `fpCmp_values`, and NV by the two kinds of comparison. -/
theorem compareValues : Obligations.CompareValues := by
  intro c f m a b
  refine ⟨Machine.runsFixed_of_exec rfl, ?_⟩
  intro v w ends less same un r
  have hr : r = fpCmp f.sub.toNat v w := rfl
  obtain ⟨h0, h1, h2, h3, h4, h5, h6, h7⟩ := fpCmp_values v w
  refine ⟨fun h => ?_, fun h => ?_, fun h => ?_, fun h => ?_, fun h => ?_, fun h => ?_, fun h => ?_, fun h => ?_, fun h => ?_,
    fun h => ?_⟩
  all_goals rw [hr]
  · rw [h]; exact h0
  · rw [h]; exact h1
  · rw [h]; exact h2
  · rw [h]; exact h3
  · rw [h]; exact h4
  · rw [h]; exact h5
  · rw [h]; exact h6
  · rw [h]; exact h7
  · exact fpCmp_ordering_NV ((by decide : ∀ s ∈ [2#4, 3#4, 4#4, 5#4], 2 ≤ s.toNat ∧ s.toNat ≤ 5) _ h) v w
  · exact fpCmp_other_NV ((by decide : ∀ s ∈ [0#4, 1#4, 6#4, 7#4], ¬(2 ≤ s.toNat ∧ s.toNat ≤ 5)) _ h) v w

/-! ### The classes of FCLASS (R152) -/

/-- The number of a value's class, which is the place of its bit. -/
def FF.classNo (t : FF) (v : FP) : Nat :=
  match v with
  | .nan s => if s then 8 else 9
  | .inf s => if s then 0 else 7
  | .fin s m => if m = 0 then (if s then 3 else 4) else if m < t.minN then (if s then 2 else 5) else if s then 1 else 6

theorem fpClass_eq (t : FF) (bits : Nat) : fpClass t bits = 2 ^ t.classNo (t.val bits) := by
  unfold fpClass FF.classNo
  cases t.val bits with
  | nan s => cases s <;> rfl
  | inf s => cases s <;> rfl
  | fin s m =>
    by_cases h0 : m = 0
    · cases s <;> simp [h0]
    · by_cases hsub : m < t.minN
      · cases s <;> simp [h0, hsub]
      · cases s <;> simp [h0, hsub]

theorem FF.classNo_lt (t : FF) (v : FP) : t.classNo v < 10 := by
  unfold FF.classNo
  repeat' split
  all_goals decide

/-- A subnormal magnitude of a sign. -/
def FF.Small (t : FF) (v : FP) (neg : Bool) : Prop := ∃ m, v = .fin neg m ∧ m ≠ 0 ∧ m < t.minN

/-- A normal magnitude of a sign. -/
def FF.Big (t : FF) (v : FP) (neg : Bool) : Prop := ∃ m, v = .fin neg m ∧ m ≠ 0 ∧ t.minN ≤ m

theorem FF.classNo_iff (t : FF) (v : FP) :
    (t.classNo v = 0 ↔ v = .inf true) ∧ (t.classNo v = 1 ↔ t.Big v true) ∧ (t.classNo v = 2 ↔ t.Small v true) ∧
    (t.classNo v = 3 ↔ v = .fin true 0) ∧ (t.classNo v = 4 ↔ v = .fin false 0) ∧ (t.classNo v = 5 ↔ t.Small v false) ∧
    (t.classNo v = 6 ↔ t.Big v false) ∧ (t.classNo v = 7 ↔ v = .inf false) ∧ (t.classNo v = 8 ↔ v = .nan true) ∧
    (t.classNo v = 9 ↔ v = .nan false) := by
  cases v with
  | nan s => cases s <;> simp [FF.classNo, FF.Big, FF.Small]
  | inf s => cases s <;> simp [FF.classNo, FF.Big, FF.Small]
  | fin s m =>
    by_cases h0 : m = 0
    · cases s <;> simp [FF.classNo, FF.Big, FF.Small, h0]
    · by_cases hsub : m < t.minN
      · cases s <;> simp [FF.classNo, FF.Big, FF.Small, h0, hsub, Rat.not_le.2 hsub]
      · cases s <;> simp [FF.classNo, FF.Big, FF.Small, h0, hsub, Rat.not_lt.1 hsub]

theorem ofNat_two_pow_inj {j k : Nat} (hj : j < 64) (hk : k < 64) : BitVec.ofNat 64 (2 ^ j) = BitVec.ofNat 64 (2 ^ k) ↔ j = k := by
  have hlt {n : Nat} (hn : n < 64) : 2 ^ n < 2 ^ 64 := Nat.pow_lt_pow_right (by decide) hn
  rw [BitVec.toNat_eq, BitVec.toNat_ofNat, BitVec.toNat_ofNat, Nat.mod_eq_of_lt (hlt hj), Nat.mod_eq_of_lt (hlt hk),
    Nat.pow_right_inj (by decide)]

/-- Settles O11: the body of latency 4; a bit is that of a class when it stands at the class's number. -/
theorem classMask : Obligations.ClassMask := by
  intro c f a
  refine ⟨Machine.runsFixed_of_exec rfl, ?_⟩
  intro t v small big isClass
  have hval : fclassVal f a = BitVec.ofNat 64 (2 ^ t.classNo v) := congrArg (BitVec.ofNat 64) (fpClass_eq t _)
  have hlt : t.classNo v < 10 := t.classNo_lt v
  have hbit {n : Nat} {p : Prop} (hn : n < 64) (hp : t.classNo v = n ↔ p) : isClass n p := by
    show fclassVal f a = _ ↔ p
    rw [hval, ofNat_two_pow_inj (by omega) hn, hp]
  obtain ⟨h0, h1, h2, h3, h4, h5, h6, h7, h8, h9⟩ := t.classNo_iff v
  exact ⟨hbit (by decide) h0, hbit (by decide) h1, hbit (by decide) h2, hbit (by decide) h3, hbit (by decide) h4,
    hbit (by decide) h5, hbit (by decide) h6, hbit (by decide) h7, hbit (by decide) h8, hbit (by decide) h9, _, hlt, hval⟩

end Sys2Proof
end

section
/-!
PROOFS. Packed elements: a register's elements are those that were joined, and an operation on each of them gives theirs.
-/
namespace Sys2Proof

variable {t : Ty} {w : Nat}

/-! ### Elements of a register (R91) -/

/-- Elements of `w` bits as the digits of a number, the lowest first. -/
def digits (w : Nat) : List Nat → Nat
  | [] => 0
  | e :: es => e + 2 ^ w * digits w es

theorem foldl_digits (w : Nat) (es : List Nat) (acc k : Nat) :
    (es.mapIdx fun i e => e * 2 ^ (w * (i + k))).foldl (· + ·) acc = acc + 2 ^ (w * k) * digits w es := by
  induction es generalizing acc k with
  | nil => rfl
  | cons e es ih =>
    have hshift : (fun i e => e * 2 ^ (w * (i + 1 + k))) = fun (i e : Nat) => e * 2 ^ (w * (i + (k + 1))) := by
      funext i e
      rw [Nat.add_assoc, Nat.add_comm 1 k]
    rw [List.mapIdx_cons, hshift, List.foldl_cons, ih, digits, Nat.zero_add, Nat.mul_succ, Nat.pow_add, Nat.mul_add,
      Nat.mul_comm e, Nat.mul_assoc, Nat.add_assoc]

theorem digits_lt {es : List Nat} (h : ∀ e ∈ es, e < 2 ^ w) : digits w es < 2 ^ (w * es.length) := by
  induction es with
  | nil => exact Nat.two_pow_pos _
  | cons e es ih =>
    have he : e < 2 ^ w := h e List.mem_cons_self
    have hes : digits w es + 1 ≤ 2 ^ (w * es.length) := ih fun e' he' => h e' (List.mem_cons_of_mem e he')
    have hmul := Nat.mul_le_mul_left (2 ^ w) hes
    rw [Nat.mul_add, Nat.mul_one, ← Nat.pow_add] at hmul
    rw [digits, List.length_cons, Nat.mul_succ, Nat.add_comm (w * _)]
    omega

/-- The digit at a place. -/
theorem digits_get {es : List Nat} (h : ∀ e ∈ es, e < 2 ^ w) {i : Nat} (hi : i < es.length) :
    digits w es / 2 ^ (w * i) % 2 ^ w = es[i] := by
  induction es generalizing i with
  | nil => exact absurd hi (Nat.not_lt_zero i)
  | cons e es ih =>
    have he : e < 2 ^ w := h e List.mem_cons_self
    cases i with
    | zero => rw [Nat.mul_zero, Nat.pow_zero, Nat.div_one, digits, Nat.add_mul_mod_self_left, Nat.mod_eq_of_lt he]; rfl
    | succ i =>
      rw [Nat.mul_succ, Nat.add_comm, Nat.pow_add, ← Nat.div_div_eq_div_mul, digits, Nat.add_mul_div_left _ _ (Nat.two_pow_pos w),
        Nat.div_eq_of_lt he, Nat.zero_add]
      exact ih (fun e' he' => h e' (List.mem_cons_of_mem e he')) (Nat.lt_of_succ_lt_succ hi)

theorem Ty.toNat_joinElems {es : List Nat} (hfit : t.elemWidth * es.length ≤ 64) (h : ∀ e ∈ es, e < 2 ^ t.elemWidth) :
    (t.joinElems es).toNat = digits t.elemWidth es := by
  have hfold := foldl_digits t.elemWidth es 0 0
  have hlt := Nat.lt_of_lt_of_le (digits_lt h) (Nat.pow_le_pow_right (by decide) hfit)
  simp only [Nat.add_zero, Nat.mul_zero, Nat.pow_zero, Nat.one_mul, Nat.zero_add] at hfold
  rw [Ty.joinElems, BitVec.toNat_ofNat, hfold, Nat.mod_eq_of_lt hlt]

/-- The elements of an operation's result are its results on the elements. -/
theorem Ty.elem_mapElems {g : Nat → Nat × Flags} (hfit : t.elemWidth * t.elems ≤ 64) (h : ∀ i, (g i).1 < 2 ^ t.elemWidth)
    {i : Nat} (hi : i < t.elems) : t.elem (t.mapElems g).1 i = (g i).1 := by
  have hlt : ∀ e ∈ ((List.range t.elems).map g).map (·.1), e < 2 ^ t.elemWidth := by
    simp only [List.map_map, List.mem_map]
    rintro e ⟨j, -, rfl⟩
    exact h j
  rw [Ty.elem, Ty.mapElems, Ty.toNat_joinElems (by simpa using hfit) hlt, digits_get hlt (by simpa using hi)]
  simp

/-! ### Flags of an operation's elements -/

theorem Flags.union_when (p : Nat → Bool) (l : List Nat) :
    Flags.union (l.map fun i => Flags.when (p i) .NV) = Flags.when (l.any p) .NV := by
  have hor (x y : Bool) : (Flags.when x .NV).or (Flags.when y .NV) = Flags.when (x || y) .NV := by cases x <;> cases y <;> rfl
  have hfold (acc : Bool) : (l.map fun i => Flags.when (p i) .NV).foldl Flags.or (Flags.when acc .NV) =
      Flags.when (acc || l.any p) .NV := by
    induction l generalizing acc with
    | nil => rw [List.any_nil, Bool.or_false]; rfl
    | cons i l ih => rw [List.map_cons, List.foldl_cons, hor, ih, List.any_cons, Bool.or_assoc]
  exact hfold false

end Sys2Proof
end

section
/-!
PROOFS. Minimum and maximum of R150 over bits: which operand's bits are kept, in the order in which -0 stands below +0.
-/
namespace Sys2Proof

variable {t : FF} {ftz isMax : Bool} {a b : Nat} {x y z : FP}

/-! ### The order with -0 below +0 (R150) -/

theorem FP.lt_trans (hxy : x.lt y = true) (hyz : y.lt z = true) : x.lt z = true := by
  rw [FP.lt_iff] at hxy hyz ⊢
  obtain ⟨hun, hless⟩ := hxy
  obtain ⟨hun', hless'⟩ := hyz
  refine ⟨fun h => h.elim (fun hx => hun (.inl hx)) fun hz => hun' (.inr hz), ?_⟩
  rcases hless with hlt | ⟨hx, hy, hlt⟩ <;> rcases hless' with hlt' | ⟨hy', hz, hlt'⟩
  · exact .inl (by omega)
  · exact .inl (by omega)
  · exact .inl (by omega)
  · exact .inr ⟨hx, hz, rat_lt_of_lt_of_le hlt (Rat.le_of_lt hlt')⟩

theorem FP.lt_irrefl (x : FP) : x.lt x = false := by
  rw [Bool.eq_false_iff, Ne, FP.lt_iff]
  rintro ⟨-, hlt | ⟨-, -, hlt⟩⟩
  · exact Int.lt_irrefl _ hlt
  · exact Rat.lt_irrefl hlt

/-- The zeros of the two signs compare alike with every other value. -/
theorem FP.lt_zero (x : FP) (r s : Bool) : x.lt (.fin r 0) = x.lt (.fin s 0) ∧ FP.lt (.fin r 0) x = FP.lt (.fin s 0) x := by
  have h0 (s : Bool) : (FP.fin s 0).toRat = 0 := by cases s <;> rfl
  cases x with
  | nan | inf => exact ⟨rfl, rfl⟩
  | fin s' m => simp only [FP.lt, h0, and_self]

theorem FP.eq_zero_iff (s : Bool) : x = .fin s 0 ↔ x.isZero = true ∧ x.neg? = s := by
  cases x with
  | nan | inf => exact ⟨nofun, nofun⟩
  | fin r m => rw [FP.isZero, FP.neg?, beq_iff_eq, FP.fin.injEq, and_comm]

theorem FP.ltZ_iff : x.ltZ y = true ↔ x.lt y = true ∨ (x = .fin true 0 ∧ y = .fin false 0) := by
  rw [FP.eq_zero_iff, FP.eq_zero_iff, FP.ltZ, Bool.or_eq_true]
  simp only [Bool.and_eq_true, Bool.not_eq_true']
  grind

theorem FP.ltZ_trans (hxy : x.ltZ y = true) (hyz : y.ltZ z = true) : x.ltZ z = true := by
  rw [FP.ltZ_iff] at hxy hyz ⊢
  rcases hxy with hxy | ⟨rfl, rfl⟩ <;> rcases hyz with hyz | ⟨hy, rfl⟩
  · exact .inl (FP.lt_trans hxy hyz)
  · rw [hy] at hxy; exact .inl ((FP.lt_zero x true false).1 ▸ hxy)
  · exact .inl ((FP.lt_zero z true false).2 ▸ hyz)
  · cases hy

theorem FP.ltZ_irrefl (x : FP) : x.ltZ x = false := by
  rw [Bool.eq_false_iff, Ne, FP.ltZ_iff, FP.lt_irrefl]
  rintro (h | ⟨rfl, h⟩)
  · cases h
  · cases h

theorem FP.ltZ_asymm (h : x.ltZ y = true) : y.ltZ x = false := by
  cases h' : y.ltZ x with
  | false => rfl
  | true => exact absurd (FP.ltZ_trans h h') (by rw [FP.ltZ_irrefl]; exact Bool.false_ne_true)

/-! ### The bits that are kept (R95, R150) -/

/-- The value of bits, in which FTZ takes a subnormal to the zero of its sign (R95). -/
def FF.flushed (t : FF) (ftz : Bool) (bits : Nat) : FP := (t.val bits).flush t ftz

/-- The bits that stand for a picked operand: its own, or those of the zero that FTZ makes of it. -/
def FF.kept (t : FF) (ftz : Bool) (bits : Nat) : Nat :=
  if ftz && t == .f32 && (t.flushed ftz bits).isZero then t.signBit (t.flushed ftz bits).neg? else bits

theorem FF.minmax_flag (t : FF) (isMax ftz : Bool) (a b : Nat) :
    (t.minmax isMax ftz a b).2 = snanFlag [t.flushed ftz a, t.flushed ftz b] := by
  unfold FF.minmax FF.flushed
  simp only [apply_ite Prod.snd, ite_self]

theorem FF.minmax_nans (ha : (t.flushed ftz a).isNan = true) (hb : (t.flushed ftz b).isNan = true) :
    (t.minmax isMax ftz a b).1 = t.canonNaN := by
  unfold FF.flushed at ha hb
  simp only [FF.minmax, ha, hb, Bool.and_self, if_true]

theorem FF.minmax_nan_left (ha : (t.flushed ftz a).isNan = true) (hb : (t.flushed ftz b).isNan = false) :
    (t.minmax isMax ftz a b).1 = t.kept ftz b := by
  unfold FF.flushed at ha hb
  simp only [FF.minmax, ha, hb, Bool.and_false, Bool.false_eq_true, if_false, if_true]
  rfl

theorem FF.minmax_nan_right (ha : (t.flushed ftz a).isNan = false) (hb : (t.flushed ftz b).isNan = true) :
    (t.minmax isMax ftz a b).1 = t.kept ftz a := by
  unfold FF.flushed at ha hb
  simp only [FF.minmax, ha, hb, Bool.and_true, Bool.false_eq_true, if_false, if_true]
  rfl

/-- Whether the value `x` goes before `y` in a minimum or a maximum. -/
def FP.before (isMax : Bool) (x y : FP) : Bool := if isMax then y.ltZ x else x.ltZ y

theorem FF.minmax_numbers (ha : (t.flushed ftz a).isNan = false) (hb : (t.flushed ftz b).isNan = false) :
    (t.minmax isMax ftz a b).1 =
      if (t.flushed ftz b).before isMax (t.flushed ftz a) then t.kept ftz b else t.kept ftz a := by
  unfold FF.flushed at ha hb
  simp only [FF.minmax, ha, hb, Bool.and_self, Bool.false_eq_true, if_false]
  rfl

theorem FP.flush_eq_nan (v : FP) (s : Bool) : v.flush t ftz = .nan s ↔ v = .nan s := by
  cases v with
  | nan | inf => exact Iff.rfl
  | fin r m =>
    unfold FP.flush
    dsimp only
    split <;> exact ⟨nofun, nofun⟩

theorem FP.isNan_flush (v : FP) : (v.flush t ftz).isNan = v.isNan := by
  rw [Bool.eq_iff_iff, FP.isNan_iff, FP.isNan_iff]
  simp only [FP.flush_eq_nan]

theorem FF.flushed_of_fin {s : Bool} {q : Rat} (h : t.val b = .fin s q) :
    t.flushed ftz b = if ftz && t == .f32 && decide (q < t.minN) then .fin s 0 else .fin s q := by
  rw [FF.flushed, h]; rfl

theorem FF.minN_pos (t : FF) : 0 < t.minN := pow2_pos _

theorem FF.val_signBit (t : FF) (s : Bool) : t.val (t.signBit s) = .fin s 0 := by
  have hpat : t.pat 0 0 = 0 := by rw [FF.pat, Nat.zero_mul]
  have hval := FF.val_pat (t := t) (k := 0) (n := 0) ⟨Nat.two_pow_pos _, .inl rfl⟩ (hpat ▸ by cases t <;> decide) s
  rwa [hpat, Nat.add_zero, FF.mag_zero] at hval

theorem FF.flushed_signBit (s : Bool) : t.flushed ftz (t.signBit s) = .fin s 0 := by
  rw [FF.flushed_of_fin (t.val_signBit s), ite_self]

/-- What is kept has the operand's value. -/
theorem FF.flushed_kept (b : Nat) : t.flushed ftz (t.kept ftz b) = t.flushed ftz b := by
  rw [FF.kept]
  split
  case isTrue h =>
    simp only [Bool.and_eq_true] at h
    rw [FF.flushed_signBit]
    exact ((FP.eq_zero_iff _).2 ⟨h.2, rfl⟩).symm
  case isFalse => rfl

/-- A number is kept bit for bit, but for a subnormal that FTZ takes. -/
theorem FF.kept_of_fin {s : Bool} {q : Rat} (h : t.val b = .fin s q) :
    t.kept ftz b = if ftz = true ∧ t = .f32 ∧ q < t.minN then t.signBit s else b := by
  have hneg : (t.flushed ftz b).neg? = s := by rw [FF.flushed_of_fin h]; split <;> rfl
  have hzero (hf : ftz = true ∧ t = .f32) : (t.flushed ftz b).isZero = true ↔ q < t.minN := by
    rw [FF.flushed_of_fin h, hf.1, hf.2]
    by_cases hlt : q < FF.minN .f32
    · simp [hlt, FP.isZero]
    · simp [hlt, FP.isZero]
      rintro rfl
      exact hlt (FF.minN_pos .f32)
  have htaken : (ftz && t == .f32 && (t.flushed ftz b).isZero) = true ↔ ftz = true ∧ t = .f32 ∧ q < t.minN := by
    rw [Bool.and_eq_true, Bool.and_eq_true, beq_iff_eq, and_congr_right hzero, and_assoc]
  rw [FF.kept, hneg]
  simp only [htaken]

theorem FF.kept_of_not_fin (h : ∀ s q, t.val b ≠ .fin s q) : t.kept ftz b = b := by
  have hzero : (t.flushed ftz b).isZero = false := by
    cases hv : t.val b with
    | fin s q => exact absurd hv (h s q)
    | nan | inf => rw [FF.flushed, hv]; rfl
  rw [FF.kept, hzero, Bool.and_false, if_neg Bool.false_ne_true]

theorem FF.signBit_lt (t : FF) (s : Bool) : t.signBit s < 2 ^ t.width := by
  have := Nat.two_pow_pos (t.width - 1)
  rw [FF.two_pow_width]
  cases s with
  | false => rw [FF.signBit_false]; omega
  | true => rw [FF.signBit_true]; omega

theorem FF.kept_lt (hb : b < 2 ^ t.width) : t.kept ftz b < 2 ^ t.width := by
  rw [FF.kept]
  split
  · exact t.signBit_lt _
  · exact hb

theorem FF.canonNaN_lt (t : FF) : t.canonNaN < 2 ^ t.width := by cases t <;> decide

theorem FF.flushed_canonNaN (t : FF) (ftz : Bool) : (t.flushed ftz t.canonNaN).isNan = true := by
  have hval : (t.val t.canonNaN).isNan = true := by cases t <;> decide +kernel
  rw [FF.flushed, FP.isNan_flush, hval]

/-! ### What is picked (R150) -/

theorem FF.minmax_lt (ha : a < 2 ^ t.width) (hb : b < 2 ^ t.width) : (t.minmax isMax ftz a b).1 < 2 ^ t.width := by
  cases hna : (t.flushed ftz a).isNan with
  | true =>
    cases hnb : (t.flushed ftz b).isNan with
    | true => rw [FF.minmax_nans hna hnb]; exact t.canonNaN_lt
    | false => rw [FF.minmax_nan_left hna hnb]; exact FF.kept_lt hb
  | false =>
    cases hnb : (t.flushed ftz b).isNan with
    | true => rw [FF.minmax_nan_right hna hnb]; exact FF.kept_lt ha
    | false =>
      rw [FF.minmax_numbers hna hnb]
      split
      · exact FF.kept_lt hb
      · exact FF.kept_lt ha

theorem FP.before_irrefl (isMax : Bool) (x : FP) : x.before isMax x = false := by
  cases isMax <;> exact FP.ltZ_irrefl x

theorem FP.before_trans (hxy : x.before isMax y = true) (hyz : y.before isMax z = true) : x.before isMax z = true := by
  cases isMax with
  | false => exact FP.ltZ_trans (x := x) (y := y) (z := z) hxy hyz
  | true => exact FP.ltZ_trans (x := z) (y := y) (z := x) hyz hxy

theorem FP.before_asymm (h : x.before isMax y = true) : y.before isMax x = false := by
  cases isMax with
  | false => exact FP.ltZ_asymm (x := x) (y := y) h
  | true => exact FP.ltZ_asymm (x := y) (y := x) h

/-- Of two numbers one is kept, and neither goes before it. -/
theorem FF.minmax_picks (ha : (t.flushed ftz a).isNan = false) (hb : (t.flushed ftz b).isNan = false) :
    ((t.minmax isMax ftz a b).1 = t.kept ftz a ∨ (t.minmax isMax ftz a b).1 = t.kept ftz b) ∧
    (t.flushed ftz a).before isMax (t.flushed ftz (t.minmax isMax ftz a b).1) = false ∧
    (t.flushed ftz b).before isMax (t.flushed ftz (t.minmax isMax ftz a b).1) = false := by
  rw [FF.minmax_numbers ha hb]
  cases h : (t.flushed ftz b).before isMax (t.flushed ftz a) with
  | true =>
    rw [if_pos rfl, FF.flushed_kept]
    exact ⟨.inr rfl, FP.before_asymm h, FP.before_irrefl isMax _⟩
  | false =>
    rw [if_neg Bool.false_ne_true, FF.flushed_kept]
    exact ⟨.inl rfl, FP.before_irrefl isMax _, h⟩

/-! ### The obligation -/

theorem FF.modify_lt {bits : Nat} (h : bits < 2 ^ t.width) (abs neg : Bool) : t.modify abs neg bits < 2 ^ t.width := by
  have hpos := Nat.two_pow_pos (t.width - 1)
  have hmod := Nat.mod_lt bits hpos
  rw [FF.two_pow_width] at h ⊢
  have habs : (if abs then bits % 2 ^ (t.width - 1) else bits) < 2 ^ (t.width - 1) * 2 := by split <;> omega
  rw [FF.modify]
  generalize (if abs then bits % 2 ^ (t.width - 1) else bits) = b at habs
  cases neg with
  | false => exact habs
  | true =>
    simp only [if_true]
    split <;> omega

theorem Ty.elem_lt (t : Ty) (v : W64) (i : Nat) : t.elem v i < 2 ^ t.ff.width := Nat.mod_lt _ (Nat.two_pow_pos _)

theorem FF.minmax_NV (t : FF) (isMax ftz : Bool) (a b : Nat) : (t.minmax isMax ftz a b).2 =
    Flags.when (decide (t.val a = .nan true ∨ t.val b = .nan true)) .NV := by
  have hany : [t.flushed ftz a, t.flushed ftz b].any FP.isSnan = decide (t.val a = .nan true ∨ t.val b = .nan true) := by
    have hsnan (bits : Nat) : (t.flushed ftz bits).isSnan = true ↔ t.val bits = .nan true :=
      FP.isSnan_iff.trans (FP.flush_eq_nan _ _)
    rw [Bool.eq_iff_iff, decide_eq_true_eq, List.any_cons, List.any_cons, List.any_nil, Bool.or_false, Bool.or_eq_true, hsnan,
      hsnan]
  rw [FF.minmax_flag, snanFlag, hany]

theorem AFmt.aElem_lt (f : AFmt) (t : Ty) (v : W64) (i : Nat) : f.aElem t v i < 2 ^ t.ff.width := FF.modify_lt (t.elem_lt v i) _ _

theorem AFmt.bElem_lt (f : AFmt) (t : Ty) (v : W64) (i : Nat) : f.bElem t v i < 2 ^ t.ff.width := FF.modify_lt (t.elem_lt v i) _ _

section
variable {f : AFmt} {m : W32} {v w : W64} {i : Nat}

/-- An element of the result is the pick of the operands' elements. -/
theorem elem_fminmaxVal (hty : f.ty ∈ [Ty.f32, Ty.f64, Ty.f16x2, Ty.bf16x2]) (hi : i < f.ty.elems) :
    f.ty.elem (fminmaxVal f m isMax v w).1 i =
      (f.ty.ff.minmax isMax (fmodeFtz m) (f.aElem f.ty v i) (f.bElem f.ty w i)).1 :=
  Ty.elem_mapElems ((by decide : ∀ t ∈ [Ty.f32, Ty.f64, Ty.f16x2, Ty.bf16x2], t.elemWidth * t.elems ≤ 64) _ hty)
    (fun j => FF.minmax_lt (f.aElem_lt f.ty v j) (f.bElem_lt f.ty w j)) hi

theorem fminmaxVal_NV : (fminmaxVal f m isMax v w).2 = Flags.when ((List.range f.ty.elems).any fun j =>
    decide (f.ty.ff.val (f.aElem f.ty v j) = .nan true ∨ f.ty.ff.val (f.bElem f.ty w j) = .nan true)) .NV := by
  rw [← Flags.union_when]
  show Flags.union (List.map Prod.snd (List.map _ _)) = _
  rw [List.map_map]
  exact congrArg Flags.union (List.map_congr_left fun j _ => FF.minmax_NV ..)

end

/-- Settles O9: the bodies of FMIN and FMAX; each element is picked by `FF.minmax`, and what is kept is an operand's own element but
for a subnormal that FTZ takes. -/
theorem minmaxPicks : Obligations.MinmaxPicks := by
  intro c f m isMax v w i
  refine ⟨⟨Machine.runsFixed_of_exec rfl, Machine.runsFixed_of_exec rfl⟩, fun hty hi => ?_, fun _ => ?_⟩
  · intro t ftz a b r kept value below nan
    have hr : r = (t.minmax isMax ftz a b).1 := elem_fminmaxVal hty hi
    have hkept (bits : Nat) : t.kept ftz bits = kept bits := by
      show _ = match t.val bits with
        | .fin s q => if ftz = true ∧ t = FF.f32 ∧ q < t.minN then t.signBit s else bits
        | _ => bits
      cases hv : t.val bits with
      | fin s q => exact FF.kept_of_fin hv
      | nan | inf => exact FF.kept_of_not_fin fun s q h => nomatch hv ▸ h
    have hnan (bits : Nat) : nan bits ↔ (t.flushed ftz bits).isNan = true := by rw [FF.flushed, FP.isNan_flush]
    have hbelow (x y : FP) : below x y ↔ x.ltZ y = true := FP.ltZ_iff.symm
    simp only [hr, ← hkept, hnan, hbelow, Bool.not_eq_true]
    refine ⟨FF.minmax_nans, FF.minmax_nan_left, FF.minmax_nan_right, fun hx hy => ?_⟩
    obtain ⟨hpick, hfirst, hsecond⟩ := FF.minmax_picks (isMax := isMax) hx hy
    refine ⟨hpick, ?_⟩
    cases isMax with
    | false => exact ⟨hfirst, hsecond⟩
    | true => exact ⟨hfirst, hsecond⟩
  · intro fl snan
    have hsnan : ((List.range f.ty.elems).any fun j => decide (f.ty.ff.val (f.aElem f.ty v j) = .nan true ∨
        f.ty.ff.val (f.bElem f.ty w j) = .nan true)) = true ↔ snan := by
      simp only [List.any_eq_true, List.mem_range, decide_eq_true_eq]
      rfl
    rw [show fl = _ from fminmaxVal_NV, ← hsnan]
    exact Flags.when_NV_iff _

end Sys2Proof
end

section
/-!
PROOFS. Operators over members' values: what they leave of integers and of bits, and of f32 values their exact sum and their picks.
-/
namespace Sys2Proof

variable {t : Ty} {a b : W64} {vs : List W64}

/-! ### Folds that pick one of their operands -/

/-- A fold of an operator that picks an operand with the lesser key gives one of the values, whose key is the least. -/
theorem foldl_picks {α : Type} {op : α → α → α} {key : α → Int} {P : α → Prop}
    (hpick : ∀ x y, P x → P y → (op x y = x ∨ op x y = y) ∧ key (op x y) ≤ key x ∧ key (op x y) ≤ key y)
    {x : α} {l : List α} (hP : ∀ v ∈ x :: l, P v) :
    l.foldl op x ∈ x :: l ∧ ∀ v ∈ x :: l, key (l.foldl op x) ≤ key v := by
  induction l generalizing x with
  | nil => exact ⟨List.mem_cons_self, fun v hv => by rw [List.mem_singleton.1 hv]; exact Int.le_refl _⟩
  | cons y l ih =>
    rw [List.forall_mem_cons, List.forall_mem_cons] at hP
    obtain ⟨hx, hy, hl⟩ := hP
    obtain ⟨heq, hlx, hly⟩ := hpick x y hx hy
    have hop : op x y ∈ [x, y] := by rcases heq with h | h <;> rw [h] <;> simp
    have hPop : P (op x y) := by rcases heq with h | h <;> rwa [h]
    obtain ⟨hmem, hle⟩ := ih (x := op x y) (List.forall_mem_cons.2 ⟨hPop, hl⟩)
    rw [List.forall_mem_cons] at hle
    obtain ⟨hle, hrest⟩ := hle
    refine ⟨?_, ?_⟩
    · rcases List.mem_cons.1 hmem with h | h
      · rw [List.foldl_cons, h]
        exact List.mem_append_left l hop
      · exact List.mem_cons_of_mem x (List.mem_cons_of_mem y h)
    · exact List.forall_mem_cons.2 ⟨Int.le_trans hle hlx, List.forall_mem_cons.2 ⟨Int.le_trans hle hly, hrest⟩⟩

/-! ### Integers (R165) -/

theorem loWord_zeroExtend (x : W32) : loWord (x.zeroExtend 64) = x := by
  apply BitVec.eq_of_toNat_eq
  have := x.isLt
  rw [← loWord_eq_ofNat, BitVec.toNat_ofNat, BitVec.zeroExtend, BitVec.toNat_setWidth]
  omega

theorem Ty.wrap_int (ha : a.toNat < 2 ^ t.bits) : t.wrap (t.int a) = a := by
  cases hw : t.wide with
  | true => rw [Ty.wrap_wide hw, Ty.ofInt_int_wide hw]
  | false =>
    have hcut := Ty.cut_of_lt ha
    rw [Ty.cut, if_neg (hw ▸ Bool.false_ne_true)] at hcut
    rw [Ty.wrap_narrow hw, Ty.ofInt_int_narrow hw, hcut]

theorem intAdd_wrap (t : Ty) (m : Int) (b : W64) : intAdd t false (t.wrap m) b = t.wrap (m + t.int b) := by
  cases hw : t.wide with
  | true => rw [intAdd_wide hw, Ty.wrap_wide hw, Ty.wrap_wide hw, BitVec.ofInt_add, Ty.ofInt_int_wide hw]
  | false =>
    rw [intAdd_narrow hw, Ty.wrap_narrow hw, Ty.wrap_narrow hw, loWord_zeroExtend, BitVec.ofInt_add, Ty.ofInt_int_narrow hw]

theorem foldl_intAdd (t : Ty) (m : Int) (vs : List W64) :
    vs.foldl (intAdd t false) (t.wrap m) = t.wrap (m + (vs.map t.int).sum) := by
  induction vs generalizing m with
  | nil => rw [List.foldl_nil, List.map_nil, List.sum_nil, Int.add_zero]
  | cons v vs ih => rw [List.foldl_cons, intAdd_wrap, ih, List.map_cons, List.sum_cons, Int.add_assoc]

theorem intMin'_picks (ha : a.toNat < 2 ^ t.bits) (hb : b.toNat < 2 ^ t.bits) :
    (intMin' t a b = a ∨ intMin' t a b = b) ∧ t.int (intMin' t a b) ≤ t.int a ∧ t.int (intMin' t a b) ≤ t.int b := by
  rw [intMin', min_image t.int]
  split
  · rw [Ty.wrap_int ha]
    exact ⟨.inl rfl, Int.le_refl _, by omega⟩
  · rw [Ty.wrap_int hb]
    exact ⟨.inr rfl, by omega, Int.le_refl _⟩

theorem intMax'_picks (ha : a.toNat < 2 ^ t.bits) (hb : b.toNat < 2 ^ t.bits) :
    (intMax' t a b = a ∨ intMax' t a b = b) ∧ -t.int (intMax' t a b) ≤ -t.int a ∧ -t.int (intMax' t a b) ≤ -t.int b := by
  rw [intMax', max_image t.int]
  split
  · rw [Ty.wrap_int hb]
    exact ⟨.inr rfl, by omega, Int.le_refl _⟩
  · rw [Ty.wrap_int ha]
    exact ⟨.inl rfl, Int.le_refl _, by omega⟩

/-! ### Bits -/

theorem getLsbD_foldl_and (i : Nat) (a : W64) (vs : List W64) :
    (vs.foldl (· &&& ·) a).getLsbD i = (a :: vs).all fun v => v.getLsbD i := by
  induction vs generalizing a with
  | nil => rw [List.foldl_nil, List.all_cons, List.all_nil, Bool.and_true]
  | cons v vs ih => rw [List.foldl_cons, ih, List.all_cons, List.all_cons, List.all_cons, BitVec.getLsbD_and, Bool.and_assoc]

theorem getLsbD_foldl_or (i : Nat) (a : W64) (vs : List W64) :
    (vs.foldl (· ||| ·) a).getLsbD i = (a :: vs).any fun v => v.getLsbD i := by
  induction vs generalizing a with
  | nil => rw [List.foldl_nil, List.any_cons, List.any_nil, Bool.or_false]
  | cons v vs ih => rw [List.foldl_cons, ih, List.any_cons, List.any_cons, List.any_cons, BitVec.getLsbD_or, Bool.or_assoc]

theorem odd_succ (n : Nat) : ((n + 1) % 2 == 1) = !(n % 2 == 1) := by
  rcases Nat.mod_two_eq_zero_or_one n with h | h <;> simp [Nat.add_mod, h]

/-- The bit of an exclusive or is set where an odd number of values have it. -/
theorem getLsbD_foldl_xor (i : Nat) (a : W64) (vs : List W64) :
    (vs.foldl (· ^^^ ·) a).getLsbD i = (((a :: vs).filter fun v => v.getLsbD i).length % 2 == 1) := by
  have hparity (a : W64) (n : Nat) :
      ((n + if a.getLsbD i then 1 else 0) % 2 == 1) = (a.getLsbD i ^^ (n % 2 == 1)) := by
    cases a.getLsbD i with
    | false => exact (Bool.false_xor _).symm
    | true => rw [if_pos rfl, odd_succ, Bool.true_xor]
  rw [← List.countP_eq_length_filter, List.countP_cons, hparity]
  induction vs generalizing a with
  | nil => exact (Bool.xor_false _).symm
  | cons v vs ih => rw [List.foldl_cons, ih, List.countP_cons, hparity, BitVec.getLsbD_xor, Bool.xor_assoc]

/-! ### Reductions of integers and of bits (R165, R166) -/

namespace Machine

variable {f : AFmt} {op : Nat} {m : W32}

theorem reduxVal_int (hf : f.ty ≠ .f32) (a : W64) (vs : List W64) :
    reduxVal f op m (a :: vs) = (vs.foldl (reduxInt f.ty op) a, Flags.none) := if_neg hf

theorem reduxVal_add (hf : f.ty ≠ .f32) (hvs : vs ≠ []) (hlt : ∀ v ∈ vs, v.toNat < 2 ^ f.ty.bits) :
    (reduxVal f 0 m vs).1 = f.ty.wrap (vs.map f.ty.int).sum := by
  cases vs with
  | nil => exact absurd rfl hvs
  | cons a vs =>
    have hfold := foldl_intAdd f.ty (f.ty.int a) vs
    rw [Ty.wrap_int (hlt a List.mem_cons_self)] at hfold
    rw [reduxVal_int hf, List.map_cons, List.sum_cons, ← hfold]
    rfl

theorem reduxVal_min (hf : f.ty ≠ .f32) (hvs : vs ≠ []) (hlt : ∀ v ∈ vs, v.toNat < 2 ^ f.ty.bits) :
    (reduxVal f 1 m vs).1 ∈ vs ∧ ∀ v ∈ vs, f.ty.int (reduxVal f 1 m vs).1 ≤ f.ty.int v := by
  cases vs with
  | nil => exact absurd rfl hvs
  | cons a vs =>
    rw [reduxVal_int hf]
    exact foldl_picks (op := intMin' f.ty) (fun _ _ => intMin'_picks) hlt

theorem reduxVal_max (hf : f.ty ≠ .f32) (hvs : vs ≠ []) (hlt : ∀ v ∈ vs, v.toNat < 2 ^ f.ty.bits) :
    (reduxVal f 2 m vs).1 ∈ vs ∧ ∀ v ∈ vs, f.ty.int v ≤ f.ty.int (reduxVal f 2 m vs).1 := by
  cases vs with
  | nil => exact absurd rfl hvs
  | cons a vs =>
    rw [reduxVal_int hf]
    obtain ⟨hmem, hle⟩ := foldl_picks (op := intMax' f.ty) (key := fun v => -f.ty.int v) (fun _ _ => intMax'_picks) hlt
    exact ⟨hmem, fun v hv => Int.neg_le_neg_iff.1 (hle v hv)⟩

theorem reduxVal_bits (hf : f.ty ≠ .f32) (hvs : vs ≠ []) (i : Nat) :
    ((reduxVal f 3 m vs).1.getLsbD i = vs.all fun v => v.getLsbD i) ∧
    ((reduxVal f 4 m vs).1.getLsbD i = vs.any fun v => v.getLsbD i) ∧
    ((reduxVal f 5 m vs).1.getLsbD i = ((vs.filter fun v => v.getLsbD i).length % 2 == 1)) := by
  cases vs with
  | nil => exact absurd rfl hvs
  | cons a vs =>
    rw [reduxVal_int hf, reduxVal_int hf, reduxVal_int hf]
    exact ⟨getLsbD_foldl_and i a vs, getLsbD_foldl_or i a vs, getLsbD_foldl_xor i a vs⟩

theorem reduxVal_int_quiet (hf : f.ty ≠ .f32) (op : Nat) (vs : List W64) : (reduxVal f op m vs).2 = Flags.none := by
  cases vs with
  | nil => rfl
  | cons a vs => rw [reduxVal_int hf]

/-- Over no value an operator gives its identity (R166). -/
theorem reduxVal_nil (f : AFmt) (op : Nat) (m : W32) : reduxVal f op m [] = (reduxIdentity f.ty op, Flags.none) := rfl

theorem reduxIdentity_and (t : Ty) : reduxIdentity t 3 = if t.wide then BitVec.allOnes 64 else 0xFFFFFFFF := by
  cases t <;> decide

theorem reduxIdentity_bounds (ht : t ≠ .f32) {n : Int} (hlo : intMin t.signed t.bits ≤ n) (hhi : n ≤ intMax t.signed t.bits) :
    n ≤ t.int (reduxIdentity t 1) ∧ t.int (reduxIdentity t 2) ≤ n := by
  have hrange := intMin_le_intMax t.signed t.bits
  have hmin : reduxIdentity t 1 = t.wrap (intMax t.signed t.bits) := if_neg ht
  have hmax : reduxIdentity t 2 = t.wrap (intMin t.signed t.bits) := if_neg ht
  rw [hmin, hmax, Ty.int_wrap hrange (Int.le_refl _), Ty.int_wrap (Int.le_refl _) hrange]
  exact ⟨hhi, hlo⟩

end Machine

end Sys2Proof
end

section
/-!
PROOFS. Operators over f32 values: the exact sum of R165, whatever the order of the lanes, and the number that none precedes; and what
shuffles, broadcasts, MATCH, VOTE and SCAN take of the lanes.
-/
namespace Sys2Proof

variable {t : FF} {ftz isMax : Bool}

/-! ### Exact sums (R96, R165) -/

theorem foldl_toRat (q : Rat) (l : List FP) : l.foldl (fun acc v => acc + v.toRat) q = q + (l.map FP.toRat).sum := by
  induction l generalizing q with
  | nil => rw [List.foldl_nil, List.map_nil, List.sum_nil, Rat.add_zero]
  | cons v l ih => rw [List.foldl_cons, ih, List.map_cons, List.sum_cons, Rat.add_assoc]

/-- An exact sum does not ask for the order of its terms. -/
theorem FP.sum_perm {l l' : List FP} (h : l.Perm l') (mode : RMode) : FP.sum mode l = FP.sum mode l' := by
  have hany (p : FP → Bool) : l.any p = l'.any p := by
    rw [Bool.eq_iff_iff, List.any_eq_true, List.any_eq_true]
    simp only [h.mem_iff]
  have hall (p : FP → Bool) : l.all p = l'.all p := by
    rw [Bool.eq_iff_iff, List.all_eq_true, List.all_eq_true]
    simp only [h.mem_iff]
  have hsum : l.foldl (fun acc v => acc + v.toRat) 0 = l'.foldl (fun acc v => acc + v.toRat) 0 :=
    h.foldl_eq' (fun x _ y _ z => by rw [Rat.add_assoc, Rat.add_assoc, Rat.add_comm x.toRat]) 0
  simp only [FP.sum, hany, hall, hsum, h.contains_eq, h.isEmpty_eq]

theorem snanFlag_perm {l l' : List FP} (h : l.Perm l') : snanFlag l = snanFlag l' := by
  have hany : l.any FP.isSnan = l'.any FP.isSnan := by
    rw [Bool.eq_iff_iff, List.any_eq_true, List.any_eq_true]
    simp only [h.mem_iff]
  rw [snanFlag, snanFlag, hany]

/-- Finite terms whose sum is not zero have that sum. -/
theorem FP.sum_finite {l : List FP} (mode : RMode) (hfin : ∀ v ∈ l, v.isNan = false ∧ v.isInf = false)
    (hq : (l.map FP.toRat).sum ≠ 0) : FP.sum mode l = (FP.ofRat (l.map FP.toRat).sum, false) := by
  have hnan : l.any FP.isNan = false := List.any_eq_false.2 fun v hv => by rw [(hfin v hv).1]; exact Bool.false_ne_true
  have hinf (s : Bool) : l.contains (.inf s) = false :=
    Bool.eq_false_iff.2 fun h => Bool.noConfusion (hfin _ (List.contains_iff_mem.1 h)).2
  have hsum := foldl_toRat 0 l
  rw [Rat.zero_add] at hsum
  simp only [FP.sum, hnan, hinf, hsum, if_neg hq, Bool.and_self, Bool.false_eq_true, if_false]

theorem snanFlag_finite {l : List FP} (hfin : ∀ v ∈ l, v.isNan = false ∧ v.isInf = false) : snanFlag l = Flags.none := by
  have hnan : l.any FP.isSnan = false := List.any_eq_false.2 fun v hv hs => by
    obtain ⟨hv, -⟩ := hfin v hv
    rw [FP.isSnan_iff.1 hs] at hv
    cases hv
  rw [snanFlag, hnan]; rfl

theorem Flags.or_none (fl : Flags) : fl.or Flags.none = fl := by simp [Flags.or, Flags.none]

/-! ### Patterns beyond the width -/

/-- A format looks at the bits of its width alone. -/
theorem FF.val_mod_width (t : FF) (bits : Nat) : t.val (bits % 2 ^ t.width) = t.val bits := by
  have hw : t.width = t.p + (t.ebits + 1) := by rw [FF.width]; omega
  have hf : bits % 2 ^ t.width % 2 ^ t.p = bits % 2 ^ t.p := Nat.mod_mod_of_dvd _ (Nat.pow_dvd_pow 2 (by omega))
  have hdiv (k n : Nat) (h : t.width = k + n) : bits % 2 ^ t.width / 2 ^ k = bits / 2 ^ k % 2 ^ n := by
    rw [h, Nat.pow_add, Nat.mod_mul_right_div_self]
  have he : bits % 2 ^ t.width / 2 ^ t.p % 2 ^ t.ebits = bits / 2 ^ t.p % 2 ^ t.ebits := by
    rw [hdiv t.p (t.ebits + 1) hw]
    exact Nat.mod_mod_of_dvd _ (Nat.pow_dvd_pow 2 (by omega))
  have hs : bits % 2 ^ t.width / 2 ^ (t.p + t.ebits) % 2 = bits / 2 ^ (t.p + t.ebits) % 2 := by
    rw [hdiv (t.p + t.ebits) 1 (by omega), Nat.pow_one, Nat.mod_mod]
  simp only [FF.val, hf, he, hs]

/-- A value of 64 bits is read as its low 32. -/
theorem FF.flushed_f32_mod (ftz : Bool) (bits : Nat) : FF.f32.flushed ftz (bits % 2 ^ 32) = FF.f32.flushed ftz bits :=
  congrArg (fun v : FP => v.flush .f32 ftz) (FF.f32.val_mod_width bits)

/-! ### The pick of a list (R150, R165) -/

/-- The bits `r` stand for a pick among `vs`: the canonical NaN where no value is a number, else the value of a number of theirs
that none goes before. -/
def FF.IsPick (t : FF) (isMax ftz : Bool) (vs : List Nat) (r : Nat) : Prop :=
  ((∀ v ∈ vs, (t.flushed ftz v).isNan = true) → r = t.canonNaN) ∧
  ((∃ v ∈ vs, (t.flushed ftz v).isNan = false) →
    ∃ v ∈ vs, (t.flushed ftz v).isNan = false ∧ t.flushed ftz r = t.flushed ftz v ∧
      ∀ u ∈ vs, (t.flushed ftz u).isNan = false → (t.flushed ftz u).before isMax (t.flushed ftz r) = false)

variable {vs : List Nat} {r v b : Nat}

theorem FF.isPick_of_number (hv : v ∈ vs) (hnum : (t.flushed ftz v).isNan = false) (hval : t.flushed ftz r = t.flushed ftz v)
    (hbest : ∀ u ∈ vs, (t.flushed ftz u).isNan = false → (t.flushed ftz u).before isMax (t.flushed ftz r) = false) :
    t.IsPick isMax ftz vs r :=
  ⟨fun h => absurd (h v hv) (Bool.eq_false_iff.1 hnum), fun _ => ⟨v, hv, hnum, hval, hbest⟩⟩

theorem FF.isPick_of_nans (hnans : ∀ v ∈ vs, (t.flushed ftz v).isNan = true) (hr : r = t.canonNaN) : t.IsPick isMax ftz vs r :=
  ⟨fun _ => hr, fun ⟨v, hv, hnum⟩ => absurd (hnans v hv) (Bool.eq_false_iff.1 hnum)⟩

theorem FF.isPick_singleton (a : Nat) : t.IsPick isMax ftz [a] (t.minmax isMax ftz a a).1 := by
  cases ha : (t.flushed ftz a).isNan with
  | true => exact FF.isPick_of_nans (List.forall_mem_singleton.2 ha) (FF.minmax_nans ha ha)
  | false =>
    obtain ⟨hpick, hfirst, -⟩ := FF.minmax_picks (isMax := isMax) ha ha
    have hval : t.flushed ftz (t.minmax isMax ftz a a).1 = t.flushed ftz a := by
      rcases hpick with h | h <;> rw [h, FF.flushed_kept]
    exact FF.isPick_of_number List.mem_cons_self ha hval (List.forall_mem_singleton.2 fun _ => hfirst)

/-- One more value: where there is a number yet, it stays or the new one goes before it; where there is none, the new one
decides. -/
theorem FF.IsPick.snoc (h : t.IsPick isMax ftz vs r) (b : Nat) : t.IsPick isMax ftz (vs ++ [b]) (t.minmax isMax ftz r b).1 := by
  obtain ⟨hnans, hnumbers⟩ := h
  have hlast : b ∈ vs ++ [b] := List.mem_append_right vs List.mem_cons_self
  by_cases hex : ∃ v ∈ vs, (t.flushed ftz v).isNan = false
  · obtain ⟨v, hv, hnum, hval, hbest⟩ := hnumbers hex
    have hr : (t.flushed ftz r).isNan = false := hval ▸ hnum
    have hstays {r' : Nat} (hr' : r' = t.kept ftz r)
        (hb : (t.flushed ftz b).isNan = false → (t.flushed ftz b).before isMax (t.flushed ftz r) = false) :
        t.IsPick isMax ftz (vs ++ [b]) r' := by
      have hval' : t.flushed ftz r' = t.flushed ftz r := hr' ▸ FF.flushed_kept r
      refine FF.isPick_of_number (List.mem_append_left [b] hv) hnum (hval'.trans hval) ?_
      rw [hval']
      exact List.forall_mem_append.2 ⟨hbest, List.forall_mem_singleton.2 hb⟩
    cases hb : (t.flushed ftz b).isNan with
    | true => exact hstays (FF.minmax_nan_right hr hb) fun h => absurd h (by rw [hb]; exact Bool.noConfusion)
    | false =>
      have hpick := FF.minmax_numbers (isMax := isMax) hr hb
      cases hbefore : (t.flushed ftz b).before isMax (t.flushed ftz r) with
      | false => exact hstays (by rw [hpick, hbefore, if_neg Bool.false_ne_true]) fun _ => hbefore
      | true =>
        rw [hpick, hbefore, if_pos rfl]
        refine FF.isPick_of_number hlast hb (FF.flushed_kept b) ?_
        rw [FF.flushed_kept]
        refine List.forall_mem_append.2 ⟨fun u hu hunum => ?_, List.forall_mem_singleton.2 fun _ => FP.before_irrefl isMax _⟩
        exact Bool.eq_false_iff.2 fun h => Bool.eq_false_iff.1 (hbest u hu hunum) (FP.before_trans h hbefore)
  · have hall : ∀ v ∈ vs, (t.flushed ftz v).isNan = true := fun v hv =>
      Bool.of_not_eq_false fun h => hex ⟨v, hv, h⟩
    have hr : (t.flushed ftz r).isNan = true := by rw [hnans hall]; exact t.flushed_canonNaN ftz
    cases hb : (t.flushed ftz b).isNan with
    | true => exact FF.isPick_of_nans (List.forall_mem_append.2 ⟨hall, List.forall_mem_singleton.2 hb⟩) (FF.minmax_nans hr hb)
    | false =>
      rw [FF.minmax_nan_left hr hb]
      refine FF.isPick_of_number hlast hb (FF.flushed_kept b) ?_
      rw [FF.flushed_kept]
      exact List.forall_mem_append.2 ⟨fun u hu hunum => absurd (hall u hu) (Bool.eq_false_iff.1 hunum),
        List.forall_mem_singleton.2 fun _ => FP.before_irrefl isMax _⟩

/-- All the values of a list, one after the other. -/
theorem FF.IsPick.foldl {acc : Nat × Flags} (h : t.IsPick isMax ftz vs acc.1) (rest : List Nat) :
    t.IsPick isMax ftz (vs ++ rest) (rest.foldl (fun acc b =>
      ((t.minmax isMax ftz acc.1 b).1, acc.2.or (t.minmax isMax ftz acc.1 b).2)) acc).1 := by
  induction rest generalizing vs acc with
  | nil => rwa [List.append_nil]
  | cons b rest ih =>
    rw [List.append_cons]
    exact ih (h.snoc b)

namespace Machine

theorem isPick_reduxMinmax (isMax ftz : Bool) (a : Nat) (rest : List Nat) :
    FF.f32.IsPick isMax ftz (a :: rest) (reduxMinmax isMax ftz a rest).1 :=
  (FF.isPick_singleton a).foldl rest

/-! ### Reductions of f32 values (R165) -/

section
variable {f : AFmt} {m : W32} {vs ws : List W64}

/-- The value of a lane's f32 word. -/
def f32Value (m : W32) (v : W64) : FP := (FF.f32.val (v.toNat % 2 ^ 32)).flush .f32 (fmodeFtz m)

theorem f32Value_eq (m : W32) (v : W64) : f32Value m v = FF.f32.flushed (fmodeFtz m) v.toNat := FF.flushed_f32_mod _ _

theorem f32Value_ofNat (m : W32) (n : Nat) : f32Value m (BitVec.ofNat 64 n) = FF.f32.flushed (fmodeFtz m) n := by
  have hmod : n % 2 ^ 64 % 2 ^ 32 = n % 2 ^ 32 := Nat.mod_mod_of_dvd _ (Nat.pow_dvd_pow 2 (by decide))
  rw [f32Value_eq, BitVec.toNat_ofNat, ← FF.flushed_f32_mod, hmod, FF.flushed_f32_mod]

theorem reduxVal_f32_sum (hf : f.ty = .f32) (hvs : vs ≠ []) :
    reduxVal f 0 m vs = (BitVec.ofNat 64 (reduxSum f m vs).1, (reduxSum f m vs).2) := by
  cases vs with
  | nil => exact absurd rfl hvs
  | cons a vs => exact if_pos hf

theorem reduxSum_perm (h : vs.Perm ws) : reduxSum f m vs = reduxSum f m ws := by
  have hvalues := h.map fun v => Ty.f32.fp (fmodeFtz m) v.toNat
  simp only [reduxSum, FP.sum_perm hvalues, snanFlag_perm hvalues]

/-- The sum of finite values is their exact sum, rounded once. -/
theorem reduxSum_finite (hfin : ∀ v ∈ vs, (f32Value m v).isNan = false ∧ (f32Value m v).isInf = false)
    (hq : (vs.map fun v => (f32Value m v).toRat).sum ≠ 0) :
    reduxSum f m vs = fpResult .f32 (FP.ofRat (vs.map fun v => (f32Value m v).toRat).sum) (f.fpMod m) := by
  have hvalues : (vs.map fun v => Ty.f32.fp (fmodeFtz m) v.toNat) = vs.map (f32Value m) :=
    List.map_congr_left fun v _ => (f32Value_eq m v).symm
  have hmap : (vs.map (f32Value m)).map FP.toRat = vs.map fun v => (f32Value m v).toRat := List.map_map
  rw [← hmap] at hq ⊢
  replace hfin : ∀ v ∈ vs.map (f32Value m), v.isNan = false ∧ v.isInf = false := List.forall_mem_map.2 hfin
  simp only [reduxSum, hvalues, FP.sum_finite _ hfin hq, snanFlag_finite hfin]
  exact Prod.ext rfl (Flags.or_none _)

theorem reduxVal_f32_pick (hf : f.ty = .f32) (hvs : vs ≠ []) (isMax : Bool) :
    ∃ r, (reduxVal f (if isMax then 2 else 1) m vs).1 = BitVec.ofNat 64 r ∧
      FF.f32.IsPick isMax (fmodeFtz m) (vs.map BitVec.toNat) r := by
  cases vs with
  | nil => exact absurd rfl hvs
  | cons a vs =>
    refine ⟨_, ?_, isPick_reduxMinmax isMax (fmodeFtz m) a.toNat (vs.map BitVec.toNat)⟩
    cases isMax <;> exact congrArg Prod.fst (if_pos hf)

/-- With no number among the values, a minimum or maximum is the canonical NaN. -/
theorem reduxVal_f32_nans (hf : f.ty = .f32) (hvs : vs ≠ []) (isMax : Bool) (hnans : ∀ v ∈ vs, (f32Value m v).isNan = true) :
    (reduxVal f (if isMax then 2 else 1) m vs).1 = BitVec.ofNat 64 FF.f32.canonNaN := by
  obtain ⟨r, hr, hpick, -⟩ := reduxVal_f32_pick (m := m) hf hvs isMax
  rw [hr, hpick (List.forall_mem_map.2 fun v hv => f32Value_eq m v ▸ hnans v hv)]

/-- With a number among them, it is the value of a number that none goes before. -/
theorem reduxVal_f32_number (hf : f.ty = .f32) (isMax : Bool) (hnum : ∃ v ∈ vs, ¬(f32Value m v).isNan = true) :
    ∃ v ∈ vs, ¬(f32Value m v).isNan = true ∧ f32Value m (reduxVal f (if isMax then 2 else 1) m vs).1 = f32Value m v ∧
      ∀ u ∈ vs, ¬(f32Value m u).isNan = true →
        ¬(f32Value m u).before isMax (f32Value m (reduxVal f (if isMax then 2 else 1) m vs).1) = true := by
  obtain ⟨v, hv, hvnum⟩ := hnum
  obtain ⟨r, hr, -, hpick⟩ := reduxVal_f32_pick (m := m) hf (List.ne_nil_of_mem hv) isMax
  have hvalue : f32Value m (reduxVal f (if isMax then 2 else 1) m vs).1 = FF.f32.flushed (fmodeFtz m) r := hr ▸ f32Value_ofNat m r
  simp only [hvalue, f32Value_eq, Bool.not_eq_true] at hvnum ⊢
  obtain ⟨_, hmem, hnum', hval, hbest⟩ := hpick ⟨_, List.mem_map_of_mem hv, hvnum⟩
  obtain ⟨v', hv', rfl⟩ := List.mem_map.1 hmem
  exact ⟨v', hv', hnum', hval, List.forall_mem_map.1 hbest⟩

end

/-! ### Lanes (R162 to R167) -/

section
variable {s : State} {x : Ctx} {f : AFmt} {L j : Nat}

/-- A shuffle takes the value of the lane that it names, where that is a guard-true lane of the fragment (R162). -/
theorem shflVal_lane (h : shflLane f.sub L (s.op32 x f.ops.b f.ops.imm L) = some j) :
    s.shflVal x f L = if j < 64 ∧ x.active.getLsbD j = true then s.aVal x f j else s.cVal x f L := by
  simp only [State.shflVal, h, Bool.and_eq_true, decide_eq_true_eq]

theorem shflVal_none (h : shflLane f.sub L (s.op32 x f.ops.b f.ops.imm L) = none) : s.shflVal x f L = s.cVal x f L := by
  simp only [State.shflVal, h]

theorem bcastVal_lane (h : s.op32 x f.ops.b f.ops.imm L = j) :
    s.bcastVal x f L = if j < 64 ∧ x.active.getLsbD j = true then s.aVal x f j else s.cVal x f L := by
  simp only [State.bcastVal, h, Bool.and_eq_true, decide_eq_true_eq]

theorem getLsbD_matchVal (hj : j < 64) :
    (s.matchVal x f L).getLsbD j = (x.active.getLsbD j && s.aVal x f j == s.aVal x f L) := by
  rw [State.matchVal, getLsbD_laneSet, decide_eq_true hj, Bool.true_and]

theorem getLsbD_ballot (p : Nat) (hj : j < 64) : (x.ballot p).getLsbD j = (x.active.getLsbD j && x.pred p j) := by
  rw [Ctx.ballot, getLsbD_laneSet, decide_eq_true hj, Bool.true_and]

theorem voteVal_all (p : Nat) : x.voteVal 0 p = true ↔ ∀ k ∈ x.lanes, x.pred p k = true := List.all_eq_true

theorem voteVal_any (p : Nat) : x.voteVal 1 p = true ↔ ∃ k ∈ x.lanes, x.pred p k = true := List.any_eq_true

theorem voteVal_eq (p : Nat) : x.voteVal 2 p = true ↔ ∀ k ∈ x.lanes, x.pred p k = x.pred p x.lead := by
  show (x.lanes.all fun k => x.pred p k == x.pred p x.lead) = true ↔ _
  simp only [List.all_eq_true, beq_iff_eq]

theorem mem_lanes_iff (x : Ctx) (k : Nat) : k ∈ x.lanes ↔ k < 64 ∧ x.active.getLsbD k = true := by
  rw [mem_lanes]
  exact ⟨fun h => ⟨lane_lt h, h⟩, fun h => h.2⟩

/-- SCAN's values are those of the members up to its lane, or before it (R166). -/
theorem mem_prefixVals (excl : Bool) (v : W64) : v ∈ s.prefixVals x f excl L ↔
    ∃ k, (k < 64 ∧ x.active.getLsbD k = true) ∧ (if excl then k < L else k ≤ L) ∧ s.aVal x f k = v := by
  simp only [State.prefixVals, List.mem_map, List.mem_filter, mem_lanes_iff, and_assoc]
  cases excl <;> simp

end

/-- Settles O7: lanes by the laws of shuffles, votes and scans; the operators over integers, bits and f32 values by those of
`reduxVal`. -/
theorem crossLaneValues : Obligations.CrossLaneValues := by
  intro s x f L j vs ws m hL hj b member
  have hlane {k : Nat} (h : shflLane f.sub L b = some k) :
      s.shflVal x f L = if member k then s.aVal x f k else s.cVal x f L := shflVal_lane h
  have hfar (hb : 64 ≤ b) : ¬member b := fun h => Nat.not_lt.2 hb h.1
  refine ⟨fun h hb => hlane (by rw [h, hb]; rfl), fun h hb => ?_, fun h hle hb => hlane ?_, fun h hlt => shflVal_none ?_,
    fun h => hlane (by rw [h]; rfl), fun h => hlane (by rw [h]; rfl), fun hb => bcastVal_lane hb, fun hb => ?_,
    getLsbD_matchVal hj, getLsbD_ballot _ hj, voteVal_all _, voteVal_any _, voteVal_eq _, fun v => mem_prefixVals false v,
    fun v => mem_prefixVals true v, ?_⟩
  · rw [hlane (show shflLane f.sub L b = some b by rw [h]; rfl), if_neg (hfar hb)]
  · rw [h, ← hb]; exact if_pos hle
  · rw [h]; exact if_neg (Nat.not_le.2 hlt)
  · exact (bcastVal_lane rfl).trans (if_neg (hfar hb))
  intro t r
  refine ⟨fun ht hvs hlt => ?_, fun ht hvs => ?_, rfl, rfl, rfl, ?_, fun ht => ?_, fun ht n hlo hhi => ?_⟩
  · have hf : f.ty ≠ .f32 :=
      (by decide : ∀ t ∈ [Ty.i32, Ty.u32, Ty.i64, Ty.u64, Ty.b32, Ty.b64], t ≠ .f32) _ ht
    exact ⟨reduxVal_add hf hvs hlt, reduxVal_min hf hvs hlt, reduxVal_max hf hvs hlt, fun i _ => reduxVal_bits hf hvs i,
      fun op => reduxVal_int_quiet hf op vs⟩
  · intro ftz value nan below
    have hbelow (y z : FP) : below y z ↔ y.ltZ z = true := FP.ltZ_iff.symm
    refine ⟨fun hperm => ?_, ?_, fun hnans => ⟨?_, ?_⟩, fun hnum => ⟨?_, ?_⟩⟩
    · have hws : ws ≠ [] := fun h => hvs (h ▸ hperm).eq_nil
      rw [reduxVal_f32_sum ht hvs, reduxVal_f32_sum ht hws, reduxSum_perm hperm]
    · intro q hfin hq
      show reduxVal f 0 m vs = _
      rw [reduxVal_f32_sum ht hvs, reduxSum_finite hfin hq]
      rfl
    · exact reduxVal_f32_nans ht hvs false hnans
    · exact reduxVal_f32_nans ht hvs true hnans
    · simp only [hbelow]
      exact reduxVal_f32_number ht false hnum
    · simp only [hbelow]
      exact reduxVal_f32_number ht true hnum
  · rw [reduxVal_nil, reduxIdentity_and]
  · have hty : f.ty = .f32 := ht
    rw [reduxVal_nil, reduxVal_nil, hty]
    exact ⟨rfl, rfl⟩
  · have hf : f.ty ≠ .f32 := (by decide : ∀ t ∈ [Ty.i32, Ty.u32, Ty.i64, Ty.u64], t ≠ .f32) _ ht
    exact reduxIdentity_bounds hf hlo hhi

end Machine

end Sys2Proof
end

section
/-!
PROOFS. The control instructions complete: no fault of their own where every active lane's target, depth or record is good, and then
their effect.
-/
namespace Sys2Proof.Machine

variable {i : Instr} {e : Entry} {c : Ctl} {s : State} {x : Ctx} {f : CFmt}

/-- An instruction that passes the checks and finds no fault of its own under `p` leaves `d`. -/
theorem runs_of_exec {body : State → Ctx → Except Trap Done} {p : State → Ctx → Prop} {d : State → Ctx → Done}
    (hexec : exec i = issue i c e body) (hbody : ∀ s x, p s x → body s x = .ok (d s x)) : Runs i e c p d :=
  fun _ _ hpass hp => hexec ▸ issue_ok hpass (hbody _ _ hp)

/-! ### No lane faults -/

theorem laneTrap_none {cause : Cause} {lanes : List Nat} {p : Nat → Option W64} (h : ∀ L ∈ lanes, p L = none) :
    laneTrap cause lanes p = none := by
  have hfind : (lanes.findSome? fun L => (p L).map fun a => (L, a)) = none :=
    List.findSome?_eq_none_iff.2 fun L hL => by rw [h L hL, Option.map_none]
  simp only [laneTrap, hfind]

theorem lanesTrap_none {cause : Cause} {p : Nat → Bool} {code : Nat → W32} (h : ∀ L ∈ x.lanes, p L = false) :
    lanesTrap cause x p code = none := by
  have hfilter : x.lanes.filter p = [] := List.filter_eq_nil_iff.2 fun L hL => by rw [h L hL]; exact Bool.false_ne_true
  simp only [lanesTrap, hfilter]

theorem targetTrap_none {t : Nat → W64} (h : ∀ L ∈ x.lanes, (t L).extractLsb' 0 4 = 0) : targetTrap x t = none :=
  laneTrap_none fun L hL => by simp only [unaligned, h L hL, bne_self_eq_false, Bool.false_eq_true, if_false]

theorem orTraps_ok {ts : List (Option Trap)} {d : Done} (h : ∀ t ∈ ts, t = none) : orTraps ts d = .ok d := by
  have hfind : ts.findSome? id = none := List.findSome?_eq_none_iff.2 h
  simp only [orTraps, hfind]

/-! ### Bodies without a fault -/

/-- CALL with aligned targets and depths that the caller's CD allows (R135, R136). -/
theorem callBody_ok (halign : ∀ L ∈ x.lanes, (if f.sub == 0 then x.direct f.ops.imm else s.op64 x f.ops.a L).extractLsb' 0 4 = 0)
    (hdepth : ∀ L ∈ x.lanes, f.depth.toNat ≤ (x.st.lane L).cd.toNat + 1) :
    callBody f s x = .ok (Done.jump x
      ((s.writeNow x (s.writesTo x f.ops.d true x.link)).updLanes x x.active fun _ l =>
        { l with cd := f.depth, nest := l.nest + 1 })
      fun L => if f.sub == 0 then x.direct f.ops.imm else s.op64 x f.ops.a L) :=
  orTraps_ok (List.forall_mem_cons.2 ⟨lanesTrap_none fun L hL => decide_eq_false (Nat.not_lt.2 (hdepth L hL)),
    List.forall_mem_singleton.2 (targetTrap_none halign)⟩)

/-- RET with links of CALL's form and no live frame at the depth that it leaves (R137). -/
theorem retBody_ok (h : ∀ L ∈ x.lanes, (s.op64 x f.ops.a L).getLsbD 3 = false ∧
      2 ≤ ((s.op64 x f.ops.a L).extractLsb' 0 3).toNat ∧ (x.st.lane L).frameLive = false) :
    retBody f s x = .ok (Done.jump x
      (s.updLanes x x.active fun L l => { l with cd := (s.op64 x f.ops.a L).extractLsb' 0 3, nest := l.nest - 1 })
      fun L => s.op64 x f.ops.a L &&& ~~~0xF#64) := by
  refine orTraps_ok (List.forall_mem_cons.2 ⟨laneTrap_none fun L hL => ?_, List.forall_mem_cons.2 ⟨lanesTrap_none fun L hL => ?_,
    List.forall_mem_singleton.2 (lanesTrap_none fun L hL => ?_)⟩⟩)
  all_goals obtain ⟨hbit, hcd, hlive⟩ := h L hL
  · rw [hbit]; rfl
  · exact decide_eq_false (Nat.not_lt.2 hcd)
  · exact hlive

theorem swrBody_ok (hactive : x.active ≠ 0)
    (hlegal : fmodeLegal (loWord (s.operand x .b32 false f.ops.a f.ops.imm x.lead)) = true) :
    swrBody f s x = .ok (Done.now x ((s.updStrand x.blk.uid x.sid fun st =>
      { st with fmode := loWord (s.operand x .b32 false f.ops.a f.ops.imm x.lead) }).errsGone (· == .fmode x.blk.uid x.sid))) := by
  simp only [swrBody, if_neg hactive, hlegal, Bool.not_true, Bool.false_eq_true, if_false]

/-- SPAWN with addresses of 64-byte records that are mapped (R141). -/
theorem spawnBody_ok (hactive : x.active ≠ 0) (h : ∀ L ∈ x.lanes, tagOf (s.op64 x f.ops.a L) = 0 ∧
      (s.op64 x f.ops.a L).extractLsb' 0 6 = 0 ∧ s.recordMapped x (s.op64 x f.ops.a L) = true) :
    spawnBody f s x = .ok (Done.later x (s.startOp x .rel .dev false
      (.spawn (x.lanes.flatMap fun L => predPlace f.ops.d L)
        (x.lanes.map fun L => (L, s.op64 x f.ops.a L, loWord (s.operand x .u32 false f.ops.b f.ops.imm L))) []))) := by
  refine (if_neg hactive).trans (orTraps_ok (List.forall_mem_cons.2 ⟨laneTrap_none fun L hL => ?_,
    List.forall_mem_cons.2 ⟨laneTrap_none fun L hL => ?_, List.forall_mem_singleton.2 (laneTrap_none fun L hL => ?_)⟩⟩))
  all_goals obtain ⟨htag, halign, hmapped⟩ := h L hL
  · exact if_neg (not_not_intro htag)
  · exact if_neg (not_not_intro halign)
  · exact if_pos hmapped

/-! ### The obligation -/

/-- Settles O20: each arm's body answers its effect under the conditions on its lanes. -/
theorem controlRuns : Obligations.ControlRuns := by
  intro c f
  refine ⟨runs_of_exec rfl fun _ _ _ => rfl, runs_of_exec rfl fun _ _ _ => rfl,
    runs_of_exec rfl fun _ _ h => orTraps_ok (List.forall_mem_singleton.2 (targetTrap_none h)),
    runs_of_exec rfl fun _ _ h => orTraps_ok (List.forall_mem_singleton.2 (targetTrap_none h)),
    runs_of_exec rfl fun _ _ ⟨halign, hdepth⟩ => callBody_ok halign hdepth,
    runs_of_exec rfl fun _ _ h => retBody_ok h, runs_of_exec rfl fun _ _ _ => rfl,
    runs_of_exec (show _ = execNap c f from rfl) fun _ _ hactive => ?_, runs_of_exec rfl fun s x _ => ?_,
    runs_of_exec rfl fun _ _ ⟨hactive, hlegal⟩ => swrBody_ok hactive hlegal,
    runs_of_exec rfl fun _ _ ⟨hactive, h⟩ => spawnBody_ok hactive h,
    runs_of_exec (show _ = execTrace c f from rfl) fun _ _ hactive => if_neg hactive⟩
  · dsimp only
    rw [if_neg hactive]
    rfl
  · dsimp only [srdBody]
    split
    case isTrue => rfl
    case isFalse => rfl

end Sys2Proof.Machine
end

section
/-!
PROOFS. The caller's decisions under the default call sheet: PLACEMENT_DECISION branch by branch, and the steps that offer a SPAWN's
records, append a trace record and end a block.
-/
namespace Sys2Proof.Machine

variable {s : State} {uid id : Nat} {b : Block} {o : Op}

/-! ### PLACEMENT_DECISION (R296 to R307) -/

theorem placementDecision_broken {tq : Nat × Nat} (hmay : s.mayDecide = true) (hq : s.brokenQueue = some tq) :
    exec .placementDecision s = .next (s.queueStop tq.1 tq.2) := by
  simp only [exec, execPlacementDecision, hmay, hq, Bool.not_true, Bool.false_eq_true, if_false]

/-- With no queue to stop, a decision first looks at the doorbells. -/
theorem placementDecision_examines {t q : Nat} {rest : List (Nat × Nat)} {u : State} (hmay : s.mayDecide = true)
    (hq : s.brokenQueue = none) (hbells : s.caller.doorbells = (t, q) :: rest) (hu : s.examine t q = .did u) :
    exec .placementDecision s = .next u := by
  simp only [exec, execPlacementDecision, hmay, hq, hbells, hu, Bool.not_true, Bool.false_eq_true, if_false]

/-- A doorbell with nothing to do for it is answered. -/
theorem placementDecision_answers {t q : Nat} {rest : List (Nat × Nat)} (hmay : s.mayDecide = true)
    (hq : s.brokenQueue = none) (hbells : s.caller.doorbells = (t, q) :: rest) (hu : s.examine t q = .nothing) :
    exec .placementDecision s = .next (s.setCaller { s.caller with doorbells := rest }) := by
  simp only [exec, execPlacementDecision, hmay, hq, hbells, hu, Bool.not_true, Bool.false_eq_true, if_false]

/-- With no doorbell either, it chooses a queue. -/
theorem placementDecision_serves {e : Eligible} {aged : Bool} (hmay : s.mayDecide = true) (hq : s.brokenQueue = none)
    (hbells : s.caller.doorbells = []) (hchoice : s.chooseQueue s.eligible = some (e, aged)) (hlog : s.logsWork (e, aged) = true) :
    exec .placementDecision s = .next (s.serveQueue e aged) := by
  simp only [exec, execPlacementDecision, hmay, hq, hbells, hchoice, hlog, Bool.not_true, Bool.false_eq_true, if_false, if_true]

/-- With no queue to serve, it moves banks for one that waits for them. -/
theorem placementDecision_moves {core : Nat} {v : W64} (hmay : s.mayDecide = true) (hq : s.brokenQueue = none)
    (hbells : s.caller.doorbells = []) (hchoice : s.chooseQueue s.eligible = none) (hbanks : s.wantsBanks = some (core, v)) :
    exec .placementDecision s = .next { s with agenda := .spownWrite core v :: s.agenda } := by
  simp only [exec, execPlacementDecision, hmay, hq, hbells, hchoice, hbanks, Bool.not_true, Bool.false_eq_true, if_false]

/-! ### Operations that the caller serves (R141, R142) -/

/-- A SPAWN's next record is offered, and with the last of them the operation completes. -/
theorem csSpawn_offers {dst : Dst} {L : Nat} {va : W64} {q : W32} {rest : List (Nat × W64 × W32)} {done : List (Nat × Bool)}
    (ho : s.opOf uid id = some (b, o)) (hk : o.kind = .spawn dst ((L, va, q) :: rest) done)
    (hearlier : s.earlierDone b o.strand o.id (oneLane L) .dev = true)
    (hmay : s.hasQueue b.ten q.toNat = true ∨ s.mayDecide = true) :
    let r := s.offer b q.toNat va
    let done := done ++ [(L, r.2)]
    exec (.csSpawn uid id) s = .next
      (if rest.isEmpty then
        (r.1.writeResult b o.strand o.id ((spawnWrites dst done).filter fun w => !o.dropped.contains w.tgt)).completeOp uid o
      else r.1.updBlock uid fun x => x.putOp { o with kind := .spawn dst rest done }) := by
  have hmay : (s.hasQueue b.ten q.toNat || s.mayDecide) = true := (Bool.or_eq_true _ _).mpr hmay
  simp only [exec, execCsSpawn, ho, hk, hearlier, hmay, Bool.not_true, Bool.or_self, Bool.false_eq_true, if_false]
  split
  · rfl
  · rfl

theorem traceRecordDone_appends {r : List Byte} (ho : s.opOf uid id = some (b, o)) (hk : o.kind = .trace r) :
    exec (.traceRecordDone uid id) s = .next ((s.traceAppend b.ten r).completeOp uid o) := by
  simp only [exec, execTraceRecordDone, ho, hk]

/-! ### Ends of blocks (R138, R309, R322) -/

theorem blockEnd_ends (hb : s.block uid = some b) (hfatal : b.fatal = none) (hmode : b.mode.canEnd = true) (hover : b.over = true)
    (hmark : b.noMark = true) (hdone : s.allDone b = true) :
    exec (.blockEnd uid) s = .next (((s.freeSlots b).endBlock uid .ended).notify (.csBlkend b.core b.quad b.slot)) := by
  simp only [exec, execBlockEnd, hb, hfatal, hmode, hover, hmark, hdone, Option.isNone_none, Bool.and_self, if_true]

theorem fatalTrap_ends {r : TrapRec} (hb : s.block uid = some b) (hfatal : b.fatal = some r) (hmode : b.mode.killable = true)
    (hdone : s.allDone b = true) :
    let t := (s.freeSlots b).endBlock uid .ended
    let t := t.setCaller { t.caller with debugs := t.caller.debugs.filter fun v => v.key != uid }
    exec (.fatalTrap uid) s =
      .next ((if r.fatal then t.trapAppend b.ten r else t).notify (.csBlkend b.core b.quad b.slot)) := by
  simp only [exec, execFatalTrap, hb, hfatal, hmode, hdone, Bool.not_true, Bool.or_self, Bool.false_eq_true, if_false]

/-! ### The obligation -/

/-- Settles O44: each branch of the decision, and each step of an operation or of a block's end, by its own lemma. -/
theorem decisionSteps : Obligations.DecisionSteps := by
  intro s
  exact ⟨fun tq hmay hq => placementDecision_broken hmay hq,
    fun t q rest hmay hq hbells => ⟨fun u hu => placementDecision_examines hmay hq hbells hu,
      fun hu => placementDecision_answers hmay hq hbells hu⟩,
    fun hmay hq hbells => ⟨fun e aged hchoice hlog => placementDecision_serves hmay hq hbells hchoice hlog,
      fun core v hchoice hbanks => placementDecision_moves hmay hq hbells hchoice hbanks⟩,
    fun uid id b o dst L va q rest done ho hk hearlier hmay => csSpawn_offers ho hk hearlier hmay,
    fun uid id b o r ho hk => traceRecordDone_appends ho hk,
    fun uid b hb hfatal hmode hover hmark hdone => blockEnd_ends hb hfatal hmode hover hmark hdone,
    fun uid b r hb hfatal hmode hdone => fatalTrap_ends hb hfatal hmode hdone⟩

end Sys2Proof.Machine
end

section
/-!
PROOFS. The matrix engine: its tiles and planes after MZERO and PSWAP, the steps of the operation at the head of its queue, and the
issue of ACCLD.
-/
namespace Sys2Proof.Machine

variable {s : State} {uid : Nat} {b : Block} {o : EngOp} {q : List EngOp} {f : TFmt}

/-! ### Tiles and the engine after an update -/

@[simp] theorem Engine.tile_setTile_self (e : Engine) (n : Nat) (t : Tile) : (e.setTile n t).tile n = t :=
  SMap.get_set_self _ _ _ _

theorem Engine.tile_setTile_other (e : Engine) {n k : Nat} (t : Tile) (h : k ≠ n) : (e.setTile n t).tile k = e.tile k :=
  SMap.get_set_other _ _ _ h

/-- The engine of a block that has one, after an update of it. -/
theorem State.engine_updEngine (hb : s.block b.uid = some b) (heng : b.eng.isSome = true) (g : Engine → Engine) :
    (((s.updEngine b.uid g).block b.uid).getD b).engine = g b.engine := by
  obtain ⟨e, he⟩ := Option.isSome_iff_exists.1 heng
  have hself : (s.updEngine b.uid g).block b.uid = some { b with eng := b.eng.map g } :=
    s.block_updBlock_self _ hb fun _ => rfl
  simp only [hself, Option.getD_some, Block.engine, he, Option.map_some]

theorem State.errsGone_plain (herrs : s.mem.errs = []) (p : ErrLoc → Bool) : s.errsGone p = s := by
  rw [State.errsGone, herrs, List.isEmpty_nil, if_pos rfl]

/-! ### MZERO and PSWAP (R218, R219) -/

/-- The engine after MZERO of tile `n`, in INT64 or FP64 mode. -/
def Engine.zeroed (n : Nat) (int : Bool) (e : Engine) : Engine :=
  { e.setTile n { Tile.start with int := int } with active := Plane.start, shadow := Plane.start }

/-- The engine after PSWAP. -/
def Engine.swapped (e : Engine) : Engine := { e with active := e.shadow, shadow := e.active }

theorem engEffect_mzero {c : Ctl} (hi : o.cap.instr = .mzero c f) (herrs : s.mem.errs = []) :
    s.engEffect b o = (s.updEngine b.uid (Engine.zeroed f.ops.d.num f.int), none) := by
  have hengine : s.engEffect b o = s.engMzero b f := by simp only [State.engEffect, State.engScan, hi]
  rw [hengine]
  exact congrArg (·, none) (State.errsGone_plain (s := s.updEngine b.uid (Engine.zeroed f.ops.d.num f.int)) herrs _)

/-- With no soft error anywhere, none goes with its plane. -/
theorem engEffect_pswap {c : Ctl} (hi : o.cap.instr = .pswap c f) (herrs : s.mem.errs = []) :
    s.engEffect b o = (s.updEngine b.uid Engine.swapped, none) := by
  have hengine : s.engEffect b o = s.engPswap b := by simp only [State.engEffect, State.engScan, hi]
  rw [hengine, State.engPswap]
  simp only [State.updEngine, State.updBlock_mem, herrs, List.map_nil]
  rw [← herrs]
  rfl

/-- Settles O34: each effect is one update of the engine (`engEffect_mzero`, `engEffect_pswap`), and the laws of tiles read it
off. -/
theorem tilesAndPlanes : Obligations.TilesAndPlanes := by
  intro s b o hb heng herrs
  refine ⟨fun c f hi => ?_, fun c f hi => ?_⟩
  · rw [engEffect_mzero hi herrs]
    dsimp only
    rw [State.engine_updEngine hb heng]
    have htile : (b.engine.zeroed f.ops.d.num f.int).tile f.ops.d.num = { Tile.start with int := f.int } :=
      Engine.tile_setTile_self _ _ _
    rw [htile]
    have hothers : ∀ n, n ≠ f.ops.d.num → (b.engine.zeroed f.ops.d.num f.int).tile n = b.engine.tile n :=
      fun n hn => Engine.tile_setTile_other _ _ hn
    exact ⟨rfl, rfl, rfl, rfl, fun k => ⟨rfl, rfl, rfl⟩, hothers, rfl, rfl, rfl, rfl, rfl, rfl, rfl⟩
  · rw [engEffect_pswap hi herrs]
    dsimp only
    rw [State.engine_updEngine hb heng]
    exact ⟨rfl, rfl, rfl, rfl, fun n => rfl, rfl, rfl, rfl, rfl, rfl⟩

/-! ### The operation at the head of the engine (R213, R228, R288) -/

theorem engHead_eq (hb : s.block uid = some b) (hq : b.engine.queue = o :: q) (hplay : (s.core b.core).tile.inPlay = true) :
    s.engHead uid = some (b, o) := by
  simp only [State.engHead, hb, hplay, if_true, hq, List.head?_cons, Option.map_some]

theorem engineOpComplete_ends (hhead : s.engHead uid = some (b, o)) (hmiter : o.miter? = none)
    (hlocks : s.needsLocks b o.cap = none) (hready : s.engReady b o = true) :
    exec (.engineOpComplete uid) s = .next ((endEngine b o (s.engEffect b o)).closeAsks uid (s.engAsks b o)) := by
  simp only [exec, execEngineOpComplete, hhead, hmiter, hlocks, hready, Option.isSome_none, Bool.not_true, Bool.or_self,
    Bool.false_eq_true, if_false]

/-- A MITER goes on unless its block is at rest in the debugger and has not trapped fatally (R328). -/
theorem miterIteration_iterates (hhead : s.engHead uid = some (b, o)) (hmiter : o.miter? = some f)
    (hrun : b.mode.isDebug = true → b.fatal.isSome = true) :
    exec (.miterIteration uid) s = .next (s.miterIter b o f) := by
  have hrests : ¬(b.mode.isDebug && b.fatal.isNone) = true := by
    simpa only [Bool.and_eq_true, not_and, Option.isNone_iff_eq_none, ← Option.ne_none_iff_isSome] using hrun
  simp only [exec, execMiterIteration, hhead, hmiter, if_neg hrests]

theorem tileUpdateLock_locks {l : Nat} {ls : List Nat} (hhead : s.engHead uid = some (b, o))
    (hlocks : s.needsLocks b o.cap = some f) (hlines : s.toLock b o f = .ok (l :: ls)) (hmay : s.mayLock b o l = true) :
    let t := s.takeToken b.core b.ten
    exec (.tileUpdateLock uid) s = .next (t.setMem (t.mem.lockLine l uid)) := by
  simp only [exec, execTileUpdateLock, hhead, hlocks, hlines, hmay, Bool.not_true, Bool.false_eq_true, if_false]

theorem tileUpdateApply_applies (hhead : s.engHead uid = some (b, o)) (hlocks : s.needsLocks b o.cap = some f)
    (hlines : s.toLock b o f = .ok []) (hplay : (s.core b.core).tile.inPlay = true) :
    exec (.tileUpdateApply uid) s = .next (s.applyUpdate b o f) := by
  simp only [exec, execTileUpdateApply, hhead, hlocks, hlines, hplay, if_true]

/-- Settles O33: each step finds the operation at the head (`engHead_eq`) and takes the branch of its kind. -/
theorem engineSteps : Obligations.EngineSteps := by
  intro s uid b o q hb hq hplay
  have hhead := engHead_eq hb hq hplay
  exact ⟨fun hmiter hlocks hready => engineOpComplete_ends hhead hmiter hlocks hready,
    fun f hmiter hrun => miterIteration_iterates hhead hmiter hrun,
    fun f l ls hlocks hlines hmay => tileUpdateLock_locks hhead hlocks hlines hmay,
    fun f hlocks hlines => tileUpdateApply_applies hhead hlocks hlines hplay⟩

/-! ### ACCLD (R221, R222) -/

/-- The operation that an ACCLD leaves in the engine's queue, its values bound from the tile (R213, R222). -/
def accldOp (f : TFmt) (s : State) (x : Ctx) : EngOp :=
  let t := x.blk.engine.tile f.ops.a.num
  { id := s.nextId, decl := 0, dst := x.lanes.flatMap fun L => s.placeOf x f.ops.d f.fmt.wide L, locs := [], started := false,
    cap := { instr := .accld x.ctl f, vals := [], counts := 0, lane := x.lead, pc := x.fr.pc, signers := [x.signer s.nextId],
             dropped := [] },
    bound := x.lanes.map fun L =>
      let v := s.op32 x f.ops.b f.ops.imm L
      (L, accldBits f.fmt t (t.at (coordRow v) (coordCol v))) }

theorem accldBody_ok {x : Ctx} (hactive : x.active ≠ 0) (hdrain : (s.drain x.blk f.ops.a.num).2 = none) :
    let t := (s.drain x.blk f.ops.a.num).1
    accldBody f s x = .ok (Done.later x { t.updBlock x.blk.uid fun b =>
      { b with eng := b.eng.map fun e => { e with queue := e.queue ++ [accldOp f t x] } } with nextId := t.nextId + 1 }) := by
  have hdrained : s.drain x.blk f.ops.a.num = ((s.drain x.blk f.ops.a.num).1, none) := Prod.ext rfl hdrain
  refine (if_neg hactive).trans ?_
  rw [hdrained]
  rfl

/-- Settles O25: with a lane active and a tile that drains without a fault, the operation enters the queue (`accldBody_ok`); its
instruction's control fields are those that the context issues. -/
theorem accldRuns : Obligations.AccldRuns := by
  intro c f s x hpass ⟨hactive, hdrain⟩
  obtain ⟨-, -, rfl, -⟩ := ctx_eq hpass.ctx
  exact issue_ok hpass (accldBody_ok hactive hdrain)

end Sys2Proof.Machine
end

section
/-!
PROOFS. TRAP, BKPT and TRET, the context instructions and the frame instructions complete: no fault of their own where their
conditions hold, and then their effect.
-/
namespace Sys2Proof.Machine

variable {s : State} {x : Ctx} {i : Instr} {c : Ctl} {f : SFmt}

/-! ### TRAP, BKPT and TRET (R232, R320, R321) -/

theorem trapBody_traps (cause : Cause) (g : CFmt) (hactive : x.active ≠ 0) :
    trapBody cause g s x = .error (Trap.of cause x.active 0 (trapCode g)) := if_neg hactive

theorem trapBody_idle (cause : Cause) (g : CFmt) (hactive : x.active = 0) : trapBody cause g s x = .ok (Done.now x s) :=
  if_pos hactive

/-- TRET in a handler, with resume PCs of R321 in the records. -/
theorem tretBody_ok (hcoop : x.blk.inCoop = false) (h : ∀ L ∈ x.lanes, (x.st.lane L).traprec ≠ 0 ∧
      (s.trapReturn x.blk x.sid L).extractLsb' 0 4 = 0 ∧ (s.trapReturn x.blk x.sid L).extractLsb' 56 8 = 0) :
    tretBody s x = .ok (Done.jump x (s.updLanes x x.active fun _ l => { l with traprec := 0 })
      fun L => s.trapReturn x.blk x.sid L) := by
  have hlegal : tretIllegal x = false := by
    refine Bool.or_eq_false_iff.2 ⟨hcoop, List.any_eq_false.2 fun L hL => ?_⟩
    obtain ⟨hrec, -, -⟩ := h L hL
    exact mt beq_iff_eq.1 hrec
  refine (if_neg (Bool.eq_false_iff.1 hlegal)).trans (orTraps_ok (List.forall_mem_singleton.2 (laneTrap_none fun L hL => ?_)))
  obtain ⟨-, halign, hhigh⟩ := h L hL
  simp only [resumeBad, unaligned, halign, hhigh, bne_self_eq_false, Bool.or_self, Bool.false_eq_true, if_false]

/-- Settles O21: with a lane active TRAP and BKPT have no effect but their trap; TRET's body answers its effect in a handler. -/
theorem trapInstructions : Obligations.TrapInstructions := by
  intro c g
  exact ⟨fun s x hpass hactive => issue_trap hpass (trapBody_traps .trap g hactive),
    fun s x hpass hactive => issue_trap hpass (trapBody_traps .bkpt g hactive),
    runs_of_exec rfl fun s x hidle => trapBody_idle .trap g hidle,
    runs_of_exec rfl fun s x hidle => trapBody_idle .bkpt g hidle,
    runs_of_exec rfl fun s x ⟨hcoop, h⟩ => tretBody_ok hcoop h⟩

/-! ### CTXST, CTXLD and SVDONE (R233, R234) -/

/-- The faults of a context move: the checks of R169, and then poison in what it reads. -/
theorem orTraps_append_ok {ts : List (Option Trap)} {t : Option Trap} {d : Done} (hts : ts.findSome? id = none)
    (ht : t = none) : orTraps (ts ++ [t]) d = .ok d := by
  refine orTraps_ok fun u hu => ?_
  rcases List.mem_append.1 hu with hmem | hlast
  · exact List.findSome?_eq_none_iff.1 hts u hmem
  · exact (List.mem_singleton.1 hlast).trans ht

/-- Settles O23: a context move whose places pass the checks and hold no poison has its effect; SVDONE branches on its SUB. -/
theorem contextRuns : Obligations.ContextRuns := by
  intro c f
  refine ⟨runs_of_exec (show _ = execCtxst c f from rfl) fun s x ⟨hactive, hchecks, hpoison⟩ =>
      (if_neg hactive).trans (orTraps_append_ok hchecks hpoison),
    runs_of_exec (show _ = execCtxld c f from rfl) fun s x ⟨hactive, hchecks, hpoison⟩ =>
      (if_neg hactive).trans (orTraps_append_ok hchecks hpoison),
    runs_of_exec (show _ = execSvdone c f from rfl) fun s x hactive => (if_neg hactive).trans ?_⟩
  dsimp only
  split
  case isTrue => rfl
  case isFalse => rfl

/-! ### Shared frames (R207, R208) -/

/-- The fragments that have signed the block's open generation. -/
def Block.innerSigners (b : Block) : List Signer :=
  match b.inner.cap with
  | some p => p.signers
  | none => []

/-- The block's threads that have signed once the active lanes have. -/
def Ctx.innerSig (x : Ctx) : BitVec 1024 := x.blk.inner.sig ||| threadSet x.blk x.sid (x.active &&& ~~~x.innerSigned)

/-- The fragments of the issuing block that have signed the cluster's open generation. -/
def State.clusterSigners (s : State) (x : Ctx) : List Signer :=
  ((s.cluster x.blk.cluster).signers.filter fun g => g.1 == x.blk.uid).map (·.2)

/-- The cluster's threads that have signed once the active lanes have. -/
def State.clusterSig (s : State) (x : Ctx) : BitVec 4096 :=
  (s.cluster x.blk.cluster).sig ||| clusterBits x.blk.rank (threadSet x.blk x.sid (x.active &&& ~~~(s.clusterMarks x)))

/-- A hold of the fragment at its own word until the last signature. -/
def Done.signed (x : Ctx) (s : State) : Done :=
  { st := s, pcOf := fun _ => x.fr.pc, gone := 0, nap := none, hold := .shared, counts := true }

section
variable {enter : Bool} (hactive : x.active ≠ 0)
include hactive

/-- Every live thread of the block has signed: the frame opens or closes, and the held signers go on. -/
theorem blockSignBody_last (htrap : sharedTrap x (x.active &&& ~~~x.innerSigned) 2 enter = none)
    (hlast : x.blk.liveThreads &&& ~~~x.innerSig = 0) :
    blockSignBody i enter s x = .ok (Done.now x ((s.blockFrameOp x.blk i).updBlock x.blk.uid fun b =>
      { b.freeShared x.blk.innerSigners with inner := Conv.empty })) := by
  refine (if_neg hactive).trans ?_
  simp only [htrap]
  exact congrArg Except.ok (if_pos (decide_eq_true hlast))

theorem blockSignBody_held (htrap : sharedTrap x (x.active &&& ~~~x.innerSigned) 2 enter = none)
    (hmore : x.blk.liveThreads &&& ~~~x.innerSig ≠ 0) :
    blockSignBody i enter s x = .ok (Done.signed x ((s.uncount x x.blk.innerSigners).updBlock x.blk.uid fun b =>
      { b with inner := { decl := x.blk.liveThreads, sig := x.innerSig,
                          cap := some (b.inner.captured i [] 0 x
                            (x.sharedSigner s.nextId (x.active &&& ~~~x.innerSigned) x.blk.innerSigners)) } })) := by
  refine (if_neg hactive).trans ?_
  simp only [htrap]
  exact congrArg Except.ok (if_neg (ne_true_of_eq_false (decide_eq_false hmore)))

/-- The same for the cluster's frame. -/
theorem clusterSignBody_last (htrap : sharedTrap x (x.active &&& ~~~(s.clusterMarks x)) 1 enter = none)
    (hlast : s.clusterLive x.blk &&& ~~~(s.clusterSig x) = 0) :
    clusterSignBody i enter s x = .ok (Done.now x
      (((s.cluster x.blk.cluster).signers.foldl (fun t g => t.updBlock g.1 fun b => b.freeShared [g.2])
        (s.clusterFrameOp x.blk i)).putCluster { s.cluster x.blk.cluster with sig := 0, cap := none, signers := [] })) := by
  refine (if_neg hactive).trans ?_
  simp only [htrap]
  exact congrArg Except.ok (if_pos (decide_eq_true hlast))

theorem clusterSignBody_held (htrap : sharedTrap x (x.active &&& ~~~(s.clusterMarks x)) 1 enter = none)
    (hmore : s.clusterLive x.blk &&& ~~~(s.clusterSig x) ≠ 0) :
    let cl := s.cluster x.blk.cluster
    clusterSignBody i enter s x = .ok (Done.signed x ((s.uncount x (s.clusterSigners x)).putCluster
      { cl with decl := s.clusterLive x.blk, sig := s.clusterSig x, cap := some (cl.cap.getD i),
                lane := if cl.sig = 0 then x.lead else cl.lane,
                signers := cl.signers ++ [(x.blk.uid,
                  x.sharedSigner s.nextId (x.active &&& ~~~(s.clusterMarks x)) (s.clusterSigners x))] })) := by
  refine (if_neg hactive).trans ?_
  simp only [htrap]
  exact congrArg Except.ok (if_neg (ne_true_of_eq_false (decide_eq_false hmore)))

end

/-! ### FATOM (R210) -/

theorem fatomBody_ok (hactive : x.active ≠ 0) (htrap : s.fatomTrap x f = none) :
    fatomBody f s x = .ok (Done.later x (s.startOp x f.order (depthScope f.sd.toNat) false (.atomic (fatomSub f.sub) f.ty
      (if f.ops.d.unused then [] else x.lanes.flatMap fun L => s.placeOf x f.ops.d f.ty.wide L) (s.fatomAccs x f) []))) := by
  refine (if_neg hactive).trans ?_
  simp only [htrap]

/-! ### Private frames and display registers (R202 to R206, R212) -/

/-- A lane at a depth that may have a frame, and has none of its own, may enter one (R205). -/
theorem fenterDepth_ok {l : Lane} (hdepth : 3 ≤ l.cd.toNat) (hnone : ¬(l.top ≠ 0 ∧ l.tnest = l.nest)) :
    (decide (l.cd.toNat < 3) || (l.top != 0 && l.tnest == l.nest)) = false := by
  refine Bool.or_eq_false_iff.2 ⟨decide_eq_false (Nat.not_lt.2 hdepth), Bool.eq_false_iff.2 fun h => hnone ?_⟩
  rwa [Bool.and_eq_true, bne_iff_ne, beq_iff_eq] at h

/-- Settles O19: no fault of FENTER's, FLEAVE's or DSPW's list stands under their conditions; the shared frames branch on the last
signature. -/
theorem frameRuns : Obligations.FrameRuns := by
  intro c f
  refine ⟨runs_of_exec (show _ = execFenter c f from rfl) fun s x ⟨h, hplaces⟩ => orTraps_ok ?_,
    runs_of_exec (show _ = execFleave c f from rfl) fun s x ⟨hlive, hplaces, hpoison⟩ => orTraps_ok ?_,
    runs_of_exec (show _ = execDspw c f from rfl) fun s x h => orTraps_ok ?_,
    runsFixed_of_exec (show _ = execDspr c f from rfl),
    runs_of_exec rfl fun s x ⟨hactive, htrap⟩ => fatomBody_ok hactive htrap,
    ⟨⟨runs_of_exec rfl fun s x ⟨hactive, htrap, hlast⟩ => blockSignBody_last hactive htrap hlast,
      runs_of_exec rfl fun s x ⟨hactive, htrap, hmore⟩ => blockSignBody_held hactive htrap hmore⟩,
     runs_of_exec rfl fun s x ⟨hactive, htrap, hlast⟩ => blockSignBody_last hactive htrap hlast,
     runs_of_exec rfl fun s x ⟨hactive, htrap, hmore⟩ => blockSignBody_held hactive htrap hmore⟩,
    ⟨⟨runs_of_exec rfl fun s x ⟨hactive, htrap, hlast⟩ => clusterSignBody_last hactive htrap hlast,
      runs_of_exec rfl fun s x ⟨hactive, htrap, hmore⟩ => clusterSignBody_held hactive htrap hmore⟩,
     runs_of_exec rfl fun s x ⟨hactive, htrap, hlast⟩ => clusterSignBody_last hactive htrap hlast,
     runs_of_exec rfl fun s x ⟨hactive, htrap, hmore⟩ => clusterSignBody_held hactive htrap hmore⟩⟩
  · have hstack : laneTrap .stack x.lanes (fun L => if x.blk.privlim < (x.st.lane L).fp.toNat + s.op32 x f.ops.a f.ops.imm L
        then some (privPtr (BitVec.ofNat 32 x.blk.privlim)) else none) = none := laneTrap_none fun L hL => by
      obtain ⟨-, -, -, hfits⟩ := h L hL
      exact if_neg (Nat.not_lt.2 hfits)
    simp only [List.forall_mem_cons, List.not_mem_nil, false_implies, implies_true, and_true]
    refine ⟨lanesTrap_none fun L hL => ?_, lanesTrap_none fun L hL => ?_, hstack, hplaces⟩
    all_goals obtain ⟨hdepth, hnone, hsize, -⟩ := h L hL
    · exact fenterDepth_ok hdepth hnone
    · exact hsize
  · exact List.forall_mem_cons.2 ⟨lanesTrap_none fun L hL => by rw [hlive L hL]; rfl,
      List.forall_mem_cons.2 ⟨hplaces, List.forall_mem_singleton.2 hpoison⟩⟩
  · refine List.forall_mem_cons.2 ⟨laneTrap_none fun L hL => ?_, List.forall_mem_singleton.2 (lanesTrap_none fun L hL => ?_)⟩
    all_goals obtain ⟨hnum, hlegal⟩ := h L hL
    · exact if_pos hlegal
    · exact decide_eq_false (Nat.not_lt.2 hnum)

end Sys2Proof.Machine
end

section
/-!
PROOFS. The memory arrays and translation: ranges of a numbered store that are dropped, scrub orders and steps, the handover of
scratchpad banks, soft errors, and a page walk that grants its access.
-/
namespace Sys2Proof.SMap

variable {α : Type}

/-- Leaving out numbers, whatever stands at them, hides those numbers and no others. -/
theorem find_filter_key (m : SMap α) (p : Nat → Bool) (i : Nat) :
    SMap.find (List.filter (fun kv => p kv.1) m) i = if p i then m.find i else none := by
  induction m with
  | nil => simp [find]
  | cons kv m ih =>
    obtain ⟨k, v⟩ := kv
    by_cases hik : i = k
    · subst hik
      cases hp : p i <;> simp [hp, find, ih]
    · cases hp : p k <;> simp [hp, find, hik, ih]

theorem get_dropRange_inside (d : α) (m : SMap α) {lo hi i : Nat} (hlo : lo ≤ i) (hhi : i < hi) :
    (m.dropRange lo hi).get d i = d := by
  unfold get dropRange
  rw [m.find_filter_key (fun k => !(decide (lo ≤ k) && decide (k < hi)))]
  simp [hlo, hhi]

theorem get_dropRange_outside (d : α) (m : SMap α) {lo hi i : Nat} (hout : i < lo ∨ hi ≤ i) :
    (m.dropRange lo hi).get d i = m.get d i := by
  have hkeep : (!(decide (lo ≤ i) && decide (i < hi))) = true := by
    simp only [Bool.not_eq_true', Bool.and_eq_false_iff, decide_eq_false_iff_not]
    omega
  unfold get dropRange
  rw [m.find_filter_key (fun k => !(decide (lo ≤ k) && decide (k < hi))), if_pos hkeep]

end Sys2Proof.SMap

namespace Sys2Proof.Machine

variable {s : State} {stack region port core bank : Nat} {v : W64}

/-! ### Scrubbing (R289, R290) -/

/-- The regions of a stack that are under scrub. -/
def MemSys.scrubsOf (m : MemSys) (stack : Nat) : List Scrub := m.scrubs.filter fun sc => sc.stack == stack

theorem scrubOrder_accepted (hroom : (s.mem.scrubsOf stack).length < scrubMax)
    (hnew : (s.mem.scrubsOf stack).any (fun sc => sc.region == (s.mem.scrubReg stack).region) = false) :
    let m := (s.mem.cachedIn stack (s.mem.scrubReg stack).region).foldl MemSys.sendHome s.mem
    exec (.scrubOrder stack) s =
      .next (s.setMem { m with scrubs := m.scrubs ++ [Scrub.start stack (s.mem.scrubReg stack).region] }) := by
  refine if_neg fun hfull => ?_
  rcases hfull with hlen | hold
  · exact Nat.not_le.2 hroom hlen
  · exact Bool.false_ne_true (hnew.symm.trans hold)

theorem scrubOrder_refused
    (hfull : scrubMax ≤ (s.mem.scrubsOf stack).length ∨
      (s.mem.scrubsOf stack).any (fun sc => sc.region == (s.mem.scrubReg stack).region) = true) :
    exec (.scrubOrder stack) s =
      .next (s.setMem (s.mem.setScrubReg stack { s.mem.scrubReg stack with refused := true })) := if_pos hfull

/-- In a service slot the line below a port's WM is zeroed unless touched, and the region leaves scrub with its last WM. -/
theorem scrubStep_lowers {sc : Scrub} {l : Nat}
    (hfind : s.mem.scrubs.find? (fun q => q.stack == stack && q.region == region) = some sc)
    (hwm : sc.wm.get 0 port = l + 1) (hslot : s.slotAllows .service = true) :
    let m := if sc.touched.contains (port, l) then s.mem else s.mem.zeroLine (scrubLine stack region port l)
    let rest := m.scrubs.filter fun q => !(q.stack == stack && q.region == region)
    exec (.scrubStep stack region port) s =
      .next (s.setMem { m with scrubs := if (sc.lower port).wm.isEmpty then rest else rest ++ [sc.lower port] }) := by
  simp only [exec, execScrubStep, hslot, hfind, hwm, Bool.not_true, Bool.false_eq_true, if_false]

/-! ### Scratchpad banks (R272, R274) -/

theorem spownWrite_refused (hbad : spownOk v = false) : exec (.spownWrite core v) s = .next s.callerError :=
  if_pos (by rw [hbad]; rfl)

/-- Banks of quadrants with no resident block change owner, and go into handover unless they are in it. -/
theorem spownWrite_moves (hok : spownOk v = true)
    (hfree : (movedBanks (s.core core).spown v).any (fun b =>
      s.occupied core (bankOwner (s.core core).spown b) || s.occupied core (bankOwner v b)) = false) :
    exec (.spownWrite core v) s = .next (s.setCore core
      { s.core core with spown := v,
                         zeroing := (s.core core).zeroing ++
                           (movedBanks (s.core core).spown v).filter fun b => !(s.core core).zeroing.contains b }) := by
  simp only [exec, execSpownWrite, hok, hfree, Bool.not_true, Bool.false_eq_true, if_false]

/-- The memories once a bank holds zeros: its bytes, its poison and its soft errors are gone. -/
def MemSys.zeroBank (m : MemSys) (core bank : Nat) : MemSys :=
  let lo := core * spadSize + bank * 32768
  { m with
    spad := m.spad.dropRange lo (lo + 32768)
    spoison := m.spoison.filter fun u => !(decide (lo / 8 ≤ u) && decide (u < (lo + 32768) / 8))
    errs := m.errs.filter fun e => match e.1 with
      | .scratch k a => !(k == core && a / 32768 == bank)
      | _ => true }

theorem bankZeroDone_serves (hzeroing : (s.core core).zeroing.contains bank = true) :
    exec (.bankZeroDone core bank) s = .next ((s.setMem (s.mem.zeroBank core bank)).setCore core
      { s.core core with zeroing := (s.core core).zeroing.filter (· != bank) }) :=
  if_neg (by rw [hzeroing]; exact Bool.false_ne_true)

theorem MemSys.zeroBank_inside (m : MemSys) {a : Nat} (ha : a < 32768) :
    (m.zeroBank core bank).spad.get blankByte (core * 2 ^ 20 + bank * 32768 + a) = 0 :=
  SMap.get_dropRange_inside _ _ (Nat.le_add_right _ _) (Nat.add_lt_add_left ha _)

theorem MemSys.zeroBank_outside (m : MemSys) {a : Nat}
    (ha : a < core * 2 ^ 20 + bank * 32768 ∨ core * 2 ^ 20 + bank * 32768 + 32768 ≤ a) :
    (m.zeroBank core bank).spad.get blankByte a = m.spad.get blankByte a := SMap.get_dropRange_outside _ _ ha

/-! ### Translation (R365, R366, R373) -/

/-- A walk that grants the access enters the TLBs, its leaf logged first where it must be. -/
theorem tlbWalk_fills {quad ten pasid a : Nat} {acc : Access} {x : Xlate} (hva : va56 v = some a)
    (hwalk : s.walk ten pasid a = some x) (hgrants : x.grants acc = true) :
    let log := s.mustLog x acc
    exec (.tlbWalk core quad ten pasid v acc) s =
      .next (((if log then s.logDirty ten x else s).cachePasid pasid).fillTlb (quadId core quad)
        (if log then { x with dirty := true } else x)) := by
  simp only [exec, execTlbWalk, hva, hwalk, hgrants, Bool.not_true, Bool.false_eq_true, if_false]

/-! ### The obligation -/

/-- Settles O40: each branch of a scrub order, of a write of SPOWN and of a walk by its own lemma; a bank in handover loses the range
of its bytes, and a soft error has one branch. -/
theorem arraySteps : Obligations.ArraySteps := by
  intro s
  refine ⟨fun stack => ⟨fun hroom hnew => scrubOrder_accepted hroom hnew, fun hfull => scrubOrder_refused hfull⟩,
    fun stack region port sc l hfind hwm hslot => scrubStep_lowers hfind hwm hslot,
    fun core v hbad => spownWrite_refused hbad,
    fun core v hok hfree => spownWrite_moves hok hfree,
    fun core bank hzeroing => ⟨_, bankZeroDone_serves hzeroing, rfl, rfl, ?zeroing,
      fun a ha => s.mem.zeroBank_inside ha, fun a ha => s.mem.zeroBank_outside ha⟩,
    fun loc c => rfl,
    fun core quad ten pasid va acc a x hva hwalk hgrants => tlbWalk_fills hva hwalk hgrants⟩
  case zeroing => rw [State.core_setCore_self]

end Sys2Proof.Machine
end

section
/-!
PROOFS. The caller's entries under the default call sheet: resumed queues, blocks that end, are lost or leave, a core that sits out,
and the tick.
-/
namespace Sys2Proof.Machine

variable {s : State} {core quad slot : Nat} {b : Block}

/-! ### Blocks leave their quadrant (R309, R310, R314, R327) -/

theorem csBlkend_counts (hb : s.blockIn core quad slot = some b) (hmode : b.mode = .ended) (hmay : s.mayDecide = true) :
    exec (.csBlkend core quad slot) s =
      .next (((s.qsub b.ten b.qnum qLIVEBLK).removeBlock b).countEnd b.ten b.qnum b.gseq
        (if b.fatal.isSome then stFault else stDone)) := by
  simp only [exec, execCsBlkend, hb, hmode, hmay, Bool.not_true, Bool.false_eq_true, if_false]

/-- A lost block leaves a record and a decision; its grid runs it again if it may, and is LOST else. -/
theorem csLost_records {reason : Nat} (hb : s.blockIn core quad slot = some b) (hmode : b.mode = .lost reason)
    (hmay : s.mayDecideN 2 = true) :
    let t := ((s.trapAppend b.ten (lostRecord b)).qadd b.ten b.qnum qQLOST 1).qsub b.ten b.qnum qLIVEBLK
    let u := (t.logDecision (Decision.block kLost reason b)).removeBlock b
    exec (.csLost core quad slot) s =
      .next (if b.hdr.idem then u.goBack b true else u.countEnd b.ten b.qnum b.gseq stLost) := by
  simp only [exec, execCsLost, hb, hmode, hmay, Bool.not_true, Bool.false_eq_true, if_false]

theorem csSaved_frees {kind : Nat} (hb : s.blockIn core quad slot = some b) (hmode : b.mode = .leaving kind) :
    exec (.csSaved core quad slot kind) s = .next (s.removeBlock b) := by
  simp only [exec, execCsSaved, hb, hmode, if_true]

/-! ### CS_SITOUT (R347, R348) -/

/-- Some slice has not yet taken the notice of a core. -/
theorem awaitsNotice_iff : (s.fab.notices.any fun n => n.2 == core) = true ↔ ∃ n ∈ s.fab.notices, n.2 = core := by
  simp only [List.any_eq_true, beq_iff_eq]

theorem csSitout_loses (hnotices : ∀ n ∈ s.fab.notices, n.2 ≠ core) :
    let t := s.setCaller { s.caller with outCores := s.caller.outCores.filter (· != core) ++ [core] }
    exec (.csSitout core) s = .next ((t.blocks.filter fun b => b.core == core).foldl (fun s b => s.sitOutBlock b) t) :=
  if_neg fun hsome => by
    obtain ⟨n, hn, hcore⟩ := awaitsNotice_iff.1 hsome
    exact hnotices n hn hcore

theorem csSitout_waits (hnotices : ∃ n ∈ s.fab.notices, n.2 = core) :
    exec (.csSitout core) s = .next (s.notify (.csSitout core)) := if_pos (awaitsNotice_iff.2 hnotices)

/-! ### CS_TICK (R308, R358) -/

theorem sliceEnded_due {ten e : Nat} (hslice : s.caller.slice = some (ten, e)) (hend : e ≤ s.cycle) : s.sliceEnded ten = true := by
  simp only [State.sliceEnded, hslice, beq_self_eq_true, hend, decide_true, Bool.and_self]

theorem sliceEnded_none (hslice : s.caller.slice = none) (ten : Nat) : s.sliceEnded ten = false := by
  simp only [State.sliceEnded, hslice]

theorem csTick_next_slice {ten e : Nat} (hslice : s.caller.slice = some (ten, e)) (hend : e ≤ s.cycle) :
    exec (.csTick ten) s = .next ((s.askStop (s.tenantBlocks ten) 0).openSlice (nextSliced s.host.quota ten)) :=
  if_pos (sliceEnded_due hslice hend)

/-- A queue of the tenant that finds no quadrant has a block of lower priority asked to stop (log 49). -/
def State.makeRoom (s : State) (ten : Nat) : State :=
  match (s.starved ten).bind (s.victim ten) with
  | some b => s.askStop [b] 1
  | none => s

theorem csTick_periodic (hslice : s.caller.slice = none) :
    exec (.csTick 0) s = .next ((enabledTenants s.host.quota).foldl State.makeRoom s) :=
  (if_neg (sliceEnded_none hslice 0 ▸ Bool.false_ne_true)).trans (if_pos rfl)

/-! ### The obligation -/

/-- Settles O43: the start and a doorbell by definition; the ends of a block, a core that sits out and each kind of tick by its own
lemma. -/
theorem callerSteps : Obligations.CallerSteps := by
  intro s
  exact ⟨rfl, fun ten q => rfl,
    fun core quad slot b hb => ⟨csBlkend_counts hb, fun reason => csLost_records hb, fun kind => csSaved_frees hb⟩,
    fun core => ⟨csSitout_loses, csSitout_waits⟩,
    fun ten e => csTick_next_slice, csTick_periodic⟩

end Sys2Proof.Machine
end

section
/-!
PROOFS. Stopping a block: the decision, the cooperative phase, the saves and the restore; and the commands STOP, STEP, RESUME and
KILL.
-/
namespace Sys2Proof.Machine

variable {s : State} {uid reason slot second base : Nat} {b : Block} {w : W64}

/-! ### STOP_DECISION and DRAIN_TIMEOUT (R27, R308, R315) -/

/-- A running block, or one in the debugger's hands, is chosen for as soon as the choice may be made. -/
theorem stopDecision_decides (hb : s.block uid = some b)
    (hmode : (b.mode = .running ∧ b.fatal = none ∧ b.over = false) ∨ ∃ slot, b.mode = .debug slot) :
    exec (.stopDecision uid reason) s =
      if !s.mayStop b || !s.stopReady uid then .next (s.askStop [b] reason) else .next (s.choose reason b) := by
  rcases hmode with ⟨hmode, hfatal, hover⟩ | ⟨slot, hmode⟩
  · simp only [exec, execStopDecision, hb, hmode, hfatal, hover, Option.isSome_none, Bool.or_self, Bool.false_eq_true, if_false]
  · simp only [exec, execStopDecision, hb, hmode]

theorem stopDecision_chooses (hb : s.block uid = some b) (hmay : s.mayStop b = true) (hready : s.stopReady uid = true)
    (hmode : (b.mode = .running ∧ b.fatal = none ∧ b.over = false) ∨ ∃ slot, b.mode = .debug slot) :
    exec (.stopDecision uid reason) s = .next (s.choose reason b) :=
  (stopDecision_decides hb hmode).trans (if_neg (by rw [hmay, hready]; exact Bool.false_ne_true))

theorem stopDecision_waits (hb : s.block uid = some b) (hwait : s.mayStop b = false ∨ s.stopReady uid = false)
    (hmode : (b.mode = .running ∧ b.fatal = none ∧ b.over = false) ∨ ∃ slot, b.mode = .debug slot) :
    exec (.stopDecision uid reason) s = .next (s.askStop [b] reason) := by
  refine (stopDecision_decides hb hmode).trans (if_pos ((Bool.or_eq_true _ _).mpr ?_))
  rcases hwait with hmay | hready
  · exact .inl (by rw [hmay]; rfl)
  · exact .inr (by rw [hready]; rfl)

theorem stopDecision_opens {r : Nat} (hb : s.block uid = some b) (hmode : b.mode = .preempt slot second r)
    (hrest : b.coopRests = true) : exec (.stopDecision uid reason) s = .next (s.openPhase b slot second r) := by
  simp only [exec, execStopDecision, hb, hmode, hrest, if_true]

/-- A drain past its limit becomes a save of every member, those that have ended among them, when the slots for it are free. -/
theorem drainTimeout_saves {since r : Nat} (hb : s.block uid = some b) (hdrain : b.drain = some (since, r))
    (hlimit : since + 256 * s.caller.cfg.drainlim ≤ s.cycle) (hfatal : b.fatal = none) (hover : b.over = false)
    (hmay : s.mayStop b = true) (hready : s.stopReady uid = true) :
    let f := s.slotsFree b.ten b.qnum (slotsOf b * max b.hdr.cluster 1)
    let husks := (s.clusterBlocks b).filter fun x => x.mode == .husk
    exec (.drainTimeout uid) s = .next (if f.2 then
      husks.foldl (fun t x => t.saveHusk x) ((s.drainingMates b).foldl (fun t x => t.stopMember r (s.progress b) true x) f.1)
      else f.1) := by
  simp only [exec, execDrainTimeout, hb, hdrain, Nat.not_lt.2 hlimit, hfatal, hover, hmay, hready, Option.isSome_none,
    Bool.not_true, Bool.false_eq_true, or_self, if_false]
  split
  · rfl
  · rfl

/-! ### The cooperative phase ends (R324) -/

theorem saveBudgetExpiry_closes {r : Nat} {deadline : Option Nat} (hb : s.block uid = some b)
    (hmode : b.mode = .coop slot second deadline r) (hmarked : b.allMarked = true) (hrest : s.phaseRests b = true) :
    exec (.saveBudgetExpiry uid) s = .next (s.closePhase b slot second deadline.isNone) := by
  simp only [exec, execSaveBudgetExpiry, hb, hmode, hmarked, hrest, if_true]

theorem saveBudgetExpiry_forces {r d : Nat} (hb : s.block uid = some b) (hmode : b.mode = .coop slot second (some d) r)
    (hmarked : b.allMarked = false) (hdue : d ≤ s.cycle) (hmay : s.mayForce = true) :
    exec (.saveBudgetExpiry uid) s = .next ((s.logDecision (Decision.block kForced r b)).updBlock uid fun x =>
      { x with mode := x.mode.force }) := by
  simp only [exec, execSaveBudgetExpiry, hb, hmode, hmarked, hdue, hmay, and_self, Bool.false_eq_true, if_false, if_true]

/-! ### FORCED_SAVE (R325, R328) -/

theorem forcedSave_saves {first : Option Nat} {r : Nat} (hb : s.block uid = some b) (hmode : b.mode = .saving slot first r)
    (hrest : s.atRest b = true) : exec (.forcedSave uid) s = .next (s.forceOut b slot first) := by
  simp only [exec, execForcedSave, hb, hmode, hrest, Bool.not_true, Bool.false_and, Bool.false_eq_true, if_false]

/-- A breakpoint's save takes its slot before the image is written. -/
theorem forcedSave_stops {rec : Option TrapRec} (hb : s.block uid = some b) (hmode : b.mode = .breakpoint rec)
    (hrest : s.atRest b = true) (hslot : (s.slotsFree b.ten b.qnum 1).2 = true) :
    let t := (s.slotsFree b.ten b.qnum 1).1.takeSlot b.ten b.qnum
    exec (.forcedSave uid) s =
      .next ((t.1.updBlock uid fun x => { x with mode := .debug t.2 }).debugSave b t.2 rec false) := by
  simp only [exec, execForcedSave, hb, hmode, hrest, hslot, Bool.not_true, Bool.false_and, Bool.false_eq_true, if_false, if_true]

/-- A member that has ended is saved once no mate uses its window. -/
theorem forcedSave_parts (hb : s.block uid = some b) (hmode : b.mode = .parting slot) (hrest : s.atRest b = true) :
    exec (.forcedSave uid) s = .next (if s.matesBusy b then s else s.forceOut b slot none) := by
  simp only [exec, execForcedSave, hb, hmode, hrest, Bool.not_true, Bool.false_and, Bool.false_eq_true, if_false]
  split
  · rfl
  · rfl

theorem forcedSave_stepped {sid lane : Nat} {rec : TrapRec} {held : Bool} (hb : s.block uid = some b)
    (hmode : b.mode = .stepping sid lane slot rec true held) (hrest : s.atRest b = true) :
    exec (.forcedSave uid) s = .next (s.debugSave b slot (some rec) (b.stepHeld sid lane held)) := by
  simp only [exec, execForcedSave, hb, hmode, hrest, Bool.not_true, Bool.false_and, Bool.false_eq_true, if_false]

/-! ### RESTORE (R291, R326, R327) -/

/-- A quadrant that no mate holds, of the core that the mates stand on. -/
theorem apart_from_mates {core quad cluster : Nat}
    (hmates : ∀ x ∈ s.blocks, x.cluster = cluster → x.core = core ∧ x.quad ≠ quad) :
    (s.blocks.any fun x => x.cluster == cluster && (x.core != core || x.quad == quad)) = false := by
  refine List.any_eq_false.2 fun x hx hclash => ?_
  simp only [Bool.and_eq_true, Bool.or_eq_true, beq_iff_eq, bne_iff_ne] at hclash
  obtain ⟨hcluster, hplace⟩ := hclash
  obtain ⟨hcore, hquad⟩ := hmates x hx hcluster
  exact hplace.elim (fun h => h hcore) hquad

/-- With a place for the block and its image there, the image is put back, or refused. -/
theorem restore_reads {key core quad window : Nat} {v : Saved} {g : Grid}
    (hv : s.caller.saved.find? (fun v => v.key == key) = some v) (hg : s.gridOf v.ten v.qnum v.gseq = some g)
    (hfits : s.fitsOn v.ten g.hdr (quadId core quad) = true)
    (hmates : ∀ x ∈ s.blocks, x.cluster = v.cluster → x.core = core ∧ x.quad ≠ quad)
    (hslot : s.freeSlot core quad = some slot) (hwindow : s.windowOn core quad g.hdr.grant = some window)
    (hbase : s.slotVa v.ten v.qnum v.slot = some base)
    (hread : s.imageReadable (s.returning g v core quad slot window) base = true) :
    let b := s.returning g v core quad slot window
    let back := ((s.settle b).unsave key).loadImage b v base
    let refused := ((s.trapAppend v.ten (s.formatRecord b base)).drawn).unsave key
    exec (.restore key core quad) s =
      if imageOk b (s.slotReader b base) then .next (if v.first.isSome then back else back.freeSave v.ten v.qnum v.slot)
      else .next (if v.ended then refused else (refused.qsub v.ten v.qnum qLIVEBLK).countEnd v.ten v.qnum v.gseq stFault) := by
  simp only [exec, execRestore, hv, hg, hfits, apart_from_mates hmates, hslot, hwindow, hbase, hread, Bool.not_true, Bool.or_self,
    Bool.false_eq_true, if_false, Bool.not_eq_true', ← Bool.not_eq_true, ite_not]

/-! ### The debugger (R328, R329) -/

theorem stop_stops (hb : s.debugBlock w 0x20 false = some b) (hmode : b.mode.stoppable = true) (hfatal : b.fatal = none)
    (hover : b.over = false) (hslot : (s.slotsFree b.ten b.qnum 1).2 = true) :
    exec (.stop w) s =
      .next (((s.slotsFree b.ten b.qnum 1).1.updBlock b.uid fun x => { x with mode := .breakpoint none }).cmdOk) := by
  simp only [exec, execStop, hb, hmode, hfatal, hover, hslot, Option.isSome_none, Bool.not_true, Bool.or_self, Bool.false_eq_true,
    if_false, if_true]

/-- STEP puts the image back and lets the chosen fragment issue once. -/
theorem step_steps {t : State} (hb : s.debugBlock w 0x21 true = some b) (hmode : b.mode = .debug slot)
    (hbase : s.slotVa b.ten b.qnum slot = some base) (hsid : (w.extractLsb' 40 4).toNat < b.hdr.strands)
    (hok : imageOk b (s.slotReader b base) = true) (hfatal : b.fatal = none) (hread : s.imageReadable b base = true)
    (hstep : (s.loadImage b (s.debugEntry b slot) base).stepFrom b slot (w.extractLsb' 40 4).toNat (w.getLsbD 39)
      (w.extractLsb' 33 6).toNat = some t) :
    exec (.step w) s = .next t.cmdOk := by
  simp only [exec, execStep, hb, hmode, hbase, Nat.not_le.2 hsid, hok, hfatal, hread, hstep, Option.isSome_none, Bool.not_true,
    Bool.false_eq_true, or_self, if_false]

theorem resume_puts_back (hb : s.debugBlock w 0x22 false = some b) (hmode : b.mode = .debug slot)
    (hbase : s.slotVa b.ten b.qnum slot = some base) (hfatal : b.fatal = none) (hread : s.imageReadable b base = true)
    (hok : imageOk b (s.slotReader b base) = true) :
    exec (.resume w) s =
      .next ((((s.loadImage b (s.debugEntry b slot) base).dropDebug b.uid).freeSave b.ten b.qnum slot).cmdOk) := by
  simp only [exec, execResume, hb, hmode, hbase, hfatal, hread, hok, Option.isSome_none, Bool.not_true, Bool.false_eq_true, if_false]

/-- RESUME of a block that has left its quadrant lets the caller restore it. -/
theorem resume_releases {v : Saved} (hb : s.debugBlock w 0x22 false = none) (hv : s.savedDebug w = some v) :
    exec (.resume w) s = .next ((s.setCaller { s.caller with saved := s.caller.saved.map fun x =>
      if x.key == v.key then { x with debugAt := none } else x }).cmdOk) := by
  simp only [exec, execResume, hb, State.resumeSaved, hv]

/-- The record of a KILL: its cause and TINFO are free values (log 48). -/
def State.killRecord (s : State) (b : Block) : TrapRec :=
  let v := fun (i : Nat) => (Config.freeWord (s.fresh + i)).toNat
  { s.blockRecord b (Cause.ofCode (v 6 % 16)) (infoOf (v 7) 0) with fatal := true }

theorem kill_ends (hb : s.debugBlock w 0x23 false = some b) (hmode : b.mode.killable = true) :
    exec (.kill w) s =
      .next ((s.updBlock b.uid fun x => { x with fatal := x.fatal.orElse fun _ => some (s.killRecord b) }).drawn.cmdOk) := by
  simp only [exec, execKill, hb, hmode, Bool.not_true, Bool.false_eq_true, if_false, State.killRecord]

/-! ### The obligation -/

/-- Settles O45: each branch of a stop, of its phases and saves and of the debugger's commands by its own lemma; a restore branches on
the image that it reads (`restore_reads`). -/
theorem stopSteps : Obligations.StopSteps := by
  intro s
  refine ⟨fun uid reason b hb => ⟨stopDecision_chooses hb, stopDecision_waits hb,
      fun slot second r => stopDecision_opens hb,
      fun since r => drainTimeout_saves hb,
      fun slot second deadline r => saveBudgetExpiry_closes hb,
      fun slot second d r => saveBudgetExpiry_forces hb,
      fun slot first r => forcedSave_saves hb,
      fun rec => forcedSave_stops hb,
      fun slot => forcedSave_parts hb,
      fun sid lane slot rec held => forcedSave_stepped hb⟩,
    fun key core quad v g slot window base hv hg hfits hmates hslot hwindow hbase hread => ?restored,
    fun w b => stop_stops,
    fun w b slot base hb hmode hbase hsid hok hfatal hread t => step_steps hb hmode hbase hsid hok hfatal hread,
    fun w b slot base => resume_puts_back,
    fun w v => resume_releases,
    fun w b hb hmode => ⟨s.killRecord b, rfl, rfl, kill_ends hb hmode⟩⟩
  case restored =>
    have hrestore := restore_reads hv hg hfits hmates hslot hwindow hbase hread
    exact ⟨fun hok => hrestore.trans (if_pos hok),
      fun hbad => hrestore.trans (if_neg (hbad ▸ Bool.false_ne_true))⟩

end Sys2Proof.Machine
end

section
/-!
PROOFS. The commands of CMD that are not the debugger's, and the load of a call sheet.
-/
namespace Sys2Proof.Machine

variable {s : State} {w : W64} {im : SheetImage}

/-! ### QSYNC, VFSTOP, VFRESUME (R298, R355) -/

theorem qsync_resumes (hop : cmdOp w = 0x42) (hzero : w.extractLsb' 0 43 = 0)
    (hqueue : s.hasQueue (cmdTenant w) (w.extractLsb' 43 8).toNat = true)
    (hstate : s.qget (cmdTenant w) (w.extractLsb' 43 8).toNat qQSTATE ≠ 2) :
    let ten := cmdTenant w
    let q := (w.extractLsb' 43 8).toNat
    exec (.qsync w) s =
      .next (((s.setCaller { s.caller with dropped := s.caller.dropped.filter (· != (ten, q)) }).ring ten q).cmdOk) := by
  refine (if_neg ?_).trans (if_neg hstate)
  rintro (h | h | h)
  · exact h hop
  · exact h hzero
  · exact Bool.false_ne_true (by rwa [hqueue] at h)

/-- The first VFSTOP has the tenant's blocks stopped. -/
theorem vfstop_asks (hw : tenantWord w 0x40 = true) (hfirst : s.caller.vfstops.contains (cmdTenant w) = false) :
    let ten := cmdTenant w
    exec (.vfstop w) s = .next ((s.setCaller { s.caller with
      stopped := s.caller.stopped.filter (· != ten) ++ [ten], vfstops := s.caller.vfstops ++ [ten] }).askStop
        (s.tenantBlocks ten) 3) := by
  simp only [exec, execVfstop, hw, hfirst, Bool.not_true, Bool.not_false, Bool.false_eq_true, if_false, if_true]

/-- Once the tenant is quiet, STOPPED is set and the command is done. -/
theorem vfstop_completes (hw : tenantWord w 0x40 = true) (hunder : s.caller.vfstops.contains (cmdTenant w) = true)
    (hquiet : s.tenantQuiet (cmdTenant w) = true) :
    let ten := cmdTenant w
    exec (.vfstop w) s =
      .next ((s.setCaller { s.caller with vfstops := s.caller.vfstops.filter (· != ten) }).setStopped ten true).cmdOk := by
  simp only [exec, execVfstop, hw, hunder, hquiet, Bool.not_true, Bool.false_eq_true, if_false]

theorem vfresume_completes (hw : tenantWord w 0x41 = true) : exec (.vfresume w) s = .next (s.unstop (cmdTenant w)).cmdOk :=
  if_neg (by rw [hw]; exact Bool.false_ne_true)

/-! ### CALL_SHEET_LOAD (R294, R295) -/

/-- The load of a sheet halts the caller's decisions first. -/
theorem callSheetLoad_halts (hidle : s.caller.loading = none) :
    exec (.callSheetLoad im) s = .next (s.setCaller
      { s.caller with cfg := { s.caller.cfg with halt := true }, loading := some (im, s.caller.cfg.halt) }) := by
  simp only [exec, execCallSheetLoad, hidle, Caller.setHalt]

/-- The caller when the load of a sheet has ended: HALT is as it was before. -/
def State.sheetLoaded (s : State) (was : Bool) : State :=
  s.setCaller { s.caller with cfg := { s.caller.cfg with halt := was }, loading := none }

/-- An image that verifies becomes the sheet. -/
theorem callSheetLoad_starts {was : Bool} {sh : Sheet} (hloading : s.caller.loading = some (im, was))
    (hbusy : s.blocks.any Block.busyWithCaller = false) (hsheet : (s.sheetLoaded was).sheetOf im = some sh) :
    let t := s.sheetLoaded was
    exec (.callSheetLoad im) s = .next ((t.setCaller { t.caller with sheet := sh, rr := [] }).notify .csReset) := by
  rw [State.sheetLoaded] at hsheet
  simp only [exec, execCallSheetLoad, hloading, hbusy, Caller.setHalt, hsheet, ne_eq, not_true_eq_false, Bool.false_eq_true, or_self,
    if_false, State.sheetLoaded]

/-- An image that does not is refused, and the sheet that was running starts again. -/
theorem callSheetLoad_refuses {was : Bool} (hloading : s.caller.loading = some (im, was))
    (hbusy : s.blocks.any Block.busyWithCaller = false) (hsheet : (s.sheetLoaded was).sheetOf im = none) :
    exec (.callSheetLoad im) s =
      .next (((s.sheetLoaded was).logDecision (Decision.grid kRefuse 0 noQueue 0)).notify .csReset) := by
  rw [State.sheetLoaded] at hsheet
  simp only [exec, execCallSheetLoad, hloading, hbusy, Caller.setHalt, hsheet, ne_eq, not_true_eq_false, Bool.false_eq_true, or_self,
    if_false, State.sheetLoaded]

/-! ### The obligation -/

/-- Settles O46: each command by its own lemma, the end of a sheet's load by whether its image verifies; LOGRING has one branch. -/
theorem commandSteps : Obligations.CommandSteps := by
  intro s
  refine ⟨fun w => qsync_resumes,
    fun w hw => ⟨vfstop_asks hw, vfstop_completes hw⟩,
    fun w => vfresume_completes,
    fun im => callSheetLoad_halts,
    fun im was hloading hbusy => ?loaded,
    fun v => rfl⟩
  case loaded =>
    dsimp only
    split
    next sh hsheet => exact callSheetLoad_starts hloading hbusy hsheet
    next hsheet => exact callSheetLoad_refuses hloading hbusy hsheet

end Sys2Proof.Machine
end

section
/-!
PROOFS. The layout of a trap record (R319).
-/
namespace Sys2Proof.Machine

/-! ### Little-endian fields -/

@[simp] theorem length_leBytes (n v : Nat) : (leBytes n v).length = n := by simp [leBytes]

theorem leBytes_succ (n v : Nat) : leBytes (n + 1) v = BitVec.ofNat 8 v :: leBytes n (v / 256) := by
  simp only [leBytes, List.range_succ_eq_map, List.map_cons, List.map_map, Nat.pow_zero, Nat.div_one, List.cons.injEq, true_and]
  refine List.map_congr_left fun i _ => ?_
  simp only [Function.comp_apply, Nat.succ_eq_add_one, Nat.pow_succ', Nat.div_div_eq_div_mul]

/-- A number written in `n` bytes reads back modulo `256 ^ n`. -/
theorem leNum_leBytes (n v : Nat) : leNum (leBytes n v) = v % 256 ^ n := by
  induction n generalizing v with
  | zero => simp [leBytes, leNum, Nat.mod_one]
  | succ n ih =>
    rw [leBytes_succ, Nat.pow_succ', Nat.mod_mul, ← ih]
    simp [leNum]

/-- Fields of a record, each a width and a value, written one after another. -/
def fieldBytes (fs : List (Nat × Nat)) : List Byte := fs.flatMap fun p => leBytes p.1 p.2

theorem length_fieldBytes (fs : List (Nat × Nat)) : (fieldBytes fs).length = (fs.map Prod.fst).sum := by
  simp [fieldBytes, List.length_flatMap]

/-- A field reads back at the offset that the widths before it add up to. -/
theorem leNum_fieldBytes {fs : List (Nat × Nat)} (k : Nat) {off n v : Nat} (hoff : ((fs.take k).map Prod.fst).sum = off)
    (hk : fs[k]? = some (n, v)) : leNum (((fieldBytes fs).drop off).take n) = v % 256 ^ n := by
  have hsplit : fieldBytes fs = fieldBytes (fs.take k) ++ (leBytes n v ++ fieldBytes (fs.drop (k + 1))) := by
    obtain ⟨hlt, hget⟩ := List.getElem?_eq_some_iff.mp hk
    conv => lhs; rw [← List.take_append_drop k fs, List.drop_eq_getElem_cons hlt, hget]
    simp only [fieldBytes, List.flatMap_append, List.flatMap_cons]
  rw [hsplit, List.drop_left' (by rw [length_fieldBytes, hoff]), List.take_left' (length_leBytes n v), leNum_leBytes]

/-! ### The record (R319) -/

/-- The first doubleword of a record: the PC, the cause and the four marks. -/
def TrapRec.head (r : TrapRec) : Nat :=
  r.tpc.toNat % 2 ^ 56 + r.cause.code * 2 ^ 56 + b2n r.engine * 2 ^ 60 + b2n r.step * 2 ^ 61 + b2n r.debug * 2 ^ 62 +
    b2n r.fatal * 2 ^ 63

/-- The fields of a record in their order. -/
def TrapRec.fields (r : TrapRec) : List (Nat × Nat) :=
  [(8, r.head), (8, r.rpc.toNat), (16, r.info.toNat), (8, r.tlanes.toNat), (8, r.tfrag.toNat), (8, r.tsibs.toNat),
    (4, r.tblk.toNat), (1, r.tstrand), (1, r.tquad + 4 * r.tten), (2, r.tcore)]

theorem TrapRec.bytes_eq (r : TrapRec) : r.bytes = fieldBytes r.fields := by
  simp only [TrapRec.bytes, fieldBytes, TrapRec.fields, TrapRec.head, List.flatMap_cons, List.flatMap_nil, List.append_nil,
    List.append_assoc]

/-- Field `k` of a record, which fits its width, stands whole at its offset. -/
theorem TrapRec.field_bytes (r : TrapRec) (k : Nat) {off n v : Nat} (hoff : ((r.fields.take k).map Prod.fst).sum = off)
    (hk : r.fields[k]? = some (n, v)) (hv : v < 256 ^ n) : leNum ((r.bytes.drop off).take n) = v := by
  rw [r.bytes_eq, leNum_fieldBytes k hoff hk, Nat.mod_eq_of_lt hv]

theorem b2n_le_one (b : Bool) : b2n b ≤ 1 := by cases b <;> decide

theorem Cause.code_lt (c : Cause) : c.code < 16 := by cases c <;> decide

theorem TrapRec.head_lt (r : TrapRec) : r.head < 256 ^ 8 := by
  have hpc := Nat.mod_lt r.tpc.toNat (show 0 < 2 ^ 56 by decide)
  have hcause := r.cause.code_lt
  have he := b2n_le_one r.engine
  have hs := b2n_le_one r.step
  have hd := b2n_le_one r.debug
  have hf := b2n_le_one r.fatal
  unfold TrapRec.head
  omega

/-! ### What a trap puts into it -/

theorem resumePc_of_fault {c : Cause} (htrap : c ≠ .trap) (hbkpt : c ≠ .bkpt) (hpre : c ≠ .preempt) (engine : Bool) (tpc next : W64) :
    resumePc c engine tpc next = if engine then next else BitVec.ofNat 64 (tpc.toNat % 2 ^ 56) := by
  unfold resumePc
  split
  · exact absurd rfl htrap
  · exact absurd rfl hbkpt
  · exact absurd rfl hpre
  · rfl

theorem Trap.info_illegal {t : Trap} (h : t.cause = .illegal) : t.info = t.word := if_pos h

theorem Trap.info_other {t : Trap} (h : t.cause ≠ .illegal) : t.info.toNat = t.addr.toNat + 2 ^ 64 * t.code.toNat := by
  have ha := t.addr.isLt
  have hc := t.code.isLt
  rw [Trap.info, if_neg h, BitVec.toNat_ofNat, Nat.mod_eq_of_lt (by omega), Nat.mul_comm]

/-! ### The obligation -/

/-- Settles O57: each field of the record by its place among the fields, what a trap reports by its cause. -/
theorem trapRecordLayout : Obligations.TrapRecordLayout := by
  refine ⟨fun r hstrand hquad hten hcore => ?layout, fun b sid f t tpc engine => ?reports⟩
  case layout =>
    refine ⟨?_, ?_, r.field_bytes 1 rfl rfl r.rpc.isLt, r.field_bytes 2 rfl rfl r.info.isLt, r.field_bytes 3 rfl rfl r.tlanes.isLt,
      r.field_bytes 4 rfl rfl r.tfrag.isLt, r.field_bytes 5 rfl rfl r.tsibs.isLt, r.field_bytes 6 rfl rfl r.tblk.isLt,
      r.field_bytes 7 rfl rfl (by omega), r.field_bytes 8 rfl rfl (by omega), r.field_bytes 9 rfl rfl (by omega)⟩
    · rw [r.bytes_eq, length_fieldBytes]; rfl
    · refine (r.field_bytes 0 rfl rfl r.head_lt).trans ?_
      simp only [TrapRec.head, Nat.mul_comm]
  case reports =>
    refine ⟨rfl, rfl, rfl, rfl, rfl, rfl, rfl, rfl, rfl, rfl, rfl, ?_, ?_, fun htrap hbkpt hpre => ?_, Trap.info_illegal,
      Trap.info_other⟩
    · rintro (h | h) <;> simp only [trapRecord, h, resumePc]
    · intro h; simp only [trapRecord, h, resumePc]
    · have hpc : tpc.toNat % 2 ^ 56 < 2 ^ 64 := by omega
      simp only [trapRecord, resumePc_of_fault htrap hbkpt hpre]
      cases engine
      · exact (BitVec.toNat_ofNat ..).trans (Nat.mod_eq_of_lt hpc)
      · rfl

end Sys2Proof.Machine
end

section
/-!
PROOFS. What the delivery of a trap does, outcome by outcome (R320), and what every outcome has in common (R316, R44).
-/
namespace Sys2Proof.Machine

variable {s t w w' : State} {b c u : Block} {sid : Nat} {f : Frag} {tr : Trap} {tpc pc : W64} {engine : Bool}

/-! ### The record written and the issue spent (R320, R47) -/

/-- The state in which it is decided how a trap goes on: its record is written and the quadrant's issue spent. -/
def State.trapNoted (s : State) (b : Block) (sid : Nat) (f : Frag) (tr : Trap) (tpc : W64) (engine : Bool) : State :=
  (s.putRecord b (b.trapVa sid + 64 * lowest f.lanes) (trapRecord b sid f tr tpc engine).bytes).spendIssue b

/-- The trapping fragment's block with its issue spent (R329). -/
def Block.fired (b : Block) : Block := { b with mode := b.mode.fire }

/-- Of blocks, cores and the clock, `t` differs from `s` in nothing but the spent issue of the block's quadrant. -/
structure State.IssueSpent (s : State) (b : Block) (t : State) : Prop where
  cycle : t.cycle = s.cycle
  block : t.block b.uid = some b.fired
  blocks : ∀ k, k ≠ b.uid → t.block k = s.block k
  cores : ∀ k, k ≠ b.core → t.core k = s.core k
  core : t.core b.core = { s.core b.core with lastIssue := (s.core b.core).lastIssue.put b.quad s.cycle }

theorem State.issueSpent_trapNoted (hb : s.block b.uid = some b) : s.IssueSpent b (s.trapNoted b sid f tr tpc engine) := by
  have hrec := s.near_putRecord b (b.trapVa sid + 64 * lowest f.lanes) (trapRecord b sid f tr tpc engine).bytes
  have ⟨_, _, _, hcycle, _⟩ := hrec
  have hcore : ∀ k, (s.putRecord b (b.trapVa sid + 64 * lowest f.lanes) (trapRecord b sid f tr tpc engine).bytes).core k = s.core k :=
    fun k => hrec.core k
  unfold State.trapNoted State.spendIssue
  generalize s.putRecord b _ _ = r at *
  refine ⟨hcycle, ?_, fun k hk => ?_, fun k hk => ?_, ?_⟩
  · exact State.block_updBlock_self _ Block.fired ((hrec.block _).trans hb) fun _ => rfl
  · exact (State.block_updBlock_other _ Block.fired hk fun _ => rfl).trans (hrec.block k)
  · exact (State.core_setCore_other _ _ hk).trans (hcore k)
  · exact (State.core_setCore_self ..).trans (by rw [hcore, hcycle])

theorem State.IssueSpent.near (h : s.IssueSpent b w) (hw : w.Near w') : s.IssueSpent b w' where
  cycle := hw.2.2.2.1.trans h.cycle
  block := (hw.block _).trans h.block
  blocks k hk := (hw.block k).trans (h.blocks k hk)
  cores k hk := (hw.core k).trans (h.cores k hk)
  core := (hw.core _).trans h.core

/-! ### What every outcome leaves -/

/-- Every other fragment of a strand stands, alone or merged, where a fragment of its lanes stood. -/
def Strand.OthersStay (st st' : Strand) (f : Frag) : Prop :=
  ∀ g ∈ st.frags, g.lanes ≠ f.lanes → ∃ g' ∈ st'.frags, ∃ h ∈ st.frags,
    h.lanes = g.lanes ∧ g.lanes &&& g'.lanes = g.lanes ∧ g'.pc = h.pc

/-- The trapping fragment stands at `pc`, its block reads as `u`, and nothing else of blocks and cores has changed but the spent
issue. -/
structure TrapMoved (s : State) (b : Block) (sid : Nat) (f : Frag) (pc : W64) (t : State) (u : Block) : Prop where
  block : t.block b.uid = some u
  strands : ∀ k, k ≠ sid → u.strand k = b.strand k
  blocks : ∀ k, k ≠ b.uid → t.block k = s.block k
  regs : sameRegs (b.strand sid) (u.strand sid)
  cores : ∀ k, k ≠ b.core → t.core k = s.core k
  core : t.core b.core = { s.core b.core with lastIssue := (s.core b.core).lastIssue.put b.quad s.cycle }
  last : (u.strand sid).last = s.cycle
  others : (b.strand sid).OthersStay (u.strand sid) f
  place : ∀ L, f.lanes.getLsbD L = true → ((u.strand sid).fragOf L).map (·.pc) = some pc

/-- The fragment's lanes after the move: parked if they were to be, with %traprec if they got one. -/
theorem trapMoved_trapMove (h : s.IssueSpent b w) (hsid : sid < b.strands.length) (hold : Hold) (rec : Option W64) :
    ∃ u, TrapMoved s b sid f pc (w.trapMove b sid f pc hold rec) u ∧ u.mode = b.mode.fire ∧ u.fatal = b.fatal ∧
      (hold = .parked → ∀ L, f.lanes.getLsbD L = true →
        ((u.strand sid).fragOf L).map (fun g => (g.pc, g.hold)) = some (pc, .parked)) ∧
      (∀ v, rec = some v → ∀ L, f.lanes.getLsbD L = true → ((u.strand sid).lane L).traprec = v) := by
  obtain ⟨st', hblock, hstrands, hself, hblocks, hregs, hlast, hothers, hplace, hparked, hrec⟩ :=
    w.trapMove_spec b b.fired sid f pc hold rec h.block rfl hsid
  refine ⟨b.fired.setStrand sid st', ?_, rfl, rfl, ?_⟩
  generalize b.fired.setStrand sid st' = u at *
  subst hself
  · exact {
      block := hblock
      strands := hstrands
      blocks := fun k hk => (hblocks k hk).trans (h.blocks k hk)
      regs := hregs
      cores := h.cores
      core := h.core
      last := hlast.trans h.cycle
      others := hothers
      place := hplace }
  · rw [hself]
    exact ⟨hparked, hrec⟩

@[simp] theorem State.trapMove_mem (w : State) (b : Block) (sid : Nat) (f : Frag) (pc : W64) (hold : Hold) (rec : Option W64) :
    (w.trapMove b sid f pc hold rec).mem = w.mem := rfl

/-- A mark on the block, its strands kept, changes nothing of the move. -/
theorem TrapMoved.marked {g : Block → Block} (h : TrapMoved s b sid f pc t u) (huid : ∀ x, (g x).uid = x.uid)
    (hstrands : ∀ x k, (g x).strand k = x.strand k) : TrapMoved s b sid f pc (t.updBlock b.uid g) (g u) where
  block := State.block_updBlock_self t g h.block huid
  strands k hk := (hstrands u k).trans (h.strands k hk)
  blocks k hk := (State.block_updBlock_other t g hk huid).trans (h.blocks k hk)
  regs := (hstrands u sid).symm ▸ h.regs
  cores := h.cores
  core := h.core
  last := (hstrands u sid).symm ▸ h.last
  others := (hstrands u sid).symm ▸ h.others
  place := (hstrands u sid).symm ▸ h.place

/-! ### The four outcomes (R320) -/

theorem deliverTrap_handler (h : (s.trapNoted b sid f tr tpc engine).delivery b sid f tr.cause = .handler pc) :
    s.deliverTrap b sid f tr tpc engine = (s.trapNoted b sid f tr tpc engine).trapMove b sid f pc .free
      (some (BitVec.ofNat 64 (b.trapVa sid + 64 * lowest f.lanes))) := by
  rw [State.trapNoted] at h
  simp only [State.deliverTrap, h, State.trapNoted]

theorem deliverTrap_fatal (h : (s.trapNoted b sid f tr tpc engine).delivery b sid f tr.cause = .fatal) :
    s.deliverTrap b sid f tr tpc engine = ((s.trapNoted b sid f tr tpc engine).trapMove b sid f f.pc .parked none).updBlock b.uid
      fun x => { x with fatal := x.fatal.orElse fun _ => some { trapRecord b sid f tr tpc engine with fatal := true } } := by
  rw [State.trapNoted] at h
  simp only [State.deliverTrap, h, State.trapNoted]

theorem deliverTrap_debug (h : (s.trapNoted b sid f tr tpc engine).delivery b sid f tr.cause = .debug) :
    let rec0 := trapRecord b sid f tr tpc engine
    s.deliverTrap b sid f tr tpc engine = ((s.trapNoted b sid f tr tpc engine).trapMove b sid f rec0.rpc .free none).updBlock b.uid
      fun x => { x with mode := x.mode.brk rec0 } := by
  rw [State.trapNoted] at h
  simp only [State.deliverTrap, h, State.trapNoted]

theorem deliverTrap_skip (h : (s.trapNoted b sid f tr tpc engine).delivery b sid f tr.cause = .skip) :
    let w := s.trapNoted b sid f tr tpc engine
    s.deliverTrap b sid f tr tpc engine = (w.setTrapDesc b.ten 0x24 4 (w.trapDesc b.ten 0x24 4 + 1)).trapMove b sid f
      (trapRecord b sid f tr tpc engine).rpc .free none := by
  rw [State.trapNoted] at h
  simp only [State.deliverTrap, h, State.trapNoted]

/-! ### The obligation -/

/-- Settles O58: the record and the spent issue first, then the move of the fragment by the outcome of the delivery. -/
theorem trapDelivery : Obligations.TrapDelivery := by
  rintro s t b sid f tr tpc engine hb hsid - rfl va rec0 w
  have hw : s.IssueSpent b w := State.issueSpent_trapNoted hb
  cases hd : w.delivery b sid f tr.cause with
  | handler pc =>
    obtain ⟨u, hm, -, -, -, hrec⟩ :=
      trapMoved_trapMove (f := f) (pc := pc) hw hsid .free (some (BitVec.ofNat 64 va))
    rw [deliverTrap_handler hd]
    refine ⟨u, hm.block, hm.strands, hm.blocks, hm.regs, hm.cores, hm.core, hm.last, hm.others, ?_, nofun, nofun, nofun⟩
    rintro _ ⟨rfl⟩
    exact ⟨State.trapMove_mem .., fun L hL => ⟨hm.place L hL, hrec _ rfl L hL⟩⟩
  | fatal =>
    obtain ⟨u, hm, -, hfatal, hparked, -⟩ := trapMoved_trapMove (f := f) (pc := f.pc) hw hsid .parked none
    rw [deliverTrap_fatal hd]
    have hm := hm.marked (g := fun x => { x with fatal := x.fatal.orElse fun _ => some { rec0 with fatal := true } })
      (fun _ => rfl) fun _ _ => rfl
    refine ⟨_, hm.block, hm.strands, hm.blocks, hm.regs, hm.cores, hm.core, hm.last, hm.others, nofun, fun _ => ?_, nofun, nofun⟩
    refine ⟨(State.updBlock_mem ..).trans (State.trapMove_mem ..), ?_, fun h => ?_, hparked rfl⟩
    · cases u.fatal <;> rfl
    · simp [hfatal, h]
  | debug =>
    obtain ⟨u, hm, hmode, -⟩ := trapMoved_trapMove (f := f) (pc := rec0.rpc) hw hsid .free none
    rw [deliverTrap_debug hd]
    have hm := hm.marked (g := fun x => { x with mode := x.mode.brk rec0 }) (fun _ => rfl) fun _ _ => rfl
    refine ⟨_, hm.block, hm.strands, hm.blocks, hm.regs, hm.cores, hm.core, hm.last, hm.others, nofun, nofun, fun _ => ?_, nofun⟩
    exact ⟨(State.updBlock_mem ..).trans (State.trapMove_mem ..), congrArg (Mode.brk rec0) hmode, hm.place⟩
  | skip =>
    obtain ⟨u, hm, -⟩ := trapMoved_trapMove (f := f) (pc := rec0.rpc)
      (hw.near (w.near_setTrapDesc b.ten 0x24 4 (w.trapDesc b.ten 0x24 4 + 1))) hsid .free none
    rw [deliverTrap_skip hd]
    exact ⟨u, hm.block, hm.strands, hm.blocks, hm.regs, hm.cores, hm.core, hm.last, hm.others, nofun, nofun, nofun,
      fun _ => ⟨State.trapMove_mem .., hm.place⟩⟩

end Sys2Proof.Machine
end

section
/-!
PROOFS. The CRC of a beat (R341): it is linear over the bits of the word, and so one turned bit always changes it or what it is
compared with (R342).
-/
namespace Sys2Proof.Machine

variable {core : Nat} {v w : W64}

/-! ### CRC-8 (R341) -/

/-- One bit enters the CRC. -/
def crcStep (w : W64) (c i : Nat) : Nat :=
  c * 2 % 256 ^^^ if (c / 128 % 2 == 1) != w.getLsbD (63 - i) then 7 else 0

theorem crc8_eq_foldl (w : W64) : crc8 w = (List.range 56).foldl (crcStep w) 0 := by
  refine congrArg (fun g => List.foldl g 0 (List.range 56)) (funext fun c => funext fun i => ?_)
  unfold crcStep
  dsimp only
  split <;> simp

theorem crcStep_lt (w : W64) (c i : Nat) : crcStep w c i < 2 ^ 8 := by
  refine Nat.xor_lt_two_pow (Nat.mod_lt _ (by decide)) ?_
  split <;> decide

theorem crc8_lt (w : W64) : crc8 w < 256 := by
  rw [crc8_eq_foldl, List.range_succ, List.foldl_append]
  exact crcStep_lt _ _ _

theorem foldl_crcStep_congr (l : List Nat) (c : Nat) (hbit : ∀ i ∈ l, v.getLsbD (63 - i) = w.getLsbD (63 - i)) :
    l.foldl (crcStep v) c = l.foldl (crcStep w) c := by
  induction l generalizing c with
  | nil => rfl
  | cons i l ih =>
    have hstep : crcStep v c i = crcStep w c i := by rw [crcStep, crcStep, hbit i List.mem_cons_self]
    rw [List.foldl_cons, List.foldl_cons, hstep]
    exact ih _ fun j hj => hbit j (List.mem_cons_of_mem i hj)

/-- The CRC covers bits 63:8 alone. -/
theorem crc8_congr (h : v >>> 8 = w >>> 8) : crc8 v = crc8 w := by
  have hbit : ∀ i ∈ List.range 56, v.getLsbD (63 - i) = w.getLsbD (63 - i) := fun i hi => by
    have hi := List.mem_range.mp hi
    have h := congrArg (·.getLsbD (55 - i)) h
    simpa only [BitVec.getLsbD_ushiftRight, show 8 + (55 - i) = 63 - i by omega] using h
  rw [crc8_eq_foldl, crc8_eq_foldl]
  exact foldl_crcStep_congr _ 0 hbit

theorem highBit_eq_testBit (c : Nat) : (c / 128 % 2 == 1) = c.testBit 7 := by
  rw [Nat.testBit_eq_decide_div_mod_eq]; rfl

theorem double_xor (a b : Nat) : (a ^^^ b) * 2 % 256 = a * 2 % 256 ^^^ b * 2 % 256 := by
  have h := Nat.shiftLeft_xor_distrib (a := a) (b := b) (i := 1)
  simp only [Nat.shiftLeft_eq, Nat.pow_one] at h
  rw [h]
  exact Nat.xor_mod_two_pow (n := 8)

theorem xor_xor_exchange (a b c d : Nat) : a ^^^ b ^^^ (c ^^^ d) = a ^^^ c ^^^ (b ^^^ d) := by
  rw [Nat.xor_assoc, ← Nat.xor_assoc b, Nat.xor_comm b, Nat.xor_assoc, ← Nat.xor_assoc]

theorem xor_left_cancel {a b c : Nat} (h : a ^^^ b = a ^^^ c) : b = c := by
  simpa only [← Nat.xor_assoc, Nat.xor_self, Nat.zero_xor] using congrArg (a ^^^ ·) h

theorem bne_xor_xor (a b c d : Bool) : ((a ^^ b) != (c ^^ d)) = ((a != c) ^^ (b != d)) := by
  revert a b c d; decide

/-- The two feedbacks of the CRC's polynomial cancel. -/
theorem feedback_xor (p q : Bool) : (if (p ^^ q) = true then 7 else 0) = (if p = true then 7 else 0) ^^^ if q = true then 7 else 0 := by
  revert p q; decide

theorem crcStep_xor (v w : W64) (a b i : Nat) : crcStep (v ^^^ w) (a ^^^ b) i = crcStep v a i ^^^ crcStep w b i := by
  simp only [crcStep, double_xor, highBit_eq_testBit, Nat.testBit_xor, BitVec.getLsbD_xor]
  rw [bne_xor_xor, feedback_xor]
  exact xor_xor_exchange _ _ _ _

theorem foldl_crcStep_xor (v w : W64) (l : List Nat) (a b : Nat) :
    l.foldl (crcStep (v ^^^ w)) (a ^^^ b) = l.foldl (crcStep v) a ^^^ l.foldl (crcStep w) b := by
  induction l generalizing a b with
  | nil => rfl
  | cons i l ih => rw [List.foldl_cons, crcStep_xor, ih]; rfl

theorem crc8_xor (v w : W64) : crc8 (v ^^^ w) = crc8 v ^^^ crc8 w := by
  simp only [crc8_eq_foldl]
  exact foldl_crcStep_xor v w _ 0 0

/-- No word of a single bit carries its own CRC. -/
theorem crc8_bit_ne {i : Nat} (hi : i < 64) : crc8 (1#64 <<< i) ≠ ((1#64 <<< i).extractLsb' 0 8).toNat := by
  revert i; decide +kernel

/-- One turned bit of a word that carries its own CRC is found. -/
theorem crc8_flip_ne (hw : crc8 w = (w.extractLsb' 0 8).toNat) {i : Nat} (hi : i < 64) :
    crc8 (w ^^^ (1#64 <<< i)) ≠ ((w ^^^ (1#64 <<< i)).extractLsb' 0 8).toNat := by
  rw [crc8_xor, BitVec.extractLsb'_xor, BitVec.toNat_xor, hw]
  exact fun h => crc8_bit_ne hi (xor_left_cancel h)

/-! ### The word of a beat (R341) -/

theorem dirBits_lt (p : Nat → Bool) : dirBits p < 256 := by
  have key : ∀ n, (List.range n).foldl (fun n d => n + if p d then 2 ^ d else 0) 0 < 2 ^ n := fun n => by
    induction n with
    | zero => exact Nat.one_pos
    | succ n ih =>
      rw [List.range_succ, List.foldl_append, Nat.pow_succ]
      simp only [List.foldl_cons, List.foldl_nil]
      split <;> omega
  exact key 8

theorem Vote.code_lt (v : Vote) : v.code < 16 := by cases v <;> decide

/-- What a beat says below its tile and its period. -/
def State.beatReport (s : State) (core : Nat) : Nat :=
  dirBits (fun d => (s.nbr core d).susp) * 2 ^ 40 + dirBits (fun d => (s.nbr core d).admitBit) * 2 ^ 32 +
    (s.tile core).state.code * 2 ^ 28 + (s.healthOf core).toNat * 2 ^ 16

/-- It leaves the CRC's bits and those of the tile and the period. -/
theorem beatReport_eq (s : State) (core : Nat) : ∃ k < 2 ^ 40, s.beatReport core = k * 2 ^ 8 := by
  have hsusp := dirBits_lt fun d => (s.nbr core d).susp
  have hadmit := dirBits_lt fun d => (s.nbr core d).admitBit
  have hstate := (s.tile core).state.code_lt
  have hhealth := (s.healthOf core).isLt
  refine ⟨s.beatReport core / 2 ^ 8, ?_, ?_⟩ <;> unfold State.beatReport <;> omega

/-- A beat but for its CRC. -/
def State.beatBody (s : State) (core : Nat) : Nat :=
  core % 256 * 2 ^ 56 + s.cycle / Config.period % 256 * 2 ^ 48 + s.beatReport core

theorem beatWord_eq (s : State) (core : Nat) :
    s.beatWord core = BitVec.ofNat 64 (s.beatBody core + crc8 (BitVec.ofNat 64 (s.beatBody core))) := by
  simp only [State.beatWord, State.beatBody, State.beatReport, periodOf, Nat.add_assoc]

/-- The fields of a beat: the tile, the period, a report of 40 bits, and the CRC of the word itself. -/
theorem beatWord_toNat (s : State) (core : Nat) : ∃ k < 2 ^ 40, (s.beatWord core).toNat =
    core % 256 * 2 ^ 56 + s.cycle / Config.period % 256 * 2 ^ 48 + k * 2 ^ 8 + crc8 (s.beatWord core) := by
  obtain ⟨k, hk, hreport⟩ := beatReport_eq s core
  have hcrc := crc8_lt (BitVec.ofNat 64 (s.beatBody core))
  have hbody : s.beatBody core = core % 256 * 2 ^ 56 + s.cycle / Config.period % 256 * 2 ^ 48 + k * 2 ^ 8 := by
    rw [State.beatBody, hreport]
  have hword : (s.beatWord core).toNat = s.beatBody core + crc8 (BitVec.ofNat 64 (s.beatBody core)) := by
    rw [beatWord_eq, BitVec.toNat_ofNat, Nat.mod_eq_of_lt]
    omega
  have hcover : crc8 (s.beatWord core) = crc8 (BitVec.ofNat 64 (s.beatBody core)) := crc8_congr <| BitVec.eq_of_toNat_eq <| by
    simp only [BitVec.toNat_ushiftRight, Nat.shiftRight_eq_div_pow, hword, BitVec.toNat_ofNat]
    omega
  exact ⟨k, hk, by rw [hcover, hword, hbody]⟩

theorem crc8_beatWord (s : State) (core : Nat) : crc8 (s.beatWord core) = ((s.beatWord core).extractLsb' 0 8).toNat := by
  obtain ⟨k, -, hword⟩ := beatWord_toNat s core
  have hcrc := crc8_lt (s.beatWord core)
  rw [BitVec.extractLsb'_toNat, Nat.shiftRight_zero]
  omega

theorem beatWord_tile (s : State) (hcore : core < 256) : ((s.beatWord core).extractLsb' 56 8).toNat = core := by
  obtain ⟨k, hk, hword⟩ := beatWord_toNat s core
  have hcrc := crc8_lt (s.beatWord core)
  rw [BitVec.extractLsb'_toNat, Nat.shiftRight_eq_div_pow]
  omega

theorem beatWord_period (s : State) (core : Nat) :
    ((s.beatWord core).extractLsb' 48 8).toNat = s.cycle / Config.period % 256 := by
  obtain ⟨k, hk, hword⟩ := beatWord_toNat s core
  have hcrc := crc8_lt (s.beatWord core)
  rw [BitVec.extractLsb'_toNat, Nat.shiftRight_eq_div_pow]
  omega

/-! ### Judging it (R342) -/

variable {n : Nbr} {cycle : Nat} {rejoin : Bool}

/-- A beat in its window that agrees with its CRC, its tile and its period is good. -/
theorem judge_good (hopen : beatOffset core ≤ cycle) (hwindow : (cycle - beatOffset core) % Config.period < 64)
    (hcrc : crc8 w = (w.extractLsb' 0 8).toNat) (htile : (w.extractLsb' 56 8).toNat = core % 256)
    (hseq : (w.extractLsb' 48 8).toNat = (cycle - beatOffset core) / Config.period % 256) :
    let g := (n.judge cycle core rejoin w).1
    g.seen = true ∧ g.beatAt = some (periodOf cycle) ∧ g.bad = n.bad.filter (fun q => recent (periodOf cycle) q) ∧
    g.beatSusp = w.extractLsb' 40 8 ∧ g.beatAdmit = w.extractLsb' 32 8 := by
  unfold Nbr.judge
  extract_lets p inWindow seq bad good beats bads kinds count m found
  have hwin : inWindow = true := by simp only [inWindow, hopen, hwindow, decide_true, Bool.and_self]
  have hbad : bad = false := by simp only [bad, hcrc, htile, hseq, seq, bne_self_eq_false, Bool.and_false, Bool.or_self]
  have hgood : good = true := by simp only [good, hwin, hbad, Bool.not_false, Bool.and_self]
  clear_value kinds
  dsimp only [found]
  split <;> simp [m, hgood, bads, hbad, p]

/-- A beat that does not agree with its CRC is bad, and counts as no beat of the tile. -/
theorem judge_bad (hcrc : crc8 w ≠ (w.extractLsb' 0 8).toNat) :
    let b := (n.judge cycle core rejoin w).1
    b.seen = n.seen ∧ b.beatAt = n.beatAt ∧ b.good = 0 ∧ b.admitBit = false ∧
    b.bad = periodOf cycle :: n.bad.filter (fun q => recent (periodOf cycle) q) := by
  unfold Nbr.judge
  extract_lets p inWindow seq bad good beats bads kinds count m found
  have hbad : bad = true := by simp only [bad, bne_iff_ne.mpr hcrc, Bool.true_or]
  have hgood : good = false := by simp only [good, hbad, Bool.not_true, Bool.and_false]
  clear_value kinds
  dsimp only [found]
  split <;> simp [m, hgood, bads, hbad, count, p]

/-! ### The obligation -/

/-- Settles O42: the word of a beat by its fields, the turned bit by the linearity of the CRC, and the receiver's finding by whether
the CRC agrees. -/
theorem beatCrc : Obligations.BeatCrc := by
  intro s core i hi hcore w w'
  have hcrc : crc8 w = (w.extractLsb' 0 8).toNat := crc8_beatWord s core
  have htile : (w.extractLsb' 56 8).toNat = core := beatWord_tile s hcore
  have hperiod : (w.extractLsb' 48 8).toNat = s.cycle / Config.period % 256 := beatWord_period s core
  have hflip : crc8 w' ≠ (w'.extractLsb' 0 8).toNat := crc8_flip_ne hcrc hi
  refine ⟨hcrc, htile, hperiod, hflip, fun n cycle rejoin hopen hwindow hseq => ?_⟩
  obtain ⟨hseen, hat, hbads, hsusp, hadmit⟩ := judge_good (n := n) (rejoin := rejoin) hopen hwindow hcrc
    (htile.trans (Nat.mod_eq_of_lt hcore).symm) (hperiod.trans hseq.symm)
  exact ⟨hseen, hat, hbads, hsusp, hadmit, judge_bad hflip⟩

end Sys2Proof.Machine
end

section
/-!
PROOFS. What the machine holds after reset (R377, R384), and what the resets leave (R384, R385).
-/
namespace Sys2Proof.Machine

variable {s : State} {vf : Nat}

/-! ### After reset -/

@[simp] theorem core_reset (c : Nat) : State.reset.core c = Core.reset := rfl

@[simp] theorem inv_reset (fn : Nat) : State.reset.inv fn = InvReg.reset := rfl

/-- Settles O59: each field at its reset value, the memories' invariant by its own lemma, every core and every invalidation register
by the default of its store. -/
theorem resetState : Obligations.ResetState := by
  refine ⟨rfl, rfl, rfl, rfl, rfl, rfl, rfl, rfl, rfl, rfl, rfl, rfl, rfl, rfl, rfl, rfl, reset_wf, rfl, rfl, rfl, rfl, rfl, rfl,
    fun c => ?cores, rfl, rfl, rfl, rfl, rfl, rfl, rfl, rfl, rfl, rfl, rfl, rfl, rfl, rfl, rfl, rfl, fun fn => ?inv⟩
  case cores =>
    rw [core_reset]
    exact ⟨rfl, rfl, rfl, rfl, rfl, rfl, rfl, rfl, rfl, rfl, rfl⟩
  case inv =>
    rw [inv_reset]
    exact ⟨rfl, rfl⟩

/-! ### Device reset and loss of power (R384) -/

@[simp] theorem afterReset_blocks (s : State) (m : MemSys) : (s.afterReset m).blocks = [] := rfl
@[simp] theorem afterReset_clusters (s : State) (m : MemSys) : (s.afterReset m).clusters = [] := rfl
@[simp] theorem afterReset_cores (s : State) (m : MemSys) : (s.afterReset m).cores = [] := rfl
@[simp] theorem afterReset_mem (s : State) (m : MemSys) : (s.afterReset m).mem = m := rfl
@[simp] theorem afterReset_cycle (s : State) (m : MemSys) : (s.afterReset m).cycle = 0 := rfl
@[simp] theorem afterReset_agenda (s : State) (m : MemSys) : (s.afterReset m).agenda = [] := rfl
@[simp] theorem afterReset_cur (s : State) (m : MemSys) : (s.afterReset m).cur = none := rfl
@[simp] theorem afterReset_fab (s : State) (m : MemSys) : (s.afterReset m).fab = State.reset.fab := rfl
@[simp] theorem afterReset_leaf (s : State) (m : MemSys) : (s.afterReset m).mgmt.leaf = s.mgmt.leaf := rfl
@[simp] theorem afterReset_wear (s : State) (m : MemSys) : (s.afterReset m).mgmt.wear = s.mgmt.wear := rfl
@[simp] theorem afterReset_plim (s : State) (m : MemSys) : (s.afterReset m).mgmt.plim = 2200 := rfl

/-- A boot starts the harts at `cs_reset` or leaves them with nothing to do. -/
theorem boot_events (s : State) : s.boot.caller.events = [] ∨ s.boot.caller.events = [.csReset] := by
  unfold State.boot
  dsimp only
  split
  · exact .inr rfl
  · exact .inl rfl

/-- After a reset no command and no report is under way; the sheet and the links are what stays of the caller and the host. -/
theorem afterReset_commandless (s : State) (m : MemSys) :
    let t := s.afterReset m
    t.caller = { State.reset.caller with sheet := s.caller.sheet, events := t.caller.events } ∧
    (t.caller.events = [] ∨ t.caller.events = [.csReset]) ∧
    t.host = { State.reset.host with link0 := s.host.link0, link1 := s.host.link1, out := s.host.out } ∧
    t.mgmt.attest = [] ∧ t.mgmt.attaddr = 0 := ⟨rfl, boot_events _, rfl, rfl, rfl⟩

/-- What a loss of power leaves of memory: nothing of the device's own. -/
def MemSys.afterPowerLoss (m : MemSys) : MemSys := { MemSys.reset with mem := m.mem.filter fun kv => !isHbm kv.1 }

theorem afterPowerLoss_hbm (m : MemSys) {pa : Nat} (hpa : isHbm pa = true) : m.afterPowerLoss.mem.get blankByte pa = 0 := by
  unfold SMap.get MemSys.afterPowerLoss
  dsimp only
  rw [m.mem.find_filter_key fun k => !isHbm k, hpa]
  rfl

/-! ### Function-level resets (R385) -/

@[simp] theorem State.tenantBlocks_setCaller (s : State) (c : Caller) (ten : Nat) :
    (s.setCaller c).tenantBlocks ten = s.tenantBlocks ten := rfl

theorem vfFlr_stops (hvf : vf ≠ 0) (hboot : s.mgmt.booted = true) (hfirst : s.caller.flrs.contains vf = false) :
    exec (.vfFlr vf) s = .next ((s.tenantBlocks vf).foldl State.flrBlock
      (s.setCaller { s.caller with
        stopped := s.caller.stopped.filter (· != vf) ++ [vf], flrs := s.caller.flrs ++ [vf] })) := by
  simp only [exec, execVfFlr, hvf, hboot, hfirst, Bool.not_true, Bool.not_false, Bool.false_eq_true, if_false, if_true,
    State.tenantBlocks_setCaller]

theorem vfFlr_waits (hvf : vf ≠ 0) (hboot : s.mgmt.booted = true) (hunder : s.caller.flrs.contains vf = true)
    (hquiet : s.tenantQuiet vf = false) : exec (.vfFlr vf) s = .next s := by
  simp only [exec, execVfFlr, hvf, hboot, hunder, hquiet, Bool.not_true, Bool.not_false, Bool.false_eq_true, if_false, if_true]

theorem vfFlr_completes (hvf : vf ≠ 0) (hboot : s.mgmt.booted = true) (hunder : s.caller.flrs.contains vf = true)
    (hquiet : s.tenantQuiet vf = true) :
    let t := s.setCaller { s.caller with flrs := s.caller.flrs.filter (· != vf) }
    exec (.vfFlr vf) s = .next ((t.setMem (s.mem.dropTlb fun x => x.ten == vf)).unstop vf) := by
  simp only [exec, execVfFlr, hvf, hboot, hunder, hquiet, Bool.not_true, Bool.false_eq_true, if_false, State.setCaller_mem]

/-! ### The obligation -/

/-- Settles O36: what every reset leaves by the lemmas of `afterReset`, the loss of device memory by its filter, a function-level
reset by how far it has come. -/
theorem resets : Obligations.Resets := by
  intro s
  dsimp only
  refine ⟨rfl, rfl, ?device, ?power, fun vf hvf hboot => vfFlr_stops hvf hboot,
    fun vf hvf hboot hunder => ⟨vfFlr_waits hvf hboot hunder, vfFlr_completes hvf hboot hunder⟩⟩
  case device =>
    exact ⟨afterReset_blocks .., afterReset_clusters .., afterReset_cores .., rfl, rfl, rfl, rfl, rfl, rfl, rfl, rfl, rfl,
      afterReset_cycle .., afterReset_agenda .., afterReset_cur .., afterReset_fab .., afterReset_commandless .., afterReset_leaf ..,
      afterReset_wear .., afterReset_plim ..⟩
  case power =>
    exact ⟨rfl, afterReset_blocks .., afterReset_mem .., rfl, rfl, rfl, fun _ => afterPowerLoss_hbm s.mem, afterReset_leaf ..,
      afterReset_cores .., afterReset_cycle .., afterReset_agenda .., afterReset_fab .., afterReset_commandless ..⟩

end Sys2Proof.Machine
end

section
/-!
PROOFS. The fabric and the caches' own steps: injection, replay and retraining, acceptance at a slice and at a port, refill,
and what moves in service slots.
-/
namespace Sys2Proof.Machine

variable {s : State} {core t uid id slice port quad line : Nat} {b : Block} {o : Op}

/-! ### Injection (R336, R338, R370) -/

/-- A flit that its slot admits takes the effect that its request names. -/
theorem flitInject_admitted {ten : Nat} {s' : State} (hplay : (s.tile core).inPlay = true) (hslot : s.slotAllows (.tenant t) = true)
    (hflit : s.flitOf core uid id = some (ten, s')) (hten : s.calendarMode = true → ten = t) :
    exec (.flitInject core (.tenant t) uid id) s = .next s' := by
  have hkeeps : (s.calendarMode && ten != t) = false := by
    cases hcal : s.calendarMode with
    | false => rfl
    | true => rw [hten hcal, bne_self_eq_false, Bool.and_false]
  simp only [exec, execFlitInject, hplay, hslot, hflit, hkeeps, Bool.not_true, Bool.false_eq_true, if_false]

theorem entersFor_of_token {ten pa : Nat} {goesOn : Bool} (hmay : s.mayInject core ten goesOn = true)
    (hlink : s.linkIsDown (crossing core pa) = false) : s.entersFor core ten pa goesOn = true := by
  simp only [State.entersFor, hmay, hlink, Bool.not_false, Bool.and_self]

/-- An access of an operation in flight. -/
theorem flitOf_operation (hop : s.opOf uid id = some (b, o)) (hcore : b.core = core) (hwants : s.wantsInject b o = true)
    (hmay : s.mayInject core b.ten false = true) (hlink : s.linkIsDown (crossing core (o.targetPa.getD 0)) = false) :
    s.flitOf core uid id = some (b.ten, (s.takeToken core b.ten).setStage uid o s.entering) := by
  simp only [State.flitOf, hop, hcore, hwants, entersFor_of_token hmay hlink, bne_self_eq_false, Bool.not_true, Bool.or_self,
    Bool.false_eq_true, if_false, if_true]

/-- Another request of a block, under the next free number. -/
theorem flitOf_ask {a : Ask} (hop : s.opOf uid s.nextId = none) (hb : s.block uid = some b) (hcore : b.core = core)
    (hask : s.nextAsk b = some a) (hmay : s.mayInject core b.ten a.goesOn = true) (hlink : s.linkIsDown (crossing core a.pa) = false) :
    s.flitOf core uid s.nextId = some (b.ten,
      { (s.takeToken core b.ten).updBlock uid fun x => { x with flight := x.flight ++ [a.op s.nextId s.entering] } with
        nextId := s.nextId + 1 }) := by
  simp only [State.flitOf, hop, hb, hcore, hask, entersFor_of_token hmay hlink, bne_self_eq_false, Bool.or_self, Bool.false_eq_true,
    if_false, if_true, Option.map_some]

/-- A request of the site resolver. -/
theorem flitOf_site {r : SiteReq} (hop : s.opOf uid id = none) (hb : s.block uid = none)
    (hreq : (s.core core).siteReqs.find? (fun r => r.id == id && r.stage == .waiting) = some r)
    (hmay : s.mayInject core r.via.ten false = true) (hlink : s.linkIsDown (crossing core r.pa) = false) :
    let u := s.takeToken core r.via.ten
    s.flitOf core uid id = some (r.via.ten, u.setCore core { u.core core with
      siteReqs := (u.core core).siteReqs.map fun q => if q.id == id then { q with stage := u.entering } else q }) := by
  simp only [State.flitOf, hop, hb, hreq, entersFor_of_token hmay hlink, if_true]

/-- Outside its slot the flit is dropped and the violation told. -/
theorem flitInject_violates {cls : FlitClass} (hplay : (s.tile core).inPlay = true) (hslot : s.slotAllows cls = false) :
    exec (.flitInject core cls uid id) s = .next (s.violation core) := by
  simp only [exec, execFlitInject, hplay, hslot, Bool.not_true, Bool.not_false, Bool.false_eq_true, if_false, if_true]

/-! ### Replay (R332) -/

section Replay

variable {pair : Nat × Nat} (hop : s.opIn uid id = some (b, o)) (hway : o.underWay = true)
  (hpair : crossing b.core (o.targetPa.getD 0) = some pair)
include hop hway hpair

/-- A first CRC failure sends the flit again one period of the calendar later. -/
theorem flitReplay_first (hfirst : s.fab.replays.find? (fun r => r.1 == uid && r.2.1 == id) = none) (again : Bool) :
    exec (.flitReplay uid id again) s =
      .next (({ s with fab := { s.fab with replays := s.fab.replays ++ [(uid, id, s.cycle + Config.slots)] } } : State).setStage
        uid o (o.stage.delay (s.cycle + Config.slots))) := by
  simp only [exec, execFlitReplay, hop, hway, hpair, hfirst]

variable {r : Nat × Nat × Nat} (hsecond : s.fab.replays.find? (fun r => r.1 == uid && r.2.1 == id) = some r) (hdue : r.2.2 ≤ s.cycle)
include hsecond hdue

theorem flitReplay_arrives : exec (.flitReplay uid id false) s =
    .next { s with fab := { s.fab with replays := s.fab.replays.filter fun q => q != r } } := by
  simp only [exec, execFlitReplay, hop, hway, hpair, hsecond, Nat.not_lt.mpr hdue, Bool.false_eq_true, if_false]

/-- A second failure takes the link down, and the caller is told. -/
theorem flitReplay_second : exec (.flitReplay uid id true) s = .next ({ s with fab :=
    { s.fab with replays := s.fab.replays.filter fun q => q != r,
                 linkDown := s.fab.linkDown.filter (· != pair) ++ [pair] } }.setCaller
      { s.caller with linkFaults := s.caller.linkFaults ++ [pair] }) := by
  simp only [exec, execFlitReplay, hop, hway, hpair, hsecond, Nat.not_lt.mpr hdue, if_false, if_true]

end Replay

/-! ### Acceptance (R242, R283, R337) -/

theorem requestAccept_slice (hslice : slice < 128) (hhead : s.headAt slice = some (b, o)) :
    exec (.requestAccept slice) s = .next (s.acceptAt slice b o (o.targetPa.getD 0)) := by
  simp only [exec, execRequestAccept, Nat.not_le.mpr hslice, hhead, if_false]

/-- A slice holds a host line that it accepts a request for. -/
theorem acceptAt_host {pa : Nat} (hspace : paSpace pa = 1) :
    let m := s.mem.hold slice (lineOf pa)
    s.acceptAt slice b o pa = (s.setMem { m with
      hostLines := m.hostLines.put (lineOf pa) (o.kind.writesHome || (m.hostLines.find (lineOf pa)).getD false) }).setStage
        b.uid o .accepted := if_pos hspace

theorem acceptAt_here {pa : Nat} (hspace : paSpace pa ≠ 1)
    (hhere : o.kind.writesHome = true ∨ isHbm pa = false ∨ s.mem.served slice (lineOf pa) = true) :
    s.acceptAt slice b o pa = s.setStage b.uid o .accepted := by
  refine (if_neg hspace).trans (if_pos ?_)
  rcases hhere with h | h | h <;> simp only [h, Bool.not_false, Bool.true_or, Bool.or_true]

theorem paSpace_of_hbm {pa : Nat} (h : isHbm pa = true) : paSpace pa ≠ 1 := by
  simp only [isHbm, decide_eq_true_eq] at h
  unfold paSpace
  omega

/-- A read of a line that its slice does not serve goes on to the port. -/
theorem acceptAt_port {pa : Nat} (hhbm : isHbm pa = true) (hread : o.kind.writesHome = false)
    (hmiss : s.mem.served slice (lineOf pa) = false) :
    s.acceptAt slice b o pa = (s.setMem (s.mem.lookup slice (lineOf pa))).setStage b.uid o (.atPort s.cycle) := by
  refine (if_neg (paSpace_of_hbm hhbm)).trans (if_neg ?_)
  simp only [hhbm, hread, hmiss, Bool.not_true, Bool.or_self, Bool.false_eq_true, not_false_eq_true]

theorem requestAccept_port (hhead : s.headAtPort port = some (b, o)) :
    exec (.requestAccept (128 + port)) s = .next (s.portAccept b o (o.targetPa.getD 0)) := by
  simp only [exec, execRequestAccept, Nat.le_add_right, Nat.add_sub_cancel_left, hhead, if_true]

/-- With no request at the port, a service slot writes back. -/
theorem requestAccept_writeback (hhead : s.headAtPort port = none) (hwb : s.mem.wbFor port = some slice)
    (hslot : s.slotAllows .service = true) : exec (.requestAccept (128 + port)) s = .next (s.setMem (s.mem.drainWb slice)) := by
  simp only [exec, execRequestAccept, Nat.le_add_right, Nat.add_sub_cancel_left, hhead, hwb, hslot, if_true]

/-! ### Refill, and the steps of the caches (R370, R240, R276, R277) -/

theorem tokenRefill_period (hperiod : s.cycle % Config.period = 0) : exec .tokenRefill s = .next { s with
    cores := (s.cores.map fun kv => (kv.1, kv.2.refill s.quota)).filter fun kv => kv.2 != Core.reset } := if_pos hperiod

theorem inService_of_slot (hslot : s.slotAllows .service = true) (m : MemSys) : s.inService m = s.setMem m := if_pos hslot

theorem recallLine_recalls (hslot : s.slotAllows .service = true) :
    exec (.recallLine line) s = .next (s.setMem (s.mem.recallLine line)) := congrArg _ (inService_of_slot hslot _)

theorem l1Writeback_evicts (hslot : s.slotAllows .service = true) :
    exec (.l1Writeback quad line) s = .next (s.setMem (s.mem.l1Evict quad line)) := congrArg _ (inService_of_slot hslot _)

theorem mergingFill_fills (hplay : (s.tile (quad / 4)).inPlay = true) : exec (.mergingFill quad line) s =
    .next ((s.scanHome (lineLocs line)).inService ((s.scanHome (lineLocs line)).mem.fill quad line)) :=
  if_neg (by rw [hplay]; exact Bool.false_ne_true)

theorem ownershipGrant_grants (hslot : s.slotAllows .service = true) (hwants : s.mem.wantsGrant quad line = true) :
    exec (.ownershipGrant quad line) s = .next (s.setMem (s.mem.grant quad line)) := by
  simp only [exec, execOwnershipGrant, hwants, inService_of_slot hslot, if_true]

/-! ### The obligation -/

/-- Settles O37: an injection by what its request is, an acceptance by where the request goes, the steps of the caches by their
service slot. -/
theorem fabricSteps : Obligations.FabricSteps := by
  intro s
  refine ⟨fun core t uid id b o hplay hslot hop hcore hwants hten hmay hlink =>
      flitInject_admitted hplay hslot (flitOf_operation hop hcore hwants hmay hlink) hten,
    fun core t uid b a hplay hslot hop hb hcore hask hten hmay hlink =>
      flitInject_admitted hplay hslot (flitOf_ask hop hb hcore hask hmay hlink) hten,
    fun core t uid id r hplay hslot hop hb hreq hten hmay hlink =>
      flitInject_admitted hplay hslot (flitOf_site hop hb hreq hmay hlink) hten,
    fun core cls uid id => flitInject_violates,
    fun uid id b o pair hop hway hpair => ⟨flitReplay_first hop hway hpair, fun r hsecond hdue =>
      ⟨flitReplay_arrives hop hway hpair hsecond hdue, flitReplay_second hop hway hpair hsecond hdue⟩⟩,
    fun a b => rfl,
    fun slice b o hslice hhead => ?slice,
    fun port b o hhead => requestAccept_port hhead,
    fun port slice => requestAccept_writeback,
    tokenRefill_period,
    fun quad line hslot => ⟨recallLine_recalls hslot, mergingFill_fills, l1Writeback_evicts hslot,
      ownershipGrant_grants hslot⟩⟩
  case slice =>
    dsimp only
    rw [requestAccept_slice hslice hhead]
    exact ⟨fun h => congrArg _ (acceptAt_host h), fun h h' => congrArg _ (acceptAt_here h h'),
      fun h h' h'' => congrArg _ (acceptAt_port h h' h'')⟩

end Sys2Proof.Machine
end

section
/-!
PROOFS. The watch mesh: beats, windows and suspicion, sitting out and its notices, self-tests, and the caller's fabric commands.
-/
namespace Sys2Proof.Machine

variable {s : State} {core dir sender slice line : Nat} {w : W64}

/-! ### Beats (R341, R342) -/

/-- A beating tile sends its beat, or a babbling one further beats. -/
theorem beatSend_sends (hruns : (s.tile core).stopped = false) (hbeats : (s.tile core).state.beats = true)
    (hboot : s.mgmt.booted = true) :
    let t := s.tile core
    let w := if 0 < t.badNext then s.beatWord core ^^^ 1 else s.beatWord core
    let u := s.setTile core
      { t with badNext := t.badNext - 1, health := s.healthOf core, uncAt := s.mem.unc core,
               rejoinBeats := if t.state = .rejoin then t.rejoinBeats + 1 else t.rejoinBeats }
    exec (.beatSend core) s =
      .next { u with agenda := u.agenda ++ (List.replicate (1 + t.extra) (beatTo core w)).flatten } := by
  refine if_neg ?_
  rw [hruns, hbeats, hboot]
  exact Bool.false_ne_true

theorem beatReceive_judges (hrecord : recordOf core dir = some sender) (beat : W64) :
    let r := (s.nbr core dir).judge s.cycle sender ((s.tile sender).state == .rejoin) beat
    let u := s.setNbr core dir r.1
    exec (.beatReceive core dir beat) s =
      .next (reviewAll reviewFuel [core] (if dir = ownDir then u.ownEvidence core r.2 else u)) := by
  simp only [exec, execBeatReceive, hrecord]

/-! ### Windows and suspicion (R342) -/

section Windows

variable (hrecord : recordOf core dir = some sender) (hbeats : (s.tile sender).state.beats = true)
include hrecord hbeats

theorem windowEnd_seen (hseen : (s.nbr core dir).seen = true) : exec (.windowEnd core dir) s =
    .next (reviewAll reviewFuel [core] (s.setNbr core dir { s.nbr core dir with missed := 0, seen := false })) := by
  simp only [exec, execWindowEnd, hrecord, hbeats, hseen, Bool.not_true, Bool.false_eq_true, if_false, if_true,
    show decide (3 ≤ 0) = false from rfl, Bool.false_and]

/-- A neighbour's record after one more window without a good beat. -/
def Nbr.missedOne (n : Nbr) : Nbr := { n with missed := n.missed + 1, good := 0, admitBit := false }

/-- A window without a good beat: silence from the third in a row on, which a tile's own gate unit counts as evidence. -/
theorem windowEnd_missed (hmissed : (s.nbr core dir).seen = false) {silent own : Bool}
    (hsilent : decide (3 ≤ (s.nbr core dir).missedOne.missed) = silent) (hown : (dir == ownDir) = own) :
    let n := (s.nbr core dir).missedOne
    let u := s.setNbr core dir (if silent then { n with susp := true, evidence := periodOf s.cycle } else n)
    exec (.windowEnd core dir) s =
      .next (reviewAll reviewFuel [core] (if silent && own then u.ownEvidence core [1] else u)) := by
  subst hsilent hown
  simp only [exec, execWindowEnd, hrecord, hbeats, hmissed, Nbr.missedOne, Bool.not_true, Bool.false_eq_true, if_false]

end Windows

theorem suspicionExpiry_clears (hsusp : (s.nbr core dir).susp = true)
    (hold : recent (periodOf s.cycle) (s.nbr core dir).evidence = false) :
    exec (.suspicionExpiry core dir) s = .next (s.setNbr core dir { s.nbr core dir with susp := false }) :=
  if_pos (by rw [hsusp, hold]; rfl)

/-! ### Sitting out (R344, R347, R348) -/

/-- The state once a slice has served the last requests of a silenced tile and has forgotten it. -/
def State.noticed (s : State) (slice core : Nat) : State :=
  let u := (s.endUpdates.lastRequests slice core).foldl (fun s r => s.serveLast r.1 r.2) s.endUpdates
  let u := u.setMem (u.mem.forgetTile slice core)
  { u with fab := { u.fab with notices := u.fab.notices.filter fun n => n != (slice, core) } }

section Notices

variable (hplay : (s.tile core).inPlay = false) (hslot : s.slotAllows .service = true)
  (hwaits : s.endUpdates.lastWaits slice core = false)
include hplay hslot hwaits

theorem sitOutNotice_serves :
    let u := s.noticed slice core
    exec (.sitOutNotice slice core) s =
      if (s.tile core).state = .out ∧ !u.fab.notices.any (fun n => n.2 == core) then
        .next (reviewAll reviewFuel ((List.range 8).filterMap (nbrOf core)) (u.setTile core ((s.tile core).afterOut u.cycle)))
      else .next u := by
  refine (if_neg ?_).trans (if_neg ?_)
  · rw [hplay, hslot]; exact Bool.false_ne_true
  · rw [hwaits]; exact Bool.false_ne_true

theorem sitOutNotice_stays
    (hstays : (s.tile core).state ≠ .out ∨ (s.noticed slice core).fab.notices.any (fun n => n.2 == core) = true) :
    exec (.sitOutNotice slice core) s = .next (s.noticed slice core) := by
  refine (sitOutNotice_serves hplay hslot hwaits).trans (if_neg ?_)
  rintro ⟨hout, hlast⟩
  rcases hstays with h | h
  · exact h hout
  · rw [h] at hlast; exact Bool.false_ne_true hlast

/-- With the last of its notices an OUT tile goes on. -/
theorem sitOutNotice_last (hout : (s.tile core).state = .out)
    (hlast : (s.noticed slice core).fab.notices.any (fun n => n.2 == core) = false) :
    let u := s.noticed slice core
    exec (.sitOutNotice slice core) s = .next (reviewAll reviewFuel ((List.range 8).filterMap (nbrOf core))
      (u.setTile core ((s.tile core).afterOut u.cycle))) :=
  (sitOutNotice_serves hplay hslot hwaits).trans (if_pos ⟨hout, by rw [hlast]; rfl⟩)

end Notices

/-- What a recall or a grant leaves of a line of a silenced tile: the tile's copies are gone, and the line is poisoned. -/
def MemSys.nackLost (m : MemSys) (line core : Nat) : MemSys :=
  ({ m with
      dir := match m.dir.find line with
        | some e => m.dir.put line (e.without core)
        | none => m.dir
      l1 := m.l1.filter fun l => !(l.quad / 4 == core && l.line == line) } : MemSys).poisonLine line

theorem satOutNack_loses {kind : NackKind} (hplay : (s.tile core).inPlay = false) (hkind : kind ≠ .sharedInvalidation) :
    exec (.satOutNack kind line core) s = .next (s.setMem (s.mem.nackLost line core)) := by
  refine (if_neg (by rw [hplay]; exact Bool.false_ne_true)).trans ?_
  match kind, hkind with
  | .sharedInvalidation, h => exact absurd rfl h
  | .recall, _ => rfl
  | .grant, _ => rfl

theorem MemSys.poisonLine_lpoison (m : MemSys) (line : Nat) {i : Nat} (hi : i < 16) : (16 * line + i) ∈ (m.poisonLine line).lpoison :=
  List.mem_append_right _ (List.mem_map_of_mem (List.mem_range.mpr hi))

theorem MemSys.nackLost_l1 (m : MemSys) {l : L1Line} (hl : l ∈ (m.nackLost line core).l1) : ¬(l.quad / 4 = core ∧ l.line = line) := by
  rintro ⟨hcore, hline⟩
  simpa only [hcore, hline, beq_self_eq_true, Bool.and_self, Bool.not_true, Bool.false_eq_true] using (List.mem_filter.mp hl).2

/-! ### Self-tests (R350) -/

theorem selftestDone_fails (hstate : (s.tile core).state = .selftest) (hdone : (s.tile core).since + Config.selfTestCycles ≤ s.cycle) :
    exec (.selftestDone core false) s = .next (s.setTile core { s.tile core with state := .retired, since := s.cycle }) := by
  refine (if_neg ?_).trans (if_neg Bool.false_ne_true)
  rintro (h | h)
  · exact h hstate
  · exact Nat.not_lt.mpr hdone h

/-- A tile that passed its self-test, as it enters REJOIN. -/
def TileVote.rejoined (t : TileVote) (cycle : Nat) : TileVote :=
  { t.enter .rejoin cycle with passed := true, stopped := false, extra := 0, badNext := 0, rejoinBeats := 0 }

theorem selftestDone_passes (hstate : (s.tile core).state = .selftest) (hdone : (s.tile core).since + Config.selfTestCycles ≤ s.cycle) :
    exec (.selftestDone core true) s = .next ((s.setMem (s.mem.wipeCore core)).setCore core
      { s.core core with tile := (s.tile core).rejoined s.cycle, zeroing := [], siteReqs := [] }) := by
  refine (if_neg ?_).trans (if_pos rfl)
  rintro (h | h)
  · exact h hstate
  · exact Nat.not_lt.mpr hdone h

theorem MemSys.wipeCore_spad (m : MemSys) (core : Nat) {a : Nat} (ha : a < 2 ^ 20) :
    (m.wipeCore core).spad.get blankByte (core * 2 ^ 20 + a) = 0 :=
  SMap.get_dropRange_inside _ _ (Nat.le_add_right _ _) (by simp only [spadSize]; omega)

theorem MemSys.wipeCore_l1 (m : MemSys) (core : Nat) {l : L1Line} (hl : l ∈ (m.wipeCore core).l1) : l.quad / 4 ≠ core :=
  bne_iff_ne.mp (List.mem_filter.mp hl).2

/-! ### The caller's fabric commands (R345, R349) -/

theorem fabricStep_fits {fits : Vote → Bool} (act : State → Nat → State) (hw : fabricCmd w = some core)
    (hfits : fits (s.tile core).state = true) : s.fabricStep w fits act = (act s core).cmdOk := by
  simp only [State.fabricStep, hw, hfits, if_true]

theorem fabricStep_refused {fits : Vote → Bool} (act : State → Nat → State) (hw : fabricCmd w = some core)
    (hfits : fits (s.tile core).state = false) : s.fabricStep w fits act = s.cmdBad := by
  simp only [State.fabricStep, hw, hfits, Bool.false_eq_true, if_false]

theorem setout_sits_out (hw : fabricCmd w = some core) (hstate : (s.tile core).state = .live ∨ (s.tile core).state = .suspect) :
    exec (.setout w) s =
      .next (reviewAll reviewFuel ((List.range 8).filterMap (nbrOf core)) (s.sitOut core 5)).cmdOk := by
  have hnot : (s.tile core).state ≠ .probation := by rcases hstate with h | h <;> rw [h] <;> decide
  have hfits : ((s.tile core).state == .live || (s.tile core).state == .suspect || (s.tile core).state == .probation) = true := by
    rcases hstate with h | h <;> rw [h] <;> rfl
  exact congrArg _ ((fabricStep_fits _ hw hfits).trans (by rw [if_neg hnot]))

theorem setout_falls_back (hw : fabricCmd w = some core) (hstate : (s.tile core).state = .probation) :
    exec (.setout w) s = .next (s.fallBack core 5).cmdOk :=
  congrArg _ ((fabricStep_fits _ hw (by rw [hstate]; rfl)).trans (by rw [if_pos hstate]))

theorem setout_refused (hw : fabricCmd w = some core) (hstate : (s.tile core).state ∉ [.live, .suspect, .probation]) :
    exec (.setout w) s = .next s.cmdBad := by
  simp only [List.mem_cons, List.not_mem_nil, or_false, not_or] at hstate
  obtain ⟨hlive, hsuspect, hprobation⟩ := hstate
  refine congrArg _ (fabricStep_refused _ hw ?_)
  simp only [beq_eq_false_iff_ne.mpr hlive, beq_eq_false_iff_ne.mpr hsuspect, beq_eq_false_iff_ne.mpr hprobation, Bool.or_self]

theorem readmit_refused (hw : fabricCmd w = some core) (hstate : (s.tile core).state ≠ .probation) :
    exec (.readmit w) s = .next s.cmdBad :=
  congrArg _ (fabricStep_refused (fits := fun v => v == .probation) _ hw (beq_eq_false_iff_ne.mpr hstate))

theorem retire_refused (hw : fabricCmd w = some core) (hstate : (s.tile core).state ≠ .probation) :
    exec (.retire w) s = .next s.cmdBad :=
  congrArg _ (fabricStep_refused (fits := fun v => v == .probation) _ hw (beq_eq_false_iff_ne.mpr hstate))

theorem retire_retires (hw : fabricCmd w = some core) (hstate : (s.tile core).state = .probation) :
    exec (.retire w) s = .next (s.setTile core { s.tile core with state := .retired, since := s.cycle }).cmdOk :=
  congrArg _ (fabricStep_fits (fits := fun v => v == .probation) _ hw (beq_iff_eq.mpr hstate))

theorem readmit_readmits (hw : fabricCmd w = some core) (hstate : (s.tile core).state = .probation) :
    let u := s.setTile core { s.tile core with state := .live, since := s.cycle }
    let u := u.setMem { u.mem with cut := u.mem.cut.filter (· != core) }
    exec (.readmit w) s =
      .next (u.setCaller { u.caller with outCores := u.caller.outCores.filter (· != core) }).cmdOk :=
  congrArg _ (fabricStep_fits (fits := fun v => v == .probation) _ hw (beq_iff_eq.mpr hstate))

/-! ### The obligation -/

/-- Settles O41: a beat and a window by what the record says, a notice by whether it is the last, a self-test by its result, a
fabric command by whether the tile's state fits it. -/
theorem watchSteps : Obligations.WatchSteps := by
  intro s core dir
  refine ⟨beatSend_sends, fun sender beat hrecord => beatReceive_judges hrecord beat,
    fun sender => windowEnd_seen, fun sender hrecord hbeats hmissed => ?missed, suspicionExpiry_clears,
    fun slice hplay hslot hwaits => ?notice, fun line kind hplay hkind => ?nack,
    fun hstate hdone => ⟨selftestDone_fails hstate hdone, ?passed⟩,
    rfl, fun n => rfl, fun n => rfl, fun w => setout_sits_out, fun w => setout_refused,
    fun w hw hstate => ⟨readmit_refused hw hstate, retire_refused hw hstate⟩,
    fun w hw hstate => ⟨setout_falls_back hw hstate, retire_retires hw hstate, readmit_readmits hw hstate⟩⟩
  case missed =>
    refine ⟨fun hfew => ?_, fun hsilent hdir => ?_, fun hsilent hdir => ?_⟩
    · have hfew : decide (3 ≤ (s.nbr core dir).missedOne.missed) = false := decide_eq_false (Nat.not_le.mpr hfew)
      simpa only [Bool.false_and, Bool.false_eq_true, if_false, Nbr.missedOne] using windowEnd_missed hrecord hbeats hmissed hfew rfl
    · have hsilent : decide (3 ≤ (s.nbr core dir).missedOne.missed) = true := decide_eq_true hsilent
      simpa only [Bool.and_false, Bool.false_eq_true, if_false, if_true, Nbr.missedOne] using
        windowEnd_missed hrecord hbeats hmissed hsilent (beq_eq_false_iff_ne.mpr hdir)
    · have hsilent : decide (3 ≤ (s.nbr core dir).missedOne.missed) = true := decide_eq_true hsilent
      simpa only [Bool.and_self, if_true, Nbr.missedOne] using windowEnd_missed hrecord hbeats hmissed hsilent (beq_iff_eq.mpr hdir)
  case notice =>
    exact ⟨sitOutNotice_stays hplay hslot hwaits, sitOutNotice_last hplay hslot hwaits⟩
  case nack =>
    exact ⟨_, satOutNack_loses hplay hkind, fun i => MemSys.poisonLine_lpoison _ line, fun l => MemSys.nackLost_l1 s.mem⟩
  case passed =>
    have htile : ((s.setMem (s.mem.wipeCore core)).setCore core
        { s.core core with tile := (s.tile core).rejoined s.cycle, zeroing := [], siteReqs := [] }).tile core =
      (s.tile core).rejoined s.cycle := by rw [State.tile, State.core_setCore_self]
    refine ⟨_, selftestDone_passes hstate hdone, ?_, ?_, ?_, fun l => MemSys.wipeCore_l1 s.mem core,
      fun a => MemSys.wipeCore_spad s.mem core⟩
    · rw [htile]; rfl
    · rw [htile]; rfl
    · rw [State.core_setCore_self]

end Sys2Proof.Machine
end

section
/-!
PROOFS. Accesses of the register pages, queue ports, the calendar and the quota table, invalidations, and the poll of a dirty log.
-/
namespace Sys2Proof.Machine

variable {s : State} {fn off width port p ten : Nat} {v : W64} {data : List Byte}

/-! ### Register pages (R353, R354, R369) -/

section Pages

variable (hlink : s.host.link0 = true) (hreach : fn = 0 ∨ s.mgmt.booted = true)

include hreach in
theorem reachable_of_boot : s.reachable fn = true := by
  rcases hreach with h | h <;> simp only [State.reachable, h, beq_self_eq_true, Bool.true_or, Bool.or_true]

include hlink hreach

theorem registerWrite_writes (hwidth : width < 256) (hok : (beyondPage off || pageAccess off width) = true) :
    exec (.registerWrite fn off width v) s =
      .next (if beyondPage off then s.writeBeyond fn off width v else if fn = 0 then s.writePf off v else s.writeInv fn off v) := by
  have hread : decide (readCode ≤ width) = false := decide_eq_false (Nat.not_le.mpr hwidth)
  simp only [exec, execRegisterWrite, hlink, reachable_of_boot hreach, hread, hok, Bool.not_true, Bool.or_self, Bool.false_eq_true,
    if_false]

theorem registerWrite_reads (hok : (beyondPage off || pageAccess off width) = true) :
    exec (.registerWrite fn off (256 + width) v) s = .next (s.send (.data (leBytes width (s.readReg fn off width).toNat))) := by
  have hread : decide (readCode ≤ 256 + width) = true := decide_eq_true (Nat.le_add_right _ _)
  simp only [exec, execRegisterWrite, hlink, reachable_of_boot hreach, hread, Nat.add_sub_cancel_left, hok, Bool.not_true, Bool.or_self,
    Bool.false_eq_true, if_false, if_true]

/-- A write of another size or place is logged. -/
theorem registerWrite_misses (hwidth : width < 256) (hbad : (beyondPage off || pageAccess off width) = false) :
    exec (.registerWrite fn off width v) s = .next (s.hostErr 6 fn (off / 8) 0) := by
  have hread : decide (readCode ≤ width) = false := decide_eq_false (Nat.not_le.mpr hwidth)
  simp only [exec, execRegisterWrite, hlink, reachable_of_boot hreach, hread, hbad, Bool.not_true, Bool.not_false, Bool.or_self,
    Bool.false_eq_true, if_false, if_true]

/-- A read of another size or place is logged, and gives zero. -/
theorem registerRead_misses (hbad : (beyondPage off || pageAccess off width) = false) :
    exec (.registerWrite fn off (256 + width) v) s = .next ((s.send (.data (leBytes width 0))).hostErr 6 fn (off / 8) 0) := by
  have hread : decide (readCode ≤ 256 + width) = true := decide_eq_true (Nat.le_add_right _ _)
  obtain ⟨hpage, haccess⟩ := Bool.or_eq_false_iff.mp hbad
  have hzero : (s.readReg fn off width).toNat = 0 := by
    simp only [State.readReg, reachable_of_boot hreach, hpage, haccess, Bool.not_true, Bool.not_false, Bool.false_eq_true, if_false,
      if_true]
    rfl
  simp only [exec, execRegisterWrite, hlink, reachable_of_boot hreach, hread, Nat.add_sub_cancel_left, hpage, haccess, hzero,
    Bool.not_true, Bool.not_false, Bool.or_self, Bool.false_eq_true, if_false, if_true]

end Pages

theorem beyondPage_of_le (h : 0x20000 ≤ off) : beyondPage off = true := decide_eq_true h

theorem beyondPage_of_lt (h : off < 0x20000) : beyondPage off = false := decide_eq_false (Nat.not_le.mpr h)

theorem pageAccess_of_word (hwidth : width = 8) (hoff : off % 8 = 0) : pageAccess off width = true := by
  simp only [pageAccess, hwidth, hoff, beq_self_eq_true, Bool.and_self]

theorem pageAccess_of_not_word (h : width ≠ 8 ∨ off % 8 ≠ 0) : pageAccess off width = false := by
  rcases h with h | h <;> simp only [pageAccess, beq_eq_false_iff_ne.mpr h, Bool.false_and, Bool.and_false]

/-- With link 0 down, or with a failed boot but for PF0, nothing reaches the pages. -/
theorem registerWrite_unreached (h : ¬(s.host.link0 = true ∧ (fn = 0 ∨ s.mgmt.booted = true))) :
    exec (.registerWrite fn off width v) s = .next s := by
  refine if_pos ?_
  rw [← Bool.not_and, Bool.not_eq_true', ← Bool.not_eq_true, Bool.and_eq_true]
  simpa only [State.reachable, Bool.or_eq_true, beq_iff_eq] using h

theorem vecControl_of_entry {vec : Nat} (hvec : vec < 2048) : vecControl (0x20000 + 16 * vec + 12) 4 = some vec := by
  unfold vecControl vecTable vecBits
  rw [if_pos (by omega)]
  congr 1
  omega

/-- A write of 1 to an entry's Vector Control masks its vector. -/
theorem registerWrite_masks {vec : Nat} (hvec : vec < 2048) : exec (.registerWrite fn (0x20000 + 16 * vec + 12) 4 1) s =
    .next (if s.host.link0 = true ∧ (fn = 0 ∨ s.mgmt.booted = true) then s.maskVector fn vec true else s) := by
  split
  next h =>
    have hpage : beyondPage (0x20000 + 16 * vec + 12) = true := beyondPage_of_le (by omega)
    rw [registerWrite_writes h.1 h.2 (by decide) (by rw [hpage, Bool.true_or]), if_pos hpage, State.writeBeyond,
      vecControl_of_entry hvec]
    rfl
  next h => exact registerWrite_unreached h

/-- The power limit is held to its range (R382). -/
theorem powctlWrite_limits (v : W64) : exec (.powctlWrite v) s =
    .next { s with mgmt := { s.mgmt with plim := max 600 (min 2200 (v.extractLsb' 48 16).toNat) } } := by
  simp only [exec, execPowctlWrite, n64]

/-! ### Queue ports (R360, R361) -/

theorem queuePortWrite_unbooted (hboot : s.mgmt.booted = false) (pasid : Option Nat) (dmwr : Bool) :
    exec (.queuePortWrite fn port pasid dmwr data) s = .next s :=
  if_pos (by rw [hboot, Bool.not_false, Bool.or_true])

theorem not_foreign_port (howner : fn = 0 ∨ ten = fn) : ¬(fn ≠ 0 ∧ ten ≠ fn) := fun ⟨hfn, hten⟩ => howner.elim hfn hten

section Ports

variable (hlink : s.host.link0 = true) (hboot : s.mgmt.booted = true)
include hlink hboot

theorem queuePortWrite_malformed {dmwr : Bool} (hbad : 1024 ≤ port ∨ data.length ≠ 64 ∨ dmwr = false) :
    let t := s.hostErr 4 fn (port % 1024) p
    exec (.queuePortWrite fn port (some p) dmwr data) s = .next (if dmwr then t.send (.portStatus 2) else t) := by
  refine (if_neg ?_).trans (if_pos ?_)
  · rw [hlink, hboot]; exact Bool.false_ne_true
  · rcases hbad with h | h | h
    · rw [decide_eq_true h, Bool.or_true]
    · rw [bne_iff_ne.mpr h, Bool.or_true, Bool.true_or]
    · rw [h]; rfl

variable (hport : port < 1024) (hlen : data.length = 64)
include hport hlen

/-- A record of 64 bytes at a port is judged by the PASID's entry. -/
theorem queuePortWrite_entry {e : Nat} {valid : Bool} (hentry : s.pasidEntry p = some (e, ten, valid)) :
    exec (.queuePortWrite fn port (some p) true data) s =
      if !valid then .next ((s.hostErr 1 fn port p).send (.portStatus 1))
      else
        let t := s.cachePasid p
        if fn ≠ 0 ∧ ten ≠ fn then .next ((t.hostErr 2 fn port p).send (.portStatus 1))
        else if !t.hasQueue ten port then .next ((t.hostErr 3 fn port p).send (.portStatus 1))
        else
          let r := t.acceptRecord ten port data
          if r.2 then .next ((r.1.notify (.csDoorbell ten port)).send (.portStatus 0)) else .next (r.1.send (.portStatus 1)) := by
  simp only [exec, execQueuePortWrite, hlink, hboot, hlen, Nat.not_le.mpr hport, decide_false, bne_self_eq_false, Bool.not_true,
    Bool.or_self, Bool.false_eq_true, if_false, Option.getD_some, Option.bind_some, hentry]

theorem queuePortWrite_invalid {e : Nat} (hentry : s.pasidEntry p = some (e, ten, false)) :
    exec (.queuePortWrite fn port (some p) true data) s = .next ((s.hostErr 1 fn port p).send (.portStatus 1)) :=
  (queuePortWrite_entry hlink hboot hport hlen hentry).trans (if_pos rfl)

variable {e : Nat} (hentry : s.pasidEntry p = some (e, ten, true))
include hentry

theorem queuePortWrite_valid :
    let t := s.cachePasid p
    exec (.queuePortWrite fn port (some p) true data) s =
      if fn ≠ 0 ∧ ten ≠ fn then .next ((t.hostErr 2 fn port p).send (.portStatus 1))
      else if !t.hasQueue ten port then .next ((t.hostErr 3 fn port p).send (.portStatus 1))
      else
        let r := t.acceptRecord ten port data
        if r.2 then .next ((r.1.notify (.csDoorbell ten port)).send (.portStatus 0)) else .next (r.1.send (.portStatus 1)) :=
  (queuePortWrite_entry hlink hboot hport hlen hentry).trans (if_neg Bool.false_ne_true)

theorem queuePortWrite_foreign (hfn : fn ≠ 0) (hten : ten ≠ fn) : exec (.queuePortWrite fn port (some p) true data) s =
    .next (((s.cachePasid p).hostErr 2 fn port p).send (.portStatus 1)) :=
  (queuePortWrite_valid hlink hboot hport hlen hentry).trans (if_pos ⟨hfn, hten⟩)

variable (howner : fn = 0 ∨ ten = fn)
include howner

theorem queuePortWrite_queueless (hqueue : (s.cachePasid p).hasQueue ten port = false) :
    exec (.queuePortWrite fn port (some p) true data) s = .next (((s.cachePasid p).hostErr 3 fn port p).send (.portStatus 1)) :=
  (queuePortWrite_valid hlink hboot hport hlen hentry).trans
    ((if_neg (not_foreign_port howner)).trans (if_pos (by rw [hqueue]; rfl)))

theorem queuePortWrite_offers (hqueue : (s.cachePasid p).hasQueue ten port = true) :
    let r := (s.cachePasid p).acceptRecord ten port data
    exec (.queuePortWrite fn port (some p) true data) s =
      .next (if r.2 then (r.1.notify (.csDoorbell ten port)).send (.portStatus 0) else r.1.send (.portStatus 1)) :=
  ((queuePortWrite_valid hlink hboot hport hlen hentry).trans
    ((if_neg (not_foreign_port howner)).trans (if_neg (by rw [hqueue]; exact Bool.false_ne_true)))).trans
    (apply_ite Host.Outcome.next _ _ _).symm

end Ports

/-! ### The calendar and the quota table (R335, R336, R357) -/

theorem calctlLoad_accepts (hok : tableOk s.fab.shadow (enabledTenants s.host.quota) = true) : exec .calctlLoad s =
    .next { s with fab := { s.fab with pending := some s.fab.shadow, refused := false } } := by
  simp only [exec, execCalctlLoad, hok, if_true]

theorem calctlLoad_refuses (hbad : tableOk s.fab.shadow (enabledTenants s.host.quota) = false) :
    exec .calctlLoad s = .next { s with fab := { s.fab with refused := true } } := by
  simp only [exec, execCalctlLoad, hbad, Bool.false_eq_true, if_false]

theorem calendarCommit_commits {t : SMap Byte} (hpending : s.fab.pending = some t) (hslot : slotOf s.cycle = 0) :
    exec .calendarCommit s = .next { s with fab := { s.fab with table := t, pending := none } } := by
  simp only [exec, execCalendarCommit, hpending, hslot, if_true]

theorem qtctlLoad_unbooted (hboot : s.mgmt.booted = false) : exec .qtctlLoad s = .next s := if_pos (by rw [hboot]; rfl)

theorem qtctlLoad_refuses (hboot : s.mgmt.booted = true) (hnext : s.host.quotaNext = none) (hbad : quotaOk (readQuota s) = false) :
    exec .qtctlLoad s = .next (s.setHost { s.host with qtRefused := true }) := by
  simp only [exec, execQtctlLoad, hboot, hnext, hbad, Bool.not_true, Bool.not_false, Bool.false_eq_true, if_false, if_true]

theorem qtctlLoad_reads (hboot : s.mgmt.booted = true) (hnext : s.host.quotaNext = none) (hok : quotaOk (readQuota s) = true) :
    let t := s.setHost { s.host with quotaNext := some (quotaOf (readQuota s)), qtRefused := false }
    exec .qtctlLoad s = .next (t.askStop t.departing 2) := by
  simp only [exec, execQtctlLoad, hboot, hnext, hok, Bool.not_true, Bool.false_eq_true, if_false]

/-- With no block left on a departing quadrant the banks are handed over, and the calendar is the next to be committed. -/
theorem qtctlLoad_hands {qt : SMap QEntry} (hboot : s.mgmt.booted = true) (hnext : s.host.quotaNext = some qt)
    (hempty : s.departing = []) :
    let t := s.handQuads qt
    exec .qtctlLoad s =
      if t.fab.table = buildCalendar qt then .next (t.commitQuota qt)
      else if t.fab.pending = some (buildCalendar qt) then .next t
      else .next { t with fab := { t.fab with pending := some (buildCalendar qt) } } := by
  simp only [exec, execQtctlLoad, hboot, hnext, hempty, List.isEmpty_nil, Bool.not_true, Bool.false_eq_true, if_false]

/-! ### Invalidations (R367, R368) -/

/-- A GO of the register's own scope drops what it matches at once. -/
theorem invGo_drops {scope : Nat} (hidle : (s.inv fn).busy = false) (hscope : (s.inv fn).scope = scope)
    (hown : s.invForeign fn (s.inv fn) = false) :
    let r := s.inv fn
    (.next (s.invStart fn scope) : Host.Outcome State Fault Refusal) =
      .next ((s.invDrop r (r.tenant fn)).setInv fn { r with busy := true, refused := false, upto := s.nextId }) := by
  refine congrArg _ (if_neg ?_)
  rw [hidle, hscope, hown, bne_self_eq_false]
  exact Bool.false_ne_true

/-- Once everything issued before is performed, what was cached since goes too. -/
theorem invalidationDone_drops (hbusy : (s.inv fn).busy = true) (hwaits : s.invWaits (s.inv fn) ((s.inv fn).tenant fn) = false) :
    let r := s.inv fn
    exec (.invalidationDone fn) s =
      .next ((s.invDrop r (r.tenant fn)).setInv fn { r with busy := false, done := r.done + 1 }) := by
  refine if_neg ?_
  rw [hbusy, hwaits]
  exact Bool.false_ne_true

/-! ### The dirty log (R374) -/

theorem dirtyLogPoll_low (hon : (s.quota ten).enable = true) (hlog : (s.quota ten).logon = true) (hfree : s.dlogFree ten ≤ 1024)
    (hruns : bitN (s.dlogNum ten 9 1) 1 = false) (hlow : s.host.low.contains ten = false) :
    let t := (s.setDlFlag ten 2 true).setHost { s.host with low := s.host.low ++ [ten] }
    exec (.dirtyLogPoll ten) s = .next (t.raiseEvent ten (t.dlogNum ten 0xA 2)) := by
  simp only [exec, execDirtyLogPoll, hon, hlog, hfree, hruns, hlow, Bool.and_self, Bool.not_true, Bool.not_false, and_self,
    Bool.false_eq_true, if_false, if_true]

/-! ### The obligation -/

/-- Settles O47: an access by its size and place, a port write by the first row that applies, the quota table by how far its load
has come, an invalidation at its GO and at its end. -/
theorem registerSteps : Obligations.RegisterSteps := by
  intro s
  refine ⟨fun fn off width v hlink hreach hwidth => ⟨fun hoff => ?beyond, fun hoff hword halign => ?word, fun hoff hbad => ?bad⟩,
    fun v => ⟨_, powctlWrite_limits v, rfl, rfl⟩,
    fun hboot => ⟨fun fn port p dmwr data => queuePortWrite_unbooted hboot p dmwr, qtctlLoad_unbooted hboot⟩,
    fun fn vec => registerWrite_masks,
    fun fn port p dmwr data hlink hboot hbad => queuePortWrite_malformed hlink hboot hbad,
    fun fn port p data e ten valid hlink hboot hport hlen hentry => ?port,
    ⟨calctlLoad_accepts, calctlLoad_refuses⟩,
    fun t => calendarCommit_commits,
    fun hboot hnext => ⟨qtctlLoad_refuses hboot hnext, qtctlLoad_reads hboot hnext⟩,
    fun qt hboot hnext hempty => ?quota,
    fun fn => ⟨invGo_drops, invGo_drops, invGo_drops, invGo_drops, invGo_drops, invalidationDone_drops⟩,
    fun ten => dirtyLogPoll_low⟩
  case beyond =>
    have hpage := beyondPage_of_le hoff
    have hok : (beyondPage off || pageAccess off width) = true := by rw [hpage, Bool.true_or]
    exact ⟨(registerWrite_writes hlink hreach hwidth hok).trans (congrArg _ (if_pos hpage)), registerWrite_reads hlink hreach hok⟩
  case word =>
    have hpage := beyondPage_of_lt hoff
    have hok : (beyondPage off || pageAccess off width) = true := by rw [pageAccess_of_word hword halign, Bool.or_true]
    subst hword
    exact ⟨(registerWrite_writes hlink hreach hwidth hok).trans (congrArg _ (if_neg (by rw [hpage]; exact Bool.false_ne_true))),
      registerWrite_reads hlink hreach hok⟩
  case bad =>
    have hmisses : (beyondPage off || pageAccess off width) = false := by
      rw [beyondPage_of_lt hoff, pageAccess_of_not_word hbad, Bool.or_self]
    exact ⟨registerWrite_misses hlink hreach hwidth hmisses, registerRead_misses hlink hreach hmisses⟩
  case port =>
    refine ⟨?_, ?_, ?_, ?_⟩ <;> rintro rfl
    · exact queuePortWrite_invalid hlink hboot hport hlen hentry
    · exact queuePortWrite_foreign hlink hboot hport hlen hentry
    · exact queuePortWrite_queueless hlink hboot hport hlen hentry
    · exact queuePortWrite_offers hlink hboot hport hlen hentry
  case quota =>
    have hload := qtctlLoad_hands hboot hnext hempty
    exact ⟨fun hsame => hload.trans (if_pos hsame), fun hdiffers hpending => hload.trans ((if_neg hdiffers).trans (if_neg hpending))⟩

end Sys2Proof.Machine
end
